-- ==== Sys2Proof/Word.lean ====
section
/-! DEFINITION. Words, bytes, register numbers and the names of threads and groups. -/

namespace Sys2Proof

/-- R9, R48: registers and instruction words are 32 bits. -/
abbrev Word := BitVec 32

/-- The unit of memory (R113). -/
abbrev Byte := BitVec 8

/-- The number of a vector register v0 to v127 (R56). -/
abbrev VReg := BitVec 7

/-- The number of a group register g0 to g31 (R9, R399). -/
abbrev GReg := BitVec 5

/-- The number of a predicate p0 to p7 (R9). -/
abbrev PReg := BitVec 3

/-- The name of a group: its team and its GIDX (R9, R10). -/
structure GId where
  team  : Nat
  group : Nat
deriving DecidableEq, Repr

/-- The name of a thread: its team, its group and its index in the group (R10: TID is group × w + index). -/
structure TId where
  team  : Nat
  group : Nat
  idx   : Nat
deriving DecidableEq, Repr

/-- The group of a thread. -/
def TId.gid (t : TId) : GId := ⟨t.team, t.group⟩

/-- A completion that arrives from a bridge position: the access it answers and its STATUS, 0 OK, 1 RANGE, 2 UNCORR,
3 BADOP (R291). -/
structure Completion where
  op     : Nat
  status : BitVec 2
deriving DecidableEq, Repr

end Sys2Proof
end

