-- ==== Sys2Proof/Syntax.lean ====
section
/-! DEFINITION. The instructions and events of the machine: one constructor per row of spec/opcode_table.json.
First the rows with an encoding: instruction forms (their fields are those of the row's encoding, in the order high bits first,
extension word last); then the part's events, which have no encoding and whose arguments name what the
event acts on or what the resident kernel, the host or a base die chose. -/

namespace Sys2Proof

/-- The instruction forms in the order of the opcode table, then the events. -/
inductive Instr where
  /-- R377. Adds two 32-bit registers modulo 2^32. -/
  | iadd (d : VReg) (a : VReg) (b : VReg)
  /-- R377. Subtracts vb from va modulo 2^32. -/
  | isub (d : VReg) (a : VReg) (b : VReg)
  /-- R377. Writes the low 32 bits of va times vb. -/
  | imul (d : VReg) (a : VReg) (b : VReg)
  /-- R377. Writes the high 32 bits of the signed 64-bit product. -/
  | imulhS (d : VReg) (a : VReg) (b : VReg)
  /-- R377. Writes the high 32 bits of the unsigned 64-bit product. -/
  | imulhN (d : VReg) (a : VReg) (b : VReg)
  /-- R377. Writes va times vb plus vd modulo 2^32. -/
  | imad (d : VReg) (a : VReg) (b : VReg)
  /-- R377. Writes the signed minimum of va and vb. -/
  | iminS (d : VReg) (a : VReg) (b : VReg)
  /-- R377. Writes the unsigned minimum of va and vb. -/
  | iminN (d : VReg) (a : VReg) (b : VReg)
  /-- R377. Writes the signed maximum of va and vb. -/
  | imaxS (d : VReg) (a : VReg) (b : VReg)
  /-- R377. Writes the unsigned maximum of va and vb. -/
  | imaxN (d : VReg) (a : VReg) (b : VReg)
  /-- R377. Writes the absolute value of va as .s32 modulo 2^32. -/
  | iabs (d : VReg) (a : VReg)
  /-- R377. Writes va when vd is non-zero, otherwise vb. -/
  | isel (d : VReg) (a : VReg) (b : VReg)
  /-- R378. Adds the two 16-bit halves separately without carry between them. -/
  | iadd2 (d : VReg) (a : VReg) (b : VReg)
  /-- R378. Subtracts the two 16-bit halves separately. -/
  | isub2 (d : VReg) (a : VReg) (b : VReg)
  /-- R378. Takes the signed minimum of each 16-bit half. -/
  | imin2S (d : VReg) (a : VReg) (b : VReg)
  /-- R378. Takes the unsigned minimum of each 16-bit half. -/
  | imin2N (d : VReg) (a : VReg) (b : VReg)
  /-- R378. Takes the signed maximum of each 16-bit half. -/
  | imax2S (d : VReg) (a : VReg) (b : VReg)
  /-- R378. Takes the unsigned maximum of each 16-bit half. -/
  | imax2N (d : VReg) (a : VReg) (b : VReg)
  /-- R394. Takes the signed maximum of each half and records the decision in bit 0. -/
  | maxd2 (d : VReg) (a : VReg) (b : VReg)
  /-- R322. Writes the bitwise AND of va and vb. -/
  | and (d : VReg) (a : VReg) (b : VReg)
  /-- R409. Writes the bitwise OR of va and vb. -/
  | or (d : VReg) (a : VReg) (b : VReg)
  /-- R448. Writes the bitwise XOR of va and vb. -/
  | xor (d : VReg) (a : VReg) (b : VReg)
  /-- R405. Writes the bitwise complement of va. -/
  | not (d : VReg) (a : VReg)
  /-- R423. Shifts va left by vb[4:0]. -/
  | shl (d : VReg) (a : VReg) (b : VReg)
  /-- R423. Shifts va right logically by vb[4:0]. -/
  | shr (d : VReg) (a : VReg) (b : VReg)
  /-- R423. Shifts va right arithmetically by vb[4:0]. -/
  | sar (d : VReg) (a : VReg) (b : VReg)
  /-- R423. Rotates va left by vb[4:0]. -/
  | rot (d : VReg) (a : VReg) (b : VReg)
  /-- R333. Extracts a sign-extended bit field from va. -/
  | bfxS (d : VReg) (a : VReg) (b : VReg)
  /-- R333. Extracts a zero-extended bit field from va. -/
  | bfxN (d : VReg) (a : VReg) (b : VReg)
  /-- R333. Inserts a bit field of va into vd. -/
  | bfi (d : VReg) (a : VReg) (b : VReg)
  /-- R410. Writes the number of 1 bits in va. -/
  | popc (d : VReg) (a : VReg)
  /-- R339. Writes the count of leading zero bits of va. -/
  | clz (d : VReg) (a : VReg)
  /-- R335. Writes va with its bit order reversed. -/
  | brev (d : VReg) (a : VReg)
  /-- R399. Copies va to vd with its poison. -/
  | mov (d : VReg) (a : VReg)
  /-- R399. Copies va into group register gd. -/
  | movgToG (g : GReg) (a : VReg)
  /-- R399. Copies group register ga into vd. -/
  | movgFromG (d : VReg) (g : GReg)
  /-- R377. Adds a sign-extended 12-bit literal to va. -/
  | iaddi (d : VReg) (a : VReg) (imm : BitVec 12)
  /-- R322. ANDs va with a sign-extended 12-bit literal. -/
  | andi (d : VReg) (a : VReg) (imm : BitVec 12)
  /-- R409. ORs va with a sign-extended 12-bit literal. -/
  | ori (d : VReg) (a : VReg) (imm : BitVec 12)
  /-- R448. XORs va with a sign-extended 12-bit literal. -/
  | xori (d : VReg) (a : VReg) (imm : BitVec 12)
  /-- R341. Compares two 32-bit integers and writes a predicate. -/
  | cmpi (p : PReg) (a : VReg) (b : VReg) (c : BitVec 5)
  /-- R58. Writes a sign-extended 12-bit literal to vd. -/
  | movi (d : VReg) (imm : BitVec 12)
  /-- R58. Writes the 32-bit extension word to vd. -/
  | moviX (d : VReg) (lit : Word)
  /-- R392. Forms a 64-bit address from a register pair plus a literal. -/
  | lea (d : VReg) (a : VReg) (imm : BitVec 12)
  /-- R355. Adds two FP32 values rounding to nearest even. -/
  | fadd (d : VReg) (a : VReg) (b : VReg)
  /-- R355. Subtracts two FP32 values. -/
  | fsub (d : VReg) (a : VReg) (b : VReg)
  /-- R355. Multiplies two FP32 values. -/
  | fmul (d : VReg) (a : VReg) (b : VReg)
  /-- R355. Fused FP32 multiply-add with one rounding. -/
  | ffma (d : VReg) (a : VReg) (b : VReg)
  /-- R356. Delivers the FP32 minimum preferring numbers over NaN. -/
  | fmin (d : VReg) (a : VReg) (b : VReg)
  /-- R356. Delivers the FP32 maximum preferring numbers over NaN. -/
  | fmax (d : VReg) (a : VReg) (b : VReg)
  /-- R361. Adds a two-term BF16 dot product to an FP32 accumulator. -/
  | fdot2 (d : VReg) (a : VReg) (b : VReg)
  /-- R127. Writes an unsigned order key of an FP32 value. -/
  | fkey (d : VReg) (a : VReg)
  /-- R357. Writes a one-hot class mask of an FP32 value. -/
  | fclass (d : VReg) (a : VReg)
  /-- R359. Converts va between the format pair selected by fn. -/
  | fcvt (d : VReg) (a : VReg) (f : BitVec 5)
  /-- R358. Writes the correctly rounded reciprocal. -/
  | frcp (d : VReg) (a : VReg)
  /-- R358. Writes the correctly rounded reciprocal square root. -/
  | frsq (d : VReg) (a : VReg)
  /-- R358. Writes the correctly rounded square root. -/
  | fsqrt (d : VReg) (a : VReg)
  /-- R358. Writes the correctly rounded 2 to the power x. -/
  | fexp2 (d : VReg) (a : VReg)
  /-- R358. Writes the correctly rounded base-2 logarithm. -/
  | flog2 (d : VReg) (a : VReg)
  /-- R358. Writes the correctly rounded sin(pi x). -/
  | fsin (d : VReg) (a : VReg)
  /-- R358. Writes the correctly rounded cos(pi x). -/
  | fcos (d : VReg) (a : VReg)
  /-- R340. Compares two FP32 values and writes a predicate. -/
  | cmpf (p : PReg) (a : VReg) (b : VReg) (c : BitVec 5)
  /-- R374. Adds two FP16 pairs, rounding under NARMODE. -/
  | hadd2F16 (d : VReg) (a : VReg) (b : VReg)
  /-- R374. Adds two BF16 pairs, rounding under NARMODE. -/
  | hadd2Bf16 (d : VReg) (a : VReg) (b : VReg)
  /-- R374. Multiplies two FP16 pairs. -/
  | hmul2F16 (d : VReg) (a : VReg) (b : VReg)
  /-- R374. Multiplies two BF16 pairs. -/
  | hmul2Bf16 (d : VReg) (a : VReg) (b : VReg)
  /-- R374. Packed FP16 multiply-add via a two-term group sum. -/
  | hfma2F16 (d : VReg) (a : VReg) (b : VReg)
  /-- R374. Packed BF16 multiply-add via a two-term group sum. -/
  | hfma2Bf16 (d : VReg) (a : VReg) (b : VReg)
  /-- R374. Packed FP16 minimum. -/
  | hmin2F16 (d : VReg) (a : VReg) (b : VReg)
  /-- R374. Packed BF16 minimum. -/
  | hmin2Bf16 (d : VReg) (a : VReg) (b : VReg)
  /-- R374. Packed FP16 maximum. -/
  | hmax2F16 (d : VReg) (a : VReg) (b : VReg)
  /-- R374. Packed BF16 maximum. -/
  | hmax2Bf16 (d : VReg) (a : VReg) (b : VReg)
  /-- R430. Fetches va from group lane L in a cross-lane rendezvous. -/
  | shfl (d : VReg) (a : VReg) (b : VReg)
  /-- R430. Fetches va from lane i XOR L. -/
  | shflx (d : VReg) (a : VReg) (b : VReg)
  /-- R430. Fetches va from lane i minus L. -/
  | shflu (d : VReg) (a : VReg) (b : VReg)
  /-- R430. Fetches va from lane i plus L. -/
  | shfld (d : VReg) (a : VReg) (b : VReg)
  /-- R444. Sets a predicate when any participant's va is non-zero. -/
  | voteAny (p : PReg) (a : VReg) (b : VReg)
  /-- R444. Sets a predicate when every participant's va is non-zero. -/
  | voteAll (p : PReg) (a : VReg) (b : VReg)
  /-- R444. Writes a bit mask of participants whose va is non-zero. -/
  | voteBallot (d : VReg) (a : VReg) (b : VReg)
  /-- R420. Group sum reduction over participants. -/
  | redgAdd (d : VReg) (a : VReg) (b : VReg)
  /-- R420. Group minimum reduction over participants. -/
  | redgMin (d : VReg) (a : VReg) (b : VReg)
  /-- R420. Group maximum reduction over participants. -/
  | redgMax (d : VReg) (a : VReg) (b : VReg)
  /-- R424. Inclusive prefix sum over participants. -/
  | scangAdd (d : VReg) (a : VReg) (b : VReg)
  /-- R424. Inclusive prefix maximum over participants. -/
  | scangMax (d : VReg) (a : VReg) (b : VReg)
  /-- R393. Writes the mask of participants whose va equals the thread's own. -/
  | matchLanes (d : VReg) (a : VReg) (b : VReg)
  /-- R351. Sets a predicate true in the lowest-numbered participant only. -/
  | elect (p : PReg) (b : VReg)
  /-- R334. Branches by a signed word offset from the clause header, conditionally on a predicate. -/
  | bra (p : PReg) (neg : BitVec 1) (off : BitVec 22)
  /-- R336. Branches to the 64-bit address in a register pair. -/
  | brx (neg : BitVec 1) (p : PReg) (a : VReg)
  /-- R337. Branches as BRA and writes the return address to v2:v3 when taken. -/
  | call (p : PReg) (neg : BitVec 1) (off : BitVec 22)
  /-- R422. Transfers unconditionally to the address in a register pair. -/
  | ret (a : VReg)
  /-- R64. Guards the next C instructions of the clause with a predicate sampled once. -/
  | ifp (f : BitVec 1) (p : PReg) (c : BitVec 4)
  /-- R67. Executes the next instruction 2 to 16 times with stepped register fields. -/
  | repeatN (sm : BitVec 3) (sc : BitVec 2) (c : BitVec 4)
  /-- R352. Enrols the thread in rejoin mask jn. -/
  | enrol (j : BitVec 3)
  /-- R380. Marks an enrolled thread as arrived at jn and parks it. -/
  | join (j : BitVec 3)
  /-- R437. Removes the thread from rejoin mask jn. -/
  | strike (j : BitVec 3)
  /-- R404. Does nothing. -/
  | nop
  /-- R354. Ends the thread, striking it from masks and barriers. -/
  | exit
  /-- R449. Treats the thread as just issued and swaps its group with a ready pending group. -/
  | yield
  /-- R432. Waits until TIME reaches TIME at issue plus va. -/
  | sleep (a : VReg)
  /-- R433. Waits until CYCLE reaches the time in vt:vt+1. -/
  | sleepu (t : VReg)
  /-- R433. Waits until a CYCLE time, then checks a counter against a target and raises PMISS if below. -/
  | sleepuCounter (t : VReg) (c : VReg)
  /-- R388. Loads 1, 2, 4 or 8 bytes from the pair address under the cache policy. -/
  | ld (d : VReg) (a : VReg) (wc : BitVec 3) (sz : BitVec 2) (cp : BitVec 2) (la : BitVec 4)
  /-- R388. Loads with a signed 32-bit byte offset held in the extension word. -/
  | ldOffset (d : VReg) (a : VReg) (wc : BitVec 3) (sz : BitVec 2) (cp : BitVec 2) (la : BitVec 4) (off : Word)
  /-- R434. Stores 1, 2, 4 or 8 bytes to the pair address. -/
  | st (d : VReg) (a : VReg) (wc : BitVec 3) (sz : BitVec 2) (cp : BitVec 2) (la : BitVec 4)
  /-- R434. Stores with a signed 32-bit byte offset held in the extension word. -/
  | stOffset (d : VReg) (a : VReg) (wc : BitVec 3) (sz : BitVec 2) (cp : BitVec 2) (la : BitVec 4) (off : Word)
  /-- R390. Acquire load at device scope, performed at the home point. -/
  | lda (d : VReg) (a : VReg) (wc : BitVec 3) (sz : BitVec 1) (cp : BitVec 2) (la : BitVec 4)
  /-- R390. Acquire load with an explicit scope in the extension word. -/
  | ldaScope (d : VReg) (a : VReg) (wc : BitVec 3) (sz : BitVec 1) (cp : BitVec 2) (la : BitVec 4) (scope : BitVec 3)
  /-- R436. Release store at device scope, performed at the home point. -/
  | stl (d : VReg) (a : VReg) (wc : BitVec 3) (sz : BitVec 1) (cp : BitVec 2) (la : BitVec 4)
  /-- R436. Release store with an explicit scope in the extension word. -/
  | stlScope (d : VReg) (a : VReg) (wc : BitVec 3) (sz : BitVec 1) (cp : BitVec 2) (la : BitVec 4) (scope : BitVec 3)
  /-- R391. Masked multicast read of lines into the scratchpads of named cluster cores. -/
  | ldmc (d : VReg) (a : VReg) (wc : BitVec 3) (la : BitVec 4) (doff : BitVec 12) (nl : BitVec 7)
  /-- R411. Prefetches 1 to 8 lines into L1 or L2 without any event. -/
  | pref (a : VReg) (wc : BitVec 3) (ln : BitVec 2) (cp : BitVec 2) (la : BitVec 4)
  /-- R411. Prefetch with a byte offset in the extension word. -/
  | prefOffset (a : VReg) (wc : BitVec 3) (ln : BitVec 2) (cp : BitVec 2) (la : BitVec 4) (off : Word)
  /-- R326. Relaxed 32-bit atomic add returning the old value. -/
  | atom (d : VReg) (a : VReg) (wc : BitVec 3) (cp : BitVec 2) (la : BitVec 4)
  /-- R326. Atomic with operation, size, order and scope from the extension word. -/
  | atomExt (d : VReg) (a : VReg) (wc : BitVec 3) (cp : BitVec 2) (la : BitVec 4) (scope : BitVec 3) (b : VReg) (ord : BitVec 3) (op : BitVec 4) (size : BitVec 2)
  /-- R419. Relaxed 32-bit atomic add without a returned value. -/
  | red (d : VReg) (a : VReg) (wc : BitVec 3) (cp : BitVec 2) (la : BitVec 4)
  /-- R419. Reduction atomic with operation, size, order and scope from the extension word. -/
  | redExt (d : VReg) (a : VReg) (wc : BitVec 3) (cp : BitVec 2) (la : BitVec 4) (scope : BitVec 3) (ord : BitVec 3) (op : BitVec 4) (size : BitVec 2)
  /-- R329. 8-byte atomic max or min on order keys, returning the old value. -/
  | atomk (d : VReg) (a : VReg) (wc : BitVec 3) (op : BitVec 2) (cp : BitVec 2) (la : BitVec 4)
  /-- R329. Key atomic with order and scope from the extension word. -/
  | atomkExt (d : VReg) (a : VReg) (wc : BitVec 3) (op : BitVec 2) (cp : BitVec 2) (la : BitVec 4) (scope : BitVec 3) (ord : BitVec 3)
  /-- R363. Produces a fence event of a kind and scope and drains write-combining buffers. -/
  | fence (kind : BitVec 2) (scope : BitVec 3)
  /-- R349. Writes zero to a range of sectors, ending unbacked lines without memory writes. -/
  | discard (n : VReg) (a : VReg)
  /-- R367. Writes dirty home copies of a range back to their frames. -/
  | flushl (n : VReg) (a : VReg)
  /-- R367. Drops L1 and RDC copies of a range, and with .l2 the home copy. -/
  | invl (n : VReg) (a : VReg) (l2 : BitVec 1)
  /-- R412. Sets a predicate to the poison bit of a register. -/
  | ptest (p : PReg) (a : VReg)
  /-- R332. Presets the expected count of named barrier n. -/
  | bari (a : VReg) (n : BitVec 4)
  /-- R311. Arrives at named barrier n without waiting. -/
  | bara (a : VReg) (n : BitVec 4)
  /-- R311. Waits until the thread's pending arrival at barrier n completes. -/
  | barw (n : BitVec 4)
  /-- R311. Arrives at barrier n and waits for its completion. -/
  | bar (a : VReg) (n : BitVec 4)
  /-- R230. Waits until a 64-bit counter reaches a target, acquiring on success. -/
  | waitge (d : VReg) (a : VReg) (wc : BitVec 3) (la : BitVec 4)
  /-- R446. Waits until every selected wait counter of the group is zero. -/
  | waitw (mask : BitVec 8)
  /-- R26. Requests a larger register allocation for the group. -/
  | grow (p : PReg) (m : BitVec 8)
  /-- R26. Reduces the group's register allocation and frees blocks. -/
  | shrink (m : BitVec 8)
  /-- R187. Writes convergence register kn naming four groups. -/
  | kset (k : BitVec 3) (a : VReg) (p : PReg)
  /-- R189. Signs a matrix round on kn with the thread's B words. -/
  | mma (b : VReg) (k : BitVec 3) (ob : BitVec 4) (wc : BitVec 3) (la : BitVec 4) (nk : BitVec 4) (atile : BitVec 8) (reuse : BitVec 1) (z : BitVec 1) (crow : BitVec 13)
  /-- R397. Signs an N4Q matrix round on kn. -/
  | mmaq (b : VReg) (k : BitVec 3) (ob : BitVec 4) (wc : BitVec 3) (la : BitVec 4) (nk : BitVec 4) (atile : BitVec 8) (reuse : BitVec 1) (z : BitVec 1) (crow : BitVec 13)
  /-- R199. Waits for the thread's operand-buffer and accumulator loads before later MMA reads. -/
  | opfence
  /-- R403. Waits for every operation the thread signed on kn and closes the operand window. -/
  | mwait (k : BitVec 3)
  /-- R402. Reads the matrix progress register of kn. -/
  | mprogMat (d : VReg) (k : BitVec 3)
  /-- R402. Reads the tile-streamer progress of the thread's oldest COPY. -/
  | mprogCopy (d : VReg)
  /-- R193. Writes operand-buffer record obm after operations reading it complete. -/
  | obres (ob : BitVec 4) (a : VReg) (wc : BitVec 3) (la : BitVec 4)
  /-- R193. Releases record obm by setting NT to 0. -/
  | obrel (ob : BitVec 4) (wc : BitVec 3) (la : BitVec 4)
  /-- R193. Copies bytes from memory into the operand-buffer range of obm. -/
  | obld (ob : BitVec 4) (a : VReg) (wc : BitVec 3) (la : BitVec 4) (n : BitVec 14) (doff : BitVec 14)
  /-- R196. Zeroes N accumulator rows. -/
  | accz (wc : BitVec 3) (la : BitVec 4) (n : BitVec 14) (row : BitVec 13)
  /-- R196. Loads accumulator rows from memory, widening if a format is named. -/
  | accld (a : VReg) (s : VReg) (wc : BitVec 3) (la : BitVec 4) (n : BitVec 7) (fmt : BitVec 3) (row : BitVec 13)
  /-- R196. Stores accumulator rows to memory, narrowing under NARMODE. -/
  | accst (a : VReg) (s : VReg) (wc : BitVec 3) (la : BitVec 4) (n : BitVec 7) (fmt : BitVec 3) (row : BitVec 13)
  /-- R196. Reads one accumulator element into vd. -/
  | accrd (d : VReg) (a : VReg) (wc : BitVec 3) (la : BitVec 4)
  /-- R204. Sets up an accumulate chain from a descriptor and returns a handle or status. -/
  | achain (d : VReg) (a : VReg) (wc : BitVec 3) (la : BitVec 4)
  /-- R205. Sends a rank's source rows into the receiver's landing rows. -/
  | asend (h : VReg) (s : VReg) (wc : BitVec 3) (la : BitVec 4)
  /-- R206. Waits until every rank of the round has landed and been added. -/
  | await (h : VReg) (wc : BitVec 3) (la : BitVec 4)
  /-- R206. Completes the round and opens the next, or ends the chain with .end. -/
  | arel (h : VReg) (wc : BitVec 3) (e : BitVec 1) (la : BitVec 4)
  /-- R228. Moves a tensor box between memory and a buffer, then adds INC to a counter. -/
  | copy (c : VReg) (q : VReg) (wc : BitVec 3) (st : BitVec 1) (la : BitVec 4) (inc : BitVec 16)
  /-- R343. Gathering COPY taking dimension-1 coordinates from an index list. -/
  | copyg (c : VReg) (q : VReg) (wc : BitVec 3) (st : BitVec 1) (la : BitVec 4) (inc : BitVec 16)
  /-- R225. Validates a layout record and writes it with its CHECK. -/
  | sealLayout (d : VReg) (s : VReg) (wc : BitVec 3) (la : BitVec 4)
  /-- R220. Joins a rank of a collective group and returns a handle or status. -/
  | cgrp (d : VReg) (a : VReg) (wc : BitVec 3) (la : BitVec 4)
  /-- R220. Ends a collective group for every member. -/
  | cgrpEnd (h : VReg) (wc : BitVec 3) (la : BitVec 4)
  /-- R221. All-gather member operation over a group. -/
  | cgath (h : VReg) (a : VReg) (wc : BitVec 3) (la : BitVec 4)
  /-- R344. Reduce-scatter member operation with a fixed tree order. -/
  | crsc (h : VReg) (a : VReg) (wc : BitVec 3) (la : BitVec 4)
  /-- R221. All-to-all member operation over a group. -/
  | cata (h : VReg) (a : VReg) (wc : BitVec 3) (la : BitVec 4)
  /-- R338. Barrier member operation over a group. -/
  | cbar (h : VReg) (wc : BitVec 3) (la : BitVec 4)
  /-- R384. Starts a launch from a launch record and writes a status and LAUNCHID. -/
  | launch (d : VReg) (r : VReg) (wc : BitVec 3) (la : BitVec 4)
  /-- R414. Reserves a queue slot and copies a record into it. -/
  | qpush (q : VReg) (r : VReg) (wc : BitVec 3) (la : BitVec 4)
  /-- R415. Takes a filled slot index from a queue, or reports empty. -/
  | qpop (d : VReg) (q : VReg) (wc : BitVec 3) (la : BitVec 4) (p : PReg)
  /-- R416. Returns a slot to the queue's free count as a release. -/
  | qfree (q : VReg) (wc : BitVec 3) (la : BitVec 4)
  /-- R369. Reads a special register into vd. -/
  | gets (d : VReg) (s : BitVec 8)
  /-- R427. Writes a special register from va where permitted. -/
  | sets (a : VReg) (s : BitVec 8)
  /-- R442. Raises the TRAP cause into the handler vector. -/
  | trap (n : BitVec 8)
  /-- R438. Delivers a service request to the resident kernel; the thread waits for results. -/
  | syscall (n : BitVec 8)
  /-- R238. Returns from a handler to the saved clause and word. -/
  | eret
  /-- R376. Stops the supervisor core until a reset. -/
  | halt
  /-- R376. Waits until an event is pending for the supervisor core. -/
  | idle
  /-- R440. Drops named translations at every issuer and waits for in-flight accesses. -/
  | tlbinv (n : VReg) (a : VReg) (t : BitVec 2)
  /-- R346. Saves a named team into a save area and releases its claim. -/
  | ctxsv (t : VReg) (a : VReg) (p : PReg)
  /-- R346. Restores a team from a save area onto a place of its partition. -/
  | ctxld (a : VReg) (p : PReg)
  /-- R252. Closes the shutter on the issuing group to move it to a microscope core. -/
  | migrate (pav : BitVec 1) (p : PReg)
  /-- R253. Returns a hosted group to its home core. -/
  | unmig
  /-- R248. Writes the core's trip register from a descriptor. -/
  | wpset (a : VReg)
  /-- R256. Stops, starts, or clears trace capture for a hosted slot. -/
  | trace (op : BitVec 2)
  /-- R21. After 1,024 TIME cycles parked, every parked thread of the mask is released and the mask cleared. -/
  | rejoinTimeout (g : GId) (j : BitVec 3)
  /-- R432. A sleeping thread's deadline passes and it continues. -/
  | sleepWake (t : TId)
  /-- R433. CYCLE reaches the promised time; the counter is read and PMISS raised if below target. -/
  | sleepuWake (t : TId)
  /-- R266. Every 20 TIME cycles a wave releases up to N queued groups of the cluster. -/
  | barrierWave (cluster : Nat)
  /-- R230. A waiting WAITGE rereads its counter and completes when it reaches the target. -/
  | waitgeRead (t : TId)
  /-- R26. A waiting GROW is granted once its blocks are free and no older request needs them. -/
  | growGrant (g : GId)
  /-- R27. When every resident group of a core is stuck and no GROW can be granted, the youngest GROW fails. -/
  | growDeadlockFail (core : Nat)
  /-- R451. When every signer has signed, the round is rechecked against obm and issues or is void. -/
  | mmaRoundIssue (team : Nat) (k : BitVec 3)
  /-- R190. A 64-cycle matrix step completes; the last step completes the operation and decrements signers' counters. -/
  | matrixStep (op : Nat)
  /-- R206. A rank's rows land and are added into the target rows in chain order. -/
  | asendLand (op : Nat)
  /-- R228. All elements of a COPY have moved; the counter receives its release add and WC decrements. -/
  | copyComplete (op : Nat)
  /-- R220. A group forms when all its ranks have joined, releasing waiting operations. -/
  | collectiveForm (ctx : Nat) (num : Nat)
  /-- R221. All members of a matched operation have arrived; DST and STATUS are written and WC decrements. -/
  | collectiveComplete (ctx : Nat) (num : Nat) (seq : Nat)
  /-- R414. After its copy and all earlier reservations, a push increments FULL as a release. -/
  | qpushPublish (op : Nat)
  /-- R35. A QPUSH or QPOP waiting on FREE or FULL proceeds when the count becomes non-zero or producers complete. -/
  | queueWaitWake (t : TId)
  /-- R388. Load or atomic data returns; the destination is written and the wait counter decrements. -/
  | loadReturn (op : Nat)
  /-- R150. The point of performance acknowledges a store, freeing miss-status entries and decrementing WC. -/
  | accessAck (op : Nat)
  /-- R150. Freed miss-status entries are granted to the oldest rejected access, which retries. -/
  | mshrGrant (core : Nat)
  /-- R140. A write-combining buffer is written at the memory side 100 TIME cycles after it opened. -/
  | wcDrainTimeout (t : TId)
  /-- R175. An RDC copy's lease ends within 4,096 fabric cycles of a write. -/
  | rdcLeaseEnd (die : Nat) (sector : Nat)
  /-- R217. The merge window closes and the home slice sends one multicast to every recipient. -/
  | ldmcMergeEnd (rec : Nat)
  /-- R217. A line's multicast record ends after MCHOLD. -/
  | ldmcHoldEnd (rec : Nat)
  /-- R218. Every line is written on every recipient; the LDMC completes. -/
  | ldmcDeliveryDone (op : Nat)
  /-- R250. A group stops at resume points and moves to a free microscope slot. -/
  | shutterClose (g : GId)
  /-- R253. A resident-kernel request returns a hosted group to its home lanes. -/
  | groupReturn (g : GId)
  /-- R17. An active group that waits, parks or exits is exchanged with the oldest ready pending group. -/
  | activeSetSwap (core : Nat) (g : GId)
  /-- R18. A pending group ready for 4,096 cycles displaces the longest-held active group. -/
  | pendingPromote (core : Nat) (g : GId)
  /-- R31. The next team of a launch is placed on the first place that passes the resource check. -/
  | teamDispatch (launch : Nat)
  /-- R44. After the last group retires and LDMC deliveries end, the team's claim is released. -/
  | teamRelease (team : Nat)
  /-- R41. A team waiting past the wait threshold is saved and re-queued with its wake condition. -/
  | swapOut (team : Nat)
  /-- R41. A swapped-out team's wake condition holds and it is restored on a passing place. -/
  | teamWake (team : Nat)
  /-- R286. A host CXL.mem write of an exported range is performed as a system-scope release. -/
  | hostCxlWrite (dec : BitVec 3) (off : Nat) (v : BitVec 64)
  /-- R282. Creates a context with a decode generation, DBG flag, quota and partition. -/
  | ctxnew (e : Nat)
  /-- R282. Ends every live launch of the context and destroys it. -/
  | ctxend (e : Nat)
  /-- R110. Loads a linked module into the context and registers its kernels. -/
  | load (e : Nat)
  /-- R296. In recovery, verifies a signed loader image, writes it as both copies and runs it. -/
  | recoveryLoad (e : Nat)
  /-- R299. Loads an MTC module from the translation store or translates it afresh. -/
  | mtcload (e : Nat)
  /-- R285. Maps a host physical range into the context through the host window. -/
  | maphost (e : Nat)
  /-- R286. Binds an HDM decoder to a device virtual range for host CXL.mem access. -/
  | exportMem (e : Nat)
  /-- R283. Starts a launch of a named kernel on the context's partition. -/
  | hostLaunch (e : Nat)
  /-- R298. Writes a signed attestation record with the nonce and MEAS. -/
  | attest (e : Nat)
  /-- R284. Changes one field of the context record. -/
  | ctxset (e : Nat)
  /-- R303. Takes a cell out of service, swapping its teams out. -/
  | celloff (e : Nat)
  /-- R303. Returns a cell to its partitions. -/
  | cellon (e : Nat)
  /-- R303. Moves every frame off a stack position and sets QUIESCE. -/
  | drain (e : Nat)
  /-- R303. Clears QUIESCE so frames may be assigned again. -/
  | undrain (e : Nat)
  /-- R303. Retires a link lane; the width then follows R269. -/
  | laneoff (e : Nat)
  /-- R303. A reserved SERVICE action completes with STATUS 0x100. -/
  | serviceReserved (e : Nat)
  /-- R282. A reserved ring OP completes with STATUS 0xFFFF_FFFF and no effect. -/
  | reservedRequest (e : Nat)
  /-- R294. Mailbox command writing the base die's identity record. -/
  | mbIdent (pos : BitVec 3)
  /-- R294. Mailbox command writing and clearing the kept syndromes. -/
  | synread (pos : BitVec 3)
  /-- R294. Mailbox command scrubbing a range of offsets. -/
  | scrub (pos : BitVec 3)
  /-- R294. Mailbox command mapping spare rows over listed offsets. -/
  | rowrepair (pos : BitVec 3)
  /-- R294. Mailbox command verifying and running a new base-sequencer image. -/
  | seqload (pos : BitVec 3)
  /-- R294. Mailbox command resetting the base die. -/
  | mbReset (pos : BitVec 3)
  /-- R294. A reserved mailbox command completes with status BADCMD. -/
  | mbReserved (pos : BitVec 3)
  /-- R269. A link doubles its width when a queue passes half full. -/
  | linkWidthRaise (die : BitVec 2) (link : BitVec 3)
  /-- R269. A width change completes within 512 fabric cycles. -/
  | linkWidthDone (die : BitVec 2) (link : BitVec 3)
  /-- R264. Every 2,000 TIME cycles the cluster picks a converter ratio. -/
  | ratioSelect (cluster : Nat) (ratio : BitVec 2) (therm : BitVec 1)
  /-- R265. A converter ratio change completes and the new clock applies. -/
  | ratioChangeDone (cluster : Nat)
  /-- R242. A pre-emption request stops a team at resume points, completes in-flight work and saves it. -/
  | preempt (team : Nat)
  /-- R38. A launch without progress for the set period is reported to the supervisor as stalled. -/
  | launchWatchdog (launch : Nat)
  /-- R155. The resident kernel backs an unbacked page and waiting accesses proceed. -/
  | uevictConversion (ctx : Nat) (va : Nat) (frame : Nat)
  /-- R157. A page's HOME changes and its lines move atomically to the new home L2. -/
  | pageMigrate (ctx : Nat) (va : Nat) (home : BitVec 2)
  /-- R236. The resident kernel maps the page or grants the permission of an offered NOMAP or PERM fault, and the waiting instruction issues again with no trap state changed. -/
  | faultResolved (t : TId) (resolved : Bool) (pte : BitVec 64)
  /-- R240. After a team fault the resident kernel either resumes the stopped team or ends the launch, which then completes with END 2. -/
  | teamFaultService (team : Nat) (resume : Bool)
  /-- R438. The resident kernel finishes a SYSCALL, writes v0 and v1, and the waiting thread resumes at the next clause. -/
  | syscallReturn (t : TId) (v1 : Word)
  /-- R154. The resident kernel raises the unbacked quota or names victims, after which the waiting allocation retries. -/
  | uquotaService (ctx : Nat) (quota : Nat) (victims : List Nat)
  /-- R255. Writing STOP makes a hosted group stop at, or run from, its resume points. -/
  | hostStop (m : Nat) (slot : BitVec 1) (stop : BitVec 1)
  /-- R255. Writing STEP with STOP set lets each thread run one clause and stop again. -/
  | hostStep (m : Nat) (slot : BitVec 1)
  /-- R269. A link halves its width after 2,000 fabric cycles of low queue occupancy. -/
  | linkWidthShed (die : BitVec 2) (link : BitVec 3)
  /-- R281. The host writes its producer index, and the part processes new ring entries in order. -/
  | hostDoorbell (base : BitVec 64) (len : Word) (v : Word) (ws : List (Nat×Byte))
  /-- R286. A host CXL.mem read of an exported range is performed as a system-scope acquire. -/
  | hostCxlRead (dec : BitVec 3) (off : Nat)
  /-- R292. A received syndrome record is kept, merged, and may interrupt the resident kernel. -/
  | tbiSyn (pos : BitVec 3) (cls : BitVec 8) (sect : BitVec 8) (off : BitVec 64) (detail : BitVec 64)
  /-- R291. A received completion returns data or maps its status to a fault. -/
  | tbiCmp (pos : BitVec 3) (cmp : Completion)
  /-- R291. A received NOP returns credits only. -/
  | tbiNop (pos : BitVec 3)
  /-- R291. A reserved transaction completes with BADOP and logs a syndrome. -/
  | tbiReservedOpcode (pos : BitVec 3) (opcode : BitVec 4)
  /-- R293. Writing MBCTL.QUIESCE makes new accesses to the position fault with TARGET. -/
  | quiesce (pos : BitVec 3) (q : BitVec 1)
  /-- R288. A flit failing its CRC is resent from the replay buffer. -/
  | linkReplay (die : BitVec 2) (link : BitVec 3) (lane : Nat)
  /-- R271. A 32-bit read of an accumulator's low half latches the high half for the reader. -/
  | energyLowRead (acc : Nat) (agent : Nat)
  /-- R271. A 32-bit read of the high half returns the latched shadow if pending. -/
  | energyHighRead (acc : Nat) (agent : Nat)
  /-- R212. A supervisor write to a system register without its own row takes effect for later operations. -/
  | sysregWrite (pa : Nat) (v : BitVec 64)
  /-- R301. Loss of supply stops the part, possibly leaving a translation-store entry incomplete until the next cold power-on. -/
  | powerLoss
  /-- R296. Boot ROM, loader, resident kernel and sequencers are verified and run in turn. -/
  | coldPowerOn
deriving DecidableEq, Repr

end Sys2Proof
end

