-- ==== Sys2Proof/WellFormed.lean ====
section
/-! DEFINITION. The operand conditions an encoding must meet beyond its fixed bits (R50, R56, R73, R317): pairs on even
registers, selector values within their tables, ranges that an entry states. A word that breaks one raises ILLEGAL. -/

namespace Sys2Proof

/-- R56, R317: a register that names a pair is even. -/
def even (r : VReg) : Bool := r.toNat % 2 == 0

/-- R370: the special registers of 64 bits: CYCLE, TIME, EMUVEC, TPC, TVAL. -/
def special64 (s : BitVec 8) : Bool := s == 7#8 || s == 8#8 || s == 11#8 || s == 13#8 || s == 14#8

/-- R325, R326: the operands of ATOM's extension word: OP 0 to 12, SIZE 0 or 1, floating-point operations of 32 bits
only, vb only for a compare and swap, pairs even. -/
def atomOperands (d b : VReg) (op : BitVec 4) (size : BitVec 2) : Bool :=
  decide (op.toNat ≤ 12) && decide (size.toNat ≤ 1) && (size != 1#2 || (even d && decide (op.toNat < 10))) &&
    (if op = 9#4 then size != 1#2 || even b else b == 0#7)

/-- R418: the operands of RED's extension word. -/
def redOperands (d : VReg) (ord : BitVec 3) (op : BitVec 4) (size : BitVec 2) : Bool :=
  (ord == 0#3 || ord == 2#3) && (decide (op.toNat ≤ 7) || (decide (10 ≤ op.toNat) && decide (op.toNat ≤ 12))) &&
    decide (size.toNat ≤ 1) && (size != 1#2 || (even d && decide (op.toNat < 10)))

/-- R439: the fields of TLBINV by its selector. -/
def tlbinvOperands (n a : VReg) (t : BitVec 2) : Bool :=
  if t = 0#2 then even a else if t = 1#2 then a == 0#7 else n == 0#7 && a == 0#7

/-- The well-formed instructions: exactly those some word (with its extension word) stands for, and every event. -/
def Instr.wf : Instr → Bool
  | .iadd _ _ _ => true
  | .isub _ _ _ => true
  | .imul _ _ _ => true
  | .imulhS _ _ _ => true
  | .imulhN _ _ _ => true
  | .imad _ _ _ => true
  | .iminS _ _ _ => true
  | .iminN _ _ _ => true
  | .imaxS _ _ _ => true
  | .imaxN _ _ _ => true
  | .iabs _ _ => true
  | .isel _ _ _ => true
  | .iadd2 _ _ _ => true
  | .isub2 _ _ _ => true
  | .imin2S _ _ _ => true
  | .imin2N _ _ _ => true
  | .imax2S _ _ _ => true
  | .imax2N _ _ _ => true
  | .maxd2 _ _ _ => true
  | .and _ _ _ => true
  | .or _ _ _ => true
  | .xor _ _ _ => true
  | .not _ _ => true
  | .shl _ _ _ => true
  | .shr _ _ _ => true
  | .sar _ _ _ => true
  | .rot _ _ _ => true
  | .bfxS _ _ _ => true
  | .bfxN _ _ _ => true
  | .bfi _ _ _ => true
  | .popc _ _ => true
  | .clz _ _ => true
  | .brev _ _ => true
  | .mov _ _ => true
  | .movgToG _ _ => true
  | .movgFromG _ _ => true
  | .iaddi _ _ _ => true
  | .andi _ _ _ => true
  | .ori _ _ _ => true
  | .xori _ _ _ => true
  | .cmpi _ _ _ c => decide (c.toNat ≤ 9)
  | .movi _ _ => true
  | .moviX _ _ => true
  | .lea d a _ => even d && even a
  | .fadd _ _ _ => true
  | .fsub _ _ _ => true
  | .fmul _ _ _ => true
  | .ffma _ _ _ => true
  | .fmin _ _ _ => true
  | .fmax _ _ _ => true
  | .fdot2 _ _ _ => true
  | .fkey _ _ => true
  | .fclass _ _ => true
  | .fcvt _ _ f => decide (f.toNat ≤ 19)
  | .frcp _ _ => true
  | .frsq _ _ => true
  | .fsqrt _ _ => true
  | .fexp2 _ _ => true
  | .flog2 _ _ => true
  | .fsin _ _ => true
  | .fcos _ _ => true
  | .cmpf _ _ _ c => decide (c.toNat ≤ 13)
  | .hadd2F16 _ _ _ => true
  | .hadd2Bf16 _ _ _ => true
  | .hmul2F16 _ _ _ => true
  | .hmul2Bf16 _ _ _ => true
  | .hfma2F16 _ _ _ => true
  | .hfma2Bf16 _ _ _ => true
  | .hmin2F16 _ _ _ => true
  | .hmin2Bf16 _ _ _ => true
  | .hmax2F16 _ _ _ => true
  | .hmax2Bf16 _ _ _ => true
  | .shfl _ _ _ => true
  | .shflx _ _ _ => true
  | .shflu _ _ _ => true
  | .shfld _ _ _ => true
  | .voteAny _ _ _ => true
  | .voteAll _ _ _ => true
  | .voteBallot _ _ _ => true
  | .redgAdd _ _ _ => true
  | .redgMin _ _ _ => true
  | .redgMax _ _ _ => true
  | .scangAdd _ _ _ => true
  | .scangMax _ _ _ => true
  | .matchLanes d _ _ => even d
  | .elect _ _ => true
  | .bra _ _ _ => true
  | .brx _ _ a => even a
  | .call _ _ _ => true
  | .ret a => even a
  | .ifp _ _ c => decide (c ≠ 0#4)
  | .repeatN _ _ c => decide (c ≠ 0#4)
  | .enrol _ => true
  | .join _ => true
  | .strike _ => true
  | .nop => true
  | .exit => true
  | .yield => true
  | .sleep _ => true
  | .sleepu t => even t
  | .sleepuCounter t c => even t && even c
  | .ld d a _ sz _ _ => even a && (sz != 1#2 || even d)
  | .ldOffset d a _ sz _ _ _ => even a && (sz != 1#2 || even d)
  | .st d a _ sz _ _ => even a && (sz != 1#2 || even d)
  | .stOffset d a _ sz _ _ _ => even a && (sz != 1#2 || even d)
  | .lda d a _ sz _ _ => even a && (sz != 1#1 || even d)
  | .ldaScope d a _ sz _ _ _ => even a && (sz != 1#1 || even d)
  | .stl d a _ sz _ _ => even a && (sz != 1#1 || even d)
  | .stlScope d a _ sz _ _ _ => even a && (sz != 1#1 || even d)
  | .ldmc d a _ _ _ _ => even d && even a
  | .pref a _ _ _ _ => even a
  | .prefOffset a _ _ _ _ _ => even a
  | .atom _ a _ _ _ => even a
  | .atomExt d a _ _ _ _ b ord op size => even a && decide (ord.toNat ≤ 4) && atomOperands d b op size
  | .red _ a _ _ _ => even a
  | .redExt d a _ _ _ _ ord op size => even a && redOperands d ord op size
  | .atomk d a _ _ _ _ => even d && even a
  | .atomkExt d a _ _ _ _ _ ord => even d && even a && decide (ord.toNat ≤ 4)
  | .fence _ _ => true
  | .discard _ a => even a
  | .flushl _ a => even a
  | .invl _ a _ => even a
  | .ptest _ _ => true
  | .bari _ _ => true
  | .bara _ _ => true
  | .barw _ => true
  | .bar _ _ => true
  | .waitge d a _ _ => even d && even a
  | .waitw _ => true
  | .grow _ _ => true
  | .shrink _ => true
  | .kset _ _ _ => true
  | .mma _ _ _ _ _ _ _ _ _ _ => true
  | .mmaq _ _ _ _ _ _ _ _ _ _ => true
  | .opfence => true
  | .mwait _ => true
  | .mprogMat _ _ => true
  | .mprogCopy _ => true
  | .obres _ a _ _ => even a
  | .obrel _ _ _ => true
  | .obld _ a _ _ n _ => even a && decide (n ≠ 0#14)
  | .accz _ _ n _ => decide (1 ≤ n.toNat ∧ n.toNat ≤ 8192)
  | .accld a _ _ _ n fmt _ => even a && decide (1 ≤ n.toNat ∧ n.toNat ≤ 64) && decide (fmt.toNat ≤ 2)
  | .accst a _ _ _ n fmt _ => even a && decide (1 ≤ n.toNat ∧ n.toNat ≤ 64) && decide (fmt.toNat ≤ 4)
  | .accrd _ _ _ _ => true
  | .achain _ a _ _ => even a
  | .asend _ _ _ _ => true
  | .await _ _ _ => true
  | .arel _ _ _ _ => true
  | .copy c q _ _ _ inc => even c && even q && decide (inc ≠ 0#16)
  | .copyg c q _ _ _ inc => even c && even q && decide (inc ≠ 0#16)
  | .sealLayout d s _ _ => even d && even s
  | .cgrp _ a _ _ => even a
  | .cgrpEnd _ _ _ => true
  | .cgath _ a _ _ => even a
  | .crsc _ a _ _ => even a
  | .cata _ a _ _ => even a
  | .cbar _ _ _ => true
  | .launch d r _ _ => even d && even r
  | .qpush q r _ _ => even q && even r
  | .qpop _ q _ _ _ => even q
  | .qfree q _ _ => even q
  | .gets d s => decide (s.toNat ≤ 16) && (!special64 s || even d)
  | .sets a s => decide (s.toNat ≤ 16) && (!special64 s || even a)
  | .trap _ => true
  | .syscall _ => true
  | .eret => true
  | .halt => true
  | .idle => true
  | .tlbinv n a t => tlbinvOperands n a t
  | .ctxsv t a _ => even t && even a
  | .ctxld a _ => even a
  | .migrate _ _ => true
  | .unmig => true
  | .wpset a => even a
  | .trace _ => true
  | .rejoinTimeout _ _ => true
  | .sleepWake _ => true
  | .sleepuWake _ => true
  | .barrierWave _ => true
  | .waitgeRead _ => true
  | .growGrant _ => true
  | .growDeadlockFail _ => true
  | .mmaRoundIssue _ _ => true
  | .matrixStep _ => true
  | .asendLand _ => true
  | .copyComplete _ => true
  | .collectiveForm _ _ => true
  | .collectiveComplete _ _ _ => true
  | .qpushPublish _ => true
  | .queueWaitWake _ => true
  | .loadReturn _ => true
  | .accessAck _ => true
  | .mshrGrant _ => true
  | .wcDrainTimeout _ => true
  | .rdcLeaseEnd _ _ => true
  | .ldmcMergeEnd _ => true
  | .ldmcHoldEnd _ => true
  | .ldmcDeliveryDone _ => true
  | .shutterClose _ => true
  | .groupReturn _ => true
  | .activeSetSwap _ _ => true
  | .pendingPromote _ _ => true
  | .teamDispatch _ => true
  | .teamRelease _ => true
  | .swapOut _ => true
  | .teamWake _ => true
  | .ctxnew _ => true
  | .ctxend _ => true
  | .load _ => true
  | .recoveryLoad _ => true
  | .mtcload _ => true
  | .maphost _ => true
  | .exportMem _ => true
  | .hostLaunch _ => true
  | .attest _ => true
  | .ctxset _ => true
  | .celloff _ => true
  | .cellon _ => true
  | .drain _ => true
  | .undrain _ => true
  | .laneoff _ => true
  | .serviceReserved _ => true
  | .reservedRequest _ => true
  | .mbIdent _ => true
  | .synread _ => true
  | .scrub _ => true
  | .rowrepair _ => true
  | .seqload _ => true
  | .mbReset _ => true
  | .mbReserved _ => true
  | .coldPowerOn => true
  | .linkWidthRaise _ _ => true
  | .linkWidthDone _ _ => true
  | .ratioSelect _ _ _ => true
  | .ratioChangeDone _ => true
  | .preempt _ => true
  | .launchWatchdog _ => true
  | .uevictConversion _ _ _ => true
  | .pageMigrate _ _ _ => true
  | .faultResolved _ _ _ => true
  | .teamFaultService _ _ => true
  | .syscallReturn _ _ => true
  | .uquotaService _ _ _ => true
  | .hostStop _ _ _ => true
  | .hostStep _ _ => true
  | .linkWidthShed _ _ => true
  | .hostDoorbell _ _ _ _ => true
  | .hostCxlRead _ _ => true
  | .hostCxlWrite _ _ _ => true
  | .tbiSyn _ _ _ _ _ => true
  | .tbiCmp _ _ => true
  | .tbiNop _ => true
  | .tbiReservedOpcode _ _ => true
  | .quiesce _ _ => true
  | .linkReplay _ _ _ => true
  | .energyLowRead _ _ => true
  | .energyHighRead _ _ => true
  | .sysregWrite _ _ => true
  | .powerLoss => true

end Sys2Proof
end

