-- ==== Sys2Proof/Decode.lean ====
section
/-! DEFINITION. Decoding (R48, R56 to R59, R69 to R73): from the bits of an instruction word and its extension word to an
instruction, or to the reason the bits are none; decode generations 1 and 2 (R75 to R77) as a remapping of majors in front
of it. After it the encoder, written from the same tables. -/

namespace Sys2Proof

/-- Why bits are no instruction (R73). Every one of these raises ILLEGAL. -/
inductive DecodeError where
  /-- Major 0x00 or 0x35 to 0x3F. -/
  | major
  /-- A function code, or an X bit, that R69 to R72 or the entry does not list. -/
  | function
  /-- A bit that the format or the entry reserves is set. -/
  | reserved
  /-- An operand outside the values its entry allows: an odd pair, a selector or a count out of range. -/
  | operand
  /-- Fewer bytes than the instruction has. -/
  | short
deriving DecidableEq, Repr

/-- Bits `lo + n - 1` to `lo` of a word. -/
def field (w : Word) (lo n : Nat) : BitVec n := w.extractLsb' lo n

/-- The X bit of majors that have one: bit 12 of MOVI (R58), bit 4 of formats M and E (R56). -/
def hasExtension (w : Word) : Bool :=
  let m := (field w 26 6).toNat
  if m = 0x08 then field w 12 1 == 1#1
  else if (0x18 ≤ m ∧ m ≤ 0x20) ∨ m = 0x23 ∨ m = 0x27 ∨ m = 0x28 ∨ (0x2A ≤ m ∧ m ≤ 0x30) then field w 4 1 == 1#1
  else false

/-- Major 0x01 (R377, R378, R394). -/
def decode01 (w : Word) : Except DecodeError Instr :=
  if field w 0 5 = 0#5 then (.ok (.iadd (field w 19 7) (field w 12 7) (field w 5 7)))
  else if field w 0 5 = 1#5 then (.ok (.isub (field w 19 7) (field w 12 7) (field w 5 7)))
  else if field w 0 5 = 2#5 then (.ok (.imul (field w 19 7) (field w 12 7) (field w 5 7)))
  else if field w 0 5 = 3#5 then (.ok (.imulhS (field w 19 7) (field w 12 7) (field w 5 7)))
  else if field w 0 5 = 4#5 then (.ok (.imulhN (field w 19 7) (field w 12 7) (field w 5 7)))
  else if field w 0 5 = 5#5 then (.ok (.imad (field w 19 7) (field w 12 7) (field w 5 7)))
  else if field w 0 5 = 6#5 then (.ok (.iminS (field w 19 7) (field w 12 7) (field w 5 7)))
  else if field w 0 5 = 7#5 then (.ok (.iminN (field w 19 7) (field w 12 7) (field w 5 7)))
  else if field w 0 5 = 8#5 then (.ok (.imaxS (field w 19 7) (field w 12 7) (field w 5 7)))
  else if field w 0 5 = 9#5 then (.ok (.imaxN (field w 19 7) (field w 12 7) (field w 5 7)))
  else if field w 0 5 = 10#5 then (if field w 5 7 = 0#7 then .ok (.iabs (field w 19 7) (field w 12 7)) else .error .reserved)
  else if field w 0 5 = 11#5 then (.ok (.isel (field w 19 7) (field w 12 7) (field w 5 7)))
  else if field w 0 5 = 12#5 then (.ok (.iadd2 (field w 19 7) (field w 12 7) (field w 5 7)))
  else if field w 0 5 = 13#5 then (.ok (.isub2 (field w 19 7) (field w 12 7) (field w 5 7)))
  else if field w 0 5 = 14#5 then (.ok (.imin2S (field w 19 7) (field w 12 7) (field w 5 7)))
  else if field w 0 5 = 15#5 then (.ok (.imin2N (field w 19 7) (field w 12 7) (field w 5 7)))
  else if field w 0 5 = 16#5 then (.ok (.imax2S (field w 19 7) (field w 12 7) (field w 5 7)))
  else if field w 0 5 = 17#5 then (.ok (.imax2N (field w 19 7) (field w 12 7) (field w 5 7)))
  else if field w 0 5 = 18#5 then (.ok (.maxd2 (field w 19 7) (field w 12 7) (field w 5 7)))
  else .error .function

/-- Major 0x02 (R322, R333, R335, R339, R399, R405, R409, R410, R423, R448). -/
def decode02 (w : Word) : Except DecodeError Instr :=
  if field w 0 5 = 0#5 then (.ok (.and (field w 19 7) (field w 12 7) (field w 5 7)))
  else if field w 0 5 = 1#5 then (.ok (.or (field w 19 7) (field w 12 7) (field w 5 7)))
  else if field w 0 5 = 2#5 then (.ok (.xor (field w 19 7) (field w 12 7) (field w 5 7)))
  else if field w 0 5 = 3#5 then (if field w 5 7 = 0#7 then .ok (.not (field w 19 7) (field w 12 7)) else .error .reserved)
  else if field w 0 5 = 4#5 then (.ok (.shl (field w 19 7) (field w 12 7) (field w 5 7)))
  else if field w 0 5 = 5#5 then (.ok (.shr (field w 19 7) (field w 12 7) (field w 5 7)))
  else if field w 0 5 = 6#5 then (.ok (.sar (field w 19 7) (field w 12 7) (field w 5 7)))
  else if field w 0 5 = 7#5 then (.ok (.rot (field w 19 7) (field w 12 7) (field w 5 7)))
  else if field w 0 5 = 8#5 then (.ok (.bfxS (field w 19 7) (field w 12 7) (field w 5 7)))
  else if field w 0 5 = 9#5 then (.ok (.bfxN (field w 19 7) (field w 12 7) (field w 5 7)))
  else if field w 0 5 = 10#5 then (.ok (.bfi (field w 19 7) (field w 12 7) (field w 5 7)))
  else if field w 0 5 = 11#5 then (if field w 5 7 = 0#7 then .ok (.popc (field w 19 7) (field w 12 7)) else .error .reserved)
  else if field w 0 5 = 12#5 then (if field w 5 7 = 0#7 then .ok (.clz (field w 19 7) (field w 12 7)) else .error .reserved)
  else if field w 0 5 = 13#5 then (if field w 5 7 = 0#7 then .ok (.brev (field w 19 7) (field w 12 7)) else .error .reserved)
  else if field w 0 5 = 14#5 then (if field w 5 7 = 0#7 then .ok (.mov (field w 19 7) (field w 12 7)) else .error .reserved)
  else if field w 5 1 = 0#1 ∧ field w 0 5 = 15#5 then (if field w 24 2 = 0#2 ∧ field w 6 6 = 0#6 then .ok (.movgToG (field w 19 5) (field w 12 7)) else .error .reserved)
  else if field w 5 1 = 1#1 ∧ field w 0 5 = 15#5 then (if field w 17 2 = 0#2 ∧ field w 6 6 = 0#6 then .ok (.movgFromG (field w 19 7) (field w 12 5)) else .error .reserved)
  else .error .function

/-- Major 0x03 (R377). -/
def decode03 (w : Word) : Except DecodeError Instr :=
  .ok (.iaddi (field w 19 7) (field w 12 7) (field w 0 12))

/-- Major 0x04 (R322). -/
def decode04 (w : Word) : Except DecodeError Instr :=
  .ok (.andi (field w 19 7) (field w 12 7) (field w 0 12))

/-- Major 0x05 (R409). -/
def decode05 (w : Word) : Except DecodeError Instr :=
  .ok (.ori (field w 19 7) (field w 12 7) (field w 0 12))

/-- Major 0x06 (R448). -/
def decode06 (w : Word) : Except DecodeError Instr :=
  .ok (.xori (field w 19 7) (field w 12 7) (field w 0 12))

/-- Major 0x07 (R341). -/
def decode07 (w : Word) : Except DecodeError Instr :=
  if field w 22 4 = 0#4 then .ok (.cmpi (field w 19 3) (field w 12 7) (field w 5 7) (field w 0 5)) else .error .reserved

/-- Major 0x08 (R58). -/
def decode08 (w x : Word) : Except DecodeError Instr :=
  if field w 12 1 = 0#1 then (if field w 13 6 = 0#6 then .ok (.movi (field w 19 7) (field w 0 12)) else .error .reserved)
  else if field w 12 1 = 1#1 then (if field w 13 6 = 0#6 ∧ field w 0 12 = 0#12 then .ok (.moviX (field w 19 7) x) else .error .reserved)
  else .error .function

/-- Major 0x09 (R392). -/
def decode09 (w : Word) : Except DecodeError Instr :=
  .ok (.lea (field w 19 7) (field w 12 7) (field w 0 12))

/-- Major 0x0A (R127, R355, R356, R357, R361). -/
def decode0A (w : Word) : Except DecodeError Instr :=
  if field w 0 5 = 0#5 then (.ok (.fadd (field w 19 7) (field w 12 7) (field w 5 7)))
  else if field w 0 5 = 1#5 then (.ok (.fsub (field w 19 7) (field w 12 7) (field w 5 7)))
  else if field w 0 5 = 2#5 then (.ok (.fmul (field w 19 7) (field w 12 7) (field w 5 7)))
  else if field w 0 5 = 3#5 then (.ok (.ffma (field w 19 7) (field w 12 7) (field w 5 7)))
  else if field w 0 5 = 4#5 then (.ok (.fmin (field w 19 7) (field w 12 7) (field w 5 7)))
  else if field w 0 5 = 5#5 then (.ok (.fmax (field w 19 7) (field w 12 7) (field w 5 7)))
  else if field w 0 5 = 6#5 then (.ok (.fdot2 (field w 19 7) (field w 12 7) (field w 5 7)))
  else if field w 0 5 = 7#5 then (if field w 5 7 = 0#7 then .ok (.fkey (field w 19 7) (field w 12 7)) else .error .reserved)
  else if field w 0 5 = 8#5 then (if field w 5 7 = 0#7 then .ok (.fclass (field w 19 7) (field w 12 7)) else .error .reserved)
  else .error .function

/-- Major 0x0B (R359). -/
def decode0B (w : Word) : Except DecodeError Instr :=
  if field w 5 7 = 0#7 then .ok (.fcvt (field w 19 7) (field w 12 7) (field w 0 5)) else .error .reserved

/-- Major 0x0C (R358). -/
def decode0C (w : Word) : Except DecodeError Instr :=
  if field w 0 5 = 0#5 then (if field w 5 7 = 0#7 then .ok (.frcp (field w 19 7) (field w 12 7)) else .error .reserved)
  else if field w 0 5 = 1#5 then (if field w 5 7 = 0#7 then .ok (.frsq (field w 19 7) (field w 12 7)) else .error .reserved)
  else if field w 0 5 = 2#5 then (if field w 5 7 = 0#7 then .ok (.fsqrt (field w 19 7) (field w 12 7)) else .error .reserved)
  else if field w 0 5 = 3#5 then (if field w 5 7 = 0#7 then .ok (.fexp2 (field w 19 7) (field w 12 7)) else .error .reserved)
  else if field w 0 5 = 4#5 then (if field w 5 7 = 0#7 then .ok (.flog2 (field w 19 7) (field w 12 7)) else .error .reserved)
  else if field w 0 5 = 5#5 then (if field w 5 7 = 0#7 then .ok (.fsin (field w 19 7) (field w 12 7)) else .error .reserved)
  else if field w 0 5 = 6#5 then (if field w 5 7 = 0#7 then .ok (.fcos (field w 19 7) (field w 12 7)) else .error .reserved)
  else .error .function

/-- Major 0x0D (R340). -/
def decode0D (w : Word) : Except DecodeError Instr :=
  if field w 22 4 = 0#4 then .ok (.cmpf (field w 19 3) (field w 12 7) (field w 5 7) (field w 0 5)) else .error .reserved

/-- Major 0x0E (R374). -/
def decode0E (w : Word) : Except DecodeError Instr :=
  if field w 0 5 = 0#5 then (.ok (.hadd2F16 (field w 19 7) (field w 12 7) (field w 5 7)))
  else if field w 0 5 = 1#5 then (.ok (.hadd2Bf16 (field w 19 7) (field w 12 7) (field w 5 7)))
  else if field w 0 5 = 2#5 then (.ok (.hmul2F16 (field w 19 7) (field w 12 7) (field w 5 7)))
  else if field w 0 5 = 3#5 then (.ok (.hmul2Bf16 (field w 19 7) (field w 12 7) (field w 5 7)))
  else if field w 0 5 = 4#5 then (.ok (.hfma2F16 (field w 19 7) (field w 12 7) (field w 5 7)))
  else if field w 0 5 = 5#5 then (.ok (.hfma2Bf16 (field w 19 7) (field w 12 7) (field w 5 7)))
  else if field w 0 5 = 6#5 then (.ok (.hmin2F16 (field w 19 7) (field w 12 7) (field w 5 7)))
  else if field w 0 5 = 7#5 then (.ok (.hmin2Bf16 (field w 19 7) (field w 12 7) (field w 5 7)))
  else if field w 0 5 = 8#5 then (.ok (.hmax2F16 (field w 19 7) (field w 12 7) (field w 5 7)))
  else if field w 0 5 = 9#5 then (.ok (.hmax2Bf16 (field w 19 7) (field w 12 7) (field w 5 7)))
  else .error .function

/-- Major 0x0F (R351, R393, R420, R424, R430, R444). -/
def decode0F (w : Word) : Except DecodeError Instr :=
  if field w 0 5 = 0#5 then (.ok (.shfl (field w 19 7) (field w 12 7) (field w 5 7)))
  else if field w 0 5 = 1#5 then (.ok (.shflx (field w 19 7) (field w 12 7) (field w 5 7)))
  else if field w 0 5 = 2#5 then (.ok (.shflu (field w 19 7) (field w 12 7) (field w 5 7)))
  else if field w 0 5 = 3#5 then (.ok (.shfld (field w 19 7) (field w 12 7) (field w 5 7)))
  else if field w 0 5 = 4#5 then (if field w 22 4 = 0#4 then .ok (.voteAny (field w 19 3) (field w 12 7) (field w 5 7)) else .error .reserved)
  else if field w 0 5 = 5#5 then (if field w 22 4 = 0#4 then .ok (.voteAll (field w 19 3) (field w 12 7) (field w 5 7)) else .error .reserved)
  else if field w 0 5 = 6#5 then (.ok (.voteBallot (field w 19 7) (field w 12 7) (field w 5 7)))
  else if field w 0 5 = 7#5 then (.ok (.redgAdd (field w 19 7) (field w 12 7) (field w 5 7)))
  else if field w 0 5 = 8#5 then (.ok (.redgMin (field w 19 7) (field w 12 7) (field w 5 7)))
  else if field w 0 5 = 9#5 then (.ok (.redgMax (field w 19 7) (field w 12 7) (field w 5 7)))
  else if field w 0 5 = 10#5 then (.ok (.scangAdd (field w 19 7) (field w 12 7) (field w 5 7)))
  else if field w 0 5 = 11#5 then (.ok (.scangMax (field w 19 7) (field w 12 7) (field w 5 7)))
  else if field w 0 5 = 12#5 then (.ok (.matchLanes (field w 19 7) (field w 12 7) (field w 5 7)))
  else if field w 0 5 = 13#5 then (if field w 22 4 = 0#4 ∧ field w 12 7 = 0#7 then .ok (.elect (field w 19 3) (field w 5 7)) else .error .reserved)
  else .error .function

/-- Major 0x10 (R334). -/
def decode10 (w : Word) : Except DecodeError Instr :=
  .ok (.bra (field w 23 3) (field w 22 1) (field w 0 22))

/-- Major 0x11 (R336). -/
def decode11 (w : Word) : Except DecodeError Instr :=
  if field w 0 5 = 0#5 then (if field w 23 3 = 0#3 ∧ field w 5 7 = 0#7 then .ok (.brx (field w 22 1) (field w 19 3) (field w 12 7)) else .error .reserved)
  else .error .function

/-- Major 0x12 (R337). -/
def decode12 (w : Word) : Except DecodeError Instr :=
  .ok (.call (field w 23 3) (field w 22 1) (field w 0 22))

/-- Major 0x13 (R422). -/
def decode13 (w : Word) : Except DecodeError Instr :=
  if field w 8 4 = 0#4 then (if field w 19 7 = 0#7 ∧ field w 0 8 = 0#8 then .ok (.ret (field w 12 7)) else .error .reserved)
  else .error .function

/-- Major 0x14 (R64). -/
def decode14 (w : Word) : Except DecodeError Instr :=
  if field w 8 4 = 0#4 then (if field w 23 3 = 0#3 ∧ field w 12 7 = 0#7 ∧ field w 4 4 = 0#4 then .ok (.ifp (field w 22 1) (field w 19 3) (field w 0 4)) else .error .reserved)
  else .error .function

/-- Major 0x15 (R67). -/
def decode15 (w : Word) : Except DecodeError Instr :=
  if field w 8 4 = 0#4 then (if field w 22 4 = 0#4 ∧ field w 14 5 = 0#5 ∧ field w 4 4 = 0#4 then .ok (.repeatN (field w 19 3) (field w 12 2) (field w 0 4)) else .error .reserved)
  else .error .function

/-- Major 0x16 (R352, R380, R437). -/
def decode16 (w : Word) : Except DecodeError Instr :=
  if field w 8 4 = 0#4 then (if field w 12 14 = 0#14 ∧ field w 3 5 = 0#5 then .ok (.enrol (field w 0 3)) else .error .reserved)
  else if field w 8 4 = 1#4 then (if field w 12 14 = 0#14 ∧ field w 3 5 = 0#5 then .ok (.join (field w 0 3)) else .error .reserved)
  else if field w 8 4 = 2#4 then (if field w 12 14 = 0#14 ∧ field w 3 5 = 0#5 then .ok (.strike (field w 0 3)) else .error .reserved)
  else .error .function

/-- Major 0x17 (R354, R404, R432, R433, R449). -/
def decode17 (w : Word) : Except DecodeError Instr :=
  if field w 8 4 = 0#4 then (if field w 12 14 = 0#14 ∧ field w 0 8 = 0#8 then .ok .nop else .error .reserved)
  else if field w 8 4 = 1#4 then (if field w 12 14 = 0#14 ∧ field w 0 8 = 0#8 then .ok .exit else .error .reserved)
  else if field w 8 4 = 2#4 then (if field w 12 14 = 0#14 ∧ field w 0 8 = 0#8 then .ok .yield else .error .reserved)
  else if field w 8 4 = 3#4 then (if field w 19 7 = 0#7 ∧ field w 0 8 = 0#8 then .ok (.sleep (field w 12 7)) else .error .reserved)
  else if field w 8 4 = 4#4 ∧ field w 0 1 = 0#1 then (if field w 12 7 = 0#7 ∧ field w 1 7 = 0#7 then .ok (.sleepu (field w 19 7)) else .error .reserved)
  else if field w 8 4 = 4#4 ∧ field w 0 1 = 1#1 then (if field w 1 7 = 0#7 then .ok (.sleepuCounter (field w 19 7) (field w 12 7)) else .error .reserved)
  else .error .function

/-- Major 0x18 (R388). -/
def decode18 (w x : Word) : Except DecodeError Instr :=
  if field w 4 1 = 0#1 then (.ok (.ld (field w 19 7) (field w 12 7) (field w 9 3) (field w 7 2) (field w 5 2) (field w 0 4)))
  else if field w 4 1 = 1#1 then (.ok (.ldOffset (field w 19 7) (field w 12 7) (field w 9 3) (field w 7 2) (field w 5 2) (field w 0 4) x))
  else .error .function

/-- Major 0x19 (R434). -/
def decode19 (w x : Word) : Except DecodeError Instr :=
  if field w 4 1 = 0#1 then (.ok (.st (field w 19 7) (field w 12 7) (field w 9 3) (field w 7 2) (field w 5 2) (field w 0 4)))
  else if field w 4 1 = 1#1 then (.ok (.stOffset (field w 19 7) (field w 12 7) (field w 9 3) (field w 7 2) (field w 5 2) (field w 0 4) x))
  else .error .function

/-- Major 0x1A (R390). -/
def decode1A (w x : Word) : Except DecodeError Instr :=
  if field w 4 1 = 0#1 then (if field w 8 1 = 0#1 then .ok (.lda (field w 19 7) (field w 12 7) (field w 9 3) (field w 7 1) (field w 5 2) (field w 0 4)) else .error .reserved)
  else if field w 4 1 = 1#1 then (if field w 8 1 = 0#1 ∧ field x 27 5 = 0#5 ∧ field x 0 24 = 0#24 then .ok (.ldaScope (field w 19 7) (field w 12 7) (field w 9 3) (field w 7 1) (field w 5 2) (field w 0 4) (field x 24 3)) else .error .reserved)
  else .error .function

/-- Major 0x1B (R436). -/
def decode1B (w x : Word) : Except DecodeError Instr :=
  if field w 4 1 = 0#1 then (if field w 8 1 = 0#1 then .ok (.stl (field w 19 7) (field w 12 7) (field w 9 3) (field w 7 1) (field w 5 2) (field w 0 4)) else .error .reserved)
  else if field w 4 1 = 1#1 then (if field w 8 1 = 0#1 ∧ field x 27 5 = 0#5 ∧ field x 0 24 = 0#24 then .ok (.stlScope (field w 19 7) (field w 12 7) (field w 9 3) (field w 7 1) (field w 5 2) (field w 0 4) (field x 24 3)) else .error .reserved)
  else .error .function

/-- Major 0x1C (R391). -/
def decode1C (w x : Word) : Except DecodeError Instr :=
  if field w 4 1 = 1#1 then (if field w 5 4 = 0#4 ∧ field x 19 13 = 0#13 then .ok (.ldmc (field w 19 7) (field w 12 7) (field w 9 3) (field w 0 4) (field x 7 12) (field x 0 7)) else .error .reserved)
  else .error .function

/-- Major 0x1D (R411). -/
def decode1D (w x : Word) : Except DecodeError Instr :=
  if field w 4 1 = 0#1 then (if field w 19 7 = 0#7 then .ok (.pref (field w 12 7) (field w 9 3) (field w 7 2) (field w 5 2) (field w 0 4)) else .error .reserved)
  else if field w 4 1 = 1#1 then (if field w 19 7 = 0#7 then .ok (.prefOffset (field w 12 7) (field w 9 3) (field w 7 2) (field w 5 2) (field w 0 4) x) else .error .reserved)
  else .error .function

/-- Major 0x1E (R326). -/
def decode1E (w x : Word) : Except DecodeError Instr :=
  if field w 4 1 = 0#1 then (if field w 7 2 = 0#2 then .ok (.atom (field w 19 7) (field w 12 7) (field w 9 3) (field w 5 2) (field w 0 4)) else .error .reserved)
  else if field w 4 1 = 1#1 then (if field w 7 2 = 0#2 ∧ field x 27 5 = 0#5 ∧ field x 23 1 = 0#1 ∧ field x 15 1 = 0#1 ∧ field x 0 6 = 0#6 then .ok (.atomExt (field w 19 7) (field w 12 7) (field w 9 3) (field w 5 2) (field w 0 4) (field x 24 3) (field x 16 7) (field x 12 3) (field x 8 4) (field x 6 2)) else .error .reserved)
  else .error .function

/-- Major 0x1F (R419). -/
def decode1F (w x : Word) : Except DecodeError Instr :=
  if field w 4 1 = 0#1 then (if field w 7 2 = 0#2 then .ok (.red (field w 19 7) (field w 12 7) (field w 9 3) (field w 5 2) (field w 0 4)) else .error .reserved)
  else if field w 4 1 = 1#1 then (if field w 7 2 = 0#2 ∧ field x 27 5 = 0#5 ∧ field x 15 9 = 0#9 ∧ field x 0 6 = 0#6 then .ok (.redExt (field w 19 7) (field w 12 7) (field w 9 3) (field w 5 2) (field w 0 4) (field x 24 3) (field x 12 3) (field x 8 4) (field x 6 2)) else .error .reserved)
  else .error .function

/-- Major 0x20 (R329). -/
def decode20 (w x : Word) : Except DecodeError Instr :=
  if field w 4 1 = 0#1 then (.ok (.atomk (field w 19 7) (field w 12 7) (field w 9 3) (field w 7 2) (field w 5 2) (field w 0 4)))
  else if field w 4 1 = 1#1 then (if field x 27 5 = 0#5 ∧ field x 15 9 = 0#9 ∧ field x 0 12 = 0#12 then .ok (.atomkExt (field w 19 7) (field w 12 7) (field w 9 3) (field w 7 2) (field w 5 2) (field w 0 4) (field x 24 3) (field x 12 3)) else .error .reserved)
  else .error .function

/-- Major 0x21 (R349, R363, R367, R412). -/
def decode21 (w : Word) : Except DecodeError Instr :=
  if field w 8 4 = 0#4 then (if field w 12 14 = 0#14 ∧ field w 5 3 = 0#3 then .ok (.fence (field w 3 2) (field w 0 3)) else .error .reserved)
  else if field w 8 4 = 1#4 then (if field w 0 8 = 0#8 then .ok (.discard (field w 19 7) (field w 12 7)) else .error .reserved)
  else if field w 8 4 = 2#4 then (if field w 0 8 = 0#8 then .ok (.flushl (field w 19 7) (field w 12 7)) else .error .reserved)
  else if field w 8 4 = 3#4 then (if field w 1 7 = 0#7 then .ok (.invl (field w 19 7) (field w 12 7) (field w 0 1)) else .error .reserved)
  else if field w 8 4 = 4#4 then (if field w 22 4 = 0#4 ∧ field w 0 8 = 0#8 then .ok (.ptest (field w 19 3) (field w 12 7)) else .error .reserved)
  else .error .function

/-- Major 0x22 (R311, R332). -/
def decode22 (w : Word) : Except DecodeError Instr :=
  if field w 8 4 = 0#4 then (if field w 19 7 = 0#7 ∧ field w 4 4 = 0#4 then .ok (.bari (field w 12 7) (field w 0 4)) else .error .reserved)
  else if field w 8 4 = 1#4 then (if field w 19 7 = 0#7 ∧ field w 4 4 = 0#4 then .ok (.bara (field w 12 7) (field w 0 4)) else .error .reserved)
  else if field w 8 4 = 2#4 then (if field w 12 14 = 0#14 ∧ field w 4 4 = 0#4 then .ok (.barw (field w 0 4)) else .error .reserved)
  else if field w 8 4 = 3#4 then (if field w 19 7 = 0#7 ∧ field w 4 4 = 0#4 then .ok (.bar (field w 12 7) (field w 0 4)) else .error .reserved)
  else .error .function

/-- Major 0x23 (R230). -/
def decode23 (w : Word) : Except DecodeError Instr :=
  if field w 5 4 = 0#4 ∧ field w 4 1 = 0#1 then .ok (.waitge (field w 19 7) (field w 12 7) (field w 9 3) (field w 0 4)) else .error .reserved

/-- Major 0x24 (R446). -/
def decode24 (w : Word) : Except DecodeError Instr :=
  if field w 8 4 = 0#4 then (if field w 12 14 = 0#14 then .ok (.waitw (field w 0 8)) else .error .reserved)
  else .error .function

/-- Major 0x25 (R26). -/
def decode25 (w : Word) : Except DecodeError Instr :=
  if field w 8 4 = 0#4 then (if field w 22 4 = 0#4 ∧ field w 12 7 = 0#7 then .ok (.grow (field w 19 3) (field w 0 8)) else .error .reserved)
  else if field w 8 4 = 1#4 then (if field w 12 14 = 0#14 then .ok (.shrink (field w 0 8)) else .error .reserved)
  else .error .function

/-- Major 0x26 (R187). -/
def decode26 (w : Word) : Except DecodeError Instr :=
  if field w 8 4 = 0#4 then (if field w 22 4 = 0#4 ∧ field w 3 5 = 0#5 then .ok (.kset (field w 19 3) (field w 12 7) (field w 0 3)) else .error .reserved)
  else .error .function

/-- Major 0x27 (R189). -/
def decode27 (w x : Word) : Except DecodeError Instr :=
  if field w 5 3 = 0#3 ∧ field w 4 1 = 1#1 then (if field w 8 1 = 0#1 ∧ field x 28 4 = 0#4 ∧ field x 15 1 = 0#1 then .ok (.mma (field w 19 7) (field w 16 3) (field w 12 4) (field w 9 3) (field w 0 4) (field x 24 4) (field x 16 8) (field x 14 1) (field x 13 1) (field x 0 13)) else .error .reserved)
  else .error .function

/-- Major 0x28 (R397). -/
def decode28 (w x : Word) : Except DecodeError Instr :=
  if field w 5 3 = 0#3 ∧ field w 4 1 = 1#1 then (if field w 8 1 = 0#1 ∧ field x 28 4 = 0#4 ∧ field x 15 1 = 0#1 then .ok (.mmaq (field w 19 7) (field w 16 3) (field w 12 4) (field w 9 3) (field w 0 4) (field x 24 4) (field x 16 8) (field x 14 1) (field x 13 1) (field x 0 13)) else .error .reserved)
  else .error .function

/-- Major 0x29 (R199, R402, R403). -/
def decode29 (w : Word) : Except DecodeError Instr :=
  if field w 8 4 = 0#4 then (if field w 12 14 = 0#14 ∧ field w 0 8 = 0#8 then .ok .opfence else .error .reserved)
  else if field w 8 4 = 1#4 then (if field w 12 14 = 0#14 ∧ field w 3 5 = 0#5 then .ok (.mwait (field w 0 3)) else .error .reserved)
  else if field w 8 4 = 2#4 ∧ field w 6 1 = 0#1 then (if field w 12 7 = 0#7 ∧ field w 7 1 = 0#1 ∧ field w 3 3 = 0#3 then .ok (.mprogMat (field w 19 7) (field w 0 3)) else .error .reserved)
  else if field w 8 4 = 2#4 ∧ field w 6 1 = 1#1 then (if field w 12 7 = 0#7 ∧ field w 7 1 = 0#1 ∧ field w 0 6 = 0#6 then .ok (.mprogCopy (field w 19 7)) else .error .reserved)
  else .error .function

/-- Major 0x2A (R193). -/
def decode2A (w x : Word) : Except DecodeError Instr :=
  if field w 5 3 = 0#3 ∧ field w 4 1 = 0#1 then (if field w 23 3 = 0#3 ∧ field w 8 1 = 0#1 then .ok (.obres (field w 19 4) (field w 12 7) (field w 9 3) (field w 0 4)) else .error .reserved)
  else if field w 5 3 = 1#3 ∧ field w 4 1 = 0#1 then (if field w 23 3 = 0#3 ∧ field w 12 7 = 0#7 ∧ field w 8 1 = 0#1 then .ok (.obrel (field w 19 4) (field w 9 3) (field w 0 4)) else .error .reserved)
  else if field w 5 3 = 2#3 ∧ field w 4 1 = 1#1 then (if field w 23 3 = 0#3 ∧ field w 8 1 = 0#1 ∧ field x 30 2 = 0#2 ∧ field x 14 2 = 0#2 then .ok (.obld (field w 19 4) (field w 12 7) (field w 9 3) (field w 0 4) (field x 16 14) (field x 0 14)) else .error .reserved)
  else .error .function

/-- Major 0x2B (R196). -/
def decode2B (w x : Word) : Except DecodeError Instr :=
  if field w 5 3 = 0#3 ∧ field w 4 1 = 1#1 then (if field w 12 14 = 0#14 ∧ field w 8 1 = 0#1 ∧ field x 30 2 = 0#2 ∧ field x 13 3 = 0#3 then .ok (.accz (field w 9 3) (field w 0 4) (field x 16 14) (field x 0 13)) else .error .reserved)
  else if field w 5 3 = 1#3 ∧ field w 4 1 = 1#1 then (if field w 8 1 = 0#1 ∧ field x 23 9 = 0#9 then .ok (.accld (field w 19 7) (field w 12 7) (field w 9 3) (field w 0 4) (field x 16 7) (field x 13 3) (field x 0 13)) else .error .reserved)
  else if field w 5 3 = 2#3 ∧ field w 4 1 = 1#1 then (if field w 8 1 = 0#1 ∧ field x 23 9 = 0#9 then .ok (.accst (field w 19 7) (field w 12 7) (field w 9 3) (field w 0 4) (field x 16 7) (field x 13 3) (field x 0 13)) else .error .reserved)
  else if field w 5 3 = 3#3 ∧ field w 4 1 = 0#1 then (if field w 8 1 = 0#1 then .ok (.accrd (field w 19 7) (field w 12 7) (field w 9 3) (field w 0 4)) else .error .reserved)
  else .error .function

/-- Major 0x2C (R204, R205, R206). -/
def decode2C (w : Word) : Except DecodeError Instr :=
  if field w 5 3 = 0#3 ∧ field w 4 1 = 0#1 then (if field w 8 1 = 0#1 then .ok (.achain (field w 19 7) (field w 12 7) (field w 9 3) (field w 0 4)) else .error .reserved)
  else if field w 5 3 = 1#3 ∧ field w 4 1 = 0#1 then (if field w 8 1 = 0#1 then .ok (.asend (field w 19 7) (field w 12 7) (field w 9 3) (field w 0 4)) else .error .reserved)
  else if field w 5 3 = 2#3 ∧ field w 4 1 = 0#1 then (if field w 12 7 = 0#7 ∧ field w 8 1 = 0#1 then .ok (.await (field w 19 7) (field w 9 3) (field w 0 4)) else .error .reserved)
  else if field w 5 3 = 3#3 ∧ field w 4 1 = 0#1 then (if field w 12 7 = 0#7 then .ok (.arel (field w 19 7) (field w 9 3) (field w 8 1) (field w 0 4)) else .error .reserved)
  else .error .function

/-- Major 0x2D (R228, R343). -/
def decode2D (w x : Word) : Except DecodeError Instr :=
  if field w 5 3 = 0#3 ∧ field w 4 1 = 1#1 then (if field x 16 16 = 0#16 then .ok (.copy (field w 19 7) (field w 12 7) (field w 9 3) (field w 8 1) (field w 0 4) (field x 0 16)) else .error .reserved)
  else if field w 5 3 = 1#3 ∧ field w 4 1 = 1#1 then (if field x 16 16 = 0#16 then .ok (.copyg (field w 19 7) (field w 12 7) (field w 9 3) (field w 8 1) (field w 0 4) (field x 0 16)) else .error .reserved)
  else .error .function

/-- Major 0x2E (R225). -/
def decode2E (w : Word) : Except DecodeError Instr :=
  if field w 5 3 = 0#3 ∧ field w 4 1 = 0#1 then (if field w 8 1 = 0#1 then .ok (.sealLayout (field w 19 7) (field w 12 7) (field w 9 3) (field w 0 4)) else .error .reserved)
  else .error .function

/-- Major 0x2F (R220, R221, R338, R344). -/
def decode2F (w : Word) : Except DecodeError Instr :=
  if field w 8 1 = 0#1 ∧ field w 5 3 = 0#3 ∧ field w 4 1 = 0#1 then (.ok (.cgrp (field w 19 7) (field w 12 7) (field w 9 3) (field w 0 4)))
  else if field w 8 1 = 1#1 ∧ field w 5 3 = 0#3 ∧ field w 4 1 = 0#1 then (if field w 12 7 = 0#7 then .ok (.cgrpEnd (field w 19 7) (field w 9 3) (field w 0 4)) else .error .reserved)
  else if field w 5 3 = 1#3 ∧ field w 4 1 = 0#1 then (if field w 8 1 = 0#1 then .ok (.cgath (field w 19 7) (field w 12 7) (field w 9 3) (field w 0 4)) else .error .reserved)
  else if field w 5 3 = 2#3 ∧ field w 4 1 = 0#1 then (if field w 8 1 = 0#1 then .ok (.crsc (field w 19 7) (field w 12 7) (field w 9 3) (field w 0 4)) else .error .reserved)
  else if field w 5 3 = 3#3 ∧ field w 4 1 = 0#1 then (if field w 8 1 = 0#1 then .ok (.cata (field w 19 7) (field w 12 7) (field w 9 3) (field w 0 4)) else .error .reserved)
  else if field w 5 3 = 4#3 ∧ field w 4 1 = 0#1 then (if field w 12 7 = 0#7 ∧ field w 8 1 = 0#1 then .ok (.cbar (field w 19 7) (field w 9 3) (field w 0 4)) else .error .reserved)
  else .error .function

/-- Major 0x30 (R384, R414, R415, R416). -/
def decode30 (w x : Word) : Except DecodeError Instr :=
  if field w 5 3 = 0#3 ∧ field w 4 1 = 0#1 then (if field w 8 1 = 0#1 then .ok (.launch (field w 19 7) (field w 12 7) (field w 9 3) (field w 0 4)) else .error .reserved)
  else if field w 5 3 = 1#3 ∧ field w 4 1 = 0#1 then (if field w 8 1 = 0#1 then .ok (.qpush (field w 19 7) (field w 12 7) (field w 9 3) (field w 0 4)) else .error .reserved)
  else if field w 5 3 = 2#3 ∧ field w 4 1 = 1#1 then (if field w 8 1 = 0#1 ∧ field x 3 29 = 0#29 then .ok (.qpop (field w 19 7) (field w 12 7) (field w 9 3) (field w 0 4) (field x 0 3)) else .error .reserved)
  else if field w 5 3 = 3#3 ∧ field w 4 1 = 0#1 then (if field w 19 7 = 0#7 ∧ field w 8 1 = 0#1 then .ok (.qfree (field w 12 7) (field w 9 3) (field w 0 4)) else .error .reserved)
  else .error .function

/-- Major 0x31 (R369, R427). -/
def decode31 (w : Word) : Except DecodeError Instr :=
  if field w 8 4 = 0#4 then (if field w 12 7 = 0#7 then .ok (.gets (field w 19 7) (field w 0 8)) else .error .reserved)
  else if field w 8 4 = 1#4 then (if field w 19 7 = 0#7 then .ok (.sets (field w 12 7) (field w 0 8)) else .error .reserved)
  else .error .function

/-- Major 0x32 (R238, R376, R438, R442). -/
def decode32 (w : Word) : Except DecodeError Instr :=
  if field w 8 4 = 0#4 then (if field w 12 14 = 0#14 then .ok (.trap (field w 0 8)) else .error .reserved)
  else if field w 8 4 = 1#4 then (if field w 12 14 = 0#14 then .ok (.syscall (field w 0 8)) else .error .reserved)
  else if field w 8 4 = 2#4 then (if field w 12 14 = 0#14 ∧ field w 0 8 = 0#8 then .ok .eret else .error .reserved)
  else if field w 8 4 = 3#4 then (if field w 12 14 = 0#14 ∧ field w 0 8 = 0#8 then .ok .halt else .error .reserved)
  else if field w 8 4 = 4#4 then (if field w 12 14 = 0#14 ∧ field w 0 8 = 0#8 then .ok .idle else .error .reserved)
  else .error .function

/-- Major 0x33 (R346, R440). -/
def decode33 (w : Word) : Except DecodeError Instr :=
  if field w 8 4 = 0#4 then (if field w 2 6 = 0#6 then .ok (.tlbinv (field w 19 7) (field w 12 7) (field w 0 2)) else .error .reserved)
  else if field w 8 4 = 1#4 then (if field w 3 5 = 0#5 then .ok (.ctxsv (field w 19 7) (field w 12 7) (field w 0 3)) else .error .reserved)
  else if field w 8 4 = 2#4 then (if field w 19 7 = 0#7 ∧ field w 3 5 = 0#5 then .ok (.ctxld (field w 12 7) (field w 0 3)) else .error .reserved)
  else .error .function

/-- Major 0x34 (R248, R252, R253, R256). -/
def decode34 (w : Word) : Except DecodeError Instr :=
  if field w 8 4 = 0#4 then (if field w 12 14 = 0#14 ∧ field w 4 4 = 0#4 then .ok (.migrate (field w 3 1) (field w 0 3)) else .error .reserved)
  else if field w 8 4 = 1#4 then (if field w 12 14 = 0#14 ∧ field w 0 8 = 0#8 then .ok .unmig else .error .reserved)
  else if field w 8 4 = 2#4 then (if field w 19 7 = 0#7 ∧ field w 0 8 = 0#8 then .ok (.wpset (field w 12 7)) else .error .reserved)
  else if field w 8 4 = 3#4 then (if field w 12 14 = 0#14 ∧ field w 2 6 = 0#6 then .ok (.trace (field w 0 2)) else .error .reserved)
  else .error .function

/-- The fixed bits of a word: its major, function code and reserved bits (R69, R73). -/
def decodeFixed (w x : Word) : Except DecodeError Instr :=
  match (field w 26 6).toNat with
  | 0x01 => decode01 w
  | 0x02 => decode02 w
  | 0x03 => decode03 w
  | 0x04 => decode04 w
  | 0x05 => decode05 w
  | 0x06 => decode06 w
  | 0x07 => decode07 w
  | 0x08 => decode08 w x
  | 0x09 => decode09 w
  | 0x0A => decode0A w
  | 0x0B => decode0B w
  | 0x0C => decode0C w
  | 0x0D => decode0D w
  | 0x0E => decode0E w
  | 0x0F => decode0F w
  | 0x10 => decode10 w
  | 0x11 => decode11 w
  | 0x12 => decode12 w
  | 0x13 => decode13 w
  | 0x14 => decode14 w
  | 0x15 => decode15 w
  | 0x16 => decode16 w
  | 0x17 => decode17 w
  | 0x18 => decode18 w x
  | 0x19 => decode19 w x
  | 0x1A => decode1A w x
  | 0x1B => decode1B w x
  | 0x1C => decode1C w x
  | 0x1D => decode1D w x
  | 0x1E => decode1E w x
  | 0x1F => decode1F w x
  | 0x20 => decode20 w x
  | 0x21 => decode21 w
  | 0x22 => decode22 w
  | 0x23 => decode23 w
  | 0x24 => decode24 w
  | 0x25 => decode25 w
  | 0x26 => decode26 w
  | 0x27 => decode27 w x
  | 0x28 => decode28 w x
  | 0x29 => decode29 w
  | 0x2A => decode2A w x
  | 0x2B => decode2B w x
  | 0x2C => decode2C w
  | 0x2D => decode2D w x
  | 0x2E => decode2E w
  | 0x2F => decode2F w
  | 0x30 => decode30 w x
  | 0x31 => decode31 w
  | 0x32 => decode32 w
  | 0x33 => decode33 w
  | 0x34 => decode34 w
  | _ => .error .major

/-- Decoding of a generation-3 word `w` and the word `x` after it (used only where an extension word follows, R58). -/
def decodeWord (w x : Word) : Except DecodeError Instr :=
  match decodeFixed w x with
  | .ok i => if i.wf then .ok i else .error .operand
  | .error e => .error e

/-- R113, R48: a word from its four bytes, the first at the lowest address. -/
def wordOfBytes (b0 b1 b2 b3 : Byte) : Word := b3 ++ b2 ++ b1 ++ b0

/-- Decoding of bytes: the instruction at their head and the bytes after it. -/
def decodeBytes : List Byte → Except DecodeError (Instr × List Byte)
  | b0 :: b1 :: b2 :: b3 :: rest =>
    let w := wordOfBytes b0 b1 b2 b3
    if hasExtension w then
      match rest with
      | c0 :: c1 :: c2 :: c3 :: rest' => (decodeWord w (wordOfBytes c0 c1 c2 c3)).map fun i => (i, rest')
      | _ => .error .short
    else (decodeWord w 0#32).map fun i => (i, rest)
  | _ => .error .short

/-- R76: the generation-3 major of a generation-2 major; none where R75 and R76 give no encoding. -/
def gen2Major (m : Nat) : Option (BitVec 6) :=
  match m with
  | 0x01 => some 0x01#6
  | 0x02 => some 0x02#6
  | 0x03 => some 0x03#6
  | 0x04 => some 0x04#6
  | 0x05 => some 0x05#6
  | 0x06 => some 0x06#6
  | 0x08 => some 0x10#6
  | 0x09 => some 0x11#6
  | 0x0A => some 0x12#6
  | 0x0B => some 0x13#6
  | 0x0C => some 0x14#6
  | 0x0D => some 0x15#6
  | 0x0E => some 0x16#6
  | 0x0F => some 0x17#6
  | 0x10 => some 0x07#6
  | 0x11 => some 0x08#6
  | 0x12 => some 0x09#6
  | 0x13 => some 0x0A#6
  | 0x14 => some 0x0B#6
  | 0x15 => some 0x0C#6
  | 0x16 => some 0x0D#6
  | 0x17 => some 0x0E#6
  | 0x18 => some 0x0F#6
  | 0x20 => some 0x18#6
  | 0x21 => some 0x19#6
  | 0x22 => some 0x1A#6
  | 0x23 => some 0x1B#6
  | 0x24 => some 0x1D#6
  | 0x25 => some 0x1E#6
  | 0x26 => some 0x1F#6
  | 0x27 => some 0x21#6
  | 0x28 => some 0x23#6
  | 0x29 => some 0x22#6
  | 0x2A => some 0x24#6
  | 0x2B => some 0x25#6
  | 0x30 => some 0x26#6
  | 0x31 => some 0x27#6
  | 0x32 => some 0x29#6
  | 0x33 => some 0x2A#6
  | 0x34 => some 0x2B#6
  | 0x35 => some 0x2D#6
  | 0x36 => some 0x2F#6
  | 0x37 => some 0x30#6
  | 0x38 => some 0x31#6
  | 0x39 => some 0x32#6
  | 0x3A => some 0x33#6
  | _ => none

/-- R75: a generation-2 word read as a generation-3 word: the major mapped, the la field of formats M and E read as 0, and
the three function codes that generation 2 lacks refused. -/
def gen2Word (w : Word) : Option Word :=
  match gen2Major (field w 26 6).toNat with
  | none => none
  | some m =>
    let n := m.toNat
    if (n = 0x01 ∧ field w 0 5 = 18#5) ∨ (n = 0x0A ∧ field w 0 5 = 7#5) ∨ (n = 0x2D ∧ field w 5 3 = 1#3) then none
    else if (0x18 ≤ n ∧ n ≤ 0x20) ∨ n = 0x23 ∨ n = 0x27 ∨ n = 0x28 ∨ (0x2A ≤ n ∧ n ≤ 0x30) then
      some (m ++ w.extractLsb' 4 22 ++ 0#4)
    else some (m ++ w.extractLsb' 0 26)

/-- R75 to R77: the word of decode generation `gen` read as a generation-3 word. Generation 1 has no IFP and no REPEAT. -/
def genWord (gen : Nat) (w : Word) : Option Word :=
  if gen = 3 then some w
  else match gen2Word w with
    | none => none
    | some w' => if gen = 1 ∧ (field w' 26 6 = 0x14#6 ∨ field w' 26 6 = 0x15#6) then none else some w'

/-- Two bit strings side by side, the first above the second. -/
def cat {m n : Nat} (x : BitVec m) (y : BitVec n) : BitVec (m + n) := x ++ y

/-- A bit string of 32 bits as a word. -/
def asWord {n : Nat} (x : BitVec n) : Word := x.setWidth 32

/-- The words of an instruction, as the format and its entry lay them out (R56, R58 and the reference entries), the
extension word second; none for an event. -/
def encode : Instr → List Word
  | .iadd d a b =>
    [asWord (cat (cat (cat (cat 0x01#6 d) a) b) 0#5)]
  | .isub d a b =>
    [asWord (cat (cat (cat (cat 0x01#6 d) a) b) 1#5)]
  | .imul d a b =>
    [asWord (cat (cat (cat (cat 0x01#6 d) a) b) 2#5)]
  | .imulhS d a b =>
    [asWord (cat (cat (cat (cat 0x01#6 d) a) b) 3#5)]
  | .imulhN d a b =>
    [asWord (cat (cat (cat (cat 0x01#6 d) a) b) 4#5)]
  | .imad d a b =>
    [asWord (cat (cat (cat (cat 0x01#6 d) a) b) 5#5)]
  | .iminS d a b =>
    [asWord (cat (cat (cat (cat 0x01#6 d) a) b) 6#5)]
  | .iminN d a b =>
    [asWord (cat (cat (cat (cat 0x01#6 d) a) b) 7#5)]
  | .imaxS d a b =>
    [asWord (cat (cat (cat (cat 0x01#6 d) a) b) 8#5)]
  | .imaxN d a b =>
    [asWord (cat (cat (cat (cat 0x01#6 d) a) b) 9#5)]
  | .iabs d a =>
    [asWord (cat (cat (cat (cat 0x01#6 d) a) 0#7) 10#5)]
  | .isel d a b =>
    [asWord (cat (cat (cat (cat 0x01#6 d) a) b) 11#5)]
  | .iadd2 d a b =>
    [asWord (cat (cat (cat (cat 0x01#6 d) a) b) 12#5)]
  | .isub2 d a b =>
    [asWord (cat (cat (cat (cat 0x01#6 d) a) b) 13#5)]
  | .imin2S d a b =>
    [asWord (cat (cat (cat (cat 0x01#6 d) a) b) 14#5)]
  | .imin2N d a b =>
    [asWord (cat (cat (cat (cat 0x01#6 d) a) b) 15#5)]
  | .imax2S d a b =>
    [asWord (cat (cat (cat (cat 0x01#6 d) a) b) 16#5)]
  | .imax2N d a b =>
    [asWord (cat (cat (cat (cat 0x01#6 d) a) b) 17#5)]
  | .maxd2 d a b =>
    [asWord (cat (cat (cat (cat 0x01#6 d) a) b) 18#5)]
  | .and d a b =>
    [asWord (cat (cat (cat (cat 0x02#6 d) a) b) 0#5)]
  | .or d a b =>
    [asWord (cat (cat (cat (cat 0x02#6 d) a) b) 1#5)]
  | .xor d a b =>
    [asWord (cat (cat (cat (cat 0x02#6 d) a) b) 2#5)]
  | .not d a =>
    [asWord (cat (cat (cat (cat 0x02#6 d) a) 0#7) 3#5)]
  | .shl d a b =>
    [asWord (cat (cat (cat (cat 0x02#6 d) a) b) 4#5)]
  | .shr d a b =>
    [asWord (cat (cat (cat (cat 0x02#6 d) a) b) 5#5)]
  | .sar d a b =>
    [asWord (cat (cat (cat (cat 0x02#6 d) a) b) 6#5)]
  | .rot d a b =>
    [asWord (cat (cat (cat (cat 0x02#6 d) a) b) 7#5)]
  | .bfxS d a b =>
    [asWord (cat (cat (cat (cat 0x02#6 d) a) b) 8#5)]
  | .bfxN d a b =>
    [asWord (cat (cat (cat (cat 0x02#6 d) a) b) 9#5)]
  | .bfi d a b =>
    [asWord (cat (cat (cat (cat 0x02#6 d) a) b) 10#5)]
  | .popc d a =>
    [asWord (cat (cat (cat (cat 0x02#6 d) a) 0#7) 11#5)]
  | .clz d a =>
    [asWord (cat (cat (cat (cat 0x02#6 d) a) 0#7) 12#5)]
  | .brev d a =>
    [asWord (cat (cat (cat (cat 0x02#6 d) a) 0#7) 13#5)]
  | .mov d a =>
    [asWord (cat (cat (cat (cat 0x02#6 d) a) 0#7) 14#5)]
  | .movgToG g a =>
    [asWord (cat (cat (cat (cat (cat (cat 0x02#6 0#2) g) a) 0#6) 0#1) 15#5)]
  | .movgFromG d g =>
    [asWord (cat (cat (cat (cat (cat (cat 0x02#6 d) 0#2) g) 0#6) 1#1) 15#5)]
  | .iaddi d a imm =>
    [asWord (cat (cat (cat 0x03#6 d) a) imm)]
  | .andi d a imm =>
    [asWord (cat (cat (cat 0x04#6 d) a) imm)]
  | .ori d a imm =>
    [asWord (cat (cat (cat 0x05#6 d) a) imm)]
  | .xori d a imm =>
    [asWord (cat (cat (cat 0x06#6 d) a) imm)]
  | .cmpi p a b c =>
    [asWord (cat (cat (cat (cat (cat 0x07#6 0#4) p) a) b) c)]
  | .movi d imm =>
    [asWord (cat (cat (cat (cat 0x08#6 d) 0#6) 0#1) imm)]
  | .moviX d lit =>
    [asWord (cat (cat (cat (cat 0x08#6 d) 0#6) 1#1) 0#12), lit]
  | .lea d a imm =>
    [asWord (cat (cat (cat 0x09#6 d) a) imm)]
  | .fadd d a b =>
    [asWord (cat (cat (cat (cat 0x0A#6 d) a) b) 0#5)]
  | .fsub d a b =>
    [asWord (cat (cat (cat (cat 0x0A#6 d) a) b) 1#5)]
  | .fmul d a b =>
    [asWord (cat (cat (cat (cat 0x0A#6 d) a) b) 2#5)]
  | .ffma d a b =>
    [asWord (cat (cat (cat (cat 0x0A#6 d) a) b) 3#5)]
  | .fmin d a b =>
    [asWord (cat (cat (cat (cat 0x0A#6 d) a) b) 4#5)]
  | .fmax d a b =>
    [asWord (cat (cat (cat (cat 0x0A#6 d) a) b) 5#5)]
  | .fdot2 d a b =>
    [asWord (cat (cat (cat (cat 0x0A#6 d) a) b) 6#5)]
  | .fkey d a =>
    [asWord (cat (cat (cat (cat 0x0A#6 d) a) 0#7) 7#5)]
  | .fclass d a =>
    [asWord (cat (cat (cat (cat 0x0A#6 d) a) 0#7) 8#5)]
  | .fcvt d a f =>
    [asWord (cat (cat (cat (cat 0x0B#6 d) a) 0#7) f)]
  | .frcp d a =>
    [asWord (cat (cat (cat (cat 0x0C#6 d) a) 0#7) 0#5)]
  | .frsq d a =>
    [asWord (cat (cat (cat (cat 0x0C#6 d) a) 0#7) 1#5)]
  | .fsqrt d a =>
    [asWord (cat (cat (cat (cat 0x0C#6 d) a) 0#7) 2#5)]
  | .fexp2 d a =>
    [asWord (cat (cat (cat (cat 0x0C#6 d) a) 0#7) 3#5)]
  | .flog2 d a =>
    [asWord (cat (cat (cat (cat 0x0C#6 d) a) 0#7) 4#5)]
  | .fsin d a =>
    [asWord (cat (cat (cat (cat 0x0C#6 d) a) 0#7) 5#5)]
  | .fcos d a =>
    [asWord (cat (cat (cat (cat 0x0C#6 d) a) 0#7) 6#5)]
  | .cmpf p a b c =>
    [asWord (cat (cat (cat (cat (cat 0x0D#6 0#4) p) a) b) c)]
  | .hadd2F16 d a b =>
    [asWord (cat (cat (cat (cat 0x0E#6 d) a) b) 0#5)]
  | .hadd2Bf16 d a b =>
    [asWord (cat (cat (cat (cat 0x0E#6 d) a) b) 1#5)]
  | .hmul2F16 d a b =>
    [asWord (cat (cat (cat (cat 0x0E#6 d) a) b) 2#5)]
  | .hmul2Bf16 d a b =>
    [asWord (cat (cat (cat (cat 0x0E#6 d) a) b) 3#5)]
  | .hfma2F16 d a b =>
    [asWord (cat (cat (cat (cat 0x0E#6 d) a) b) 4#5)]
  | .hfma2Bf16 d a b =>
    [asWord (cat (cat (cat (cat 0x0E#6 d) a) b) 5#5)]
  | .hmin2F16 d a b =>
    [asWord (cat (cat (cat (cat 0x0E#6 d) a) b) 6#5)]
  | .hmin2Bf16 d a b =>
    [asWord (cat (cat (cat (cat 0x0E#6 d) a) b) 7#5)]
  | .hmax2F16 d a b =>
    [asWord (cat (cat (cat (cat 0x0E#6 d) a) b) 8#5)]
  | .hmax2Bf16 d a b =>
    [asWord (cat (cat (cat (cat 0x0E#6 d) a) b) 9#5)]
  | .shfl d a b =>
    [asWord (cat (cat (cat (cat 0x0F#6 d) a) b) 0#5)]
  | .shflx d a b =>
    [asWord (cat (cat (cat (cat 0x0F#6 d) a) b) 1#5)]
  | .shflu d a b =>
    [asWord (cat (cat (cat (cat 0x0F#6 d) a) b) 2#5)]
  | .shfld d a b =>
    [asWord (cat (cat (cat (cat 0x0F#6 d) a) b) 3#5)]
  | .voteAny p a b =>
    [asWord (cat (cat (cat (cat (cat 0x0F#6 0#4) p) a) b) 4#5)]
  | .voteAll p a b =>
    [asWord (cat (cat (cat (cat (cat 0x0F#6 0#4) p) a) b) 5#5)]
  | .voteBallot d a b =>
    [asWord (cat (cat (cat (cat 0x0F#6 d) a) b) 6#5)]
  | .redgAdd d a b =>
    [asWord (cat (cat (cat (cat 0x0F#6 d) a) b) 7#5)]
  | .redgMin d a b =>
    [asWord (cat (cat (cat (cat 0x0F#6 d) a) b) 8#5)]
  | .redgMax d a b =>
    [asWord (cat (cat (cat (cat 0x0F#6 d) a) b) 9#5)]
  | .scangAdd d a b =>
    [asWord (cat (cat (cat (cat 0x0F#6 d) a) b) 10#5)]
  | .scangMax d a b =>
    [asWord (cat (cat (cat (cat 0x0F#6 d) a) b) 11#5)]
  | .matchLanes d a b =>
    [asWord (cat (cat (cat (cat 0x0F#6 d) a) b) 12#5)]
  | .elect p b =>
    [asWord (cat (cat (cat (cat (cat 0x0F#6 0#4) p) 0#7) b) 13#5)]
  | .bra p neg off =>
    [asWord (cat (cat (cat 0x10#6 p) neg) off)]
  | .brx neg p a =>
    [asWord (cat (cat (cat (cat (cat (cat 0x11#6 0#3) neg) p) a) 0#7) 0#5)]
  | .call p neg off =>
    [asWord (cat (cat (cat 0x12#6 p) neg) off)]
  | .ret a =>
    [asWord (cat (cat (cat (cat 0x13#6 0#7) a) 0#4) 0#8)]
  | .ifp f p c =>
    [asWord (cat (cat (cat (cat (cat (cat (cat 0x14#6 0#3) f) p) 0#7) 0#4) 0#4) c)]
  | .repeatN sm sc c =>
    [asWord (cat (cat (cat (cat (cat (cat (cat 0x15#6 0#4) sm) 0#5) sc) 0#4) 0#4) c)]
  | .enrol j =>
    [asWord (cat (cat (cat (cat 0x16#6 0#14) 0#4) 0#5) j)]
  | .join j =>
    [asWord (cat (cat (cat (cat 0x16#6 0#14) 1#4) 0#5) j)]
  | .strike j =>
    [asWord (cat (cat (cat (cat 0x16#6 0#14) 2#4) 0#5) j)]
  | .nop =>
    [asWord (cat (cat (cat 0x17#6 0#14) 0#4) 0#8)]
  | .exit =>
    [asWord (cat (cat (cat 0x17#6 0#14) 1#4) 0#8)]
  | .yield =>
    [asWord (cat (cat (cat 0x17#6 0#14) 2#4) 0#8)]
  | .sleep a =>
    [asWord (cat (cat (cat (cat 0x17#6 0#7) a) 3#4) 0#8)]
  | .sleepu t =>
    [asWord (cat (cat (cat (cat (cat 0x17#6 t) 0#7) 4#4) 0#7) 0#1)]
  | .sleepuCounter t c =>
    [asWord (cat (cat (cat (cat (cat 0x17#6 t) c) 4#4) 0#7) 1#1)]
  | .ld d a wc sz cp la =>
    [asWord (cat (cat (cat (cat (cat (cat (cat 0x18#6 d) a) wc) sz) cp) 0#1) la)]
  | .ldOffset d a wc sz cp la off =>
    [asWord (cat (cat (cat (cat (cat (cat (cat 0x18#6 d) a) wc) sz) cp) 1#1) la), off]
  | .st d a wc sz cp la =>
    [asWord (cat (cat (cat (cat (cat (cat (cat 0x19#6 d) a) wc) sz) cp) 0#1) la)]
  | .stOffset d a wc sz cp la off =>
    [asWord (cat (cat (cat (cat (cat (cat (cat 0x19#6 d) a) wc) sz) cp) 1#1) la), off]
  | .lda d a wc sz cp la =>
    [asWord (cat (cat (cat (cat (cat (cat (cat (cat 0x1A#6 d) a) wc) 0#1) sz) cp) 0#1) la)]
  | .ldaScope d a wc sz cp la scope =>
    [asWord (cat (cat (cat (cat (cat (cat (cat (cat 0x1A#6 d) a) wc) 0#1) sz) cp) 1#1) la), asWord (cat (cat 0#5 scope) 0#24)]
  | .stl d a wc sz cp la =>
    [asWord (cat (cat (cat (cat (cat (cat (cat (cat 0x1B#6 d) a) wc) 0#1) sz) cp) 0#1) la)]
  | .stlScope d a wc sz cp la scope =>
    [asWord (cat (cat (cat (cat (cat (cat (cat (cat 0x1B#6 d) a) wc) 0#1) sz) cp) 1#1) la), asWord (cat (cat 0#5 scope) 0#24)]
  | .ldmc d a wc la doff nl =>
    [asWord (cat (cat (cat (cat (cat (cat 0x1C#6 d) a) wc) 0#4) 1#1) la), asWord (cat (cat 0#13 doff) nl)]
  | .pref a wc ln cp la =>
    [asWord (cat (cat (cat (cat (cat (cat (cat 0x1D#6 0#7) a) wc) ln) cp) 0#1) la)]
  | .prefOffset a wc ln cp la off =>
    [asWord (cat (cat (cat (cat (cat (cat (cat 0x1D#6 0#7) a) wc) ln) cp) 1#1) la), off]
  | .atom d a wc cp la =>
    [asWord (cat (cat (cat (cat (cat (cat (cat 0x1E#6 d) a) wc) 0#2) cp) 0#1) la)]
  | .atomExt d a wc cp la scope b ord op size =>
    [asWord (cat (cat (cat (cat (cat (cat (cat 0x1E#6 d) a) wc) 0#2) cp) 1#1) la), asWord (cat (cat (cat (cat (cat (cat (cat (cat 0#5 scope) 0#1) b) 0#1) ord) op) size) 0#6)]
  | .red d a wc cp la =>
    [asWord (cat (cat (cat (cat (cat (cat (cat 0x1F#6 d) a) wc) 0#2) cp) 0#1) la)]
  | .redExt d a wc cp la scope ord op size =>
    [asWord (cat (cat (cat (cat (cat (cat (cat 0x1F#6 d) a) wc) 0#2) cp) 1#1) la), asWord (cat (cat (cat (cat (cat (cat 0#5 scope) 0#9) ord) op) size) 0#6)]
  | .atomk d a wc op cp la =>
    [asWord (cat (cat (cat (cat (cat (cat (cat 0x20#6 d) a) wc) op) cp) 0#1) la)]
  | .atomkExt d a wc op cp la scope ord =>
    [asWord (cat (cat (cat (cat (cat (cat (cat 0x20#6 d) a) wc) op) cp) 1#1) la), asWord (cat (cat (cat (cat 0#5 scope) 0#9) ord) 0#12)]
  | .fence kind scope =>
    [asWord (cat (cat (cat (cat (cat 0x21#6 0#14) 0#4) 0#3) kind) scope)]
  | .discard n a =>
    [asWord (cat (cat (cat (cat 0x21#6 n) a) 1#4) 0#8)]
  | .flushl n a =>
    [asWord (cat (cat (cat (cat 0x21#6 n) a) 2#4) 0#8)]
  | .invl n a l2 =>
    [asWord (cat (cat (cat (cat (cat 0x21#6 n) a) 3#4) 0#7) l2)]
  | .ptest p a =>
    [asWord (cat (cat (cat (cat (cat 0x21#6 0#4) p) a) 4#4) 0#8)]
  | .bari a n =>
    [asWord (cat (cat (cat (cat (cat 0x22#6 0#7) a) 0#4) 0#4) n)]
  | .bara a n =>
    [asWord (cat (cat (cat (cat (cat 0x22#6 0#7) a) 1#4) 0#4) n)]
  | .barw n =>
    [asWord (cat (cat (cat (cat 0x22#6 0#14) 2#4) 0#4) n)]
  | .bar a n =>
    [asWord (cat (cat (cat (cat (cat 0x22#6 0#7) a) 3#4) 0#4) n)]
  | .waitge d a wc la =>
    [asWord (cat (cat (cat (cat (cat (cat 0x23#6 d) a) wc) 0#4) 0#1) la)]
  | .waitw mask =>
    [asWord (cat (cat (cat 0x24#6 0#14) 0#4) mask)]
  | .grow p m =>
    [asWord (cat (cat (cat (cat (cat 0x25#6 0#4) p) 0#7) 0#4) m)]
  | .shrink m =>
    [asWord (cat (cat (cat 0x25#6 0#14) 1#4) m)]
  | .kset k a p =>
    [asWord (cat (cat (cat (cat (cat (cat 0x26#6 0#4) k) a) 0#4) 0#5) p)]
  | .mma b k ob wc la nk atile reuse z crow =>
    [asWord (cat (cat (cat (cat (cat (cat (cat (cat 0x27#6 b) k) ob) wc) 0#1) 0#3) 1#1) la), asWord (cat (cat (cat (cat (cat (cat 0#4 nk) atile) 0#1) reuse) z) crow)]
  | .mmaq b k ob wc la nk atile reuse z crow =>
    [asWord (cat (cat (cat (cat (cat (cat (cat (cat 0x28#6 b) k) ob) wc) 0#1) 0#3) 1#1) la), asWord (cat (cat (cat (cat (cat (cat 0#4 nk) atile) 0#1) reuse) z) crow)]
  | .opfence =>
    [asWord (cat (cat (cat 0x29#6 0#14) 0#4) 0#8)]
  | .mwait k =>
    [asWord (cat (cat (cat (cat 0x29#6 0#14) 1#4) 0#5) k)]
  | .mprogMat d k =>
    [asWord (cat (cat (cat (cat (cat (cat (cat 0x29#6 d) 0#7) 2#4) 0#1) 0#1) 0#3) k)]
  | .mprogCopy d =>
    [asWord (cat (cat (cat (cat (cat (cat 0x29#6 d) 0#7) 2#4) 0#1) 1#1) 0#6)]
  | .obres ob a wc la =>
    [asWord (cat (cat (cat (cat (cat (cat (cat (cat 0x2A#6 0#3) ob) a) wc) 0#1) 0#3) 0#1) la)]
  | .obrel ob wc la =>
    [asWord (cat (cat (cat (cat (cat (cat (cat (cat 0x2A#6 0#3) ob) 0#7) wc) 0#1) 1#3) 0#1) la)]
  | .obld ob a wc la n doff =>
    [asWord (cat (cat (cat (cat (cat (cat (cat (cat 0x2A#6 0#3) ob) a) wc) 0#1) 2#3) 1#1) la), asWord (cat (cat (cat 0#2 n) 0#2) doff)]
  | .accz wc la n row =>
    [asWord (cat (cat (cat (cat (cat (cat 0x2B#6 0#14) wc) 0#1) 0#3) 1#1) la), asWord (cat (cat (cat 0#2 n) 0#3) row)]
  | .accld a s wc la n fmt row =>
    [asWord (cat (cat (cat (cat (cat (cat (cat 0x2B#6 a) s) wc) 0#1) 1#3) 1#1) la), asWord (cat (cat (cat 0#9 n) fmt) row)]
  | .accst a s wc la n fmt row =>
    [asWord (cat (cat (cat (cat (cat (cat (cat 0x2B#6 a) s) wc) 0#1) 2#3) 1#1) la), asWord (cat (cat (cat 0#9 n) fmt) row)]
  | .accrd d a wc la =>
    [asWord (cat (cat (cat (cat (cat (cat (cat 0x2B#6 d) a) wc) 0#1) 3#3) 0#1) la)]
  | .achain d a wc la =>
    [asWord (cat (cat (cat (cat (cat (cat (cat 0x2C#6 d) a) wc) 0#1) 0#3) 0#1) la)]
  | .asend h s wc la =>
    [asWord (cat (cat (cat (cat (cat (cat (cat 0x2C#6 h) s) wc) 0#1) 1#3) 0#1) la)]
  | .await h wc la =>
    [asWord (cat (cat (cat (cat (cat (cat (cat 0x2C#6 h) 0#7) wc) 0#1) 2#3) 0#1) la)]
  | .arel h wc e la =>
    [asWord (cat (cat (cat (cat (cat (cat (cat 0x2C#6 h) 0#7) wc) e) 3#3) 0#1) la)]
  | .copy c q wc st la inc =>
    [asWord (cat (cat (cat (cat (cat (cat (cat 0x2D#6 c) q) wc) st) 0#3) 1#1) la), asWord (cat 0#16 inc)]
  | .copyg c q wc st la inc =>
    [asWord (cat (cat (cat (cat (cat (cat (cat 0x2D#6 c) q) wc) st) 1#3) 1#1) la), asWord (cat 0#16 inc)]
  | .sealLayout d s wc la =>
    [asWord (cat (cat (cat (cat (cat (cat (cat 0x2E#6 d) s) wc) 0#1) 0#3) 0#1) la)]
  | .cgrp d a wc la =>
    [asWord (cat (cat (cat (cat (cat (cat (cat 0x2F#6 d) a) wc) 0#1) 0#3) 0#1) la)]
  | .cgrpEnd h wc la =>
    [asWord (cat (cat (cat (cat (cat (cat (cat 0x2F#6 h) 0#7) wc) 1#1) 0#3) 0#1) la)]
  | .cgath h a wc la =>
    [asWord (cat (cat (cat (cat (cat (cat (cat 0x2F#6 h) a) wc) 0#1) 1#3) 0#1) la)]
  | .crsc h a wc la =>
    [asWord (cat (cat (cat (cat (cat (cat (cat 0x2F#6 h) a) wc) 0#1) 2#3) 0#1) la)]
  | .cata h a wc la =>
    [asWord (cat (cat (cat (cat (cat (cat (cat 0x2F#6 h) a) wc) 0#1) 3#3) 0#1) la)]
  | .cbar h wc la =>
    [asWord (cat (cat (cat (cat (cat (cat (cat 0x2F#6 h) 0#7) wc) 0#1) 4#3) 0#1) la)]
  | .launch d r wc la =>
    [asWord (cat (cat (cat (cat (cat (cat (cat 0x30#6 d) r) wc) 0#1) 0#3) 0#1) la)]
  | .qpush q r wc la =>
    [asWord (cat (cat (cat (cat (cat (cat (cat 0x30#6 q) r) wc) 0#1) 1#3) 0#1) la)]
  | .qpop d q wc la p =>
    [asWord (cat (cat (cat (cat (cat (cat (cat 0x30#6 d) q) wc) 0#1) 2#3) 1#1) la), asWord (cat 0#29 p)]
  | .qfree q wc la =>
    [asWord (cat (cat (cat (cat (cat (cat (cat 0x30#6 0#7) q) wc) 0#1) 3#3) 0#1) la)]
  | .gets d s =>
    [asWord (cat (cat (cat (cat 0x31#6 d) 0#7) 0#4) s)]
  | .sets a s =>
    [asWord (cat (cat (cat (cat 0x31#6 0#7) a) 1#4) s)]
  | .trap n =>
    [asWord (cat (cat (cat 0x32#6 0#14) 0#4) n)]
  | .syscall n =>
    [asWord (cat (cat (cat 0x32#6 0#14) 1#4) n)]
  | .eret =>
    [asWord (cat (cat (cat 0x32#6 0#14) 2#4) 0#8)]
  | .halt =>
    [asWord (cat (cat (cat 0x32#6 0#14) 3#4) 0#8)]
  | .idle =>
    [asWord (cat (cat (cat 0x32#6 0#14) 4#4) 0#8)]
  | .tlbinv n a t =>
    [asWord (cat (cat (cat (cat (cat 0x33#6 n) a) 0#4) 0#6) t)]
  | .ctxsv t a p =>
    [asWord (cat (cat (cat (cat (cat 0x33#6 t) a) 1#4) 0#5) p)]
  | .ctxld a p =>
    [asWord (cat (cat (cat (cat (cat 0x33#6 0#7) a) 2#4) 0#5) p)]
  | .migrate pav p =>
    [asWord (cat (cat (cat (cat (cat 0x34#6 0#14) 0#4) 0#4) pav) p)]
  | .unmig =>
    [asWord (cat (cat (cat 0x34#6 0#14) 1#4) 0#8)]
  | .wpset a =>
    [asWord (cat (cat (cat (cat 0x34#6 0#7) a) 2#4) 0#8)]
  | .trace op =>
    [asWord (cat (cat (cat (cat 0x34#6 0#14) 3#4) 0#6) op)]
  | .rejoinTimeout _ _ => []
  | .sleepWake _ => []
  | .sleepuWake _ => []
  | .barrierWave _ => []
  | .waitgeRead _ => []
  | .growGrant _ => []
  | .growDeadlockFail _ => []
  | .mmaRoundIssue _ _ => []
  | .matrixStep _ => []
  | .asendLand _ => []
  | .copyComplete _ => []
  | .collectiveForm _ _ => []
  | .collectiveComplete _ _ _ => []
  | .qpushPublish _ => []
  | .queueWaitWake _ => []
  | .loadReturn _ => []
  | .accessAck _ => []
  | .mshrGrant _ => []
  | .wcDrainTimeout _ => []
  | .rdcLeaseEnd _ _ => []
  | .ldmcMergeEnd _ => []
  | .ldmcHoldEnd _ => []
  | .ldmcDeliveryDone _ => []
  | .shutterClose _ => []
  | .groupReturn _ => []
  | .activeSetSwap _ _ => []
  | .pendingPromote _ _ => []
  | .teamDispatch _ => []
  | .teamRelease _ => []
  | .swapOut _ => []
  | .teamWake _ => []
  | .ctxnew _ => []
  | .ctxend _ => []
  | .load _ => []
  | .recoveryLoad _ => []
  | .mtcload _ => []
  | .maphost _ => []
  | .exportMem _ => []
  | .hostLaunch _ => []
  | .attest _ => []
  | .ctxset _ => []
  | .celloff _ => []
  | .cellon _ => []
  | .drain _ => []
  | .undrain _ => []
  | .laneoff _ => []
  | .serviceReserved _ => []
  | .reservedRequest _ => []
  | .mbIdent _ => []
  | .synread _ => []
  | .scrub _ => []
  | .rowrepair _ => []
  | .seqload _ => []
  | .mbReset _ => []
  | .mbReserved _ => []
  | .coldPowerOn => []
  | .linkWidthRaise _ _ => []
  | .linkWidthDone _ _ => []
  | .ratioSelect _ _ _ => []
  | .ratioChangeDone _ => []
  | .preempt _ => []
  | .launchWatchdog _ => []
  | .uevictConversion _ _ _ => []
  | .pageMigrate _ _ _ => []
  | .faultResolved _ _ _ => []
  | .teamFaultService _ _ => []
  | .syscallReturn _ _ => []
  | .uquotaService _ _ _ => []
  | .hostStop _ _ _ => []
  | .hostStep _ _ => []
  | .linkWidthShed _ _ => []
  | .hostDoorbell _ _ _ _ => []
  | .hostCxlRead _ _ => []
  | .hostCxlWrite _ _ _ => []
  | .tbiSyn _ _ _ _ _ => []
  | .tbiCmp _ _ => []
  | .tbiNop _ => []
  | .tbiReservedOpcode _ _ => []
  | .quiesce _ _ => []
  | .linkReplay _ _ _ => []
  | .energyLowRead _ _ => []
  | .energyHighRead _ _ => []
  | .sysregWrite _ _ => []
  | .powerLoss => []

/-- The instruction the decoder reads from bits numbered as the opcode table numbers them: the instruction word in bits 31
to 0 and its extension word, zero where the row gives it no bits, above (R58). -/
def decodeTableWord (nbits w : Nat) : Option Instr :=
  let v := w % 2 ^ nbits
  match decodeWord (BitVec.ofNat 32 v) (BitVec.ofNat 32 (v / 2 ^ 32)) with
  | .ok i => some i
  | .error _ => none

end Sys2Proof
end

