-- ==== Sys2Proof/Machine/Operands.lean ====
section
/-! DEFINITION. What an instruction names: its vector registers in the order d, a, b (R25), its destination, its sources,
its class (R51), length and wait counter. -/

namespace Sys2Proof

/-- A register and the one after it (R113). -/
def pairOf (r : VReg) : List VReg := [r, r + 1#7]

/-- `n` registers from `r` on. -/
def regsFrom (r : VReg) (n : Nat) : List VReg := (List.range n).map fun i => r + BitVec.ofNat 7 i

/-- Does a run of `n` registers from `r` reach past v127? -/
def runPast (r : VReg) (n : Nat) : Bool := decide (128 < r.toNat + n)

/-- One register, or a pair for a 64-bit operand. -/
def sized (wide : Bool) (r : VReg) : List VReg := if wide then pairOf r else [r]

/-- The vector registers an instruction names, in the order d, a, b, pairs and runs in ascending number; `w` is the width of
its group (R194, R444). -/
def Instr.names (i : Instr) (w : Nat) : List VReg :=
  match i with
  | .iadd d a b => [d] ++ [a] ++ [b]
  | .isub d a b => [d] ++ [a] ++ [b]
  | .imul d a b => [d] ++ [a] ++ [b]
  | .imulhS d a b => [d] ++ [a] ++ [b]
  | .imulhN d a b => [d] ++ [a] ++ [b]
  | .imad d a b => [d] ++ [a] ++ [b]
  | .iminS d a b => [d] ++ [a] ++ [b]
  | .iminN d a b => [d] ++ [a] ++ [b]
  | .imaxS d a b => [d] ++ [a] ++ [b]
  | .imaxN d a b => [d] ++ [a] ++ [b]
  | .iabs d a => [d] ++ [a]
  | .isel d a b => [d] ++ [a] ++ [b]
  | .iadd2 d a b => [d] ++ [a] ++ [b]
  | .isub2 d a b => [d] ++ [a] ++ [b]
  | .imin2S d a b => [d] ++ [a] ++ [b]
  | .imin2N d a b => [d] ++ [a] ++ [b]
  | .imax2S d a b => [d] ++ [a] ++ [b]
  | .imax2N d a b => [d] ++ [a] ++ [b]
  | .maxd2 d a b => [d] ++ [a] ++ [b]
  | .and d a b => [d] ++ [a] ++ [b]
  | .or d a b => [d] ++ [a] ++ [b]
  | .xor d a b => [d] ++ [a] ++ [b]
  | .not d a => [d] ++ [a]
  | .shl d a b => [d] ++ [a] ++ [b]
  | .shr d a b => [d] ++ [a] ++ [b]
  | .sar d a b => [d] ++ [a] ++ [b]
  | .rot d a b => [d] ++ [a] ++ [b]
  | .bfxS d a b => [d] ++ [a] ++ [b]
  | .bfxN d a b => [d] ++ [a] ++ [b]
  | .bfi d a b => [d] ++ [a] ++ [b]
  | .popc d a => [d] ++ [a]
  | .clz d a => [d] ++ [a]
  | .brev d a => [d] ++ [a]
  | .mov d a => [d] ++ [a]
  | .movgToG _ a => [a]
  | .movgFromG d _ => [d]
  | .iaddi d a _ => [d] ++ [a]
  | .andi d a _ => [d] ++ [a]
  | .ori d a _ => [d] ++ [a]
  | .xori d a _ => [d] ++ [a]
  | .cmpi _ a b _ => [a] ++ [b]
  | .movi d _ => [d]
  | .moviX d _ => [d]
  | .lea d a _ => pairOf d ++ pairOf a
  | .fadd d a b => [d] ++ [a] ++ [b]
  | .fsub d a b => [d] ++ [a] ++ [b]
  | .fmul d a b => [d] ++ [a] ++ [b]
  | .ffma d a b => [d] ++ [a] ++ [b]
  | .fmin d a b => [d] ++ [a] ++ [b]
  | .fmax d a b => [d] ++ [a] ++ [b]
  | .fdot2 d a b => [d] ++ [a] ++ [b]
  | .fkey d a => [d] ++ [a]
  | .fclass d a => [d] ++ [a]
  | .fcvt d a _ => [d] ++ [a]
  | .frcp d a => [d] ++ [a]
  | .frsq d a => [d] ++ [a]
  | .fsqrt d a => [d] ++ [a]
  | .fexp2 d a => [d] ++ [a]
  | .flog2 d a => [d] ++ [a]
  | .fsin d a => [d] ++ [a]
  | .fcos d a => [d] ++ [a]
  | .cmpf _ a b _ => [a] ++ [b]
  | .hadd2F16 d a b => [d] ++ [a] ++ [b]
  | .hadd2Bf16 d a b => [d] ++ [a] ++ [b]
  | .hmul2F16 d a b => [d] ++ [a] ++ [b]
  | .hmul2Bf16 d a b => [d] ++ [a] ++ [b]
  | .hfma2F16 d a b => [d] ++ [a] ++ [b]
  | .hfma2Bf16 d a b => [d] ++ [a] ++ [b]
  | .hmin2F16 d a b => [d] ++ [a] ++ [b]
  | .hmin2Bf16 d a b => [d] ++ [a] ++ [b]
  | .hmax2F16 d a b => [d] ++ [a] ++ [b]
  | .hmax2Bf16 d a b => [d] ++ [a] ++ [b]
  | .shfl d a b => [d] ++ [a] ++ [b]
  | .shflx d a b => [d] ++ [a] ++ [b]
  | .shflu d a b => [d] ++ [a] ++ [b]
  | .shfld d a b => [d] ++ [a] ++ [b]
  | .voteAny _ a b => [a] ++ [b]
  | .voteAll _ a b => [a] ++ [b]
  | .voteBallot d a b => sized (w == 64) d ++ [a] ++ [b]
  | .redgAdd d a b => [d] ++ [a] ++ [b]
  | .redgMin d a b => [d] ++ [a] ++ [b]
  | .redgMax d a b => [d] ++ [a] ++ [b]
  | .scangAdd d a b => [d] ++ [a] ++ [b]
  | .scangMax d a b => [d] ++ [a] ++ [b]
  | .matchLanes d a b => pairOf d ++ [a] ++ [b]
  | .elect _ b => [b]
  | .bra _ _ _ => []
  | .brx _ _ a => pairOf a
  | .call _ _ _ => [2#7, 3#7]
  | .ret a => pairOf a
  | .ifp _ _ _ => []
  | .repeatN _ _ _ => []
  | .enrol _ => []
  | .join _ => []
  | .strike _ => []
  | .nop => []
  | .exit => []
  | .yield => []
  | .sleep a => [a]
  | .sleepu t => pairOf t
  | .sleepuCounter t c => pairOf t ++ pairOf (t + 2#7) ++ pairOf c
  | .ld d a _ sz _ _ => sized (sz == 1#2) d ++ pairOf a
  | .ldOffset d a _ sz _ _ _ => sized (sz == 1#2) d ++ pairOf a
  | .st d a _ sz _ _ => sized (sz == 1#2) d ++ pairOf a
  | .stOffset d a _ sz _ _ _ => sized (sz == 1#2) d ++ pairOf a
  | .lda d a _ sz _ _ => sized (sz == 1#1) d ++ pairOf a
  | .ldaScope d a _ sz _ _ _ => sized (sz == 1#1) d ++ pairOf a
  | .stl d a _ sz _ _ => sized (sz == 1#1) d ++ pairOf a
  | .stlScope d a _ sz _ _ _ => sized (sz == 1#1) d ++ pairOf a
  | .ldmc d a _ _ _ _ => pairOf d ++ pairOf a
  | .pref a _ _ _ _ => pairOf a
  | .prefOffset a _ _ _ _ _ => pairOf a
  | .atom d a _ _ _ => [d] ++ pairOf a
  | .atomExt d a _ _ _ _ b _ op size => sized (size == 1#2) d ++ pairOf a ++ (if op = 9#4 then sized (size == 1#2) b else [])
  | .red d a _ _ _ => [d] ++ pairOf a
  | .redExt d a _ _ _ _ _ _ size => sized (size == 1#2) d ++ pairOf a
  | .atomk d a _ _ _ _ => pairOf d ++ pairOf a
  | .atomkExt d a _ _ _ _ _ _ => pairOf d ++ pairOf a
  | .fence _ _ => []
  | .discard n a => [n] ++ pairOf a
  | .flushl n a => [n] ++ pairOf a
  | .invl n a _ => [n] ++ pairOf a
  | .ptest _ a => [a]
  | .bari a _ => [a]
  | .bara a _ => [a]
  | .barw _ => []
  | .bar a _ => [a]
  | .waitge d a _ _ => pairOf d ++ pairOf a
  | .waitw _ => []
  | .grow _ _ => []
  | .shrink _ => []
  | .kset _ a _ => [a]
  | .mma b _ _ _ _ nk _ _ _ _ => regsFrom b ((nk.toNat + 1) * (256 / w))
  | .mmaq b _ _ _ _ nk _ _ _ _ => regsFrom b ((nk.toNat + 1) * (256 / w))
  | .opfence => []
  | .mwait _ => []
  | .mprogMat d _ => [d]
  | .mprogCopy d => [d]
  | .obres _ a _ _ => pairOf a
  | .obrel _ _ _ => []
  | .obld _ a _ _ _ _ => pairOf a
  | .accz _ _ _ _ => []
  | .accld a s _ _ _ _ _ => pairOf a ++ [s]
  | .accst a s _ _ _ _ _ => pairOf a ++ [s]
  | .accrd d a _ _ => [d] ++ [a]
  | .achain d a _ _ => [d] ++ pairOf a
  | .asend h s _ _ => [h] ++ [s]
  | .await h _ _ => [h]
  | .arel h _ _ _ => [h]
  | .copy c q _ _ _ _ => regsFrom c 11 ++ pairOf q
  | .copyg c q _ _ _ _ => regsFrom c 13 ++ pairOf q
  | .sealLayout d s _ _ => pairOf d ++ pairOf s
  | .cgrp d a _ _ => [d] ++ pairOf a
  | .cgrpEnd h _ _ => [h]
  | .cgath h a _ _ => [h] ++ pairOf a
  | .crsc h a _ _ => [h] ++ pairOf a
  | .cata h a _ _ => [h] ++ pairOf a
  | .cbar h _ _ => [h]
  | .launch d r _ _ => pairOf d ++ pairOf r
  | .qpush q r _ _ => pairOf q ++ pairOf r
  | .qpop d q _ _ _ => [d] ++ pairOf q
  | .qfree q _ _ => pairOf q
  | .gets d s => sized (special64 s) d
  | .sets a s => sized (special64 s) a
  | .trap _ => []
  | .syscall _ => []
  | .eret => []
  | .halt => []
  | .idle => []
  | .tlbinv n a t => (if t.toNat ≤ 1 then [n] else []) ++ (if t = 0#2 then pairOf a else [])
  | .ctxsv t a _ => pairOf t ++ pairOf a
  | .ctxld a _ => pairOf a
  | .migrate _ _ => []
  | .unmig => []
  | .wpset a => pairOf a
  | .trace _ => []
  | .rejoinTimeout _ _ => []
  | .sleepWake _ => []
  | .sleepuWake _ => []
  | .barrierWave _ => []
  | .waitgeRead _ => []
  | .growGrant _ => []
  | .growDeadlockFail _ => []
  | .mmaRoundIssue _ _ => []
  | .matrixStep _ => []
  | .asendLand _ => []
  | .copyComplete _ => []
  | .collectiveForm _ _ => []
  | .collectiveComplete _ _ _ => []
  | .qpushPublish _ => []
  | .queueWaitWake _ => []
  | .loadReturn _ => []
  | .accessAck _ => []
  | .mshrGrant _ => []
  | .wcDrainTimeout _ => []
  | .rdcLeaseEnd _ _ => []
  | .ldmcMergeEnd _ => []
  | .ldmcHoldEnd _ => []
  | .ldmcDeliveryDone _ => []
  | .shutterClose _ => []
  | .groupReturn _ => []
  | .activeSetSwap _ _ => []
  | .pendingPromote _ _ => []
  | .teamDispatch _ => []
  | .teamRelease _ => []
  | .swapOut _ => []
  | .teamWake _ => []
  | .ctxnew _ => []
  | .ctxend _ => []
  | .load _ => []
  | .recoveryLoad _ => []
  | .mtcload _ => []
  | .maphost _ => []
  | .exportMem _ => []
  | .hostLaunch _ => []
  | .attest _ => []
  | .ctxset _ => []
  | .celloff _ => []
  | .cellon _ => []
  | .drain _ => []
  | .undrain _ => []
  | .laneoff _ => []
  | .serviceReserved _ => []
  | .reservedRequest _ => []
  | .mbIdent _ => []
  | .synread _ => []
  | .scrub _ => []
  | .rowrepair _ => []
  | .seqload _ => []
  | .mbReset _ => []
  | .mbReserved _ => []
  | .coldPowerOn => []
  | .linkWidthRaise _ _ => []
  | .linkWidthDone _ _ => []
  | .ratioSelect _ _ _ => []
  | .ratioChangeDone _ => []
  | .preempt _ => []
  | .launchWatchdog _ => []
  | .uevictConversion _ _ _ => []
  | .pageMigrate _ _ _ => []
  | .faultResolved _ _ _ => []
  | .teamFaultService _ _ => []
  | .syscallReturn _ _ => []
  | .uquotaService _ _ _ => []
  | .hostStop _ _ _ => []
  | .hostStep _ _ => []
  | .linkWidthShed _ _ => []
  | .hostDoorbell _ _ _ _ => []
  | .hostCxlRead _ _ => []
  | .hostCxlWrite _ _ _ => []
  | .tbiSyn _ _ _ _ _ => []
  | .tbiCmp _ _ => []
  | .tbiNop _ => []
  | .tbiReservedOpcode _ _ => []
  | .quiesce _ _ => []
  | .linkReplay _ _ _ => []
  | .energyLowRead _ _ => []
  | .energyHighRead _ _ => []
  | .sysregWrite _ _ => []
  | .powerLoss => []

/-- Does a run of registers that an instruction names reach past v127, and at which number first (R25)? -/
def Instr.pastEnd (i : Instr) (w : Nat) : Bool :=
  match i with
  | .iadd _ _ _ => false
  | .isub _ _ _ => false
  | .imul _ _ _ => false
  | .imulhS _ _ _ => false
  | .imulhN _ _ _ => false
  | .imad _ _ _ => false
  | .iminS _ _ _ => false
  | .iminN _ _ _ => false
  | .imaxS _ _ _ => false
  | .imaxN _ _ _ => false
  | .iabs _ _ => false
  | .isel _ _ _ => false
  | .iadd2 _ _ _ => false
  | .isub2 _ _ _ => false
  | .imin2S _ _ _ => false
  | .imin2N _ _ _ => false
  | .imax2S _ _ _ => false
  | .imax2N _ _ _ => false
  | .maxd2 _ _ _ => false
  | .and _ _ _ => false
  | .or _ _ _ => false
  | .xor _ _ _ => false
  | .not _ _ => false
  | .shl _ _ _ => false
  | .shr _ _ _ => false
  | .sar _ _ _ => false
  | .rot _ _ _ => false
  | .bfxS _ _ _ => false
  | .bfxN _ _ _ => false
  | .bfi _ _ _ => false
  | .popc _ _ => false
  | .clz _ _ => false
  | .brev _ _ => false
  | .mov _ _ => false
  | .movgToG _ _ => false
  | .movgFromG _ _ => false
  | .iaddi _ _ _ => false
  | .andi _ _ _ => false
  | .ori _ _ _ => false
  | .xori _ _ _ => false
  | .cmpi _ _ _ _ => false
  | .movi _ _ => false
  | .moviX _ _ => false
  | .lea _ _ _ => false
  | .fadd _ _ _ => false
  | .fsub _ _ _ => false
  | .fmul _ _ _ => false
  | .ffma _ _ _ => false
  | .fmin _ _ _ => false
  | .fmax _ _ _ => false
  | .fdot2 _ _ _ => false
  | .fkey _ _ => false
  | .fclass _ _ => false
  | .fcvt _ _ _ => false
  | .frcp _ _ => false
  | .frsq _ _ => false
  | .fsqrt _ _ => false
  | .fexp2 _ _ => false
  | .flog2 _ _ => false
  | .fsin _ _ => false
  | .fcos _ _ => false
  | .cmpf _ _ _ _ => false
  | .hadd2F16 _ _ _ => false
  | .hadd2Bf16 _ _ _ => false
  | .hmul2F16 _ _ _ => false
  | .hmul2Bf16 _ _ _ => false
  | .hfma2F16 _ _ _ => false
  | .hfma2Bf16 _ _ _ => false
  | .hmin2F16 _ _ _ => false
  | .hmin2Bf16 _ _ _ => false
  | .hmax2F16 _ _ _ => false
  | .hmax2Bf16 _ _ _ => false
  | .shfl _ _ _ => false
  | .shflx _ _ _ => false
  | .shflu _ _ _ => false
  | .shfld _ _ _ => false
  | .voteAny _ _ _ => false
  | .voteAll _ _ _ => false
  | .voteBallot _ _ _ => false
  | .redgAdd _ _ _ => false
  | .redgMin _ _ _ => false
  | .redgMax _ _ _ => false
  | .scangAdd _ _ _ => false
  | .scangMax _ _ _ => false
  | .matchLanes _ _ _ => false
  | .elect _ _ => false
  | .bra _ _ _ => false
  | .brx _ _ _ => false
  | .call _ _ _ => false
  | .ret _ => false
  | .ifp _ _ _ => false
  | .repeatN _ _ _ => false
  | .enrol _ => false
  | .join _ => false
  | .strike _ => false
  | .nop => false
  | .exit => false
  | .yield => false
  | .sleep _ => false
  | .sleepu _ => false
  | .sleepuCounter t _ => runPast t 4
  | .ld _ _ _ _ _ _ => false
  | .ldOffset _ _ _ _ _ _ _ => false
  | .st _ _ _ _ _ _ => false
  | .stOffset _ _ _ _ _ _ _ => false
  | .lda _ _ _ _ _ _ => false
  | .ldaScope _ _ _ _ _ _ _ => false
  | .stl _ _ _ _ _ _ => false
  | .stlScope _ _ _ _ _ _ _ => false
  | .ldmc _ _ _ _ _ _ => false
  | .pref _ _ _ _ _ => false
  | .prefOffset _ _ _ _ _ _ => false
  | .atom _ _ _ _ _ => false
  | .atomExt _ _ _ _ _ _ _ _ _ _ => false
  | .red _ _ _ _ _ => false
  | .redExt _ _ _ _ _ _ _ _ _ => false
  | .atomk _ _ _ _ _ _ => false
  | .atomkExt _ _ _ _ _ _ _ _ => false
  | .fence _ _ => false
  | .discard _ _ => false
  | .flushl _ _ => false
  | .invl _ _ _ => false
  | .ptest _ _ => false
  | .bari _ _ => false
  | .bara _ _ => false
  | .barw _ => false
  | .bar _ _ => false
  | .waitge _ _ _ _ => false
  | .waitw _ => false
  | .grow _ _ => false
  | .shrink _ => false
  | .kset _ _ _ => false
  | .mma b _ _ _ _ nk _ _ _ _ => runPast b ((nk.toNat + 1) * (256 / w))
  | .mmaq b _ _ _ _ nk _ _ _ _ => runPast b ((nk.toNat + 1) * (256 / w))
  | .opfence => false
  | .mwait _ => false
  | .mprogMat _ _ => false
  | .mprogCopy _ => false
  | .obres _ _ _ _ => false
  | .obrel _ _ _ => false
  | .obld _ _ _ _ _ _ => false
  | .accz _ _ _ _ => false
  | .accld _ _ _ _ _ _ _ => false
  | .accst _ _ _ _ _ _ _ => false
  | .accrd _ _ _ _ => false
  | .achain _ _ _ _ => false
  | .asend _ _ _ _ => false
  | .await _ _ _ => false
  | .arel _ _ _ _ => false
  | .copy c _ _ _ _ _ => runPast c 11
  | .copyg c _ _ _ _ _ => runPast c 13
  | .sealLayout _ _ _ _ => false
  | .cgrp _ _ _ _ => false
  | .cgrpEnd _ _ _ => false
  | .cgath _ _ _ _ => false
  | .crsc _ _ _ _ => false
  | .cata _ _ _ _ => false
  | .cbar _ _ _ => false
  | .launch _ _ _ _ => false
  | .qpush _ _ _ _ => false
  | .qpop _ _ _ _ _ => false
  | .qfree _ _ _ => false
  | .gets _ _ => false
  | .sets _ _ => false
  | .trap _ => false
  | .syscall _ => false
  | .eret => false
  | .halt => false
  | .idle => false
  | .tlbinv _ _ _ => false
  | .ctxsv _ _ _ => false
  | .ctxld _ _ => false
  | .migrate _ _ => false
  | .unmig => false
  | .wpset _ => false
  | .trace _ => false
  | .rejoinTimeout _ _ => false
  | .sleepWake _ => false
  | .sleepuWake _ => false
  | .barrierWave _ => false
  | .waitgeRead _ => false
  | .growGrant _ => false
  | .growDeadlockFail _ => false
  | .mmaRoundIssue _ _ => false
  | .matrixStep _ => false
  | .asendLand _ => false
  | .copyComplete _ => false
  | .collectiveForm _ _ => false
  | .collectiveComplete _ _ _ => false
  | .qpushPublish _ => false
  | .queueWaitWake _ => false
  | .loadReturn _ => false
  | .accessAck _ => false
  | .mshrGrant _ => false
  | .wcDrainTimeout _ => false
  | .rdcLeaseEnd _ _ => false
  | .ldmcMergeEnd _ => false
  | .ldmcHoldEnd _ => false
  | .ldmcDeliveryDone _ => false
  | .shutterClose _ => false
  | .groupReturn _ => false
  | .activeSetSwap _ _ => false
  | .pendingPromote _ _ => false
  | .teamDispatch _ => false
  | .teamRelease _ => false
  | .swapOut _ => false
  | .teamWake _ => false
  | .ctxnew _ => false
  | .ctxend _ => false
  | .load _ => false
  | .recoveryLoad _ => false
  | .mtcload _ => false
  | .maphost _ => false
  | .exportMem _ => false
  | .hostLaunch _ => false
  | .attest _ => false
  | .ctxset _ => false
  | .celloff _ => false
  | .cellon _ => false
  | .drain _ => false
  | .undrain _ => false
  | .laneoff _ => false
  | .serviceReserved _ => false
  | .reservedRequest _ => false
  | .mbIdent _ => false
  | .synread _ => false
  | .scrub _ => false
  | .rowrepair _ => false
  | .seqload _ => false
  | .mbReset _ => false
  | .mbReserved _ => false
  | .coldPowerOn => false
  | .linkWidthRaise _ _ => false
  | .linkWidthDone _ _ => false
  | .ratioSelect _ _ _ => false
  | .ratioChangeDone _ => false
  | .preempt _ => false
  | .launchWatchdog _ => false
  | .uevictConversion _ _ _ => false
  | .pageMigrate _ _ _ => false
  | .faultResolved _ _ _ => false
  | .teamFaultService _ _ => false
  | .syscallReturn _ _ => false
  | .uquotaService _ _ _ => false
  | .hostStop _ _ _ => false
  | .hostStep _ _ => false
  | .linkWidthShed _ _ => false
  | .hostDoorbell _ _ _ _ => false
  | .hostCxlRead _ _ => false
  | .hostCxlWrite _ _ _ => false
  | .tbiSyn _ _ _ _ _ => false
  | .tbiCmp _ _ => false
  | .tbiNop _ => false
  | .tbiReservedOpcode _ _ => false
  | .quiesce _ _ => false
  | .linkReplay _ _ _ => false
  | .energyLowRead _ _ => false
  | .energyHighRead _ _ => false
  | .sysregWrite _ _ => false
  | .powerLoss => false

/-- The vector registers an instruction writes. -/
def Instr.dst (i : Instr) (w : Nat) : List VReg :=
  match i with
  | .iadd d _ _ => [d]
  | .isub d _ _ => [d]
  | .imul d _ _ => [d]
  | .imulhS d _ _ => [d]
  | .imulhN d _ _ => [d]
  | .imad d _ _ => [d]
  | .iminS d _ _ => [d]
  | .iminN d _ _ => [d]
  | .imaxS d _ _ => [d]
  | .imaxN d _ _ => [d]
  | .iabs d _ => [d]
  | .isel d _ _ => [d]
  | .iadd2 d _ _ => [d]
  | .isub2 d _ _ => [d]
  | .imin2S d _ _ => [d]
  | .imin2N d _ _ => [d]
  | .imax2S d _ _ => [d]
  | .imax2N d _ _ => [d]
  | .maxd2 d _ _ => [d]
  | .and d _ _ => [d]
  | .or d _ _ => [d]
  | .xor d _ _ => [d]
  | .not d _ => [d]
  | .shl d _ _ => [d]
  | .shr d _ _ => [d]
  | .sar d _ _ => [d]
  | .rot d _ _ => [d]
  | .bfxS d _ _ => [d]
  | .bfxN d _ _ => [d]
  | .bfi d _ _ => [d]
  | .popc d _ => [d]
  | .clz d _ => [d]
  | .brev d _ => [d]
  | .mov d _ => [d]
  | .movgToG _ _ => []
  | .movgFromG d _ => [d]
  | .iaddi d _ _ => [d]
  | .andi d _ _ => [d]
  | .ori d _ _ => [d]
  | .xori d _ _ => [d]
  | .cmpi _ _ _ _ => []
  | .movi d _ => [d]
  | .moviX d _ => [d]
  | .lea d _ _ => pairOf d
  | .fadd d _ _ => [d]
  | .fsub d _ _ => [d]
  | .fmul d _ _ => [d]
  | .ffma d _ _ => [d]
  | .fmin d _ _ => [d]
  | .fmax d _ _ => [d]
  | .fdot2 d _ _ => [d]
  | .fkey d _ => [d]
  | .fclass d _ => [d]
  | .fcvt d _ _ => [d]
  | .frcp d _ => [d]
  | .frsq d _ => [d]
  | .fsqrt d _ => [d]
  | .fexp2 d _ => [d]
  | .flog2 d _ => [d]
  | .fsin d _ => [d]
  | .fcos d _ => [d]
  | .cmpf _ _ _ _ => []
  | .hadd2F16 d _ _ => [d]
  | .hadd2Bf16 d _ _ => [d]
  | .hmul2F16 d _ _ => [d]
  | .hmul2Bf16 d _ _ => [d]
  | .hfma2F16 d _ _ => [d]
  | .hfma2Bf16 d _ _ => [d]
  | .hmin2F16 d _ _ => [d]
  | .hmin2Bf16 d _ _ => [d]
  | .hmax2F16 d _ _ => [d]
  | .hmax2Bf16 d _ _ => [d]
  | .shfl d _ _ => [d]
  | .shflx d _ _ => [d]
  | .shflu d _ _ => [d]
  | .shfld d _ _ => [d]
  | .voteAny _ _ _ => []
  | .voteAll _ _ _ => []
  | .voteBallot d _ _ => sized (w == 64) d
  | .redgAdd d _ _ => [d]
  | .redgMin d _ _ => [d]
  | .redgMax d _ _ => [d]
  | .scangAdd d _ _ => [d]
  | .scangMax d _ _ => [d]
  | .matchLanes d _ _ => pairOf d
  | .elect _ _ => []
  | .bra _ _ _ => []
  | .brx _ _ _ => []
  | .call _ _ _ => [2#7, 3#7]
  | .ret _ => []
  | .ifp _ _ _ => []
  | .repeatN _ _ _ => []
  | .enrol _ => []
  | .join _ => []
  | .strike _ => []
  | .nop => []
  | .exit => []
  | .yield => []
  | .sleep _ => []
  | .sleepu _ => []
  | .sleepuCounter _ _ => []
  | .ld d _ _ sz _ _ => sized (sz == 1#2) d
  | .ldOffset d _ _ sz _ _ _ => sized (sz == 1#2) d
  | .st _ _ _ _ _ _ => []
  | .stOffset _ _ _ _ _ _ _ => []
  | .lda d _ _ sz _ _ => sized (sz == 1#1) d
  | .ldaScope d _ _ sz _ _ _ => sized (sz == 1#1) d
  | .stl _ _ _ _ _ _ => []
  | .stlScope _ _ _ _ _ _ _ => []
  | .ldmc d _ _ _ _ _ => pairOf d
  | .pref _ _ _ _ _ => []
  | .prefOffset _ _ _ _ _ _ => []
  | .atom d _ _ _ _ => [d]
  | .atomExt d _ _ _ _ _ _ _ _ size => sized (size == 1#2) d
  | .red _ _ _ _ _ => []
  | .redExt _ _ _ _ _ _ _ _ _ => []
  | .atomk d _ _ _ _ _ => pairOf d
  | .atomkExt d _ _ _ _ _ _ _ => pairOf d
  | .fence _ _ => []
  | .discard _ _ => []
  | .flushl _ _ => []
  | .invl _ _ _ => []
  | .ptest _ _ => []
  | .bari _ _ => []
  | .bara _ _ => []
  | .barw _ => []
  | .bar _ _ => []
  | .waitge _ _ _ _ => []
  | .waitw _ => []
  | .grow _ _ => []
  | .shrink _ => []
  | .kset _ _ _ => []
  | .mma _ _ _ _ _ _ _ _ _ _ => []
  | .mmaq _ _ _ _ _ _ _ _ _ _ => []
  | .opfence => []
  | .mwait _ => []
  | .mprogMat d _ => [d]
  | .mprogCopy d => [d]
  | .obres _ _ _ _ => []
  | .obrel _ _ _ => []
  | .obld _ _ _ _ _ _ => []
  | .accz _ _ _ _ => []
  | .accld _ _ _ _ _ _ _ => []
  | .accst _ _ _ _ _ _ _ => []
  | .accrd d _ _ _ => [d]
  | .achain d _ _ _ => [d]
  | .asend _ _ _ _ => []
  | .await _ _ _ => []
  | .arel _ _ _ _ => []
  | .copy _ q _ _ _ _ => pairOf q
  | .copyg _ q _ _ _ _ => pairOf q
  | .sealLayout _ _ _ _ => []
  | .cgrp d _ _ _ => [d]
  | .cgrpEnd _ _ _ => []
  | .cgath _ _ _ _ => []
  | .crsc _ _ _ _ => []
  | .cata _ _ _ _ => []
  | .cbar _ _ _ => []
  | .launch d _ _ _ => pairOf d
  | .qpush _ _ _ _ => []
  | .qpop d _ _ _ _ => [d]
  | .qfree _ _ _ => []
  | .gets d s => sized (special64 s) d
  | .sets _ _ => []
  | .trap _ => []
  | .syscall _ => []
  | .eret => []
  | .halt => []
  | .idle => []
  | .tlbinv _ _ _ => []
  | .ctxsv t _ _ => pairOf t
  | .ctxld _ _ => []
  | .migrate _ _ => []
  | .unmig => []
  | .wpset _ => []
  | .trace _ => []
  | .rejoinTimeout _ _ => []
  | .sleepWake _ => []
  | .sleepuWake _ => []
  | .barrierWave _ => []
  | .waitgeRead _ => []
  | .growGrant _ => []
  | .growDeadlockFail _ => []
  | .mmaRoundIssue _ _ => []
  | .matrixStep _ => []
  | .asendLand _ => []
  | .copyComplete _ => []
  | .collectiveForm _ _ => []
  | .collectiveComplete _ _ _ => []
  | .qpushPublish _ => []
  | .queueWaitWake _ => []
  | .loadReturn _ => []
  | .accessAck _ => []
  | .mshrGrant _ => []
  | .wcDrainTimeout _ => []
  | .rdcLeaseEnd _ _ => []
  | .ldmcMergeEnd _ => []
  | .ldmcHoldEnd _ => []
  | .ldmcDeliveryDone _ => []
  | .shutterClose _ => []
  | .groupReturn _ => []
  | .activeSetSwap _ _ => []
  | .pendingPromote _ _ => []
  | .teamDispatch _ => []
  | .teamRelease _ => []
  | .swapOut _ => []
  | .teamWake _ => []
  | .ctxnew _ => []
  | .ctxend _ => []
  | .load _ => []
  | .recoveryLoad _ => []
  | .mtcload _ => []
  | .maphost _ => []
  | .exportMem _ => []
  | .hostLaunch _ => []
  | .attest _ => []
  | .ctxset _ => []
  | .celloff _ => []
  | .cellon _ => []
  | .drain _ => []
  | .undrain _ => []
  | .laneoff _ => []
  | .serviceReserved _ => []
  | .reservedRequest _ => []
  | .mbIdent _ => []
  | .synread _ => []
  | .scrub _ => []
  | .rowrepair _ => []
  | .seqload _ => []
  | .mbReset _ => []
  | .mbReserved _ => []
  | .coldPowerOn => []
  | .linkWidthRaise _ _ => []
  | .linkWidthDone _ _ => []
  | .ratioSelect _ _ _ => []
  | .ratioChangeDone _ => []
  | .preempt _ => []
  | .launchWatchdog _ => []
  | .uevictConversion _ _ _ => []
  | .pageMigrate _ _ _ => []
  | .faultResolved _ _ _ => []
  | .teamFaultService _ _ => []
  | .syscallReturn _ _ => []
  | .uquotaService _ _ _ => []
  | .hostStop _ _ _ => []
  | .hostStep _ _ => []
  | .linkWidthShed _ _ => []
  | .hostDoorbell _ _ _ _ => []
  | .hostCxlRead _ _ => []
  | .hostCxlWrite _ _ _ => []
  | .tbiSyn _ _ _ _ _ => []
  | .tbiCmp _ _ => []
  | .tbiNop _ => []
  | .tbiReservedOpcode _ _ => []
  | .quiesce _ _ => []
  | .linkReplay _ _ _ => []
  | .energyLowRead _ _ => []
  | .energyHighRead _ _ => []
  | .sysregWrite _ _ => []
  | .powerLoss => []

/-- Sources a, b and d (where d is also a source), for trace records (R104). In formats M, E and S the register of bits [25:19] counts as d
and that of bits [18:12] as a, an extension word's register as b, and the B registers of MMA and MMAQ as b (DESIGN CHOICE, log 28). -/
def Instr.sources (i : Instr) : Option VReg × Option VReg × Option VReg :=
  match i with
  | .iadd _ a b => (some a, some b, none)
  | .isub _ a b => (some a, some b, none)
  | .imul _ a b => (some a, some b, none)
  | .imulhS _ a b => (some a, some b, none)
  | .imulhN _ a b => (some a, some b, none)
  | .imad d a b => (some a, some b, some d)
  | .iminS _ a b => (some a, some b, none)
  | .iminN _ a b => (some a, some b, none)
  | .imaxS _ a b => (some a, some b, none)
  | .imaxN _ a b => (some a, some b, none)
  | .iabs _ a => (some a, none, none)
  | .isel d a b => (some a, some b, some d)
  | .iadd2 _ a b => (some a, some b, none)
  | .isub2 _ a b => (some a, some b, none)
  | .imin2S _ a b => (some a, some b, none)
  | .imin2N _ a b => (some a, some b, none)
  | .imax2S _ a b => (some a, some b, none)
  | .imax2N _ a b => (some a, some b, none)
  | .maxd2 d a b => (some a, some b, some d)
  | .and _ a b => (some a, some b, none)
  | .or _ a b => (some a, some b, none)
  | .xor _ a b => (some a, some b, none)
  | .not _ a => (some a, none, none)
  | .shl _ a b => (some a, some b, none)
  | .shr _ a b => (some a, some b, none)
  | .sar _ a b => (some a, some b, none)
  | .rot _ a b => (some a, some b, none)
  | .bfxS _ a b => (some a, some b, none)
  | .bfxN _ a b => (some a, some b, none)
  | .bfi d a b => (some a, some b, some d)
  | .popc _ a => (some a, none, none)
  | .clz _ a => (some a, none, none)
  | .brev _ a => (some a, none, none)
  | .mov _ a => (some a, none, none)
  | .movgToG _ a => (some a, none, none)
  | .movgFromG _ _ => (none, none, none)
  | .iaddi _ a _ => (some a, none, none)
  | .andi _ a _ => (some a, none, none)
  | .ori _ a _ => (some a, none, none)
  | .xori _ a _ => (some a, none, none)
  | .cmpi _ a b _ => (some a, some b, none)
  | .movi _ _ => (none, none, none)
  | .moviX _ _ => (none, none, none)
  | .lea _ a _ => (some a, none, none)
  | .fadd _ a b => (some a, some b, none)
  | .fsub _ a b => (some a, some b, none)
  | .fmul _ a b => (some a, some b, none)
  | .ffma d a b => (some a, some b, some d)
  | .fmin _ a b => (some a, some b, none)
  | .fmax _ a b => (some a, some b, none)
  | .fdot2 d a b => (some a, some b, some d)
  | .fkey _ a => (some a, none, none)
  | .fclass _ a => (some a, none, none)
  | .fcvt _ a _ => (some a, none, none)
  | .frcp _ a => (some a, none, none)
  | .frsq _ a => (some a, none, none)
  | .fsqrt _ a => (some a, none, none)
  | .fexp2 _ a => (some a, none, none)
  | .flog2 _ a => (some a, none, none)
  | .fsin _ a => (some a, none, none)
  | .fcos _ a => (some a, none, none)
  | .cmpf _ a b _ => (some a, some b, none)
  | .hadd2F16 _ a b => (some a, some b, none)
  | .hadd2Bf16 _ a b => (some a, some b, none)
  | .hmul2F16 _ a b => (some a, some b, none)
  | .hmul2Bf16 _ a b => (some a, some b, none)
  | .hfma2F16 d a b => (some a, some b, some d)
  | .hfma2Bf16 d a b => (some a, some b, some d)
  | .hmin2F16 _ a b => (some a, some b, none)
  | .hmin2Bf16 _ a b => (some a, some b, none)
  | .hmax2F16 _ a b => (some a, some b, none)
  | .hmax2Bf16 _ a b => (some a, some b, none)
  | .shfl _ a b => (some a, some b, none)
  | .shflx _ a b => (some a, some b, none)
  | .shflu _ a b => (some a, some b, none)
  | .shfld _ a b => (some a, some b, none)
  | .voteAny _ a b => (some a, some b, none)
  | .voteAll _ a b => (some a, some b, none)
  | .voteBallot _ a b => (some a, some b, none)
  | .redgAdd _ a b => (some a, some b, none)
  | .redgMin _ a b => (some a, some b, none)
  | .redgMax _ a b => (some a, some b, none)
  | .scangAdd _ a b => (some a, some b, none)
  | .scangMax _ a b => (some a, some b, none)
  | .matchLanes _ a b => (some a, some b, none)
  | .elect _ b => (none, some b, none)
  | .bra _ _ _ => (none, none, none)
  | .brx _ _ a => (some a, none, none)
  | .call _ _ _ => (none, none, none)
  | .ret a => (some a, none, none)
  | .ifp _ _ _ => (none, none, none)
  | .repeatN _ _ _ => (none, none, none)
  | .enrol _ => (none, none, none)
  | .join _ => (none, none, none)
  | .strike _ => (none, none, none)
  | .nop => (none, none, none)
  | .exit => (none, none, none)
  | .yield => (none, none, none)
  | .sleep a => (some a, none, none)
  | .sleepu _ => (none, none, none)
  | .sleepuCounter _ _ => (none, none, none)
  | .ld _ a _ _ _ _ => (some a, none, none)
  | .ldOffset _ a _ _ _ _ _ => (some a, none, none)
  | .st d a _ _ _ _ => (some a, none, some d)
  | .stOffset d a _ _ _ _ _ => (some a, none, some d)
  | .lda _ a _ _ _ _ => (some a, none, none)
  | .ldaScope _ a _ _ _ _ _ => (some a, none, none)
  | .stl d a _ _ _ _ => (some a, none, some d)
  | .stlScope d a _ _ _ _ _ => (some a, none, some d)
  | .ldmc d a _ _ _ _ => (some a, none, some d)
  | .pref a _ _ _ _ => (some a, none, none)
  | .prefOffset a _ _ _ _ _ => (some a, none, none)
  | .atom d a _ _ _ => (some a, none, some d)
  | .atomExt d a _ _ _ _ b _ op _ => (some a, if op = 9#4 then some b else none, some d)
  | .red d a _ _ _ => (some a, none, some d)
  | .redExt d a _ _ _ _ _ _ _ => (some a, none, some d)
  | .atomk d a _ _ _ _ => (some a, none, some d)
  | .atomkExt d a _ _ _ _ _ _ => (some a, none, some d)
  | .fence _ _ => (none, none, none)
  | .discard n a => (some a, none, some n)
  | .flushl n a => (some a, none, some n)
  | .invl n a _ => (some a, none, some n)
  | .ptest _ a => (some a, none, none)
  | .bari a _ => (some a, none, none)
  | .bara a _ => (some a, none, none)
  | .barw _ => (none, none, none)
  | .bar a _ => (some a, none, none)
  | .waitge d a _ _ => (some a, none, some d)
  | .waitw _ => (none, none, none)
  | .grow _ _ => (none, none, none)
  | .shrink _ => (none, none, none)
  | .kset _ a _ => (some a, none, none)
  | .mma b _ _ _ _ _ _ _ _ _ => (none, some b, none)
  | .mmaq b _ _ _ _ _ _ _ _ _ => (none, some b, none)
  | .opfence => (none, none, none)
  | .mwait _ => (none, none, none)
  | .mprogMat _ _ => (none, none, none)
  | .mprogCopy _ => (none, none, none)
  | .obres _ a _ _ => (some a, none, none)
  | .obrel _ _ _ => (none, none, none)
  | .obld _ a _ _ _ _ => (some a, none, none)
  | .accz _ _ _ _ => (none, none, none)
  | .accld a s _ _ _ _ _ => (some s, none, some a)
  | .accst a s _ _ _ _ _ => (some s, none, some a)
  | .accrd _ a _ _ => (some a, none, none)
  | .achain _ a _ _ => (some a, none, none)
  | .asend h s _ _ => (some s, none, some h)
  | .await _ _ _ => (none, none, none)
  | .arel _ _ _ _ => (none, none, none)
  | .copy c _ _ _ _ _ => (none, none, some c)
  | .copyg c _ _ _ _ _ => (none, none, some c)
  | .sealLayout d s _ _ => (some s, none, some d)
  | .cgrp _ a _ _ => (some a, none, none)
  | .cgrpEnd _ _ _ => (none, none, none)
  | .cgath _ a _ _ => (some a, none, none)
  | .crsc _ a _ _ => (some a, none, none)
  | .cata _ a _ _ => (some a, none, none)
  | .cbar _ _ _ => (none, none, none)
  | .launch _ r _ _ => (some r, none, none)
  | .qpush q r _ _ => (some r, none, some q)
  | .qpop _ q _ _ _ => (some q, none, none)
  | .qfree q _ _ => (some q, none, none)
  | .gets _ _ => (none, none, none)
  | .sets a _ => (some a, none, none)
  | .trap _ => (none, none, none)
  | .syscall _ => (none, none, none)
  | .eret => (none, none, none)
  | .halt => (none, none, none)
  | .idle => (none, none, none)
  | .tlbinv _ a _ => (some a, none, none)
  | .ctxsv _ a _ => (some a, none, none)
  | .ctxld a _ => (some a, none, none)
  | .migrate _ _ => (none, none, none)
  | .unmig => (none, none, none)
  | .wpset a => (some a, none, none)
  | .trace _ => (none, none, none)
  | .rejoinTimeout _ _ => (none, none, none)
  | .sleepWake _ => (none, none, none)
  | .sleepuWake _ => (none, none, none)
  | .barrierWave _ => (none, none, none)
  | .waitgeRead _ => (none, none, none)
  | .growGrant _ => (none, none, none)
  | .growDeadlockFail _ => (none, none, none)
  | .mmaRoundIssue _ _ => (none, none, none)
  | .matrixStep _ => (none, none, none)
  | .asendLand _ => (none, none, none)
  | .copyComplete _ => (none, none, none)
  | .collectiveForm _ _ => (none, none, none)
  | .collectiveComplete _ _ _ => (none, none, none)
  | .qpushPublish _ => (none, none, none)
  | .queueWaitWake _ => (none, none, none)
  | .loadReturn _ => (none, none, none)
  | .accessAck _ => (none, none, none)
  | .mshrGrant _ => (none, none, none)
  | .wcDrainTimeout _ => (none, none, none)
  | .rdcLeaseEnd _ _ => (none, none, none)
  | .ldmcMergeEnd _ => (none, none, none)
  | .ldmcHoldEnd _ => (none, none, none)
  | .ldmcDeliveryDone _ => (none, none, none)
  | .shutterClose _ => (none, none, none)
  | .groupReturn _ => (none, none, none)
  | .activeSetSwap _ _ => (none, none, none)
  | .pendingPromote _ _ => (none, none, none)
  | .teamDispatch _ => (none, none, none)
  | .teamRelease _ => (none, none, none)
  | .swapOut _ => (none, none, none)
  | .teamWake _ => (none, none, none)
  | .ctxnew _ => (none, none, none)
  | .ctxend _ => (none, none, none)
  | .load _ => (none, none, none)
  | .recoveryLoad _ => (none, none, none)
  | .mtcload _ => (none, none, none)
  | .maphost _ => (none, none, none)
  | .exportMem _ => (none, none, none)
  | .hostLaunch _ => (none, none, none)
  | .attest _ => (none, none, none)
  | .ctxset _ => (none, none, none)
  | .celloff _ => (none, none, none)
  | .cellon _ => (none, none, none)
  | .drain _ => (none, none, none)
  | .undrain _ => (none, none, none)
  | .laneoff _ => (none, none, none)
  | .serviceReserved _ => (none, none, none)
  | .reservedRequest _ => (none, none, none)
  | .mbIdent _ => (none, none, none)
  | .synread _ => (none, none, none)
  | .scrub _ => (none, none, none)
  | .rowrepair _ => (none, none, none)
  | .seqload _ => (none, none, none)
  | .mbReset _ => (none, none, none)
  | .mbReserved _ => (none, none, none)
  | .coldPowerOn => (none, none, none)
  | .linkWidthRaise _ _ => (none, none, none)
  | .linkWidthDone _ _ => (none, none, none)
  | .ratioSelect _ _ _ => (none, none, none)
  | .ratioChangeDone _ => (none, none, none)
  | .preempt _ => (none, none, none)
  | .launchWatchdog _ => (none, none, none)
  | .uevictConversion _ _ _ => (none, none, none)
  | .pageMigrate _ _ _ => (none, none, none)
  | .faultResolved _ _ _ => (none, none, none)
  | .teamFaultService _ _ => (none, none, none)
  | .syscallReturn _ _ => (none, none, none)
  | .uquotaService _ _ _ => (none, none, none)
  | .hostStop _ _ _ => (none, none, none)
  | .hostStep _ _ => (none, none, none)
  | .linkWidthShed _ _ => (none, none, none)
  | .hostDoorbell _ _ _ _ => (none, none, none)
  | .hostCxlRead _ _ => (none, none, none)
  | .hostCxlWrite _ _ _ => (none, none, none)
  | .tbiSyn _ _ _ _ _ => (none, none, none)
  | .tbiCmp _ _ => (none, none, none)
  | .tbiNop _ => (none, none, none)
  | .tbiReservedOpcode _ _ => (none, none, none)
  | .quiesce _ _ => (none, none, none)
  | .linkReplay _ _ _ => (none, none, none)
  | .energyLowRead _ _ => (none, none, none)
  | .energyHighRead _ _ => (none, none, none)
  | .sysregWrite _ _ => (none, none, none)
  | .powerLoss => (none, none, none)

/-- The address pair and offset of a memory access, for trace records (R104): of COPY and COPYG the record's, of QPUSH, QPOP and QFREE the
queue's, of SEAL the source's (DEDUCED, log 28). -/
def Instr.address (i : Instr) : Option (VReg × Word) :=
  match i with
  | .iadd _ _ _ => none
  | .isub _ _ _ => none
  | .imul _ _ _ => none
  | .imulhS _ _ _ => none
  | .imulhN _ _ _ => none
  | .imad _ _ _ => none
  | .iminS _ _ _ => none
  | .iminN _ _ _ => none
  | .imaxS _ _ _ => none
  | .imaxN _ _ _ => none
  | .iabs _ _ => none
  | .isel _ _ _ => none
  | .iadd2 _ _ _ => none
  | .isub2 _ _ _ => none
  | .imin2S _ _ _ => none
  | .imin2N _ _ _ => none
  | .imax2S _ _ _ => none
  | .imax2N _ _ _ => none
  | .maxd2 _ _ _ => none
  | .and _ _ _ => none
  | .or _ _ _ => none
  | .xor _ _ _ => none
  | .not _ _ => none
  | .shl _ _ _ => none
  | .shr _ _ _ => none
  | .sar _ _ _ => none
  | .rot _ _ _ => none
  | .bfxS _ _ _ => none
  | .bfxN _ _ _ => none
  | .bfi _ _ _ => none
  | .popc _ _ => none
  | .clz _ _ => none
  | .brev _ _ => none
  | .mov _ _ => none
  | .movgToG _ _ => none
  | .movgFromG _ _ => none
  | .iaddi _ _ _ => none
  | .andi _ _ _ => none
  | .ori _ _ _ => none
  | .xori _ _ _ => none
  | .cmpi _ _ _ _ => none
  | .movi _ _ => none
  | .moviX _ _ => none
  | .lea _ _ _ => none
  | .fadd _ _ _ => none
  | .fsub _ _ _ => none
  | .fmul _ _ _ => none
  | .ffma _ _ _ => none
  | .fmin _ _ _ => none
  | .fmax _ _ _ => none
  | .fdot2 _ _ _ => none
  | .fkey _ _ => none
  | .fclass _ _ => none
  | .fcvt _ _ _ => none
  | .frcp _ _ => none
  | .frsq _ _ => none
  | .fsqrt _ _ => none
  | .fexp2 _ _ => none
  | .flog2 _ _ => none
  | .fsin _ _ => none
  | .fcos _ _ => none
  | .cmpf _ _ _ _ => none
  | .hadd2F16 _ _ _ => none
  | .hadd2Bf16 _ _ _ => none
  | .hmul2F16 _ _ _ => none
  | .hmul2Bf16 _ _ _ => none
  | .hfma2F16 _ _ _ => none
  | .hfma2Bf16 _ _ _ => none
  | .hmin2F16 _ _ _ => none
  | .hmin2Bf16 _ _ _ => none
  | .hmax2F16 _ _ _ => none
  | .hmax2Bf16 _ _ _ => none
  | .shfl _ _ _ => none
  | .shflx _ _ _ => none
  | .shflu _ _ _ => none
  | .shfld _ _ _ => none
  | .voteAny _ _ _ => none
  | .voteAll _ _ _ => none
  | .voteBallot _ _ _ => none
  | .redgAdd _ _ _ => none
  | .redgMin _ _ _ => none
  | .redgMax _ _ _ => none
  | .scangAdd _ _ _ => none
  | .scangMax _ _ _ => none
  | .matchLanes _ _ _ => none
  | .elect _ _ => none
  | .bra _ _ _ => none
  | .brx _ _ _ => none
  | .call _ _ _ => none
  | .ret _ => none
  | .ifp _ _ _ => none
  | .repeatN _ _ _ => none
  | .enrol _ => none
  | .join _ => none
  | .strike _ => none
  | .nop => none
  | .exit => none
  | .yield => none
  | .sleep _ => none
  | .sleepu _ => none
  | .sleepuCounter _ _ => none
  | .ld _ a _ _ _ _ => some (a, 0#32)
  | .ldOffset _ a _ _ _ _ off => some (a, off)
  | .st _ a _ _ _ _ => some (a, 0#32)
  | .stOffset _ a _ _ _ _ off => some (a, off)
  | .lda _ a _ _ _ _ => some (a, 0#32)
  | .ldaScope _ a _ _ _ _ _ => some (a, 0#32)
  | .stl _ a _ _ _ _ => some (a, 0#32)
  | .stlScope _ a _ _ _ _ _ => some (a, 0#32)
  | .ldmc _ a _ _ _ _ => some (a, 0#32)
  | .pref a _ _ _ _ => some (a, 0#32)
  | .prefOffset a _ _ _ _ off => some (a, off)
  | .atom _ a _ _ _ => some (a, 0#32)
  | .atomExt _ a _ _ _ _ _ _ _ _ => some (a, 0#32)
  | .red _ a _ _ _ => some (a, 0#32)
  | .redExt _ a _ _ _ _ _ _ _ => some (a, 0#32)
  | .atomk _ a _ _ _ _ => some (a, 0#32)
  | .atomkExt _ a _ _ _ _ _ _ => some (a, 0#32)
  | .fence _ _ => none
  | .discard _ a => some (a, 0#32)
  | .flushl _ a => some (a, 0#32)
  | .invl _ a _ => some (a, 0#32)
  | .ptest _ _ => none
  | .bari _ _ => none
  | .bara _ _ => none
  | .barw _ => none
  | .bar _ _ => none
  | .waitge _ a _ _ => some (a, 0#32)
  | .waitw _ => none
  | .grow _ _ => none
  | .shrink _ => none
  | .kset _ _ _ => none
  | .mma _ _ _ _ _ _ _ _ _ _ => none
  | .mmaq _ _ _ _ _ _ _ _ _ _ => none
  | .opfence => none
  | .mwait _ => none
  | .mprogMat _ _ => none
  | .mprogCopy _ => none
  | .obres _ _ _ _ => none
  | .obrel _ _ _ => none
  | .obld _ a _ _ _ _ => some (a, 0#32)
  | .accz _ _ _ _ => none
  | .accld a _ _ _ _ _ _ => some (a, 0#32)
  | .accst a _ _ _ _ _ _ => some (a, 0#32)
  | .accrd _ _ _ _ => none
  | .achain _ a _ _ => some (a, 0#32)
  | .asend _ _ _ _ => none
  | .await _ _ _ => none
  | .arel _ _ _ _ => none
  | .copy a _ _ _ _ _ => some (a, 0#32)
  | .copyg a _ _ _ _ _ => some (a, 0#32)
  | .sealLayout _ a _ _ => some (a, 0#32)
  | .cgrp _ _ _ _ => none
  | .cgrpEnd _ _ _ => none
  | .cgath _ _ _ _ => none
  | .crsc _ _ _ _ => none
  | .cata _ _ _ _ => none
  | .cbar _ _ _ => none
  | .launch _ a _ _ => some (a, 0#32)
  | .qpush a _ _ _ => some (a, 0#32)
  | .qpop _ a _ _ _ => some (a, 0#32)
  | .qfree a _ _ => some (a, 0#32)
  | .gets _ _ => none
  | .sets _ _ => none
  | .trap _ => none
  | .syscall _ => none
  | .eret => none
  | .halt => none
  | .idle => none
  | .tlbinv _ _ _ => none
  | .ctxsv _ _ _ => none
  | .ctxld _ _ => none
  | .migrate _ _ => none
  | .unmig => none
  | .wpset a => some (a, 0#32)
  | .trace _ => none
  | .rejoinTimeout _ _ => none
  | .sleepWake _ => none
  | .sleepuWake _ => none
  | .barrierWave _ => none
  | .waitgeRead _ => none
  | .growGrant _ => none
  | .growDeadlockFail _ => none
  | .mmaRoundIssue _ _ => none
  | .matrixStep _ => none
  | .asendLand _ => none
  | .copyComplete _ => none
  | .collectiveForm _ _ => none
  | .collectiveComplete _ _ _ => none
  | .qpushPublish _ => none
  | .queueWaitWake _ => none
  | .loadReturn _ => none
  | .accessAck _ => none
  | .mshrGrant _ => none
  | .wcDrainTimeout _ => none
  | .rdcLeaseEnd _ _ => none
  | .ldmcMergeEnd _ => none
  | .ldmcHoldEnd _ => none
  | .ldmcDeliveryDone _ => none
  | .shutterClose _ => none
  | .groupReturn _ => none
  | .activeSetSwap _ _ => none
  | .pendingPromote _ _ => none
  | .teamDispatch _ => none
  | .teamRelease _ => none
  | .swapOut _ => none
  | .teamWake _ => none
  | .ctxnew _ => none
  | .ctxend _ => none
  | .load _ => none
  | .recoveryLoad _ => none
  | .mtcload _ => none
  | .maphost _ => none
  | .exportMem _ => none
  | .hostLaunch _ => none
  | .attest _ => none
  | .ctxset _ => none
  | .celloff _ => none
  | .cellon _ => none
  | .drain _ => none
  | .undrain _ => none
  | .laneoff _ => none
  | .serviceReserved _ => none
  | .reservedRequest _ => none
  | .mbIdent _ => none
  | .synread _ => none
  | .scrub _ => none
  | .rowrepair _ => none
  | .seqload _ => none
  | .mbReset _ => none
  | .mbReserved _ => none
  | .coldPowerOn => none
  | .linkWidthRaise _ _ => none
  | .linkWidthDone _ _ => none
  | .ratioSelect _ _ _ => none
  | .ratioChangeDone _ => none
  | .preempt _ => none
  | .launchWatchdog _ => none
  | .uevictConversion _ _ _ => none
  | .pageMigrate _ _ _ => none
  | .faultResolved _ _ _ => none
  | .teamFaultService _ _ => none
  | .syscallReturn _ _ => none
  | .uquotaService _ _ _ => none
  | .hostStop _ _ _ => none
  | .hostStep _ _ => none
  | .linkWidthShed _ _ => none
  | .hostDoorbell _ _ _ _ => none
  | .hostCxlRead _ _ => none
  | .hostCxlWrite _ _ _ => none
  | .tbiSyn _ _ _ _ _ => none
  | .tbiCmp _ _ => none
  | .tbiNop _ => none
  | .tbiReservedOpcode _ _ => none
  | .quiesce _ _ => none
  | .linkReplay _ _ _ => none
  | .energyLowRead _ _ => none
  | .energyHighRead _ _ => none
  | .sysregWrite _ _ => none
  | .powerLoss => none

/-- The wait counter an instruction of format M or E names (R55). -/
def Instr.counter (i : Instr) : Option (BitVec 3) :=
  match i with
  | .iadd _ _ _ => none
  | .isub _ _ _ => none
  | .imul _ _ _ => none
  | .imulhS _ _ _ => none
  | .imulhN _ _ _ => none
  | .imad _ _ _ => none
  | .iminS _ _ _ => none
  | .iminN _ _ _ => none
  | .imaxS _ _ _ => none
  | .imaxN _ _ _ => none
  | .iabs _ _ => none
  | .isel _ _ _ => none
  | .iadd2 _ _ _ => none
  | .isub2 _ _ _ => none
  | .imin2S _ _ _ => none
  | .imin2N _ _ _ => none
  | .imax2S _ _ _ => none
  | .imax2N _ _ _ => none
  | .maxd2 _ _ _ => none
  | .and _ _ _ => none
  | .or _ _ _ => none
  | .xor _ _ _ => none
  | .not _ _ => none
  | .shl _ _ _ => none
  | .shr _ _ _ => none
  | .sar _ _ _ => none
  | .rot _ _ _ => none
  | .bfxS _ _ _ => none
  | .bfxN _ _ _ => none
  | .bfi _ _ _ => none
  | .popc _ _ => none
  | .clz _ _ => none
  | .brev _ _ => none
  | .mov _ _ => none
  | .movgToG _ _ => none
  | .movgFromG _ _ => none
  | .iaddi _ _ _ => none
  | .andi _ _ _ => none
  | .ori _ _ _ => none
  | .xori _ _ _ => none
  | .cmpi _ _ _ _ => none
  | .movi _ _ => none
  | .moviX _ _ => none
  | .lea _ _ _ => none
  | .fadd _ _ _ => none
  | .fsub _ _ _ => none
  | .fmul _ _ _ => none
  | .ffma _ _ _ => none
  | .fmin _ _ _ => none
  | .fmax _ _ _ => none
  | .fdot2 _ _ _ => none
  | .fkey _ _ => none
  | .fclass _ _ => none
  | .fcvt _ _ _ => none
  | .frcp _ _ => none
  | .frsq _ _ => none
  | .fsqrt _ _ => none
  | .fexp2 _ _ => none
  | .flog2 _ _ => none
  | .fsin _ _ => none
  | .fcos _ _ => none
  | .cmpf _ _ _ _ => none
  | .hadd2F16 _ _ _ => none
  | .hadd2Bf16 _ _ _ => none
  | .hmul2F16 _ _ _ => none
  | .hmul2Bf16 _ _ _ => none
  | .hfma2F16 _ _ _ => none
  | .hfma2Bf16 _ _ _ => none
  | .hmin2F16 _ _ _ => none
  | .hmin2Bf16 _ _ _ => none
  | .hmax2F16 _ _ _ => none
  | .hmax2Bf16 _ _ _ => none
  | .shfl _ _ _ => none
  | .shflx _ _ _ => none
  | .shflu _ _ _ => none
  | .shfld _ _ _ => none
  | .voteAny _ _ _ => none
  | .voteAll _ _ _ => none
  | .voteBallot _ _ _ => none
  | .redgAdd _ _ _ => none
  | .redgMin _ _ _ => none
  | .redgMax _ _ _ => none
  | .scangAdd _ _ _ => none
  | .scangMax _ _ _ => none
  | .matchLanes _ _ _ => none
  | .elect _ _ => none
  | .bra _ _ _ => none
  | .brx _ _ _ => none
  | .call _ _ _ => none
  | .ret _ => none
  | .ifp _ _ _ => none
  | .repeatN _ _ _ => none
  | .enrol _ => none
  | .join _ => none
  | .strike _ => none
  | .nop => none
  | .exit => none
  | .yield => none
  | .sleep _ => none
  | .sleepu _ => none
  | .sleepuCounter _ _ => none
  | .ld _ _ wc _ _ _ => some wc
  | .ldOffset _ _ wc _ _ _ _ => some wc
  | .st _ _ wc _ _ _ => some wc
  | .stOffset _ _ wc _ _ _ _ => some wc
  | .lda _ _ wc _ _ _ => some wc
  | .ldaScope _ _ wc _ _ _ _ => some wc
  | .stl _ _ wc _ _ _ => some wc
  | .stlScope _ _ wc _ _ _ _ => some wc
  | .ldmc _ _ wc _ _ _ => some wc
  | .pref _ wc _ _ _ => some wc
  | .prefOffset _ wc _ _ _ _ => some wc
  | .atom _ _ wc _ _ => some wc
  | .atomExt _ _ wc _ _ _ _ _ _ _ => some wc
  | .red _ _ wc _ _ => some wc
  | .redExt _ _ wc _ _ _ _ _ _ => some wc
  | .atomk _ _ wc _ _ _ => some wc
  | .atomkExt _ _ wc _ _ _ _ _ => some wc
  | .fence _ _ => none
  | .discard _ _ => none
  | .flushl _ _ => none
  | .invl _ _ _ => none
  | .ptest _ _ => none
  | .bari _ _ => none
  | .bara _ _ => none
  | .barw _ => none
  | .bar _ _ => none
  | .waitge _ _ wc _ => some wc
  | .waitw _ => none
  | .grow _ _ => none
  | .shrink _ => none
  | .kset _ _ _ => none
  | .mma _ _ _ wc _ _ _ _ _ _ => some wc
  | .mmaq _ _ _ wc _ _ _ _ _ _ => some wc
  | .opfence => none
  | .mwait _ => none
  | .mprogMat _ _ => none
  | .mprogCopy _ => none
  | .obres _ _ wc _ => some wc
  | .obrel _ wc _ => some wc
  | .obld _ _ wc _ _ _ => some wc
  | .accz wc _ _ _ => some wc
  | .accld _ _ wc _ _ _ _ => some wc
  | .accst _ _ wc _ _ _ _ => some wc
  | .accrd _ _ wc _ => some wc
  | .achain _ _ wc _ => some wc
  | .asend _ _ wc _ => some wc
  | .await _ wc _ => some wc
  | .arel _ wc _ _ => some wc
  | .copy _ _ wc _ _ _ => some wc
  | .copyg _ _ wc _ _ _ => some wc
  | .sealLayout _ _ wc _ => some wc
  | .cgrp _ _ wc _ => some wc
  | .cgrpEnd _ wc _ => some wc
  | .cgath _ _ wc _ => some wc
  | .crsc _ _ wc _ => some wc
  | .cata _ _ wc _ => some wc
  | .cbar _ wc _ => some wc
  | .launch _ _ wc _ => some wc
  | .qpush _ _ wc _ => some wc
  | .qpop _ _ wc _ _ => some wc
  | .qfree _ wc _ => some wc
  | .gets _ _ => none
  | .sets _ _ => none
  | .trap _ => none
  | .syscall _ => none
  | .eret => none
  | .halt => none
  | .idle => none
  | .tlbinv _ _ _ => none
  | .ctxsv _ _ _ => none
  | .ctxld _ _ => none
  | .migrate _ _ => none
  | .unmig => none
  | .wpset _ => none
  | .trace _ => none
  | .rejoinTimeout _ _ => none
  | .sleepWake _ => none
  | .sleepuWake _ => none
  | .barrierWave _ => none
  | .waitgeRead _ => none
  | .growGrant _ => none
  | .growDeadlockFail _ => none
  | .mmaRoundIssue _ _ => none
  | .matrixStep _ => none
  | .asendLand _ => none
  | .copyComplete _ => none
  | .collectiveForm _ _ => none
  | .collectiveComplete _ _ _ => none
  | .qpushPublish _ => none
  | .queueWaitWake _ => none
  | .loadReturn _ => none
  | .accessAck _ => none
  | .mshrGrant _ => none
  | .wcDrainTimeout _ => none
  | .rdcLeaseEnd _ _ => none
  | .ldmcMergeEnd _ => none
  | .ldmcHoldEnd _ => none
  | .ldmcDeliveryDone _ => none
  | .shutterClose _ => none
  | .groupReturn _ => none
  | .activeSetSwap _ _ => none
  | .pendingPromote _ _ => none
  | .teamDispatch _ => none
  | .teamRelease _ => none
  | .swapOut _ => none
  | .teamWake _ => none
  | .ctxnew _ => none
  | .ctxend _ => none
  | .load _ => none
  | .recoveryLoad _ => none
  | .mtcload _ => none
  | .maphost _ => none
  | .exportMem _ => none
  | .hostLaunch _ => none
  | .attest _ => none
  | .ctxset _ => none
  | .celloff _ => none
  | .cellon _ => none
  | .drain _ => none
  | .undrain _ => none
  | .laneoff _ => none
  | .serviceReserved _ => none
  | .reservedRequest _ => none
  | .mbIdent _ => none
  | .synread _ => none
  | .scrub _ => none
  | .rowrepair _ => none
  | .seqload _ => none
  | .mbReset _ => none
  | .mbReserved _ => none
  | .coldPowerOn => none
  | .linkWidthRaise _ _ => none
  | .linkWidthDone _ _ => none
  | .ratioSelect _ _ _ => none
  | .ratioChangeDone _ => none
  | .preempt _ => none
  | .launchWatchdog _ => none
  | .uevictConversion _ _ _ => none
  | .pageMigrate _ _ _ => none
  | .faultResolved _ _ _ => none
  | .teamFaultService _ _ => none
  | .syscallReturn _ _ => none
  | .uquotaService _ _ _ => none
  | .hostStop _ _ _ => none
  | .hostStep _ _ => none
  | .linkWidthShed _ _ => none
  | .hostDoorbell _ _ _ _ => none
  | .hostCxlRead _ _ => none
  | .hostCxlWrite _ _ _ => none
  | .tbiSyn _ _ _ _ _ => none
  | .tbiCmp _ _ => none
  | .tbiNop _ => none
  | .tbiReservedOpcode _ _ => none
  | .quiesce _ _ => none
  | .linkReplay _ _ _ => none
  | .energyLowRead _ _ => none
  | .energyHighRead _ _ => none
  | .sysregWrite _ _ => none
  | .powerLoss => none

/-- The lookahead of an instruction (R60). -/
def Instr.lookahead (i : Instr) : Nat :=
  match i with
  | .iadd _ _ _ => 0
  | .isub _ _ _ => 0
  | .imul _ _ _ => 0
  | .imulhS _ _ _ => 0
  | .imulhN _ _ _ => 0
  | .imad _ _ _ => 0
  | .iminS _ _ _ => 0
  | .iminN _ _ _ => 0
  | .imaxS _ _ _ => 0
  | .imaxN _ _ _ => 0
  | .iabs _ _ => 0
  | .isel _ _ _ => 0
  | .iadd2 _ _ _ => 0
  | .isub2 _ _ _ => 0
  | .imin2S _ _ _ => 0
  | .imin2N _ _ _ => 0
  | .imax2S _ _ _ => 0
  | .imax2N _ _ _ => 0
  | .maxd2 _ _ _ => 0
  | .and _ _ _ => 0
  | .or _ _ _ => 0
  | .xor _ _ _ => 0
  | .not _ _ => 0
  | .shl _ _ _ => 0
  | .shr _ _ _ => 0
  | .sar _ _ _ => 0
  | .rot _ _ _ => 0
  | .bfxS _ _ _ => 0
  | .bfxN _ _ _ => 0
  | .bfi _ _ _ => 0
  | .popc _ _ => 0
  | .clz _ _ => 0
  | .brev _ _ => 0
  | .mov _ _ => 0
  | .movgToG _ _ => 0
  | .movgFromG _ _ => 0
  | .iaddi _ _ _ => 0
  | .andi _ _ _ => 0
  | .ori _ _ _ => 0
  | .xori _ _ _ => 0
  | .cmpi _ _ _ _ => 0
  | .movi _ _ => 0
  | .moviX _ _ => 0
  | .lea _ _ _ => 0
  | .fadd _ _ _ => 0
  | .fsub _ _ _ => 0
  | .fmul _ _ _ => 0
  | .ffma _ _ _ => 0
  | .fmin _ _ _ => 0
  | .fmax _ _ _ => 0
  | .fdot2 _ _ _ => 0
  | .fkey _ _ => 0
  | .fclass _ _ => 0
  | .fcvt _ _ _ => 0
  | .frcp _ _ => 0
  | .frsq _ _ => 0
  | .fsqrt _ _ => 0
  | .fexp2 _ _ => 0
  | .flog2 _ _ => 0
  | .fsin _ _ => 0
  | .fcos _ _ => 0
  | .cmpf _ _ _ _ => 0
  | .hadd2F16 _ _ _ => 0
  | .hadd2Bf16 _ _ _ => 0
  | .hmul2F16 _ _ _ => 0
  | .hmul2Bf16 _ _ _ => 0
  | .hfma2F16 _ _ _ => 0
  | .hfma2Bf16 _ _ _ => 0
  | .hmin2F16 _ _ _ => 0
  | .hmin2Bf16 _ _ _ => 0
  | .hmax2F16 _ _ _ => 0
  | .hmax2Bf16 _ _ _ => 0
  | .shfl _ _ _ => 0
  | .shflx _ _ _ => 0
  | .shflu _ _ _ => 0
  | .shfld _ _ _ => 0
  | .voteAny _ _ _ => 0
  | .voteAll _ _ _ => 0
  | .voteBallot _ _ _ => 0
  | .redgAdd _ _ _ => 0
  | .redgMin _ _ _ => 0
  | .redgMax _ _ _ => 0
  | .scangAdd _ _ _ => 0
  | .scangMax _ _ _ => 0
  | .matchLanes _ _ _ => 0
  | .elect _ _ => 0
  | .bra _ _ _ => 0
  | .brx _ _ _ => 0
  | .call _ _ _ => 0
  | .ret _ => 0
  | .ifp _ _ _ => 0
  | .repeatN _ _ _ => 0
  | .enrol _ => 0
  | .join _ => 0
  | .strike _ => 0
  | .nop => 0
  | .exit => 0
  | .yield => 0
  | .sleep _ => 0
  | .sleepu _ => 0
  | .sleepuCounter _ _ => 0
  | .ld _ _ _ _ _ la => la.toNat
  | .ldOffset _ _ _ _ _ la _ => la.toNat
  | .st _ _ _ _ _ la => la.toNat
  | .stOffset _ _ _ _ _ la _ => la.toNat
  | .lda _ _ _ _ _ la => la.toNat
  | .ldaScope _ _ _ _ _ la _ => la.toNat
  | .stl _ _ _ _ _ la => la.toNat
  | .stlScope _ _ _ _ _ la _ => la.toNat
  | .ldmc _ _ _ la _ _ => la.toNat
  | .pref _ _ _ _ la => la.toNat
  | .prefOffset _ _ _ _ la _ => la.toNat
  | .atom _ _ _ _ la => la.toNat
  | .atomExt _ _ _ _ la _ _ _ _ _ => la.toNat
  | .red _ _ _ _ la => la.toNat
  | .redExt _ _ _ _ la _ _ _ _ => la.toNat
  | .atomk _ _ _ _ _ la => la.toNat
  | .atomkExt _ _ _ _ _ la _ _ => la.toNat
  | .fence _ _ => 0
  | .discard _ _ => 0
  | .flushl _ _ => 0
  | .invl _ _ _ => 0
  | .ptest _ _ => 0
  | .bari _ _ => 0
  | .bara _ _ => 0
  | .barw _ => 0
  | .bar _ _ => 0
  | .waitge _ _ _ la => la.toNat
  | .waitw _ => 0
  | .grow _ _ => 0
  | .shrink _ => 0
  | .kset _ _ _ => 0
  | .mma _ _ _ _ la _ _ _ _ _ => la.toNat
  | .mmaq _ _ _ _ la _ _ _ _ _ => la.toNat
  | .opfence => 0
  | .mwait _ => 0
  | .mprogMat _ _ => 0
  | .mprogCopy _ => 0
  | .obres _ _ _ la => la.toNat
  | .obrel _ _ la => la.toNat
  | .obld _ _ _ la _ _ => la.toNat
  | .accz _ la _ _ => la.toNat
  | .accld _ _ _ la _ _ _ => la.toNat
  | .accst _ _ _ la _ _ _ => la.toNat
  | .accrd _ _ _ la => la.toNat
  | .achain _ _ _ la => la.toNat
  | .asend _ _ _ la => la.toNat
  | .await _ _ la => la.toNat
  | .arel _ _ _ la => la.toNat
  | .copy _ _ _ _ la _ => la.toNat
  | .copyg _ _ _ _ la _ => la.toNat
  | .sealLayout _ _ _ la => la.toNat
  | .cgrp _ _ _ la => la.toNat
  | .cgrpEnd _ _ la => la.toNat
  | .cgath _ _ _ la => la.toNat
  | .crsc _ _ _ la => la.toNat
  | .cata _ _ _ la => la.toNat
  | .cbar _ _ la => la.toNat
  | .launch _ _ _ la => la.toNat
  | .qpush _ _ _ la => la.toNat
  | .qpop _ _ _ la _ => la.toNat
  | .qfree _ _ la => la.toNat
  | .gets _ _ => 0
  | .sets _ _ => 0
  | .trap _ => 0
  | .syscall _ => 0
  | .eret => 0
  | .halt => 0
  | .idle => 0
  | .tlbinv _ _ _ => 0
  | .ctxsv _ _ _ => 0
  | .ctxld _ _ => 0
  | .migrate _ _ => 0
  | .unmig => 0
  | .wpset _ => 0
  | .trace _ => 0
  | .rejoinTimeout _ _ => 0
  | .sleepWake _ => 0
  | .sleepuWake _ => 0
  | .barrierWave _ => 0
  | .waitgeRead _ => 0
  | .growGrant _ => 0
  | .growDeadlockFail _ => 0
  | .mmaRoundIssue _ _ => 0
  | .matrixStep _ => 0
  | .asendLand _ => 0
  | .copyComplete _ => 0
  | .collectiveForm _ _ => 0
  | .collectiveComplete _ _ _ => 0
  | .qpushPublish _ => 0
  | .queueWaitWake _ => 0
  | .loadReturn _ => 0
  | .accessAck _ => 0
  | .mshrGrant _ => 0
  | .wcDrainTimeout _ => 0
  | .rdcLeaseEnd _ _ => 0
  | .ldmcMergeEnd _ => 0
  | .ldmcHoldEnd _ => 0
  | .ldmcDeliveryDone _ => 0
  | .shutterClose _ => 0
  | .groupReturn _ => 0
  | .activeSetSwap _ _ => 0
  | .pendingPromote _ _ => 0
  | .teamDispatch _ => 0
  | .teamRelease _ => 0
  | .swapOut _ => 0
  | .teamWake _ => 0
  | .ctxnew _ => 0
  | .ctxend _ => 0
  | .load _ => 0
  | .recoveryLoad _ => 0
  | .mtcload _ => 0
  | .maphost _ => 0
  | .exportMem _ => 0
  | .hostLaunch _ => 0
  | .attest _ => 0
  | .ctxset _ => 0
  | .celloff _ => 0
  | .cellon _ => 0
  | .drain _ => 0
  | .undrain _ => 0
  | .laneoff _ => 0
  | .serviceReserved _ => 0
  | .reservedRequest _ => 0
  | .mbIdent _ => 0
  | .synread _ => 0
  | .scrub _ => 0
  | .rowrepair _ => 0
  | .seqload _ => 0
  | .mbReset _ => 0
  | .mbReserved _ => 0
  | .coldPowerOn => 0
  | .linkWidthRaise _ _ => 0
  | .linkWidthDone _ _ => 0
  | .ratioSelect _ _ _ => 0
  | .ratioChangeDone _ => 0
  | .preempt _ => 0
  | .launchWatchdog _ => 0
  | .uevictConversion _ _ _ => 0
  | .pageMigrate _ _ _ => 0
  | .faultResolved _ _ _ => 0
  | .teamFaultService _ _ => 0
  | .syscallReturn _ _ => 0
  | .uquotaService _ _ _ => 0
  | .hostStop _ _ _ => 0
  | .hostStep _ _ => 0
  | .linkWidthShed _ _ => 0
  | .hostDoorbell _ _ _ _ => 0
  | .hostCxlRead _ _ => 0
  | .hostCxlWrite _ _ _ => 0
  | .tbiSyn _ _ _ _ _ => 0
  | .tbiCmp _ _ => 0
  | .tbiNop _ => 0
  | .tbiReservedOpcode _ _ => 0
  | .quiesce _ _ => 0
  | .linkReplay _ _ _ => 0
  | .energyLowRead _ _ => 0
  | .energyHighRead _ _ => 0
  | .sysregWrite _ _ => 0
  | .powerLoss => 0

/-- The words of an instruction, 2 with an extension word (R58). -/
def Instr.len (i : Instr) : Nat := (encode i).length

/-- The instruction word and the extension word, 0 when there is none. -/
def Instr.word (i : Instr) : Word := (encode i).headD 0#32
def Instr.extWord (i : Instr) : Word := (encode i).getD 1 0#32

/-- The major opcode (R56). -/
def Instr.major (i : Instr) : Nat := (field i.word 26 6).toNat

/-- R51: the class of a major; every major of an instruction has one. -/
def classOf (m : Nat) : Nat :=
  if 0x01 ≤ m ∧ m ≤ 0x0F then 0
  else if (0x18 ≤ m ∧ m ≤ 0x21) ∨ m = 0x23 then 1
  else if 0x26 ≤ m ∧ m ≤ 0x2B then 2
  else if 0x2C ≤ m ∧ m ≤ 0x30 then 3
  else if (0x10 ≤ m ∧ m ≤ 0x17) ∨ m = 0x22 ∨ m = 0x24 ∨ m = 0x25 then 4
  else 5

/-- R51: does a clause of class `c` accept an instruction? NOP, IFP and REPEAT are accepted everywhere. -/
def Instr.accepted (i : Instr) (c : Nat) : Bool :=
  let k := classOf i.major
  i == .nop || i.major == 0x14 || i.major == 0x15 || k == c || (c == 6 && (k == 0 || k == 1 || k == 4))

/-- R52: the control transfers. -/
def Instr.transfers (i : Instr) : Bool :=
  match i with
  | .bra _ _ _ | .brx _ _ _ | .call _ _ _ | .ret _ | .exit | .trap _ | .syscall _ | .eret | .halt => true
  | _ => false

/-- R22: the cross-lane instructions. -/
def Instr.crossLane (i : Instr) : Bool := i.major == 0x0F

/-- R68: the repeatable majors. -/
def repeatableMajor (m : Nat) : Bool :=
  (1 ≤ m && decide (m ≤ 6)) || (8 ≤ m && decide (m ≤ 0x0C)) || m == 0x0E

end Sys2Proof
end

