-- ==== Sys2Proof/Config.lean ====
section
/-! DEFINITION. What an implementation fixes, and the free values: values the spec leaves open, as constants with no body,
so that a statement holds whatever they are. The assumption log names each one. -/

namespace Sys2Proof.Config

/-- R1: work cores, clusters, dies, stack positions, microscope cores. -/
def cores : Nat := 768
def clusters : Nat := 16
def dies : Nat := 4
def positions : Nat := 8
def micros : Nat := 32
/-- R2: cells of four cores. -/
def cells : Nat := 192

/-- Free value number `n`: an undefined word (R6, R200). DESIGN CHOICE, log 6. -/
opaque freeWord : Nat → Word

/-- The bytes of one team save area (R241, R243: the layout belongs to the implementation). DESIGN CHOICE, log 8. -/
opaque saveSz : Nat
/-- Byte `i` of the save area that CTXSV number `n` writes (R243). DESIGN CHOICE, log 8. -/
opaque saveByte : Nat → Nat → Byte

/-- Ed448 (R296): does a signature (114 bytes) over a digest verify under a key whose digest the part accepts: the fused root or owner
digest? DESIGN CHOICE, log 9. -/
opaque verifies : List Byte → List Byte → Bool
/-- The version that the 64-byte header of a signed image carries (R296: the header's layout is not given). DESIGN CHOICE, log 9. -/
opaque imageVersion : List Byte → Nat
/-- The length of the signed image that a 64-byte header opens (R296). DESIGN CHOICE, log 9. -/
opaque imageLength : List Byte → Nat
/-- Where copy `c` of image `k` stands in the boot area of the flash (R296). DESIGN CHOICE, log 9. -/
opaque bootImage : Nat → Nat → Nat
/-- The fused rollback counter (R296). DESIGN CHOICE, log 9. -/
opaque rollback : Nat
/-- The signature of the part's device key over bytes (R298). DESIGN CHOICE, log 9. -/
opaque deviceSign : List Byte → List Byte
/-- The signature of the part's store key (R301). DESIGN CHOICE, log 9. -/
opaque storeSign : List Byte → List Byte
/-- PARTID (R287, R298). DESIGN CHOICE, log 9. -/
opaque partId : BitVec 64
/-- R301: does a power loss at this TIME catch the entry that is being written? DESIGN CHOICE, log 9. -/
opaque tornEntry : Nat → Bool
/-- R294: does row repair number `n` find its spare rows exhausted? DESIGN CHOICE, log 6. -/
opaque sparesOut : Nat → Bool

/-- The translator of MTC modules (R299, R300): a function of the module and the shape; the POF module it emits, or a status
of R299. DESIGN CHOICE, log 10. -/
opaque translate : List Byte → List Byte → Except Nat (List Byte)
/-- The translator's version, part of the translation key (R300). DESIGN CHOICE, log 10. -/
opaque translatorVersion : List Byte
/-- R300: are the kernels of an MTC module all deterministic? DESIGN CHOICE, log 10. -/
opaque mtcDet : List Byte → Bool

/-- R288: the flits that a link has carried since its last replay. DESIGN CHOICE, log 6. -/
opaque flitsSince : Nat → Nat

/-- R280: does the host complete AtomicOps (R285)? DESIGN CHOICE, log 11. -/
opaque hostAtomics : Bool
/-- Which energy a turn of the part adds to accumulator `i` at TIME `t` (R270 gives the unit and no amounts). DESIGN CHOICE, log 12. -/
opaque energy : Nat → Nat → BitVec 64
/-- R452: the activity of a period, in parts of 65,536, from which it justifies MID (1) or HIGH (2); half of them suffice in any case.
DESIGN CHOICE, log 12. -/
opaque justifiedFrom : Nat → Nat
/-- R264: a cluster's power, in W, when the energy of a period at one ratio is projected to another: energy, the ratios' codes.
DESIGN CHOICE, log 12. -/
opaque projected : Nat → Nat → Nat → Nat
/-- The cycles that a COPY promises beyond its issue (R231: at least 1). DESIGN CHOICE, log 13. -/
opaque promise : Nat → Nat
/-- The launch watchdog's period in TIME cycles (R38: the resident kernel sets it). DESIGN CHOICE, log 14. -/
opaque watchdog : Nat
/-- R294: what scrub number `n` corrects: the offset of a line, its sectors, DETAIL. DESIGN CHOICE, log 6. -/
opaque scrubFinds : Nat → List (BitVec 64 × BitVec 8 × BitVec 64)
/-- R287: the peer table that the resident kernel writes for its context number `n`: PARTID, PORTS, RCTX. DESIGN CHOICE, log 36. -/
opaque peerTable : Nat → List (BitVec 64 × BitVec 16 × BitVec 16)
end Sys2Proof.Config
end

