-- ==== Sys2Proof/Machine/State.lean ====
section
/-! DEFINITION. The state of the part, as plain data: the threads, groups and teams that live on it (01), its byte stores as
one memory in canonical form (05), its engines, caches, registers and the resident kernel's records, and the model's own
fields (DESIGN CHOICE, log 4). Then the state after reset. -/

namespace Sys2Proof.Machine

/-- R9, R146: a register with its poison bit and poison record index. -/
structure Reg where
  val    : Word
  poison : Bool
  idx    : BitVec 3
deriving DecidableEq, Repr

/-- R9, R146: a predicate with its poison bit and index. -/
structure Pred where
  val    : Bool
  poison : Bool
  idx    : BitVec 3
deriving DecidableEq, Repr

/-- R146: a poison record. -/
structure PoisonRec where
  addr   : BitVec 64
  reason : BitVec 4
  major  : BitVec 6
deriving DecidableEq, Repr

/-- R48, R50: a clause as fetched: its header, the words after it (read as generation-3 words, R75), and whether it has a
header of its own (R77: the implicit clauses of generation 1 have none). -/
structure Clause where
  hdr      : Word
  words    : List Word
  implicit : Bool
deriving DecidableEq, Repr

/-- R67: a REPEAT under way: step mask, stride, the number of the next execution, the number of executions. -/
structure RepState where
  sm     : BitVec 3
  stride : Nat
  k      : Nat
  n      : Nat
deriving DecidableEq, Repr

/-- R207, R243: a thread's send record. -/
structure SendRec where
  handle : Word
  srow   : BitVec 13
  rank   : BitVec 4
deriving DecidableEq, Repr

/-- R140: a thread's open write-combining buffer: its line, the merged bytes (physical address and value, latest last) and
the TIME of the store that opened it. -/
structure WcBuffer where
  line  : Nat
  bytes : List (Nat × Byte)
  since : Nat
  /-- R234: the accesses that wait in it: virtual address, size, value. -/
  accs  : List (BitVec 64 × Nat × Nat)
deriving DecidableEq, Repr

/-- What an instruction that has not issued waits for (R17, R39). -/
inductive Wait where
  /-- WAITW's counters (R446), or the header's WAIT mask (R14). -/
  | counters
  /-- A wait counter that stands at 63 (R55). -/
  | counterFull
  /-- MWAIT (R403), or a second signature on a register whose round is open (R189). -/
  | matrix
  /-- OPFENCE (R199). -/
  | opfence
  /-- A named-barrier arrival behind its own pending bit (R311). -/
  | pending
  /-- A cross-lane rendezvous (R22). -/
  | rendezvous
  /-- SLEEP until a TIME (R432). -/
  | sleep (deadline : Nat)
  /-- SLEEPU until a CYCLE (R433). -/
  | sleepu (deadline : Nat)
  /-- GROW (R26), in order of asking. -/
  | grow
  /-- SHRINK behind register writes that are outstanding (R373). -/
  | windows
  /-- An access that found too few miss-status entries (R150): whether it has been granted one, and its place in the order of
  rejection. -/
  | mshr (granted : Bool) (order : Nat)
  /-- An allocation beyond the quota of a context (R154). -/
  | quota (ctx : Nat)
  /-- An allocation behind a UEVICT (R153), by its context and address. -/
  | evict (ctx : Nat) (va : BitVec 64)
  /-- An ASEND whose rank has sent in this round (R205), or an AREL, AWAIT behind the round or a chain that is down (R206). -/
  | chain
  /-- QPUSH on FREE = 0, QPOP on FULL = 0 (R35). -/
  | queue
  /-- TLBINV behind accesses in flight (R440); CTXSV and CTXLD behind what they wait for. -/
  | inFlight
  /-- IDLE (R376). -/
  | idle
  /-- An instruction-address stop of a microscope watchpoint (R255). -/
  | stopped
  /-- The team fault that the thread raised (R240). -/
  | fault
deriving DecidableEq, Repr

/-- R14, R17, R21, R236, R311: what a thread is doing. -/
inductive Run where
  /-- Not launched (R10): a vacant lane. -/
  | vacant
  | running
  /-- Its next instruction is held at issue. -/
  | waiting (w : Wait)
  /-- Parked at a JOIN since a TIME (R21). -/
  | joined (j : BitVec 3) (since : Nat)
  /-- Parked in the wait half of a named barrier (R311). -/
  | barrier (n : BitVec 4)
  /-- Released by a barrier, before its group's wave (R266). -/
  | wave
  /-- A fault offered to the resident kernel (R236): address and reason. -/
  | offered (va : BitVec 64) (reason : BitVec 4)
  /-- A SYSCALL the resident kernel serves (R438). -/
  | syscall (n : BitVec 8)
  /-- HALT on a supervisor core (R376). -/
  | halted
  | exited
deriving DecidableEq, Repr

/-- R230, R242: a WAITGE that a save has made not issued: the name of its issue, which its group's other threads may share, its wait
counter, its counter's address, its target, and the instructions that may still issue behind it. -/
structure HeldWait where
  tok    : Nat
  wc     : BitVec 3
  va     : BitVec 64
  target : BitVec 64
  win    : Nat
deriving DecidableEq, Repr

/-- R141: a cached translation of an issuer; level 0, 1 or 2 of its leaf. -/
structure TlbEntry where
  issuer : Nat
  asid   : BitVec 16
  level  : Nat
  vpn    : Nat
  pte    : BitVec 64
deriving DecidableEq, Repr

/-- R242: where a thread's latest WAITGE stands, with the IFP count and guard there, and the stamp of its issue: stopped in its wait, before
any further instruction, the thread issues it afresh. -/
structure Gate where
  stamp : Nat
  pc    : BitVec 64
  widx  : Nat
  ifpN  : Nat
  ifpG  : Bool
deriving DecidableEq, Repr

/-- A thread (R9). -/
structure Thread where
  id      : TId
  v       : Vector Reg 128
  p       : Vector Pred 8
  recs    : Vector PoisonRec 4
  /-- The address of the clause header (R9, R48). -/
  pc      : BitVec 64
  /-- The word index of the next instruction, 1 for the first (R48). -/
  widx    : Nat
  /-- The clause once it is fetched and checked (R50). -/
  clause  : Option Clause
  /-- R238: a re-entry by ERET: the IFP range that covers the word uses this guard. -/
  resumeG : Option Bool
  /-- R64: covered instructions left, and the sampled guard. -/
  ifpN    : Nat
  ifpG    : Bool
  rep     : Option RepState
  tpc     : BitVec 64
  tval    : BitVec 64
  tcause  : Word
  send    : SendRec
  run     : Run
  /-- R14: the stamp of its latest issue; the least stamp is the oldest thread. R258: CYCLE at its latest issue. -/
  stamp   : Nat
  last    : Nat
  wcBuf   : Option WcBuffer
  /-- R238, R255: an instruction-address match at the next word is not taken. -/
  noMatch : Bool
  /-- R236: the resident kernel did not resolve the fault it was offered. -/
  denied  : Bool
  /-- R242, R311: a BAR whose arrival is made. -/
  arrived : Bool
  /-- R255: STEP lets the thread run one clause under STOP. -/
  mayStep : Bool
  /-- R230, R242: the WAITGEs that are issued afresh on restore. -/
  held    : List HeldWait
  /-- R178: the wait counters of engine commands of the thread whose completion it has not observed. -/
  cmpl    : BitVec 8
  /-- R155: its instruction waits for the supervisor, and keeps the permission check of its issue. -/
  vetted  : Bool
  /-- R155: and the translations of its issue. -/
  stay    : List TlbEntry
  /-- R234: a match of a store that was performed at a drain, to be taken before the next instruction: address and reason. -/
  watch   : Option (BitVec 64 × Nat)
  /-- R244: it stands where a restore has put it, and has not gone on since. -/
  kept    : Bool
  /-- R64, R379: an IFP that its poisoned guard has made void: its clause, its word, its count. -/
  ifpVoid : Option (BitVec 64 × Nat × Nat)
  gate    : Option Gate
deriving DecidableEq, Repr

/-- R22, R65: a thread that reached the cross-lane instruction at an address and went on, with the source value it brought;
or that passed it under a false guard. -/
structure Arrival where
  addr : BitVec 64
  idx  : Nat
  val  : Reg
deriving DecidableEq, Repr

/-- R26, R373: a GROW that waits: its requested allocation, its predicate, its place in the order of asking, its threads. -/
structure Grow where
  m     : Nat
  p     : PReg
  order : Nat
  ths   : List TId
deriving DecidableEq, Repr

/-- R250 to R253: where a group is hosted. -/
structure Hosting where
  core : BitVec 5
  slot : BitVec 1
deriving DecidableEq, Repr

/-- The number of the microscope core, 0 to 31. -/
def Hosting.m (h : Hosting) : Nat := h.core.toNat

/-- A group (R9). -/
structure Group where
  id       : GId
  /-- Width w and lane base b (R13). -/
  w        : Nat
  base     : Nat
  /-- Register allocation (R25). -/
  n        : Nat
  g        : Vector Reg 32
  /-- Rejoin masks (R21). -/
  jE       : Vector (BitVec 64) 8
  jA       : Vector (BitVec 64) 8
  /-- Wait counters (R55). -/
  wc       : Vector (BitVec 6) 8
  narmode  : Word
  emuvec   : BitVec 64
  /-- Home core, CORE.NUM (R12). -/
  core     : Nat
  active   : Bool
  /-- R17, R18: CYCLE at which it became active, and at which it became ready while pending. -/
  activeAt : Nat
  readyAt  : Option Nat
  /-- R22, R429: threads that reached a cross-lane instruction and left, while others wait there; R65: threads that passed
  one under a false guard. -/
  arrivals : List Arrival
  passed   : List Arrival
  /-- R22: the rendezvous at an address at which threads wait, and a thread that has arrived at a cross-lane instruction at another PC
  while they waited. -/
  elsewhere : List (BitVec 64 × Nat)
  /-- R26, R373: GROWs that wait, in issue order. -/
  grows    : List Grow
  hosted   : Option Hosting
  /-- R250, R252: a movement to a microscope core asked for; true for pavane mode. -/
  shutter  : Option Bool
  /-- R253: a movement home asked for. -/
  homing   : Bool
deriving DecidableEq, Repr

/-- R189, R194: a signature: who, the first B register, the scalar operands, and the B registers as they stood. -/
structure Sig where
  t     : TId
  vb    : VReg
  ob    : BitVec 4
  crow  : BitVec 13
  atile : BitVec 8
  nk    : BitVec 4
  z     : BitVec 1
  reuse : BitVec 1
  quant : Bool
  wc    : BitVec 3
  bregs : List Word
  /-- The outstanding operation that carries its wait counter. -/
  opId  : Nat
deriving DecidableEq, Repr

/-- R186: a convergence register; SIGNED is the number of signatures of the open round. -/
structure KReg where
  valid : Bool
  isOpen : Bool
  done  : Nat
  sigs  : List Sig
  g0    : BitVec 9
deriving DecidableEq, Repr

/-- R311: a named barrier. -/
structure Barrier where
  cnt  : Nat
  arr  : Nat
  dep  : Nat
  pend : List TId
  memb : List TId
deriving DecidableEq, Repr

/-- R39 to R44, R240 to R243: whether a team holds a place, and if not, why. -/
inductive Residence where
  | resident
  /-- Swapped out (R41). -/
  | swapped
  /-- Pre-empted (R242): its state is kept by the part until CTXSV or a restore. -/
  | preempted
  /-- Saved in a save area by CTXSV (R346). -/
  | saved
  /-- Stopped by a team fault (R240): cause, and the index of the faulting thread. -/
  | faulted (cause : Nat) (tid : Nat)
  /-- Released (R44): its threads have exited and its claim is free; commands of it are still under way. -/
  | retired
deriving DecidableEq, Repr

/-- R29: what a team claims on each of its cores, and where (R130). -/
structure Claim where
  scrSize  : Nat
  scrBase  : Nat
  accRows  : Nat
  accBase  : Nat
  obSize   : Nat
  obBase   : Nat
  barriers : Nat
deriving DecidableEq, Repr

/-- A team (R9). Supervisor cores are teams of one thread (DESIGN CHOICE, log 16). -/
structure Team where
  key     : Nat
  sup     : Option Nat
  ctx     : Nat
  launch  : Nat
  idx     : Nat
  threads : Nat
  w       : Nat
  cores   : List Nat
  gen     : Nat
  det     : Bool
  claim   : Claim
  k       : Vector KReg 8
  ob      : Vector (BitVec 64) 16
  bars    : Vector Barrier 16
  res     : Residence
  /-- R41, R284: since when it waits without a break, and the threshold that its wait began under. -/
  waitAt  : Option (Nat × Nat)
  /-- R41: the issue stamp when that wait began; a later issue of a thread ends it. -/
  waitStamp : Nat
  /-- R243: contents saved while it is not resident: scratchpad, accumulator rows, operand buffer (core index in the team,
  offset, byte). -/
  scr     : List (Nat × Nat × Byte)
  acc     : List (Nat × Nat × Byte)
  obuf    : List (Nat × Nat × Byte)
  /-- R242: a request to stop it at its resume points. -/
  stopping : Bool
  /-- R242, R273: the TIME of that request. -/
  stopAt  : Nat
  /-- R240, R243: stopped by a team fault, it is saved and holds no place. -/
  off     : Bool
deriving DecidableEq, Repr

/-- R246: the trip register of a work core. -/
structure Trip where
  lo    : BitVec 64
  hi    : BitVec 64
  value : BitVec 64
  ctl   : Word
  asid  : BitVec 16
deriving DecidableEq, Repr

/-- R266: a released group that waits for its wave: the SLOPE in force when its barrier completed (R427), and its threads that the
completion released. -/
structure Wave where
  slope : BitVec 16
  ths   : List TId
deriving DecidableEq, Repr

/-- R261 to R266: a cluster. `half` counts CYCLE in half cycles (DEDUCED, log 17). -/
structure Cluster where
  half     : Nat
  pcap     : BitVec 8
  auto     : Bool
  ceil     : BitVec 2
  cur      : BitVec 2
  therm    : Bool
  /-- A change in progress: target, the abandoned target. -/
  target   : Option (BitVec 2)
  dropped  : Option (BitVec 2)
  slope    : BitVec 16
  /-- R266: the queue of released groups. -/
  waves    : List Wave
  lastWave : Option Nat
  /-- R266: the groups that have left in the latest wave. -/
  waveUsed : Nat
  /-- R264, R452: TIME and half cycles at the start of this period, and the cycles in which a core has issued in it, over its cores. -/
  since    : Nat
  sinceHalf : Nat
  issued   : Nat
  /-- R452: the cores that have issued in a TIME cycle, once for each of its arithmetic cycles that they took, and that TIME. -/
  busy     : List Nat
  busyAt   : Nat
  /-- R264, R270: the cluster's energy accumulator at the start of this period. -/
  spent    : BitVec 64
deriving DecidableEq, Repr

/-- R268, R269, R288: a link. -/
structure Link where
  width   : BitVec 2
  shed    : Bool
  minw    : BitVec 2
  target  : Option (BitVec 2)
  lanesOff : List Nat
  replays : List (Nat × Nat)
  flits   : Nat
  down    : Bool
deriving DecidableEq, Repr

/-- A die: NETCTL (R212), links, energy accumulators (R270). -/
structure Die where
  netctl : Word
  links  : Vector Link 6
  energy : Vector (BitVec 64) 8
deriving DecidableEq, Repr

/-- R292: a syndrome record. -/
structure Syndrome where
  cls    : BitVec 8
  sect   : BitVec 8
  count  : Word
  offset : BitVec 64
  time   : BitVec 64
  detail : BitVec 64
deriving DecidableEq, Repr

/-- R290, R292, R293: a stack position. -/
structure Position where
  kind     : BitVec 8
  tbiver   : BitVec 8
  capgib   : BitVec 16
  vendor   : Word
  seqver   : Word
  vdata    : List Byte
  disabled : Bool
  mbcmd    : Word
  mbstat   : BitVec 8
  quiesce  : Bool
  mbarg    : BitVec 64
  syn      : List Syndrome
  lost     : Nat
  /-- R303: no frame is assigned here. -/
  draining : Bool
deriving DecidableEq, Repr

/-- R255: a host slot of a microscope core. -/
structure Slot where
  gid    : Option GId
  core   : BitVec 10
  gidx   : BitVec 9
  stop   : Bool
  pav    : Bool
  hit    : Option (BitVec 5)
deriving DecidableEq, Repr

/-- R249 to R258: a microscope core; its watchpoints, trace buffer and histories are bytes of its debug block (R254). -/
structure Micro where
  trctl  : Word
  pavane : Word
  slots  : Vector Slot 2
deriving DecidableEq, Repr

/-- R101: a kernel descriptor registered in a context. -/
structure Kernel where
  /-- Where its record stands, when its section is loaded. -/
  addr     : Option (BitVec 64)
  name     : List Byte
  entry    : BitVec 64
  gen      : Nat
  w        : Nat
  cores    : Nat
  det      : Bool
  regs     : Nat
  barriers : Nat
  teamT    : Nat
  scratchK : Nat
  obuf4k   : Nat
  accRows  : Nat
  defTeams : Nat
deriving DecidableEq, Repr

/-- R287: an entry of a peer table. -/
structure Peer where
  partId : BitVec 64
  ports  : BitVec 16
  rctx   : BitVec 16
deriving DecidableEq, Repr

/-- R241, R282: a context. -/
structure Ctx where
  num     : Nat
  asid    : BitVec 16
  gen     : Nat
  dbg     : Bool
  waitThr : Nat
  ptbase  : Nat
  trapvec : BitVec 64
  emuvec  : BitVec 64
  quota   : Nat
  savesz  : Nat
  part    : BitVec 192
  kernels : List Kernel
  peers   : List Peer
  /-- R286: HDM decoder, virtual address, length. -/
  exports : List (Nat × BitVec 64 × Nat)
  nextLaunch : Nat
  /-- R110, R285: virtual ranges in use, base and size: of modules and of host mappings. -/
  ranges  : List (Nat × Nat)
deriving DecidableEq, Repr

/-- R31, R383 to R386: a live launch. -/
structure Launch where
  key     : Nat
  ctx     : Nat
  id      : Nat
  kern    : Kernel
  teams   : Nat
  next    : Nat
  args    : BitVec 64
  done    : BitVec 64
  host    : Nat
  part    : BitVec 192
  /-- R31: the place after the previous placement. -/
  scan    : Nat
  /-- R273: TIME of its latest progress. -/
  progress : Nat
  stalled : Bool
  /-- R273: the counters for which its threads wait, as a TIME cycle last found them. -/
  seen    : List Nat
  /-- R37: the queue whose consumer it is. -/
  queue   : Option (BitVec 64)
  /-- R386: it is over, and its completion word is still to be written: the value. -/
  fin     : Option Nat
deriving DecidableEq, Repr

/-- R203 to R208: a live chain. -/
structure Chain where
  ctx    : Nat
  num    : Nat
  gen    : BitVec 8
  free   : Bool
  int    : Bool
  nr     : Nat
  trow   : Nat
  lrow   : Nat
  senders : List Nat
  team   : Nat
  /-- The number of the receiver core in the team. -/
  ci     : Nat
  /-- Rank, team, number of the core in that team. -/
  bound  : List (Nat × Nat × Nat)
  /-- For each rank its core's number in the receiver's team, where it is one of that team's cores. -/
  own    : List (Option Nat)
  sent   : List Nat
  landed : List Nat
  added  : List Nat
  /-- An AWAIT has declared the target rows final for the round. -/
  awaited : Bool
deriving DecidableEq, Repr

/-- A translated page: physical address of the byte, type, home, kind (0 ordinary, 1 unbacked with DP = 0, 2 unbacked with
DP = 1, 3 pinned), virtual address of its line's byte, its writability, and the size of the page. -/
structure Page where
  pa   : Nat
  mt   : Nat
  home : Nat
  kind : Nat
  va   : Nat
  w    : Bool
  size : Nat
deriving DecidableEq, Repr

/-- Where an access is performed: a scratchpad, the team information block, or a page. Core numbers from 1024 on stand for cores of
teams that are away (`awayCore`). -/
inductive Place where
  | scr (core off : Nat)
  | tib (off : Nat)
  | page (p : Page)
deriving DecidableEq, Repr

/-- R221: one member's operation of a collective: its rank and place in the rank's order, its kind (0 CGATH, 1 CRSC, 2 CATA, 3
CBAR), the bytes its SRC held, its fields, whether one of them is reserved, and its outstanding operation. -/
structure CollOp where
  rank  : Nat
  seq   : Nat
  kind  : Nat
  data  : List Byte
  src   : BitVec 64
  dst   : BitVec 64
  bytes : Nat
  op    : Nat
  bad   : Bool
  desc  : BitVec 64
  opId  : Nat
  t     : TId
  /-- The sectors of SRC and of DST, and where STATUS is written. -/
  srcAt : List Place
  dstAt : List Place
  statAt : Option Place
deriving DecidableEq, Repr

/-- R219, R220: a collective group of a context. -/
structure CollGroup where
  ctx     : Nat
  num     : Nat
  gen     : BitVec 8
  key     : BitVec 64
  nm      : Nat
  /-- R219: where each rank lives: 0 this part, or an entry of the peer table. -/
  parts   : List Byte
  /-- The ranks that have joined, with the threads that joined them. -/
  members : List (Nat × TId)
  formed  : Bool
  /-- R221: a member's team has retired. -/
  broken  : Bool
  /-- Operations completed, and those pending. -/
  done    : Nat
  ops     : List CollOp
deriving DecidableEq, Repr

/-- A 16-byte sector of a cached line: its number in the line, its bytes, whether it is dirty (R135). -/
structure Sector where
  i     : Nat
  data  : List Byte
  dirty : Bool
deriving DecidableEq, Repr

/-- R135, R151: a line in its home L2: its number (physical address / 128), its home die, the sectors it holds, the page it
belongs to (0 ordinary, 1 unbacked with DP = 0, 2 unbacked with DP = 1, 3 pinned, 4 pinned but moved to a home without room for it, where
it is ordinary, R158) with its virtual address, its context and
the stamp of its latest use. -/
structure L2Line where
  line  : Nat
  die   : Nat
  secs  : List Sector
  kind  : Nat
  va    : Nat
  ctx   : Nat
  stamp : Nat
  /-- R213: a write has been performed on it since it was filled. -/
  written : Bool
deriving DecidableEq, Repr

/-- R136, R137: a sector's copy in the L1 of a core or the RDC of a die. -/
structure Copy where
  owner  : Nat
  sector : Nat
  data   : List Byte
deriving DecidableEq, Repr

/-- R213: a read that counts towards heat: its TIME, whether its translation had W = 1, and the stop whose NI asked for it. -/
structure HotRead where
  time : Nat
  w    : Bool
  stop : Option Nat
deriving DecidableEq, Repr

/-- R213, R177: a line's reads towards heat; and, once it is hot, the copies of its helper slices; with the lines of its page, from a
first to before a last. -/
structure HotLine where
  line    : Nat
  lo      : Nat
  hi      : Nat
  reads   : List HotRead
  copies  : List (List Byte)
deriving DecidableEq, Repr

/-- R217: a multicast record: the line's address, the value it multicasts, still in the merge window or held, the TIME at which that
began, and the NETCTL that its first request found (R212). -/
structure McRec where
  id      : Nat
  line    : Nat
  data    : List Byte
  merging : Bool
  since   : Nat
  ctl     : Word
deriving DecidableEq, Repr

/-- A register write that an outstanding operation makes when it completes (R60): consecutive registers from one, with the
values; none while they are not known. -/
structure Delivery where
  reg   : VReg
  n     : Nat
  vals  : Option (List Word)
  /-- R60: instructions of the thread that may still issue before the write. -/
  win   : Nat
deriving DecidableEq, Repr

/-- A tensor element of a box that is in bounds: the places of its bytes, and its nibble (R227). -/
structure ElemPlaces where
  places : List Place
  nibble : Nat
deriving DecidableEq, Repr

/-- R226 to R229: a COPY or COPYG under way. -/
structure CopyJob where
  /-- Where its counter stands, and its increment. -/
  counter : Place
  inc     : Nat
  /-- Box rows, and those that have moved. -/
  rows    : Nat
  row     : Nat
  /-- Store or load; ESIZE; elements in a row. -/
  st      : Bool
  esize   : Nat
  per     : Nat
  /-- The elements of the box in box order, none out of bounds; the places of the buffer's pieces of 16 bytes. -/
  elems   : List (Option ElemPlaces)
  buf     : List Place
  /-- R343: the values of the elements, where the box overlaps itself. -/
  vals    : Option (List Nat)
  /-- R228, R320: the half bytes that commands which are not ordered with it have written: the byte's place, and 1 for the high half. -/
  rivals  : List (Place × Nat)
deriving DecidableEq, Repr

/-- R195, R196: an ACCLD or ACCST under way: the places of its memory's sectors, its first row and number of rows, FMT, NARMODE as it
issued, and what its source held then, as bytes in row order; R320: what commands that are not ordered with it have written since: rows of
its core, for an ACCLD, and half bytes, for an ACCST. -/
structure AccJob where
  places : List Place
  row    : Nat
  n      : Nat
  fmt    : Nat
  nm     : Word
  was    : List Byte
  rows   : List Nat
  rivals : List (Place × Nat)
deriving DecidableEq, Repr

/-- R189, R190, R202: a matrix operation that has issued. -/
structure MatrixJob where
  team  : Nat
  k     : BitVec 3
  /-- The number of its core in the team. -/
  ci    : Nat
  ob    : BitVec 4
  record : BitVec 64
  crow  : Nat
  atile : Nat
  nk    : Nat
  z     : Bool
  quant : Bool
  /-- The set it issued under, its signatures, and the steps done. -/
  g0    : Nat
  sigs  : List Sig
  done  : Nat
deriving DecidableEq, Repr

/-- What an outstanding operation is. -/
inductive Job where
  /-- An access that returns data, and one that does not: its address and its instruction's major (R146). -/
  | load (va : BitVec 64) (major : Nat)
  | access (va : BitVec 64) (major : Nat)
  | copy (c : CopyJob)
  | matrix (m : MatrixJob)
  /-- Chain context and number, rank, and the rows read at issue. -/
  | asend (ctx num rank : Nat) (rows : List (List Word))
  /-- A member operation of a collective group (R221). -/
  | coll (ctx num : Nat)
  /-- A member operation that has ended, whose STATUS is still to be written. -/
  | status (pl : Place) (v : Nat)
  /-- Multicast records it waits for, lines with their data, destination offset, recipient cores, and what their bytes held when the
  delivery began, and the keys of those that have been written since (R218). -/
  | ldmc (recs : List Nat) (lines : List (Nat × List Byte)) (doff : Nat) (dest : List Nat) (was : List Byte) (hits : List Nat)
  /-- R414: a push whose publication is due: queue descriptor, slot, context and launch, the places of the words of FULL. -/
  | qpush (q : BitVec 64) (slot ctx launch : Nat) (full : List Place)
  /-- A signature on a convergence register (R189). -/
  | sign (k : BitVec 3)
  /-- OBRES or OBREL: waits for the operations that read the record, then writes it, or sets its NT to 0 (R193). -/
  | obres (ob : BitVec 4) (v : Option (BitVec 64))
  /-- OBLD, whose bytes are stored: the number of its core in the team, and the bytes of the claim it has written (R193, R407). -/
  | obld (ci lo hi : Nat)
  /-- R147: a load whose fault is not resolved: its record index, until it writes its zero and poisoned destination. -/
  | poisoned (idx : BitVec 3)
  /-- R195, R196: ACCLD and ACCST. -/
  | accld (a : AccJob)
  | accst (a : AccJob)
  /-- WAITGE (R230): counter address and target. -/
  | waitge (va target : BitVec 64)
  /-- A store that merged into a write-combining buffer of a line: performed at the drain (R140, R176). -/
  | combined (line : Nat)
  /-- AWAIT and AREL (R206): chain, and for AREL whether it ends the chain. -/
  | await (ctx num : Nat)
  | arel (ctx num : Nat) (fin : Bool)
  /-- CGRP's, QPOP's and other register results at completion. -/
  | result
deriving DecidableEq, Repr

/-- An outstanding access or engine command of one thread (R55, R150): its wait counter, which falls when the last operation
of the same `tok`, the instruction's issue, completes; its pending register write; the line whose miss-status entry of a
core it holds. -/
structure Op where
  id    : Nat
  tok   : Nat
  t     : TId
  wc    : Option (BitVec 3)
  dlv   : Option Delivery
  line  : Option Nat
  core  : Nat
  job   : Job
deriving DecidableEq, Repr

/-- R200: an operand window: whose, on which counter and register; its C rows and A bytes, in the claim of the team on the
team's core `ci`; its B registers; the signature's operation; the actions since then on rows (false) or operand-buffer bytes (true) of that core, while the
operation has not completed: each from a first to before a last. -/
structure Window where
  t     : TId
  k     : BitVec 3
  wc    : BitVec 3
  ci    : Nat
  row   : Nat
  aLo   : Nat
  aHi   : Nat
  vb    : VReg
  nv    : Nat
  tag   : Nat
  acts  : List (Bool × Nat × Nat)
  /-- The registers that the thread has written since the window opened. -/
  wrote : List Nat
deriving DecidableEq, Repr

/-- R34, R414, R415: what the part keeps of a queue: its descriptor's context and address, its producers, the launches that have popped
or freed (R273), the reservations whose FULL increments are due, in order. -/
structure QueueRec where
  ctx       : Nat
  addr      : BitVec 64
  producers : List Nat
  consumers : List Nat
  due       : List Nat
deriving DecidableEq, Repr

/-- R277: a sector's order record. -/
structure OrderRec where
  sector : Nat
  launch : Nat
  team   : Nat
deriving DecidableEq, Repr

/-- R346: a save area written: its context, address, bytes, and the team whose state it holds. -/
structure SaveArea where
  ctx  : Nat
  addr : BitVec 64
  tag  : Nat
  team : Nat
deriving DecidableEq, Repr

/-- R301: an entry of the translation store; its module's bytes stand in the flash. -/
structure StoreEntry where
  key     : BitVec 256
  addr    : Nat
  len     : Nat
  sig     : List Byte
  lastUse : Nat
  /-- R302: contexts in which a module loaded from it is in use. -/
  users   : List Nat
  /-- R301: it is dropped, and its bytes stand until their block is erased (R302). -/
  dropped : Bool
deriving DecidableEq, Repr

/-- What the resident kernel has been told and has not served (R38, R153, R154, R234, R240, R286, R288, R292, R386). -/
inductive Report where
  | uevict (ctx : Nat) (va : BitVec 64)
  | uquota (ctx : Nat)
  | teamFault (team : Nat) (cause : Nat)
  | stalled (launch : Nat)
  | syndrome (pos : Nat)
  | groupDown (ctx num : Nat)
  | doneFault (launch : Nat) (reason : BitVec 4)
  | fault (va : BitVec 64) (reason : BitVec 4)
  | doorbell
  | exportFault (ctx : Nat)
  | syscall (t : TId)
  /-- R273: a timeout of the resident kernel has expired for a team: its wait threshold or its pre-emption limit. -/
  | timeout (team : Nat)
deriving DecidableEq, Repr

/-- Everything of the part that is not a thread, a group, a team or a byte. -/
structure Part where
  cellPresent : BitVec 192
  cellOff  : BitVec 192
  trips    : Vector Trip 768
  clusters : Vector Cluster 16
  dies     : Vector Die 4
  pos      : Vector Position 8
  micros   : Vector Micro 32
  bootst   : BitVec 8
  ringbase : BitVec 64
  ringlen  : Word
  doorbell : Word
  doneidx  : Word
  meas     : BitVec 512
  shadows  : List (Nat × Nat × Word)
  ctxs     : List Ctx
  launches : List Launch
  ops      : List Op
  windows  : List Window
  chains   : List Chain
  chainGen : List (Nat × Nat × BitVec 8)
  collGen  : List (Nat × Nat × BitVec 8)
  colls    : List CollGroup
  queues   : List QueueRec
  l2       : List L2Line
  l1       : List Copy
  rdc      : List Copy
  tlb      : List TlbEntry
  hots     : List HotLine
  /-- R213: the redirect entries of the NIs: stop and line, latest use first. -/
  redirects : List (Nat × Nat)
  mcs      : List McRec
  orders   : List OrderRec
  saves    : List SaveArea
  /-- R110: page frames in use: their context and their number (physical address / 65,536). -/
  frames   : List (Nat × Nat)
  store    : List StoreEntry
  erases   : List (Nat × Nat)
  /-- R302: the bytes of the flash, from a first to before a last, that entries which are gone have left in blocks not erased since. -/
  stale    : List (Nat × Nat)
  supAsid  : Vector (BitVec 16) 8
  reports  : List Report
  /-- R145, R291: sectors (physical address / 16) for which a base die has reported an uncorrectable error (DEDUCED, log 15). -/
  bad      : List Nat
  /-- R286: lines of which the host holds a copy. -/
  hostHeld : List Nat
  /-- R286: what the latest read of the host has returned: its data, and whether it is poisoned. -/
  hostRead : Option (List Byte × Bool)
deriving DecidableEq, Repr

/-- The issue group being executed (R15): its group and its threads in ascending index. -/
structure Cur where
  gid : GId
  ths : List TId
deriving DecidableEq, Repr

/-- One turn of the machine: an issue group, an event, or a TIME cycle. -/
inductive Turn where
  | issue (ths : List TId)
  | event (i : Instr)
  | tick
deriving DecidableEq, Repr

/-- The machine's state. -/
structure State where
  /-- TIME (R272). -/
  time    : Nat
  /-- All byte stores, in one canonical list (DESIGN CHOICE, log 1). -/
  mem     : List Host.Cell
  threads : List Thread
  groups  : List Group
  teams   : List Team
  part    : Part
  /-- The model's own fields (DESIGN CHOICE, log 4). -/
  cur     : Cur
  sched   : List Turn
  events  : List Instr
  free    : Nat
  nextId  : Nat
  /-- The issue whose wait counter has not counted yet. -/
  counting : Option Nat
  stamp   : Nat
  evTurn  : Bool
  since   : Nat
deriving DecidableEq, Repr

/-- Why the machine stops. No instruction raises a fault: an access that the spec faults takes a trap (R234), and a poisoned
load goes on (R147). -/
inductive Fault where
  /-- Raised by `step` alone: the schedule names an issue group that is none (threads of different groups or places, a
  thread that may not issue, none at all). Safe: the part has no such step. -/
  | badTurn
deriving DecidableEq, Repr

/-- Why an instruction has no meaning. -/
inductive Refusal where
  /-- Raised by `exec` for an instruction that is not modelled. Safe. -/
  | notModelled (mnemonic : String)
deriving DecidableEq, Repr

/-! ## Reset -/

/-- A register at reset and at launch: zero, no poison (R385; before a launch, DESIGN CHOICE, log 2). -/
def Reg.zero : Reg := ⟨0#32, false, 0#3⟩
/-- A predicate at launch: false, no poison (R385). -/
def Pred.zero : Pred := ⟨false, false, 0#3⟩
/-- A poison record never filled (DESIGN CHOICE, log 2). -/
def PoisonRec.zero : PoisonRec := ⟨0#64, 0#4, 0#6⟩
/-- A convergence register at launch (R186, R385). -/
def KReg.zero : KReg := ⟨false, false, 0, [], 0#9⟩
/-- A named barrier before its first arrival (R311; DESIGN CHOICE, log 2). -/
def Barrier.zero : Barrier := ⟨0, 0, 0, [], []⟩

/-- A thread as it is launched at `pc` (R385). -/
def Thread.fresh (id : TId) (pc : BitVec 64) (run : Run) : Thread where
  id := id
  v := Vector.replicate 128 Reg.zero
  p := (Vector.replicate 8 Pred.zero).set 0 ⟨true, false, 0#3⟩
  recs := Vector.replicate 4 PoisonRec.zero
  pc := pc
  widx := 1
  clause := none
  resumeG := none
  ifpN := 0
  ifpG := true
  rep := none
  tpc := 0#64
  tval := 0#64
  tcause := 0#32
  send := ⟨0#32, 0#13, 0#4⟩
  run := run
  stamp := 0
  last := 0
  wcBuf := none
  noMatch := false
  denied := false
  arrived := false
  mayStep := false
  held := []
  cmpl := 0#8
  vetted := false
  stay := []
  watch := none
  kept := false
  ifpVoid := none
  gate := none

/-- A group as it is launched (R385): g0:g1 hold ARGS. -/
def Group.fresh (id : GId) (w base n : Nat) (args emuvec : BitVec 64) (core : Nat) : Group where
  id := id
  w := w
  base := base
  n := n
  g := ((Vector.replicate 32 Reg.zero).set 0 ⟨args.setWidth 32, false, 0#3⟩).set 1 ⟨(args >>> 32).setWidth 32, false, 0#3⟩
  jE := Vector.replicate 8 0#64
  jA := Vector.replicate 8 0#64
  wc := Vector.replicate 8 0#6
  narmode := 0#32
  emuvec := emuvec
  core := core
  active := false
  activeAt := 0
  readyAt := none
  arrivals := []
  passed := []
  elsewhere := []
  grows := []
  hosted := none
  shutter := none
  homing := false

/-- No claim. -/
def Claim.none : Claim := ⟨0, 0, 0, 0, 0, 0, 0⟩

/-- A team as it is placed (R385). -/
def Team.fresh (key ctx launch idx threads w : Nat) (cores : List Nat) (gen : Nat) (det : Bool) (claim : Claim) : Team where
  key := key
  sup := .none
  ctx := ctx
  launch := launch
  idx := idx
  threads := threads
  w := w
  cores := cores
  gen := gen
  det := det
  claim := claim
  k := Vector.replicate 8 KReg.zero
  ob := Vector.replicate 16 0#64
  bars := Vector.replicate 16 Barrier.zero
  res := .resident
  waitAt := .none
  waitStamp := 0
  scr := []
  acc := []
  obuf := []
  stopping := false
  stopAt := 0
  off := false

/-- A trip register at reset: KIND off (R246); its other fields, DESIGN CHOICE, log 2. -/
def Trip.zero : Trip := ⟨0#64, 0#64, 0#64, 0#32, 0#16⟩

/-- A cluster at reset: CLPWR with AUTO 1, CEIL 2, PCAP 0 (R263), RATIO.CUR MID (R262), SLOPE 64 (R266). -/
def Cluster.reset : Cluster where
  half := 0
  pcap := 0#8
  auto := true
  ceil := 2#2
  cur := 1#2
  therm := false
  target := none
  dropped := none
  slope := 64#16
  waves := []
  lastWave := none
  waveUsed := 0
  since := 0
  sinceHalf := 0
  issued := 0
  busy := []
  busyAt := 0
  spent := 0#64

/-- A link at reset: full width, SHED 1, MINW 0 (R268). -/
def Link.reset : Link := ⟨2#2, true, 0#2, none, [], [], 0, false⟩

/-- A die at reset: NETCTL with BYPASS, HOTEN, HOTTHR 0x40, HOTWIN, MCWIN, MCHOLD 4 (R212); energies 0 (R270). -/
def Die.reset : Die := ⟨0xC0404440#32, Vector.replicate 6 Link.reset, Vector.replicate 8 0#64⟩

/-- A stack position at reset, before its base die is identified: NX-768/384 of R3, a DRAM die of 48 GiB (DESIGN CHOICE, log 3). -/
def Position.reset : Position where
  kind := 1#8
  tbiver := 1#8
  capgib := 48#16
  vendor := 0#32
  seqver := 0#32
  vdata := List.replicate 52 0#8
  disabled := false
  mbcmd := 0#32
  mbstat := 0#8
  quiesce := false
  mbarg := 0#64
  syn := []
  lost := 0
  draining := false

/-- A host slot at reset (R255). -/
def Slot.reset : Slot := ⟨none, 0#10, 0#9, false, false, none⟩

/-- A microscope core at reset: TRCTL 0 (R256), factor 8 (R258), slots free (R255). -/
def Micro.reset : Micro := ⟨0#32, 8#32, Vector.replicate 2 Slot.reset⟩

/-- The part at cold power-on (R272, R296, R297). -/
def Part.reset : Part where
  cellPresent := BitVec.allOnes 192
  cellOff := 0#192
  trips := Vector.replicate 768 Trip.zero
  clusters := Vector.replicate 16 Cluster.reset
  dies := Vector.replicate 4 Die.reset
  pos := Vector.replicate 8 Position.reset
  micros := Vector.replicate 32 Micro.reset
  bootst := 0#8
  ringbase := 0#64
  ringlen := 0#32
  doorbell := 0#32
  doneidx := 0#32
  meas := 0#512
  shadows := []
  ctxs := []
  launches := []
  ops := []
  windows := []
  chains := []
  chainGen := []
  collGen := []
  colls := []
  queues := []
  l2 := []
  l1 := []
  rdc := []
  tlb := []
  hots := []
  redirects := []
  mcs := []
  orders := []
  saves := []
  frames := []
  store := []
  erases := []
  stale := []
  supAsid := Vector.replicate 8 0#16
  reports := []
  bad := []
  hostHeld := []
  hostRead := none

/-- The team of supervisor core `n` (R1, R376): one thread at supervisor level, decode generation 3 (DESIGN CHOICE, log 16). -/
def supTeam (n : Nat) : Team :=
  { Team.fresh n 0 0 0 1 16 [] 3 false Claim.none with sup := some n }

/-- The state right after reset: every field at the value the spec gives, or the log names. The supervisor cores stand
ready; nothing has been loaded or launched. -/
def State.reset : State where
  time := 0
  mem := []
  threads := (List.range 8).map fun n => Thread.fresh ⟨n, 0, 0⟩ 0#64 .running
  groups := (List.range 8).map fun n => { Group.fresh ⟨n, 0⟩ 16 0 128 0#64 0#64 0 with active := true }
  teams := (List.range 8).map supTeam
  part := Part.reset
  cur := ⟨⟨0, 0⟩, []⟩
  sched := []
  events := []
  free := 0
  nextId := 8
  counting := none
  stamp := 0
  evTurn := false
  since := 0

end Sys2Proof.Machine
end

