-- ==== Sys2Proof/Machine/Ops.lean ====
section
/-! DEFINITION. The named operations: the byte stores as one canonical memory, the updates a step is made of, effects (in
what order updates are made), lookups, register and predicate writes, advancing past an instruction, waiting, taking an
exception (R237) and returning from one (R238).

Every meaning is an effect over `Upd`: so what a step can do to the state is said once, in `Upd.apply`. -/

namespace Sys2Proof.Machine

/-! ## The byte stores -/

/-- The byte at a key; an unlisted key reads 0x00 (R152 for unbacked space; DESIGN CHOICE, log 1). -/
def Memory.get : List Host.Cell → Nat → Byte
  | [], _ => 0#8
  | (b, v) :: m, a => if b = a then v else Memory.get m a

/-- A write that keeps the canonical form: keys strictly rising, no zero byte listed. -/
def Memory.set : List Host.Cell → Nat → Byte → List Host.Cell
  | [], a, v => if v = 0#8 then [] else [(a, v)]
  | (b, x) :: m, a, v =>
    if a < b then (if v = 0#8 then (b, x) :: m else (a, v) :: (b, x) :: m)
    else if a = b then (if v = 0#8 then m else (b, v) :: m)
    else (b, x) :: Memory.set m a v

/-- The canonical form, with every key at least `lo`. -/
def Memory.wfFrom : Nat → List Host.Cell → Bool
  | _, [] => true
  | lo, (a, v) :: m => decide (lo ≤ a) && v != 0#8 && Memory.wfFrom (a + 1) m

def Memory.wf (m : List Host.Cell) : Bool := Memory.wfFrom 0 m

/-- Writes one after the other. -/
def Memory.setAll (m : List Host.Cell) : List (Nat × Byte) → List Host.Cell
  | [] => m
  | (a, v) :: ws => Memory.setAll (Memory.set m a v) ws

/-! Keys of the byte stores: a physical address is its own key; the other stores stand above the 52-bit physical space. -/

/-- R130: byte `off` of the scratchpad of a work core. -/
def scrKey (core off : Nat) : Nat := 2 ^ 56 + core * 2 ^ 19 + off
/-- R195: a byte of an accumulator row of a work core: 8,192 rows of 256 bytes (R29). -/
def accKey (core row byte : Nat) : Nat := 2 ^ 57 + core * 2 ^ 21 + row * 256 + byte
/-- R134: byte `off` of the operand buffer of a work core. -/
def obufKey (core off : Nat) : Nat := 2 ^ 58 + core * 2 ^ 18 + off
/-- R296, R302: a byte of the flash. -/
def flashKey (off : Nat) : Nat := 2 ^ 59 + off
/-- A number from its bytes, least significant first (R113). -/
def leNat : List Byte → Nat
  | [] => 0
  | b :: bs => b.toNat + 256 * leNat bs

/-- The `n` low bytes of a number, least significant first (R113). -/
def leBytes : Nat → Nat → List Byte
  | 0, _ => []
  | n + 1, v => BitVec.ofNat 8 v :: leBytes n (v / 256)

/-- Consecutive keys from `a` with the bytes of a list. -/
def cells (a : Nat) : List Byte → List (Nat × Byte)
  | [] => []
  | b :: bs => (a, b) :: cells (a + 1) bs

def State.byte (s : State) (a : Nat) : Byte := Memory.get s.mem a

/-- `n` bytes from key `a`. -/
def State.bytes (s : State) (a : Nat) : Nat → List Byte
  | 0 => []
  | n + 1 => s.byte a :: s.bytes (a + 1) n

/-- The number that `n` bytes from key `a` hold. -/
def State.num (s : State) (a n : Nat) : Nat := leNat (s.bytes a n)

/-! ## Updates -/

/-- One change of the state. A change of a thread, group or team keeps its name. -/
inductive Upd where
  | thread (t : TId) (f : Thread → Thread)
  | group (g : GId) (f : Group → Group)
  | team (k : Nat) (f : Team → Team)
  | part (f : Part → Part)
  /-- Bytes from a key on. -/
  | store (a : Nat) (bs : List Byte)
  | stores (cs : List (Nat × Byte))
  | addTeam (t : Team) (gs : List Group) (ths : List Thread)
  | dropTeam (k : Nat)
  /-- An event that the machine owes. -/
  | event (i : Instr)
  /-- Free values drawn. -/
  | drawn (n : Nat)
  /-- Names used for new objects. -/
  | named (n : Nat)
  /-- The issue whose wait counter has not counted yet. -/
  | counting (tok : Option Nat)
  | stamped
  /-- A TIME cycle (R272): every cluster's CYCLE counts at its clock (R261). -/
  | tick

def mapThread (t : TId) (f : Thread → Thread) (x : Thread) : Thread := if x.id = t then { f x with id := x.id } else x
def mapGroup (g : GId) (f : Group → Group) (x : Group) : Group := if x.id = g then { f x with id := x.id } else x
def mapTeam (k : Nat) (f : Team → Team) (x : Team) : Team := if x.key = k then { f x with key := x.key } else x

/-- R261, R265: the clock in effect, in half cycles per TIME cycle: 9, 12 or 15 for LOW, MID, HIGH; the lowest of the
ratios involved while a change is in progress. -/
def Cluster.halfRate (c : Cluster) : Nat :=
  let of : BitVec 2 → Nat := fun r => if r = 0#2 then 9 else if r = 1#2 then 12 else 15
  let a := of c.cur
  let b := match c.target with
    | some r => min a (of r)
    | none => a
  match c.dropped with
  | some r => min b (of r)
  | none => b

/-- Elements whose names are new join a list: a name has one bearer. -/
def joinNew {α β : Type} [DecidableEq β] (name : α → β) : List α → List α → List α
  | xs, [] => xs
  | xs, y :: ys => joinNew name (if xs.any (fun x => name x == name y) then xs else xs ++ [y]) ys

def Upd.apply (s : State) : Upd → State
  | .thread t f => { s with threads := s.threads.map (mapThread t f) }
  | .group g f => { s with groups := s.groups.map (mapGroup g f) }
  | .team k f => { s with teams := s.teams.map (mapTeam k f) }
  | .part f => { s with part := f s.part }
  | .store a bs => { s with mem := Memory.setAll s.mem (cells a bs) }
  | .stores cs => { s with mem := Memory.setAll s.mem cs }
  | .addTeam t gs ths =>
    { s with teams := joinNew Team.key s.teams [t], groups := joinNew Group.id s.groups (gs.filter fun g => g.id.team == t.key),
             threads := joinNew Thread.id s.threads (ths.filter fun x => x.id.team == t.key), nextId := max s.nextId (t.key + 1) }
  | .dropTeam k =>
    { s with teams := s.teams.filter (fun x => x.key != k), groups := s.groups.filter (fun x => x.id.team != k),
             threads := s.threads.filter (fun x => x.id.team != k) }
  | .event i => { s with events := s.events ++ [i] }
  | .drawn n => { s with free := s.free + n }
  | .named n => { s with nextId := s.nextId + n }
  | .counting tok => { s with counting := tok }
  | .stamped => { s with stamp := s.stamp + 1 }
  | .tick =>
    { s with time := s.time + 1,
             part := { s.part with clusters := s.part.clusters.map fun c => { c with half := c.half + c.halfRate } } }

def State.applyAll (s : State) : List Upd → State
  | [] => s
  | u :: us => (u.apply s).applyAll us

/-! ## Effects -/

/-- What a step does: updates read off the state, one effect after another, an effect chosen by the state. -/
inductive Eff where
  | act (f : State → List Upd)
  | seq (a b : Eff)
  | read (f : State → Eff)

def Eff.run : Eff → State → State
  | .act f, s => s.applyAll (f s)
  | .seq a b, s => b.run (a.run s)
  | .read f, s => (f s).run s

/-- The outcome of a meaning: always a next state. -/
def run (e : Eff) (s : State) : Host.Outcome State Fault Refusal := .next (e.run s)

def Eff.nothing : Eff := .act fun _ => []
def Eff.upds (us : List Upd) : Eff := .act fun _ => us
def Eff.when (c : State → Bool) (a b : Eff) : Eff := .read fun s => if c s then a else b

/-- An effect for each element of a list, in its order. -/
def Eff.each {α : Type} (f : α → Eff) : List α → Eff
  | [] => .nothing
  | x :: xs => .seq (f x) (.each f xs)

/-- A list of effects in order. -/
def Eff.all : List Eff → Eff
  | [] => .nothing
  | e :: es => .seq e (.all es)

/-! ## Lookups -/

def State.thread? (s : State) (t : TId) : Option Thread := s.threads.find? fun x => x.id == t
def State.group? (s : State) (g : GId) : Option Group := s.groups.find? fun x => x.id == g
def State.team? (s : State) (k : Nat) : Option Team := s.teams.find? fun x => x.key == k

/-- A thread by its name; a name that no thread has reads as a vacant lane (R10). -/
def State.th (s : State) (t : TId) : Thread := (s.thread? t).getD (Thread.fresh t 0#64 .vacant)
def State.gr (s : State) (g : GId) : Group := (s.group? g).getD (Group.fresh g 16 0 0 0#64 0#64 0)
def State.tm (s : State) (k : Nat) : Team := (s.team? k).getD (Team.fresh k 0 0 0 0 16 [] 3 false Claim.none)

def State.ctx? (s : State) (num : Nat) : Option Ctx := s.part.ctxs.find? fun c => c.num == num
def State.launch? (s : State) (key : Nat) : Option Launch := s.part.launches.find? fun l => l.key == key
def State.op? (s : State) (id : Nat) : Option Op := s.part.ops.find? fun o => o.id == id

/-- R240, R243: does a team hold its place? One that a team fault has stopped holds it until it is saved. -/
def Team.here (x : Team) : Bool := match x.res with
  | .resident => true
  | .faulted _ _ => !x.off
  | _ => false

/-- Is a team where its threads can be reached? -/
def teamHere (s : State) (k : Nat) : Bool := (s.team? k).any Team.here

/-- Do the commands of a team go on: it holds its place, or it has been released while they were under way (R44)? -/
def teamWorks (s : State) (k : Nat) : Bool := (s.team? k).any fun x => x.here || x.res == .retired

/-- The context of a team: for a supervisor core, the context whose ASID its ASID register holds (R141; DESIGN CHOICE, log 16). -/
def State.ctxOf (s : State) (k : Nat) : Option Ctx :=
  let tm := s.tm k
  match tm.sup with
  | none => s.ctx? tm.ctx
  | some n => s.part.ctxs.find? fun c => c.asid == s.part.supAsid.toList.getD n 0#16

/-- R241: FLAGS.DBG of a team's context. -/
def State.dbg (s : State) (k : Nat) : Bool := match s.ctxOf k with
  | some c => c.dbg
  | none => false

/-- Is a team at supervisor level (R376)? -/
def State.isSup (s : State) (k : Nat) : Bool := (s.tm k).sup.isSome

/-- The threads of a group, in ascending index. -/
def State.threadsOf (s : State) (g : GId) : List Thread := s.threads.filter fun x => x.id.team == g.team && x.id.group == g.group
def State.teamThreads (s : State) (k : Nat) : List Thread := s.threads.filter fun x => x.id.team == k
def State.teamGroups (s : State) (k : Nat) : List Group := s.groups.filter fun x => x.id.team == k

/-- R10: a thread's TID. -/
def State.tid (s : State) (t : TId) : Nat := t.group * (s.gr t.gid).w + t.idx

/-- Is a thread launched and not exited (R22)? -/
def Thread.live (x : Thread) : Bool := x.run != .vacant && x.run != .exited

/-- R12: die, cluster and core-in-cluster of a work core. -/
def dieOf (core : Nat) : Nat := core / 192
def clusterOf (core : Nat) : Nat := core / 48
def coreInCluster (core : Nat) : Nat := core % 48

def State.cluster (s : State) (c : Nat) : Cluster := s.part.clusters.toList.getD c Cluster.reset

/-- R371, R251: CYCLE of a core: arithmetic cycles of its cluster since reset. -/
def State.cycle (s : State) (core : Nat) : Nat := (s.cluster (clusterOf core)).half / 2

/-- Change one element of a vector of the part by its number; a number past its end changes nothing. -/
def updAt {α : Type} {n : Nat} (v : Vector α n) (i : Nat) (f : α → α) : Vector α n :=
  if h : i < n then v.set i (f v[i]) else v

def Upd.cluster (c : Nat) (f : Cluster → Cluster) : Upd := .part fun p => { p with clusters := updAt p.clusters c f }
def Upd.die (d : Nat) (f : Die → Die) : Upd := .part fun p => { p with dies := updAt p.dies d f }
def Upd.pos (i : Nat) (f : Position → Position) : Upd := .part fun p => { p with pos := updAt p.pos i f }
def Upd.micro (m : Nat) (f : Micro → Micro) : Upd := .part fun p => { p with micros := updAt p.micros m f }
def Upd.op (id : Nat) (f : Op → Op) : Upd :=
  .part fun p => { p with ops := p.ops.map fun o => if o.id = id then f o else o }
def Upd.addOp (o : Op) : Upd := .part fun p => { p with ops := p.ops ++ [o] }
def Upd.dropOp (id : Nat) : Upd := .part fun p => { p with ops := p.ops.filter fun o => o.id != id }
def Upd.ctx (num : Nat) (f : Ctx → Ctx) : Upd :=
  .part fun p => { p with ctxs := p.ctxs.map fun c => if c.num = num then f c else c }
def Upd.launch (key : Nat) (f : Launch → Launch) : Upd :=
  .part fun p => { p with launches := p.launches.map fun l => if l.key = key then f l else l }
/-- The resident kernel is told, once until it acts. -/
def Upd.report (r : Report) : Upd :=
  .part fun p => { p with reports := if p.reports.contains r then p.reports else p.reports ++ [r] }
/-- The resident kernel has served reports. -/
def Upd.served (f : Report → Bool) : Upd := .part fun p => { p with reports := p.reports.filter fun r => !f r }

/-! ## Registers -/

/-- A thread's register. -/
def Thread.reg (x : Thread) (r : VReg) : Reg := x.v[r.toNat]'(r.isLt)
def Thread.val (x : Thread) (r : VReg) : Word := (x.reg r).val
/-- A pair as 64 bits: low half in the even register (R113). -/
def Thread.val64 (x : Thread) (r : VReg) : BitVec 64 := x.val (r + 1#7) ++ x.val r
/-- A predicate; p0 is always true (R59, R149). -/
def Thread.pred (x : Thread) (p : PReg) : Pred := if p = 0#3 then ⟨true, false, 0#3⟩ else x.p[p.toNat]'(p.isLt)
def Group.reg (x : Group) (g : GReg) : Reg := x.g[g.toNat]'(g.isLt)

def Thread.setReg (x : Thread) (r : VReg) (y : Reg) : Thread := { x with v := x.v.set r.toNat y r.isLt }
/-- A write to p0 is void (R70). -/
def Thread.setPred (x : Thread) (p : PReg) (y : Pred) : Thread :=
  if p = 0#3 then x else { x with p := x.p.set p.toNat y p.isLt }
def Group.setReg (x : Group) (g : GReg) (y : Reg) : Group := { x with g := x.g.set g.toNat y g.isLt }

/-- Consecutive registers take clean values. -/
def Thread.setRegs (x : Thread) (r : VReg) : List Word → Thread
  | [] => x
  | w :: ws => (x.setReg r ⟨w, false, 0#3⟩).setRegs (r + 1#7) ws

def lo32 (v : BitVec 64) : Word := v.setWidth 32
def hi32 (v : BitVec 64) : Word := (v >>> 32).setWidth 32

/-! ## Value histories (R257) -/

/-- R254: the debug block of a microscope core. -/
def debugBase (m : Nat) : Nat := 0x210000000000 + m * 0x400000

/-- The bytes of a history pushed down by one entry, and the new one in front. -/
def pushHistory (s : State) (base : Nat) (w : Word) : Upd :=
  .store base (leBytes 4 w.toNat ++ s.bytes base 60)

/-- R257: a write of `ws` to v registers from `r` by a hosted thread enters their histories. "Thread lane i" is taken as the thread's index
in its group (DESIGN CHOICE, log 56). -/
def historyV (s : State) (t : TId) (r : VReg) : List Word → List Upd
  | [] => []
  | w :: ws =>
    match (s.gr t.gid).hosted with
    | none => []
    | some h =>
      pushHistory s (debugBase h.m + 0x100000 + h.slot.toNat * 0x80000 + t.idx % 64 * 0x2000 + r.toNat * 0x40) w ::
        historyV s t (r + 1#7) ws

def historyG (s : State) (g : GId) (r : GReg) (w : Word) : List Upd :=
  match (s.gr g).hosted with
  | none => []
  | some h => [pushHistory s (debugBase h.m + 0x200000 + h.slot.toNat * 0x800 + r.toNat * 0x40) w]

/-- R200: does a write of a thread at a register or beyond fall into an operand window that was opened before operation `before`? -/
def Window.mine (t : TId) (before : Nat) (w : Window) : Bool := w.t == t && decide (w.tag < before)

/-- R200: has its thread written a B register of the window's operation? -/
def Window.wroteB (w : Window) : Bool := w.wrote.any fun r => decide (w.vb.toNat ≤ r) && decide (r < w.vb.toNat + w.nv)

/-- Does a window hold one of `n` rows from a row? -/
def Window.overRows (row n : Nat) (w : Window) : Bool := decide (w.row < row + n) && decide (row < w.row + 64)

/-- Does a window hold operand-buffer bytes of a range as A tiles? -/
def Window.overBytes (lo hi : Nat) (w : Window) : Bool := decide (w.aLo < hi) && decide (lo < w.aHi)

/-- R200: does an action touch a window's C rows or A tiles, as they are known now? -/
def Window.met (w : Window) (a : Bool × Nat × Nat) : Bool := if a.1 then w.overBytes a.2.1 a.2.2 else w.overRows a.2.1 (a.2.2 - a.2.1)

/-- R200: are the C rows of a window's operation undefined? -/
def Window.spoilt (w : Window) : Bool := w.acts.any w.met || w.wroteB

/-- R200: the open windows of a thread note the registers that it writes. -/
def touchB (s : State) (t : TId) (r : VReg) (n before : Nat) : List Upd :=
  if s.part.windows.any (Window.mine t before) then
    let note : Window → Window := fun w => if w.mine t before then { w with wrote := (List.range n).map (r.toNat + ·) ++ w.wrote } else w
    [.part fun p => { p with windows := p.windows.map note }]
  else []

/-- A register write with its poison bit and index. -/
def putReg (s : State) (t : TId) (r : VReg) (y : Reg) : List Upd :=
  .thread t (fun x => x.setReg r y) :: (historyV s t r [y.val] ++ touchB s t r 1 s.nextId)

/-- Clean values into consecutive registers, by operation `op`. -/
def putRegsOf (s : State) (t : TId) (r : VReg) (ws : List Word) (op : Nat) : List Upd :=
  .thread t (fun x => x.setRegs r ws) :: (historyV s t r ws ++ touchB s t r ws.length op)

/-- Clean values into consecutive registers. -/
def putRegs (s : State) (t : TId) (r : VReg) (ws : List Word) : List Upd := putRegsOf s t r ws s.nextId

def putPred (t : TId) (p : PReg) (y : Pred) : Upd := .thread t fun x => x.setPred p y

def putG (s : State) (g : GId) (r : GReg) (y : Reg) : List Upd :=
  .group g (fun x => x.setReg r y) :: historyG s g r y.val

/-! ## Where a thread stands -/

/-- R49: COUNT of a clause; an implicit clause of generation 1 has no header (R77). -/
def Clause.count (c : Clause) : Nat := if c.implicit then c.words.length else c.hdr.toNat % 16
/-- R49: Y; 0 for an implicit clause. -/
def Clause.y (c : Clause) : Bool := !c.implicit && c.hdr.getLsbD 19
/-- R49: WAIT; 0xFF for an implicit clause (R77). -/
def Clause.wait (c : Clause) : BitVec 8 := if c.implicit then 0xFF#8 else c.hdr.extractLsb' 11 8

/-- The address of word `i` of the clause at `pc`. -/
def wordAddr (pc : BitVec 64) (implicit : Bool) (i : Nat) : BitVec 64 :=
  if implicit then pc + BitVec.ofNat 64 (4 * (i - 1)) else pc + BitVec.ofNat 64 (4 * i)

/-- R334: H + 4 × (COUNT + 1), the word after the clause. -/
def nextClause (pc : BitVec 64) (c : Clause) : BitVec 64 :=
  if c.implicit then pc + BitVec.ofNat 64 (4 * c.count) else pc + BitVec.ofNat 64 (4 * (c.count + 1))

/-- The word after a thread's clause. -/
def Thread.after (x : Thread) : BitVec 64 := match x.clause with
  | some c => nextClause x.pc c
  | none => x.pc

/-- A thread that stands at a clause header. -/
def Thread.goTo (x : Thread) (pc : BitVec 64) : Thread :=
  { x with pc := pc, widx := 1, clause := none, resumeG := none, ifpN := 0, ifpG := true, rep := none, mayStep := false,
           kept := false }

/-- One instruction of a thread's clause is done, `len` words long: the REPEAT steps on or ends (R67), an IFP's count falls
(R64: a REPEAT with its target counts as one), the thread moves to the next word or past its clause (R48). -/
def Thread.step (x : Thread) (len : Nat) : Thread :=
  match x.rep with
  | some r =>
    if r.k + 1 < r.n then { x with rep := some { r with k := r.k + 1 } }
    else move { x with rep := none } len
  | none => move x len
where
  move (x : Thread) (len : Nat) : Thread :=
    let x := { x with ifpN := x.ifpN - 1 }
    let w := x.widx + len
    match x.clause with
    | some c => if w ≤ c.count then { x with widx := w } else x.goTo (nextClause x.pc c)
    | none => { x with widx := w }

/-- R60: an instruction of the thread has executed: every open window of it shrinks by one. -/
def shrinkWindows (t : TId) : Upd :=
  .part fun p => { p with ops := p.ops.map fun o =>
    if o.t = t then { o with dlv := o.dlv.map fun d => { d with win := d.win - 1 } } else o }

/-- R209, R427: the cluster on whose stop supervisor core `n` lies: the first two of its die (DESIGN CHOICE, log 16). -/
def supCluster (n : Nat) : Nat := 4 * (n / 2) + n % 2

/-- The home cluster of a thread. -/
def State.homeCluster (s : State) (t : TId) : Nat := match (s.tm t.team).sup with
  | some n => supCluster n
  | none => clusterOf (s.gr t.gid).core

/-- CYCLE as a thread reads it (R251: a hosted group reads home). -/
def State.cycleOf (s : State) (t : TId) : Nat := (s.cluster (s.homeCluster t)).half / 2

/-- R273: the launch of a team makes progress. -/
def progress (s : State) (k : Nat) : List Upd :=
  match s.launch? (s.tm k).launch with
  | some l => [.launch l.key fun l => { l with progress := s.time, stalled := false }]
  | none => []

/-- R54, R17: the oldest ready pending group of a core. The groups that are ready carry `readyAt`. -/
def oldestPending (s : State) (core : Nat) : Option Group :=
  (s.groups.filter fun g => g.core == core && !g.active && g.readyAt.isSome && g.hosted.isNone && !s.isSup g.id.team).foldl (init := none) fun b g =>
    match b with
    | none => some g
    | some h => if g.readyAt.getD 0 < h.readyAt.getD 0 then some g else some h

/-- R54, R17: a group of the active set changes places with the oldest ready pending group of its core. -/
def swapActive (s : State) (out : GId) : List Upd :=
  match (if (s.gr out).active then oldestPending s (s.gr out).core else none : Option Group) with
  | none => []
  | some g =>
    [.group out fun x => { x with active := false, readyAt := none },
     .group g.id fun x => { x with active := true, activeAt := s.cycle x.core, readyAt := none }]

/-- R54: a thread that completes a clause with Y = 1 gives its group's place to the oldest ready pending group. -/
def yieldPlace (s : State) (t : TId) (y : Bool) : List Upd :=
  if y && !s.isSup t.team && (s.gr t.gid).hosted.isNone then swapActive s t.gid else []

/-- R54: does a thread's clause have Y = 1? -/
def Thread.yields (x : Thread) : Bool := x.clause.any Clause.y

/-- What the end of an instruction leaves in its thread besides the place it goes on at. -/
def Thread.issued (x : Thread) (stamp last : Nat) : Thread :=
  { x with run := .running, stamp := stamp, last := last, noMatch := false, denied := false, arrived := false, vetted := false,
           stay := [] }

/-- The instruction at a thread's word is done, `len` words long; Y of its clause is not looked at. -/
def Eff.pass (t : TId) (len : Nat) : Eff := .act fun s =>
  [.thread t fun x => (x.step len).issued s.stamp (s.cycleOf t), shrinkWindows t, .stamped] ++ progress s t.team

/-- The instruction at a thread's word is done, `len` words long; a thread that completes its clause yields by its Y (R54). -/
def Eff.done (t : TId) (len : Nat) : Eff := .act fun s =>
  let x := s.th t
  [.thread t fun x => (x.step len).issued s.stamp (s.cycleOf t), shrinkWindows t, .stamped] ++ progress s t.team ++
    yieldPlace s t (x.yields && decide ((x.step len).clause = none))

/-- A thread goes on at `pc`; Y of its clause is not looked at. -/
def Eff.transfer (t : TId) (pc : BitVec 64) : Eff := .act fun s =>
  [.thread t fun x => (x.goTo pc).issued s.stamp (s.cycleOf t), shrinkWindows t, .stamped] ++ progress s t.team

/-- A control transfer to `pc` is taken (R52), which completes the clause (R54). -/
def Eff.jump (t : TId) (pc : BitVec 64) : Eff := .act fun s =>
  [.thread t fun x => (x.goTo pc).issued s.stamp (s.cycleOf t), shrinkWindows t, .stamped] ++ progress s t.team ++
    yieldPlace s t (s.th t).yields

/-- An instruction that parked its thread at its issue is done, `len` words long. A thread that completes a clause with Y = 1 here is
treated as having issued now (R54). -/
def Eff.leave (t : TId) (len : Nat) : Eff := .act fun s =>
  let x := s.th t
  let ends := x.yields && decide ((x.step len).clause = none)
  [.thread t fun x => (x.step len).issued (if ends then s.stamp else x.stamp) (if ends then s.cycleOf t else x.last), shrinkWindows t] ++
    (if ends then [.stamped] else []) ++ yieldPlace s t ends

/-- The instruction does not issue: the thread waits, and stands at it still; its age stays that of its latest issue (R14). -/
def Eff.wait (t : TId) (w : Wait) : Eff := .upds [.thread t fun x => { x with run := .waiting w }]

/-- The instruction issues and its thread waits in it (SLEEP, a JOIN, a barrier). -/
def Eff.park (t : TId) (f : Thread → Thread) : Eff := .act fun s =>
  [.thread t fun x => { f x with stamp := s.stamp, last := s.cycleOf t }, .stamped] ++ progress s t.team

/-! ## Completing register writes (R60, R63) -/

/-- Zero, poisoned with a record, into `n` registers, by operation `op` (R147). -/
def putPoison (s : State) (t : TId) (r : VReg) (n : Nat) (idx : BitVec 3) (op : Nat) : List Upd :=
  .thread t (fun x => (List.range n).foldl (fun x i => x.setReg (r + BitVec.ofNat 7 i) ⟨0#32, true, idx⟩) x) ::
    (historyV s t r (List.replicate n 0#32) ++ touchB s t r n op)

/-- The register write of an operation, when its values are known. -/
def Op.write (s : State) (o : Op) : List Upd := match o.dlv with
  | some d => (match d.vals with
    | some vs => (match o.job with
      | .poisoned idx => putPoison s o.t d.reg vs.length idx o.id
      | _ => putRegsOf s o.t d.reg vs o.id)
    | none => [])
  | none => []

/-- An operation whose register write has been made early. -/
def Op.closed (t : TId) (o : Op) : Op :=
  if o.t = t && o.dlv.any (fun d => d.vals.isSome) then { o with dlv := none } else o

/-- Every outstanding register write of a thread whose value is known is made. -/
def closeWindows (t : TId) : Eff := .act fun s =>
  (s.part.ops.flatMap fun o => if o.t = t then o.write s else []) ++
  [.part fun p => { p with ops := p.ops.map (Op.closed t) }]

/-- R55: a wait counter of a group falls by one. -/
def decCounter (g : GId) (n : BitVec 3) : Upd :=
  .group g fun x => { x with wc := x.wc.set n.toNat ((x.wc[n.toNat]'n.isLt) - 1#6) n.isLt }
def incCounter (g : GId) (n : BitVec 3) : Upd :=
  .group g fun x => { x with wc := x.wc.set n.toNat ((x.wc[n.toNat]'n.isLt) + 1#6) n.isLt }
def Group.counter (x : Group) (n : BitVec 3) : BitVec 6 := x.wc[n.toNat]'n.isLt

/-- R55: the counter of an operation falls when no other operation of its issue is left, if the issue has counted. -/
def Op.settle (s : State) (o : Op) : List Upd := match o.wc with
  | some n =>
    if s.counting = some o.tok ∨ s.part.ops.any (fun p => p.tok == o.tok && p.id != o.id) then [] else [decCounter o.t.gid n]
  | none => []

/-- R150: has a thread's access been rejected, and not been granted an entry since? -/
def Run.rejected : Run → Bool
  | .waiting (.mshr granted _) => !granted
  | _ => false

/-- R150: has a thread's access been granted an entry that it has not taken? -/
def Run.granted : Run → Bool
  | .waiting (.mshr granted _) => granted
  | _ => false

/-- An outstanding operation completes: its register write is made, its counter falls, its miss-status entry is free (R55,
R150), which the oldest rejected access of the core takes. -/
def completeOp (id : Nat) : Eff := .act fun s =>
  match s.op? id with
  | none => []
  | some o =>
    o.write s ++ o.settle s ++ [.dropOp id] ++ progress s o.t.team ++
    (if o.line.isSome && s.threads.any (fun x => x.run.rejected && (s.gr x.id.gid).core == o.core) then
      [.event (.mshrGrant o.core)] else [])

/-! ## Taking an exception (R232 to R240) -/

/-- R232: TCAUSE from its fields. -/
def tcauseOf (inh ifpv ifpg : Bool) (reason widx code : Nat) : Word :=
  BitVec.ofBool inh ++ BitVec.ofBool ifpv ++ BitVec.ofBool ifpg ++ 0#5 ++ BitVec.ofNat 4 reason ++ 0#4 ++
    BitVec.ofNat 4 widx ++ 0#7 ++ BitVec.ofNat 5 code

def Thread.inh (x : Thread) : Bool := x.tcause.getLsbD 31

/-- R233: cause codes. -/
def cIllegal : Nat := 1
def cIclause : Nat := 2
def cPriv : Nat := 3
def cIdouble : Nat := 4
def cPfault : Nat := 5
def cAlign : Nat := 6
def cPmiss : Nat := 7
def cAtgt : Nat := 8
def cWatch : Nat := 11
def cSealbad : Nat := 12
def cCrange : Nat := 13
def cMcmask : Nat := 14
def cDorder : Nat := 15
def cGrowfail : Nat := 16
def cTrap : Nat := 17

/-- R240: the resident kernel is told the cause and the thread, which does not go on; the team stops as at pre-emption (R242) and is
saved (R243). The first of several faults names the cause. -/
def Eff.teamFault (t : TId) (cause : Nat) : Eff := .act fun s =>
  [.team t.team fun x => { x with res := match x.res with
    | .faulted c i => .faulted c i
    | _ => .faulted cause (s.tid t) },
   .thread t fun x => { x with run := .waiting .fault }, .report (.teamFault t.team cause), .event (.preempt t.team)]

/-- R237: TakeTrap. `widx` is the resume word; a resume word past the clause is the next clause's first (R234). `ifp` are
IFPV and IFPG as at the resume word. -/
def takeTrap (t : TId) (code : Nat) (val : BitVec 64) (reason widx : Nat) : Eff :=
  .seq (closeWindows t) <| .read fun s =>
    let x := s.th t
    if x.inh then .teamFault t cIdouble
    else
      let vec := if code = cIllegal then (s.gr t.gid).emuvec else match s.ctxOf t.team with
        | some c => c.trapvec
        | none => 0#64
      if vec = 0#64 then .teamFault t code
      else
        let past := match x.clause with
          | some c => decide (c.count < widx)
          | none => false
        let tpc := if past then x.after else x.pc
        let w := if past then 1 else widx
        let ifpv := !past && decide (w = x.widx) && decide (0 < x.ifpN)
        .act fun s =>
          [.thread t fun x =>
            { x.goTo vec with
              tpc := tpc &&& 0x00FFFFFFFFFFFFFF#64
              tval := val
              tcause := tcauseOf true ifpv (ifpv && x.ifpG) reason w code
              run := .running, stamp := s.stamp, last := s.cycleOf t, noMatch := false, denied := false, arrived := false,
              vetted := false, stay := [] }, .stamped] ++ progress s t.team

/-- A trap at the thread's instruction, which is its resume word. -/
def trap (t : TId) (code : Nat) (val : BitVec 64) : Eff := .read fun s => takeTrap t code val 0 (s.th t).widx

/-- PFAULT with a reason of R145, at the thread's instruction. -/
def pfault (t : TId) (reason : Nat) (val : BitVec 64) : Eff := .read fun s => takeTrap t cPfault val reason (s.th t).widx

/-- ILLEGAL at issue with the number of an entry as TVAL. -/
def illegal (t : TId) (n : Nat) : Eff := trap t cIllegal (BitVec.ofNat 64 n)

/-- R145 reasons. -/
def rNoncanon : Nat := 1
def rLocal : Nat := 2
def rBadpte : Nat := 3
def rNomap : Nat := 4
def rPerm : Nat := 5
def rTarget : Nat := 6
def rMemerr : Nat := 7

/-- R236: a fault NOMAP or PERM of an access is offered to the resident kernel first; another fault, or one the kernel did not
resolve, has its own effect. -/
def offer (t : TId) (va : BitVec 64) (reason : Nat) (otherwise : Eff) : Eff := .read fun s =>
  if (reason = rNomap ∨ reason = rPerm) ∧ (s.th t).denied = false then
    .upds [.thread t fun x => { x with run := .offered va (BitVec.ofNat 4 reason) }, .report (.fault va (BitVec.ofNat 4 reason))]
  else otherwise

/-- A PFAULT that is offered first. -/
def faultAt (t : TId) (reason : Nat) (va : BitVec 64) : Eff := offer t va reason (pfault t reason va)

/-! ## Poison (R146 to R149) -/

/-- R149: consuming the poison of a register: PFAULT with the record's address and reason; all ones and 0 when the record
is not retained. -/
def poisonTrap (t : TId) (idx : BitVec 3) : Eff := .read fun s =>
  let x := s.th t
  if h : 1 ≤ idx.toNat ∧ idx.toNat ≤ 4 then
    let r := x.recs[idx.toNat - 1]'(by omega)
    pfault t r.reason.toNat r.addr
  else pfault t 0 0xFFFFFFFFFFFFFFFF#64

/-- The first poisoned register of a list. -/
def Thread.poisoned (x : Thread) : List VReg → Option (BitVec 3)
  | [] => none
  | r :: rs => if (x.reg r).poison then some (x.reg r).idx else x.poisoned rs

/-- R147: the registers that carry a poison record, of a thread in an allocation of `n`: written, or still to be written by a load whose
fault was not resolved. -/
def Thread.carries (x : Thread) (ops : List Op) (n i : Nat) (dst : List VReg) : Bool :=
  let free : Nat → Bool := fun r => dst.any fun d => d.toNat == r
  ((List.range n).any fun r => !free r && (x.reg (BitVec.ofNat 7 r)).poison && (x.reg (BitVec.ofNat 7 r)).idx.toNat == i) ||
    ops.any fun o => o.t == x.id && (match o.job, o.dlv with
      | .poisoned k, some d => k.toNat == i && (List.range d.n).any fun j => !free (d.reg.toNat + j)
      | _, _ => false)

/-- R147: the record a faulting load takes: the lowest that no register carries, those of its destination left out. -/
def freeRecord (s : State) (t : TId) (dst : List VReg) : Nat :=
  let x := s.th t
  let g := s.gr t.gid
  let used : Nat → Bool := fun i =>
    x.carries s.part.ops g.n i dst ||
    (x.p.toList.any fun q => q.poison && q.idx.toNat == i) || (g.g.toList.any fun q => q.poison && q.idx.toNat == i)
  if !used 1 then 1 else if !used 2 then 2 else if !used 3 then 3 else if !used 4 then 4 else 0

/-- R147: record `i` takes the fault of a load. -/
def takeRecord (t : TId) (i : Nat) (va : BitVec 64) (reason major : Nat) : List Upd :=
  if h : 1 ≤ i ∧ i ≤ 4 then
    [.thread t fun x => { x with recs := x.recs.set (i - 1) ⟨va, BitVec.ofNat 4 reason, BitVec.ofNat 6 major⟩ (by omega) }]
  else []

/-! ## Free values -/

/-- R6: a free word. -/
def State.freeWord (s : State) (i : Nat) : Word := Config.freeWord (s.free + i)

/-- The current issue group, an effect for each of its threads in ascending lane (R15: each as if alone). -/
def perThread (f : TId → Eff) : Eff := .read fun s => .each f s.cur.ths

end Sys2Proof.Machine
end

