-- ==== Sys2Proof/Machine/SysReg.lean ====
section
/-! DEFINITION. System register space (R144): the registers of dies, clusters, links, mailboxes, energy accumulators and
microscope debug blocks, read and written as 32-bit words, and what a write starts. -/

namespace Sys2Proof.Machine

def State.die (s : State) (d : Nat) : Die := s.part.dies.toList.getD d Die.reset
def State.position (s : State) (i : Nat) : Position := s.part.pos.toList.getD i Position.reset
def State.micro (s : State) (m : Nat) : Micro := s.part.micros.toList.getD m Micro.reset
def Die.link (d : Die) (l : Nat) : Link := d.links.toList.getD l Link.reset
def Micro.slot (m : Micro) (h : Nat) : Slot := m.slots.toList.getD h Slot.reset

/-- R263: CLPWR as a word. -/
def Cluster.clpwr (c : Cluster) : Word :=
  0#8 ++ c.pcap ++ 0#12 ++ BitVec.ofBool c.auto ++ 0#1 ++ c.ceil

/-- R262: RATIO as a word. -/
def Cluster.ratio (c : Cluster) : Word :=
  0#26 ++ c.ceil ++ BitVec.ofBool c.therm ++ BitVec.ofBool c.target.isSome ++ c.cur

/-- R268: the width in effect: during a change, the narrower of the two. -/
def Link.inEffect (l : Link) : BitVec 2 := match l.target with
  | some w => BitVec.ofNat 2 (min w.toNat l.width.toNat)
  | none => l.width

/-- R268: LNKPWR as a word. -/
def Link.lnkpwr (l : Link) : Word := 0#26 ++ l.inEffect ++ BitVec.ofBool l.shed ++ 0#1 ++ l.minw

/-! ## The physical address space (R144) -/

/-- A physical range. -/
inductive PhysRange where
  | dram (n : Nat)
  | tier2 (n : Nat)
  | sys
  | host
  | unbacked
  | reserved
deriving DecidableEq, Repr

def physRange (pa : Nat) : PhysRange :=
  if pa < 8 * 0x1000000000 then .dram (pa / 0x1000000000)
  else if 0x100000000000 ≤ pa ∧ pa < 0x200000000000 then
    (if (pa - 0x100000000000) / 0x20000000000 < 8 then .tier2 ((pa - 0x100000000000) / 0x20000000000) else .reserved)
  else if 0x200000000000 ≤ pa ∧ pa < 0x400000000000 then .sys
  else if 0x400000000000 ≤ pa ∧ pa < 0x800000000000 then .host
  else if 0x8000000000000 ≤ pa ∧ pa < 0x10000000000000 then .unbacked
  else .reserved

/-- The position on which a line lies. -/
def linePosition (line : Nat) : Option Nat := match physRange (line * 128) with
  | .dram n | .tier2 n => some n
  | _ => none

/-- The places of a COPY's elements and buffer. -/
def CopyJob.places (j : CopyJob) : List Place := j.buf ++ j.elems.flatMap fun e => (e.map ElemPlaces.places).getD []

/-- The places of the memory that an engine command has still to read or write. -/
def Op.places (s : State) (o : Op) : List Place := match o.job with
  | .copy c => c.counter :: c.places
  | .accld j | .accst j => j.places
  | .qpush _ _ _ _ full => full
  | .status pl _ => [pl]
  | .coll ctx num => (s.part.colls.filter fun g => g.ctx == ctx && g.num == num).flatMap fun g =>
      (g.ops.filter fun p => p.opId == o.id).flatMap fun p => p.dstAt ++ p.statAt.toList
  | _ => []

/-- Does a place lie on a position? -/
def Place.onPosition (i : Nat) : Place → Bool
  | .page p => linePosition (p.pa / 128) == some i
  | _ => false

/-- R293: has an operation an access to a position still to make or to end? A store in a combining buffer, the rows of a COPY, an
accumulator command, a collective's results and the publication of a push are accesses that have issued. -/
def Op.onPosition (s : State) (i : Nat) (o : Op) : Bool := match o.job with
  | .load _ _ | .access _ _ => o.line.any fun l => linePosition l == some i
  | .combined line => linePosition line == some i
  | _ => (o.places s).any (Place.onPosition i)

/-- R293, R305: QUIESCE is set and no access to the position is outstanding. -/
def State.quiesced (s : State) (i : Nat) : Bool := (s.position i).quiesce && !s.part.ops.any (Op.onPosition s i) &&
  !s.threads.any fun x => x.wcBuf.any fun b => linePosition b.line == some i

/-- R293: MBSTAT as a word. -/
def mbstatWord (s : State) (i : Nat) : Word := 0#23 ++ BitVec.ofBool (s.quiesced i) ++ (s.position i).mbstat

/-! ## The instruction at a thread's word -/

/-- The generation-3 word of an execution: under REPEAT, the word with its stepped fields (R67, R421). -/
def steppedWord (w : Word) (sm : BitVec 3) (stride k : Nat) : Word :=
  let u : Nat → Nat → Nat := fun b at_ => if sm.getLsbD b then stride * k * 2 ^ at_ else 0
  BitVec.ofNat 32 (w.toNat + u 0 19 + u 1 12 + u 2 5)

/-- The word `i` of a clause (1 for the first). -/
def Clause.word (c : Clause) (i : Nat) : Word := c.words.getD (i - 1) 0#32

/-- The instruction that word `i` of a clause holds; the clause has been checked, so it is one. -/
def Clause.instrAt (c : Clause) (i : Nat) (rep : Option RepState) : Instr :=
  let w := match rep with
    | some r => steppedWord (c.word i) r.sm r.stride r.k
    | none => c.word i
  match decodeWord w (c.word (i + 1)) with
  | .ok ins => ins
  | .error _ => .nop

/-- Is a thread's next instruction void under an IFP (R64)? The executions of a REPEAT run under the REPEAT's guard. -/
def Thread.voided (x : Thread) : Bool := decide (0 < x.ifpN) && !x.ifpG && x.rep.isNone

/-- The instruction a thread stands at. -/
def Thread.instr (x : Thread) : Instr := match x.clause with
  | some c => c.instrAt x.widx x.rep
  | none => .nop

/-! ## What holds an instruction at issue (R14, R230) -/

def Op.isWaitge (o : Op) : Bool := match o.job with
  | .waitge _ _ => true
  | _ => false

def Op.isAwait (o : Op) : Bool := match o.job with
  | .await _ _ => true
  | _ => false

/-- R165, R178 to R184: does an instruction produce events, or start a command that does? -/
def producesEvents (i : Instr) : Bool := match i with
  | .ptest _ _ | .bari _ _ => false
  | _ => let m := i.major
    (decide (0x18 ≤ m) && decide (m ≤ 0x23) && m != 0x1D) || (decide (0x27 ≤ m) && decide (m ≤ 0x30) && m != 0x29)

/-- R230: beyond the window of a WAITGE that is outstanding, every instruction of the thread waits. An instruction with events is not
performed before the acquire of a WAITGE that precedes it either (R165; DESIGN CHOICE, log 5). -/
def waitgeHolds (s : State) (t : TId) (i : Instr) : Bool :=
  s.part.ops.any fun o => o.t == t && o.isWaitge && (producesEvents i || o.dlv.any fun d => d.win == 0)

/-- R165, R181: an instruction with events is not performed before the acquire of an AWAIT that precedes it in the thread: it waits for
that to complete (DESIGN CHOICE, log 5). A second AWAIT completes with the first (R206). -/
def awaitHolds (s : State) (t : TId) (i : Instr) : Bool :=
  producesEvents i && s.part.ops.any fun o => o.t == t && o.isAwait && (match i with
    | .await _ _ _ => false
    | _ => true)

/-- R165, R181, R230: is an instruction of a thread held back by a WAITGE or AWAIT before it? -/
def heldBack (s : State) (t : TId) (i : Instr) : Bool := waitgeHolds s t i || awaitHolds s t i

/-- R14, R55: are the wait counters a mask selects zero? -/
def Group.drained (g : Group) (mask : BitVec 8) : Bool :=
  (List.range 8).all fun n => !mask.getLsbD n || g.counter (BitVec.ofNat 3 n) == 0#6

/-- The matrix operations that have issued and not completed. -/
def matrixJobs (s : State) : List (Nat × MatrixJob) :=
  s.part.ops.filterMap fun o => match o.job with
    | .matrix m => some (o.id, m)
    | _ => none

/-- R199: does OPFENCE wait for an operation? -/
def Op.fenced (o : Op) : Bool := match o.job with
  | .obres _ _ | .obld _ _ _ | .accld _ => true
  | _ => false

/-- Is what MWAIT, KSET or a signature waits for over (R189, R382, R403)? -/
def matrixFree (s : State) (t : TId) : Instr → Bool
  | .mwait k => !s.part.ops.any fun o => o.t == t && o.job == .sign k
  | .kset k _ _ => !(matrixJobs s).any fun j => j.2.team == t.team && j.2.k == k
  | .mma _ k _ _ _ _ _ _ _ _ | .mmaq _ k _ _ _ _ _ _ _ _ => !((s.tm t.team).k[k.toNat]'k.isLt).sigs.any fun g => g.t == t
  | _ => true

/-- R205: has the round in which an ASEND's rank has sent ended? -/
def sendFree (s : State) (x : Thread) : Instr → Bool
  | .asend h r _ _ =>
    let w := x.val h
    !s.part.chains.any fun c => c.ctx == (s.tm x.id.team).ctx && c.num == w.toNat % 1024 && c.gen == w.extractLsb' 16 8 &&
      c.sent.contains ((x.val r).toNat / 2 ^ 16 % 16)
  | _ => true

/-- R373: does a SHRINK of a group have to wait: for register writes that are outstanding, or for GROWs that its group issued before it? -/
def shrinkHeld (s : State) (g : GId) : Bool :=
  !(s.gr g).grows.isEmpty || s.part.ops.any fun o => o.t.gid == g && o.dlv.isSome

/-- R311: is an arrival of a thread at a barrier held behind its own pending bit? Arrive checks the count first. -/
def arrivalHeld (s : State) (x : Thread) (a : VReg) (n : BitVec 4) : Bool :=
  let c := (x.val a).toNat
  decide (n.toNat < (s.tm x.id.team).claim.barriers) && c != 0 && decide (c ≤ 8192) &&
    ((s.tm x.id.team).bars[n.toNat]'n.isLt).pend.contains x.id

/-- R14: what an instruction of a thread would wait for if it were tried now: a wait counter at 63 (R55), the counters of a WAITW (R446),
an operation or round of the matrix unit (R189, R382, R403), an OPFENCE's commands (R199), its own pending arrival (R311), the round of a
chain (R205), register writes or GROWs before a SHRINK (R373). -/
def issueWait (s : State) (x : Thread) (i : Instr) : Option Wait :=
  if i.counter.any fun n => (s.gr x.id.gid).counter n == 63#6 then some .counterFull
  else match i with
  | .waitw m => if (s.gr x.id.gid).drained m then none else some .counters
  | .mwait _ | .kset _ _ _ | .mma _ _ _ _ _ _ _ _ _ _ | .mmaq _ _ _ _ _ _ _ _ _ _ => if matrixFree s x.id i then none else some .matrix
  | .opfence => if s.part.ops.any fun o => o.t == x.id && o.fenced then some .opfence else none
  | .bara a n => if arrivalHeld s x a n then some .pending else none
  | .bar a n => if !x.arrived && arrivalHeld s x a n then some .pending else none
  | .asend _ _ _ _ => if sendFree s x i then none else some .chain
  | .shrink m => if decide (max 8 ((m.toNat + 7) / 8 * 8) < (s.gr x.id.gid).n) && shrinkHeld s x.id.gid then some .windows else none
  | _ => none

/-! ## Resume points -/

/-- R242: is a running thread blocked at an instruction inside its clause? -/
def Thread.blockedAt (s : State) (x : Thread) : Bool :=
  x.run == .running && x.clause.isSome && !x.voided && (heldBack s x.id x.instr || (issueWait s x x.instr).isSome)

/-- R242, R244: does a thread stand at a resume point: a clause header, the word where a restore has put it, or the instruction that
blocks it inside a clause? One that ERET has sent into a clause beyond its first word runs that clause. -/
def Thread.atResume (s : State) (x : Thread) : Bool :=
  match x.run with
  | .running => (x.clause.isNone && (decide (x.widx ≤ 1) || x.kept)) || x.blockedAt s
  | .waiting (.mshr _ _) | .waiting (.quota _) | .waiting (.evict _ _) => false
  | .offered _ _ | .syscall _ => false
  | _ => true

def State.groupAtResume (s : State) (g : GId) : Bool := (s.threadsOf g).all (Thread.atResume s)

/-- R240, R242, R250, R253, R255: must a group stop at its resume points? -/
def State.stopsGroup (s : State) (g : GId) : Bool :=
  let x := s.gr g
  (s.tm g.team).stopping || (s.tm g.team).res != .resident || x.shutter.isSome || x.homing ||
    (match x.hosted with
      | some h => ((s.micro h.m).slot h.slot.toNat).stop
      | none => false)

/-- R255: HOST0 and HOST1. -/
def hostWord (s : State) (x : Slot) : Word :=
  let stopped := match x.gid with
    | some g => s.stopsGroup g && s.groupAtResume g
    | none => false
  BitVec.ofBool x.gid.isSome ++ BitVec.ofBool stopped ++ BitVec.ofBool x.stop ++ 0#1 ++ BitVec.ofBool x.pav ++ x.core ++ x.gidx ++
    BitVec.ofBool x.hit.isSome ++ 0#2 ++ (x.hit.getD 0#5)

/-- R270: the package accumulator: the sum of the die accumulators. -/
def State.packageEnergy (s : State) : BitVec 64 :=
  s.part.dies.toList.foldl (fun a d => (d.energy.toList.take 7).foldl (· + ·) a) 0#64

/-- R270: accumulator `i`: die × 8 + offset / 8, 32 for the package; the eighth of a die is reserved and reads zero. -/
def State.energyOf (s : State) (i : Nat) : BitVec 64 :=
  if i = 32 then s.packageEnergy else if i % 8 = 7 then 0#64 else (s.die (i / 8)).energy.toList.getD (i % 8) 0#64

/-- The word of a die's register block at an offset (R212, R263, R268, R270, R293). -/
def dieWord (s : State) (d off : Nat) : Word :=
  if off = 0x100 then (s.die d).netctl
  else if 0x200 ≤ off ∧ off < 0x280 then (if (off - 0x200) % 0x20 = 0 then (s.cluster (4 * d + (off - 0x200) / 0x20)).clpwr else 0#32)
  else if 0x400 ≤ off ∧ off < 0x440 then
    let e := s.energyOf (8 * d + (off - 0x400) / 8)
    if off % 8 = 0 then lo32 e else hi32 e
  else if 0x600 ≤ off ∧ off < 0x680 then
    let p := s.position (2 * d + (off - 0x600) / 0x40)
    match (off - 0x600) % 0x40 with
    | 0x00 => p.mbcmd
    | 0x04 => mbstatWord s (2 * d + (off - 0x600) / 0x40)
    | 0x08 => 0#31 ++ BitVec.ofBool p.quiesce
    | 0x10 => lo32 p.mbarg
    | 0x14 => hi32 p.mbarg
    | _ => 0#32
  else if 0x800 ≤ off ∧ off < 0x830 then (if off % 8 = 0 then ((s.die d).link ((off - 0x800) / 8)).lnkpwr else 0#32)
  else 0#32

/-- The word of a debug block at an offset (R254); its watchpoints, trace buffer and histories are bytes of the memory. -/
def debugWord (s : State) (m off : Nat) : Word :=
  match off with
  | 0x00 => (s.micro m).trctl
  | 0x08 => (s.micro m).pavane
  | 0x10 => hostWord s ((s.micro m).slot 0)
  | 0x18 => hostWord s ((s.micro m).slot 1)
  | _ =>
    if (0x1000 ≤ off ∧ off < 0x1400) ∨ (0x40000 ≤ off ∧ off < 0x80000) ∨ (0x100000 ≤ off ∧ off < 0x201000) then
      BitVec.ofNat 32 (s.num (debugBase m + off) 4)
    else 0#32

def sysBase : Nat := 0x200000000000
def debugSpace : Nat := 0x210000000000

/-- The word of system register space at a physical address that is a multiple of 4. -/
def sysWord (s : State) (pa : Nat) : Word :=
  if debugSpace ≤ pa ∧ pa < debugSpace + 32 * 0x400000 then debugWord s ((pa - debugSpace) / 0x400000) ((pa - debugSpace) % 0x400000)
  else if sysBase ≤ pa ∧ pa < sysBase + 0x40000 then dieWord s ((pa - sysBase) / 0x10000) ((pa - sysBase) % 0x10000)
  else if pa = sysBase + 0x40000 then lo32 s.packageEnergy
  else if pa = sysBase + 0x40004 then hi32 s.packageEnergy
  else 0#32

/-- R212, R263, R293: the registers that only supervisor cores access: NETCTL, CLPWR, the mailboxes. -/
def supervisorOnly (pa : Nat) : Bool :=
  let off := (pa - sysBase) % 0x10000
  decide (sysBase ≤ pa) && decide (pa < sysBase + 0x40000) &&
    (off / 4 == 0x40 || (decide (0x200 ≤ off) && decide (off < 0x280)) || (decide (0x600 ≤ off) && decide (off < 0x680)))

/-- R270: which accumulator a word belongs to. -/
def energyIndex (pa : Nat) : Option Nat :=
  if pa / 8 * 8 = sysBase + 0x40000 then some 32
  else if sysBase ≤ pa ∧ pa < sysBase + 0x40000 ∧ 0x400 ≤ (pa - sysBase) % 0x10000 ∧ (pa - sysBase) % 0x10000 < 0x440 then
    some (8 * ((pa - sysBase) / 0x10000) + ((pa - sysBase) % 0x10000 - 0x400) / 8)
  else none

/-- R271: a 32-bit read of an accumulator's half by an agent: the low half latches the high half; the high half returns the
latch once. -/
def energyRead (s : State) (i agent : Nat) (high : Bool) : Word × List Upd :=
  if high then
    match s.part.shadows.find? fun x => x.1 == i && x.2.1 == agent with
    | some x => (x.2.2, [.part fun p => { p with shadows := p.shadows.filter fun x => !(x.1 == i && x.2.1 == agent) }])
    | none => (hi32 (s.energyOf i), [])
  else
    (lo32 (s.energyOf i), [.part fun p =>
      { p with shadows := (i, agent, hi32 (s.energyOf i)) :: p.shadows.filter fun x => !(x.1 == i && x.2.1 == agent) }])

/-! ## Writes -/

/-- R265: a new ratio is selected for a cluster: the target of a change that completes within 1,000 TIME cycles; the change
under way is abandoned. -/
def selectRatio (s : State) (c : Nat) (r : BitVec 2) : List Upd :=
  let k := s.cluster c
  if k.target = some r ∨ (k.target = none ∧ k.cur = r) then []
  else
    [.cluster c fun k => { k with target := some r, dropped := k.target },
     .event (.ratioChangeDone c)]

/-- R263, R264, R452: what a cluster runs at after a write of CLPWR: CEIL without AUTO; in the first period after reset MID, or CEIL
where it is lower; never above CEIL. -/
def applyCeil (s : State) (c : Nat) (auto : Bool) (ceil : BitVec 2) : List Upd :=
  let k := s.cluster c
  let now := k.target.getD k.cur
  if !auto then selectRatio s c ceil
  else if k.since = 0 then selectRatio s c (if ceil = 0#2 then 0#2 else 1#2)
  else if ceil.toNat < now.toNat then selectRatio s c ceil
  else []

/-- R262: after a write of CLPWR, does a thermal limit still hold the cluster below its ceiling? -/
def Cluster.stillTherm (k : Cluster) (auto : Bool) (ceil : BitVec 2) : Bool :=
  k.therm && auto && decide ((k.target.getD k.cur).toNat < ceil.toNat)

/-- R269: the widest width a link's lanes permit: half with a retired lane, quarter with lanes retired in both halves; lanes
0 to 7 and 8 to 15 are the halves (DESIGN CHOICE, log 18). -/
def Link.widest (l : Link) : BitVec 2 :=
  if l.lanesOff.any (fun x => x < 8) && l.lanesOff.any (fun x => 8 ≤ x) then 0#2
  else if l.lanesOff.isEmpty then 2#2 else 1#2

/-- R294: the event of a mailbox command. -/
def mailboxEvent (i : Nat) (code : Nat) : Instr :=
  let p := BitVec.ofNat 3 i
  match code with
  | 1 => .mbIdent p
  | 2 => .synread p
  | 3 => .scrub p
  | 4 => .rowrepair p
  | 5 => .seqload p
  | 6 => .mbReset p
  | _ => .mbReserved p

/-- R293: a write to a mailbox register. -/
def mailboxWrite (s : State) (i off : Nat) (v : Word) : List Upd :=
  match off with
  | 0x00 =>
    if (s.position i).mbcmd.getLsbD 31 then []
    else [.pos i fun p => { p with mbcmd := v &&& 0x800000FF#32 }] ++
      (if v.getLsbD 31 then [.event (mailboxEvent i (v.toNat % 256))] else [])
  | 0x08 => [.pos i fun p => { p with quiesce := v.getLsbD 0 }]
  | 0x10 => [.pos i fun p => { p with mbarg := hi32 p.mbarg ++ v }]
  | 0x14 => [.pos i fun p => { p with mbarg := v ++ lo32 p.mbarg }]
  | _ => []

/-- R255: STEP lets each thread of a hosted group run one clause. -/
def stepHosted (s : State) (m h : Nat) : List Upd :=
  match ((s.micro m).slot h).gid with
  | none => []
  | some g => (s.threadsOf g).map fun x => .thread x.id fun y => { y with mayStep := true }

/-- R255: STOP is written; a stop that the write makes did not come from a watchpoint. -/
def Slot.setStop (stop : Bool) (x : Slot) : Slot := { x with stop := stop, hit := if stop && !x.stop then none else x.hit }

/-- R255: STOP and PAV are written; STEP with STOP = 1 runs one clause. -/
def hostWrite (s : State) (m h : Nat) (v : Word) : List Upd :=
  [.micro m fun k => { k with slots := updAt k.slots h fun x => { x.setStop (v.getLsbD 29) with pav := v.getLsbD 27 } }] ++
  (if v.getLsbD 29 && v.getLsbD 28 then stepHosted s m h else [])

/-- A write of a word of a debug block (R254 to R258). The trace buffer and the value histories take none: the spec gives software no
access to them but reading (DESIGN CHOICE, log 56). -/
def debugWrite (s : State) (m off : Nat) (v : Word) : List Upd :=
  match off with
  | 0x00 => [.micro m fun k => { k with trctl := (k.trctl &&& ~~~0xD0000000#32) ||| (v &&& 0xD0000000#32) }]
  | 0x08 => [.micro m fun k => { k with pavane := v &&& 0xF#32 }]
  | 0x10 => hostWrite s m 0 v
  | 0x18 => hostWrite s m 1 v
  | _ =>
    if 0x1000 ≤ off ∧ off < 0x1400 then [.store (debugBase m + off) (leBytes 4 v.toNat)]
    else []

/-- A write of a word of a die's block (R212, R263, R268, R293); energy accumulators take no write (R271). -/
def dieWrite (s : State) (d off : Nat) (v : Word) : List Upd :=
  if off = 0x100 then [.die d fun x => { x with netctl := v &&& ~~~0x3F00000F#32 }]
  else if 0x200 ≤ off ∧ off < 0x280 then
    if (off - 0x200) % 0x20 = 0 then
      let c := 4 * d + (off - 0x200) / 0x20
      let ceil := if v.extractLsb' 0 2 = 3#2 then (s.cluster c).ceil else v.extractLsb' 0 2
      .cluster c (fun k => { k with pcap := v.extractLsb' 16 8, auto := v.getLsbD 3, ceil := ceil,
                                    therm := k.stillTherm (v.getLsbD 3) ceil }) ::
        applyCeil s c (v.getLsbD 3) ceil
    else []
  else if 0x600 ≤ off ∧ off < 0x680 then mailboxWrite s (2 * d + (off - 0x600) / 0x40) ((off - 0x600) % 0x40) v
  else if 0x800 ≤ off ∧ off < 0x830 then
    if off % 8 = 0 then
      let l := (off - 0x800) / 8
      let minw := if v.extractLsb' 0 2 = 3#2 then 2#2 else v.extractLsb' 0 2
      [.die d fun x => { x with links := updAt x.links l fun k => { k with shed := v.getLsbD 3, minw := minw } }] ++
        (if v.getLsbD 3 && decide (minw.toNat ≤ ((s.die d).link l).width.toNat) then []
         else [.event (.linkWidthRaise (BitVec.ofNat 2 d) (BitVec.ofNat 3 l))])
    else []
  else []

def sysWrite (s : State) (pa : Nat) (v : Word) : List Upd :=
  if debugSpace ≤ pa ∧ pa < debugSpace + 32 * 0x400000 then debugWrite s ((pa - debugSpace) / 0x400000) ((pa - debugSpace) % 0x400000) v
  else if sysBase ≤ pa ∧ pa < sysBase + 0x40000 then dieWrite s ((pa - sysBase) / 0x10000) ((pa - sysBase) % 0x10000) v
  else []

/-- A byte of system register space. -/
def sysByte (s : State) (pa : Nat) : Byte := (sysWord s (pa / 4 * 4)).extractLsb' (8 * (pa % 4)) 8

/-- `n` bytes of system register space. -/
def sysBytes (s : State) (pa : Nat) : Nat → List Byte
  | 0 => []
  | n + 1 => sysByte s pa :: sysBytes s (pa + 1) n

/-- A word with the bytes of a write merged in: bytes `bs` from physical address `pa`, into the word at `w`. -/
def mergeWord (s : State) (w pa : Nat) (bs : List Byte) : Word :=
  BitVec.ofNat 32 (leNat ((List.range 4).map fun i =>
    if pa ≤ w + i ∧ w + i < pa + bs.length then bs.getD (w + i - pa) 0#8 else sysByte s (w + i)))

/-- A write to system register space: its words in ascending address. -/
def sysWriteBytes (s : State) (pa : Nat) (bs : List Byte) : List Upd :=
  (List.range ((pa % 4 + bs.length + 3) / 4)).flatMap fun i =>
    let w := pa / 4 * 4 + 4 * i
    sysWrite s w (mergeWord s w pa bs)

end Sys2Proof.Machine
end

