-- ==== Sys2Proof/Machine/Access.lean ====
section
/-! DEFINITION. Memory accesses (05): the address space and its windows, translation, the caches and homes, held lines and
the quota, write-combining, and what one access does at the point where it is performed. Each access is performed when its
instruction issues (DESIGN CHOICE, log 5); its result and its completion come later. -/

namespace Sys2Proof.Machine

/-- What an access is, for permissions (R145). -/
inductive AccessKind where
  | load
  | store
  | atomic
  | discard
  /-- FLUSHL and INVL (R366): R is needed, nothing is read. -/
  | flush
  | fetch
deriving DecidableEq, Repr

/-- Who accesses: team, home core (none for a supervisor core), die, translation issuer, whether L1 and RDC copies may serve
it (R251), whether it is at user level; its name as an agent (R160), its context's number, whether its access keeps a permission
check that it has passed, and the translations that it keeps (R155). -/
structure Agent where
  team   : Nat
  core   : Option Nat
  die    : Nat
  issuer : Nat
  copies : Bool
  user   : Bool
  who    : Nat
  ctx    : Nat
  vetted : Bool
  stay   : List TlbEntry
deriving DecidableEq, Repr

/-- R141: issuer numbers: work cores 0 to 767, then microscope cores, supervisor cores, tile streamers, ports. -/
def microIssuer (m : Nat) : Nat := 1000 + m
def supIssuer (n : Nat) : Nat := 2000 + n
def streamerIssuer (core : Nat) : Nat := 3000 + core
def linkIssuer : Nat := 4000
def hostIssuer : Nat := 4001

/-- R160: a thread as an agent. -/
def threadAgent (t : TId) : Nat := 10000 + (t.team * 512 + t.group) * 64 + t.idx

/-- The number of a team's context. -/
def ctxNum (s : State) (k : Nat) : Nat := match s.ctxOf k with
  | some c => c.num
  | none => 0

/-- The agent a thread is. -/
def agentOf (s : State) (t : TId) : Agent :=
  let g := s.gr t.gid
  let vetted := (s.th t).vetted
  let stay := (s.th t).stay
  match (s.tm t.team).sup with
  | some n => ⟨t.team, none, n / 2, supIssuer n, false, false, threadAgent t, ctxNum s t.team, vetted, stay⟩
  | none => match g.hosted with
    | some h => ⟨t.team, some g.core, dieOf g.core, microIssuer h.m, false, true, threadAgent t, ctxNum s t.team, vetted, stay⟩
    | none => ⟨t.team, some g.core, dieOf g.core, g.core, true, true, threadAgent t, ctxNum s t.team, vetted, stay⟩

/-- R153 to R155: the instruction waits for the supervisor, who is told; it has passed its permission check, and keeps the translations of
its issuers. -/
def Eff.waitServed (t : TId) (w : Wait × Report) : Eff := .act fun s =>
  let a := agentOf s t
  let kept := s.part.tlb.filter fun e => e.issuer == a.issuer || some e.issuer == a.core || a.core.any fun c => e.issuer == streamerIssuer c
  [.report w.2, .thread t fun x => { x with run := .waiting w.1, vetted := true, stay := if x.vetted then x.stay else kept }]

/-- An engine of a team on a core: it translates as its own issuer and uses no copies (R178, R141). -/
def engineOf (s : State) (t : TId) : Agent :=
  let a := agentOf s t
  { a with issuer := (match a.core with
      | some c => streamerIssuer c
      | none => a.issuer), copies := false }

/-! ## The fitted ranges (R144) -/

/-- R290: a position whose base die is in use. -/
def Position.used (p : Position) (kind : Nat) : Bool := !p.disabled && p.kind.toNat == kind

/-- R144, R290, R293: does a physical address lie in a range that the fitted configuration fills and that is not quiesced? -/
def present (s : State) (pa : Nat) : Bool :=
  match physRange pa with
  | .dram n => (s.position n).used 1 && !(s.position n).quiesce && decide (pa % 0x1000000000 < (s.position n).capgib.toNat * 2 ^ 30)
  | .tier2 n =>
    (s.position n).used 2 && !(s.position n).quiesce &&
      decide ((pa - 0x100000000000) % 0x20000000000 < (s.position n).capgib.toNat * 2 ^ 30)
  | .sys | .host | .unbacked => true
  | .reserved => false

/-- R145: does the base die report an uncorrectable error for the sector of an address? -/
def State.uncorrectable (s : State) (pa : Nat) : Bool := s.part.bad.contains (pa / 16)

/-! ## Values at the home point -/

def State.l2Line? (s : State) (line : Nat) : Option L2Line := s.part.l2.find? fun l => l.line == line
def L2Line.sec? (l : L2Line) (i : Nat) : Option Sector := l.secs.find? fun x => x.i == i

/-- The byte at a physical address as its home point holds it: the home copy of its sector, or its frame (R135). -/
def homeByte (s : State) (pa : Nat) : Byte :=
  match (s.l2Line? (pa / 128)).bind fun l => l.sec? (pa / 16 % 8) with
  | some x => x.data.getD (pa % 16) 0#8
  | none => s.byte pa

def homeBytes (s : State) (pa : Nat) : Nat → List Byte
  | 0 => []
  | n + 1 => homeByte s pa :: homeBytes s (pa + 1) n

/-! ## Translation (R141 to R145) -/

/-- R142: the bytes a leaf of level 0, 1 or 2 maps. -/
def pageSize (level : Nat) : Nat := if level = 0 then 2 ^ 16 else if level = 1 then 2 ^ 21 else 2 ^ 30

def pteBit (pte : Nat) (i : Nat) : Bool := pte / 2 ^ i % 2 == 1
def pteFrame (pte : Nat) : Nat := pte / 2 ^ 16 % 2 ^ 36 * 2 ^ 16
def pteMt (pte : Nat) : Nat := pte / 2 ^ 62 % 4

/-- R142, R143: is an entry with V = 1 and LEAF = 0 at a level well formed? -/
def nonLeafOk (level pte : Nat) : Bool :=
  let nl := pte / 2 ^ 8 % 256
  decide (level ≠ 0) && pte / 2 ^ 52 == 0 && pte / 4 % 64 == 0 &&
    (if level = 3 then nl == 0 else if level = 2 then nl % 16 == 0 else true) &&
    (match physRange (pteFrame pte + nl * 256) with
      | .dram _ | .tier2 _ | .host => true
      | _ => false)

/-- R140, R142 to R144: is an entry with V = 1 and LEAF = 1 at a level well formed? -/
def leafOk (level pte : Nat) : Bool :=
  let u := pteBit pte 58
  let mt := pteMt pte
  decide (level ≤ 2) && pte / 2 ^ 52 % 32 == 0 && pte / 2 ^ 7 % 512 == 0 &&
    (u || !pteBit pte 57) && (!u || mt == 0) && pteFrame pte % pageSize level == 0 &&
    (match physRange (pteFrame pte) with
      | .unbacked => u
      | .sys => !u && (mt == 2 || mt == 3)
      | .dram _ | .tier2 _ | .host => !u
      | .reserved => false)

/-- R142: the bits of a virtual address that index a level, and the next table of an entry. -/
def vaIndex (level va : Nat) : Nat :=
  if level = 3 then va / 2 ^ 43 % 2 ^ 13 else if level = 2 then va / 2 ^ 30 % 2 ^ 13
  else if level = 1 then va / 2 ^ 21 % 2 ^ 9 else va / 2 ^ 16 % 2 ^ 5

/-- R145: a walk from the table at `base` for a level down: the leaf and its level, or the reason of the fault. -/
def walk (s : State) (va : Nat) : Nat → Nat → Except Nat (Nat × Nat)
  | 0, base => step 0 base fun _ => .error rBadpte
  | level + 1, base => step (level + 1) base fun next => walk s va level next
where
  step (level base : Nat) (next : Nat → Except Nat (Nat × Nat)) : Except Nat (Nat × Nat) :=
    let at_ := base + 8 * vaIndex level va
    if !present s at_ then .error rTarget
    else if s.uncorrectable at_ then .error rMemerr
    else
      let pte := leNat (homeBytes s at_ 8)
      if !pteBit pte 0 then .error rNomap
      else if pteBit pte 1 then (if leafOk level pte then .ok (level, pte) else .error rBadpte)
      else if nonLeafOk level pte then next (pteFrame pte + pte / 2 ^ 8 % 256 * 256)
      else .error rBadpte

/-- R141: the translation an issuer has cached for an address. -/
def cachedPte (s : State) (issuer : Nat) (asid : BitVec 16) (va : Nat) : Option (Nat × Nat) :=
  (s.part.tlb.find? fun e => e.issuer == issuer && (e.asid == asid || pteBit e.pte.toNat 6) && e.vpn == va / pageSize e.level).map
    fun e => (e.level, e.pte.toNat)

/-- The leaf for an address: cached, or walked and then cached. -/
def leafFor (s : State) (c : Ctx) (issuer : Nat) (va : Nat) : Except Nat (Nat × Nat) × List Upd :=
  match cachedPte s issuer c.asid va with
  | some x => (.ok x, [])
  | none => match walk s va 3 c.ptbase with
    | .error r => (.error r, [])
    | .ok (l, pte) =>
      (.ok (l, pte), [.part fun p => { p with tlb := ⟨issuer, c.asid, l, va / pageSize l, BitVec.ofNat 64 pte⟩ :: p.tlb }])

/-- R155: a translation that an access keeps. -/
def keptLeaf (stay : List TlbEntry) (c : Ctx) (va : Nat) : Option (Nat × Nat) :=
  (stay.find? fun e => (e.asid == c.asid || pteBit e.pte.toNat 6) && e.vpn == va / pageSize e.level).map fun e => (e.level, e.pte.toNat)

/-- R145: does a page permit an access? An atomic or a DISCARD needs R and W. -/
def permits (user : Bool) (k : AccessKind) (pte : Nat) : Bool :=
  (!user || pteBit pte 5) &&
    (match k with
      | .load | .flush => pteBit pte 2
      | .store => pteBit pte 3
      | .atomic | .discard => pteBit pte 2 && pteBit pte 3
      | .fetch => pteBit pte 4)

/-- A page of a leaf at an address. -/
def pageAt (level pte va : Nat) : Page where
  pa := pteFrame pte + va % pageSize level
  mt := pteMt pte
  home := pte / 2 ^ 60 % 4
  kind := if pteBit pte 58 then (if pteBit pte 57 then 2 else 1) else if pteBit pte 59 then 3 else 0
  va := va
  w := pteBit pte 3
  size := pageSize level

/-- R131: does a core's scratchpad byte lie in the claim of a resident team of a context? A team that a team fault has stopped holds its
place, and counts as resident, until it is saved (R240, R243); the spec does not say so (DESIGN CHOICE, log 43). -/
def inClaim (s : State) (ctx core y n : Nat) : Bool :=
  s.teams.any fun x => x.sup.isNone && x.ctx == ctx && x.here && x.cores.any (· == core) &&
    decide (x.claim.scrBase ≤ y) && decide (y + n ≤ x.claim.scrBase + x.claim.scrSize)

def cellHas (m : BitVec 192) (cell : Nat) : Bool := m.getLsbD cell

/-- R128 to R133: the local windows. A supervisor core has no team, and the spec does not say what its access to a window or to the team
information block does: each faults with LOCAL (DESIGN CHOICE, log 16). -/
def localPlace (s : State) (a : Agent) (k : AccessKind) (va n : Nat) : Except Nat Place :=
  let x := s.tm a.team
  if !a.user then .error rLocal
  else if va < 0xFF000100000000 then
    let off := va - 0xFF000000000000
    let sz := x.claim.scrSize
    if off + n ≤ x.cores.length * sz then .ok (.scr (x.cores.getD (off / sz) 0) (x.claim.scrBase + off % sz)) else .error rLocal
  else if va < 0xFF000200000000 then
    let off := va - 0xFF000100000000
    let p := off / 0x80000
    let y := off % 0x80000
    let core := (a.core.getD 0) / 48 * 48 + p
    if p > 47 ∨ !cellHas s.part.cellPresent (core / 4) ∨ !inClaim s x.ctx core y n then .error rLocal
    else if x.det ∧ !(x.cores.any (· == core) && decide (x.claim.scrBase ≤ y) && decide (y + n ≤ x.claim.scrBase + x.claim.scrSize)) then
      .error rLocal
    else .ok (.scr core y)
  else if va + n ≤ 0xFF000200000040 then
    (if k = .load then .ok (.tib (va - 0xFF000200000000)) else .error rPerm)
  else .error rLocal

/-- R145, R291, R295: does an access that reads `n` bytes meet an uncorrectable error? -/
def readsError (s : State) (k : AccessKind) (pa n : Nat) : Bool :=
  (match k with
    | .load | .atomic | .fetch => true
    | _ => false) && (List.range ((pa % 16 + n + 15) / 16)).any fun i => s.uncorrectable (pa + 16 * i)

/-- R278: a page that a deterministic launch does not write: host memory and the second tier. -/
def Page.far (p : Page) : Bool := match physRange p.pa with
  | .host | .tier2 _ => true
  | _ => false

def AccessKind.writes : AccessKind → Bool
  | .store | .atomic | .discard => true
  | _ => false

/-- R145: the page of a mapped address for an access of `n` bytes by an issuer of a context, or the reason of its fault; and the
translation it caches. A page that `bar` names is no target; system register space performs no atomics (R139). With `vetted`, its
permission check stands, and so do the translations in `stay` (R155). -/
def pageBut (bar : Page → Bool) (stay : List TlbEntry) (s : State) (c : Ctx) (issuer : Nat) (user vetted : Bool) (k : AccessKind) (va n : Nat) :
    Except Nat Page × List Upd :=
  match keptLeaf stay c va with
  | some x => judge x []
  | none => match leafFor s c issuer va with
    | (.error r, us) => (.error r, us)
    | (.ok x, us) => judge x us
where
  judge (x : Nat × Nat) (us : List Upd) : Except Nat Page × List Upd :=
    let (l, pte) := x
    if !vetted && !permits user k pte then (.error rPerm, us)
    else
      let p := pageAt l pte va
      if !present s p.pa || (k == .atomic && physRange p.pa == .sys) || bar p then (.error rTarget, us)
      else if readsError s k p.pa n then (.error rMemerr, us)
      else (.ok p, us)

def pageFor (s : State) (c : Ctx) (issuer : Nat) (user vetted : Bool) (k : AccessKind) (va n : Nat) : Except Nat Page × List Upd :=
  pageBut (fun _ => false) [] s c issuer user vetted k va n

/-- R145: the place of an access of `n` bytes, or the reason of its fault, for an instruction to which a page that `bar` names is no
target. -/
def translateBut (bar : Page → Bool) (s : State) (a : Agent) (k : AccessKind) (va : BitVec 64) (n : Nat) : Except Nat Place × List Upd :=
  let v := va.toNat
  if 2 ^ 56 ≤ v then (.error rNoncanon, [])
  else if 0xFF000000000000 ≤ v then
    (match k with
      | .fetch | .flush => (.error rLocal, [])
      | .discard => (if 0xFF000200000000 ≤ v ∧ v < 0xFF000200000040 then .error rPerm else .error rLocal, [])
      | _ => (localPlace s a k v n, []))
  else match s.ctxOf a.team with
    | none => (.error rNomap, [])
    | some c => match pageBut (fun p => bar p || ((s.tm a.team).det && k.writes && p.far)) a.stay s c a.issuer a.user a.vetted k v n with
      | (.error r, us) => (.error r, us)
      | (.ok p, us) => (.ok (.page p), us)

def translate (s : State) (a : Agent) (k : AccessKind) (va : BitVec 64) (n : Nat) : Except Nat Place × List Upd :=
  translateBut (fun _ => false) s a k va n

/-! ## Held lines, allocation, replacement (R135, R151 to R154) -/

/-- R135: slice and set of a line. -/
def sliceOf (pa : Nat) : Nat :=
  let f : Nat → Nat := fun lo => pa / 2 ^ lo % 64
  ((((((f 7 ^^^ f 13) ^^^ f 19) ^^^ f 25) ^^^ f 31) ^^^ f 37) ^^^ f 43) ^^^ (pa / 2 ^ 49 % 8)
def setOf (pa : Nat) : Nat := pa / 2 ^ 13 % 1024

def L2Line.unbacked (l : L2Line) : Bool := l.kind == 1 || l.kind == 2

/-- R151: is a line held: of an unbacked page, or of a page whose entry has PIN = 1 now? -/
def lineHeld (s : State) (l : L2Line) : Bool :=
  l.unbacked || l.kind != 4 && (match s.ctx? l.ctx with
    | some c => (match walk s l.va 3 c.ptbase with
      | .ok (_, pte) => !pteBit pte 58 && pteBit pte 59
      | .error _ => false)
    | none => l.kind == 3)

/-- The lines of a line's set at a home. -/
def sameSet (s : State) (die line : Nat) : List L2Line :=
  s.part.l2.filter fun l => l.die == die && sliceOf (l.line * 128) == sliceOf (line * 128) && setOf (l.line * 128) == setOf (line * 128)

/-- The held lines of a line's set at a home. -/
def heldIn (s : State) (die line : Nat) : List L2Line := (sameSet s die line).filter (lineHeld s)

def oldest : List L2Line → Option L2Line
  | [] => none
  | l :: ls => match oldest ls with
    | none => some l
    | some m => if m.stamp < l.stamp then some m else some l

/-- The frame bytes of a line's dirty sectors. -/
def L2Line.writeBack (l : L2Line) : List Upd :=
  l.secs.filterMap fun x => if x.dirty then some (.store (l.line * 128 + x.i * 16) x.data) else none

def dropLine (line : Nat) : Upd := .part fun p => { p with l2 := p.l2.filter fun l => l.line != line }

/-- R177: the lines that have replicas on the page of a line. -/
def replicaPage (p : Part) (line : Nat) : List Nat :=
  (p.hots.filter fun h => h.line == line || (!h.copies.isEmpty && decide (h.lo ≤ line) && decide (line < h.hi))).map HotLine.line

/-- R177, R214: the replicas and redirect entries of the page of a line end. -/
def endPageReplicas (line : Nat) (p : Part) : Part :=
  { p with hots := p.hots.filter fun h => !(replicaPage p line).contains h.line,
           redirects := p.redirects.filter fun r => r.2 != line && !(replicaPage p line).contains r.2 }

/-- The lines of the page of a cached translation. -/
def TlbEntry.covers (e : TlbEntry) (line : Nat) : Bool :=
  decide (pteFrame e.pte.toNat ≤ line * 128) && decide (line * 128 < pteFrame e.pte.toNat + pageSize e.level)

/-- R440: the translations go at every issuer, with the replicas of their pages. -/
def dropTranslations (f : TlbEntry → Bool) : Upd := .part fun p =>
  let out := p.tlb.filter f
  { p with tlb := p.tlb.filter (fun e => !f e), hots := p.hots.filter (fun h => !out.any fun e => e.covers h.line),
           redirects := p.redirects.filter fun r => !out.any fun e => e.covers r.2 }

/-- The replicas of its page, a multicast record and a host copy of a line end before a write to it is performed (R177, R214, R217,
R286); it has been written since its home filled it (R213). -/
def beforeWrite (line : Nat) : Upd := .part fun p =>
  { endPageReplicas line p with
    mcs := p.mcs.filter fun m => m.line != line, hostHeld := p.hostHeld.filter fun l => l != line,
    l2 := p.l2.map fun l => if l.line = line then { l with written := true } else l }

/-- R175: the leases of a line's RDC copies end within their bound. -/
def endLeases (s : State) (line : Nat) : List Upd :=
  (s.part.rdc.filter fun x => x.sector / 8 == line).map fun x => .event (.rdcLeaseEnd x.owner x.sector)

/-- R153, R157: an unbacked line is dropped. -/
def loseLine (s : State) (line : Nat) : List Upd := beforeWrite line :: dropLine line :: endLeases s line

/-- R135: lines that an engine, a fetch or a load of nothing reads are used. -/
def touchLines (s : State) (lines : List Nat) : Upd :=
  .part fun p => { p with l2 := p.l2.map fun l => if lines.contains l.line then { l with stamp := s.stamp } else l }

/-- R135: room for one more line of a set: the least recently used line that is not held leaves when 16 ways are full; none where all 16
are held. -/
def makeRoom (s : State) (die line : Nat) : Option (List Upd) :=
  let set := sameSet s die line
  if set.length < 16 then some []
  else (oldest (set.filter fun l => !lineHeld s l)).map fun v => v.writeBack ++ [dropLine v.line]

/-- R154: the context's existing unbacked lines. -/
def unbackedCount (s : State) (ctx : Nat) : Nat := (s.part.l2.filter fun l => l.unbacked && l.ctx == ctx).length

/-- A new line in its home. -/
def newLine (s : State) (p : Page) (ctx : Nat) : Upd :=
  .part fun x => { x with l2 := ⟨p.pa / 128, p.home, [], p.kind, p.va / 128 * 128, ctx, s.stamp, false⟩ :: x.l2 }

/-- R151 to R154: bringing the line of a page into its home: what has to leave, or what the access waits for (with the report
to the supervisor), or `none` when a line is not allocated: a pinned line that finds 12 held lines, or a line that finds its set full of
held lines, where pages that were cached have become pinned since (DESIGN CHOICE, log 56: it is then performed at the memory side). -/
def allocate (s : State) (p : Page) (ctx : Nat) : Except (Wait × Report) (Option (List Upd)) :=
  let line := p.pa / 128
  if (s.l2Line? line).isSome then .ok (some [])
  else
    let held := heldIn s p.home line
    let room : Option (List Upd) := (makeRoom s p.home line).map fun us => us ++ [newLine s p ctx]
    if p.kind = 0 then .ok room
    else if p.kind = 3 then .ok (if 12 ≤ held.length then none else room)
    else match s.ctx? ctx with
      | none => .ok none
      | some c =>
        if c.quota ≤ unbackedCount s ctx then .error (.quota ctx, .uquota ctx)
        else if held.length < 12 then .ok room
        else match oldest (held.filter L2Line.unbacked) with
          | some v =>
            if v.kind = 2 then .ok (some (loseLine s v.line ++ [newLine s p ctx]))
            else .error (.evict v.ctx (BitVec.ofNat 64 v.va), .uevict v.ctx (BitVec.ofNat 64 v.va))
          | none => .error (.evict ctx (BitVec.ofNat 64 (p.va / 65536 * 65536)), .uevict ctx (BitVec.ofNat 64 (p.va / 65536 * 65536)))

/-- Change a line of the home L2. -/
def updLine (line : Nat) (f : L2Line → L2Line) : Upd :=
  .part fun p => { p with l2 := p.l2.map fun l => if l.line = line then f l else l }

/-- Bytes put over a sector's bytes from an offset. -/
def overlay (old : List Byte) (off : Nat) (bs : List Byte) : List Byte :=
  old.take off ++ bs ++ old.drop (off + bs.length)

/-- A write within one sector of a line that the home holds: a sector that is not there is first filled from the frame (zero
for an unbacked line, R152). -/
def writeSector (s : State) (pa : Nat) (bs : List Byte) : Upd :=
  let i := pa / 16 % 8
  let base := pa / 16 * 16
  updLine (pa / 128) fun l =>
    let old := match l.sec? i with
      | some x => x.data
      | none => s.bytes base 16
    { l with secs := ⟨i, overlay old (pa % 16) bs, true⟩ :: l.secs.filter (fun x => x.i != i), stamp := s.stamp, written := true }

/-- R139: the home writes back and drops its copy of the sectors of a line that an access touches. -/
def cleanLine (s : State) (line : Nat) (secs : List Nat) : List Upd :=
  match s.l2Line? line with
  | none => []
  | some l =>
    ((l.secs.filter fun x => secs.contains x.i && x.dirty).map fun x => .store (line * 128 + x.i * 16) x.data) ++
      (if l.secs.all (fun x => secs.contains x.i) then [dropLine line]
       else [updLine line fun l => { l with secs := l.secs.filter fun x => !secs.contains x.i }])

/-- R139: the home cleans the sector of an address. -/
def cleanSector (s : State) (pa : Nat) : List Upd := cleanLine s (pa / 128) [pa / 16 % 8]

/-! ## Copies in L1 and RDC (R136, R137, R174) -/

def copyOf (cs : List Copy) (owner sector : Nat) : Option Copy := cs.find? fun c => c.owner == owner && c.sector == sector
def dropCopy (cs : List Copy) (owner sector : Nat) : List Copy := cs.filter fun c => !(c.owner == owner && c.sector == sector)

/-- At most `n` copies of an owner stay, the first of the list. -/
def keepOf (owner : Nat) : Nat → List Copy → List Copy
  | _, [] => []
  | n, c :: cs =>
    if c.owner = owner then (match n with
      | 0 => keepOf owner 0 cs
      | n + 1 => c :: keepOf owner n cs)
    else c :: keepOf owner n cs

/-- R136: the sectors of 128 KiB; R137: those of 32 MiB. -/
def l1Sectors : Nat := 8192
def rdcSectors : Nat := 2097152

/-- R136, R138: a sector fills its core's L1, and the least recently filled leaves (DESIGN CHOICE, log 19); with `first` it is first
in line for eviction. -/
def fillL1 (core sector : Nat) (data : List Byte) (first : Bool) : Upd :=
  .part fun p =>
    let others := keepOf core (l1Sectors - 1) (dropCopy p.l1 core sector)
    { p with l1 := if first then others ++ [⟨core, sector, data⟩] else ⟨core, sector, data⟩ :: others }

/-- R137: a sector fills its die's RDC, and the least recently filled leaves. -/
def fillRdc (die sector : Nat) (data : List Byte) : Upd :=
  .part fun p => { p with rdc := ⟨die, sector, data⟩ :: keepOf die (rdcSectors - 1) (dropCopy p.rdc die sector) }

/-- R174: a read beyond L1 and RDC leaves no older copy there for the reader. -/
def dropCopies (a : Agent) (sector : Nat) : Upd :=
  .part fun p => { p with rdc := dropCopy p.rdc a.die sector, l1 := match a.core with
    | some c => dropCopy p.l1 c sector
    | none => p.l1 }

/-- R175: the acquire of a thread at device scope or wider: no copy of its core's L1, or of its die's RDC, that could be older than what
it acquires, serves a later read. -/
def acquire (s : State) (t : TId) : List Upd :=
  let a := agentOf s t
  match a.core with
  | some c => [.part fun p => { p with l1 := p.l1.filter (fun x => x.owner != c), rdc := p.rdc.filter fun x => x.owner != a.die }]
  | none => []

/-- R163, R175: an acquire at the scope of a code. A thread or group acquires from its own core alone; the agents of a team, cell,
cluster or die stand on one die, whose RDC holds nothing older than their writes (R137); wider scopes reach other dies. -/
def acquireAt (s : State) (t : TId) (scope : BitVec 3) : List Upd :=
  if scope.toNat < 2 then []
  else if 6 ≤ scope.toNat then acquire s t
  else match (agentOf s t).core with
    | some c => [.part fun p => { p with l1 := p.l1.filter fun x => x.owner != c }]
    | none => []

/-- R136, R137: what a write to a sector does to copies: the issuing core's L1 copy is updated, or dropped under CP 1 (R138); the
local die's RDC lease ends; the other dies' leases end within their bound (R175). -/
def copiesAfterWrite (s : State) (a : Agent) (cp pa : Nat) (bs : List Byte) : List Upd :=
  let sec := pa / 16
  (match (if a.copies then a.core else none : Option Nat) with
    | none => []
    | some c => [.part fun p =>
      { p with l1 := if cp = 1 then dropCopy p.l1 c sec else p.l1.map fun x =>
          if x.owner = c ∧ x.sector = sec then { x with data := overlay x.data (pa % 16) bs } else x }]) ++
  [.part fun p => { p with rdc := dropCopy p.rdc a.die sec }] ++
  ((s.part.rdc.filter fun x => x.sector == sec && x.owner != a.die).map fun x => .event (.rdcLeaseEnd x.owner sec))

/-! ## Hot lines (R213) -/

/-- R213: a window of 2^(HOTWIN + 8) fabric cycles of 2.0 GHz, ten to a TIME cycle (R1): is `x` in the window that ends at `now`? -/
def inHotWindow (ctl : Word) (now x : Nat) : Bool := decide (10 * (now - x) < 2 ^ (ctl.toNat / 2 ^ 12 % 16 + 8))

/-- R209, R213: the stop, numbered over the part, on which a core lies: two cores to a stop. -/
def stopOf (core : Nat) : Nat := core / 2

/-- R213: the home slice serves a read. The line is hot when HOTTHR reads with W = 0 fall within the window and nothing has been written
since the fill: the helper slices take copies, and the NIs that asked in the window take redirect entries, 16 each. A read whose
translation has W = 1 ends the replicas of the page (R177). -/
def countRead (s : State) (a : Agent) (p : Page) : List Upd :=
  let ctl := (s.die p.home).netctl
  let line := p.pa / 128
  let lo := p.pa / p.size * p.size / 128
  if !ctl.getLsbD 30 then []
  else [.part fun q =>
    let q := if p.w then { q with hots := q.hots.map fun h => if (replicaPage q line).contains h.line then { h with copies := [] } else h,
                                  redirects := q.redirects.filter fun r => !(replicaPage q line).contains r.2 } else q
    let old := (q.hots.find? fun h => h.line == line).getD ⟨line, lo, lo + p.size / 128, [], []⟩
    let reads := (⟨s.time, p.w, a.core.map stopOf⟩ :: old.reads.filter fun x => inHotWindow ctl s.time x.time).take 256
    let stops := (reads.filterMap HotRead.stop).eraseDups
    let clean := (q.l2.find? fun l => l.line == line).any fun l => !l.written
    let hot := decide (max 8 (ctl.toNat / 2 ^ 16 % 256) ≤ reads.length) && !(reads.any HotRead.w) && clean
    let copies := if old.copies.isEmpty && hot then List.replicate 3 (homeBytes s (line * 128) 128) else old.copies
    let rest := q.redirects.filter fun r => !(r.2 == line && stops.contains r.1)
    { q with
      hots := { old with reads := reads, copies := copies } :: q.hots.filter fun h => h.line != line
      redirects := if hot then stops.map (fun c => (c, line)) ++ stops.foldl (fun rs c => keepPairs c 15 rs) rest else q.redirects }]
where
  /-- At most `n` entries of an NI stay. -/
  keepPairs (stop : Nat) : Nat → List (Nat × Nat) → List (Nat × Nat)
    | _, [] => []
    | n, r :: rs =>
      if r.1 = stop then (match n with
        | 0 => keepPairs stop 0 rs
        | n + 1 => r :: keepPairs stop n rs)
      else r :: keepPairs stop n rs

/-- R209, R213: the helper number of a core's stop: its cluster's cores stand two to a stop in ascending y, then x (DESIGN CHOICE,
log 20). -/
def helperOf (core : Nat) : Nat :=
  let k := core % 48 / 2
  (core / 48 % 4 * 3 + k % 3 + k / 3) % 4

/-- R213: the replica that serves a core's read of a line: its NI redirects it, and its helper is not the home slice itself. -/
def replicaFor (s : State) (a : Agent) (line : Nat) : Option (List Byte) :=
  match a.core with
  | none => none
  | some c =>
    if !s.part.redirects.contains (stopOf c, line) ∨ helperOf c = 0 then none
    else ((s.part.hots.find? fun h => h.line == line).map HotLine.copies).bind fun cs => cs[helperOf c - 1]?

/-- R213: an NI uses its redirect entry. -/
def useRedirect (a : Agent) (line : Nat) : Upd := .part fun p => { p with redirects := match a.core with
  | some c => if p.redirects.contains (stopOf c, line) then (stopOf c, line) :: p.redirects.filter (· != (stopOf c, line)) else p.redirects
  | none => p.redirects }

/-! ## Reading and writing at a place -/

/-- R132: the team information block. -/
def tibBytes (s : State) (team : Nat) : List Byte :=
  let x := s.tm team
  leBytes 4 x.claim.scrBase ++ leBytes 4 x.claim.scrSize ++ leBytes 2 (x.cores.headD 0) ++ leBytes 1 x.cores.length ++ [0#8] ++
    leBytes 4 x.claim.accRows ++ leBytes 4 x.claim.obSize ++ List.replicate 44 0#8

/-- R138 to R140: where an access is performed: 0 L1 or RDC copies may serve it, 1 the home point, 3 the memory side, which an unbacked or
pinned page has not (R139). -/
def pointOf (p : Page) (cp : Nat) : Nat :=
  if p.mt ≠ 0 ∨ cp = 3 then (if p.kind = 0 then 3 else 1) else if cp = 1 then 1 else 0

/-- Bytes at the memory side: a register, or the frame. An aligned 32-bit read of half an energy accumulator latches (R271). A user-level
read of a register that only supervisor cores access reads free words (DESIGN CHOICE, log 38). -/
def sideRead (s : State) (a : Agent) (pa n : Nat) : List Byte × List Upd :=
  match physRange pa with
  | .sys =>
    if a.user && supervisorOnly pa then ((leBytes 4 (s.freeWord 0).toNat ++ leBytes 4 (s.freeWord 1).toNat).take n, [.drawn 2])
    else match energyIndex pa with
    | some i =>
      if n = 4 then
        let r := energyRead s i a.who (pa % 8 == 4)
        (leBytes 4 r.1.toNat, r.2)
      else (sysBytes s pa n, [])
    | none => (sysBytes s pa n, [])
  | _ => (homeBytes s pa n, cleanSector s pa)

/-- Bytes written at the memory side. Only supervisor cores write registers, the debug blocks excepted (R212, R254). The home
cleans its copy first (R139). -/
def sideWrite (s : State) (a : Agent) (pa : Nat) (bs : List Byte) : List Upd :=
  match physRange pa with
  | .sys => if a.user ∧ pa < debugSpace then [] else sysWriteBytes s pa bs
  | _ => cleanSector s pa ++ [.store pa bs]

/-- A read within one sector of a page at the home point: the home copy, or its frame with a fill (R135, R152, R153). -/
def homeRead (s : State) (p : Page) (ctx n : Nat) : List Byte × List Upd :=
  match s.l2Line? (p.pa / 128) with
  | some l => match l.sec? (p.pa / 16 % 8) with
    | some x => ((x.data.drop (p.pa % 16)).take n, [updLine l.line fun l => { l with stamp := s.stamp }])
    | none =>
      let base := p.pa / 16 * 16
      (s.bytes p.pa n, if p.kind = 1 ∨ p.kind = 2 then [updLine l.line fun l => { l with stamp := s.stamp }] else
        [updLine l.line fun l => { l with secs := ⟨p.pa / 16 % 8, s.bytes base 16, false⟩ :: l.secs, stamp := s.stamp }])
  | none =>
    if p.kind = 1 ∨ p.kind = 2 then (List.replicate n 0#8, [])
    else
      let base := p.pa / 16 * 16
      (s.bytes p.pa n, match allocate s p ctx with
        | .ok (some us) =>
          us ++ [updLine (p.pa / 128) fun l => { l with secs := [⟨p.pa / 16 % 8, s.bytes base 16, false⟩] }]
        | _ => [])

/-- R213: a read at the home point, by a helper slice where the core's NI redirects it. -/
def servedRead (s : State) (a : Agent) (p : Page) (n : Nat) : List Byte × List Upd :=
  match replicaFor s a (p.pa / 128) with
  | some d => ((d.drop (p.pa % 128)).take n, [useRedirect a (p.pa / 128)])
  | none =>
    let r := homeRead s p a.ctx n
    (r.1, r.2 ++ useRedirect a (p.pa / 128) :: countRead s a p)

/-- A read of at most 16 bytes within one sector, at the point its policy and page type give (R138 to R140, R174). -/
def readPlace (s : State) (a : Agent) (pl : Place) (n cp : Nat) : List Byte × List Upd :=
  match pl with
  | .scr core off => (s.bytes (scrKey core off) n, [])
  | .tib off => (((tibBytes s a.team).drop off).take n, [])
  | .page p =>
    let sec := p.pa / 16
    match pointOf p cp with
    | 3 =>
      let r := sideRead s a p.pa n
      (r.1, r.2 ++ [dropCopies a sec])
    | 1 =>
      let r := servedRead s a p n
      (r.1, r.2 ++ [dropCopies a sec])
    | _ =>
      match a.core with
      | none => homeRead s p a.ctx n
      | some core =>
        if !a.copies then servedRead s a p n
        else match copyOf s.part.l1 core sec with
          | some c => ((c.data.drop (p.pa % 16)).take n, [])
          | none =>
            let remote := decide (p.home ≠ a.die)
            match (if remote then copyOf s.part.rdc a.die sec else none) with
            | some c => ((c.data.drop (p.pa % 16)).take n, [fillL1 core sec c.data (cp == 2)])
            | none =>
              let r := servedRead s a p n
              let data := homeBytes s (sec * 16) 16
              let exists_ := !(p.kind = 1 ∨ p.kind = 2) || (s.l2Line? (p.pa / 128)).isSome
              (r.1, r.2 ++ (if exists_ then fillL1 core sec data (cp == 2) :: (if remote then [fillRdc a.die sec data] else []) else []))

/-- R277: the order record a deterministic launch leaves on a sector. A sector has one record for each launch, so that one launch's write
leaves another's record (DESIGN CHOICE, log 56: R277 speaks of one launch). -/
def orderAfterWrite (s : State) (a : Agent) (pa : Nat) : List Upd :=
  let x := s.tm a.team
  if x.det then
    [.part fun p => { p with orders := ⟨pa / 16, x.launch, x.idx⟩ :: p.orders.filter fun o => !(o.sector == pa / 16 && o.launch == x.launch) }]
  else []

/-- R277: does a sector's record name a later team of the thread's deterministic launch? -/
def orderBars (s : State) (a : Agent) (pl : Place) : Bool :=
  let x := s.tm a.team
  match pl with
  | .page p => x.det && s.part.orders.any fun o => o.sector == p.pa / 16 && o.launch == x.launch && decide (x.idx < o.team)
  | _ => false

/-- Where `n` lines of a delivery land: line by line, on every recipient. -/
def landing (dest : Nat) (dests : List Nat) (n : Nat) : List Nat :=
  (List.range n).flatMap fun i => dests.map fun core => scrKey core (dest + 128 * i)

/-- Does an outstanding delivery land on one of `n` bytes of the scratchpads from a key? -/
def Op.landsOn (key n : Nat) (o : Op) : Bool := match o.job with
  | .ldmc _ lines dest dests _ _ => (landing dest dests lines.length).any fun k => decide (k < key + n) && decide (key < k + 128)
  | _ => false

/-- R218: the deliveries under way on bytes of the scratchpads that are written note them. -/
def noteLandings (s : State) (key n : Nat) : List Upd :=
  if s.part.ops.any (Op.landsOn key n) then
    [.part fun p => { p with ops := p.ops.map fun o => match o.job with
      | .ldmc rs ls d ds was hits =>
        if o.landsOn key n then { o with job := .ldmc rs ls d ds was ((List.range n).map (key + ·) ++ hits) } else o
      | _ => o }]
  else []

/-- A write of at most 16 bytes within one sector at its point, or what it waits for. -/
def writePlace (s : State) (a : Agent) (pl : Place) (bs : List Byte) (cp : Nat) : Except (Wait × Report) (List Upd) :=
  match pl with
  | .scr core off => .ok (.store (scrKey core off) bs :: noteLandings s (scrKey core off) bs.length)
  | .tib _ => .ok []
  | .page p =>
    let line := p.pa / 128
    match pointOf p cp with
    | 3 =>
      .ok ([beforeWrite line] ++ sideWrite s a p.pa bs ++ copiesAfterWrite s a cp p.pa bs ++ orderAfterWrite s a p.pa)
    | _ =>
      -- R139: CP 3 that is not performed at the memory side acts as CP 1
      let cp := if cp = 3 then 1 else cp
      match allocate s p a.ctx with
      | .error w => .error w
      | .ok none =>
        -- R153: a pinned line that is not allocated is written at the memory side
        .ok ([beforeWrite line, .store p.pa bs] ++ copiesAfterWrite s a cp p.pa bs ++ orderAfterWrite s a p.pa)
      | .ok (some us) =>
        .ok ([beforeWrite line] ++ us ++ [writeSector s p.pa bs] ++ copiesAfterWrite s a cp p.pa bs ++ orderAfterWrite s a p.pa)

/-! ## Bulk accesses of engines and of the resident kernel -/

/-- A byte at a place, at the home point or the memory side (R178). Memory of a claim that has been released is no place, and reads as free
bytes (log 44). From a register that only supervisor cores access an engine of a
user-level thread reads a free byte, as the thread does (DESIGN CHOICE, log 38). -/
def placeByte (s : State) (a : Agent) : Place → Byte
  | .scr core off => s.byte (scrKey core off)
  | .tib off => (tibBytes s a.team).getD off ((s.freeWord off).setWidth 8)
  | .page p => match physRange p.pa with
    | .sys =>
      if a.user && supervisorOnly p.pa then (s.freeWord (p.pa / 4 % 16384)).extractLsb' (8 * (p.pa % 4)) 8 else sysByte s p.pa
    | _ => homeByte s p.pa

/-- The pages among places, one for each sector. -/
def pagesAt (pls : List Place) : List Page := pls.foldl (init := []) fun l pl => match pl with
  | .page p => if l.any (fun q => q.pa / 16 == p.pa / 16) then l else l ++ [p]
  | _ => l

/-- What the reads of an engine or a fetch do at the places of their pages: at the home point the line is used (R135) and the read counts
towards heat (R213); at the memory side the home cleans its copy (R139); free bytes are drawn. -/
def usedPlaces (s : State) (a : Agent) (pls : List Place) : List Upd :=
  let ps := pagesAt pls
  let side := ps.filter fun p => pointOf p 1 = 3 && physRange p.pa != .sys
  let home := ps.filter fun p => pointOf p 1 != 3
  (if pls.any fun pl => match pl with
    | .tib off => decide (64 ≤ off)
    | _ => false then [.drawn 128] else []) ++
  (if ps.any fun p => a.user && physRange p.pa == .sys && supervisorOnly p.pa then [.drawn 16384] else []) ++
  ((side.map fun p => p.pa / 128).eraseDups.flatMap fun l =>
    cleanLine s l ((side.filter fun p => p.pa / 128 == l).map fun p => p.pa / 16 % 8)) ++
  (if home.isEmpty then [] else touchLines s (home.map fun p => p.pa / 128) :: home.flatMap (countRead s a))

/-- What allocating lines one after the other must wait for; what one leaves counts for the next. -/
def allocateAll (ctx : Nat) : List Page → State → Option (Wait × Report)
  | [], _ => none
  | p :: ps, s => match allocate s p ctx with
    | .error w => some w
    | .ok us => allocateAll ctx ps (s.applyAll (us.getD []))

/-- R153, R154: what an engine's writes to these places must wait for: unbacked lines that do not exist and cannot all be allocated
now, the quota before the sets. -/
def engineBlocked (s : State) (a : Agent) (pls : List Place) : Option (Wait × Report) :=
  let lines := (pls.filterMap fun pl => match pl with
    | .page p => if (p.kind = 1 ∨ p.kind = 2) ∧ (s.l2Line? (p.pa / 128)).isNone then some p else none
    | _ => none).foldl (init := ([] : List Page)) fun l p => if l.any (fun q => q.pa / 128 == p.pa / 128) then l else l ++ [p]
  if lines.isEmpty then none
  else match s.ctx? a.ctx with
    | none => none
    | some c =>
      if c.quota < unbackedCount s a.ctx + lines.length then some (.quota a.ctx, .uquota a.ctx)
      else allocateAll a.ctx lines s

/-- Bytes within one sector written on a page at its home point or the memory side, for a context, by an agent of the part that
stands at a die; or what the write must wait for. -/
def ctxWrite (s : State) (ctx die : Nat) (p : Page) (bs : List Byte) : Except (Wait × Report) (List Upd) :=
  writePlace s ⟨0, none, die, linkIssuer, false, false, linkIssuer, ctx, false, []⟩ (.page p) bs 0

/-- Physical writes of the resident kernel and the host through the home point. -/
def homeWrite (s : State) (pa : Nat) (bs : List Byte) : List Upd :=
  bs.zipIdx.flatMap fun (b, i) =>
    let q := pa + i
    beforeWrite (q / 128) ::
    (match (s.l2Line? (q / 128)).bind fun l => l.sec? (q / 16 % 8) with
      | some _ => [updLine (q / 128) fun l => { l with secs := l.secs.map fun x =>
          if x.i = q / 16 % 8 then { x with data := overlay x.data (q % 16) [b], dirty := true } else x, written := true }]
      | none => [.store q [b]]) ++
    [.part fun p => { p with rdc := p.rdc.filter fun c => c.sector != q / 16 }]

/-! ## Matches of the trip register and of watchpoints (R246, R247, R255) -/

/-- R246: the compared size of SIZE codes 0 to 3, in bytes. -/
def tripSize (ctl : Word) : Nat := match ctl.toNat / 64 % 4 with
  | 0 => 4
  | 1 => 8
  | 2 => 2
  | _ => 1

/-- R246: does a descriptor (LO, HI, VALUE, CTL) match an access: its kind (1 store, 2 atomic, 3 instruction), address,
size and value? An access matches by any of its bytes, an instruction by the address of its word. A watchpoint's CMP 3, which the spec
reserves and gives no effect, acts as "not equal" (DESIGN CHOICE, log 56). -/
def descMatches (lo hi value : Nat) (ctl : Word) (kind addr size val : Nat) : Bool :=
  let cmp := ctl.toNat / 16 % 4
  let m := 256 ^ size
  let eq := val % m == value % m
  ctl.toNat % 4 == kind && decide (lo ≤ if kind = 3 then addr else addr + size - 1) && decide (addr ≤ hi) &&
    (cmp == 0 || (tripSize ctl == size && (eq == (cmp == 1))))

/-- A match: where it was found and what it does. -/
inductive Match where
  /-- The core's trip register, with its ACT. -/
  | trip (core : Nat) (act : Nat)
  /-- Watchpoints of a microscope core, with its slot: those of ACT 0 and those of ACT 1. -/
  | watch (m : Nat) (slot : Nat) (traps stops : List Nat)
deriving DecidableEq, Repr

def State.trip (s : State) (core : Nat) : Trip := s.part.trips.toList.getD core Trip.zero

/-- R246, R255: the match of an access or instruction of a thread. -/
def findMatch (s : State) (t : TId) (kind addr size val : Nat) : Option Match :=
  let g := s.gr t.gid
  match g.hosted with
  | none =>
    if s.isSup t.team then none
    else
      let r := s.trip g.core
      let asid := match s.ctxOf t.team with
        | some c => c.asid
        | none => 0#16
      if r.ctl.toNat % 4 ≠ 0 ∧ r.asid = asid ∧ descMatches r.lo.toNat r.hi.toNat r.value.toNat r.ctl kind addr size val then
        some (.trip g.core (r.ctl.toNat / 4 % 4))
      else none
  | some h =>
    let hits : Nat → List Nat := fun act => (List.range 32).filter fun i =>
      let at_ := debugBase h.m + 0x1000 + 32 * i
      let ctl := BitVec.ofNat 32 (s.num (at_ + 0x18) 4)
      ctl.toNat % 4 != 0 && ctl.toNat / 4 % 4 == act &&
        descMatches (s.num at_ 8) (s.num (at_ + 8) 8) (s.num (at_ + 16) 8) ctl kind addr size val
    if (hits 0).isEmpty && (hits 1).isEmpty then none else some (.watch h.m h.slot.toNat (hits 0) (hits 1))

/-- R250: a microscope slot of a cluster that is free: the lower-numbered core, then the lower slot. -/
def freeSlot (s : State) (cluster : Nat) : Option Hosting :=
  [(2 * cluster, 0), (2 * cluster, 1), (2 * cluster + 1, 0), (2 * cluster + 1, 1)].findSome? fun (m, h) =>
    if ((s.micro m).slot h).gid.isNone then some ⟨BitVec.ofNat 5 m, BitVec.ofNat 1 h⟩ else none

/-- R247, R252: is there a microscope slot for one more group of a cluster, beside those that are on their way? -/
def slotOffered (s : State) (cluster : Nat) : Bool :=
  let taken := ((List.range 2).map fun k => ((s.micro (2 * cluster + k)).slots.toList.filter fun x => x.gid.isSome).length).sum
  let coming := (s.groups.filter fun g => g.shutter.isSome && g.hosted.isNone && clusterOf g.core == cluster && !s.isSup g.id.team &&
    (s.tm g.id.team).here).length
  decide (taken + coming < 4)

/-- R247: ONCE turns the register off when it fires. -/
def Trip.once (r : Trip) : Trip := if r.ctl.getLsbD 8 then { r with ctl := r.ctl &&& ~~~3#32 } else r
def tripOnce (core : Nat) : Upd := .part fun p => { p with trips := updAt p.trips core Trip.once }

/-- R247, R255: ONCE turns a watchpoint off when it fires. -/
def watchOnce (s : State) (m i : Nat) : List Upd :=
  let place := debugBase m + 0x1000 + 32 * i + 0x18
  let ctl := s.num place 4
  if ctl / 256 % 2 = 1 then [.store place (leBytes 4 (ctl / 4 * 4))] else []

/-- What a match asks of its thread. -/
inductive Fired where
  /-- WATCH with a reason. -/
  | raise (reason : Nat)
  | go
  | stop
deriving DecidableEq, Repr

/-- R247, R255: what a match does, and what it asks of its thread. -/
def matchFired (s : State) (t : TId) (m : Match) : Fired × List Upd :=
  match m with
  | .trip core act =>
    if act = 0 then (.raise 0, [tripOnce core])
    else if (s.gr t.gid).shutter.isSome then (.go, [tripOnce core])
    else if !slotOffered s (clusterOf core) then (.raise 2, [tripOnce core])
    else (.go, [tripOnce core, .group t.gid (fun g => { g with shutter := some (act == 2) }), .event (.shutterClose t.gid)])
  | .watch m h traps stops =>
    (if traps.isEmpty then .stop else .raise 1,
      (traps ++ stops).flatMap (watchOnce s m) ++ (match stops with
        | [] => []
        | i :: _ => [.micro m fun k => { k with slots := updAt k.slots h fun x => { x with stop := true, hit := some (BitVec.ofNat 5 i) } }]))

/-- R247, R255: a match at an instruction or an access that is performed now. `raise` takes WATCH with a reason; a shutter lets the
thread go on with `go`, a stop with `held`. -/
def fireMatch (t : TId) (m : Match) (raise : Nat → Eff) (go held : Eff) : Eff := .read fun s =>
  let r := matchFired s t m
  .seq (.upds r.2) (match r.1 with
    | .raise n => raise n
    | .go => go
    | .stop => held)

/-- R234: WATCH on a store or atomic, after it is performed: the resume word is the thread's next word. The matched address is the
access's own address, also where only a later byte of it lies in the range (DESIGN CHOICE, log 56). -/
def watchAccess (t : TId) (kind addr size val : Nat) : Eff := .read fun s =>
  match findMatch s t kind addr size val with
  | none => .nothing
  | some m => fireMatch t m (fun r => .read fun s => takeTrap t cWatch (BitVec.ofNat 64 addr) r (s.th t).widx) .nothing .nothing

/-! ## Write-combining (R140, R176) -/

/-- R234, R247: the matches of stores that a drain performs, in order; a WATCH is taken before the thread's next instruction. -/
def drainMatches (t : TId) : List (BitVec 64 × Nat × Nat) → State → List Upd
  | [], _ => []
  | (va, n, v) :: xs, s =>
    let us := match findMatch s t 1 va.toNat n v with
      | none => []
      | some m =>
        let r := matchFired s t m
        r.2 ++ (match r.1 with
          | .raise c => [.thread t fun x => { x with watch := x.watch.or (some (va, c)) }]
          | _ => [])
    us ++ drainMatches t xs (s.applyAll us)

/-- R136: the L1 copies of a core are updated by its own writes of bytes. -/
def updateL1 (core : Nat) (bytes : List (Nat × Byte)) : Upd := .part fun p =>
  { p with l1 := p.l1.map fun x =>
      if x.owner = core then bytes.foldl (fun x c => if c.1 / 16 = x.sector then { x with data := overlay x.data (c.1 % 16) [c.2] } else x) x
      else x }

/-- A thread's buffer is written at the memory side, where the home has cleaned its copies (R139); its core's L1 copies are updated (R136),
and RDC copies end as after any write. -/
def drainBuffer (s : State) (t : TId) : List Upd :=
  match (s.th t).wcBuf with
  | none => []
  | some b =>
    let secs := (List.range 8).filter fun i => b.bytes.any fun c => c.1 / 16 == b.line * 8 + i
    [beforeWrite b.line] ++ cleanLine s b.line secs ++ [.stores b.bytes, .thread t fun x => { x with wcBuf := none }] ++
      (if (agentOf s t).copies then ((agentOf s t).core.map fun c => updateL1 c b.bytes).toList else []) ++
      (secs.flatMap fun i => copiesAfterWrite s { agentOf s t with copies := false } 0 ((b.line * 8 + i) * 16) []) ++
      drainMatches t b.accs s

/-- R178, R166: the thread's stores before a command, a release or a fence are performed. -/
def drained (t : TId) (go : Eff) : Eff := .seq (.act fun s => drainBuffer s t) go

/-- R140: a store at `va` to a write-combining page enters the thread's own buffer; another line drains the old one; a core has 8
buffers and drains its oldest. -/
def combine (s : State) (t : TId) (pa : Nat) (bs : List Byte) (va : BitVec 64) : Eff :=
  let x := s.th t
  let line := pa / 128
  let acc := (va, bs.length, leNat bs)
  match x.wcBuf with
  | some b =>
    if b.line = line then
      .upds [.thread t fun x => { x with wcBuf := some { b with bytes := b.bytes ++ cells pa bs, accs := b.accs ++ [acc] } }]
    else drained t (openBuffer line acc)
  | none => openBuffer line acc
where
  openBuffer (line : Nat) (acc : BitVec 64 × Nat × Nat) : Eff := .act fun s =>
    let place := (agentOf s t).issuer
    let open_ := s.threads.filter fun y => y.wcBuf.isSome && (agentOf s y.id).issuer == place
    let old := open_.foldl (init := (none : Option Thread)) fun b y => match b, y.wcBuf with
      | some z, some yb => (match z.wcBuf with
        | some zb => if yb.since < zb.since then some y else b
        | none => some y)
      | _, _ => some y
    (if open_.length < 8 then [] else match old with
      | some y => drainBuffer s y.id
      | none => []) ++
    (.thread t fun x => { x with wcBuf := some ⟨line, cells pa bs, s.time, [acc]⟩ }) ::
    (if s.events.contains (.wcDrainTimeout t) then [] else [.event (.wcDrainTimeout t)])

end Sys2Proof.Machine
end

