-- ==== Sys2Proof/Machine/Issue.lean ====
section
/-! DEFINITION. What every instruction does around its own effect (R235): the instruction-address match, the register
allocation, the poison it consumes, its trace record on a microscope core (R104); and how instructions of formats M and E
count their wait counter (R55). -/

namespace Sys2Proof.Machine

/-! ## Trace records (R104, R256) -/

/-- The implicit header of a generation-1 clause (R104, R77). -/
def implicitHeader (i : Instr) : Word := BitVec.ofNat 32 (0xA707F800 + 0x100 * classOf i.major + i.len)

/-- The predicate an instruction writes when it writes no register (R104). -/
def writesPred : Instr → Option PReg
  | .cmpi p _ _ _ | .cmpf p _ _ _ | .voteAny p _ _ | .voteAll p _ _ | .elect p _ | .ptest p _ | .grow p _ | .kset _ _ p
  | .ctxsv _ _ p | .ctxld _ p | .migrate _ p => some p
  | _ => none

/-- The predicate an instruction reads (R104). -/
def readsPred : Instr → Option PReg
  | .bra p _ _ | .brx _ p _ | .call p _ _ | .ifp _ p _ => some p
  | _ => none

/-- The registers an instruction reads: those it names, but for a destination that is no source. COPY and COPYG read their run and write
vq. -/
def readsOf (i : Instr) (w : Nat) : List VReg := match i with
  | .copy c _ _ _ _ _ => regsFrom c 11
  | .copyg c _ _ _ _ _ => regsFrom c 13
  | _ => if i.sources.2.2.isSome then i.names w else (i.names w).drop (i.dst w).length

/-- The operation of a thread that an instruction has left outstanding, between two states. -/
def newOp (s s' : State) (t : TId) : Option Op := s'.part.ops.find? fun o => o.t == t && decide (s.nextId ≤ o.id)

/-- The value an instruction wrote, as far as it is known when it has executed: the delivery that is outstanding, its destination, or
its predicate as 1 or 0 (R104). -/
def writtenNow (s s' : State) (t : TId) (i : Instr) : List Word :=
  match (newOp s s' t).bind Op.dlv with
  | some d => d.vals.getD []
  | none => match i with
    | .movgToG g _ => [((s'.gr t.gid).reg g).val]
    | _ =>
      if (i.dst (s.gr t.gid).w).isEmpty then ((writesPred i).map fun p => (BitVec.ofBool ((s'.th t).pred p).val).setWidth 32).toList
      else (i.dst (s.gr t.gid).w).map fun r => (s'.th t).val r

/-- R104, FLAGS bit 2: does an instruction read poison? -/
def sourcePoison (s : State) (t : TId) (i : Instr) : Bool :=
  let x := s.th t
  (readsOf i (s.gr t.gid).w).any (fun r => (x.reg r).poison) || (readsPred i).any (fun p => (x.pred p).poison) ||
    (match i with
      | .movgFromG _ g => ((s.gr t.gid).reg g).poison
      | _ => false)

/-- Does an operation deliver poison (R147)? -/
def Op.isPoisoned (o : Op) : Bool := match o.job with
  | .poisoned _ => true
  | _ => false

/-- R104, FLAGS bit 3: is what an instruction wrote poisoned? Data that is still to come is not, but for that of a load whose fault is not
resolved. -/
def resultPoison (s s' : State) (t : TId) (i : Instr) : Bool :=
  (newOp s s' t).any Op.isPoisoned || ((newOp s s' t).bind Op.dlv).isNone &&
    ((i.dst (s.gr t.gid).w).any (fun r => ((s'.th t).reg r).poison) || (writesPred i).any (fun p => ((s'.th t).pred p).poison) ||
      (match i with
        | .movgToG g _ => ((s'.gr t.gid).reg g).poison
        | _ => false))

/-- R104: the record of instruction `i` of thread `t`, from the states before and after it. A WATCH that follows a performed access
leaves its result. -/
def traceBytes (s s' : State) (t : TId) (i : Instr) (void : Bool) : List Byte :=
  let x := s.th t
  let y := s'.th t
  let c := x.clause.getD ⟨0#32, [], true⟩
  let val : Option VReg → Nat := fun r => match r with
    | some r => (x.val r).toNat
    | none => 0
  let opa := match i with
    | .movgFromG _ g => ((s.gr t.gid).reg g).val.toNat
    | _ => val i.sources.1
  let trapped := !x.inh && y.inh || y.run == .waiting .fault
  let undone := void || trapped && (newOp s s' t).isNone
  let res := if undone then [] else writtenNow s s' t i
  let flags := (if void then 1 else 0) + (if trapped then 2 else 0) + (if sourcePoison s t i then 4 else 0) +
    (if !undone && resultPoison s s' t i then 8 else 0) + (if res.length = 2 then 16 else 0)
  let addr := match i.address with
    | some (a, off) => (x.val64 a + off.signExtend 64).toNat
    | none => 0
  leBytes 8 ((wordAddr x.pc c.implicit x.widx).toNat % 2 ^ 56 + (x.widx % 16) * 2 ^ 56) ++
  leBytes 4 (if c.implicit then implicitHeader i else c.hdr).toNat ++ leBytes 4 i.word.toNat ++ leBytes 8 (s.cycleOf t) ++
  leBytes 2 (s.tid t) ++ leBytes 1 flags ++ leBytes 1 (s.tm t.team).gen ++ leBytes 4 i.extWord.toNat ++
  leBytes 4 opa ++ leBytes 4 (val i.sources.2.1) ++ leBytes 4 (val i.sources.2.2) ++ leBytes 4 0 ++
  leBytes 8 ((res.headD 0#32).toNat + (res.getD 1 0#32).toNat * 2 ^ 32) ++ leBytes 8 addr

/-- R256: TRCTL after a record: NEXT advances modulo 4,096; when it wraps, FULL is set and, without WRAP, capture stops. -/
def nextTrctl (v : Word) : Word :=
  let n := v.toNat % 4096
  let v1 := BitVec.ofNat 20 (v.toNat / 4096) ++ BitVec.ofNat 12 (n + 1)
  if n + 1 = 4096 then
    (v1 ||| 0x20000000#32) &&& (if v.getLsbD 30 then 0xFFFFFFFF#32 else 0x7FFFFFFF#32)
  else v1

/-- R256: the record of an instruction that a thread of the traced slot has executed between two states. -/
def traceRecord (s : State) (t : TId) (i : Instr) (void : Bool) : Eff := .act fun s' =>
  match (s.gr t.gid).hosted with
  | none => []
  | some h =>
    let v := (s'.micro h.m).trctl
    if v.getLsbD 31 ∧ v.getLsbD 28 = h.slot.getLsbD 0 then
      [.store (debugBase h.m + 0x40000 + 64 * (v.toNat % 4096)) (traceBytes s s' t i void),
       .micro h.m fun k => { k with trctl := nextTrctl v }]
    else []

/-- Is a thread's instruction held back, not executed: it waits to issue, or its fault is with the resident kernel? One whose trap is a
team fault has been executed. -/
def Run.heldBack : Run → Bool
  | .waiting w => match w with
    | .sleep _ | .sleepu _ | .grow | .idle | .fault => false
    | _ => true
  | .offered _ _ => true
  | _ => false

/-- A thread's instruction with its trace record: TRACE writes it before it takes effect (R256), unless it is held back. -/
def traced (t : TId) (i : Instr) (body : Eff) : Eff := .read fun s =>
  if (s.gr t.gid).hosted.isNone then body
  else match i with
    | .trace _ => if ((body.run s).th t).run.heldBack then body else .seq (traceRecord s t i false) body
    | _ => .seq body (.read fun s' => if (s'.th t).run.heldBack then .nothing else traceRecord s t i false)

/-! ## The order of causes (R235) -/

/-- R25: the first register an instruction names at or beyond the allocation. -/
def beyond (s : State) (t : TId) (i : Instr) : Option Nat :=
  let g := s.gr t.gid
  match (i.names g.w).find? fun r => decide (g.n ≤ r.toNat) with
  | some r => some r.toNat
  | none => if i.pastEnd g.w then some 128 else none

/-- The first poisoned predicate of a list. -/
def Thread.poisonedP (x : Thread) : List PReg → Option (BitVec 3)
  | [] => none
  | p :: ps => if (x.pred p).poison then some (x.pred p).idx else x.poisonedP ps

/-- Steps 3 to 5 of R235: allocation, poison consumed, then the instruction's own checks and effect. -/
def afterMatch (i : Instr) (eats : List VReg) (ps : List PReg) (body : TId → Eff) (t : TId) : Eff := .read fun s =>
  match beyond s t i with
  | some r => illegal t r
  | none => match (s.th t).poisoned eats with
    | some k => poisonTrap t k
    | none => match (s.th t).poisonedP ps with
      | some k => poisonTrap t k
      | none => body t

/-- The address of the word at which a thread stands. -/
def Thread.wordAt (x : Thread) : BitVec 64 := wordAddr x.pc (x.clause.any Clause.implicit) x.widx

/-- R246, R255: an instruction-address match at address `addr` of word `w`; the executions of a REPEAT's target were judged
at the REPEAT (R421). -/
def matchHere (s : State) (t : TId) (addr : Nat) (w : Word) : Option Match :=
  if (s.th t).noMatch ∨ (s.th t).rep.isSome then none else findMatch s t 3 addr 4 w.toNat

/-- R255: a thread stopped by an instruction-address watchpoint; its instruction will not match again. -/
def holdStopped (t : TId) : Eff := .upds [.thread t fun x => { x with run := .waiting .stopped, noMatch := true }]

/-- Step 2 of R235: WATCH on the instruction's address. -/
def watchInstr (t : TId) (addr : Nat) (w : Word) (go : Eff) : Eff := .read fun s =>
  match matchHere s t addr w with
  | none => go
  | some m => fireMatch t m (fun r => .read fun s => takeTrap t cWatch (BitVec.ofNat 64 addr) r (s.th t).widx) go (holdStopped t)

/-- One thread's issue of an instruction. `eats` are the registers whose poison it consumes, `ps` the predicates (R149). -/
def issueThread (i : Instr) (eats : List VReg) (ps : List PReg) (body : TId → Eff) (t : TId) : Eff :=
  traced t i <| .read fun s => watchInstr t (s.th t).wordAt.toNat i.word (afterMatch i eats ps body t)

/-- The issue of an instruction by the current issue group, each thread as if alone (R15). -/
def issue (i : Instr) (eats : List VReg) (ps : List PReg) (body : TId → Eff) : Eff :=
  perThread (issueThread i eats ps body)

/-! ## Formats M and E (R55, R60) -/

/-- The next name, for an operation or an issue. -/
def State.tokenFree (s : State) (tok : Nat) : Bool := !(s.part.ops.any fun o => o.tok == tok)

/-- The issue of an instruction that counts wait counter `wc`: it is held while the counter stands at 63; the counter rises
once for the threads of the group that issue it and do not trap, and falls when the last of their operations completes. -/
def issueCounted (i : Instr) (wc : BitVec 3) (eats : List VReg) (body : Nat → TId → Eff) : Eff := .read fun s =>
  if (s.gr s.cur.gid).counter wc = 63#6 then perThread fun t => .wait t .counterFull
  else
    let tok := s.nextId
    .seq (.upds [.named 1, .counting (some tok)]) <| .seq (issue i eats [] (body tok)) <| .act fun s' =>
      .counting none :: if s'.tokenFree tok then [] else [incCounter s'.cur.gid wc]

/-- A new outstanding operation of a thread, and the event that will complete it. -/
def addOp (tok : Nat) (t : TId) (wc : BitVec 3) (dlv : Option Delivery) (line : Option Nat) (core : Nat) (job : Job)
    (ev : Nat → Option Instr) : Eff := .act fun s =>
  [.addOp ⟨s.nextId, tok, t, some wc, dlv, line, core, job⟩, .named 1] ++
  (match ev s.nextId with
    | some e => [.event e]
    | none => [])

/-- R178: an engine command, which is performed after the thread's stores before it; its completion is the thread's to observe. -/
def commanding (wc : BitVec 3) (body : Nat → TId → Eff) (tok : Nat) (t : TId) : Eff :=
  drained t (.seq (.upds [.thread t fun x => { x with cmpl := x.cmpl ||| (1#8 <<< wc.toNat) }]) (body tok t))

/-- R178: a thread observes the counters of a mask at zero: what engine commands on them wrote is what its next reads find. -/
def observe (t : TId) (mask : BitVec 8) : Eff := .act fun s =>
  if (s.th t).cmpl &&& mask = 0#8 then []
  else acquire s t ++ [.thread t fun x => { x with cmpl := x.cmpl &&& ~~~mask }]

/-- The number of the core whose miss-status entries an agent uses; none has this one. -/
def entryCore (a : Agent) : Nat := match a.core with
  | some c => if a.copies then c else 0xFFFF
  | none => 0xFFFF

/-- A register result that an instruction's completion writes (R60 to R62, R317). -/
def returns (tok : Nat) (t : TId) (wc : BitVec 3) (r : VReg) (vs : List Word) (la : Nat) : Eff :=
  addOp tok t wc (some ⟨r, vs.length, some vs, la⟩) none 0xFFFF .result fun id => some (.loadReturn id)

/-- R147: a load whose fault is not resolved is done: its record takes the fault; its destination, zero and poisoned, is written when it
completes. -/
def poisonLoad (i : Instr) (tok : Nat) (t : TId) (wc : BitVec 3) (d : VReg) (dst : List VReg) (va : BitVec 64) (reason la : Nat) : Eff :=
  .read fun s =>
    let k := freeRecord s t dst
    .seq (.upds (takeRecord t k va reason i.major)) <| .seq (.done t i.len) <|
      addOp tok t wc (some ⟨d, dst.length, some (dst.map fun _ => 0#32), la⟩) none 0xFFFF (.poisoned (BitVec.ofNat 3 k)) fun id => some (.loadReturn id)

/-- A delivery of known values. -/
def delivers (r : VReg) (vs : List Word) (la : Nat) : Option Delivery := some ⟨r, vs.length, some vs, la⟩

/-- R60: does a thread's instruction have to wait for a register that an operation beyond its window will write? A
cross-lane instruction waits for every write of its sources (R63). -/
def interlocked (s : State) (t : TId) (names : List VReg) (cross : Bool) : Bool :=
  s.part.ops.any fun o => o.t == t && (match o.dlv with
    | some d => (d.win == 0 || cross) && names.any fun r => decide (d.reg.toNat ≤ r.toNat ∧ r.toNat < d.reg.toNat + d.n)
    | none => false)

end Sys2Proof.Machine
end

