-- ==== Sys2Proof/Machine/Fetch.lean ====
section
/-! DEFINITION. Fetching a clause whole and checking it (R48 to R53, R64 to R68, R73 to R77), entering it, at its header or at
the word ERET names (R238), and which threads may issue (R14, R17, R60). -/

namespace Sys2Proof.Machine

/-! ## Fetching -/

/-- A word of code at a virtual address, or the reason of its fault (R53), and the translations cached; its line is used
(R135). -/
def fetchWord (s : State) (a : Agent) (va : BitVec 64) : Except Nat Word × List Upd :=
  match translate s a .fetch va 4 with
  | (.ok (.page p), us) =>
    (.ok (BitVec.ofNat 32 (leNat ((List.range 4).map fun i => placeByte s a (.page { p with pa := p.pa + i })))), us ++ [touchLines s [p.pa / 128]])
  | (.ok _, us) => (.error rLocal, us)
  | (.error r, us) => (.error r, us)

/-- `n` words from an address; the first fault has its address. -/
def fetchWords (s : State) (a : Agent) (va : BitVec 64) : Nat → Except (Nat × BitVec 64) (List Word) × List Upd
  | 0 => (.ok [], [])
  | n + 1 =>
    match fetchWord s a va with
    | (.error r, us) => (.error (r, va), us)
    | (.ok w, us) =>
      let rest := fetchWords s a (va + 4#64) n
      (rest.1.map fun ws => w :: ws, us ++ rest.2)

/-! ## Checking (R50) -/

/-- An instruction word of a clause: its word index, the word as it stands and as generation 3 reads it (none: it has no generation-3
reading), the generation-3 major that its own stands for, and its extension word. -/
structure Item where
  widx : Nat
  raw  : Word
  w    : Option Word
  maj  : Option Nat
  x    : Option Word
deriving DecidableEq, Repr

/-- R58: the items of the words of a clause; extension words are skipped. -/
def itemsOf (gen : Nat) : Bool → Nat → List Word → List Item
  | _, _, [] => []
  | true, i, _ :: ws => itemsOf gen false (i + 1) ws
  | false, i, w :: ws =>
    let g := genWord gen w
    let x := g.any hasExtension
    let maj := if gen = 3 then some (field w 26 6).toNat else (gen2Major (field w 26 6).toNat).map BitVec.toNat
    ⟨i, w, g, maj, if x then ws.head? else none⟩ :: itemsOf gen x (i + 1) ws

/-- The instruction of an item. A last word whose extension word is missing is read with one that its entry accepts, if any
does: that fault is ICLAUSE (R50). -/
def Item.instr (it : Item) : Option Instr :=
  match it.w with
  | none => none
  | some w =>
    if hasExtension w && it.x.isNone then
      [0#32, 0x10000#32, 1#32].findSome? fun x => (decodeWord w x).toOption
    else (decodeWord w (it.x.getD 0#32)).toOption

def Item.missing (it : Item) : Bool := it.w.any hasExtension && it.x.isNone

/-- R64, R66: how many items a count of `c` covers; none when the clause ends first. A REPEAT and its target count as one. -/
def covers : Nat → List Item → Option Nat
  | 0, _ => some 0
  | _ + 1, [] => none
  | c + 1, [_] => if c = 0 then some 1 else none
  | c + 1, it :: nx :: rest =>
    match it.instr with
    | some (.repeatN _ _ _) => (covers c rest).map (· + 2)
    | _ => (covers c (nx :: rest)).map (· + 1)

/-- R67: the stride of code SC. -/
def strideOf (sc : BitVec 2) : Nat := 2 ^ sc.toNat

/-- R68: is a REPEAT with mask `sm`, stride `st` and `n` executions ill-formed over its target? The target must be of a
repeatable major; format I has no field b, MOVI no field a; a stepped field stays at most 127, and every stepped word is an
instruction (R67, R392). A target that is itself no instruction fails at its own word. -/
def repeatBad (sm : BitVec 3) (st n : Nat) (it : Item) : Bool :=
  let w := it.w.getD it.raw
  match it.maj with
  | none => true
  | some m =>
    let formatI := (3 ≤ m && decide (m ≤ 6)) || m == 8 || m == 9
    let past : Nat → BitVec 7 → Bool := fun b v => sm.getLsbD b && decide (127 < v.toNat + st * (n - 1))
    !repeatableMajor m || (formatI && sm.getLsbD 2) || (m == 8 && sm.getLsbD 1) ||
      past 0 (field w 19 7) || past 1 (field w 12 7) || past 2 (field w 5 7) ||
      (it.instr.isSome && (List.range n).any fun k => !(decodeWord (steppedWord w sm st k) (it.x.getD 0#32)).isOk)

/-- R50: the first failing check of the words of a clause of class `c`, with the word index; `cov` items are still covered by
an earlier IFP. A generation-1 instruction has its own class, and raises no ICLAUSE (R77). -/
def checkItems (user gen1 : Bool) (c : Nat) : Nat → List Item → Option (Nat × Nat)
  | _, [] => none
  | cov, it :: rest =>
    match it.instr with
    | none => some (cIllegal, it.widx)
    | some i =>
      let repBad := match i, rest with
        | .repeatN sm sc n, nx :: _ => repeatBad sm (strideOf sc) (n.toNat + 1) nx
        | _, _ => false
      let range := match i with
        | .ifp _ _ n => covers n.toNat rest
        | _ => some 0
      let isIfp := i.major == 0x14
      let isRep := i.major == 0x15
      if repBad then some (cIllegal, it.widx)
      else if user && (i.major == 0x33 || i == .halt || i == .idle) then some (cPriv, it.widx)
      else if !gen1 && (!i.accepted c || (i.transfers && !rest.isEmpty) || it.missing || (isIfp && (range.isNone || decide (0 < cov))) ||
          (isRep && rest.isEmpty)) then some (cIclause, it.widx)
      else checkItems user gen1 c (max (cov - 1) (range.getD 0)) rest

/-- R49, R50: does a header fail its checks? -/
def headerBad (h : Word) : Bool :=
  field h 24 8 != 0xA7#8 || field h 20 4 != 0#4 || field h 4 4 != 0#4 || field h 8 3 == 7#3 || field h 0 4 == 0#4

/-- What entering a clause meets. -/
inductive Entry where
  /-- A translation fault: reason and address (R53). -/
  | fault (r : Nat) (va : BitVec 64)
  /-- A failed check: cause and TVAL. -/
  | bad (cause : Nat) (tval : BitVec 64)
  | ok (c : Clause)
deriving DecidableEq, Repr

/-- The words of a clause as generation 3 reads them; extension words stay as they are. -/
def mapWords (gen : Nat) : Bool → List Word → List Word
  | _, [] => []
  | true, w :: ws => w :: mapWords gen false ws
  | false, w :: ws =>
    let g := (genWord gen w).getD w
    g :: mapWords gen (hasExtension g) ws

/-- The clause at an address, fetched and checked, with the translations cached. A header that fails its checks is reported
before the words after it are fetched. -/
def fetchClause (s : State) (t : TId) (pc : BitVec 64) : Entry × List Upd :=
  let a := agentOf s t
  let gen := (s.tm t.team).gen
  if pc.toNat % 4 ≠ 0 then (.bad cAlign pc, [])
  else match fetchWord s a pc with
    | (.error r, us) => (.fault r pc, us)
    | (.ok h, us) =>
      if gen = 1 then
        match genWord 1 h with
        | none => (.bad cIllegal 1#64, us)
        | some w =>
          let n := if hasExtension w then 1 else 0
          match fetchWords s a (pc + 4#64) n with
          | (.error (r, va), vs) => (.fault r va, us ++ vs)
          | (.ok xs, vs) =>
            match checkItems a.user true 0 0 (itemsOf 1 false 1 (h :: xs)) with
            | some (c, _) => (.bad c 1#64, us ++ vs)
            | none => (.ok ⟨0#32, w :: xs, true⟩, us ++ vs)
      else if headerBad h then (.bad cIclause 0#64, us)
      else match fetchWords s a (pc + 4#64) (field h 0 4).toNat with
        | (.error (r, va), vs) => (.fault r va, us ++ vs)
        | (.ok ws, vs) =>
          match checkItems a.user false (field h 8 3).toNat 0 (itemsOf gen false 1 ws) with
          | some (c, i) => (.bad c (BitVec.ofNat 64 i), us ++ vs)
          | none => (.ok ⟨h, mapWords gen false ws, false⟩, us ++ vs)

/-! ## The instruction at a thread's word -/

/-- Is word `i` of a clause an instruction word? -/
def Clause.isInstr (c : Clause) (i : Nat) : Bool := (itemsOf 3 false 1 c.words).any fun it => it.widx == i

/-- R238: the IFP whose range covers word `w` of a clause: how many of its covered instructions, counted from that word, are
left. `k` items are still covered where the list begins. -/
def coveredFrom (w : Nat) : Nat → List Item → Option Nat
  | _, [] => none
  | k, [it] => if it.widx = w ∧ 0 < k then some k else none
  | k, it :: nx :: rest =>
    if it.widx = w then (if 0 < k then some k else none)
    else match it.instr with
      | some (.ifp _ _ c) => coveredFrom w c.toNat (nx :: rest)
      | some (.repeatN _ _ _) => if nx.widx = w then (if 0 < k then some k else none) else coveredFrom w (k - 1) rest
      | _ => coveredFrom w (k - 1) (nx :: rest)

/-- R64, R379: does the thread enter a clause at a word that an IFP covers which its poisoned guard has made void? -/
def Thread.voidedHere (c : Clause) (x : Thread) : Bool := x.ifpVoid.any fun (pc, k, n) =>
  let rest := (itemsOf 3 false 1 c.words).filter fun it => decide (k < it.widx)
  pc == x.pc && decide (k < x.widx) && (coveredFrom x.widx n rest).isSome &&
    !rest.any fun it => decide (it.widx < x.widx) && it.instr.any fun i => i.major == 0x14

/-- R238: the guard with which a thread enters a clause inside a range. -/
def Thread.guardAt (c : Clause) (x : Thread) : Option Bool := x.resumeG.or (if x.voidedHere c then some false else none)

/-- A thread that enters a clause that passed its checks, at its word; past the clause, it goes on at the word after. Where IFPV = 0,
the words that an IFP covers which its poisoned guard has made void are void all the same (R64, R379). -/
def Thread.enter (c : Clause) (x : Thread) : Thread :=
  let x := { x with clause := some c, kept := false, resumeG := x.guardAt c, ifpVoid := x.ifpVoid.filter fun v => v.1 != x.pc }
  if c.count < x.widx then { x.goTo (nextClause x.pc c) with noMatch := false }
  else match x.resumeG with
    | none => x
    | some g => match coveredFrom x.widx 0 (itemsOf 3 false 1 c.words) with
      | some n => { x with ifpN := n, ifpG := g, resumeG := none }
      | none => { x with resumeG := none }

/-! ## Eligibility (R14) -/

/-- R258: a thread of a group that is not hosted, in the team of a hosted group in pavane mode, keeps its distance. -/
def paced (s : State) (x : Thread) : Bool :=
  (s.gr x.id.gid).hosted.isNone && (s.teamGroups x.id.team).any fun g => match g.hosted with
    | none => false
    | some h => ((s.micro h.m).slot h.slot.toNat).pav &&
        decide (s.cycleOf x.id < x.last + max 1 ((s.micro h.m).pavane.toNat % 16))

/-- R242, R250, R253, R255: must the thread stop at its resume points? STEP lets it run a clause under STOP. -/
def stopAsked (s : State) (x : Thread) : Bool :=
  let g := s.gr x.id.gid
  (s.tm x.id.team).stopping || (s.tm x.id.team).res != .resident || g.shutter.isSome || g.homing ||
    (match g.hosted with
      | some h => ((s.micro h.m).slot h.slot.toNat).stop && !x.mayStep
      | none => false)

/-- Is an operation of OBRES or OBREL outstanding? -/
def Op.isRecord (o : Op) : Bool := match o.job with
  | .obres _ _ => true
  | _ => false

/-- Is an operation an ACCLD or ACCST? -/
def Op.isAcc (o : Op) : Bool := match o.job with
  | .accld _ | .accst _ => true
  | _ => false

/-- R320: the accumulator rows an instruction of major 0x2B touches, from the thread's address register, and whether it writes them. -/
def accRows (x : Thread) : Instr → Option (Nat × Nat × Bool)
  | .accz _ _ n row => some (row.toNat, n.toNat, true)
  | .accld _ _ _ _ n _ row => some (row.toNat, n.toNat, true)
  | .accst _ _ _ _ n _ row => some (row.toNat, n.toNat, false)
  | .accrd _ a _ _ => some ((x.val a).toNat % 2 ^ 19 / 64, 1, false)
  | _ => none

/-- R320: the rows of an ACCLD or ACCST that has not moved its elements, and whether it writes them. -/
def Op.accRows (o : Op) : Option (Nat × Nat × Bool) := match o.job with
  | .accld j => some (j.row, j.n, true)
  | .accst j => some (j.row, j.n, false)
  | _ => none

/-- R320: an instruction of major 0x2B waits for the thread's earlier ACCLD or ACCST on a common row, unless neither writes it: the
commands of one thread act on a row in their order of issue. -/
def rowsBusy (s : State) (x : Thread) (i : Instr) : Bool := match accRows x i with
  | none => false
  | some (r, n, w) => s.part.ops.any fun o => o.t == x.id && (match o.accRows with
    | none => false
    | some (r', n', w') => (w || w') && decide (r < r' + n') && decide (r' < r + n))

/-- Is a thread's next instruction free of interlocks: its clause is fetched, faulty or with its counters drained; nothing holds the
instruction at issue; no register it names is awaited (R14, R60), nor an accumulator row (R320)? -/
def unlocked (s : State) (x : Thread) : Bool :=
  let free : Clause → Thread → Bool := fun c x =>
    if x.voided then true
    else
      let i := c.instrAt x.widx x.rep
      !heldBack s x.id i && (issueWait s x i).isNone && !rowsBusy s x i && !interlocked s x.id (i.names (s.gr x.id.gid).w) i.crossLane
  match x.clause with
  | some c => free c x
  | none => match (fetchClause s x.id x.pc).1 with
    | .ok c =>
      let y := x.enter c
      y.clause.isNone || !c.isInstr y.widx || ((s.gr x.id.gid).drained c.wait && free c y)
    | _ => true

/-- R242, R353: does a thread stand at its resume point? One that ERET has sent into a clause beyond its first word goes on to the next
point, unless the counters of the header hold it where it stands (R238). -/
def Thread.stands (s : State) (x : Thread) : Bool :=
  x.atResume s || (x.run == .running && x.clause.isNone && !unlocked s x)

/-- Are all threads of a team at their resume points, with no record write (R193) and no accumulator command outstanding that a save
must complete? -/
def teamQuiet (s : State) (k : Nat) : Bool :=
  (s.teamThreads k).all (Thread.stands s) && !s.part.ops.any fun o => o.t.team == k && (o.isRecord || o.isAcc)

/-- R346: the team that LAUNCHID and TEAMIDX name in a context. -/
def teamNamed (s : State) (ctx : Nat) (launch idx : Word) : Option Team :=
  s.teams.find? fun x => x.sup.isNone && x.ctx == ctx && x.idx == idx.toNat &&
    s.part.launches.any fun l => l.key == x.launch && l.ctx == ctx && l.id == launch.toNat

/-- R439, R440: may an access at a place of a page have been translated through an entry that a TLBINV drops: for `.page` the page of its
address, for `.asid` that of its team's context? -/
def mayDrop (s : State) (k : Nat) (sel : BitVec 2) (asid : BitVec 16) (va : Nat) : Place → Bool
  | .page p => match sel.toNat with
    | 0 => p.va / p.size == va / p.size
    | 1 => (s.ctxOf k).any fun c => c.asid == asid
    | _ => true
  | _ => false

/-- R440: is a command in flight, of a team that goes on, on a page that a TLBINV names (log 46)? -/
def inFlight (s : State) (sel : BitVec 2) (asid : BitVec 16) (va : Nat) : Bool := s.part.ops.any fun o =>
  teamWorks s o.t.team && (o.places s).any (mayDrop s o.t.team sel asid va)

/-- Is what TLBINV, CTXSV or CTXLD waits for over (R346, R440)? -/
def flightOver (s : State) (x : Thread) : Instr → Bool
  | .tlbinv n a sel => !inFlight s sel ((x.val n).setWidth 16) (x.val64 a).toNat
  | .ctxsv t _ _ => match teamNamed s (ctxNum s x.id.team) (x.val t) (x.val (t + 1#7)) with
    | some y => y.res != .resident || teamQuiet s y.key
    | none => true
  | _ => true

/-- May a thread that waits try its instruction again: is its interlock met (R14)? Waits that an event ends are not retried. -/
def retryable (s : State) (x : Thread) : Wait → Bool
  | .counters | .counterFull | .matrix | .opfence | .pending | .chain | .windows => (issueWait s x x.instr).isNone
  | .mshr g _ => g
  | .inFlight => flightOver s x x.instr
  | .quota c => !s.part.reports.contains (.uquota c)
  | .evict c va => !s.part.reports.contains (.uevict c va)
  | .idle => !s.part.reports.isEmpty
  | .stopped => match (s.gr x.id.gid).hosted with
    | some h => !((s.micro h.m).slot h.slot.toNat).stop || x.mayStep
    | none => true
  | .rendezvous | .sleep _ | .sleepu _ | .grow | .queue | .fault => false

/-- Would a thread be eligible if its group were active (R17)? -/
def ready (s : State) (x : Thread) : Bool :=
  (match x.run with
    | .running => true
    | .waiting w => retryable s x w
    | _ => false) && (!stopAsked s x || !x.stands s) &&
  (s.tm x.id.team).here && !paced s x && unlocked s x

/-- R14, R17: a thread of the active set, or of a hosted group, which its microscope core issues (R249). -/
def eligible (s : State) (x : Thread) : Bool := ((s.gr x.id.gid).active || (s.gr x.id.gid).hosted.isSome) && ready s x

/-- R14: the entry of a core's PC table that a PC hashes to. -/
def pcEntry (pc : BitVec 64) : Nat := (pc >>> 2).toNat % 32 ^^^ (pc >>> 7).toNat % 32

/-- R14, R15: does the age of thread `x`, the time since it last issued, come before that of `y`: the older, then the lower team, group
and lane? -/
def before (x y : Thread) : Bool :=
  decide (x.stamp < y.stamp) || (x.stamp == y.stamp && (decide (x.id.team < y.id.team) || (x.id.team == y.id.team &&
    (decide (x.id.group < y.id.group) || (x.id.group == y.id.group && decide (x.id.idx < y.id.idx))))))

def oldestOf : List Thread → Option Thread
  | [] => none
  | x :: xs => match oldestOf xs with
    | none => some x
    | some y => if before y x then some y else some x

/-- R14: what each refill puts into an entry of the table over the eligible threads of a core: the PC of the oldest that hashes to it. The
table is refilled each cycle, so it is a function of the threads. -/
def pcTable (el : List Thread) (entry : Nat) : Option (BitVec 64) := (oldestOf (el.filter fun x => pcEntry x.pc == entry)).map Thread.pc

/-- A group of which a thread is ready (R17). -/
def groupReady (s : State) (g : GId) : Bool := (s.threadsOf g).any (ready s)

/-- R17, R18: the pending groups that have become ready, or are ready no longer, are noted. -/
def markReady (s : State) : List Upd := s.groups.filterMap fun g =>
  if s.isSup g.id.team ∨ g.active ∨ g.hosted.isSome then none
  else if groupReady s g.id then
    (if g.readyAt.isNone then some (.group g.id fun y => { y with readyAt := some (s.cycle y.core) }) else none)
  else if g.readyAt.isSome then some (.group g.id fun y => { y with readyAt := none }) else none

/-! ## Waits (R17, R39) -/

/-- The wait counters of the header at which a thread stands, while they hold it there. -/
def headerHolds (s : State) (x : Thread) : Option (BitVec 8) := match x.clause with
  | some _ => none
  | none => match (fetchClause s x.id x.pc).1 with
    | .ok c => if (s.gr x.id.gid).drained c.wait then none else some c.wait
    | _ => none

/-- A thread at its next word, once the counters of its header have drained. -/
def standing (s : State) (x : Thread) : Option Thread := match x.clause with
  | some _ => some x
  | none => match (fetchClause s x.id x.pc).1 with
    | .ok c => if (s.gr x.id.gid).drained c.wait then (some (x.enter c)).filter fun y => y.clause.isSome && c.isInstr y.widx else none
    | _ => none

/-- What holds a running thread at its next word. -/
def wordWait (s : State) (x : Thread) : Option Wait := ((standing s x).filter fun y => !y.voided).bind fun y => issueWait s y y.instr

/-- R230, R39: does a WAITGE hold a running thread: its next instruction, or the header that waits for its counter? -/
def waitgeAt (s : State) (x : Thread) : Bool :=
  ((standing s x).any fun y => !y.voided && waitgeHolds s y.id y.instr) ||
    (headerHolds s x).any fun m => s.part.ops.any fun o => o.t == x.id && o.isWaitge && o.wc.any fun n => m.getLsbD n.toNat

/-- R17: is the result of an operation a long-latency dependence of its thread: a load or atomic, a WAITGE (R230), an AWAIT or AREL (R206,
R330)? -/
def Op.isLong (o : Op) : Bool := match o.job with
  | .load _ _ | .poisoned _ | .waitge _ _ | .await _ _ | .arel _ _ _ => true
  | _ => false

/-- R17: does the instruction of a thread wait on a long-latency dependence: a rejected access or one that waits for the supervisor (R150,
R154), MWAIT or a second signature (R189, R403), WAITW (R446), OPFENCE (R408), QPUSH, QPOP, GROW, TLBINV (R440)? -/
def Wait.isLong (i : Instr) : Wait → Bool
  | .counters | .opfence | .grow | .mshr _ _ | .quota _ | .evict _ _ | .queue => true
  | .matrix => match i with
    | .kset _ _ _ => false
    | _ => true
  | .inFlight => match i with
    | .tlbinv _ _ _ => true
    | _ => false
  | _ => false

/-- R17: does a thread wait on a long-latency dependence? A header's WAIT counts where one of its counters waits for such a result of the
thread (DEDUCED, log 43). -/
def Thread.waitsLong (s : State) (x : Thread) : Bool :=
  let own : (Op → Bool) → Bool := fun f => s.part.ops.any fun o => o.t == x.id && o.isLong && f o
  match x.run with
  | .syscall _ => true
  | .waiting w => w.isLong x.instr
  | .running =>
    ((standing s x).any fun y => !y.voided && (heldBack s y.id y.instr || own fun o => o.dlv.any fun d =>
      (d.win == 0 || y.instr.crossLane) && (y.instr.names (s.gr y.id.gid).w).any fun r =>
        decide (d.reg.toNat ≤ r.toNat ∧ r.toNat < d.reg.toNat + d.n))) ||
    (wordWait s x).any (Wait.isLong ((standing s x).getD x).instr) ||
    (headerHolds s x).any fun m => own fun o => o.wc.any fun n => m.getLsbD n.toNat
  | _ => false

/-- R17: does an active group give way: it has exited, all its threads are parked, or all wait on long-latency dependences? -/
def givesWay (s : State) (g : GId) : Bool :=
  let ths := (s.threadsOf g).filter Thread.live
  ths.all (fun x => match x.run with
    | .joined _ _ | .barrier _ => true
    | _ => false) || ths.all (Thread.waitsLong s)

/-- Do two threads of one group stand at the same instruction, so that they may share an issue group (R15)? -/
def Thread.sameStand (x y : Thread) : Bool :=
  x.id.gid == y.id.gid && x.pc == y.pc && x.widx == y.widx && x.clause == y.clause && x.rep == y.rep && x.resumeG == y.resumeG &&
    x.voided == y.voided && (x.run == .running) == (y.run == .running)

end Sys2Proof.Machine
end

