-- ==== Sys2Proof/Machine/Flags.lean ====
section
/-! DEFINITION. Number formats (04): the floating-point layouts, rounding and narrowing, the order of sums, and the exact
functions of R358. A value is unpacked to sign, significand and exponent, computed exactly, and rounded once. -/

namespace Sys2Proof.Machine

/-- An unpacked floating-point value: `fin s m e` is (−1)^s × m × 2^e. -/
inductive FVal where
  | nan (s : Bool)
  | inf (s : Bool)
  | fin (s : Bool) (m : Nat) (e : Int)
deriving DecidableEq, Repr

/-- R112: a binary layout with exponent width `ew`, fraction width `fw` and bias. -/
structure Fmt where
  ew   : Nat
  fw   : Nat
  bias : Int
deriving DecidableEq, Repr

def fp32 : Fmt := ⟨8, 23, 127⟩
def fp16 : Fmt := ⟨5, 10, 15⟩
def bf16 : Fmt := ⟨8, 7, 127⟩
/-- R112, R114: F8; its top binade departs from the layout. -/
def f8 : Fmt := ⟨4, 3, 8⟩

/-- The exponent of the smallest subnormal. -/
def Fmt.emin (f : Fmt) : Int := 1 - f.bias - f.fw
/-- The bits of the infinities, without their sign. -/
def Fmt.infCode (f : Fmt) : Nat := (2 ^ f.ew - 1) * 2 ^ f.fw
def Fmt.signBit (f : Fmt) (s : Bool) : Nat := if s then 2 ^ (f.ew + f.fw) else 0
/-- R115: the canonical NaN with sign `s`. -/
def Fmt.nanCode (f : Fmt) (s : Bool) : Nat :=
  f.signBit s + (if f = f8 then 0x7F else f.infCode + 2 ^ (f.fw - 1))

/-- R112, R114: a code's value. -/
def Fmt.unpack (f : Fmt) (code : Nat) : FVal :=
  let s := code / 2 ^ (f.ew + f.fw) % 2 == 1
  let e := code / 2 ^ f.fw % 2 ^ f.ew
  let m := code % 2 ^ f.fw
  if f = f8 then
    if e = 15 ∧ m = 7 then .nan s
    else if e = 15 ∧ m = 6 then .fin s 15 4
    else if e = 0 then .fin s m f.emin
    else .fin s (2 ^ f.fw + m) (f.emin + e - 1)
  else if e = 2 ^ f.ew - 1 then (if m = 0 then .inf s else .nan s)
  else if e = 0 then .fin s m f.emin
  else .fin s (2 ^ f.fw + m) (f.emin + e - 1)

/-- `m × 2^e` as a multiple of `2^q`: the floor and whether anything was cut off. -/
def scaleTo (m : Nat) (e q : Int) : Nat × Nat × Nat :=
  if q ≤ e then (m * 2 ^ (e - q).toNat, 0, 1)
  else (m / 2 ^ (q - e).toNat, m % 2 ^ (q - e).toNat, 2 ^ (q - e).toNat)

/-- R120: does a magnitude with floor `n` and remainder `r` of `d` round up, under rounding mode `rm`? -/
def roundsUp (rm : Nat) (s : Bool) (n r d : Nat) : Bool :=
  if r = 0 then false
  else match rm with
    | 0 => decide (2 * r > d) || (decide (2 * r = d) && n % 2 == 1)
    | 1 => false
    | 2 => s
    | _ => !s

/-- R120: the nearest integer to `m × 2^e` under a rounding mode. -/
def roundInt (rm : Nat) (s : Bool) (m : Nat) (e : Int) : Nat :=
  let t := scaleTo m e 0
  if roundsUp rm s t.1 t.2.1 t.2.2 then t.1 + 1 else t.1

/-- The magnitude code of `m × 2^e`, unbounded exponent above: subnormals, normals and the carry into the next binade are
one sequence of codes. -/
def Fmt.roundMag (f : Fmt) (rm : Nat) (s : Bool) (m : Nat) (e : Int) : Nat :=
  if m = 0 then 0
  else
    let q := max f.emin (m.log2 + e - f.fw)
    let t := scaleTo m e q
    let n := if roundsUp rm s t.1 t.2.1 t.2.2 then t.1 + 1 else t.1
    (q - f.emin).toNat * 2 ^ f.fw + n

/-- R120 on BF16 and FP16, IEEE 754 on FP32: an overflowing result. -/
def Fmt.overflow (f : Fmt) (rm : Nat) (sat s : Bool) : Nat :=
  let big := f.signBit s + (f.infCode - 1)
  let inf := f.signBit s + f.infCode
  if sat then big
  else match rm with
    | 0 => inf
    | 1 => big
    | 2 => if s then inf else big
    | _ => if s then big else inf

/-- Is `m × 2^e` at least `k`? -/
def magGe (m : Nat) (e : Int) (k : Nat) : Bool :=
  if 0 ≤ e then decide (k ≤ m * 2 ^ e.toNat) else decide (k * 2 ^ (-e).toNat ≤ m)

/-- R114, R120: the F8 code of a magnitude. -/
def f8Mag (rm : Nat) (sat s : Bool) (m : Nat) (e : Int) : Nat :=
  if magGe m e 256 then (if sat then 0x7E else 0x7F)
  else if magGe m e 240 then 0x7E
  else if magGe m e 208 then
    if magGe m e 208 && !(decide ((scaleTo m e 0).1 = 208 ∧ (scaleTo m e 0).2.1 = 0)) then
      match rm with
      | 0 => if magGe m e 224 then 0x7E else 0x7D
      | 1 => 0x7D
      | 2 => if s then 0x7E else 0x7D
      | _ => if s then 0x7D else 0x7E
    else 0x7D
  else f8.roundMag rm s m e

/-- Rounding of a value into a format under a rounding mode and saturation (R115, R120). A NaN keeps its sign. -/
def Fmt.pack (f : Fmt) (rm : Nat) (sat : Bool) (v : FVal) : Nat :=
  match v with
  | .nan s => f.nanCode s
  | .inf s => if f = f8 then f.signBit s + (if sat then 0x7E else 0x7F) else
      if sat then f.signBit s + (f.infCode - 1) else f.signBit s + f.infCode
  | .fin s m e =>
    if f = f8 then f.signBit s + f8Mag rm sat s m e
    else
      let c := f.roundMag rm s m e
      if f.infCode ≤ c then f.overflow rm sat s else f.signBit s + c

/-- An arithmetic result: a NaN is canonical, sign clear (R115). -/
def FVal.arith (v : FVal) : FVal := match v with
  | .nan _ => .nan false
  | v => v

/-- RoundFP32 of an arithmetic result: nearest even (R115). -/
def round32 (v : FVal) : Word := BitVec.ofNat 32 (fp32.pack 0 false v.arith)

def unpack32 (x : Word) : FVal := fp32.unpack x.toNat

def FVal.isNan : FVal → Bool
  | .nan _ => true
  | _ => false
def FVal.isInf : FVal → Bool
  | .inf _ => true
  | _ => false
def FVal.isZero : FVal → Bool
  | .fin _ 0 _ => true
  | _ => false
def FVal.sign : FVal → Bool
  | .nan s => s
  | .inf s => s
  | .fin s _ _ => s

def FVal.neg : FVal → FVal
  | .nan s => .nan (!s)
  | .inf s => .inf (!s)
  | .fin s m e => .fin (!s) m e

/-- A signed integer multiple of `2^e`. -/
def FVal.ofInt (i : Int) (e : Int) : FVal := .fin (decide (i < 0)) i.natAbs e

/-- A finite value as a multiple of `2^q`, q at most its exponent. -/
def signedAt (s : Bool) (m : Nat) (e q : Int) : Int :=
  if s then -((m * 2 ^ (e - q).toNat : Nat) : Int) else ((m * 2 ^ (e - q).toNat : Nat) : Int)

/-- The exact sum; an exact zero is +0, or −0 under rounding toward −∞, unless both addends are zeros of one sign
(IEEE 754). -/
def FVal.add (rm : Nat) (x y : FVal) : FVal :=
  match x, y with
  | .nan _, _ => .nan false
  | _, .nan _ => .nan false
  | .inf s, .inf t => if s = t then .inf s else .nan false
  | .inf s, _ => .inf s
  | _, .inf t => .inf t
  | .fin s m e, .fin t n f =>
    let q := min e f
    let i := signedAt s m e q + signedAt t n f q
    if i = 0 then .fin (if s = t ∧ m = 0 ∧ n = 0 then s else rm == 2) 0 0 else FVal.ofInt i q

/-- The exact product. -/
def FVal.mul (x y : FVal) : FVal :=
  match x, y with
  | .nan _, _ => .nan false
  | _, .nan _ => .nan false
  | .inf s, .inf t => .inf (s != t)
  | .inf s, .fin t n _ => if n = 0 then .nan false else .inf (s != t)
  | .fin s m _, .inf t => if m = 0 then .nan false else .inf (s != t)
  | .fin s m e, .fin t n f => .fin (s != t) (m * n) (e + f)

/-- The exact order of two finite or infinite values: −1, 0, 1 (zeros equal). -/
def FVal.cmp (x y : FVal) : Int :=
  let key : FVal → Int × Nat × Int := fun v => match v with
    | .inf s => (if s then -2 else 2, 0, 0)
    | .nan _ => (0, 0, 0)
    | .fin s m e => (if m = 0 then 0 else if s then -1 else 1, m, e)
  let a := key x
  let b := key y
  if a.1 < b.1 then -1 else if b.1 < a.1 then 1
  else if a.1 = 1 ∨ a.1 = -1 then
    let q := min a.2.2 b.2.2
    let p := a.2.1 * 2 ^ (a.2.2 - q).toNat
    let r := b.2.1 * 2 ^ (b.2.2 - q).toNat
    (if p < r then -1 else if r < p then 1 else 0) * a.1
  else 0

/-- R124: the exponent of a non-zero product: Floor(Log2(m × 2^e)). -/
def expOf (m : Nat) (e : Int) : Int := m.log2 + e

/-- R124: the largest exponent of the non-zero terms. -/
def maxExp : List FVal → Option Int
  | [] => none
  | .fin _ m e :: ps =>
    if m = 0 then maxExp ps
    else match maxExp ps with
      | none => some (expOf m e)
      | some x => some (max (expOf m e) x)
  | _ :: ps => maxExp ps

/-- R124: the sum of the terms truncated at `2^q`. -/
def truncSum (q : Int) : List FVal → Int
  | [] => 0
  | .fin s m e :: ps =>
    let n : Int := ((scaleTo m e q).1 : Nat)
    (if s then -n else n) + truncSum q ps
  | _ :: ps => truncSum q ps

/-- R124: GroupSum before its rounding: the exact sum after one aligned truncation. -/
def groupSum (ps : List FVal) : FVal :=
  if ps.any FVal.isNan || (ps.any (fun p => p = .inf false) && ps.any (fun p => p = .inf true)) then .nan false
  else if ps.any (fun p => p = .inf false) then .inf false
  else if ps.any (fun p => p = .inf true) then .inf true
  else match maxExp ps with
    | none => .fin (!ps.isEmpty && ps.all FVal.sign) 0 0
    | some e =>
      let i := truncSum (e - 26) ps
      if i = 0 then .fin false 0 0 else FVal.ofInt i (e - 26)

/-! ## FP32 operations (R355, R356) -/

def fadd32 (a b : Word) : Word := round32 ((unpack32 a).add 0 (unpack32 b))
def fsub32 (a b : Word) : Word := round32 ((unpack32 a).add 0 (unpack32 b).neg)
def fmul32 (a b : Word) : Word := round32 ((unpack32 a).mul (unpack32 b))
def ffma32 (a b d : Word) : Word := round32 (((unpack32 a).mul (unpack32 b)).add 0 (unpack32 d))

/-- R356: the smaller operand, −0 below +0; a NaN gives way to a number. Generic in the format. -/
def fminBits (f : Fmt) (a b : Nat) : Nat :=
  let x := f.unpack a
  let y := f.unpack b
  if x.isNan then (if y.isNan then f.nanCode false else b)
  else if y.isNan then a
  else if x.cmp y = -1 then a
  else if x.cmp y = 1 then b
  else if y.sign && !x.sign then b else a

/-- R356: the larger operand. -/
def fmaxBits (f : Fmt) (a b : Nat) : Nat :=
  let x := f.unpack a
  let y := f.unpack b
  if x.isNan then (if y.isNan then f.nanCode false else b)
  else if y.isNan then a
  else if x.cmp y = 1 then a
  else if x.cmp y = -1 then b
  else if x.sign && !y.sign then b else a

def fmin32 (a b : Word) : Word := BitVec.ofNat 32 (fminBits fp32 a.toNat b.toNat)
def fmax32 (a b : Word) : Word := BitVec.ofNat 32 (fmaxBits fp32 a.toNat b.toNat)

/-- R326, R221: minimum and maximum of ATOM, RED and CRSC: a NaN operand gives the canonical NaN. -/
def fminNan (a b : Word) : Word :=
  if (unpack32 a).isNan || (unpack32 b).isNan then 0x7FC00000#32 else fmin32 a b
def fmaxNan (a b : Word) : Word :=
  if (unpack32 a).isNan || (unpack32 b).isNan then 0x7FC00000#32 else fmax32 a b

/-- R127: the order key. -/
def fkey (x : Word) : Word :=
  if (unpack32 x).isNan then 0#32 else if x.msb then ~~~x else x ||| 0x80000000#32

/-- R357: the class mask. -/
def fclass (x : Word) : Word :=
  let e := x.toNat / 2 ^ 23 % 256
  let m := x.toNat % 2 ^ 23
  let bit : Nat :=
    if e = 255 then
      if m = 0 then (if x.msb then 0 else 7) else if x.getLsbD 22 then 9 else 8
    else if e = 0 then
      if m = 0 then (if x.msb then 3 else 4) else if x.msb then 2 else 5
    else if x.msb then 1 else 6
  1#32 <<< bit

/-- R71: the condition of CMPF with code `c`. -/
def cmpf (c : Nat) (a b : Word) : Bool :=
  let x := unpack32 a
  let y := unpack32 b
  let un := x.isNan || y.isNan
  let k := x.cmp y
  match c with
  | 0 => !un && decide (k = 0)
  | 1 => un || decide (k ≠ 0)
  | 2 => !un && decide (k < 0)
  | 3 => !un && decide (k ≤ 0)
  | 4 => !un && decide (k > 0)
  | 5 => !un && decide (k ≥ 0)
  | 6 => un
  | 7 => !un
  | 8 => un || decide (k = 0)
  | 9 => un || decide (k < 0)
  | 10 => un || decide (k ≤ 0)
  | 11 => un || decide (k > 0)
  | 12 => un || decide (k ≥ 0)
  | _ => !un && decide (k ≠ 0)

/-- R70: the condition of CMPI with code `c`. -/
def cmpi (c : Nat) (a b : Word) : Bool :=
  match c with
  | 0 => a == b
  | 1 => a != b
  | 2 => a.slt b
  | 3 => a.sle b
  | 4 => b.slt a
  | 5 => b.sle a
  | 6 => a.ult b
  | 7 => a.ule b
  | 8 => b.ult a
  | _ => b.ule a

/-! ## Narrowing (R119 to R121) -/

/-- R119: a format's RM and SAT in NARMODE, its fields starting at bit `lo`. -/
def narRm (nm : Word) (lo : Nat) : Nat := nm.toNat / 2 ^ lo % 4
def narSat (nm : Word) (lo : Nat) : Bool := nm.toNat / 2 ^ (lo + 2) % 2 == 1

/-- Narrowing into BF16, FP16 or F8 under NARMODE (R120). -/
def narrowF (f : Fmt) (nm : Word) (v : FVal) : Nat :=
  let lo := if f = bf16 then 0 else if f = fp16 then 4 else 8
  f.pack (narRm nm lo) (narSat nm lo) v

/-- A value rounded to an integer and clamped to `lo` to `hi`; a NaN gives 0 (R120, R121). -/
def clampInt (rm : Nat) (lo hi : Int) (v : FVal) : Int :=
  match v with
  | .nan _ => 0
  | .inf s => if s then lo else hi
  | .fin s m e =>
    let n : Int := (roundInt rm s m e : Nat)
    let i := if s then -n else n
    max lo (min hi i)

/-- R120: narrowing into an integer of `w` bits, signed or not, clamped or reduced modulo 2^w. -/
def narrowI (rm : Nat) (sat signed : Bool) (w : Nat) (v : FVal) : Int :=
  if sat then
    match v with
    | .fin s m e =>
      let n : Int := (roundInt rm s m e : Nat)
      let i := (if s then -n else n) % 2 ^ w
      if signed ∧ i ≥ 2 ^ (w - 1) then i - 2 ^ w else i
    | _ => 0
  else if signed then clampInt rm (-2 ^ (w - 1)) (2 ^ (w - 1) - 1) v else clampInt rm 0 (2 ^ w - 1) v

/-- R72, R359: FCVT by its pair. -/
def fcvt (pair : Nat) (nm : Word) (a : Word) : Word :=
  let lo16 := a.toNat % 2 ^ 16
  let lo8 := a.toNat % 2 ^ 8
  let w : Nat → Word := BitVec.ofNat 32
  let to32 : FVal → Word := fun v => w (fp32.pack 0 false v)
  match pair with
  | 0 => w (narrowF fp16 nm (unpack32 a))
  | 1 => w (narrowF bf16 nm (unpack32 a))
  | 2 => w (narrowF f8 nm (unpack32 a))
  | 3 => to32 (fp16.unpack lo16)
  | 4 => to32 (bf16.unpack lo16)
  | 5 => to32 (f8.unpack lo8)
  | 6 => w (narrowF bf16 nm (fp16.unpack lo16))
  | 7 => w (narrowF fp16 nm (bf16.unpack lo16))
  | 8 => w (narrowF f8 nm (fp16.unpack lo16))
  | 9 => w (narrowF f8 nm (bf16.unpack lo16))
  | 10 => w (fp16.pack 0 false (f8.unpack lo8))
  | 11 => w (bf16.pack 0 false (f8.unpack lo8))
  | 12 => BitVec.ofInt 32 (clampInt 0 (-2 ^ 31) (2 ^ 31 - 1) (unpack32 a))
  | 13 => BitVec.ofInt 32 (clampInt 0 0 (2 ^ 32 - 1) (unpack32 a))
  | 14 => to32 (FVal.ofInt a.toInt 0)
  | 15 => to32 (FVal.ofInt a.toNat 0)
  | 16 => BitVec.ofInt 32 (narrowI (narRm nm 12) (narSat nm 12) true 8 (unpack32 a))
  | 17 => BitVec.ofInt 32 (narrowI (narRm nm 16) (narSat nm 16) true 4 (unpack32 a))
  | 18 => BitVec.ofInt 32 (narrowI (narRm nm 12) (narSat nm 12) false 8 (unpack32 a))
  | _ => to32 (FVal.ofInt (a.setWidth 8).toInt 0)

/-! ## Packed half operations (R374) and FDOT2 (R361) -/

/-- The 16-bit element `h` of a register (R113). -/
def half (x : Word) (h : Nat) : Nat := x.toNat / 2 ^ (16 * h) % 2 ^ 16

/-- Both elements of a packed result. -/
def packHalves (f : Nat → Nat) : Word := BitVec.ofNat 32 (f 0 + f 1 * 2 ^ 16)

def halfRm (f : Fmt) (nm : Word) : Nat := narRm nm (if f = bf16 then 0 else 4)

def hadd2 (f : Fmt) (nm a b : Word) : Word :=
  packHalves fun h => narrowF f nm (((f.unpack (half a h)).add (halfRm f nm) (f.unpack (half b h))).arith)
def hmul2 (f : Fmt) (nm a b : Word) : Word :=
  packHalves fun h => narrowF f nm (((f.unpack (half a h)).mul (f.unpack (half b h))).arith)
def hfma2 (f : Fmt) (nm a b d : Word) : Word :=
  packHalves fun h =>
    narrowF f nm (groupSum [(f.unpack (half a h)).mul (f.unpack (half b h)), f.unpack (half d h)]).arith
def hmin2 (f : Fmt) (a b : Word) : Word := packHalves fun h => fminBits f (half a h) (half b h)
def hmax2 (f : Fmt) (a b : Word) : Word := packHalves fun h => fmaxBits f (half a h) (half b h)

/-- R361: the BF16 dot product of two, rounded, then added to the accumulator. -/
def fdot2 (a b d : Word) : Word :=
  let g := round32 (groupSum [(bf16.unpack (half a 0)).mul (bf16.unpack (half b 0)),
    (bf16.unpack (half a 1)).mul (bf16.unpack (half b 1))])
  fadd32 d g

/-! ## The functions of R358, correctly rounded

Each is evaluated in fixed point with far more bits than any FP32 argument needs to decide its rounding; a result that is
not exact carries a sticky unit below its last bit. -/

/-- `n` with a sticky unit: the value lies strictly between n and n + 1 units of 2^e when `inexact`. -/
def sticky (s : Bool) (n : Nat) (e : Int) (inexact : Bool) : FVal :=
  .fin s (2 * n + (if inexact then 1 else 0)) (e - 1)

/-- The integer square root, bit by bit from bit `k`. -/
def isqrtFrom (n : Nat) : Nat → Nat → Nat
  | 0, r => if (r + 1) * (r + 1) ≤ n then r + 1 else r
  | k + 1, r =>
    let r' := r + 2 ^ (k + 1)
    isqrtFrom n k (if r' * r' ≤ n then r' else r)

def isqrt (n : Nat) : Nat := isqrtFrom n (n.log2 / 2 + 1) 0

def frcp (x : Word) : Word :=
  round32 <| match unpack32 x with
    | .nan _ => .nan false
    | .inf s => .fin s 0 0
    | .fin s m e =>
      if m = 0 then .inf s
      else sticky s (2 ^ 80 / m) (-80 - e) (decide (2 ^ 80 % m ≠ 0))

/-- An even exponent for a square root: the significand doubled when the exponent is odd. -/
def evenExp (m : Nat) (e : Int) : Nat × Int := if e % 2 = 0 then (m, e) else (2 * m, e - 1)

def fsqrt (x : Word) : Word :=
  round32 <| match unpack32 x with
    | .nan _ => .nan false
    | .inf s => if s then .nan false else .inf false
    | .fin s m e =>
      if m = 0 then .fin s 0 0
      else if s then .nan false
      else
        let p := evenExp m e
        let n := p.1 * 2 ^ 80
        sticky false (isqrt n) (p.2 / 2 - 40) (decide (isqrt n * isqrt n ≠ n))

def frsq (x : Word) : Word :=
  round32 <| match unpack32 x with
    | .nan _ => .nan false
    | .inf s => if s then .nan false else .fin false 0 0
    | .fin s m e =>
      if m = 0 then .inf s
      else if s then .nan false
      else
        let p := evenExp m e
        let t := isqrt (2 ^ 160 / p.1)
        sticky false t (-80 - p.2 / 2) (decide (t * t * p.1 ≠ 2 ^ 160))

/-- Fraction bits of the fixed-point evaluations. -/
def fixBits : Nat := 288

/-- Σ over k < n of x^k / k!, all in units of 2^−fixBits: `term` is the k-th term. -/
def expSeries (x : Nat) : Nat → Nat → Nat → Nat
  | 0, _, _ => 0
  | n + 1, k, term => term + expSeries x n (k + 1) (term * x / 2 ^ fixBits / (k + 1))

/-- Σ over odd k of z^k / k: the inverse hyperbolic tangent. `pw` is z^k, `zz` is z². -/
def atanhSeries (zz : Nat) : Nat → Nat → Nat → Nat
  | 0, _, _ => 0
  | n + 1, k, pw => pw / k + atanhSeries zz n (k + 2) (pw * zz / 2 ^ fixBits)

/-- ln of the ratio a / b, 1 ≤ a / b ≤ 2, in units of 2^−fixBits: 2 atanh((a − b) / (a + b)). -/
def lnRatio (a b : Nat) : Nat :=
  let z := (a - b) * 2 ^ fixBits / (a + b)
  2 * atanhSeries (z * z / 2 ^ fixBits) 100 1 z

def ln2Fix : Nat := lnRatio 2 1

/-- The arc tangent of 1 / q in units of 2^−fixBits, alternating. -/
def atanInv (q : Nat) : Nat → Nat → Nat → Int
  | 0, _, _ => 0
  | n + 1, k, pw => ((pw / k : Nat) : Int) - atanInv q n (k + 2) (pw / (q * q))

/-- π in units of 2^−fixBits, by Machin's formula. -/
def piFix : Nat :=
  (4 * (4 * atanInv 5 130 1 (2 ^ fixBits / 5) - atanInv 239 40 1 (2 ^ fixBits / 239))).toNat

def fexp2 (x : Word) : Word :=
  round32 <| match unpack32 x with
    | .nan _ => .nan false
    | .inf s => if s then .fin false 0 0 else .inf false
    | .fin s m e =>
      if m = 0 then .fin false 1 0
      else if magGe m e 256 then (if s then .fin false 1 (-400) else .fin false 1 400)
      else
        let i : Int := signedAt s m e (min e 0)
        let d : Nat := 2 ^ (-(min e 0)).toNat
        let n := i / d
        let r := (i % d).toNat
        if r = 0 then .fin false 1 n
        else
          let fr := r * 2 ^ fixBits / d
          sticky false (expSeries (fr * ln2Fix / 2 ^ fixBits) 80 0 (2 ^ fixBits)) (n - fixBits) true

def flog2 (x : Word) : Word :=
  round32 <| match unpack32 x with
    | .nan _ => .nan false
    | .inf s => if s then .nan false else .inf false
    | .fin s m e =>
      if m = 0 then .inf true
      else if s then .nan false
      else
        let k : Int := m.log2 + e
        if m = 2 ^ m.log2 then FVal.ofInt k 0
        else
          let fr := lnRatio m (2 ^ m.log2) * 2 ^ fixBits / ln2Fix
          let t : Int := k * 2 ^ fixBits + fr
          if 0 ≤ t then sticky false t.toNat (-fixBits) true
          else sticky true (-t - 1).toNat (-fixBits) true

/-- Σ of the alternating series of sine (from k = 1) or cosine (from k = 0): `term` is x^k / k!, `xx` is x². -/
def trigSeries (xx : Nat) : Nat → Nat → Nat → Int
  | 0, _, _ => 0
  | n + 1, k, term => (term : Int) - trigSeries xx n (k + 2) (term * xx / 2 ^ fixBits / ((k + 1) * (k + 2)))

/-- sin(π r / d), 0 < r / d < 1/2, in units of 2^−fixBits: far more bits than the least
argument, 2^−149, leaves undecided. -/
def sinPi (r d : Nat) : Nat :=
  let x := r * piFix / d
  (trigSeries (x * x / 2 ^ fixBits) 50 1 x).toNat

def cosPi (r d : Nat) : Nat :=
  let x := r * piFix / d
  (trigSeries (x * x / 2 ^ fixBits) 50 0 (2 ^ fixBits)).toNat

/-- sin(π j / d) for 0 ≤ j < 2 d: sign, magnitude, exponent, exactness. -/
def sinTurn (j d : Nat) : FVal :=
  let neg := decide (j ≥ d)
  let h := j % d
  let h := if 2 * h > d then d - h else h
  if h = 0 then .fin neg 0 0
  else if 2 * h = d then .fin neg 1 0
  else if 4 * h ≤ d then sticky neg (sinPi h d) (-fixBits) true
  else sticky neg (cosPi (d - 2 * h) (2 * d)) (-fixBits) true

/-- A finite argument reduced modulo 2, as j / d with 0 ≤ j < 2 d. -/
def reduceTurn (m : Nat) (e : Int) : Nat × Nat :=
  let d : Nat := 2 ^ (-(min e 0)).toNat
  (m * 2 ^ (max e 0).toNat % (2 * d), d)

def fsin (x : Word) : Word :=
  round32 <| match unpack32 x with
    | .nan _ => .nan false
    | .inf _ => .nan false
    | .fin s m e =>
      if m = 0 then .fin s 0 0
      else
        let t := reduceTurn m e
        match sinTurn t.1 t.2 with
        | .fin n k f => .fin (if k = 0 then s else s != n) k f
        | v => v

def fcos (x : Word) : Word :=
  round32 <| match unpack32 x with
    | .nan _ => .nan false
    | .inf _ => .nan false
    | .fin _ m e =>
      let t := reduceTurn m e
      match sinTurn ((2 * t.1 + t.2) % (4 * t.2)) (2 * t.2) with
      | .fin n k f => .fin (if k = 0 then false else n) k f
      | v => v

end Sys2Proof.Machine
end

