-- ==== Sys2Proof/Machine/Lane.lean ====
section
/-! DEFINITION. The cross-lane instructions, major 0x0F (R22 to R24, R63, R65, R351, R393, R420, R424, R428 to R430, R444):
the rendezvous of the threads of a group, and what each participant receives. -/

namespace Sys2Proof.Machine

/-! ## Selectors (R428, R429) -/

def selType (v : Word) : Nat := v.toNat / 2 ^ 13 % 8
def selMask (v : Word) : Nat := v.toNat / 2 ^ 9 % 16
def selVp (v : Word) : BitVec 3 := v.extractLsb' 6 3
def selLane (v : Word) : Nat := v.toNat % 64

/-- R428: does a selector hold a value that its instruction does not permit? -/
def selBad (i : Instr) (v : Word) : Bool :=
  let typed := match i with
    | .redgAdd _ _ _ | .redgMin _ _ _ | .redgMax _ _ _ | .scangAdd _ _ _ | .scangMax _ _ _ => true
    | _ => false
  let laned := match i with
    | .shfl _ _ _ | .shflx _ _ _ | .shflu _ _ _ | .shfld _ _ _ => true
    | _ => false
  let noVp := match i with
    | .matchLanes _ _ _ | .elect _ _ => true
    | _ => false
  v.toNat / 2 ^ 16 != 0 || decide ((if typed then 2 else 0) < selType v) || (!laned && selLane v != 0) || (noVp && selVp v != 0#3)

/-- R429: S(t), the mask that a selector names in a group. -/
def selected (g : Group) (v : Word) (u : Nat) : Bool :=
  let m := selMask v
  decide (u < g.w) && (m == 0 || ((g.reg (BitVec.ofNat 5 (2 * m + 1))).val ++ (g.reg (BitVec.ofNat 5 (2 * m))).val).getLsbD u)

/-! ## Reductions (R420, R424) -/

/-- R222: the tree sum of FP32 values over lanes `lo` to `lo + 2^k - 1`. -/
def treeAdd (v : Nat → Word) : Nat → Nat → Word
  | 0, lo => v lo
  | k + 1, lo => fadd32 (treeAdd v k lo) (treeAdd v k (lo + 2 ^ k))

inductive RedOp where
  | add
  | min
  | max
deriving DecidableEq, Repr

/-- R420: the combination of two values of TYPE 0, 1 or 2. -/
def combine2 (op : RedOp) (ty : Nat) (a b : Word) : Word :=
  match op, ty with
  | .add, 2 => fadd32 a b
  | .add, _ => a + b
  | .min, 0 => if b.slt a then b else a
  | .min, 1 => if b.ult a then b else a
  | .min, _ => fmin32 a b
  | .max, 0 => if a.slt b then b else a
  | .max, 1 => if a.ult b then b else a
  | .max, _ => fmax32 a b

/-- R420: the result over no values. -/
def emptyRed (op : RedOp) (ty : Nat) : Word :=
  match op, ty with
  | .add, 2 => 0x80000000#32
  | .add, _ => 0#32
  | .min, 0 => 0x7FFFFFFF#32
  | .min, 1 => 0xFFFFFFFF#32
  | .min, _ => 0x7F800000#32
  | .max, 0 => 0x80000000#32
  | .max, 1 => 0#32
  | .max, _ => 0xFF800000#32

/-- Reduce in ascending thread index; a lone NaN becomes the canonical one under minimum and maximum (R356). -/
def reduce (op : RedOp) (ty : Nat) : List Word → Word
  | [] => emptyRed op ty
  | v :: vs => vs.foldl (combine2 op ty) (match op with
    | .add => v
    | _ => combine2 op ty v v)

/-! ## What a participant receives -/

/-- Register and predicate writes of a cross-lane instruction. -/
structure LaneResult where
  regs  : List (VReg × Reg)
  preds : List (PReg × Pred)

/-- A mask as a number: bit `u` for each element of a list. -/
def bitsOf : List Nat → Nat
  | [] => 0
  | u :: us => 2 ^ u ||| bitsOf us

/-- R420: the result's poison: t's own record index when t's value is poisoned, index 0 when another participant's is. -/
def redPoison (i : Nat) (part : List (Nat × Reg)) (w : Word) : Reg :=
  if part.any fun u => u.2.poison then
    match part.find? fun u => u.1 == i && u.2.poison with
    | some u => ⟨w, true, u.2.idx⟩
    | none => ⟨w, true, 0#3⟩
  else ⟨w, false, 0#3⟩

/-- What thread index `i` of a group of width `w` receives: `sel` its selector, `inS` its mask, `part` the participants in
ascending index with their source values, `out` whether it stands outside its own mask (R23). ELECT reads its selector alone, whose
poison its predicate takes (R148). -/
def laneResult (ins : Instr) (w i : Nat) (selector : Reg) (inS : Nat → Bool) (part : List (Nat × Reg)) (out : Bool) : LaneResult :=
  let sel := selector.val
  let here : Nat → Bool := fun u => part.any fun p => p.1 == u
  let vacS := (List.range w).any fun u => inS u && !here u
  let vp : Bool → List (PReg × Pred) := fun v => if selVp sel = 0#3 then [] else [(selVp sel, ⟨out || v, false, 0#3⟩)]
  let ty := selType sel
  let vals := part.map fun p => p.2.val
  let pz := redPoison i part
  let shfl : VReg → Option Nat → LaneResult := fun d src =>
    match src.bind fun k => part.find? fun p => p.1 == k with
    | some p => ⟨[(d, ⟨p.2.val, p.2.poison, 0#3⟩)], vp false⟩
    | none => ⟨[(d, Reg.zero)], vp true⟩
  let vote : PReg → Bool → LaneResult := fun p v =>
    let r := pz 0#32
    ⟨[], (p, ⟨v, r.poison, r.idx⟩) :: vp vacS⟩
  let redg : VReg → Word → LaneResult := fun d v => ⟨[(d, pz v)], vp vacS⟩
  let upTo := part.filter fun p => decide (p.1 ≤ i)
  let vacBelow := (List.range (i + 1)).any fun u => inS u && !here u
  let scan : VReg → Word → LaneResult := fun d v => ⟨[(d, pz v)], vp vacBelow⟩
  let pair : VReg → Nat → List (VReg × Reg) := fun d v =>
    [(d, pz (BitVec.ofNat 32 v)), (d + 1#7, pz (BitVec.ofNat 32 (v / 2 ^ 32)))]
  match ins with
  | .shfl d _ _ => shfl d (some (selLane sel))
  | .shflx d _ _ => shfl d (some (i ^^^ selLane sel))
  | .shflu d _ _ => shfl d (if selLane sel ≤ i then some (i - selLane sel) else none)
  | .shfld d _ _ => shfl d (some (i + selLane sel))
  | .voteAny p _ _ => vote p (vals.any (· != 0#32))
  | .voteAll p _ _ => vote p (vals.all (· != 0#32))
  | .voteBallot d _ _ =>
    let m := bitsOf ((part.filter fun p => p.2.val != 0#32).map Prod.fst)
    ⟨if w = 64 then pair d m else [(d, pz (BitVec.ofNat 32 m))], vp vacS⟩
  | .redgAdd d _ _ =>
    if ty = 2 then
      redg d (treeAdd (fun u => match part.find? fun p => p.1 == u with
        | some p => p.2.val
        | none => 0x80000000#32) w.log2 0)
    else redg d (reduce .add ty vals)
  | .redgMin d _ _ => redg d (reduce .min ty vals)
  | .redgMax d _ _ => redg d (reduce .max ty vals)
  | .scangAdd d _ _ =>
    scan d (if ty = 2 then (upTo.map fun p => p.2.val).foldl fadd32 0x80000000#32
      else reduce .add ty (upTo.map fun p => p.2.val))
  | .scangMax d _ _ => scan d (reduce .max ty (upTo.map fun p => p.2.val))
  | .matchLanes d _ _ =>
    let own := part.find? fun p => p.1 == i
    let m := match own with
      | some o => bitsOf ((part.filter fun p => p.2.val == o.2.val).map Prod.fst)
      | none => 0
    ⟨pair d m, []⟩
  | .elect p _ => ⟨[], [(p, ⟨(part.head?.map Prod.fst) == some i, selector.poison, selector.idx⟩)]⟩
  | _ => ⟨[], []⟩

/-! ## The rendezvous (R22) -/

/-- The source and selector registers of a cross-lane instruction. -/
def laneSource (i : Instr) : VReg := match i.sources.1 with
  | some r => r
  | none => 0#7
def laneSel (i : Instr) : VReg := match i.sources.2.1 with
  | some r => r
  | none => 0#7

/-- R22, R311: is a thread held in a barrier arrival that waits for its own pending bit? -/
def heldArrival (s : State) (u : Thread) : Bool :=
  u.run == .waiting .pending || (u.run == .running && wordWait s u == some .pending)

/-- R22, R429: has thread `u` done one of the things for which the rendezvous at `addr` does not wait any longer? -/
def metAt (s : State) (g : Group) (addr : BitVec 64) (u : Thread) : Bool :=
  (match u.run with
    | .waiting .rendezvous | .joined _ _ | .barrier _ | .wave => true
    | _ => false) || heldArrival s u ||
  (g.arrivals.any fun a => a.addr == addr && a.idx == u.id.idx) || (g.passed.any fun a => a.addr == addr && a.idx == u.id.idx) ||
  g.elsewhere.contains (addr, u.id.idx)

/-- R22, R429: the participants at `addr` for a mask: launched, non-exited threads that wait there, or reached it and left. -/
def participants (s : State) (g : Group) (addr : BitVec 64) (inS : Nat → Bool) : List (Nat × Reg) :=
  (List.range g.w).filterMap fun u =>
    if !inS u then none
    else
      let x := s.th ⟨g.id.team, g.id.group, u⟩
      if !x.live then none
      else if x.run == .waiting .rendezvous && x.wordAt == addr then some (u, x.reg (laneSource x.instr))
      else (g.arrivals.find? fun a => a.addr == addr && a.idx == u).map fun a => (u, a.val)

/-- R429: does the rendezvous of a waiting thread resolve? -/
def resolves (s : State) (x : Thread) : Bool :=
  let g := s.gr x.id.gid
  x.run == .waiting .rendezvous &&
    (s.threadsOf x.id.gid).all fun u =>
      !u.live || !selected g (x.val (laneSel x.instr)) u.id.idx || metAt s g x.wordAt u

/-- The writes of a cross-lane instruction. -/
def LaneResult.write (r : LaneResult) (t : TId) : Eff := .act fun s =>
  (r.regs.flatMap fun x => putReg s t x.1 x.2) ++ r.preds.map fun x => putPred t x.1 x.2

/-- A thread's part in a resolved rendezvous: it is written from the state before any participant has left. -/
def takeResult (s : State) (x : Thread) : Eff :=
  let g := s.gr x.id.gid
  let sel := x.reg (laneSel x.instr)
  let r := laneResult x.instr g.w x.id.idx sel (selected g sel.val) (participants s g x.wordAt (selected g sel.val)) false
  traced x.id x.instr (.seq (r.write x.id) (.done x.id 1))

/-- R22: every thread of a group whose rendezvous resolves completes, all together; a thread that leaves while others still
wait at the place leaves its value behind for them. -/
def settleLanes (g : GId) : Eff := .read fun s =>
  let go := (s.threadsOf g).filter (resolves s)
  let stay := (s.threadsOf g).filter fun x => x.run == .waiting .rendezvous && !resolves s x
  .seq (.each (takeResult s) go) <| .upds [.group g fun x =>
    { x with arrivals :=
        ((go.map fun y => Arrival.mk y.wordAt y.id.idx (y.reg (laneSource y.instr))) ++ x.arrivals).filter fun a =>
          (stay.any fun y => y.wordAt == a.addr) || !(go.any fun y => y.wordAt == a.addr),
             elsewhere := x.elsewhere.filter fun e => stay.any fun y => y.wordAt == e.1 }]

/-- R22: the other addresses at which threads of a group wait for a rendezvous. -/
def otherWaits (s : State) (g : GId) (here : BitVec 64) : List (BitVec 64) :=
  ((s.threadsOf g).filterMap fun y => if y.run == .waiting .rendezvous && y.wordAt != here then some y.wordAt else none).eraseDups

/-- A thread reaches a cross-lane instruction: the checks of R428 and R444, then it waits; outside its own mask it goes on
at once with the result over no participants (R23), and its value stays for those whose masks hold it. -/
def arrive (i : Instr) (t : TId) : Eff := .read fun s =>
  let x := s.th t
  let g := s.gr t.gid
  let sel := x.reg (laneSel i)
  let oddBallot := match i with
    | .voteBallot d _ _ => g.w == 64 && d.toNat % 2 == 1
    | _ => false
  if selBad i sel.val then illegal t 0xE
  else if oddBallot then illegal t 0xF
  else
    let here := x.wordAt
    let others : Group → Group := fun y =>
      { y with passed := y.passed.filter (fun a => !(a.addr == here && a.idx == t.idx)),
               arrivals := y.arrivals.filter (fun a => !(a.addr == here && a.idx == t.idx)),
               elsewhere := (otherWaits s t.gid here).map (fun a => (a, t.idx)) ++ y.elsewhere.filter fun e => e != (here, t.idx) }
    if selected g sel.val t.idx then
      .seq (.upds [.group t.gid others]) (.wait t .rendezvous)
    else
      let leave : Group → Group := fun y =>
        { others y with arrivals := ⟨here, t.idx, x.reg (laneSource i)⟩ :: (others y).arrivals }
      .seq (.upds [.group t.gid leave]) <|
        .seq ((laneResult i g.w t.idx sel (selected g sel.val) [] true).write t) (.done t 1)

/-- A cross-lane instruction of the current issue group. -/
def crossLane (i : Instr) : Eff := .read fun s => .seq (issue i [] [] (arrive i)) (settleLanes s.cur.gid)

/-- R65: a thread passes a cross-lane instruction under a false guard: it is vacant there, whatever it left behind before. -/
def passLane (t : TId) : Eff := .act fun s =>
  let here := (s.th t).wordAt
  [.group t.gid fun y =>
    { y with passed := ⟨here, t.idx, Reg.zero⟩ :: y.passed.filter fun a => !(a.addr == here && a.idx == t.idx),
             arrivals := y.arrivals.filter fun a => !(a.addr == here && a.idx == t.idx) }]

/-! ## The meanings -/

def execShfl (d a b : VReg) (s : State) : Host.Outcome State Fault Refusal := run (crossLane (.shfl d a b)) s
def execShflx (d a b : VReg) (s : State) : Host.Outcome State Fault Refusal := run (crossLane (.shflx d a b)) s
def execShflu (d a b : VReg) (s : State) : Host.Outcome State Fault Refusal := run (crossLane (.shflu d a b)) s
def execShfld (d a b : VReg) (s : State) : Host.Outcome State Fault Refusal := run (crossLane (.shfld d a b)) s
def execVoteAny (p : PReg) (a b : VReg) (s : State) : Host.Outcome State Fault Refusal := run (crossLane (.voteAny p a b)) s
def execVoteAll (p : PReg) (a b : VReg) (s : State) : Host.Outcome State Fault Refusal := run (crossLane (.voteAll p a b)) s
def execVoteBallot (d a b : VReg) (s : State) : Host.Outcome State Fault Refusal := run (crossLane (.voteBallot d a b)) s
def execRedgAdd (d a b : VReg) (s : State) : Host.Outcome State Fault Refusal := run (crossLane (.redgAdd d a b)) s
def execRedgMin (d a b : VReg) (s : State) : Host.Outcome State Fault Refusal := run (crossLane (.redgMin d a b)) s
def execRedgMax (d a b : VReg) (s : State) : Host.Outcome State Fault Refusal := run (crossLane (.redgMax d a b)) s
def execScangAdd (d a b : VReg) (s : State) : Host.Outcome State Fault Refusal := run (crossLane (.scangAdd d a b)) s
def execScangMax (d a b : VReg) (s : State) : Host.Outcome State Fault Refusal := run (crossLane (.scangMax d a b)) s
def execMatchLanes (d a b : VReg) (s : State) : Host.Outcome State Fault Refusal := run (crossLane (.matchLanes d a b)) s
def execElect (p : PReg) (b : VReg) (s : State) : Host.Outcome State Fault Refusal := run (crossLane (.elect p b)) s

end Sys2Proof.Machine
end

