-- ==== Sys2Proof/Machine/Rows.lean ====
section
/-! DEFINITION. Accumulator rows and operand-buffer bytes of a team (R134, R195), the operand window and what it leaves undefined
(R200), and the bulk reads and writes of engine commands. -/

namespace Sys2Proof.Machine

/-! ## Rows of a team -/

/-- R11: the number in its team of the core of a thread's group. -/
def ciOf (s : State) (t : TId) : Nat := t.group % max 1 (s.tm t.team).cores.length

/-- The work core that is number `ci` of a team. -/
def coreAt (s : State) (k ci : Nat) : Nat := (s.tm k).cores.getD ci 0

/-- The key of a byte of row `row` of a team's claim on its core `ci`. -/
def rowKey (s : State) (k ci row : Nat) : Nat := accKey (coreAt s k ci) ((s.tm k).claim.accBase + row) 0

/-- The key of a byte of a team's operand-buffer claim. -/
def obKey (s : State) (k ci off : Nat) : Nat := obufKey (coreAt s k ci) ((s.tm k).claim.obBase + off)

/-- Words of memory bytes. -/
def wordsOf : List Byte → List Word
  | a :: b :: c :: d :: bs => BitVec.ofNat 32 (leNat [a, b, c, d]) :: wordsOf bs
  | _ => []

def bytesOf (ws : List Word) : List Byte := ws.flatMap fun w => leBytes 4 w.toNat

/-- The 64 elements of a row, as the store holds them. -/
def rowWords (s : State) (k ci row : Nat) : List Word := wordsOf (s.bytes (rowKey s k ci row) 256)

def storeRow (s : State) (k ci row : Nat) (ws : List Word) : Upd := .store (rowKey s k ci row) (bytesOf ws)

/-- R205, R206: is a row a landing row of a live chain? -/
def landingRow (s : State) (k ci row : Nat) : Bool :=
  s.part.chains.any fun c => c.team == k && c.ci == ci && decide (c.lrow ≤ row) && decide (row < c.lrow + c.senders.length * c.nr)

/-- R134: the first of `n` rows that lies outside the claim. -/
def outsideRow (s : State) (k row n : Nat) : Option Nat :=
  (List.range n).findSome? fun i => if (s.tm k).claim.accRows ≤ row + i then some (row + i) else none

/-- The first of `n` rows that is a landing row. -/
def landedRow (s : State) (k ci row n : Nat) : Option Nat :=
  (List.range n).findSome? fun i => if landingRow s k ci (row + i) then some (row + i) else none

/-- R319: the first row that lies outside the claim or is a landing row. -/
def badRow (s : State) (k ci row n : Nat) : Option Nat :=
  (List.range n).findSome? fun i =>
    if (s.tm k).claim.accRows ≤ row + i ∨ landingRow s k ci (row + i) then some (row + i) else none

/-- The operands' rows must be the team's and no landing rows; otherwise PFAULT with reason LOCAL and the row. -/
def withRows (t : TId) (row n : Nat) (go : Eff) : Eff := .read fun s =>
  match badRow s t.team (ciOf s t) row n with
  | some r => pfault t rLocal (BitVec.ofNat 64 r)
  | none => go

/-! ## The operand window (R200) -/

/-- Is a window still of concern to thread `t`: its own, or of an operation that has not completed? -/
def Window.concerns (s : State) (t : TId) (w : Window) : Bool := w.t == t || (s.op? w.tag).isSome

/-- Does a window hold one of `n` rows of a team's core? -/
def Window.rowsOf (k ci row n : Nat) (w : Window) : Bool := w.t.team == k && w.ci == ci && w.overRows row n

/-- Is a read of a row by a thread undefined? -/
def undefinedRow (s : State) (t : TId) (k ci row : Nat) : Bool :=
  s.part.windows.any fun w => w.concerns s t && w.rowsOf k ci row 1

/-- The windows of a team's core that `f` selects note an action on rows, or on operand-buffer bytes (`bytes`), from `lo` to before `hi`.
Until its round issues, which rows and bytes the operation has is not settled. -/
def disturb (k ci : Nat) (bytes : Bool) (lo hi : Nat) (f : Window → Bool) : Upd :=
  .part fun p => { p with windows := p.windows.map fun w =>
    if w.t.team == k && w.ci == ci && f w then { w with acts := (bytes, lo, hi) :: w.acts } else w }

/-- A write of rows by a thread disturbs the windows on them. -/
def disturbRows (s : State) (t : TId) (k ci row n : Nat) : Upd := disturb k ci false row (row + n) (Window.concerns s t)

/-- `n` free words. -/
def freeWords (s : State) (n : Nat) : List Word := (List.range n).map s.freeWord

/-- A row as a thread reads it: free words when the read is undefined (DESIGN CHOICE, log 6). -/
def readRow (s : State) (t : TId) (k ci row : Nat) : List Word × List Upd :=
  if undefinedRow s t k ci row then (freeWords s 64, [.drawn 64]) else (rowWords s k ci row, [])

/-- Rows `row` to `row + n - 1` as a thread reads them. -/
def readRows (t : TId) (k ci row : Nat) : Nat → State → List (List Word) × List Upd
  | 0, _ => ([], [])
  | n + 1, s =>
    let r := readRow s t k ci row
    let rest := readRows t k ci (row + 1) n (s.applyAll r.2)
    (r.1 :: rest.1, r.2 ++ rest.2)

/-- R200: the C rows of the operations of windows become free values. -/
def freeCRows (s : State) (ws : List Window) : List Upd := ws.zipIdx.flatMap fun (w, i) =>
  [.stores ((List.range 64).flatMap fun r => cells (rowKey s w.t.team w.ci (w.row + r))
      (bytesOf ((List.range 64).map fun j => s.freeWord (4096 * i + 64 * r + j)))), .drawn 4096]

/-- Is a window's operation complete, with C rows that an action has made undefined? -/
def Window.spoiltDone (s : State) (w : Window) : Bool := w.spoilt && (s.op? w.tag).isNone

/-- R200: C rows of completed operations that an action within an open window has made undefined are free values before anything looks
at rows. -/
def spoilRows : Eff := .act fun s =>
  if s.part.windows.any (Window.spoiltDone s) then
    freeCRows s (s.part.windows.filter (Window.spoiltDone s)) ++
      [.part fun p => { p with windows := p.windows.map fun w => if w.spoiltDone s then { w with acts := [], wrote := [] } else w }]
  else []

/-- The windows of a thread that `f` selects close. -/
def closeOperandWindows (t : TId) (f : Window → Bool) : Eff :=
  .seq spoilRows (.upds [.part fun p => { p with windows := p.windows.filter fun w => !(w.t == t && f w) }])

/-! ## Bulk accesses -/

/-- A thread's own combining buffer of a line is written before the thread reads or updates the line (R140 lets a buffer be
written at any earlier moment; COHERENCE). -/
def drainOwn (t : TId) (pl : Place) : Eff := .act fun s =>
  match pl, (s.th t).wcBuf with
  | .page p, some b => if b.line = p.pa / 128 then drainBuffer s t else []
  | _, _ => []

/-- An engine command of a thread is an agent at its home core that uses no copies (R178, R251). -/
def commandAgent (s : State) (t : TId) : Agent :=
  let a := agentOf s t
  { a with issuer := (match a.core with
      | some c => c
      | none => a.issuer), copies := false }

/-- The places of pieces of `n` bytes at addresses, or the first fault: reason and address. -/
def piecePlaces (a : Agent) (k : AccessKind) (n : Nat) : List (BitVec 64) → State → Except (Nat × BitVec 64) (List (BitVec 64 × Place)) × List Upd
  | [], _ => (.ok [], [])
  | va :: vas, s =>
    match translate s a k va n with
    | (.ok pl, us) =>
      let r := piecePlaces a k n vas (s.applyAll us)
      (r.1.map fun l => (va, pl) :: l, us ++ r.2)
    | (.error r, us) => (.error (r, va), us)

/-- A place `i` bytes further on. -/
def Place.plus (i : Nat) : Place → Place
  | .scr core off => .scr core (off + i)
  | .tib off => .tib (off + i)
  | .page p => .page { p with pa := p.pa + i, va := p.va + i }

/-- R229, R242: the scratchpad of core `ci` of a team that is away. -/
def awayCore (k ci : Nat) : Nat := 1024 + 4 * k + ci

/-- Does a place lie in the scratchpad of a team that is away? -/
def Place.away : Place → Bool
  | .scr core _ => decide (1024 ≤ core)
  | _ => false

/-- The key at which a place's bytes stand. -/
def placeKey : Place → Nat
  | .scr core off => scrKey core off
  | .tib _ => 0
  | .page p => p.pa

/-- Do `m` bytes at one place and `n` bytes at another share a byte? -/
def touches (p : Place) (m : Nat) (q : Place) (n : Nat) : Bool :=
  decide (placeKey p < placeKey q + n) && decide (placeKey q < placeKey p + m)

/-- `n` bytes at a place, at its home point or the memory side. -/
def placeBytes (s : State) (a : Agent) (pl : Place) (n : Nat) : List Byte := (List.range n).map fun i => placeByte s a (pl.plus i)

/-! ## Strongly ordered pages (R140, R173) -/

def Place.strong : Place → Bool
  | .page p => p.mt == 3
  | _ => false

/-- R173: an access to a strongly ordered page follows the thread's earlier stores; another access to a page follows those of its line. -/
def drainFor (t : TId) (pl : Place) : Eff := if pl.strong then .act fun s => drainBuffer s t else drainOwn t pl

/-- R173: no read after an access to a strongly ordered page finds an older copy. -/
def freshAfter (t : TId) (pl : Place) : Eff := if pl.strong then .act fun s => acquire s t else .nothing

/-- R173: after a command of a thread on places, some of which are strongly ordered. -/
def freshAfterAll (t : TId) (pls : List Place) : Eff := if pls.any Place.strong then .act fun s => acquire s t else .nothing

/-- R179, R433: a thread reads its counter at a place with order acq: what it does when the target is reached, and below it. -/
def readsCounter (t : TId) (pl : Place) (target : Nat) (reached below : Eff) : Eff :=
  .seq (drainFor t pl) <| .read fun s =>
    let r := readPlace s (agentOf s t) pl 8 1
    .seq (.upds r.2) (if target ≤ leNat r.1 then .seq (.act fun s => acquire s t) reached else .seq (freshAfter t pl) below)

/-- A command over sectors: the whole range translates, and no sector is barred by team order (R277), before any byte moves; an
engine's writes wait for the lines they must allocate. -/
def overSectors (t : TId) (k : AccessKind) (vas : List (BitVec 64)) (go : List (BitVec 64 × Place) → Eff) : Eff := .read fun s =>
  let a := commandAgent s t
  match piecePlaces a k 16 vas s with
  | (.error (r, va), us) => .seq (.upds us) (faultAt t r va)
  | (.ok ps, us) => .seq (.upds (us ++ if k = .load then usedPlaces s a (ps.map Prod.snd) else [])) <| .read fun s =>
    match ps.find? fun x => orderBars s a x.2 with
    | some x => trap t cDorder x.1
    | none => match (if k = .load then none else engineBlocked s a (ps.map Prod.snd) : Option (Wait × Report)) with
      | some w => .waitServed t w
      | none => go ps

/-- The half bytes of `n` bytes at a place: the byte's place, and 1 for the high half. -/
def halvesAt (n : Nat) (pl : Place) : List (Place × Nat) := (List.range n).flatMap fun i => [(pl.plus i, 0), (pl.plus i, 1)]

/-- A half byte by its key: twice the byte's key, and 1 for the high half. -/
def halfKey (x : Place × Nat) : Nat := 2 * placeKey x.1 + x.2

/-- R228, R320: COPYs under way, and ACCSTs of other threads, have half bytes in common with what operation `op` of a thread writes. -/
def noteWritten (op : Nat) (t : TId) (acc : Bool) (hs : List (Place × Nat)) : Upd :=
  .part fun p => { p with ops := p.ops.map fun o => if o.id = op then o else match o.job with
    | .copy c => { o with job := .copy { c with rivals := hs ++ c.rivals } }
    | .accst j => if acc && o.t == t then o else { o with job := .accst { j with rivals := hs ++ j.rivals } }
    | _ => o }

/-- R320: ACCLDs under way of other threads of the team have rows in common with those that a thread writes. -/
def noteRows (s : State) (t : TId) (ci row n : Nat) : Upd :=
  .part fun p => { p with ops := p.ops.map fun o => match o.job with
    | .accld j => if o.t.team = t.team ∧ o.t ≠ t ∧ ciOf s o.t = ci then
        { o with job := .accld { j with rows := (List.range n).map (row + ·) ++ j.rows } } else o
    | _ => o }

/-- Bytes written at a place, each sector or part of one on its own. -/
def writeAt (a : Agent) (x : Place × List Byte) : Eff := .act fun s =>
  match writePlace s a x.1 x.2 0 with
  | .ok us => us
  | .error _ => []

/-- The addresses of the sectors of `n` bytes from an address. -/
def sectorsFrom (va : BitVec 64) (n : Nat) : List (BitVec 64) := (List.range (n / 16)).map fun i => va + BitVec.ofNat 64 (16 * i)

end Sys2Proof.Machine
end

