-- ==== Sys2Proof/Machine/Control.lean ====
section
/-! DEFINITION. Control: branches (R334, R336, R337, R422), IFP and REPEAT (R64 to R68), rejoin masks (R21, R352, R380, R437),
NOP, EXIT, YIELD (R354, R404, R449), SLEEP and SLEEPU (R432, R433), named barriers (R266, R310, R311, R332), WAITW (R446), GROW
and SHRINK (R26, R27, R372, R373), and the events that end their waits. -/

namespace Sys2Proof.Machine

/-! ## Branches -/

/-- R59: is a branch with fields pc and neg taken? -/
def Thread.takes (x : Thread) (p : PReg) (neg : BitVec 1) : Bool :=
  if p = 0#3 then neg == 0#1 else (x.pred p).val != (neg == 1#1)

/-- R59: the target of a B-format branch from header `h`. -/
def branchTarget (h : BitVec 64) (off : BitVec 22) : BitVec 64 := h + (off.signExtend 64 <<< 2)

/-- R336, steps 2 to 4: a transfer to the address in a pair. -/
def transferTo (a : VReg) (t : TId) : Eff := .read fun s =>
  let x := s.th t
  let v := x.val64 a
  match x.poisoned (pairOf a) with
  | some k => poisonTrap t k
  | none =>
    if v.toNat / 2 ^ 56 ≠ 0 then pfault t rNoncanon v
    else if v.toNat % 4 ≠ 0 then trap t cAlign v
    else .jump t v

def execBra (p : PReg) (neg : BitVec 1) (off : BitVec 22) (s : State) : Host.Outcome State Fault Refusal :=
  run (issue (.bra p neg off) [] [p] fun t => .read fun s =>
    let x := s.th t
    if x.takes p neg then .jump t (branchTarget x.pc off) else .done t 1) s

def execBrx (neg : BitVec 1) (p : PReg) (a : VReg) (s : State) : Host.Outcome State Fault Refusal :=
  run (issue (.brx neg p a) [] [p] fun t => .read fun s =>
    if (s.th t).takes p neg then transferTo a t else .done t 1) s

/-- R337: a taken CALL writes the link pair v2:v3. -/
def execCall (p : PReg) (neg : BitVec 1) (off : BitVec 22) (s : State) : Host.Outcome State Fault Refusal :=
  run (issue (.call p neg off) [] [p] fun t => .read fun s =>
    let x := s.th t
    if x.takes p neg then
      .seq (.act fun s => putRegs s t 2#7 [lo32 x.after, hi32 x.after]) (.jump t (branchTarget x.pc off))
    else .done t 1) s

def execRet (a : VReg) (s : State) : Host.Outcome State Fault Refusal := run (issue (.ret a) [] [] (transferTo a)) s

/-! ## IFP and REPEAT -/

/-- R64, R379: the guard is sampled once. A poisoned guard makes the IFP void, and with it every covered instruction. -/
def execIfp (f : BitVec 1) (p : PReg) (c : BitVec 4) (s : State) : Host.Outcome State Fault Refusal :=
  run (issue (.ifp f p c) [] [] fun t => .read fun s =>
    let x := s.th t
    match x.poisonedP [p] with
    | some k => .seq (poisonTrap t k) (.upds [.thread t fun y => { y with ifpVoid := some (x.pc, x.widx, c.toNat) }])
    | none =>
      let g := (x.pred p).val != (f == 1#1)
      .seq (.done t 1) (.upds [.thread t fun x => { x with ifpN := c.toNat, ifpG := g }])) s

/-- R68: the first register beyond the allocation that an execution of a REPEAT's target names. -/
def repeatBeyond (s : State) (t : TId) (sm : BitVec 3) (st n : Nat) : Option Nat :=
  match (s.th t).clause with
  | none => none
  | some c => (List.range n).findSome? fun k => beyond s t (c.instrAt ((s.th t).widx + 1) (some ⟨sm, st, k, n⟩))

/-- R67, R421: REPEAT: its target executes next, n times; a match on the target's address is judged here. That a stepped register beyond
the allocation comes before that match is the model's order (DESIGN CHOICE, log 56). -/
def execRepeatN (sm : BitVec 3) (sc : BitVec 2) (c : BitVec 4) (s : State) : Host.Outcome State Fault Refusal :=
  let n := c.toNat + 1
  run (issue (.repeatN sm sc c) [] [] fun t => .read fun s =>
    match repeatBeyond s t sm (strideOf sc) n with
    | some r => illegal t r
    | none =>
      let x := s.th t
      let target := wordAddr x.pc (x.clause.any Clause.implicit) (x.widx + 1)
      let w := match x.clause with
        | some cl => cl.word (x.widx + 1)
        | none => 0#32
      watchInstr t target.toNat w <|
        .seq (.done t 1) (.upds [.thread t fun y => { y with rep := some ⟨sm, strideOf sc, 0, n⟩, ifpN := x.ifpN }])) s

/-! ## Rejoin masks (R21) -/

def bitAt (i : Nat) : BitVec 64 := BitVec.ofNat 64 (2 ^ i)

/-- R21: STRIKE of one thread from a mask. -/
def Group.strike (g : Group) (j : Nat) (i : Nat) : Group :=
  { g with jE := updAt g.jE j (· &&& ~~~bitAt i), jA := updAt g.jA j (· &&& ~~~bitAt i) }

def Group.strikeAll (g : Group) (i : Nat) : Group := (List.range 8).foldl (fun g j => g.strike j i) g

/-- The threads parked at a mask are released, and the mask is cleared. -/
def releaseMask (g : GId) (j : Nat) : Eff := .read fun s =>
  let parked := (s.threadsOf g).filter fun x => match x.run with
    | .joined k _ => k.toNat == j
    | _ => false
  .seq (.upds [.group g fun x => { x with jE := updAt x.jE j fun _ => 0#64, jA := updAt x.jA j fun _ => 0#64 }])
    (.each (fun x => .leave x.id 1) parked)

/-- R21, R47: A = E is tested once for each mask. -/
def settleMasks (g : GId) : Eff := .each (fun j => .read fun s =>
  let x := s.gr g
  let e := x.jE.toList.getD j 0#64
  if e = x.jA.toList.getD j 0#64 ∧ e ≠ 0#64 then releaseMask g j else .nothing) (List.range 8)

/-- An instruction after which the masks and the rendezvous of its group are settled. -/
def settling (e : Eff) : Eff := .read fun s => .seq e (.seq (settleMasks s.cur.gid) (settleLanes s.cur.gid))

def execEnrol (j : BitVec 3) (s : State) : Host.Outcome State Fault Refusal :=
  run (settling (issue (.enrol j) [] [] fun t =>
    .seq (.upds [.group t.gid fun g => { g with jE := updAt g.jE j.toNat (· ||| bitAt t.idx) }]) (.done t 1))) s

def execStrike (j : BitVec 3) (s : State) : Host.Outcome State Fault Refusal :=
  run (settling (issue (.strike j) [] [] fun t =>
    .seq (.upds [.group t.gid fun g => g.strike j.toNat t.idx]) (.done t 1))) s

/-- R21, R380: an enrolled thread arrives and parks; for another, JOIN is void. -/
def execJoin (j : BitVec 3) (s : State) : Host.Outcome State Fault Refusal :=
  run (settling (issue (.join j) [] [] fun t => .read fun s =>
    if ((s.gr t.gid).jE.toList.getD j.toNat 0#64).getLsbD t.idx then
      .seq (.upds [.group t.gid fun g => { g with jA := updAt g.jA j.toNat (· ||| bitAt t.idx) }, .event (.rejoinTimeout t.gid j)])
        (.park t fun x => { x with run := .joined j s.time })
    else .done t 1)) s

/-- R21: REJOIN_TIMEOUT: due when a thread has stayed parked for 1,024 TIME cycles; it is owed while threads are parked. Away from
its cores a team stays parked, and on restore its park time counts from zero. -/
def execRejoinTimeout (g : GId) (j : BitVec 3) (s : State) : Host.Outcome State Fault Refusal :=
  run (.read fun s =>
    let since := (s.threadsOf g).filterMap fun x => match x.run with
      | .joined k n => if k = j then some n else none
      | _ => none
    if since.isEmpty then .nothing
    else if teamHere s g.team && since.any fun n => decide (n + 1024 ≤ s.time) then .seq (releaseMask g j.toNat) (settleLanes g)
    else .upds [.event (.rejoinTimeout g j)]) s

/-! ## Named barriers (R311) -/

def Team.bar (x : Team) (n : BitVec 4) : Barrier := x.bars[n.toNat]'n.isLt
def Upd.bar (k : Nat) (n : BitVec 4) (f : Barrier → Barrier) : Upd := .team k fun x => { x with bars := updAt x.bars n.toNat f }

/-- R266: the groups with threads parked at a barrier, in ascending CORE.NUM, then ascending GIDX. -/
def parkedGroups (s : State) (k : Nat) (n : BitVec 4) : List Group :=
  let gs := (s.teamGroups k).filter fun g => (s.threadsOf g.id).any fun x => x.run == .barrier n
  (List.range 768).flatMap fun c =>
    let here := gs.filter fun g => g.core == c
    (List.range 512).filterMap fun i => here.find? fun g => g.id.group == i

/-- R266: the step of a cluster's ratio, in hundredths of an ampere. -/
def Cluster.step (c : Cluster) : Nat := if c.cur = 0#2 then 20 else if c.cur = 1#2 then 32 else 45

/-- R266: how many groups a wave under a SLOPE releases at most: SLOPE × 0.1 µs over the current step of the ratio; none for no limit,
where SLOPE is 0. -/
def Cluster.waveSize (c : Cluster) (slope : BitVec 16) : Option Nat :=
  if slope = 0#16 then none else some (max 1 (slope.toNat * 10 / c.step))

/-- R266, R427: how many queued groups fit a wave in which `used` have left, each under the SLOPE of its completion. -/
def Cluster.fitting (c : Cluster) : Nat → List Wave → Nat
  | _, [] => 0
  | used, w :: ws => if (c.waveSize w.slope).all fun n => decide (used < n) then 1 + c.fitting (used + 1) ws else 0

/-- R266: has a wave left in a TIME cycle? -/
def Cluster.inWave (c : Cluster) (now : Nat) : Bool := c.lastWave == some now

/-- R266: how many queued groups may leave now: those that fit a new wave when none has left in the last 20 TIME cycles, or those that
still fit the wave of this TIME cycle. -/
def Cluster.mayLeave (c : Cluster) (now : Nat) : Nat := match c.lastWave with
  | none => c.fitting 0 c.waves
  | some w => if w + 20 ≤ now then c.fitting 0 c.waves else if w = now then c.fitting c.waveUsed c.waves else 0

/-- R266, R311: the groups of a cluster that may leave now leave in the wave of this TIME cycle: their threads' waits end, as
acquires. -/
def sendWave (cluster : Nat) : Eff := .read fun s =>
  let c := s.cluster cluster
  let out := c.waves.take (c.mayLeave s.time)
  if out.isEmpty then .nothing
  else
    .seq (.upds [.cluster cluster fun c =>
      { c with waves := c.waves.drop out.length, lastWave := some s.time,
               waveUsed := (if c.inWave s.time then c.waveUsed else 0) + out.length }]) <|
    .each (fun t => .read fun s => if (s.th t).run = .wave then .seq (.act fun s => acquire s t) (.leave t 1) else .nothing)
      (out.flatMap Wave.ths)

/-- A wave is owed while groups are queued. -/
def oweWave (cluster : Nat) : Eff := .act fun s =>
  if (s.cluster cluster).waves.isEmpty || s.events.contains (.barrierWave cluster) then [] else [.event (.barrierWave cluster)]

/-- Complete(n): departures of exited arrivals, pending bits cleared, the parked groups queued for their waves; the first of them
leave at once where no wave holds them back (R266). -/
def completeBarrier (k : Nat) (n : BitVec 4) : Eff := .read fun s =>
  let b := (s.tm k).bar n
  let gone := (b.pend.filter fun t => !(s.th t).live).length
  let gs := parkedGroups s k n
  .seq (.upds ([.bar k n fun b => { b with dep := b.dep + gone, pend := [], arr := 0, cnt := 0 }] ++
    gs.flatMap fun g =>
      let ts := ((s.threadsOf g.id).filter fun x => x.run == .barrier n).map Thread.id
      ts.map (fun t => .thread t fun y => { y with run := .wave }) ++
      [.cluster (clusterOf g.core) fun c => { c with waves := c.waves ++ [⟨c.slope, ts⟩] }])) <|
  .each (fun c => .seq (sendWave c) (oweWave c)) (gs.map fun g => clusterOf g.core).eraseDups

/-- R311: a phase whose count is fixed and reached completes. -/
def testBarrier (k : Nat) (n : BitVec 4) : Eff := .read fun s =>
  let b := (s.tm k).bar n
  if b.cnt ≠ 0 ∧ b.cnt ≤ b.arr + b.dep then completeBarrier k n else .nothing

/-- R311: an arrival of a thread in the open phase. -/
def Barrier.arrive (b : Barrier) (t : TId) (c : Nat) : Barrier :=
  { b with cnt := c, arr := b.arr + 1, pend := t :: b.pend, memb := if b.memb.contains t then b.memb else t :: b.memb }

/-- Arrive(t, n, c): the checks, the arrival, a release (R165), with what the thread does next, then the test for completion. -/
def arriveBarrier (t : TId) (n : BitVec 4) (c : Nat) (go : Eff) : Eff := .read fun s =>
  let b := (s.tm t.team).bar n
  if c = 0 ∨ 8192 < c then illegal t 9
  else if b.pend.contains t then .wait t .pending
  else if b.cnt ≠ 0 ∧ c ≠ b.cnt then illegal t 9
  else .seq (.act fun s => drainBuffer s t) <| .seq (.upds [.bar t.team n fun b => b.arrive t c]) (.seq go (testBarrier t.team n))

/-- A thread parks in the wait half of a barrier. -/
def parkAt (t : TId) (n : BitVec 4) : Eff := .park t fun x => { x with run := .barrier n, arrived := true }

/-- WaitOn(t, n); going on is an acquire (R165). -/
def waitBarrier (t : TId) (n : BitVec 4) : Eff := .read fun s =>
  if ((s.tm t.team).bar n).pend.contains t then parkAt t n else .seq (.act fun s => acquire s t) (.done t 1)

/-- R310: a barrier number at or above the team's BARRIERS is illegal. -/
def checkBarrier (t : TId) (n : BitVec 4) (go : Eff) : Eff := .read fun s =>
  if (s.tm t.team).claim.barriers ≤ n.toNat then illegal t 0xA else go

def execBari (a : VReg) (n : BitVec 4) (s : State) : Host.Outcome State Fault Refusal :=
  run (issue (.bari a n) [] [] fun t => checkBarrier t n <| .read fun s =>
    let c := ((s.th t).val a).toNat
    let b := (s.tm t.team).bar n
    if c = 0 ∨ 8192 < c then illegal t 9
    else if b.cnt = 0 then .seq (.upds [.bar t.team n fun b => { b with cnt := c }]) (.done t 1)
    else if c ≠ b.cnt then illegal t 9
    else .done t 1) s

def execBara (a : VReg) (n : BitVec 4) (s : State) : Host.Outcome State Fault Refusal :=
  run (settling (issue (.bara a n) [] [] fun t => checkBarrier t n <| .read fun s =>
    arriveBarrier t n ((s.th t).val a).toNat (.done t 1))) s

def execBarw (n : BitVec 4) (s : State) : Host.Outcome State Fault Refusal :=
  run (settling (issue (.barw n) [] [] fun t => checkBarrier t n (waitBarrier t n))) s

/-- R311: BAR is an arrival, then the wait; stopped in its wait, it resumes there (R242). A completing arrival leaves in a wave
like any other waiter: the thread parks before its arrival is tested. -/
def execBar (a : VReg) (n : BitVec 4) (s : State) : Host.Outcome State Fault Refusal :=
  run (settling (issue (.bar a n) [] [] fun t => checkBarrier t n <| .read fun s =>
    if (s.th t).arrived then waitBarrier t n else arriveBarrier t n ((s.th t).val a).toNat (parkAt t n))) s

/-- BARRIER_WAVE: due 20 TIME cycles after the previous wave; owed while groups are queued. -/
def execBarrierWave (cluster : Nat) (s : State) : Host.Outcome State Fault Refusal :=
  run (.seq (sendWave cluster) (oweWave cluster)) s

/-! ## EXIT (R44 to R47, R354) -/

/-- R311: the exit of a member with no arrival pending counts as a departure. -/
def departBarriers (t : TId) : Eff := .act fun s => (List.range 16).filterMap fun n =>
  let m := BitVec.ofNat 4 n
  let b := (s.tm t.team).bar m
  if b.memb.contains t && !b.pend.contains t then some (.bar t.team m fun b => { b with dep := b.dep + 1 }) else none

/-- R47, R311: after exits, the barriers of a team at which one of the threads has departed are tested for completion. -/
def testBarriers (k : Nat) (ns : List Nat) : Eff := .each (fun n => testBarrier k (BitVec.ofNat 4 n)) ns

/-- R311: the barriers at which threads that have exited depart: members there, with no arrival pending. -/
def departures (s : State) (ths : List TId) : List Nat := (List.range 16).filter fun n =>
  ths.any fun t =>
    let b := (s.tm t.team).bar (BitVec.ofNat 4 n)
    (s.th t).run == .exited && b.memb.contains t && !b.pend.contains t

/-- R44, R260: a group whose launched threads have all exited retires: its microscope slot is free; the team whose groups have
all retired is released. -/
def retireGroup (g : GId) : Eff := .act fun s =>
  if (s.threadsOf g).any Thread.live then []
  else
    (match (s.gr g).hosted with
      | some h => [.micro h.m (fun k => { k with slots := updAt k.slots h.slot.toNat fun _ => Slot.reset }),
          .group g fun x => { x with hosted := none }]
      | none => []) ++
    (if (s.teamThreads g.team).any Thread.live then [] else [.event (.teamRelease g.team)])

/-- R230: a WAITGE that is outstanding ends with its thread. -/
def endWaits (t : TId) : Eff := .read fun s =>
  .each (fun o => match o.job with
    | .waitge _ _ => if o.t = t then completeOp o.id else .nothing
    | _ => .nothing) s.part.ops

/-- R354: a thread ends. Results that would return to its registers are dropped; a round that waits for it is tested
(R189); its operand windows of completed operations close (R200). -/
def endThread (t : TId) : Eff := .seq (endWaits t) <|
  .seq (.read fun s => closeOperandWindows t fun w => (s.op? w.tag).isNone) <| .act fun s =>
  [.thread t fun x => { x with run := .exited, rep := none },
   .part fun p => { p with ops := p.ops.map fun o => if o.t = t then { o with dlv := none } else o },
   .group t.gid fun g => g.strikeAll t.idx, .stamped] ++ progress s t.team ++
  ((List.range 8).filterMap fun k =>
    if ((s.tm t.team).k.toList.getD k KReg.zero).isOpen then some (.event (.mmaRoundIssue t.team (BitVec.ofNat 3 k))) else none)

def execExit (s : State) : Host.Outcome State Fault Refusal :=
  run (.read fun s =>
    .seq (settling (issue .exit [] [] endThread)) <|
    .seq (.read fun s =>
      .seq (perThread fun t => .read fun s => if (s.th t).run = .exited then departBarriers t else .nothing)
        (testBarriers s.cur.gid.team (departures s s.cur.ths))) (retireGroup s.cur.gid)) s

/-! ## NOP, YIELD, SLEEP, SLEEPU -/

def execNop (s : State) : Host.Outcome State Fault Refusal := run (issue .nop [] [] fun t => .done t 1) s

/-- R449: as Y = 1 (R54); on a microscope core only the thread's age changes. -/
def execYield (s : State) : Host.Outcome State Fault Refusal :=
  run (.seq (issue .yield [] [] fun t => .done t 1) (.act fun s =>
    if (s.gr s.cur.gid).hosted.isSome || s.isSup s.cur.gid.team then [] else swapActive s s.cur.gid)) s

def execSleep (a : VReg) (s : State) : Host.Outcome State Fault Refusal :=
  run (issue (.sleep a) [] [] fun t => .read fun s =>
    let v := ((s.th t).val a).toNat
    if v = 0 then .done t 1
    else .seq (.park t fun x => { x with run := .waiting (.sleep (s.time + v)) }) (.upds [.event (.sleepWake t)])) s

/-- SLEEP_WAKE: due when TIME reaches the deadline and the team is at its place (R432). -/
def execSleepWake (t : TId) (s : State) : Host.Outcome State Fault Refusal :=
  run (.read fun s =>
    match (s.th t).run with
    | .waiting (.sleep d) => if d ≤ s.time ∧ teamHere s t.team = true then .leave t 1 else .upds [.event (.sleepWake t)]
    | _ => .nothing) s

/-- R433: the end of a SLEEPU: without a counter it is done; with one, the counter is read at its home point and PMISS is
raised below the target. -/
def sleepuEnd (t : TId) : Eff := .read fun s =>
  let x := s.th t
  match x.instr with
  | .sleepuCounter v c =>
    let va := x.val64 c
    match translate s (agentOf s t) .load va 8 with
    | (.error r, us) => .seq (.upds us) (faultAt t r va)
    | (.ok pl, us) => .seq (.upds us) <| .read fun s =>
      if orderBars s (agentOf s t) pl then trap t cDorder va
      else readsCounter t pl (x.val64 (v + 2#7)).toNat (.done t 1) (trap t cPmiss va)
  | _ => .done t 1

/-- R433: SLEEPU waits until CYCLE reaches the time. -/
def sleepuWait (v : VReg) (t : TId) : Eff := .read fun s =>
  let d := ((s.th t).val64 v).toNat
  if d ≤ s.cycleOf t then sleepuEnd t
  else .seq (.park t fun x => { x with run := .waiting (.sleepu d) }) (.upds [.event (.sleepuWake t)])

def execSleepu (v : VReg) (s : State) : Host.Outcome State Fault Refusal := run (issue (.sleepu v) [] [] (sleepuWait v)) s

def execSleepuCounter (v c : VReg) (s : State) : Host.Outcome State Fault Refusal :=
  run (issue (.sleepuCounter v c) (pairOf c) [] fun t => .read fun s =>
    let va := (s.th t).val64 c
    if va.toNat % 8 ≠ 0 then trap t cAlign va
    else match translate s (agentOf s t) .load va 8 with
      | (.error r, us) => .seq (.upds us) (faultAt t r va)
      | (.ok pl, us) => .seq (.upds us) (if orderBars s (agentOf s t) pl then trap t cDorder va else sleepuWait v t)) s

/-- SLEEPU_WAKE: due when CYCLE reaches the time; a team that is saved executes its SLEEPU afresh on restore (R433). -/
def execSleepuWake (t : TId) (s : State) : Host.Outcome State Fault Refusal :=
  run (.read fun s =>
    match (s.th t).run with
    | .waiting (.sleepu d) =>
      if !teamHere s t.team then .nothing
      else if d ≤ s.cycleOf t then .seq (.upds [.thread t fun x => { x with run := .running }]) (sleepuEnd t)
      else .upds [.event (.sleepuWake t)]
    | _ => .nothing) s

/-! ## WAITW -/

def execWaitw (mask : BitVec 8) (s : State) : Host.Outcome State Fault Refusal :=
  run (issue (.waitw mask) [] [] fun t => .read fun s =>
    if mask = 0#8 then .done t 1
    else if (s.gr t.gid).drained mask then
      .seq (observe t mask) (.seq (closeOperandWindows t fun w => mask.getLsbD w.wc.toNat) (.done t 1))
    else .wait t .counters) s

/-! ## GROW and SHRINK (R25 to R28, R372, R373) -/

/-- R26: an allocation rounded up to a multiple of 8. -/
def roundAlloc (m : Nat) : Nat := (m + 7) / 8 * 8

/-- R13, R29: the groups that hold register blocks on a core: those of teams that have their place. -/
def groupsOn (s : State) (core : Nat) : List Group :=
  s.groups.filter fun g => g.core == core && !s.isSup g.id.team && (s.tm g.id.team).here

def Group.covers (g : Group) (lane : Nat) : Bool := decide (g.base ≤ lane) && decide (lane < g.base + g.w)

/-- R13: blocks taken on a lane of a core. -/
def blocksOn (s : State) (core lane : Nat) : Nat :=
  (groupsOn s core).foldl (fun n g => if g.covers lane then n + g.n / 8 else n) 0

/-- R26: does a request find its blocks free on all its lanes, and no older request of the core on any of them? -/
def growGrantable (s : State) (g : Group) (r : Grow) : Bool :=
  (List.range g.w).all fun i =>
    let lane := g.base + i
    decide (blocksOn s g.core lane + (r.m - g.n) / 8 ≤ 256) &&
      !(groupsOn s g.core).any fun h => h.covers lane && h.grows.any fun q => decide (q.order < r.order) && decide (h.n < q.m)

/-- R26, R373: the allocation becomes `m`, and the new registers read zero in every thread of the group. -/
def grantRegs (g : GId) (n m : Nat) (s : State) : List Upd :=
  .group g (fun x => { x with n := m }) ::
    (s.threadsOf g).map fun x => .thread x.id fun y =>
      { y with v := y.v.mapIdx fun i r => if n ≤ i ∧ i < m then Reg.zero else r }

/-- R373: a thread joins the request of its issue group, or makes it, behind the others. -/
def joinGrow : List Grow → Grow → List Grow
  | [], r => [r]
  | q :: qs, r => if q.order = r.order then { q with ths := q.ths ++ r.ths } :: qs else q :: joinGrow qs r

/-- R373: one thread of an issue group that executes GROW; `order` is the request's place. -/
def growOne (p : PReg) (m order : Nat) (t : TId) : Eff := .read fun s =>
  let g := s.gr t.gid
  let ok : Eff := .seq (.upds [putPred t p ⟨true, false, 0#3⟩]) (.done t 1)
  let ask : Group → Group := fun x => { x with grows := joinGrow x.grows ⟨m, p, order, [t]⟩ }
  if !g.grows.isEmpty then .seq (.wait t .grow) (.upds [.group t.gid ask])
  else if m ≤ g.n then ok
  else if growGrantable s g ⟨m, p, order, []⟩ then .seq (.act (grantRegs t.gid g.n m)) ok
  else .seq (.wait t .grow) (.upds [.group t.gid ask, .event (.growGrant t.gid)])

def execGrow (p : PReg) (m : BitVec 8) (s : State) : Host.Outcome State Fault Refusal :=
  run (.read fun s =>
    let order := s.nextId
    .seq (.upds [.named 1]) <| issue (.grow p m) [] [] fun t =>
      if 128 < roundAlloc m.toNat then trap t cGrowfail (m.setWidth 64) else growOne p (roundAlloc m.toNat) order t) s

/-- R373: SHRINK issues when no register write of the group is outstanding, nor a GROW that its group issued before it. -/
def execShrink (m : BitVec 8) (s : State) : Host.Outcome State Fault Refusal :=
  run (issue (.shrink m) [] [] fun t => .read fun s =>
    let g := s.gr t.gid
    let n := max 8 (roundAlloc m.toNat)
    if g.n ≤ n then .done t 1
    else if shrinkHeld s t.gid then .wait t .windows
    else .seq (.upds [.group t.gid fun x => { x with n := n }]) (.done t 1)) s

/-- The threads of a request go on with their predicate. -/
def endGrow (g : GId) (r : Grow) (v : Bool) : Eff :=
  .seq (.upds [.group g fun x => { x with grows := x.grows.filter fun q => q.order != r.order }]) <|
    .each (fun t => .read fun s =>
      if (s.th t).run = .waiting .grow then .seq (.upds [putPred t r.p ⟨v, false, 0#3⟩]) (.done t 1) else .nothing) r.ths

/-- GROW_GRANT, of a team at its place: the first request of a group is granted when it can be; owed while requests wait (R26, R373). -/
def execGrowGrant (g : GId) (s : State) : Host.Outcome State Fault Refusal :=
  run (.read fun s =>
    let x := s.gr g
    match (if teamHere s g.team then x.grows else [] : List Grow) with
    | [] => .nothing
    | r :: _ =>
      let more : Eff := .act fun s => if (s.gr g).grows.isEmpty then [] else [.event (.growGrant g)]
      if r.m ≤ x.n then .seq (endGrow g r true) more
      else if growGrantable s x r then .seq (.act (grantRegs g x.n r.m)) (.seq (endGrow g r true) more)
      else more) s

/-- R27: is a group stuck? -/
def groupStuck (s : State) (g : Group) : Bool :=
  !g.grows.isEmpty || ((s.threadsOf g.id).filter Thread.live).all fun x => match x.run with
    | .joined _ _ | .barrier _ | .wave | .waiting .rendezvous => true
    | _ => heldArrival s x

/-- R27: every resident group of a core is stuck, one of them in GROW, and no GROW can be granted. -/
def growStuck (s : State) (core : Nat) : Bool :=
  let gs := (groupsOn s core).filter fun g => (s.threadsOf g.id).any Thread.live
  gs.all (groupStuck s) && gs.any (fun g => !g.grows.isEmpty) &&
    gs.all fun g => match g.grows with
      | [] => true
      | r :: _ => !growGrantable s g r && decide (g.n < r.m)

/-- GROW_DEADLOCK_FAIL: the youngest waiting request of the core fails. -/
def execGrowDeadlockFail (core : Nat) (s : State) : Host.Outcome State Fault Refusal :=
  run (.read fun s =>
    if !growStuck s core then .nothing
    else
      let all := (groupsOn s core).flatMap fun g => g.grows.map fun r => (g.id, r)
      match all.foldl (fun b x => match b with
          | none => some x
          | some y => if y.2.order < x.2.order then some x else some y) (none : Option (GId × Grow)) with
      | none => .nothing
      | some x => endGrow x.1 x.2 false) s

end Sys2Proof.Machine
end

