-- ==== Sys2Proof/Machine/Mem.lean ====
section
/-! DEFINITION. Memory accesses (majors 0x18 to 0x21 and 0x23): LD and ST (R388, R434), LDA and STL (R390, R436), PREF (R411), ATOM,
RED and ATOMK (R325 to R329, R419), FENCE (R363, R364), DISCARD (R313, R349), FLUSHL and INVL (R366, R367), PTEST (R412), WAITGE (R230,
R445), and the events that return data, acknowledge, grant miss-status entries and end buffers and leases. -/

namespace Sys2Proof.Machine

/-! ## Miss-status entries (R150) -/

/-- The line for which an access at a place holds an entry: none when it does not leave its core. -/
def entryLine (s : State) (a : Agent) (pl : Place) (cp : Nat) : Option Nat :=
  match pl with
  | .tib _ => none
  | .scr core off => if entryCore a = 0xFFFF ∨ core = entryCore a then none else some (scrKey core off / 128)
  | .page p =>
    if entryCore a ≠ 0xFFFF ∧ pointOf p cp = 0 ∧ (copyOf s.part.l1 (entryCore a) (p.pa / 16)).isSome then none else some (p.pa / 128)

def dedup : List (Nat × Nat) → List (Nat × Nat)
  | [] => []
  | x :: xs => if xs.contains x then dedup xs else x :: dedup xs

/-- Entries that a core's outstanding accesses hold: one for each line of each issue. -/
def entriesUsed (s : State) (core : Nat) : Nat :=
  (dedup (s.part.ops.filterMap fun o => if o.core = core then o.line.map fun l => (o.tok, l) else none)).length

/-- Entries of a core that no access holds or has been granted. -/
def entriesFree (s : State) (core : Nat) : Nat :=
  96 - entriesUsed s core - (s.threads.filter fun y => y.run.granted && (s.gr y.id.gid).core == core).length

/-- Does an access of a core that was rejected still wait for an entry? -/
def rejectedWaits (s : State) (core : Nat) : Bool := s.threads.any fun y => y.run.rejected && (s.gr y.id.gid).core == core

/-- R150: does an access find its entry: one that it has been granted, the one of its issue, or a free one that no rejected access
waits for? -/
def findsEntry (s : State) (tok : Nat) (t : TId) (core line : Nat) : Bool :=
  (s.th t).run.granted || s.part.ops.any (fun o => o.core == core && o.tok == tok && o.line == some line) ||
    (decide (0 < entriesFree s core) && !rejectedWaits s core)

/-- An access goes on with its entry, or is rejected and retried in the order of rejection. An agent without entries goes on. -/
def withEntry (tok : Nat) (t : TId) (line : Option Nat) (go : Eff) : Eff := .read fun s =>
  let core := entryCore (agentOf s t)
  match line with
  | none => go
  | some l =>
    if core = 0xFFFF ∨ findsEntry s tok t core l = true then go
    else if (s.th t).run.rejected then .nothing
    else .seq (.wait t (.mshr false s.stamp)) (.upds [.stamped])

/-! ## Loads -/

/-- The destination registers of a load of `n` bytes. -/
def loadRegs (d : VReg) (n : Nat) : List VReg := if n = 8 then pairOf d else [d]

/-- A value of `n` bytes as register values, zero-extended (R388). -/
def loadWords (n : Nat) (bs : List Byte) : List Word :=
  let v := leNat bs
  if n = 8 then [BitVec.ofNat 32 v, BitVec.ofNat 32 (v / 2 ^ 32)] else [BitVec.ofNat 32 v]

/-- R388, R390: one thread's load of `n` bytes at `va`; LDA acquires at its scope. -/
def loadAt (i : Instr) (d : VReg) (wc : BitVec 3) (n cp la : Nat) (acq : Option (BitVec 3)) (va : BitVec 64) (tok : Nat)
    (t : TId) : Eff :=
  if va.toNat % n ≠ 0 then trap t cAlign va
  else .read fun s =>
    let a := agentOf s t
    match translate s a .load va n with
    | (.error r, us) => .seq (.upds us) (offer t va r (poisonLoad i tok t wc d (loadRegs d n) va r la))
    | (.ok pl, us) => .seq (.upds us) <| .read fun s =>
      if orderBars s a pl then trap t cDorder va
      else withEntry tok t (entryLine s a pl cp) <| .seq (drainFor t pl) <| .read fun s =>
        let line := entryLine s a pl cp
        let r := readPlace s a pl n cp
        .seq (.upds r.2) <| .seq (.act fun s => (acq.map (acquireAt s t)).getD []) <| .seq (freshAfter t pl) <| .seq (.done t i.len) <|
          addOp tok t wc (delivers d (loadWords n r.1) la) line (entryCore a) (.load va i.major) fun id => some (.loadReturn id)

/-- R387: the bytes of a size code. -/
def sizeOf (sz : BitVec 2) : Nat := match sz.toNat with
  | 0 => 4
  | 1 => 8
  | 2 => 2
  | _ => 1

/-- R390, R436: CP 0 to 2 perform at the home point. -/
def homeCp (cp : BitVec 2) : Nat := if cp = 3#2 then 3 else 1

/-- LD. -/
def load (i : Instr) (d a : VReg) (wc : BitVec 3) (sz cp : BitVec 2) (la : BitVec 4) (off : Word) : Eff :=
  issueCounted i wc (pairOf a) fun tok t => .read fun s =>
    loadAt i d wc (sizeOf sz) cp.toNat la.toNat none ((s.th t).val64 a + off.signExtend 64) tok t

/-- LDA. -/
def loadAcquire (i : Instr) (d a : VReg) (wc : BitVec 3) (sz : BitVec 1) (cp : BitVec 2) (la : BitVec 4) (scope : BitVec 3) : Eff :=
  issueCounted i wc (pairOf a) fun tok t => .read fun s =>
    loadAt i d wc (if sz = 1#1 then 8 else 4) (homeCp cp) la.toNat (some scope) ((s.th t).val64 a) tok t

def execLd (d a : VReg) (wc : BitVec 3) (sz cp : BitVec 2) (la : BitVec 4) (s : State) : Host.Outcome State Fault Refusal :=
  run (load (.ld d a wc sz cp la) d a wc sz cp la 0#32) s
def execLdOffset (d a : VReg) (wc : BitVec 3) (sz cp : BitVec 2) (la : BitVec 4) (off : Word) (s : State) :
    Host.Outcome State Fault Refusal := run (load (.ldOffset d a wc sz cp la off) d a wc sz cp la off) s
def execLda (d a : VReg) (wc : BitVec 3) (sz : BitVec 1) (cp : BitVec 2) (la : BitVec 4) (s : State) :
    Host.Outcome State Fault Refusal := run (loadAcquire (.lda d a wc sz cp la) d a wc sz cp la 6#3) s
def execLdaScope (d a : VReg) (wc : BitVec 3) (sz : BitVec 1) (cp : BitVec 2) (la : BitVec 4) (scope : BitVec 3) (s : State) :
    Host.Outcome State Fault Refusal := run (loadAcquire (.ldaScope d a wc sz cp la scope) d a wc sz cp la scope) s

/-! ## Stores -/

/-- The data of a store of `n` bytes. -/
def storeBytes (x : Thread) (d : VReg) (n : Nat) : List Byte :=
  if n = 8 then leBytes 8 (x.val64 d).toNat else leBytes n (x.val d).toNat

/-- A place whose stores merge in the thread's combining buffer (R140). -/
def Place.combines : Place → Bool
  | .page p => p.mt == 1
  | _ => false

/-- R434, R436: one thread's store of `bs` at `va`. -/
def storeAt (i : Instr) (bs : List Byte) (wc : BitVec 3) (cp : Nat) (rel : Bool) (va : BitVec 64) (tok : Nat) (t : TId) : Eff :=
  if va.toNat % bs.length ≠ 0 then trap t cAlign va
  else .read fun s =>
    let a := agentOf s t
    match translate s a .store va bs.length with
    | (.error r, us) => .seq (.upds us) (faultAt t r va)
    | (.ok pl, us) => .seq (.upds us) <| .read fun s =>
      if orderBars s a pl then trap t cDorder va
      else withEntry tok t (entryLine s a pl 1) <| .seq (if rel then .act fun s => drainBuffer s t else drainFor t pl) <| .read fun s =>
        let line := entryLine s a pl 1
        let after : Job → Eff := fun job => .seq (freshAfter t pl) <| .seq (.done t i.len) <|
          addOp tok t wc none line (entryCore a) job fun id => some (.accessAck id)
        match pl with
        | .page p =>
          if pl.combines then
            .seq (combine s t p.pa bs va) (.seq (.act fun s => orderAfterWrite s a p.pa) (after (.combined (p.pa / 128))))
          else storeNow a pl (after (.access va i.major)) va
        | _ => storeNow a pl (after (.access va i.major)) va
where
  /-- A store that is performed now; its match is taken after it (R234). -/
  storeNow (a : Agent) (pl : Place) (after : Eff) (va : BitVec 64) : Eff := .read fun s =>
    match writePlace s a pl bs cp with
    | .error w => .waitServed t w
    | .ok us => .seq (.upds us) (.seq after (watchAccess t 1 va.toNat bs.length (leNat bs)))

/-- ST. -/
def store (i : Instr) (d a : VReg) (wc : BitVec 3) (sz cp : BitVec 2) (off : Word) : Eff :=
  issueCounted i wc (pairOf a ++ loadRegs d (sizeOf sz)) fun tok t => .read fun s =>
    let x := s.th t
    storeAt i (storeBytes x d (sizeOf sz)) wc cp.toNat false (x.val64 a + off.signExtend 64) tok t

/-- STL. -/
def storeRelease (i : Instr) (d a : VReg) (wc : BitVec 3) (sz : BitVec 1) (cp : BitVec 2) : Eff :=
  let n := if sz = 1#1 then 8 else 4
  issueCounted i wc (pairOf a ++ loadRegs d n) fun tok t => .read fun s =>
    let x := s.th t
    storeAt i (storeBytes x d n) wc cp.toNat true (x.val64 a) tok t

def execSt (d a : VReg) (wc : BitVec 3) (sz cp : BitVec 2) (la : BitVec 4) (s : State) : Host.Outcome State Fault Refusal :=
  run (store (.st d a wc sz cp la) d a wc sz cp 0#32) s
def execStOffset (d a : VReg) (wc : BitVec 3) (sz cp : BitVec 2) (la : BitVec 4) (off : Word) (s : State) :
    Host.Outcome State Fault Refusal := run (store (.stOffset d a wc sz cp la off) d a wc sz cp off) s
def execStl (d a : VReg) (wc : BitVec 3) (sz : BitVec 1) (cp : BitVec 2) (la : BitVec 4) (s : State) :
    Host.Outcome State Fault Refusal := run (storeRelease (.stl d a wc sz cp la) d a wc sz cp) s
/-- R163: a release performs all earlier stores of its thread, so it holds at every scope. -/
def execStlScope (d a : VReg) (wc : BitVec 3) (sz : BitVec 1) (cp : BitVec 2) (la : BitVec 4) (scope : BitVec 3) (s : State) :
    Host.Outcome State Fault Refusal := run (storeRelease (.stlScope d a wc sz cp la scope) d a wc sz cp) s

/-! ## Atomics -/

/-- A value of `8 n` bits read as a signed number. -/
def signedOf (n v : Nat) : Int := if 2 ^ (8 * n - 1) ≤ v then (v : Int) - 2 ^ (8 * n) else v

/-- R326: the value an operation writes; none when a compare fails. -/
def atomicValue (op n old x b : Nat) : Option Nat :=
  match op with
  | 0 => some ((old + x) % 2 ^ (8 * n))
  | 1 => some (if signedOf n x < signedOf n old then x else old)
  | 2 => some (min old x)
  | 3 => some (if signedOf n old < signedOf n x then x else old)
  | 4 => some (max old x)
  | 5 => some (old &&& x)
  | 6 => some (old ||| x)
  | 7 => some (old ^^^ x)
  | 8 => some x
  | 9 => if old = x then some b else none
  | 10 => some (fadd32 (BitVec.ofNat 32 old) (BitVec.ofNat 32 x)).toNat
  | 11 => some (fminNan (BitVec.ofNat 32 old) (BitVec.ofNat 32 x)).toNat
  | _ => some (fmaxNan (BitVec.ofNat 32 old) (BitVec.ofNat 32 x)).toNat

/-- R329: the operation of ATOMK as one of R326. -/
def keyOp (op : BitVec 2) : Nat := match op.toNat with
  | 0 => 4
  | 1 => 2
  | 2 => 3
  | _ => 1

inductive AtomKind where
  | atom
  | red
  | key
deriving DecidableEq, Repr

/-- R139, R285, R327, R329, R419: can the memory side of a page perform an operation? -/
def sideCan (k : AtomKind) (op : Nat) (pl : Place) (cp : Nat) : Bool :=
  match pl with
  | .page p =>
    if pointOf p cp = 3 then
      (match physRange p.pa with
        | .host => Config.hostAtomics && (match k with
          | .atom => op == 0 || op == 8 || op == 9
          | .red => op == 0
          | .key => false)
        | _ => true)
    else true
  | _ => true

/-- R326 to R329, R419: one thread's atomic of `n` bytes. `x` and `b` are its operands, `d` its destination. -/
def atomicAt (i : Instr) (k : AtomKind) (d : VReg) (wc : BitVec 3) (op n x b : Nat) (cp : BitVec 2) (la ord : Nat) (scope : BitVec 3)
    (va : BitVec 64) (tok : Nat) (t : TId) : Eff := .read fun s =>
  if k ≠ .key ∧ (s.tm t.team).det = true ∧ 10 ≤ op then illegal t 8
  else if va.toNat % n ≠ 0 then trap t cAlign va
  else
    let a := agentOf s t
    match translate s a .atomic va n with
    | (.error r, us) => .seq (.upds us) (faultAt t r va)
    | (.ok pl, us) => .seq (.upds us) <| .read fun s =>
      if !sideCan k op pl cp.toNat then pfault t rTarget va
      else if orderBars s a pl && k != .red then trap t cDorder va
      else withEntry tok t (entryLine s a pl 1) <|
        .seq (if 2 ≤ ord then .act fun s => drainBuffer s t else drainFor t pl) <| .read fun s =>
        let line := entryLine s a pl 1
        let core := entryCore a
        let r := readPlace s a pl n (homeCp cp)
        let old := leNat r.1
        let finish : Option Nat → Eff := fun w =>
          .seq (if ord = 1 ∨ 3 ≤ ord then .act fun s => acquireAt s t scope else .nothing) <| .seq (freshAfter t pl) <|
          .seq (.done t i.len) <|
          .seq (if k = .red then addOp tok t wc none line core (.access va i.major) fun id => some (.accessAck id)
            else addOp tok t wc (delivers d (loadWords n r.1) la) line core (.load va i.major) fun id => some (.loadReturn id))
          (match w with
            | some v => watchAccess t 2 va.toNat n v
            | none => .nothing)
        match atomicValue op n old x b with
        | none => .seq (.upds r.2) (finish none)
        | some v => .seq (.upds r.2) <| .read fun s =>
          match writePlace s a pl (leBytes n v) cp.toNat with
          | .error w => .waitServed t w
          | .ok us => .seq (.upds us) (finish (some v))

/-- The registers of an operand of `n` bytes, and its value. -/
def operand (x : Thread) (r : VReg) (n : Nat) : Nat := if n = 8 then (x.val64 r).toNat else (x.val r).toNat

/-- ATOM and RED. -/
def atomic (i : Instr) (k : AtomKind) (d a : VReg) (wc : BitVec 3) (cp : BitVec 2) (la : BitVec 4) (scope : BitVec 3) (b : VReg)
    (ord : BitVec 3) (op : BitVec 4) (size : BitVec 2) : Eff :=
  let n := if size = 1#2 then 8 else 4
  let cas := op = 9#4
  issueCounted i wc (pairOf a ++ (if cas then loadRegs b n else []) ++ loadRegs d n) fun tok t => .read fun s =>
    let x := s.th t
    atomicAt i k d wc op.toNat n (operand x d n) (operand x b n) cp la.toNat ord.toNat scope (x.val64 a) tok t

/-- ATOMK. -/
def atomicKey (i : Instr) (d a : VReg) (wc : BitVec 3) (op cp : BitVec 2) (la : BitVec 4) (scope ord : BitVec 3) : Eff :=
  issueCounted i wc (pairOf a ++ pairOf d) fun tok t => .read fun s =>
    let x := s.th t
    atomicAt i .key d wc (keyOp op) 8 (operand x d 8) 0 cp la.toNat ord.toNat scope (x.val64 a) tok t

def execAtom (d a : VReg) (wc : BitVec 3) (cp : BitVec 2) (la : BitVec 4) (s : State) : Host.Outcome State Fault Refusal :=
  run (atomic (.atom d a wc cp la) .atom d a wc cp la 6#3 0#7 0#3 0#4 0#2) s
def execAtomExt (d a : VReg) (wc : BitVec 3) (cp : BitVec 2) (la : BitVec 4) (scope : BitVec 3) (b : VReg) (ord : BitVec 3)
    (op : BitVec 4) (size : BitVec 2) (s : State) : Host.Outcome State Fault Refusal :=
  run (atomic (.atomExt d a wc cp la scope b ord op size) .atom d a wc cp la scope b ord op size) s
/-- R418: the plain RED has scope thread. -/
def execRed (d a : VReg) (wc : BitVec 3) (cp : BitVec 2) (la : BitVec 4) (s : State) : Host.Outcome State Fault Refusal :=
  run (atomic (.red d a wc cp la) .red d a wc cp la 0#3 0#7 0#3 0#4 0#2) s
def execRedExt (d a : VReg) (wc : BitVec 3) (cp : BitVec 2) (la : BitVec 4) (scope ord : BitVec 3) (op : BitVec 4) (size : BitVec 2)
    (s : State) : Host.Outcome State Fault Refusal :=
  run (atomic (.redExt d a wc cp la scope ord op size) .red d a wc cp la scope 0#7 ord op size) s
def execAtomk (d a : VReg) (wc : BitVec 3) (op cp : BitVec 2) (la : BitVec 4) (s : State) : Host.Outcome State Fault Refusal :=
  run (atomicKey (.atomk d a wc op cp la) d a wc op cp la 6#3 0#3) s
def execAtomkExt (d a : VReg) (wc : BitVec 3) (op cp : BitVec 2) (la : BitVec 4) (scope ord : BitVec 3) (s : State) :
    Host.Outcome State Fault Refusal := run (atomicKey (.atomkExt d a wc op cp la scope ord) d a wc op cp la scope ord) s

/-! ## PREF, FENCE, PTEST -/

/-- The places of the lines that a PREF names from a line address; none when one of them makes it void (R411). -/
def prefLines (s : State) (a : Agent) (base : BitVec 64) : Nat → Option (List Place) × List Upd
  | 0 => (some [], [])
  | n + 1 =>
    match translate s a .load base 1 with
    | (.ok (.page p), us) =>
      let r := prefLines (s.applyAll us) a (base + 128#64) n
      (if 2 ≤ p.mt then none else r.1.map fun ps => .page p :: ps, us ++ r.2)
    | (_, us) => (none, us)

/-- R411: a line is brought in, sector by sector; a page that every access reaches at the memory side keeps nothing. -/
def prefLine (a : Agent) (cp : Nat) (pl : Place) : Eff :=
  match pl with
  | .page p =>
    if pointOf p cp = 3 then .nothing
    else .each (fun i => .act fun s =>
      let q : Page := { p with pa := p.pa / 128 * 128 + 16 * i }
      if s.uncorrectable q.pa then [] else (readPlace s a (.page q) 16 cp).2) (List.range 8)
  | _ => .nothing

/-- PREF: it completes when its requests are accepted or made void, so its counter does not stay raised. -/
def prefetch (i : Instr) (a : VReg) (wc : BitVec 3) (ln cp : BitVec 2) (off : Word) : Eff :=
  issueCounted i wc (pairOf a) fun _ t => .read fun s =>
    let g := agentOf s t
    let base := ((s.th t).val64 a + off.signExtend 64) &&& ~~~127#64
    let n := 2 ^ ln.toNat
    match (if cp = 3#2 then (none, []) else prefLines s g base n : Option (List Place) × List Upd) with
    | (none, us) => .seq (.upds us) (.done t i.len)
    | (some ps, us) => .seq (.upds us) <| .read fun s =>
      let need := (ps.filter fun pl => (entryLine s g pl cp.toNat).isSome).length
      let core := entryCore g
      if core ≠ 0xFFFF ∧ (entriesFree s core < need ∨ rejectedWaits s core = true) then .done t i.len
      else .seq (.each (prefLine g cp.toNat) ps) (.done t i.len)

def execPref (a : VReg) (wc : BitVec 3) (ln cp : BitVec 2) (la : BitVec 4) (s : State) : Host.Outcome State Fault Refusal :=
  run (prefetch (.pref a wc ln cp la) a wc ln cp 0#32) s
def execPrefOffset (a : VReg) (wc : BitVec 3) (ln cp : BitVec 2) (la : BitVec 4) (off : Word) (s : State) :
    Host.Outcome State Fault Refusal := run (prefetch (.prefOffset a wc ln cp la off) a wc ln cp off) s

/-- R166, R364: FENCE drains the thread's buffer; its acquire part refreshes the copies that its scope reaches (R163, R175). -/
def execFence (kind : BitVec 2) (scope : BitVec 3) (s : State) : Host.Outcome State Fault Refusal :=
  run (issue (.fence kind scope) [] [] fun t =>
    .seq (.act fun s => drainBuffer s t) <|
    .seq (if kind ≠ 2#2 then .act fun s => acquireAt s t scope else .nothing) (.done t 1)) s

/-- R149, R412: PTEST reads the poison bit without consuming it. -/
def execPtest (p : PReg) (a : VReg) (s : State) : Host.Outcome State Fault Refusal :=
  run (issue (.ptest p a) [] [] fun t =>
    .seq (.act fun s => [putPred t p ⟨((s.th t).reg a).poison, false, 0#3⟩]) (.done t 1)) s

/-! ## DISCARD, FLUSHL, INVL -/

/-- A sector of a range: its virtual address and its page. -/
structure SectorAt where
  va : BitVec 64
  page : Page
deriving DecidableEq, Repr

/-- R313, R366: the range translated whole, sector by sector; or the first fault, its reason and its address. -/
def rangeSectors (a : Agent) (k : AccessKind) : Nat → BitVec 64 → State → Except (Nat × BitVec 64) (List SectorAt) × List Upd
  | 0, _, _ => (.ok [], [])
  | n + 1, va, s =>
    match translate s a k va 16 with
    | (.ok (.page p), us) =>
      let r := rangeSectors a k n (va + 16#64) (s.applyAll us)
      (r.1.map fun l => ⟨va, p⟩ :: l, us ++ r.2)
    | (.ok _, us) => (.error (rLocal, va), us)
    | (.error r, us) => (.error (r, va), us)

/-- R366: the first window address of the range of a FLUSHL or INVL, which faults before the range is translated. -/
def windowIn (k : AccessKind) (va l : Nat) : Option Nat :=
  if k = .flush ∧ va < 2 ^ 56 ∧ 0xFF000000000000 < va + l then some (max va 0xFF000000000000) else none

/-- The shared checks of the three instructions: a length of zero is void before poison (R235), then poison, ALIGN, the whole
range. -/
def overRange (i : Instr) (n a : VReg) (k : AccessKind) (go : TId → List SectorAt → Eff) : Eff :=
  issue i [] [] fun t => .read fun s =>
    let x := s.th t
    let l := (x.val n).toNat
    let va := x.val64 a
    if l = 0 then .done t 1
    else match x.poisoned (pairOf a ++ [n]) with
      | some k => poisonTrap t k
      | none =>
        if va.toNat % 16 ≠ 0 ∨ l % 16 ≠ 0 then trap t cAlign va
        else match rangeSectors (agentOf s t) k (l / 16) va s with
          | (.error (r, bad), us) => match windowIn k va.toNat l with
            | some w => faultAt t rLocal (BitVec.ofNat 64 w)
            | none => .seq (.upds us) (faultAt t r bad)
          | (.ok secs, us) => .seq (.upds us) (go t secs)

/-- R156: a sector of an unbacked page is discarded: it is zero and no longer dirty; a line all of whose sectors have been
discarded stops existing, and one that does not exist stays so. It is a write: what a write to its line ends ends (R217, R350). -/
def discardUnbacked (s : State) (a : Agent) (pa : Nat) : List Upd :=
  beforeWrite (pa / 128) ::
  (match s.l2Line? (pa / 128) with
    | none => []
    | some l =>
      let secs := ⟨pa / 16 % 8, List.replicate 16 0#8, false⟩ :: l.secs.filter fun x => x.i != pa / 16 % 8
      if secs.length = 8 ∧ secs.all (fun x => !x.dirty) then [dropLine l.line]
      else [updLine l.line fun l => { l with secs := secs, stamp := s.stamp, written := true }]) ++
    copiesAfterWrite s a 0 pa (List.replicate 16 0#8) ++ orderAfterWrite s a pa

/-- R156, R313, R349: DISCARD of a sector. On a write-combining page its write enters the thread's buffer, which drains before DISCARD
completes (R140 lets a buffer drain at any moment). -/
def discardSector (t : TId) (x : SectorAt) : Eff := .read fun s =>
  let a := agentOf s t
  let p := x.page
  if p.kind = 1 ∨ p.kind = 2 then .act fun s => discardUnbacked s a p.pa
  else if p.mt = 1 then .seq (combine s t p.pa (List.replicate 16 0#8) x.va) (.act fun s => orderAfterWrite s a p.pa)
  else .seq (drainFor t (.page p)) <| .read fun s => match writePlace s a (.page p) (List.replicate 16 0#8) 0 with
    | .ok us => .seq (.upds us) (freshAfter t (.page p))
    | .error _ => .nothing

/-- R277: the first sector that a deterministic launch may not write. -/
def barredSector (s : State) (t : TId) (xs : List SectorAt) : Option SectorAt :=
  xs.find? fun x => orderBars s (agentOf s t) (.page x.page)

def execDiscard (n a : VReg) (s : State) : Host.Outcome State Fault Refusal :=
  run (overRange (.discard n a) n a .discard fun t xs => .read fun s =>
    match barredSector s t xs with
    | some x => trap t cDorder x.va
    | none => .seq (.each (discardSector t) xs) <|
      .seq (if xs.any fun x => x.page.mt == 1 then .act fun s => drainBuffer s t else .nothing) <| .seq (.done t 1) <| .read fun s =>
      match xs.find? fun x => x.page.mt != 1 && (findMatch s t 1 x.va.toNat 16 0).isSome with
      | some x => watchAccess t 1 x.va.toNat 16 0
      | none => .nothing) s

/-- R367: FLUSHL of a sector. -/
def flushSector (t : TId) (x : SectorAt) : Eff := .act fun s =>
  let p := x.page
  if p.mt ≠ 0 then drainBuffer s t
  else if p.kind = 1 ∨ p.kind = 2 then []
  else match (s.l2Line? (p.pa / 128)).bind fun l => l.sec? (p.pa / 16 % 8) with
    | none => []
    | some y =>
      if y.dirty then
        [.store (p.pa / 16 * 16) y.data, updLine (p.pa / 128) fun l =>
          { l with secs := l.secs.map fun z => if z.i = y.i then { z with dirty := false } else z }]
      else []

def execFlushl (n a : VReg) (s : State) : Host.Outcome State Fault Refusal :=
  run (overRange (.flushl n a) n a .flush fun t xs => .seq (.each (flushSector t) xs) (.done t 1)) s

/-- R214, R217: a line's replicas, redirect entries and multicast record end. -/
def endReplicas (line : Nat) : Upd :=
  .part fun p => { p with hots := p.hots.filter fun h => h.line != line, redirects := p.redirects.filter fun r => r.2 != line,
                          mcs := p.mcs.filter fun m => m.line != line }

/-- R217, R368: a line's multicast record ends. -/
def endMulticast (line : Nat) : Upd := .part fun p => { p with mcs := p.mcs.filter fun m => m.line != line }

/-- R367, R368: INVL of a sector, with `.l2` when `l2`. -/
def invalSector (t : TId) (l2 : Bool) (x : SectorAt) : Eff := .act fun s =>
  let p := x.page
  if p.mt ≠ 0 then []
  else dropCopies (agentOf s t) (p.pa / 16) ::
    (if !l2 then [] else if p.kind = 0 then cleanSector s p.pa ++ [endReplicas (p.pa / 128)] else [endMulticast (p.pa / 128)])

def execInvl (n a : VReg) (l2 : BitVec 1) (s : State) : Host.Outcome State Fault Refusal :=
  run (overRange (.invl n a l2) n a .flush fun t xs => .seq (.each (invalSector t (l2 == 1#1)) xs) (.done t 1)) s

/-! ## WAITGE -/

/-- R230: WAITGE is outstanding until a read finds its target reached; instructions beyond its window wait (`heldBack`). -/
def execWaitge (d a : VReg) (wc : BitVec 3) (la : BitVec 4) (s : State) : Host.Outcome State Fault Refusal :=
  run (issueCounted (.waitge d a wc la) wc (pairOf a) fun tok t => .read fun s =>
    let x := s.th t
    let va := x.val64 a
    let g := agentOf s t
    if va.toNat % 8 ≠ 0 then trap t cAlign va
    else match translate s g .load va 8 with
      | (.error r, us) => .seq (.upds us) (faultAt t r va)
      | (.ok pl, us) =>
        if orderBars s g pl then .seq (.upds us) (trap t cDorder va)
        else .seq (.upds us) <| .seq (.done t 1) <|
          .seq (.upds [.thread t fun y => { y with gate := some ⟨y.stamp, x.pc, x.widx, x.ifpN, x.ifpG⟩ }]) <|
          addOp tok t wc (some ⟨0#7, 0, some [], la.toNat⟩) none 0xFFFF (.waitge va (x.val64 d))
            fun _ => some (.waitgeRead t)) s

/-- One read of a counter by a WAITGE: it completes, as an acquire, when the target is reached (R179); a fault counts as below it, and
the resident kernel is offered it, or told of it (R230, R236). -/
def readCounter (t : TId) (id : Nat) (va target : BitVec 64) : Eff := .read fun s =>
  let a := agentOf s t
  match translate s a .load va 8 with
  | (.error r, us) => .upds (us ++ [Upd.report (.fault va (BitVec.ofNat 4 r))])
  | (.ok pl, us) => .seq (.upds us) (readsCounter t pl target.toNat (completeOp id) .nothing)

/-- WAITGE_READ: the WAITGEs of a thread read their counters, while its team is at its place; it is owed while one waits. -/
def execWaitgeRead (t : TId) (s : State) : Host.Outcome State Fault Refusal :=
  run (.read fun s =>
    .seq (.each (fun o => match o.job with
      | .waitge va target => if o.t = t ∧ teamHere s t.team = true then readCounter t o.id va target else .nothing
      | _ => .nothing) s.part.ops) <|
    .act fun s => if s.part.ops.any fun o => o.t == t && (match o.job with
      | .waitge _ _ => true
      | _ => false) then [.event (.waitgeRead t)] else []) s

/-! ## Completion -/

/-- LOAD_RETURN: the data is written to its registers and the wait counter falls (R388, R60). -/
def execLoadReturn (op : Nat) (s : State) : Host.Outcome State Fault Refusal := run (completeOp op) s

/-- The access of a core that was rejected first. -/
def oldestRejected (s : State) (core : Nat) : Option TId :=
  ((s.threads.filter fun x => x.run.rejected && (s.gr x.id.gid).core == core).foldl (init := (none : Option (TId × Nat))) fun b x =>
    match x.run, b with
    | .waiting (.mshr _ n), some (_, m) => if n < m then some (x.id, n) else b
    | .waiting (.mshr _ n), none => some (x.id, n)
    | _, _ => b).map Prod.fst

/-- R150: `n` entries are granted, each to the access that was rejected first. -/
def grantEntries (core : Nat) : Nat → Eff
  | 0 => .nothing
  | n + 1 => .seq (.act fun s => match oldestRejected s core with
      | some t => [.thread t fun y => { y with run := match y.run with
        | .waiting (.mshr _ k) => .waiting (.mshr true k)
        | r => r }]
      | none => []) (grantEntries core n)

/-- MSHR_GRANT (R150). -/
def execMshrGrant (core : Nat) (s : State) : Host.Outcome State Fault Refusal :=
  run (.read fun s => grantEntries core (entriesFree s core)) s

/-- WC_DRAIN_TIMEOUT: due 100 TIME cycles after the buffer was opened (R140). -/
def execWcDrainTimeout (t : TId) (s : State) : Host.Outcome State Fault Refusal :=
  run (.act fun s => match (s.th t).wcBuf with
    | none => []
    | some b => if b.since + 100 ≤ s.time then drainBuffer s t else [.event (.wcDrainTimeout t)]) s

/-- RDC_LEASE_END (R175): the copy serves no further read. -/
def execRdcLeaseEnd (die sector : Nat) (s : State) : Host.Outcome State Fault Refusal :=
  run (.upds [.part fun p => { p with rdc := dropCopy p.rdc die sector }]) s

end Sys2Proof.Machine
end

