-- ==== Sys2Proof/Machine/Multicast.lean ====
section
/-! DEFINITION. LDMC (R182, R215 to R218, R391): the masked multicast of lines into scratchpads, its merge window, its records and
its delivery. -/

namespace Sys2Proof.Machine

/-- The number of lines and the scratchpad offset at which a delivery ends. -/
def ldmcBytes (nl : BitVec 7) : Nat := (nl.toNat + 1) * 128

/-- R216, R278: the lowest mask bit that names no core of the cluster, or in a deterministic launch none of the team. The spec gives a
supervisor core a stop in a cluster (R209, R427) and its mask no outcome: every bit of it counts as a core that is not present
(DESIGN CHOICE, log 56). -/
def badMaskBit (s : State) (t : TId) (mask : BitVec 64) : Option Nat :=
  let g := s.gr t.gid
  let x := s.tm t.team
  (List.range 64).find? fun p =>
    let core := g.core / 48 * 48 + p
    mask.getLsbD p && (decide (47 < p) || x.sup.isSome || !cellHas s.part.cellPresent (core / 4) || (x.det && !x.cores.any (· == core)))

/-- The bits of a mask whose cores hold no resident team of the context with a claim over the destination (R216). -/
def droppedBits (s : State) (t : TId) (mask : BitVec 64) (dest n : Nat) : List Nat :=
  let core0 := (s.gr t.gid).core / 48 * 48
  (List.range 48).filter fun p => mask.getLsbD p && !inClaim s (s.tm t.team).ctx (core0 + p) dest n

/-- The pages of consecutive lines from an address, or the first fault: reason and address; a page of type 2 or 3 is no target. -/
def ldmcLines (a : Agent) : Nat → BitVec 64 → State → Except (Nat × BitVec 64) (List SectorAt) × List Upd
  | 0, _, _ => (.ok [], [])
  | n + 1, va, s =>
    match translateBut (fun p => decide (2 ≤ p.mt)) s a .load va 128 with
    | (.ok (.page p), us) =>
      let r := ldmcLines a n (va + 128#64) (s.applyAll us)
      (r.1.map fun l => ⟨va, p⟩ :: l, us ++ r.2)
    | (.ok _, us) => (.error (rLocal, va), us)
    | (.error r, us) => (.error (r, va), us)

/-- The 128 bytes of a line, read at its home point or at the memory side. -/
def lineBytes (s : State) (a : Agent) (p : Page) : List Byte :=
  (List.range 128).map fun i => placeByte s a (.page { p with pa := p.pa / 128 * 128 + i })

def State.mc? (s : State) (line : Nat) : Option McRec := s.part.mcs.find? fun m => m.line == line

/-- R217: a request joins a line's multicast record, with the value it multicasts, or opens one with a fresh read. -/
def joinRecord (a : Agent) (x : SectorAt) : Eff := .act fun s =>
  match s.mc? (x.page.pa / 128) with
  | some _ => []
  | none =>
    [.part fun p => { p with mcs := ⟨s.nextId, x.page.pa / 128, lineBytes s a x.page, true, s.time, (s.die x.page.home).netctl⟩ :: p.mcs }, .named 1,
     .event (.ldmcMergeEnd s.nextId)] ++ usedPlaces s a ((List.range 8).map fun i => .page { x.page with pa := x.page.pa / 128 * 128 + 16 * i })

/-- The first sector of the lines that a deterministic launch may not read (R277). -/
def barredLine (s : State) (a : Agent) (xs : List SectorAt) : Option SectorAt :=
  xs.find? fun x => (List.range 8).any fun i => orderBars s a (.page { x.page with pa := x.page.pa + 16 * i })

/-- LDMC of one thread with its mask, from its checks on. -/
def ldmcAt (i : Instr) (d : VReg) (wc : BitVec 3) (la dest n : Nat) (mask va : BitVec 64) (tok : Nat) (t : TId) : Eff := .read fun s =>
  let a := agentOf s t
  match badMaskBit s t mask with
  | some p => trap t cMcmask (BitVec.ofNat 64 p)
  | none =>
    if va.toNat % 128 ≠ 0 ∨ 524288 < dest + n then trap t cAlign va
    else match ldmcLines a (n / 128) va s with
      | (.error (r, bad), us) =>
        .seq (.upds us) (offer t bad r (poisonLoad i tok t wc d (pairOf d) bad r la))
      | (.ok xs, us) => .seq (.upds us) <|
        if mask = 0#64 then .seq (.done t i.len) (returns tok t wc d [0#32, 0#32] la)
        else .read fun s => match barredLine s a xs with
          | some x => trap t cDorder x.va
          | none =>
            let drop := droppedBits s t mask dest n
            let dm := bitsOf drop
            let core0 := (s.gr t.gid).core / 48 * 48
            let dests := ((List.range 48).filter fun p => mask.getLsbD p && !drop.contains p).map (core0 + ·)
            .seq (.each (joinRecord a) xs) <| .seq (.done t i.len) <| .read fun s =>
              let recs := xs.filterMap fun x => s.mc? (x.page.pa / 128)
              let was := (landing dest dests recs.length).flatMap fun k => s.bytes k 128
              addOp tok t wc (delivers d [BitVec.ofNat 32 dm, BitVec.ofNat 32 (dm / 2 ^ 32)] la) none 0xFFFF
                (.ldmc (recs.map McRec.id) (recs.map fun m => (m.line, m.data)) dest dests was []) fun id => some (.ldmcDeliveryDone id)

def execLdmc (d a : VReg) (wc : BitVec 3) (la : BitVec 4) (doff : BitVec 12) (nl : BitVec 7) (s : State) :
    Host.Outcome State Fault Refusal :=
  run (issueCounted (.ldmc d a wc la doff nl) wc (pairOf d ++ pairOf a) (commanding wc fun tok t => .read fun s =>
    let x := s.th t
    ldmcAt (.ldmc d a wc la doff nl) d wc la.toNat (doff.toNat * 128) (ldmcBytes nl) (x.val64 d) (x.val64 a) tok t)) s

/-- R1, R212: have `n` fabric cycles of 2.0 GHz, ten to a TIME cycle, passed since a TIME? -/
def fabricOver (s : State) (since n : Nat) : Bool := decide (n ≤ 10 * (s.time - since))

/-- LDMC_MERGE_END: due when a record's merge window of 16 × 2^MCWIN fabric cycles is over; the record is kept for its hold time. -/
def execLdmcMergeEnd (rid : Nat) (s : State) : Host.Outcome State Fault Refusal :=
  run (.act fun s => match s.part.mcs.find? fun m => m.id == rid with
    | none => []
    | some m =>
      if !fabricOver s m.since (16 * 2 ^ (m.ctl.toNat / 2 ^ 8 % 16)) then [.event (.ldmcMergeEnd rid)]
      else [.part fun p => { p with mcs := p.mcs.map fun m => if m.id = rid then { m with merging := false, since := s.time } else m },
        .event (.ldmcHoldEnd rid)]) s

/-- LDMC_HOLD_END: due when a record has been held for 2^(MCHOLD + 8) fabric cycles; the record ends. -/
def execLdmcHoldEnd (rid : Nat) (s : State) : Host.Outcome State Fault Refusal :=
  run (.act fun s => match s.part.mcs.find? fun m => m.id == rid with
    | none => []
    | some m =>
      if !fabricOver s m.since (2 ^ (m.ctl.toNat / 2 ^ 4 % 16 + 8)) then [.event (.ldmcHoldEnd rid)]
      else [.part fun p => { p with mcs := p.mcs.filter fun m => m.id != rid }]) s

/-- R218: a byte that has been written since its delivery began ends as either of the two values. -/
def eitherByte (s : State) (i : Nat) (hit : Bool) (was now data : Byte) : Byte :=
  if (was = now ∧ hit = false) ∨ (s.freeWord i).getLsbD 0 = true then data else now

/-- The lines of an LDMC, in order, over every recipient's scratchpad. -/
def deliverLines (s : State) (dest : Nat) (dests : List Nat) (lines : List (Nat × List Byte)) (was : List Byte) (hits : List Nat) : List Upd :=
  let keys := (landing dest dests lines.length).flatMap fun k => (List.range 128).map (k + ·)
  let data := lines.flatMap fun l => dests.flatMap fun _ => l.2
  [.stores ((keys.zip (was.zip data)).zipIdx.map fun (x, i) => (x.1, eitherByte s i (hits.contains x.1) x.2.1 (s.byte x.1) x.2.2)),
   .drawn keys.length] ++ (landing dest dests lines.length).flatMap fun k => noteLandings s k 128

/-- LDMC_DELIVERY_DONE: due when the windows of its records have closed; every line is written on every recipient and the LDMC
completes. -/
def execLdmcDeliveryDone (op : Nat) (s : State) : Host.Outcome State Fault Refusal :=
  run (.read fun s =>
    match ((s.op? op).map Op.job : Option Job) with
    | some (.ldmc recs lines dest dests was hits) =>
      if s.part.mcs.any fun m => m.merging && recs.contains m.id then .upds [.event (.ldmcDeliveryDone op)]
      else .seq (.upds (deliverLines s dest dests lines was hits)) (completeOp op)
    | _ => .nothing) s

/-- R218: is a delivery dests a core of a team still outstanding? -/
def deliveriesTo (s : State) (k : Nat) : Bool :=
  s.part.ops.any fun o => match o.job with
    | .ldmc _ _ _ dests _ _ => dests.any fun c => (s.tm k).cores.any (· == c)
    | _ => false

end Sys2Proof.Machine
end

