-- ==== Sys2Proof/Machine/Matrix.lean ====
section
/-! DEFINITION. The matrix unit (07): convergence registers and rounds (R186 to R189, R382, R396, R397, R451), operand-buffer records
(R191, R193, R406), OPFENCE, MWAIT and MPROG (R199, R201, R402, R403, R408), the steps of an operation (R190, R192, R194, R197), and the
accumulator commands (R195, R196, R318 to R320). -/

namespace Sys2Proof.Machine

/-! ## Operand-buffer records (R191) -/

def recFmt (r : BitVec 64) : Nat := r.toNat / 2 ^ 61
def recLen (r : BitVec 64) : Nat := if r.toNat / 2 ^ 48 % 64 = 0 then 64 else r.toNat / 2 ^ 48 % 64
def recScoff (r : BitVec 64) : Nat := r.toNat / 2 ^ 32 % 2 ^ 14
def recSsoff (r : BitVec 64) : Nat := r.toNat / 2 ^ 16 % 2 ^ 14
def recNt (r : BitVec 64) : Nat := r.toNat / 2 ^ 8 % 256
def recBase (r : BitVec 64) : Nat := r.toNat % 64
/-- R192: the bytes of a tile. -/
def tileSize (fmt : Nat) : Nat := if fmt = 4 then 2048 else 4096

/-- R193: may a record not be written? -/
def recBad (r : BitVec 64) : Bool :=
  let f := recFmt r
  let lim := recLen r * 4096
  decide (4 < f) || r.toNat / 2 ^ 54 % 128 != 0 || r.toNat / 2 ^ 46 % 4 != 0 || r.toNat / 2 ^ 30 % 4 != 0 || r.toNat / 2 ^ 6 % 4 != 0 ||
    recNt r == 0 || (f != 4 && (recScoff r != 0 || recSsoff r != 0)) ||
    (f == 4 && (decide (lim < recNt r * 2048) || decide (lim < recScoff r * 16 + 64 * recNt r) ||
      decide (lim < recSsoff r * 16 + 4 * ((64 * recNt r + 255) / 256))))

def Team.obRec (x : Team) (m : BitVec 4) : BitVec 64 := x.ob[m.toNat]'m.isLt
def Team.kreg (x : Team) (k : BitVec 3) : KReg := x.k[k.toNat]'k.isLt
def Upd.kreg (t : Nat) (k : BitVec 3) (f : KReg → KReg) : Upd := .team t fun x => { x with k := updAt x.k k.toNat f }
/-- R193: a record is written, or its NT set to 0. -/
def Upd.obRec (t : Nat) (m : BitVec 4) (v : Option (BitVec 64)) : Upd :=
  .team t fun x => { x with ob := updAt x.ob m.toNat fun old => v.getD (old &&& ~~~0xFF00#64) }

/-- R193: does an issued operation read a record of a team? -/
def recordRead (s : State) (k : Nat) (m : BitVec 4) : Bool := (matrixJobs s).any fun j => j.2.team == k && j.2.ob == m

/-! ## KSET, signing -/

/-- R9: the groups of a team. -/
def groupCount (x : Team) : Nat := (x.threads + x.w - 1) / x.w

/-- R187: quarter `q` of a set. -/
def quarter (x : Team) (g0 q : Nat) : Nat := g0 + q * max 1 x.cores.length

/-- R187, R382. -/
def execKset (k : BitVec 3) (a : VReg) (p : PReg) (s : State) : Host.Outcome State Fault Refusal :=
  run (issue (.kset k a p) [] [] fun t => .read fun s =>
    let x := s.tm t.team
    let g0 := ((s.th t).val a).toNat % 512
    if (matrixJobs s).any fun j => j.2.team == t.team && j.2.k == k then .wait t .matrix
    else
      let ok := !(x.kreg k).isOpen && decide (quarter x g0 3 < groupCount x)
      .seq (.upds (if ok then [.kreg t.team k fun _ => ⟨true, false, 0, [], BitVec.ofNat 9 g0⟩] else [])) <|
        .seq (.upds [putPred t p ⟨ok, false, 0#3⟩]) (.done t 1)) s

/-- The signers of a round: the live threads of the four groups of the set (R189). -/
def signers (s : State) (k : Nat) (r : KReg) : List Thread :=
  (s.teamThreads k).filter fun x => x.live && (List.range 4).any fun q => quarter (s.tm k) r.g0.toNat q == x.id.group

/-- R189: has every signer of an open round signed? -/
def roundFull (s : State) (k : Nat) (r : KReg) : Bool :=
  r.isOpen && (signers s k r).all fun x => r.sigs.any fun g => g.t == x.id

/-- The registers of a signature's B words (R194). -/
def bCount (w nk : Nat) : Nat := (nk + 1) * (256 / w)

/-- R189: a signature's own checks, in the order of its table, then the signature. It finds kn as it stands, also where it is not ordered
after a KSET (DESIGN CHOICE, log 56). -/
def signRound (i : Instr) (quant : Bool) (b : VReg) (k : BitVec 3) (ob : BitVec 4) (wc : BitVec 3) (nk : BitVec 4) (atile : BitVec 8)
    (reuse z : BitVec 1) (crow : BitVec 13) (tok : Nat) (t : TId) : Eff := .read fun s =>
  let x := s.tm t.team
  let r := x.kreg k
  let rec_ := x.obRec ob
  let ci := ciOf s t
  if r.sigs.any fun g => g.t == t then .wait t .matrix
  else if !r.valid || !(List.range 4).any fun q => quarter x r.g0.toNat q == t.group then illegal t 1
  else if recNt rec_ = 0 ∨ (recFmt rec_ = 4) ≠ (quant = true) then illegal t 2
  else if recNt rec_ < atile.toNat + nk.toNat + 1 then illegal t 3
  else match outsideRow s t.team crow.toNat 64 with
    | some row => pfault t rLocal (BitVec.ofNat 64 row)
    | none => match landedRow s t.team ci crow.toNat 64 with
      | some row => pfault t rLocal (BitVec.ofNat 64 row)
      | none =>
        let th := s.th t
        let sig : Nat → Sig := fun op => ⟨t, b, ob, crow, atile, nk, z, reuse, quant, wc, (th.v.toList.drop b.toNat).map Reg.val, op⟩
        let a := recBase rec_ * 4096 + atile.toNat * tileSize (recFmt rec_)
        let win : Nat → Window := fun op =>
          ⟨t, k, wc, ci, crow.toNat, a, a + (nk.toNat + 1) * tileSize (recFmt rec_), b, bCount x.w nk.toNat, op, [], []⟩
        .seq (.done t i.len) <|
        .seq (.act fun s => [.kreg t.team k (fun r => { r with isOpen := true, sigs := r.sigs ++ [sig s.nextId] }),
          .part fun p => { p with windows := win s.nextId :: p.windows }]) <|
        .seq (addOp tok t wc none none (s.gr t.gid).core (.sign k) fun _ => none) <|
        .act fun s => if roundFull s t.team ((s.tm t.team).kreg k) then [.event (.mmaRoundIssue t.team k)] else []

def execMma (b : VReg) (k : BitVec 3) (ob : BitVec 4) (wc : BitVec 3) (la nk : BitVec 4) (atile : BitVec 8) (reuse z : BitVec 1)
    (crow : BitVec 13) (s : State) : Host.Outcome State Fault Refusal :=
  let i : Instr := .mma b k ob wc la nk atile reuse z crow
  run (.read fun s => issueCounted i wc (i.names (s.gr s.cur.gid).w) (commanding wc (signRound i false b k ob wc nk atile reuse z crow))) s

def execMmaq (b : VReg) (k : BitVec 3) (ob : BitVec 4) (wc : BitVec 3) (la nk : BitVec 4) (atile : BitVec 8) (reuse z : BitVec 1)
    (crow : BitVec 13) (s : State) : Host.Outcome State Fault Refusal :=
  let i : Instr := .mmaq b k ob wc la nk atile reuse z crow
  run (.read fun s => issueCounted i wc (i.names (s.gr s.cur.gid).w) (commanding wc (signRound i true b k ob wc nk atile reuse z crow))) s

/-! ## The operation -/

/-- R190: what completion does besides: the windows of threads that have exited close; OBRES and OBREL whose record is no longer
read take effect, in order. -/
def afterMatrix (k : Nat) : Eff := .read fun s =>
  .seq (.each (fun o => match o.job with
    | .obres m v => .read fun s =>
      if o.t.team = k ∧ !recordRead s k m then .seq (.upds [.obRec k m v]) (completeOp o.id) else .nothing
    | _ => .nothing) s.part.ops) <|
  .read fun s => .each (fun x => if x.live then .nothing else .read fun s =>
    closeOperandWindows x.id fun w => (s.op? w.tag).isNone) (s.teamThreads k)

/-- An operation completes: its C rows are free values when a window of it was disturbed; every signer's counter falls. -/
def completeMatrix (id : Nat) (j : MatrixJob) : Eff :=
  .seq (.upds [.dropOp id, .kreg j.team j.k fun r => { r with done := 0 }]) <|
  .seq (.each (fun g => completeOp g.opId) j.sigs) (.seq spoilRows (afterMatrix j.team))

/-- The signature with the lowest TID. -/
def lowestSig : List Sig → Option Sig
  | [] => none
  | g :: gs => match lowestSig gs with
    | none => some g
    | some h => if g.t.group < h.t.group ∨ (g.t.group = h.t.group ∧ g.t.idx < h.t.idx) then some g else some h

/-- R451: does the record still fit a round that issues? -/
def roundFits (r : BitVec 64) (g : Sig) : Bool :=
  recNt r != 0 && ((recFmt r == 4) == g.quant) && decide (g.atile.toNat + g.nk.toNat + 1 ≤ recNt r)

/-- MMA_ROUND_ISSUE: the round of a register issues when every signer has signed; its windows are those of the
operation, whose operands are those of the signer with the lowest TID. -/
def execMmaRoundIssue (team : Nat) (k : BitVec 3) (s : State) : Host.Outcome State Fault Refusal :=
  run (.read fun s =>
    let x := s.tm team
    let r := x.kreg k
    match (if roundFull s team r then lowestSig r.sigs else none : Option Sig) with
    | none => if r.isOpen && roundFull s team r then .upds [.kreg team k fun r => { r with isOpen := false, sigs := [] }] else .nothing
    | some g =>
      let rec_ := x.obRec g.ob
      let id := s.nextId
      let j : MatrixJob := ⟨team, k, ciOf s g.t, g.ob, rec_, g.crow.toNat, g.atile.toNat, g.nk.toNat, g.z == 1#1, g.quant,
        r.g0.toNat, r.sigs, 0⟩
      let a := recBase rec_ * 4096 + j.atile * tileSize (recFmt rec_)
      let ofRound : Window → Bool := fun w => r.sigs.any fun q => q.opId == w.tag
      let moved : Window → Window := fun w =>
        if ofRound w then
          { w with row := j.crow, aLo := a, aHi := a + (j.nk + 1) * tileSize (recFmt rec_), nv := bCount x.w j.nk }
        else w
      .seq (.upds [.kreg team k (fun r => { r with isOpen := false, sigs := [] }), .named 1]) <|
      if roundFits rec_ g then
        .upds [.part (fun p => { p with windows := p.windows.map moved }),
          .addOp ⟨id, id, g.t, none, none, none, coreAt s team (ciOf s g.t), .matrix j⟩, .event (.matrixStep id)]
      else
        .seq (.each (fun q => completeOp q.opId) r.sigs) <|
        .seq (.upds [.part fun p => { p with windows := p.windows.filter fun w => !ofRound w }]) (afterMatrix team)) s

/-- R117: the N4Q codebook, as FP16. -/
def n4qLevel (i : Nat) : Nat :=
  [0xBC00, 0xB980, 0xB828, 0xB640, 0xB480, 0xB1D0, 0xADC0, 0x0000, 0x2D00, 0x3110, 0x33D0, 0x3560, 0x3708, 0x387C, 0x39C8,
   0x3C00].getD i 0

/-- R118: the block scale of a code and a super-scale; a NaN or an infinite super-scale makes it NaN (R397). -/
def blockScale (code : Nat) (sup : Word) : Word :=
  match unpack32 sup with
  | .fin s m e =>
    if code = 0 then 0#32
    else
      let n := m * code * 2 ^ 64
      round32 (sticky s (n / 255) (e - 64) (n % 255 != 0))
  | _ => 0x7FC00000#32

/-- R192: the number of elements of a step, and the format of A and B elements of an operation (format code 4: B is F8). -/
def stepK (fmt : Nat) : Nat := if fmt ≤ 1 then 32 else 64
def elemFmt (fmt : Nat) : Fmt := if fmt = 0 then bf16 else if fmt = 1 then fp16 else f8

/-- R192: the raw A elements of row `m` of a tile whose bytes start at a key. -/
def aElems (s : State) (fmt key m : Nat) : List Nat :=
  if fmt ≤ 1 then (List.range 32).map fun i => leNat (s.bytes (key + 64 * m + 2 * i) 2)
  else if fmt ≤ 3 then (List.range 64).map fun i => (s.byte (key + 64 * m + i)).toNat
  else (List.range 64).map fun i => (s.byte (key + 32 * m + i / 2)).toNat / 16 ^ (i % 2) % 16

/-- R194: word `wi` of quarter `q` for step `st`: an unsigned lane contributes zero. -/
def bWord (w c : Nat) (j : MatrixJob) (st q wi : Nat) : Nat :=
  match j.sigs.find? fun g => g.t.group == j.g0 + q * c && g.t.idx == wi % w with
  | some g => (g.bregs.getD (st * (256 / w) + wi / w) 0#32).toNat
  | none => 0

/-- R194: the raw B elements of column `n` for step `st`. -/
def bElems (w c fmt : Nat) (j : MatrixJob) (st n : Nat) : List Nat :=
  let per := if fmt ≤ 1 then 2 else 4
  (List.range (stepK fmt)).map fun k => bWord w c j st (n / 16) (k / per * 16 + n % 16) / 2 ^ (32 / per * (k % per)) % 2 ^ (32 / per)

/-- A raw .s8 element. -/
def s8 (x : Nat) : Int := if 128 ≤ x then (x : Int) - 256 else x

/-- R124, R125, R197: the group sum of a row and a column; for an N4Q block with scale `sc`, rounded after scaling. -/
def groupOf (fmt : Nat) (as bs : List Nat) (sc : Word) : Word :=
  if fmt = 3 then BitVec.ofInt 32 ((as.zip bs).foldl (fun z p => z + s8 p.1 * s8 p.2) 0)
  else if fmt = 4 then
    fmul32 (round32 (groupSum ((as.zip bs).map fun p => (fp16.unpack (n4qLevel p.1)).mul (f8.unpack p.2)))) sc
  else round32 (groupSum ((as.zip bs).map fun p => ((elemFmt fmt).unpack p.1).mul ((elemFmt fmt).unpack p.2)))

/-- R197: C row `m` after step `st`, from the row before it. -/
def cRow (s : State) (j : MatrixJob) (st m : Nat) : List Word :=
  let x := s.tm j.team
  let fmt := recFmt j.record
  let base := recBase j.record * 4096
  let tile := j.atile + st
  let as := aElems s fmt (obKey s j.team j.ci (base + tile * tileSize fmt)) m
  let code := (s.byte (obKey s j.team j.ci (base + recScoff j.record * 16 + 64 * tile + m))).toNat
  let sc := if fmt = 4 then
      blockScale code (BitVec.ofNat 32 (s.num (obKey s j.team j.ci (base + recSsoff j.record * 16 + 4 * ((64 * tile + m) / 256))) 4))
    else 0#32
  -- R397: a code of 0 gives a product of +0, unless its super-scale makes it NaN
  let zero := fmt == 4 && code == 0 && sc == 0#32
  (rowWords s j.team j.ci (j.crow + m)).mapIdx fun n c =>
    let g := if zero then 0#32 else groupOf fmt as (bElems x.w (max 1 x.cores.length) fmt j st n) sc
    if st = 0 ∧ j.z = true then g else if fmt = 3 then c + g else fadd32 c g

/-- One step of an operation: its 64 rows; windows of other registers on those rows are disturbed (R200). -/
def matrixRows (j : MatrixJob) : Eff :=
  .seq (.act fun s => [disturb j.team j.ci false j.crow (j.crow + 64) fun w => w.k != j.k &&
      ((s.op? w.tag).isSome || j.sigs.any fun g => g.t == w.t)]) <|
  .seq (.each (fun m => .act fun s => [storeRow s j.team j.ci (j.crow + m) (cRow s j j.done m)]) (List.range 64)) spoilRows

/-- MATRIX_STEP: due when the operation is the oldest of its core and its team is at its place (R190, R202). An older operation whose team
comes back goes first again, between the steps of a later one (DESIGN CHOICE, log 56). -/
def execMatrixStep (op : Nat) (s : State) : Host.Outcome State Fault Refusal :=
  run (.read fun s =>
    match (matrixJobs s).find? fun j => j.1 == op with
    | none => .nothing
    | some (_, j) =>
      let first := (matrixJobs s).find? fun i => teamHere s i.2.team && coreAt s i.2.team i.2.ci == coreAt s j.team j.ci
      if !teamHere s j.team || first.any fun i => i.1 != op then .upds [.event (.matrixStep op)]
      else
        let j' : MatrixJob := { j with done := j.done + 1 }
        .seq (matrixRows j) <|
        .seq (.upds [.op op (fun o => { o with job := .matrix j' }), .kreg j.team j.k fun r => { r with done := j'.done }]) <|
        if j.nk < j'.done then completeMatrix op j else .upds [.event (.matrixStep op)]) s

/-! ## OPFENCE, MWAIT, MPROG -/

/-- R199, R408: every OBRES, OBREL, OBLD and ACCLD of the thread has completed; its ACCZ are performed when they issue. -/
def execOpfence (s : State) : Host.Outcome State Fault Refusal :=
  run (issue .opfence [] [] fun t => .read fun s =>
    if s.part.ops.any fun o => o.t == t && o.fenced then .wait t .opfence else .done t 1) s

/-- R199, R403: MWAIT closes the operand window of its register; what was written before the signatures is what the thread reads after it
(R178, R180). -/
def execMwait (k : BitVec 3) (s : State) : Host.Outcome State Fault Refusal :=
  run (issue (.mwait k) [] [] fun t => .read fun s =>
    if s.part.ops.any fun o => o.t == t && o.job == .sign k then .wait t .matrix
    else .seq (.act fun s => acquire s t) (.seq (closeOperandWindows t fun w => w.k == k) (.done t 1))) s

/-- R201: the matrix progress of a register. -/
def matrixProgress (s : State) (k : Nat) (n : BitVec 3) : Word :=
  let r := (s.tm k).kreg n
  let busy := r.isOpen || (matrixJobs s).any fun j => j.2.team == k && j.2.k == n
  BitVec.ofBool busy ++ 0#6 ++ BitVec.ofNat 9 r.sigs.length ++ 0#11 ++ BitVec.ofNat 5 r.done

def execMprogMat (d : VReg) (k : BitVec 3) (s : State) : Host.Outcome State Fault Refusal :=
  run (issue (.mprogMat d k) [] [] fun t =>
    .seq (.act fun s => putReg s t d ⟨matrixProgress s t.team k, false, 0#3⟩) (.done t 1)) s

/-- R229, R402: the progress of the thread's oldest COPY. -/
def copyProgress (s : State) (t : TId) : Word :=
  match s.part.ops.findSome? fun o => (match o.job with
    | .copy c => if o.t = t then some c.row else none
    | _ => none) with
  | some n => 1#1 ++ 0#7 ++ BitVec.ofNat 24 n
  | none => 0#32

def execMprogCopy (d : VReg) (s : State) : Host.Outcome State Fault Refusal :=
  run (issue (.mprogCopy d) [] [] fun t =>
    .seq (.act fun s => putReg s t d ⟨copyProgress s t, false, 0#3⟩) (.done t 1)) s

/-! ## OBRES, OBREL, OBLD -/

/-- R193: a record is written at once when no issued operation reads it; otherwise when the last of them completes. -/
def writeRecord (tok : Nat) (t : TId) (wc : BitVec 3) (m : BitVec 4) (v : Option (BitVec 64)) (len : Nat) : Eff := .read fun s =>
  if recordRead s t.team m then .seq (.done t len) (addOp tok t wc none none (s.gr t.gid).core (.obres m v) fun _ => none)
  else .seq (.upds [.obRec t.team m v]) (.done t len)

def execObres (ob : BitVec 4) (a : VReg) (wc : BitVec 3) (la : BitVec 4) (s : State) : Host.Outcome State Fault Refusal :=
  run (issueCounted (.obres ob a wc la) wc [] fun tok t => .read fun s =>
    let r := (s.th t).val64 a
    let stop := (recBase r + recLen r) * 4096
    if recBad r then illegal t 4
    else if (s.tm t.team).claim.obSize < stop then pfault t rLocal (BitVec.ofNat 64 stop)
    else writeRecord tok t wc ob (some r) 1) s

/-- OBREL: NT := 0, in the record as it stands when the wait is over. -/
def execObrel (ob : BitVec 4) (wc : BitVec 3) (la : BitVec 4) (s : State) : Host.Outcome State Fault Refusal :=
  run (issueCounted (.obrel ob wc la) wc [] fun tok t => writeRecord tok t wc ob none 1) s

/-- R407: is byte `x` of a team's operand buffer on a core among those that an OBLD under way has written? -/
def obldUnder (s : State) (k ci x : Nat) : Bool := s.part.ops.any fun o => o.t.team == k && (match o.job with
  | .obld c lo hi => c == ci && decide (lo ≤ x) && decide (x < hi)
  | _ => false)

/-- R407: the bytes that an OBLD leaves: over those of another OBLD under way, each byte is either's, by a free word. -/
def obldBytes (s : State) (k ci lo : Nat) (bs : List Byte) : List Byte := bs.zipIdx.map fun (b, i) =>
  if obldUnder s k ci (lo + i) && (s.freeWord i).getLsbD 0 then s.byte (obKey s k ci (lo + i)) else b

/-- R193: OBLD: the bytes are stored as it issues, and it is under way until its completion. -/
def execObld (ob : BitVec 4) (a : VReg) (wc : BitVec 3) (la : BitVec 4) (n doff : BitVec 14) (s : State) :
    Host.Outcome State Fault Refusal :=
  let i : Instr := .obld ob a wc la n doff
  run (issueCounted i wc (pairOf a) (commanding wc fun tok t => .read fun s =>
    let r := (s.tm t.team).obRec ob
    let off := doff.toNat * 16
    let len := n.toNat * 16
    let va := (s.th t).val64 a
    if recNt r = 0 then pfault t rLocal (BitVec.ofNat 64 off)
    else if recLen r * 4096 < off + len then pfault t rLocal (BitVec.ofNat 64 (off + len))
    else if va.toNat % 16 ≠ 0 then trap t cAlign va
    else overSectors t .load (sectorsFrom va len) fun ps => .read fun s =>
      let lo := recBase r * 4096 + off
      let bs := ps.flatMap fun x => placeBytes s (commandAgent s t) x.2 16
      .seq (.act fun s => [disturb t.team (ciOf s t) true lo (lo + len) (Window.concerns s t),
        .store (obKey s t.team (ciOf s t) lo) (obldBytes s t.team (ciOf s t) lo bs), .drawn len]) <|
      .seq spoilRows <| .seq (.done t i.len) <|
        addOp tok t wc none none 0xFFFF (.obld (ciOf s t) lo (lo + len)) fun id => some (.accessAck id))) s

/-! ## Accumulator commands -/

def execAccz (wc : BitVec 3) (la : BitVec 4) (n : BitVec 14) (row : BitVec 13) (s : State) : Host.Outcome State Fault Refusal :=
  let i : Instr := .accz wc la n row
  run (issueCounted i wc [] fun _ t => withRows t row.toNat n.toNat <| .seq spoilRows <|
    .seq (.act fun s => [disturbRows s t t.team (ciOf s t) row.toNat n.toNat, noteRows s t (ciOf s t) row.toNat n.toNat] ++
      (List.range n.toNat).map fun r => storeRow s t.team (ciOf s t) (row.toNat + r) (List.replicate 64 0#32)) <|
    .seq spoilRows (.done t i.len)) s

/-- R196: the bytes of a row in memory, and its address. -/
def memRow (fmt : Nat) : Nat := match fmt with
  | 0 => 256
  | 1 | 2 => 128
  | _ => 64
def memRowAt (va : BitVec 64) (vs : Word) (r : Nat) : BitVec 64 := va + BitVec.ofNat 64 r * vs.signExtend 64

/-- R196: a row of memory as 64 elements. -/
def widenRow (fmt : Nat) (bs : List Byte) : List Word :=
  if fmt = 0 then wordsOf bs
  else (List.range 64).map fun j => fcvt (if fmt = 1 then 4 else 3) 0#32 (BitVec.ofNat 32 (leNat ((bs.drop (2 * j)).take 2)))

/-- R196: a row's elements as bytes of memory, under NARMODE. -/
def narrowRow (fmt : Nat) (nm : Word) (ws : List Word) : List Byte :=
  match fmt with
  | 0 => bytesOf ws
  | 1 => ws.flatMap fun w => leBytes 2 (fcvt 1 nm w).toNat
  | 2 => ws.flatMap fun w => leBytes 2 (fcvt 0 nm w).toNat
  | 3 => ws.flatMap fun w => leBytes 1 (fcvt 2 nm w).toNat
  | _ => ws.flatMap fun w =>
    leBytes 1 (BitVec.ofInt 8 (narrowI (narRm nm 12) (narSat nm 12) true 8 (FVal.ofInt w.toInt 0))).toNat

/-- A list cut into pieces of `n` elements. -/
def chunks {α : Type} (n : Nat) : Nat → List α → List (List α)
  | 0, _ => []
  | k + 1, l => l.take n :: chunks n k (l.drop n)

/-- R319: the checks of ACCLD and ACCST, then the command over the sectors of its rows. -/
def accMove (a st : VReg) (n row fmt : Nat) (k : AccessKind) (t : TId) (go : List (BitVec 64 × Place) → Eff) : Eff := .read fun s =>
  let x := s.th t
  let va := x.val64 a
  let vs := x.val st
  if va.toNat % 16 ≠ 0 then trap t cAlign va
  else if vs.toNat % 16 ≠ 0 then trap t cAlign (vs.setWidth 64)
  else withRows t row n <|
    overSectors t k ((List.range n).flatMap fun r => sectorsFrom (memRowAt va vs r) (memRow fmt)) go

/-- R196: bytes a command moves in elements of `w` bytes: an element whose source has changed since the command issued has either value,
by a free word. -/
def eitherElems (s : State) (w : Nat) (was now : List Byte) : List Byte :=
  ((chunks w (now.length / w) was).zip (chunks w (now.length / w) now)).zipIdx.flatMap fun (x, i) =>
    if x.1 = x.2 ∨ (s.freeWord i).getLsbD 0 = true then x.1 else x.2

/-- R320: words over old ones: each is either's where a command that is not ordered with this one has written them, by a free word. -/
def eitherWords (s : State) (base : Nat) (contested : Bool) (old new : List Word) : List Word :=
  if contested then (old.zip new).zipIdx.map fun (x, i) => if (s.freeWord (base + i)).getLsbD 0 then x.1 else x.2 else new

/-- R196: the rows of an ACCLD are read and written; they disturb the windows on them (R200). -/
def moveAccld (t : TId) (j : AccJob) : Eff := .seq spoilRows <| .seq (.act fun s =>
  let now := j.places.flatMap fun p => placeBytes s (commandAgent s t) p 16
  let w := memRow j.fmt / 64
  [disturbRows s t t.team (ciOf s t) j.row j.n, noteRows s t (ciOf s t) j.row j.n] ++
    ((chunks (memRow j.fmt) j.n (eitherElems s w j.was now)).mapIdx fun r b =>
      storeRow s t.team (ciOf s t) (j.row + r) (eitherWords s (64 * (j.n + r)) (j.rows.contains (j.row + r))
        (rowWords s t.team (ciOf s t) (j.row + r)) (widenRow j.fmt b))) ++
    usedPlaces s (commandAgent s t) j.places ++ [.drawn (128 * j.n)]) spoilRows

/-- R320: a piece of 16 bytes that an ACCST writes: a byte that a COPY or another thread's ACCST has written meanwhile is either's. -/
def eitherPiece (s : State) (a : Agent) (rivals : List Nat) (base : Nat) (x : Place × List Byte) : Place × List Byte :=
  (x.1, x.2.zipIdx.map fun (b, i) =>
    let pl := x.1.plus i
    if rivals.contains (halfKey (pl, 0)) && (s.freeWord (base + i)).getLsbD 0 then placeByte s a pl else b)

/-- R196: the rows of an ACCST are read, narrowed and written. -/
def moveAccst (op : Nat) (t : TId) (j : AccJob) : Eff := .seq spoilRows <| .read fun s =>
  let rs := readRows t t.team (ciOf s t) j.row j.n s
  .seq (.upds rs.2) <| .read fun s =>
    let a := commandAgent s t
    let ws := wordsOf (eitherElems s 4 j.was (rs.1.flatMap bytesOf))
    let bs := (chunks 64 j.n ws).flatMap (narrowRow j.fmt j.nm)
    let ps := (j.places.zip (chunks 16 j.places.length bs)).zipIdx.map fun (x, i) =>
      eitherPiece s a (j.rivals.map halfKey) (64 * j.n + 16 * i) x
    .seq (.each (writeAt a) ps) (.upds [noteWritten op t true (j.places.flatMap (halvesAt 16)), .drawn (64 * j.n + 16 * j.places.length)])

/-- Does an accumulator command stand off: its team or memory of a team that is away? -/
def accAway (s : State) (o : Op) : Bool := !teamWorks s o.t.team || (match o.job with
  | .accld j | .accst j => j.places.any Place.away
  | _ => false)

/-- What an accumulator command's move must wait for: lines that its writes have to allocate. -/
def accBlocked (s : State) (o : Op) : Option (Wait × Report) := match o.job with
  | .accst j => engineBlocked s (commandAgent s o.t) j.places
  | _ => none

/-- The move of an accumulator command. -/
def moveAcc (o : Op) : Eff := match o.job with
  | .accld j => moveAccld o.t j
  | .accst j => moveAccst o.id o.t j
  | _ => .nothing

/-- A member operation's STATUS is written and the operation ends, as an acquire (R184); where it cannot be yet, it is `later`. -/
def statusTurn (o : Op) (pl : Place) (v : Nat) (later : Eff) : Eff := .read fun s =>
  if pl.away then later
  else match writePlace s (commandAgent s o.t) pl (leBytes 4 v) 0 with
    | .error w => .seq (.upds [.report w.2]) later
    | .ok us => .seq (.upds us) (.seq (.act fun s => acquire s o.t) (completeOp o.id))

/-- ACCESS_ACK: due when the write is performed; one that stands in a combining buffer is performed at the drain; an accumulator command
moves its rows and completes; a member operation's STATUS is written. -/
def execAccessAck (op : Nat) (s : State) : Host.Outcome State Fault Refusal :=
  run (.read fun s =>
    match s.op? op with
    | none => .nothing
    | some o => match o.job with
      | .combined line => if (s.th o.t).wcBuf.any fun b => b.line == line then .upds [.event (.accessAck op)] else completeOp op
      | .status pl v => statusTurn o pl v (.upds [.event (.accessAck op)])
      | .accld _ | .accst _ =>
        if accAway s o then .upds [.event (.accessAck op)]
        else match accBlocked s o with
          | some w => .upds [.report w.2, .event (.accessAck op)]
          | none => .seq (moveAcc o) (completeOp op)
      | _ => completeOp op) s

def execAccld (a st : VReg) (wc : BitVec 3) (la : BitVec 4) (n : BitVec 7) (fmt : BitVec 3) (row : BitVec 13) (s : State) :
    Host.Outcome State Fault Refusal :=
  let i : Instr := .accld a st wc la n fmt row
  run (issueCounted i wc (pairOf a ++ [st]) (commanding wc fun tok t =>
    accMove a st n.toNat row.toNat fmt.toNat .load t fun ps => .seq (.done t i.len) <| .read fun s =>
      let was := ps.flatMap fun x => placeBytes s (commandAgent s t) x.2 16
      addOp tok t wc none none 0xFFFF (.accld ⟨ps.map Prod.snd, row.toNat, n.toNat, fmt.toNat, 0#32, was, [], []⟩) fun id => some (.accessAck id))) s

def execAccst (a st : VReg) (wc : BitVec 3) (la : BitVec 4) (n : BitVec 7) (fmt : BitVec 3) (row : BitVec 13) (s : State) :
    Host.Outcome State Fault Refusal :=
  let i : Instr := .accst a st wc la n fmt row
  run (issueCounted i wc (pairOf a ++ [st]) (commanding wc fun tok t =>
    accMove a st n.toNat row.toNat fmt.toNat .store t fun ps => .seq spoilRows <| .seq (.done t i.len) <| .read fun s =>
      let rs := readRows t t.team (ciOf s t) row.toNat n.toNat s
      .seq (.upds rs.2) <|
        addOp tok t wc none none 0xFFFF
          (.accst ⟨ps.map Prod.snd, row.toNat, n.toNat, fmt.toNat, (s.gr t.gid).narmode, rs.1.flatMap bytesOf, [], []⟩)
          fun id => some (.accessAck id))) s

/-- R196: ACCRD. -/
def execAccrd (d a : VReg) (wc : BitVec 3) (la : BitVec 4) (s : State) : Host.Outcome State Fault Refusal :=
  run (issueCounted (.accrd d a wc la) wc [] fun tok t => .read fun s =>
    let e := ((s.th t).val a).toNat % 2 ^ 19
    withRows t (e / 64) 1 <| .seq spoilRows <| .read fun s =>
      let r := readRow s t t.team (ciOf s t) (e / 64)
      .seq (.upds r.2) <| .seq (.done t 1) (returns tok t wc d [r.1.getD (e % 64) 0#32] la.toNat)) s

end Sys2Proof.Machine
end

