-- ==== Sys2Proof/Machine/Chains.lean ====
section
/-! DEFINITION. The accumulate network (R181, R203 to R208, R321, R323, R324, R330): chains, their set-up, sends, rounds and end. -/

namespace Sys2Proof.Machine

/-! ## Chains -/

def State.chain? (s : State) (ctx num : Nat) : Option Chain := s.part.chains.find? fun c => c.ctx == ctx && c.num == num
def Upd.chain (ctx num : Nat) (f : Chain → Chain) : Upd :=
  .part fun p => { p with chains := p.chains.map fun c => if c.ctx = ctx ∧ c.num = num then f c else c }

/-- R204: the live chain that a handle names in a context: OK is 1, the generation is current. -/
def chainOf (s : State) (ctx : Nat) (h : Word) : Option Chain :=
  (if h.getLsbD 31 then s.chain? ctx (h.toNat % 1024) else none).filter fun c => c.gen == h.extractLsb' 16 8

/-- R207: is a chain down: a member not resident? -/
def chainDown (s : State) (c : Chain) : Bool :=
  !((c.team :: c.bound.map fun b => b.2.1).all fun k => match s.team? k with
    | some x => x.here
    | none => true)

/-- The work core of a chain's receiver, and of a rank: its bound core, the core of the receiver's own team, which goes with it (R207), or
the core that the descriptor names. -/
def chainCore (s : State) (c : Chain) : Nat := coreAt s c.team c.ci
def rankCore (s : State) (c : Chain) (rank : Nat) : Nat :=
  match c.bound.find? fun b => b.1 == rank with
  | some b => coreAt s b.2.1 b.2.2
  | none => match c.own.getD (rank - 1) none with
    | some ci => coreAt s c.team ci
    | none => chainCore s c / 48 * 48 + c.senders.getD (rank - 1) 0

/-! ## ACHAIN -/

/-- R203: a chain descriptor as read: 32 bytes. -/
structure ChainDesc where
  free  : Bool
  int   : Bool
  nr    : Nat
  trow  : Nat
  lrow  : Nat
  senders : List Nat
deriving DecidableEq, Repr

def byteAt (bs : List Byte) (i : Nat) : Nat := (bs.getD i 0#8).toNat
def fieldAt (bs : List Byte) (i n : Nat) : Nat := leNat ((bs.drop i).take n)

/-- R203, status 1: none when a reserved field or value is set. -/
def chainDesc (bs : List Byte) : Option ChainDesc :=
  let ns := byteAt bs 2
  let nr := byteAt bs 3
  if 1 < byteAt bs 0 ∨ 1 < byteAt bs 1 ∨ ns = 0 ∨ 15 < ns ∨ nr = 0 ∨ 64 < nr ∨ fieldAt bs 8 8 ≠ 0 ∨ byteAt bs 31 ≠ 0 ∨
      (List.range (15 - ns)).any (fun i => byteAt bs (16 + ns + i) != 255) then none
  else some ⟨byteAt bs 0 == 1, byteAt bs 1 == 1, nr, fieldAt bs 4 2, fieldAt bs 6 2, (List.range ns).map fun i => byteAt bs (16 + i)⟩

/-- Do two ranges of rows overlap? -/
def rangesMeet (a n b m : Nat) : Bool := decide (a < b + m) && decide (b < a + n)

/-- R204, status 2: target or landing rows outside the claim, or overlapping each other or those of another live chain. -/
def chainRowsBad (s : State) (k ci : Nat) (d : ChainDesc) : Bool :=
  let rows := (s.tm k).claim.accRows
  let ln := d.senders.length * d.nr
  decide (rows < d.trow + d.nr) || decide (rows < d.lrow + ln) || rangesMeet d.trow d.nr d.lrow ln ||
    s.part.chains.any fun c => c.team == k && c.ci == ci &&
      (let cn := c.senders.length * c.nr
       rangesMeet d.trow d.nr c.trow c.nr || rangesMeet d.trow d.nr c.lrow cn || rangesMeet d.lrow ln c.trow c.nr ||
         rangesMeet d.lrow ln c.lrow cn)

def repeats : List Nat → Bool
  | [] => false
  | x :: xs => xs.contains x || repeats xs

/-- R204, status 3: a sender that is no present core of the cluster, repeated, or the receiver. -/
def sendersBad (s : State) (core : Nat) (d : ChainDesc) : Bool :=
  d.senders.any (fun p => decide (47 < p) || !cellHas s.part.cellPresent ((core / 48 * 48 + p) / 4) || p == core % 48) || repeats d.senders

/-- The pairs (sender, receiver) of the live chains of a context whose receiver lies in a cluster. -/
def sendsTo (s : State) (ctx cluster : Nat) : List (Nat × Nat) :=
  (s.part.chains.filter fun c => c.ctx == ctx && chainCore s c / 48 == cluster).flatMap fun c =>
    (List.range c.senders.length).map fun i => (rankCore s c (i + 1), chainCore s c)

/-- Cores that can be reached from cores along pairs, in at most `n` steps. -/
def reach (es : List (Nat × Nat)) : Nat → List Nat → List Nat
  | 0, xs => xs
  | n + 1, xs => reach es n (xs ++ (es.filterMap fun e => if xs.contains e.1 && !xs.contains e.2 then some e.2 else none).eraseDups)

/-- R204, status 4: would the chain close a cycle of senders and receivers? -/
def closesCycle (s : State) (ctx core : Nat) (d : ChainDesc) : Bool :=
  let base := core / 48 * 48
  let from_ := reach (sendsTo s ctx (core / 48)) 48 [core]
  d.senders.any fun p => from_.contains (base + p)

/-- R204: the first failing check, as a status. A live chain whose receiver's team is away counts at the core that the team had (DESIGN
CHOICE, log 56). -/
def chainStatus (s : State) (t : TId) (bs : List Byte) : Except Nat (ChainDesc × Nat) :=
  let x := s.tm t.team
  let ci := ciOf s t
  let core := coreAt s t.team ci
  match chainDesc bs with
  | none => .error 1
  | some d =>
    if chainRowsBad s t.team ci d then .error 2
    else if sendersBad s core d then .error 3
    else if closesCycle s x.ctx core d then .error 4
    else if 4 ≤ (s.part.chains.filter fun c => chainCore s c == core).length then .error 5
    else if d.free ∧ x.det = true then .error 6
    else match (List.range 1024).find? fun n => (s.chain? x.ctx n).isNone with
      | none => .error 7
      | some n => .ok (d, n)

/-- The generation of a chain number's next handle. -/
def nextGen (s : State) (ctx num : Nat) : BitVec 8 :=
  match s.part.chainGen.find? fun g => g.1 == ctx && g.2.1 == num with
  | some g => g.2.2 + 1#8
  | none => 1#8

/-- R204: the handle of a new chain, and the chain. -/
def setUpChain (t : TId) (d : ChainDesc) (num : Nat) (s : State) : Word × List Upd :=
  let ctx := (s.tm t.team).ctx
  let gen := nextGen s ctx num
  (1#1 ++ 0#7 ++ gen ++ 0#6 ++ BitVec.ofNat 10 num,
   [.part fun p => { p with
      chains := p.chains ++ [⟨ctx, num, gen, d.free, d.int, d.nr, d.trow, d.lrow, d.senders, t.team, ciOf s t, [],
        d.senders.map (fun p => (s.tm t.team).cores.findIdx? (· == coreAt s t.team (ciOf s t) / 48 * 48 + p)), [], [], [], false⟩],
      chainGen := (ctx, num, gen) :: p.chainGen.filter fun g => !(g.1 == ctx && g.2.1 == num) }])

/-- R204, R321: ACHAIN. -/
def execAchain (d a : VReg) (wc : BitVec 3) (la : BitVec 4) (s : State) : Host.Outcome State Fault Refusal :=
  run (issueCounted (.achain d a wc la) wc (pairOf a) (commanding wc fun tok t => .read fun s =>
    let va := (s.th t).val64 a
    if va.toNat % 32 ≠ 0 then trap t cAlign va
    else overSectors t .load (sectorsFrom va 32) fun ps => .read fun s =>
      let bs := ps.flatMap fun x => placeBytes s (commandAgent s t) x.2 16
      let r := match chainStatus s t bs with
        | .error e => (BitVec.ofNat 32 e, [])
        | .ok (c, num) => setUpChain t c num s
      .seq (.upds r.2) <| .seq (.done t 1) (returns tok t wc d [r.1] la.toNat))) s

/-! ## Adding and rounds -/

/-- R206: an element of a target row with an arrival's. -/
def addElem (int : Bool) (a b : Word) : Word := if int then a + b else fadd32 a b

/-- R200, R208: does an arrival in a chain's target rows fall into a window: of an operation that has not completed, or, where the ranks are
added as they land (FREE) or the thread has itself declared the rows final with AWAIT or AREL, one that it has not closed? Other signers'
windows of a completed operation do not count: R314 asks for a definite result there (DEDUCED, log 39). -/
def Window.arrivalIn (s : State) (c : Chain) (w : Window) : Bool :=
  (s.op? w.tag).isSome || c.free || s.part.ops.any fun o => o.t == w.t &&
    (o.job == .await c.ctx c.num || o.job == .arel c.ctx c.num false || o.job == .arel c.ctx c.num true)

/-- A rank's landing rows are added into the target rows; an arrival disturbs the open operand windows on them (R200, R208). -/
def addRank (ctx num rank : Nat) : Eff := .seq spoilRows <| .read fun s =>
  match s.chain? ctx num with
  | none => .nothing
  | some c =>
    .seq (.upds [disturb c.team c.ci false c.trow (c.trow + c.nr) (Window.arrivalIn s c)]) <|
    .seq (.each (fun r => .act fun s =>
        [storeRow s c.team c.ci (c.trow + r)
          (((rowWords s c.team c.ci (c.trow + r)).zip (rowWords s c.team c.ci (c.lrow + (rank - 1) * c.nr + r))).map fun p =>
            addElem c.int p.1 p.2)]) (List.range c.nr)) <|
    .seq spoilRows (.upds [.chain ctx num fun c => { c with added := rank :: c.added }])

/-- R206: the ranks that are added now: FREE, each that has landed; ORDERED, once an AWAIT has declared the rows final, the
next in ascending order while they have landed. -/
def addLanded (ctx num : Nat) : Eff := .each (fun i => .read fun s =>
  match s.chain? ctx num with
  | none => .nothing
  | some c =>
    let rank := i + 1
    let next := c.landed.contains rank && !c.added.contains rank &&
      (c.free || (c.awaited && (List.range i).all fun q => c.added.contains (q + 1)))
    if next then addRank ctx num rank else .nothing) (List.range 15)

def dropChain (ctx num : Nat) : Upd := .part fun p => { p with chains := p.chains.filter fun c => !(c.ctx == ctx && c.num == num) }

/-- An AWAIT or AREL completes; AWAIT acquires at cluster scope (R181). -/
def endWait (o : Op) : Eff := .seq (.act fun s => acquire s o.t) (completeOp o.id)

/-- R206: the AWAITs of a round complete; the first AREL frees the landing rows and opens the next round, or ends the chain;
another AREL then acts on the new round. -/
def endRound (ctx num : Nat) : Eff := .read fun s =>
  .seq (.each (fun o => if o.job = .await ctx num then endWait o else .nothing) s.part.ops) <|
  match s.part.ops.find? fun o => o.job == .arel ctx num true || o.job == .arel ctx num false with
  | none => .nothing
  | some o =>
    let rest := s.part.ops.filter fun p => p.id != o.id && (p.job == .arel ctx num true || p.job == .arel ctx num false)
    if o.job = .arel ctx num true then
      .seq (endWait o) (.seq (.upds [dropChain ctx num]) (.each endWait rest))
    else
      .seq (endWait o) (.upds [.chain ctx num fun c => { c with sent := [], landed := [], added := [], awaited := !rest.isEmpty }])

/-- A round that is awaited goes on: landed ranks are added; when all have been, it ends. -/
def advanceChain (ctx num : Nat) : Eff := .seq (addLanded ctx num) <| .read fun s =>
  match s.chain? ctx num with
  | none => .nothing
  | some c => if c.awaited && decide (c.added.length = c.senders.length) && !chainDown s c then endRound ctx num else .nothing

/-! ## AWAIT, AREL -/

/-- The handle's check, then the wait, which completes when the round does. -/
def awaitWith (i : Instr) (h : VReg) (wc : BitVec 3) (job : Nat → Nat → Job) : Eff :=
  issueCounted i wc [] fun tok t => .read fun s =>
    match (chainOf s (s.tm t.team).ctx ((s.th t).val h)).filter fun c => c.team == t.team with
    | none => illegal t 6
    | some c =>
      .seq (.act fun s => drainBuffer s t) <| .seq (.done t 1) <|
      .seq (addOp tok t wc none none (s.gr t.gid).core (job c.ctx c.num) fun _ => none) <|
      .seq (.upds [.chain c.ctx c.num fun c => { c with awaited := true }]) (advanceChain c.ctx c.num)

def execAwait (h : VReg) (wc : BitVec 3) (la : BitVec 4) (s : State) : Host.Outcome State Fault Refusal :=
  run (awaitWith (.await h wc la) h wc fun c n => .await c n) s

def execArel (h : VReg) (wc : BitVec 3) (e : BitVec 1) (la : BitVec 4) (s : State) : Host.Outcome State Fault Refusal :=
  run (awaitWith (.arel h wc e la) h wc fun c n => .arel c n (e == 1#1)) s

/-! ## ASEND -/

/-- R207: the send record keeps what an ASEND sends. -/
def keepSend (t : TId) (h w : Word) : Upd := .thread t fun x => { x with send := ⟨h, w.extractLsb' 0 13, w.extractLsb' 16 4⟩ }

/-- A rank has sent in the open round; its first send binds it. -/
def Chain.sends (rank team ci : Nat) (c : Chain) : Chain :=
  { c with sent := rank :: c.sent, bound := if c.bound.any fun b => b.1 == rank then c.bound else (rank, team, ci) :: c.bound }

/-- R205, orders 3 and 4 of the checks, then the send. -/
def sendTo (tok : Nat) (t : TId) (wc : BitVec 3) (h w : Word) : Eff := .read fun s =>
  let rank := w.toNat / 2 ^ 16 % 16
  let row := w.toNat % 2 ^ 13
  let ci := ciOf s t
  match (chainOf s (s.tm t.team).ctx h).filter fun c => !chainDown s c with
  | none => trap t cAtgt (h.setWidth 64)
  | some c =>
    let mine := match c.bound.find? fun b => b.1 == rank with
      | some b => b.2.1 == t.team && b.2.2 == ci
      | none => rankCore s c rank == coreAt s t.team ci
    if c.senders.length < rank ∨ !mine then illegal t 5
    else if c.sent.contains rank then .wait t .chain
    else .seq spoilRows <| .read fun s =>
      let rs := readRows t t.team ci row c.nr s
      .seq (.upds rs.2) <| .seq (.done t 1) <|
      .seq (.upds [.chain c.ctx c.num (Chain.sends rank t.team ci)]) <|
      addOp tok t wc none none (s.gr t.gid).core (.asend c.ctx c.num rank rs.1) fun id => some (.asendLand id)

/-- R205, R324: ASEND. Where the handle names no chain, the number of rows is not known and its first row is checked (DEDUCED, log 33). -/
def execAsend (h r : VReg) (wc : BitVec 3) (la : BitVec 4) (s : State) : Host.Outcome State Fault Refusal :=
  run (issueCounted (.asend h r wc la) wc [h, r] (commanding wc fun tok t => .read fun s =>
    let hv := (s.th t).val h
    let w := (s.th t).val r
    let n := match chainOf s (s.tm t.team).ctx hv with
      | some c => c.nr
      | none => 1
    if w.toNat / 2 ^ 16 % 16 = 0 ∨ w &&& 0xFFF0E000#32 ≠ 0#32 then illegal t 5
    else .seq (.upds [keepSend t hv w]) (withRows t (w.toNat % 2 ^ 13) n (sendTo tok t wc hv w)))) s

/-- The rows of an ASEND land in the landing rows of its rank, which are then added when it is their turn. -/
def landSend (op ctx num rank : Nat) (rows : List (List Word)) : Eff := .read fun s =>
  match s.chain? ctx num with
  | none => completeOp op
  | some c =>
    .seq (.upds (rows.mapIdx fun i ws => storeRow s c.team c.ci (c.lrow + (rank - 1) * c.nr + i) ws)) <|
    .seq (.upds [.chain ctx num fun c => { c with landed := rank :: c.landed }]) <|
    .seq (completeOp op) (advanceChain ctx num)

/-- ASEND_LAND (R206). -/
def execAsendLand (op : Nat) (s : State) : Host.Outcome State Fault Refusal :=
  run (.read fun s =>
    match ((s.op? op).map Op.job : Option Job) with
    | some (.asend ctx num rank rows) => landSend op ctx num rank rows
    | _ => .nothing) s

/-- R207: the sends of a team's chains that are in flight land whole before a member leaves. -/
def landSends (k : Nat) : Eff := .read fun s => .each (fun o => match o.job with
  | .asend ctx num rank rows => .read fun s => match s.chain? ctx num with
    | some c => if c.team = k ∨ c.bound.any (fun b => b.2.1 == k) then landSend o.id ctx num rank rows else .nothing
    | none => .nothing
  | _ => .nothing) s.part.ops

/-- R206: the chains of a receiver team end with it; what waits on them ends. -/
def endChains (k : Nat) : Eff := .read fun s => .each (fun c => .read fun s =>
  .seq (.each (fun o => if o.job = .await c.ctx c.num ∨ o.job = .arel c.ctx c.num true ∨ o.job = .arel c.ctx c.num false
      then completeOp o.id else .nothing) s.part.ops) (.upds [dropChain c.ctx c.num]))
  (s.part.chains.filter fun c => c.team == k)

end Sys2Proof.Machine
end

