-- ==== Sys2Proof/Machine/Keccak.lean ====
section
/-! DEFINITION. SHAKE256, which the spec names and does not define: the extendable-output function of FIPS 202 (PRESUMED, log 22):
Keccak-f[1600] over 25 lanes of 64 bits, rate 136 bytes, domain bits 1111. -/

namespace Sys2Proof.Machine

/-- Rotation offsets of lanes x + 5 y. -/
def rotOffsets : List Nat :=
  [0, 1, 62, 28, 27, 36, 44, 6, 55, 20, 3, 10, 43, 25, 39, 41, 45, 15, 21, 8, 18, 2, 61, 56, 14]

/-- Round constants. -/
def roundConsts : List (BitVec 64) :=
  [0x0000000000000001, 0x0000000000008082, 0x800000000000808A, 0x8000000080008000, 0x000000000000808B, 0x0000000080000001,
   0x8000000080008081, 0x8000000000008009, 0x000000000000008A, 0x0000000000000088, 0x0000000080008009, 0x000000008000000A] ++
  [0x000000008000808B, 0x800000000000008B, 0x8000000000008089, 0x8000000000008003, 0x8000000000008002, 0x8000000000000080,
   0x000000000000800A, 0x800000008000000A, 0x8000000080008081, 0x8000000000008080, 0x0000000080000001, 0x8000000080008008]

def lane (a : List (BitVec 64)) (i : Nat) : BitVec 64 := a.getD i 0#64

/-- One round. -/
def keccakRound (a : List (BitVec 64)) (rc : BitVec 64) : List (BitVec 64) :=
  let c := (List.range 5).map fun x => lane a x ^^^ lane a (x + 5) ^^^ lane a (x + 10) ^^^ lane a (x + 15) ^^^ lane a (x + 20)
  let d := (List.range 5).map fun x => lane c ((x + 4) % 5) ^^^ (lane c ((x + 1) % 5)).rotateLeft 1
  let e := (List.range 25).map fun i => (lane a i ^^^ lane d (i % 5)).rotateLeft (rotOffsets.getD i 0)
  -- the lane that moves to (x, y) comes from (x + 3 y, x)
  let b := (List.range 25).map fun i => lane e ((i % 5 + 3 * (i / 5)) % 5 + 5 * (i % 5))
  (List.range 25).map fun i =>
    let v := lane b i ^^^ (~~~(lane b ((i % 5 + 1) % 5 + 5 * (i / 5))) &&& lane b ((i % 5 + 2) % 5 + 5 * (i / 5)))
    if i = 0 then v ^^^ rc else v

def keccakF (a : List (BitVec 64)) : List (BitVec 64) := roundConsts.foldl keccakRound a

/-- A block of 136 bytes is absorbed. -/
def absorb (a : List (BitVec 64)) (block : List Byte) : List (BitVec 64) :=
  keccakF ((List.range 25).map fun i =>
    lane a i ^^^ (if i < 17 then BitVec.ofNat 64 (leNat ((block.drop (8 * i)).take 8)) else 0#64))

def absorbAll : Nat → List Byte → List (BitVec 64) → List (BitVec 64)
  | 0, _, a => a
  | n + 1, m, a => absorbAll n (m.drop 136) (absorb a (m.take 136))

/-- The message with its padding to whole blocks. -/
def shakePad (m : List Byte) : List Byte :=
  let z := 136 - m.length % 136
  m ++ (if z = 1 then [0x9F#8] else [0x1F#8] ++ List.replicate (z - 2) 0#8 ++ [0x80#8])

/-- The first `n` bytes of SHAKE256 of a message, for `n` up to 136. -/
def shake256 (m : List Byte) (n : Nat) : List Byte :=
  let p := shakePad m
  let a := absorbAll (p.length / 136) p (List.replicate 25 0#64)
  ((a.take 17).flatMap fun l => leBytes 8 l.toNat).take n

end Sys2Proof.Machine
end

