-- ==== Sys2Proof/Machine/Copy.lean ====
section
/-! DEFINITION. The tile streamer (R179, R224 to R231, R342, R343, R425): layout records, COPY and COPYG, which translate when they
issue, move row by row and then add to their counter, and SEAL. -/

namespace Sys2Proof.Machine

/-! ## Layout records (R102, R224) -/

/-- The fields of a layout record. -/
structure Layout where
  rank    : Nat
  esize   : Nat
  base    : Nat
  dims    : List Nat
  strides : List Int
  boxes   : List Nat
deriving DecidableEq, Repr

def layoutOf (bs : List Byte) : Layout where
  rank := byteAt bs 2
  esize := byteAt bs 3
  base := fieldAt bs 8 8
  dims := (List.range 5).map fun i => fieldAt bs (16 + 4 * i) 4
  strides := (List.range 5).map fun i => signedOf 8 (fieldAt bs (40 + 8 * i) 8)
  boxes := (List.range 5).map fun i => fieldAt bs (80 + 2 * i) 2

/-- Bits of an element of code ESIZE, and its bytes in the tensor. -/
def elemBits (esize : Nat) : Nat := 4 * 2 ^ esize
def elemBytes (esize : Nat) : Nat := max 1 (elemBits esize / 8)
def Layout.bits (l : Layout) : Nat := elemBits l.esize
def Layout.count (l : Layout) : Nat := l.boxes.foldl (· * ·) 1

/-- R224: is a record valid? -/
def layoutValid (bs : List Byte) : Bool :=
  let l := layoutOf bs
  fieldAt bs 0 2 == 1 && decide (1 ≤ l.rank) && decide (l.rank ≤ 5) && decide (l.esize ≤ 4) &&
  l.dims.all (fun d => decide (1 ≤ d)) && l.boxes.all (fun b => decide (1 ≤ b) && decide (b ≤ 256)) &&
  (List.range 5).all (fun i => decide (i < l.rank) ||
    (l.dims.getD i 1 == 1 && l.strides.getD i 0 == 0 && l.boxes.getD i 1 == 1)) &&
  fieldAt bs 4 4 == 0 && fieldAt bs 0x24 4 == 0 && fieldAt bs 0x5A 2 == 0 &&
  (l.esize != 0 || (l.strides.getD 0 0 == 0 && l.boxes.getD 0 0 % 2 == 0)) &&
  decide (l.count * l.bits ≤ 8 * 2 ^ 24)

/-- R102: CHECK of the first 92 bytes. -/
def layoutCheck (bs : List Byte) : List Byte := shake256 (bs.take 92) 4

/-- R224: is a record of 96 bytes sealed? -/
def layoutSealed (bs : List Byte) : Bool := (bs.drop 92).take 4 == layoutCheck bs

/-! ## Boxes (R227) -/

/-- The coordinates of box element number `e`, innermost first. -/
def boxIndex : List Nat → Nat → List Nat
  | [], _ => []
  | b :: bs, e => e % max 1 b :: boxIndex bs (e / max 1 b)

/-- R227: a signed 72-bit value. -/
def wrap72 (v : Int) : Int := (v + 2 ^ 71) % 2 ^ 72 - 2 ^ 71

/-- An element of a box: its address and nibble when it is in bounds. -/
def elemAt (l : Layout) (cs : List Int) (list : Option (List Int)) (e : Nat) : Option (Int × Nat) :=
  let js := boxIndex l.boxes e
  let xs : List Int := (List.range 5).map fun i =>
    match list, i with
    | some x, 1 => x.getD (js.getD 1 0) (-1)
    | _, _ => cs.getD i 0 + (js.getD i 0 : Nat)
  if (List.range l.rank).all fun i => decide (0 ≤ xs.getD i 0) && decide (xs.getD i 0 < (l.dims.getD i 1 : Nat)) then
    let x0 := xs.getD 0 0
    let first : Int := if l.esize = 0 then x0 / 2 else x0 * l.strides.getD 0 0
    some (wrap72 ((l.base : Int) + first + ((List.range l.rank).drop 1).foldl (fun a i => a + xs.getD i 0 * l.strides.getD i 0) 0),
      (x0 % 2).toNat)
  else none

/-- The elements of a box, in box order. -/
def boxElems (l : Layout) (cs : List Int) (list : Option (List Int)) : List (Option (Int × Nat)) :=
  (List.range l.count).map (elemAt l cs list)

/-- The bytes of an element in the tensor. -/
def Layout.bytes (l : Layout) : Nat := elemBytes l.esize

/-- R227: the first address outside 0 to 2^56 - 1, in box order; none when no element is in bounds. -/
def rangeBad (l : Layout) (es : List (Option (Int × Nat))) (buf : Nat) : Option (BitVec 64) :=
  if es.all Option.isNone then none
  else (es.zipIdx).findSome? fun (e, i) =>
    let b := buf + i * l.bits / 8
    match e with
    | some (a, _) => if a < 0 ∨ 2 ^ 56 ≤ a then some (BitVec.ofInt 64 a)
      else if 2 ^ 56 ≤ b + l.bytes - 1 then some (BitVec.ofNat 64 (max b (2 ^ 56))) else none
    | none => if 2 ^ 56 ≤ b + l.bytes - 1 then some (BitVec.ofNat 64 (max b (2 ^ 56))) else none

/-! ## COPY -/

/-- What a COPY has read of its registers. -/
structure CopyArgs where
  record : BitVec 64
  buf    : BitVec 64
  count  : BitVec 64
  coords : List Int
  list   : Option (BitVec 64)
deriving DecidableEq, Repr

def copyArgs (x : Thread) (c : VReg) (gather : Bool) : CopyArgs where
  record := x.val64 c
  buf := x.val64 (c + 2#7)
  count := x.val64 (c + 4#7)
  coords := (List.range 5).map fun i => (x.val (c + 6#7 + BitVec.ofNat 7 i)).toInt
  list := if gather then some (x.val64 (c + 11#7)) else none

/-- R228, check 3: the first misaligned address. -/
def copyMisaligned (g : CopyArgs) : Option (BitVec 64) :=
  if g.record.toNat % 32 ≠ 0 then some g.record
  else if g.buf.toNat % 16 ≠ 0 then some g.buf
  else if g.count.toNat % 8 ≠ 0 then some g.count
  else match g.list with
    | some x => if x.toNat % 4 ≠ 0 then some x else none
    | none => none

/-- Addresses `n` apart. -/
def steppedFrom (va : BitVec 64) (step n : Nat) : List (BitVec 64) := (List.range n).map fun i => va + BitVec.ofNat 64 (step * i)

/-- The pieces of at most 16 bytes of `n` bytes from an address: addresses and lengths. -/
def bufPieces (va : BitVec 64) (n : Nat) : List (BitVec 64 × Nat) :=
  (List.range ((n + 15) / 16)).map fun i => (va + BitVec.ofNat 64 (16 * i), min 16 (n - 16 * i))

/-- Places of pieces of their own lengths. -/
def pieceList (a : Agent) (k : AccessKind) : List (BitVec 64 × Nat) → State → Except (Nat × BitVec 64) (List (BitVec 64 × Place)) × List Upd
  | [], _ => (.ok [], [])
  | (va, n) :: ps, s =>
    match translate s a k va n with
    | (.ok pl, us) =>
      let r := pieceList a k ps (s.applyAll us)
      (r.1.map fun l => (va, pl) :: l, us ++ r.2)
    | (.error r, us) => (.error (r, va), us)

/-- R227: the bytes of the buffer for the raw values of a box: whole bytes, or two nibbles a byte. -/
def packElems (esize : Nat) : List Nat → List Byte
  | [] => []
  | [v] => leBytes (elemBytes esize) v
  | v :: w :: vs =>
    if esize = 0 then BitVec.ofNat 8 (v % 16 + w % 16 * 16) :: packElems esize vs
    else leBytes (elemBytes esize) v ++ packElems esize (w :: vs)

/-- The raw value of element `e` of bytes of the buffer. -/
def bufElem (esize : Nat) (bs : List Byte) (e : Nat) : Nat :=
  if esize = 0 then byteAt bs (e / 2) / 16 ^ (e % 2) % 16 else fieldAt bs (e * elemBytes esize) (elemBytes esize)

/-- The raw value of a tensor element; zero out of bounds. -/
def readElem (s : State) (a : Agent) (esize : Nat) : Option ElemPlaces → Nat
  | none => 0
  | some e =>
    let v := leNat (e.places.map (placeByte s a))
    if esize = 0 then v / 16 ^ e.nibble % 16 else v

/-- What a row writes: a byte, or the half of one that a nibble names; `half` is 2 for the byte. -/
structure BoxPiece where
  place : Place
  half  : Nat
  val   : Nat
deriving DecidableEq, Repr

/-- The half bytes of a piece, with their places and by their keys. -/
def BoxPiece.halfPlaces (x : BoxPiece) : List (Place × Nat) := if x.half = 2 then halvesAt 1 x.place else [(x.place, x.half)]
def BoxPiece.halves (x : BoxPiece) : List Nat := x.halfPlaces.map halfKey

/-- The byte that a piece leaves: `kept` half bytes, and the half that it does not name, stay as they are. -/
def BoxPiece.over (x : BoxPiece) (old : Nat) (kept : Nat → Bool) : Byte :=
  let nib : Nat → Nat := fun h =>
    let k := 2 * placeKey x.place + h
    if x.halves.contains k && !kept k then (if x.half = 2 then x.val / 16 ^ h % 16 else x.val % 16) else old / 16 ^ h % 16
  BitVec.ofNat 8 (nib 0 + 16 * nib 1)

/-- R228: the pieces of a row in order; half bytes that another piece of the same COPY, or a COPY that is not ordered with it, has
written already keep that value or take this one, by a free word. -/
def movePieces (a : Agent) : List BoxPiece → List Nat → Nat → Eff
  | [], _, _ => .nothing
  | x :: xs, before, i =>
    .seq (.read fun s =>
      let kept : Nat → Bool := fun k => before.contains k && (s.freeWord i).getLsbD 0
      if x.halves.all kept then .nothing
      else writeAt a (x.place, [x.over (placeByte s a x.place).toNat kept])) <|
    movePieces a xs (x.halves ++ before) (i + 1)

/-- The pieces of an element with its raw value. -/
def elemPieces (esize : Nat) (e : ElemPlaces) (v : Nat) : List BoxPiece :=
  if esize = 0 then e.places.map fun pl => ⟨pl, e.nibble, v % 16⟩
  else (e.places.zip (leBytes (elemBytes esize) v)).map fun x => ⟨x.1, 2, x.2.toNat⟩

/-! ## Rows (R229) -/

/-- The bytes of a row in the buffer, and the place of byte `i` of the buffer. -/
def CopyJob.rowBytes (j : CopyJob) : Nat := j.per * elemBits j.esize / 8
def CopyJob.bufByte (j : CopyJob) (i : Nat) : Place := (j.buf.getD (i / 16) (.tib 0)).plus (i % 16)

/-- The raw values of row `r`, as they are now, or as R343 has them. -/
def CopyJob.rowVals (j : CopyJob) (s : State) (a : Agent) (r : Nat) : List Nat :=
  match j.vals with
  | some vs => (vs.drop (r * j.per)).take j.per
  | none =>
    if j.st then
      let bs := (List.range j.rowBytes).map fun i => placeByte s a (j.bufByte (r * j.rowBytes + i))
      (List.range j.per).map (bufElem j.esize bs)
    else ((j.elems.drop (r * j.per)).take j.per).map (readElem s a j.esize)

/-- R227: what row `r` writes with its values: a store its in-bounds elements, a load its bytes of the buffer. -/
def CopyJob.pieces (j : CopyJob) (r : Nat) (vs : List Nat) : List BoxPiece :=
  if j.st then (((j.elems.drop (r * j.per)).take j.per).zip vs).flatMap fun x => match x.1 with
    | some e => elemPieces j.esize e x.2
    | none => []
  else (packElems j.esize vs).mapIdx fun i b => ⟨j.bufByte (r * j.rowBytes + i), 2, b.toNat⟩

/-- The half bytes that the first `r` rows write. -/
def CopyJob.written (j : CopyJob) (r : Nat) : List (Place × Nat) :=
  (List.range r).flatMap fun q => (j.pieces q (List.replicate j.per 0)).flatMap BoxPiece.halfPlaces

/-- The places that row `r` reads. -/
def CopyJob.reads (j : CopyJob) (r : Nat) : List Place :=
  if j.st then (List.range j.rowBytes).map fun i => j.bufByte (r * j.rowBytes + i)
  else ((j.elems.drop (r * j.per)).take j.per).flatMap fun e => (e.map ElemPlaces.places).getD []

/-- Row `r` moves. -/
def CopyJob.move (j : CopyJob) (a : Agent) (r : Nat) : Eff := .read fun s =>
  let ps := j.pieces r (j.rowVals s a r)
  .seq (.upds (usedPlaces s a (j.reads r))) <|
  .seq (movePieces a ps ((j.written r ++ j.rivals).map halfKey) 0) (.upds [.drawn ps.length])

/-- R343: the values that elements are read with when some of them overlap what the same COPY writes: each is the value before or
after the writes, by a free bit. The values settle within as many rounds as there are elements. -/
def movedVals (look : State → List Nat) (put : List Nat → Eff) (s : State) : Nat → List Nat
  | 0 => look s
  | k + 1 => ((look s).zip (look ((put (movedVals look put s k)).run s))).mapIdx fun i x =>
    if (s.freeWord i).getLsbD 0 then x.2 else x.1

/-- Do in-bounds elements of a box share bytes with pieces of its buffer? -/
def CopyJob.overlaps (j : CopyJob) : Bool := j.elems.any fun e => match e with
  | some e => e.places.any fun p => j.buf.any fun q => touches p 1 q 16
  | none => false

/-- R343: the values of a box that overlaps itself are settled. -/
def CopyJob.settled (j : CopyJob) (s : State) (a : Agent) : CopyJob :=
  if j.overlaps then
    { j with vals := some (movedVals (fun s => (List.range j.rows).flatMap (j.rowVals s a))
        (fun vs => .each (fun r => { j with vals := some vs }.move a r) (List.range j.rows)) s j.elems.length) }
  else j

/-- The in-bounds elements of a box with the places of their bytes, from the places of all their bytes in order. -/
def placeElems (n : Nat) : List (Option (Int × Nat)) → List Place → List (Option ElemPlaces)
  | [], _ => []
  | none :: es, ps => none :: placeElems n es ps
  | some e :: es, ps => some ⟨ps.take n, e.2⟩ :: placeElems n es (ps.drop n)

/-- The COPYs under way. -/
def copyJobs (s : State) : List CopyJob := s.part.ops.filterMap fun o => match o.job with
  | .copy c => some c
  | _ => none

/-- R228, check 7, and the start: the tensor's elements, the buffer and the counter all translate, and none is barred by team order
(R277); then the promised time is written (R231), and the COPY is under way. -/
def copyStart (i : Instr) (q : VReg) (wc : BitVec 3) (st : Bool) (inc : Nat) (g : CopyArgs) (l : Layout) (es : List (Option (Int × Nat)))
    (tok : Nat) (t : TId) : Eff := .read fun s =>
  let a := engineOf s t
  let vas := es.flatMap fun e => match e with
    | some x => steppedFrom (BitVec.ofInt 64 x.1) 1 l.bytes
    | none => []
  let pieces := bufPieces g.buf (l.count * l.bits / 8)
  match piecePlaces a (if st then .store else .load) 1 vas s with
  | (.error (r, va), us) => .seq (.upds us) (faultAt t r va)
  | (.ok ts, us) =>
    let s1 := s.applyAll us
    match pieceList a (if st then .load else .store) pieces s1 with
    | (.error (r, va), vs) => .seq (.upds (us ++ vs)) (faultAt t r va)
    | (.ok bs, vs) =>
      match translate (s1.applyAll vs) a .atomic g.count 8 with
      | (.error r, ws) => .seq (.upds (us ++ vs ++ ws)) (faultAt t r g.count)
      | (.ok cp, ws) => .seq (.upds (us ++ vs ++ ws)) <| .read fun s =>
        if !sideCan .atom 0 cp 0 then pfault t rTarget g.count
        else match (ts ++ bs ++ [(g.count, cp)]).find? fun x => orderBars s a x.2 with
          | some x => trap t cDorder x.1
          | none =>
            let per := max 1 (l.boxes.getD 0 1)
            let j : CopyJob := ⟨cp, inc, l.count / per, 0, st, l.esize, per, placeElems l.bytes es (ts.map Prod.snd), bs.map Prod.snd, none,
              (copyJobs s).flatMap fun c => c.written c.row⟩
            let due := s.cycleOf t + 1 + Config.promise s.nextId
            .seq (.act fun s => putRegs s t q [BitVec.ofNat 32 due, BitVec.ofNat 32 (due / 2 ^ 32)]) <| .seq (.done t i.len) <|
            .seq (.upds [.drawn (if j.overlaps then es.length else 0)]) <|
            addOp tok t wc none none 0xFFFF (.copy (j.settled s a)) fun id => some (.copyComplete id)

/-- R228, checks 3 to 6; the record and the index list are read, which team order may bar (R277). -/
def copyAt (i : Instr) (c q : VReg) (wc : BitVec 3) (st gather : Bool) (inc : Nat) (tok : Nat) (t : TId) : Eff := .read fun s =>
  let a := engineOf s t
  let g := copyArgs (s.th t) c gather
  match copyMisaligned g with
  | some va => trap t cAlign va
  | none => match piecePlaces a .load 16 (sectorsFrom g.record 96) s with
    | (.error (r, va), us) => .seq (.upds us) (faultAt t r va)
    | (.ok ps, us) => .seq (.upds (us ++ usedPlaces s a (ps.map Prod.snd))) <| .read fun s =>
      let bs := ps.flatMap fun x => placeBytes s a x.2 16
      let l := layoutOf bs
      let entries := match g.list with
        | some x => steppedFrom x 4 (l.boxes.getD 1 0)
        | none => []
      match piecePlaces a .load 4 entries s with
      | (.error (r, va), us) => .seq (.upds us) (faultAt t r va)
      | (.ok xs, us) => .seq (.upds (us ++ usedPlaces s a (xs.map Prod.snd))) <| .read fun s =>
        match (ps ++ xs).find? fun x => orderBars s a x.2 with
        | some x => trap t cDorder x.1
        | none =>
        let list := g.list.map fun _ => xs.map fun x => signedOf 4 (leNat (placeBytes s a x.2 4))
        if !layoutSealed bs || !layoutValid bs || (gather && decide (l.rank < 2)) then trap t cSealbad g.record
        else
          let es := boxElems l g.coords list
          match rangeBad l es g.buf.toNat with
          | some va => trap t cCrange va
          | none => copyStart i q wc st inc g l es tok t

/-- R226, R228: the registers that a COPY reads: coordinates beyond those of a record are in the encoding's run all the same. -/
def copyReads (c : VReg) (gather : Bool) : List VReg :=
  regsFrom c 7 ++ (if gather then regsFrom (c + 8#7) 5 else regsFrom (c + 7#7) 4)

def execCopy (c q : VReg) (wc : BitVec 3) (st : BitVec 1) (la : BitVec 4) (inc : BitVec 16) (s : State) :
    Host.Outcome State Fault Refusal :=
  let i : Instr := .copy c q wc st la inc
  run (issueCounted i wc (copyReads c false) (commanding wc (copyAt i c q wc (st == 1#1) false inc.toNat))) s

def execCopyg (c q : VReg) (wc : BitVec 3) (st : BitVec 1) (la : BitVec 4) (inc : BitVec 16) (s : State) :
    Host.Outcome State Fault Refusal :=
  let i : Instr := .copyg c q wc st la inc
  run (issueCounted i wc (copyReads c true) (commanding wc (copyAt i c q wc (st == 1#1) true inc.toNat))) s

/-- R42: bytes of a saved scratchpad. -/
def Team.savedBytes (x : Team) (ci off n : Nat) : List Byte := (List.range n).map fun i =>
  ((x.scr.find? fun c => c.1 == ci && c.2.1 == off + i).map fun c => c.2.2).getD 0#8

/-- R42: bytes of a saved scratchpad are written. -/
def Team.saveBytes (x : Team) (ci off : Nat) (bs : List Byte) : Team :=
  { x with scr := (bs.mapIdx fun i b => (ci, off + i, b)) ++
      x.scr.filter fun c => !(c.1 == ci && decide (off ≤ c.2.1) && decide (c.2.1 < off + bs.length)) }

/-- A 64-bit counter at a place receives an add, as a release (R179); what it waits for otherwise. A counter of a team that is away
receives it in the saved state (R42). -/
def addCounter (s : State) (a : Agent) (pl : Place) (inc : Nat) : Except (Wait × Report) (List Upd) :=
  let added : List Byte → List Byte := fun bs => leBytes 8 ((leNat bs + inc) % 2 ^ 64)
  match pl, pl.away with
  | .scr core off, true =>
    let k := (core - 1024) / 4
    let ci := (core - 1024) % 4
    .ok [.team k fun x => x.saveBytes ci off (added (x.savedBytes ci off 8))]
  | _, _ => writePlace s a pl (added (placeBytes s a pl 8)) 0

/-- A COPY has moved a row: other commands, which are not ordered with it, have its bytes in common (R228, R320). -/
def rowMoved (op : Nat) (t : TId) (j : CopyJob) : List Upd :=
  [.op op (fun o => { o with job := match o.job with
    | .copy c => .copy { c with row := c.row + 1 }
    | job => job }),
   noteWritten op t false ((j.pieces j.row (List.replicate j.per 0)).flatMap BoxPiece.halfPlaces)]

/-- One action of a COPY, while its team is in its place or has been released (R44): its next row moves when the memory it names is in place and the lines it
writes can be there; after its last row the counter receives the add, and the COPY completes. -/
def copyTurn (op : Nat) : Eff := .read fun s =>
  match s.op? op with
  | none => .nothing
  | some o => match o.job with
    | .copy c =>
      let a := engineOf s o.t
      if !teamWorks s o.t.team || decide (c.row < c.rows) && c.places.any Place.away then .nothing
      else if c.row < c.rows then
        (match engineBlocked s a ((c.pieces c.row (List.replicate c.per 0)).map BoxPiece.place) with
          | some w => .upds [.report w.2]
          | none => .seq (c.move a c.row) (.upds (rowMoved op o.t c)))
      else match addCounter s a c.counter c.inc with
        | .error w => .upds [.report w.2]
        | .ok us => .seq (.upds us) (completeOp op)
    | _ => .nothing

/-- COPY_COMPLETE: due while the COPY is under way (R229). -/
def execCopyComplete (op : Nat) (s : State) : Host.Outcome State Fault Refusal :=
  run (.seq (copyTurn op) (.act fun s => if (s.op? op).any (fun o => match o.job with
    | .copy _ => true
    | _ => false) then [.event (.copyComplete op)] else [])) s

/-- Places that an operation has translated are changed. -/
def Job.mapPlaces (f : Place → Place) : Job → Job
  | .copy c => .copy { c with
      counter := f c.counter, buf := c.buf.map f,
      elems := c.elems.map (fun e => e.map fun e => { e with places := e.places.map f }),
      rivals := c.rivals.map fun x => (f x.1, x.2) }
  | .accld j => .accld { j with places := j.places.map f }
  | .accst j => .accst { j with places := j.places.map f, rivals := j.rivals.map fun x => (f x.1, x.2) }
  | .status pl v => .status (f pl) v
  | .qpush q n c l ps => .qpush q n c l (ps.map f)
  | j => j

def CollOp.mapPlaces (f : Place → Place) (o : CollOp) : CollOp :=
  { o with srcAt := o.srcAt.map f, dstAt := o.dstAt.map f, statAt := o.statAt.map f }

/-- Places that operations under way have translated are changed. -/
def mapPlaces (f : Place → Place) : Upd := .part fun p =>
  { p with ops := p.ops.map (fun o => { o with job := o.job.mapPlaces f }),
           colls := p.colls.map fun g => { g with ops := g.ops.map (CollOp.mapPlaces f) } }

/-- R157 to R159: pages that operations under way have translated are changed. -/
def movePages (f : Page → Page) : Upd := mapPlaces fun pl => match pl with
  | .page p => .page (f p)
  | pl => pl

/-! ## SEAL -/

/-- The first address of a range that lies in the local range (R225). -/
def firstLocal (vas : List (BitVec 64)) : Option (BitVec 64) :=
  vas.find? fun va => decide (0xFF000000000000 ≤ va.toNat) && decide (va.toNat < 2 ^ 56)

/-- The places of a range of pages for an engine; a window address is no page. -/
def pagePlaces (a : Agent) (k : AccessKind) (vas : List (BitVec 64)) (s : State) :
    Except (Nat × BitVec 64) (List (BitVec 64 × Place)) × List Upd :=
  let before := vas.takeWhile fun va => !(decide (0xFF000000000000 ≤ va.toNat) && decide (va.toNat < 2 ^ 56))
  match piecePlaces a k 4 before s, firstLocal vas with
  | (.ok _, us), some va => (.error (rLocal, va), us)
  | r, _ => r

/-- R225, R425: SEAL of one thread. -/
def sealAt (i : Instr) (dst src : BitVec 64) (t : TId) : Eff := .read fun s =>
  let a := engineOf s t
  if dst.toNat % 32 ≠ 0 then trap t cAlign dst
  else if src.toNat % 32 ≠ 0 then trap t cAlign src
  else match pagePlaces a .load (steppedFrom src 4 23) s with
    | (.error (r, va), us) => .seq (.upds us) (faultAt t r va)
    | (.ok ps, us) => .seq (.upds (us ++ usedPlaces s a (ps.map Prod.snd))) <| .read fun s =>
      match ps.find? fun x => orderBars s a x.2 with
      | some x => trap t cDorder x.1
      | none =>
        let bs := ps.flatMap fun x => placeBytes s a x.2 4
        if !layoutValid bs then trap t cSealbad src
        else match pagePlaces a .store (steppedFrom dst 4 24) s with
          | (.error (r, va), us) => .seq (.upds us) (faultAt t r va)
          | (.ok ds, us) => .seq (.upds us) <| .read fun s =>
            match ds.find? fun x => orderBars s a x.2 with
            | some x => trap t cDorder x.1
            | none => match engineBlocked s a (ds.map Prod.snd) with
              | some w => .waitServed t w
              | none => .seq (.each (writeAt a) ((ds.map Prod.snd).zip (chunks 4 24 (bs ++ layoutCheck bs)))) (.done t i.len)

def execSeal (d r : VReg) (wc : BitVec 3) (la : BitVec 4) (s : State) : Host.Outcome State Fault Refusal :=
  let i : Instr := .sealLayout d r wc la
  run (issueCounted i wc (pairOf d ++ pairOf r) (commanding wc fun _ t => .read fun s =>
    sealAt i ((s.th t).val64 d) ((s.th t).val64 r) t)) s

end Sys2Proof.Machine
end

