-- ==== Sys2Proof/Machine/Collect.lean ====
section
/-! DEFINITION. Collectives (R184, R219 to R223, R338, R344): groups, member operations, and what a matched operation writes. -/

namespace Sys2Proof.Machine

def State.coll? (s : State) (ctx num : Nat) : Option CollGroup := s.part.colls.find? fun g => g.ctx == ctx && g.num == num
def Upd.coll (ctx num : Nat) (f : CollGroup → CollGroup) : Upd :=
  .part fun p => { p with colls := p.colls.map fun g => if g.ctx = ctx ∧ g.num = num then f g else g }
def dropColl (ctx num : Nat) : Upd := .part fun p => { p with colls := p.colls.filter fun g => !(g.ctx == ctx && g.num == num) }

/-! ## CGRP (R219, R220) -/

/-- R220, the check of PARTS: each entry is 0, this part, or an entry of the peer table. -/
def partsBad (c : Option Ctx) (bs : List Byte) : Bool :=
  let n := match c with
    | some c => c.peers.length
    | none => 0
  bs.any fun b => decide (n < b.toNat)

/-- R219: the fields of a descriptor are in order: status 1, then 2. -/
def groupFields (bs : List Byte) : Option Nat :=
  let nm := fieldAt bs 8 2
  if fieldAt bs 12 4 ≠ 0 ∨ fieldAt bs 24 8 ≠ 0 then some 1
  else if nm < 2 ∨ 4096 < nm ∨ nm ≤ fieldAt bs 10 2 then some 2
  else none

/-- R220, checks 4 and 5, then the join: the result and the updates. -/
def joinGroup (t : TId) (bs parts : List Byte) (s : State) : Word × List Upd :=
  let ctx := ctxNum s t.team
  let key := BitVec.ofNat 64 (fieldAt bs 0 8)
  let nm := fieldAt bs 8 2
  let rank := fieldAt bs 10 2
  let handle : BitVec 8 → Nat → Word := fun gen n => 1#1 ++ 0#7 ++ gen ++ 0#8 ++ BitVec.ofNat 8 n
  match s.part.colls.find? fun g => g.ctx == ctx && g.key == key with
  | some g =>
    if g.nm ≠ nm ∨ g.members.any (fun m => m.1 == rank) then (4#32, [])
    else (handle g.gen g.num, [.coll ctx g.num fun g => { g with members := (rank, t) :: g.members }] ++
      (if g.members.length + 1 = g.nm then [.event (.collectiveForm ctx g.num)] else []))
  | none =>
    match (List.range 256).find? fun n => (s.coll? ctx n).isNone with
    | none => (5#32, [])
    | some n =>
      let gen := match s.part.collGen.find? fun g => g.1 == ctx && g.2.1 == n with
        | some g => g.2.2 + 1#8
        | none => 1#8
      (handle gen n, [.part fun p => { p with
        colls := p.colls ++ [⟨ctx, n, gen, key, nm, parts, [(rank, t)], false, false, 0, []⟩],
        collGen := (ctx, n, gen) :: p.collGen.filter fun g => !(g.1 == ctx && g.2.1 == n) }])

/-- CGRP of one thread, with the bytes of its descriptor; its result is written when it completes. -/
def groupWith (i : Instr) (d : VReg) (wc : BitVec 3) (la : Nat) (bs : List Byte) (tok : Nat) (t : TId) : Eff := .read fun s =>
  let write : Word → List Upd → Eff := fun v us => .seq (.upds us) (.seq (.done t i.len) (returns tok t wc d [v] la))
  match groupFields bs with
  | some e => write (BitVec.ofNat 32 e) []
  | none =>
    let parts := BitVec.ofNat 64 (fieldAt bs 16 8)
    if parts = 0#64 then
      let r := joinGroup t bs [] s
      write r.1 r.2
    else match piecePlaces (commandAgent s t) .load 1 (steppedFrom parts 1 (fieldAt bs 8 2)) s with
      | (.error (r, va), us) => .seq (.upds us) (faultAt t r va)
      | (.ok ps, us) => .seq (.upds (us ++ usedPlaces s (commandAgent s t) (ps.map Prod.snd))) <| .read fun s =>
        match ps.find? fun x => orderBars s (commandAgent s t) x.2 with
        | some x => trap t cDorder x.1
        | none =>
          let places := ps.map fun x => placeByte s (commandAgent s t) x.2
          if partsBad (s.ctxOf t.team) places then write 3#32 []
          else
            let r := joinGroup t bs places s
            write r.1 r.2

def execCgrp (d a : VReg) (wc : BitVec 3) (la : BitVec 4) (s : State) : Host.Outcome State Fault Refusal :=
  let i : Instr := .cgrp d a wc la
  run (issueCounted i wc (pairOf a) (commanding wc fun tok t => .read fun s =>
    let va := (s.th t).val64 a
    if va.toNat % 32 ≠ 0 then trap t cAlign va
    else overSectors t .load (sectorsFrom va 32) fun ps => .read fun s =>
      groupWith i d wc la.toNat (ps.flatMap fun x => placeBytes s (commandAgent s t) x.2 16) tok t)) s

/-- R338, check 3: the live group that a handle names and that the thread's team has joined. -/
def groupOfHandle (s : State) (t : TId) (h : Word) : Option CollGroup :=
  (if h.getLsbD 31 then s.coll? (ctxNum s t.team) (h.toNat % 256) else none).filter fun g =>
    g.gen == h.extractLsb' 16 8 && g.members.any fun m => m.2.team == t.team

/-! ## Ends -/

/-- A member's operation completes: its STATUS is written, and completion is an acquire (R184). A STATUS that cannot be written yet is
written when it can. -/
def endMember (v : Nat) (o : CollOp) : Eff := .read fun s =>
  let finish : Eff := .seq (.act fun s => acquire s o.t) (completeOp o.opId)
  let later : Place → Eff := fun pl => .upds [.op o.opId fun p => { p with job := .status pl v }, .event (.accessAck o.opId)]
  match o.statAt with
  | none => finish
  | some pl =>
    if pl.away then later pl
    else match writePlace s (commandAgent s o.t) pl (leBytes 4 v) 0 with
      | .error w => .seq (.upds [.report w.2]) (later pl)
      | .ok us => .seq (.upds us) finish

/-- R221: the pending operations of a group complete with STATUS 2. -/
def failGroup (ctx num : Nat) : Eff := .read fun s =>
  match s.coll? ctx num with
  | none => .nothing
  | some g => .seq (.upds [.coll ctx num fun g => { g with ops := [] }]) (.each (endMember 2) g.ops)

/-- CGRP.end: the group ends for every member. -/
def execCgrpEnd (h : VReg) (wc : BitVec 3) (la : BitVec 4) (s : State) : Host.Outcome State Fault Refusal :=
  let i : Instr := .cgrpEnd h wc la
  run (issueCounted i wc [] fun _ t => .read fun s =>
    match groupOfHandle s t ((s.th t).val h) with
    | none => illegal t 0xC
    | some g => .seq (failGroup g.ctx g.num) (.seq (.upds [dropColl g.ctx g.num]) (.done t i.len))) s

/-- R221: a member's team retires: what is pending fails, and so will what its other members issue; a group whose members have
all retired is no more. -/
def retireMember (k : Nat) : Eff := .read fun s =>
  .each (fun g => .seq (failGroup g.ctx g.num) <| .act fun s =>
    if g.members.all fun m => m.2.team == k || (s.team? m.2.team).isNone then [dropColl g.ctx g.num]
    else [.coll g.ctx g.num fun g => { g with broken := true }])
  (s.part.colls.filter fun g => g.members.any fun m => m.2.team == k)

/-! ## Member operations (R221) -/

/-- A thread's rank: the one it joined, or else the lowest of its team. -/
def rankOf (g : CollGroup) (t : TId) : Nat :=
  match g.members.find? fun m => m.2 == t with
  | some m => m.1
  | none => ((g.members.filter fun m => m.2.team == t.team).map Prod.fst).foldl min 4096

/-- Have all members of a group arrived at operation number `q`? -/
def allArrived (g : CollGroup) (q : Nat) : Bool :=
  g.formed && (List.range g.nm).all fun r => g.ops.any fun o => o.rank == r && o.seq == q

/-- An operation of a member is recorded; it is matched when every member has arrived. -/
def addMember (tok : Nat) (t : TId) (wc : BitVec 3) (g : CollGroup) (kind : Nat) (data : List Byte) (src dst : BitVec 64) (bytes op : Nat)
    (bad : Bool) (desc : BitVec 64) (srcAt dstAt : List Place) (statAt : Option Place) : Eff := .read fun s =>
  let rank := rankOf g t
  let seq := g.done + (g.ops.filter fun o => o.rank == rank).length
  let o : CollOp := ⟨rank, seq, kind, data, src, dst, bytes, op, bad, desc, s.nextId, t, srcAt, dstAt, statAt⟩
  .seq (addOp tok t wc none none (s.gr t.gid).core (.coll g.ctx g.num) fun _ => none) <|
  if g.broken then endMember 2 o
  else .seq (.upds [.coll g.ctx g.num fun g => { g with ops := g.ops ++ [o] }]) <| .act fun s =>
    match s.coll? g.ctx g.num with
    | some g => if allArrived g seq then [.event (.collectiveComplete g.ctx g.num seq)] else []
    | none => []

/-- The bytes of SRC and of DST of a kind for `nm` members. -/
def srcBytes (kind nm bytes : Nat) : Nat := if kind = 0 then bytes else nm * bytes
def dstBytes (kind nm bytes : Nat) : Nat := if kind = 1 then bytes else nm * bytes

/-- R221: the first address that lies neither in a page nor in the team scratchpad window: it has no place there (reason LOCAL, log 41). -/
def firstForeign (vas : List (BitVec 64)) : Option (BitVec 64) :=
  vas.find? fun va => decide (0xFF000100000000 ≤ va.toNat) && decide (va.toNat < 2 ^ 56)

/-- The sectors that hold `n` bytes from an address: with a field out of order (R221, STATUS 1) they may start or end within one. -/
def sectorsOver (va : BitVec 64) (n : Nat) : List (BitVec 64) :=
  let skew := va.toNat % 16
  sectorsFrom (va - BitVec.ofNat 64 skew) (if n = 0 then 0 else (n + skew + 15) / 16 * 16)

/-- The sectors of SRC or DST, or the first fault. -/
def memberPlaces (a : Agent) (k : AccessKind) (vas : List (BitVec 64)) (s : State) :
    Except (Nat × BitVec 64) (List (BitVec 64 × Place)) × List Upd :=
  let before := vas.takeWhile fun va => (firstForeign [va]).isNone
  match piecePlaces a k 16 before s, firstForeign vas with
  | (.ok _, us), some va => (.error (rLocal, va), us)
  | r, _ => r

/-- A member operation with its descriptor: SRC and DST translate whole, also where a field is out of order (R223: a fault comes first, and
no arrival counts); SRC is read when it issues (DESIGN CHOICE, log 5). -/
def memberWith (i : Instr) (tok : Nat) (t : TId) (wc : BitVec 3) (g : CollGroup) (kind : Nat) (desc : BitVec 64) (stat : Place)
    (bs : List Byte) : Eff := .read fun s =>
  let a := commandAgent s t
  let src := BitVec.ofNat 64 (fieldAt bs 0 8)
  let dst := BitVec.ofNat 64 (fieldAt bs 8 8)
  let bytes := fieldAt bs 16 4
  let op := byteAt bs 20
  let bad := bytes % 16 != 0 || decide (bytes < 16) || decide (2 ^ 30 < bytes) || fieldAt bs 21 7 != 0 || (kind == 1 && decide (5 < op)) ||
    src.toNat % 16 != 0 || dst.toNat % 16 != 0
  let go : List Byte → List Place → List Place → Eff := fun data srcAt dstAt =>
    .seq (.done t i.len) (addMember tok t wc g kind data src dst bytes op bad desc srcAt dstAt (some stat))
  match memberPlaces a .load (sectorsOver src (srcBytes kind g.nm bytes)) s with
    | (.error (r, va), us) => .seq (.upds us) (faultAt t r va)
    | (.ok ps, us) => match memberPlaces a .store (sectorsOver dst (dstBytes kind g.nm bytes)) (s.applyAll us) with
      | (.error (r, va), vs) => .seq (.upds (us ++ vs)) (faultAt t r va)
      | (.ok ds, vs) => if bad then .seq (.upds (us ++ vs)) (go [] [] []) else .seq (.upds (us ++ vs ++ usedPlaces s a (ps.map Prod.snd))) <| .read fun s =>
        match (ps ++ ds).find? fun x => orderBars s a x.2 with
        | some x => trap t cDorder x.1
        | none => go (ps.flatMap fun x => placeBytes s a x.2 16) (ps.map Prod.snd) (ds.map Prod.snd)

/-- CGATH, CRSC and CATA. -/
def member (i : Instr) (kind : Nat) (h a : VReg) (wc : BitVec 3) : Eff :=
  issueCounted i wc (pairOf a) (commanding wc fun tok t => .read fun s =>
    let va := (s.th t).val64 a
    if va.toNat % 32 ≠ 0 then trap t cAlign va
    else match groupOfHandle s t ((s.th t).val h) with
      | none => illegal t 0xC
      | some g => overSectors t .load (sectorsFrom va 32) fun ps => .read fun s =>
        match translate s (commandAgent s t) .store (va + 28#64) 4 with
        | (.error r, us) => .seq (.upds us) (faultAt t r (va + 28#64))
        | (.ok stat, us) => .seq (.upds us) <| .read fun s =>
          memberWith i tok t wc g kind va stat (ps.flatMap fun x => placeBytes s (commandAgent s t) x.2 16))

def execCgath (h a : VReg) (wc : BitVec 3) (la : BitVec 4) (s : State) : Host.Outcome State Fault Refusal :=
  run (member (.cgath h a wc la) 0 h a wc) s
def execCrsc (h a : VReg) (wc : BitVec 3) (la : BitVec 4) (s : State) : Host.Outcome State Fault Refusal :=
  run (member (.crsc h a wc la) 1 h a wc) s
def execCata (h a : VReg) (wc : BitVec 3) (la : BitVec 4) (s : State) : Host.Outcome State Fault Refusal :=
  run (member (.cata h a wc la) 2 h a wc) s

/-- CBAR: a member operation that moves nothing. -/
def execCbar (h : VReg) (wc : BitVec 3) (la : BitVec 4) (s : State) : Host.Outcome State Fault Refusal :=
  let i : Instr := .cbar h wc la
  run (issueCounted i wc [] (commanding wc fun tok t => .read fun s =>
    match groupOfHandle s t ((s.th t).val h) with
    | none => illegal t 0xC
    | some g => .seq (.done t i.len) (addMember tok t wc g 3 [] 0#64 0#64 0 0 false 0#64 [] [] none))) s

/-! ## Forming and completing -/

/-- COLLECTIVE_FORM: all ranks have joined; operations that wait are matched. -/
def execCollectiveForm (ctx num : Nat) (s : State) : Host.Outcome State Fault Refusal :=
  run (.read fun s =>
    match s.coll? ctx num with
    | none => .nothing
    | some g =>
      if g.members.length < g.nm then .nothing
      else
        let g' := { g with formed := true }
        let ready := ((g.ops.map CollOp.seq).eraseDups).filter (allArrived g')
        .upds ([.coll ctx num fun g => { g with formed := true }] ++ ready.map fun q => .event (.collectiveComplete ctx num q))) s

/-- R221: OP on two words. -/
def combineOp (op : Nat) (x y : Word) : Word :=
  match op with
  | 0 => fadd32 x y
  | 1 => x + y
  | 2 => fmaxNan x y
  | 3 => fminNan x y
  | 4 => if x.slt y then y else x
  | _ => if y.slt x then y else x

/-- R222: the largest power of two below `n`. -/
def halfBelow (n : Nat) : Nat := 2 ^ (n - 1).log2

/-- R222: the tree over members `lo` to `lo + n - 1`; `fuel` bounds its depth. -/
def tree (op : Nat) (x : Nat → List Word) : Nat → Nat → Nat → List Word
  | 0, lo, _ => x lo
  | fuel + 1, lo, n =>
    if n ≤ 1 then x lo
    else
      let h := halfBelow n
      ((tree op x fuel lo h).zip (tree op x fuel (lo + h) (n - h))).map fun p => combineOp op p.1 p.2

/-- Block `b` of `n` bytes. -/
def blockOf (bs : List Byte) (b n : Nat) : List Byte := (bs.drop (b * n)).take n

/-- R221: what the DST of rank `r` receives. -/
def memberResult (ops : List CollOp) (nm kind bytes op r : Nat) : List Byte :=
  let data : Nat → List Byte := fun m => match ops.find? fun o => o.rank == m with
    | some o => o.data
    | none => []
  match kind with
  | 0 => (List.range nm).flatMap data
  | 1 => bytesOf (tree op (fun m => wordsOf (blockOf (data m) r bytes)) 13 0 nm)
  | 2 => (List.range nm).flatMap fun m => blockOf (data m) r bytes
  | _ => []

/-- The DST of an operation is written, by sectors. R223: a byte that is its SRC's too ends unpredictable among the values involved:
what arrives, or what stood there, by a free bit (log 41). -/
def writeResult (bs : List Byte) (o : CollOp) : Eff := .read fun s =>
  let a := commandAgent s o.t
  let shared : Place → Bool := fun p => o.srcAt.any fun q => touches p 16 q 16
  let mixed : Nat → Place × List Byte → Place × List Byte := fun i x =>
    (x.1, if shared x.1 = true then
      (x.2.zip (placeBytes s a x.1 16)).mapIdx fun k b => if (s.freeWord i).getLsbD k then b.1 else b.2 else x.2)
  .seq (.each (writeAt a) ((o.dstAt.zip (chunks 16 o.dstAt.length bs)).mapIdx mixed))
    (if o.dstAt.any shared then .upds [.drawn o.dstAt.length] else .nothing)

/-- The first thing for which a matched operation's writes must wait (R153, R154). -/
def resultBlocked (s : State) (ops : List CollOp) : Option (Wait × Report) :=
  match ops with
  | [] => none
  | o :: _ => engineBlocked s (commandAgent s o.t) (ops.flatMap fun o => o.dstAt ++ o.statAt.toList)

/-- R223: do deliveries of a matched operation wait for a restore? -/
def resultAway (s : State) (ops : List CollOp) : Bool :=
  ops.any fun o => !teamHere s o.t.team || (o.dstAt ++ o.statAt.toList).any Place.away

/-- A matched operation completes: every DST, then every STATUS and completion. -/
def completeMembers (g : CollGroup) (q : Nat) (ops : List CollOp) : Eff :=
  let first := ops.head?
  let kind := (first.map CollOp.kind).getD 3
  let bytes := (first.map CollOp.bytes).getD 0
  let op := (first.map CollOp.op).getD 0
  let bad := ops.any fun o => o.bad || o.kind != kind || o.bytes != bytes || o.op != op
  .seq (if bad then .nothing else .each (fun o => if o.kind = 3 then .nothing else
    writeResult (memberResult ops g.nm kind bytes op o.rank) o) ops) <|
  .seq (.upds [.coll g.ctx g.num fun g => { g with ops := g.ops.filter (fun o => o.seq != q), done := q + 1 }])
    (.each (endMember (if bad then 1 else 0)) ops)

/-- COLLECTIVE_COMPLETE: due when the operations before it have completed and the members' teams hold their places (R223). -/
def execCollectiveComplete (ctx num seq : Nat) (s : State) : Host.Outcome State Fault Refusal :=
  run (.read fun s =>
    match s.coll? ctx num with
    | none => .nothing
    | some g =>
      let ops := g.ops.filter fun o => o.seq == seq
      if !allArrived g seq then .nothing
      else if g.done ≠ seq ∨ resultAway s ops = true then .upds [.event (.collectiveComplete ctx num seq)]
      else match resultBlocked s ops with
        | some w => .upds [Upd.report w.2, .event (.collectiveComplete ctx num seq)]
        | none => completeMembers g seq ops) s

end Sys2Proof.Machine
end

