-- ==== Sys2Proof/Machine/Place.lean ====
section
/-! DEFINITION. Where teams stand: the resource check (R13, R29, R30, R130), the dispatch of a launch's teams (R31 to R33, R275, R276),
the active set (R17, R18), stopping and saving a team, and restoring it (R41, R42, R242 to R245, R260). -/

namespace Sys2Proof.Machine

/-! ## The resource check -/

/-- The teams and groups that hold places. -/
structure Load where
  teams  : List Team
  groups : List Group
deriving DecidableEq, Repr

/-- R240, R243: does a team of work cores hold a place? -/
def Team.placed (x : Team) : Bool := x.sup.isNone && x.here

def State.load (s : State) : Load :=
  ⟨s.teams.filter Team.placed, s.groups.filter fun g => (s.tm g.id.team).placed⟩

/-- An empty part (R32). -/
def Load.empty : Load := ⟨[], []⟩

def Load.teamsOn (l : Load) (core : Nat) : List Team := l.teams.filter fun x => x.cores.any (· == core)

/-- Is `x` a free place for `n` units among taken ranges (base, length) of `cap` units? -/
def fitsAt (used : List (Nat × Nat)) (n cap x : Nat) : Bool :=
  decide (x + n ≤ cap) && used.all fun u => decide (x + n ≤ u.1) || decide (u.1 + u.2 ≤ x) || u.2 == 0

/-- R130: the lowest free place: 0, or where a taken range ends. -/
def lowestFit (used : List (Nat × Nat)) (n cap : Nat) : Option Nat :=
  if n = 0 then some 0
  else ((0 :: used.map fun u => u.1 + u.2).filter (fitsAt used n cap)).foldl (init := none) fun b x => match b with
    | none => some x
    | some y => some (min x y)

/-- A place for a range: the lowest, or the one that it must have. R30 asks for enough rows and bytes; that they must be one contiguous
range is the model's choice (DESIGN CHOICE, log 42): a claim has one base (R130), so free rows or operand-buffer bytes in pieces, none
of them long enough, do not hold it. -/
def placeRange (used : List (Nat × Nat)) (n cap : Nat) (fixed : Option Nat) : Option Nat :=
  match fixed with
  | none => lowestFit used n cap
  | some x => if n = 0 ∨ fitsAt used n cap x then some x else none

/-- A group to place: its core, its blocks on each lane, the lane base that it must have. -/
structure Ask where
  core   : Nat
  blocks : Nat
  base   : Option Nat
deriving DecidableEq, Repr

/-- A group's lanes on a core: core, lane base, width, blocks on each lane. -/
structure Taken where
  core   : Nat
  base   : Nat
  w      : Nat
  blocks : Nat
deriving DecidableEq, Repr

def Load.taken (l : Load) : List Taken := l.groups.map fun g => ⟨g.core, g.base, g.w, g.n / 8⟩

/-- R13: does each of `w` lanes from a base have a slot and enough blocks free? -/
def lanesFree (ts : List Taken) (core base w blocks : Nat) : Bool :=
  (List.range w).all fun i =>
    let here := ts.filter fun x => x.core == core && decide (x.base ≤ base + i) && decide (base + i < x.base + x.w)
    decide (here.length < 32) && decide ((here.map Taken.blocks).sum + blocks ≤ 256)

/-- R30: the groups placed one after the other, each at the lowest lane base. -/
def placeGroups (w : Nat) : List Taken → List Ask → Option (List Nat)
  | _, [] => some []
  | ts, a :: rest =>
    let bases := match a.base with
      | some b => [b]
      | none => (List.range (64 / max 1 w)).map (· * w)
    match bases.find? fun b => lanesFree ts a.core b w a.blocks with
    | none => none
    | some b => (placeGroups w (⟨a.core, b, w, a.blocks⟩ :: ts) rest).map fun bs => b :: bs

/-- Where a team fits: the offsets of its claim, and its lane bases. -/
structure Fit where
  scr   : Nat
  acc   : Nat
  ob    : Nat
  bases : List Nat
deriving DecidableEq, Repr

/-- The offsets that a claim must have. -/
abbrev Fixed := Option (Nat × Nat × Nat)

/-- R30: does a team fit on cores: every item of its claim is free at once? -/
def fitTeam (l : Load) (cores : List Nat) (c : Claim) (w : Nat) (asks : List Ask) (fixed : Fixed) : Option Fit :=
  let on := cores.flatMap l.teamsOn
  let counts := cores.all fun core =>
    let ts := l.teamsOn core
    decide (ts.length < 16) && decide ((ts.map fun x => x.claim.barriers).sum + c.barriers ≤ 64) &&
      decide ((l.groups.filter fun g => g.core == core).length + (asks.filter fun a => a.core == core).length ≤ 128)
  if !counts then none
  else match placeRange (on.map fun x => (x.claim.scrBase, x.claim.scrSize)) c.scrSize 524288 (fixed.map fun f => f.1),
      placeRange (on.map fun x => (x.claim.accBase, x.claim.accRows)) c.accRows 8192 (fixed.map fun f => f.2.1),
      placeRange (on.map fun x => (x.claim.obBase, x.claim.obSize)) c.obSize 262144 (fixed.map fun f => f.2.2),
      placeGroups w l.taken asks with
    | some x, some y, some z, some bs => some ⟨x, y, z, bs⟩
    | _, _, _, _ => none

/-! ## Places of a partition -/

/-- R31, R303: is a cell of a partition one where teams are placed? -/
def cellOpen (s : State) (part : BitVec 192) (cell : Nat) : Bool :=
  cellHas part cell && cellHas s.part.cellPresent cell && !cellHas s.part.cellOff cell

/-- R11: place `p` for teams of `c` cores. -/
def placeCores (c p : Nat) : List Nat := (List.range c).map fun i => p * c + i

/-- The places of a partition in ascending order, from place `scan` on and wrapping around. -/
def places (s : State) (part : BitVec 192) (c scan : Nat) : List Nat :=
  let ps := (List.range (768 / max 1 c)).filter fun p => cellOpen s part (p * c / 4)
  ps.filter (fun p => scan ≤ p) ++ ps.filter fun p => p < scan

/-- The claim of a kernel (R29, R101), not yet placed. -/
def Kernel.claim (k : Kernel) : Claim := ⟨k.scratchK * 1024, 0, k.accRows, 0, k.obuf4k * 4096, 0, k.barriers⟩

def Kernel.groups (k : Kernel) : Nat := (k.teamT + k.w - 1) / max 1 k.w

/-- R11: the groups of a new team on its cores. -/
def Kernel.asks (k : Kernel) (cores : List Nat) : List Ask :=
  (List.range k.groups).map fun g => ⟨cores.getD (g % max 1 cores.length) 0, k.regs / 8, none⟩

/-- R32: does a claim fit an empty place? -/
def Kernel.fitsEmpty (k : Kernel) : Bool :=
  let cores := placeCores k.cores 0
  (fitTeam Load.empty cores k.claim k.w (k.asks cores) none).isSome

/-- R275: how many teams of a deterministic launch have their own logical places: 256, 128 or 64. -/
def logicalPlaces (c : Nat) : Nat := 256 / max 1 c

/-- R276: does the mapping of logical cells allow team `idx` of a deterministic launch on place `p`: the core-in-cell is its own, its
logical cell's teams stand in one physical cell, and no team of another logical core of the launch holds its cores? -/
def mapsTo (s : State) (launch c idx p : Nat) : Bool :=
  let per := 4 / max 1 c
  let lg := idx % logicalPlaces c
  p % per == lg % per &&
    s.teams.all fun x => !(x.launch == launch && x.placed) ||
      (((x.idx % logicalPlaces c) / per != lg / per || x.cores.headD 0 / 4 == p / per) && x.cores.headD 0 / max 1 c != p)

/-- A place for a new team of a launch (R31, R275): the place and how it fits. -/
def placeNew (s : State) (l : Launch) : Option (Nat × Fit) :=
  let k := l.kern
  let fits := fun p => (fitTeam s.load (placeCores k.cores p) k.claim k.w (k.asks (placeCores k.cores p))
    (if k.det then some (0, 0, 0) else none)).map fun f => (p, f)
  if k.det then
    if s.teams.any fun x => x.sup.isNone && x.res != .retired && x.launch == l.key && x.idx % logicalPlaces k.cores == l.next % logicalPlaces k.cores then none
    else
      let empty := (fitTeam Load.empty (placeCores k.cores 0) k.claim k.w (k.asks (placeCores k.cores 0)) none).map Fit.bases
      ((places s l.part k.cores 0).filter (mapsTo s l.key k.cores l.next)).findSome? fun p =>
        (fits p).filter fun x => some x.2.bases == empty
  else (places s l.part k.cores l.scan).findSome? fits

/-- Active groups of a core that have live threads (R17). -/
def activeOn (s : State) (core : Nat) : Nat :=
  (s.groups.filter fun g => g.core == core && g.active && !s.isSup g.id.team && (s.threadsOf g.id).any Thread.live).length

/-- The L1 copies of cores, and the RDC copies of their dies, are dropped: what a team meets there is no older than the events
that come before it (R184). -/
def freshCopies (cores : List Nat) : Upd := .part fun p =>
  { p with l1 := p.l1.filter (fun x => !cores.any (· == x.owner)), rdc := p.rdc.filter fun x => !cores.any fun c => dieOf c == x.owner }

/-- A team is placed (R385). -/
def addNew (s : State) (l : Launch) (p : Nat) (f : Fit) : List Upd :=
  let k := l.kern
  let key := s.nextId
  let cores := placeCores k.cores p
  let claim : Claim := { k.claim with scrBase := f.scr, accBase := f.acc, obBase := f.ob }
  let emuvec := match s.ctx? l.ctx with
    | some c => c.emuvec
    | none => 0#64
  let groups := f.bases.mapIdx fun g base =>
    let core := cores.getD (g % k.cores) 0
    { Group.fresh ⟨key, g⟩ k.w base k.regs l.args emuvec core with
      active := decide (activeOn s core + g / k.cores < 8), activeAt := s.cycle core }
  let ths := (List.range k.teamT).map fun i => { Thread.fresh ⟨key, i / k.w, i % k.w⟩ k.entry .running with stamp := s.stamp }
  [.addTeam (Team.fresh key l.ctx l.key l.next k.teamT k.w cores k.gen k.det claim) groups ths,
   .launch l.key (fun l => { l with next := l.next + 1, scan := p + 1 }), .stamped, freshCopies cores]

/-! ## Waits (R17, R39) -/

/-- R39, R403: does a thread wait in the sense of the wait threshold: parked, or blocked on one of the waits that R39, R403, R432, R433 and
R446 name? -/
def threadWaits (s : State) (x : Thread) : Bool :=
  let mwait : Instr → Bool := fun i => match i with
    | .mwait _ => true
    | _ => false
  match x.run with
  | .barrier _ | .joined _ _ => true
  | .waiting w => (match w with
    | .pending | .counters | .queue | .grow | .sleep _ | .sleepu _ | .rendezvous => true
    | .matrix => mwait x.instr
    | _ => false)
  | .running => waitgeAt s x || (match wordWait s x with
    | some .pending | some .counters => true
    | some .matrix => (standing s x).any fun y => mwait y.instr
    | _ => false)
  | _ => false

/-- R39, R43: does a team wait: all the live threads of all its groups, no group being hosted? -/
def teamWaits (s : State) (k : Nat) : Bool :=
  let ths := (s.teamThreads k).filter Thread.live
  !ths.isEmpty && ths.all (threadWaits s) && !(s.teamGroups k).any fun g => g.hosted.isSome

/-- R41: has no thread of a team issued since its wait began? -/
def waitUnbroken (s : State) (x : Team) : Bool := (s.teamThreads x.key).all fun y => decide (y.stamp < x.waitStamp)

/-- R40, R41: has a team waited for its threshold without a break? -/
def waitedOut (s : State) (x : Team) : Bool :=
  waitUnbroken s x && x.waitAt.any fun w => w.2 != 0xFFFFFFFF && decide (w.1 + w.2 ≤ s.time)

/-! ## Waking -/

/-- R41, R230: what the counter of a thread's WAITGE holds. In the own scratchpad of a team that is away, which the peer window may name
too (R131), the counter stands in the saved state (R42); one whose address faults has no value. -/
def counterNow (s : State) (t : TId) (va : BitVec 64) : Option Nat :=
  let x := s.tm t.team
  let sz := x.claim.scrSize
  let off := va.toNat - 0xFF000000000000
  let peer := va.toNat - 0xFF000100000000
  let own : Option Nat :=
    if 0xFF000100000000 ≤ va.toNat ∧ va.toNat < 0xFF000200000000 ∧ x.claim.scrBase ≤ peer % 0x80000 ∧
        peer % 0x80000 + 8 ≤ x.claim.scrBase + sz then x.cores.findIdx? (· == (s.gr t.gid).core / 48 * 48 + peer / 0x80000)
    else none
  if !x.here ∧ 0xFF000000000000 ≤ va.toNat ∧ off + 8 ≤ x.cores.length * sz then some (leNat (x.savedBytes (off / sz) (off % sz) 8))
  else match (if x.here then none else own) with
    | some ci => some (leNat (x.savedBytes ci (peer % 0x80000 - x.claim.scrBase) 8))
    | none => match (translate s (agentOf s t) .load va 8).1 with
      | .ok pl => some (leNat (placeBytes s (agentOf s t) pl 8))
      | .error _ => none

/-- R41, R230: has the counter of a WAITGE of a team that is away reached a target? -/
def awayReached (s : State) (t : TId) (va target : BitVec 64) : Bool := (counterNow s t va).any fun v => decide (target.toNat ≤ v)

/-- R273: the addresses of the counters for which a thread waits (R230, R433). -/
def counterAddrs (s : State) (x : Thread) : List (BitVec 64) :=
  (s.part.ops.filterMap fun o => match o.job with
    | .waitge va _ => if o.t = x.id then some va else none
    | _ => none) ++ x.held.map HeldWait.va ++
  ((standing s x).bind fun y => match y.instr with
    | .waitge _ a _ _ => some (y.val64 a)
    | .sleepuCounter _ c => some (y.val64 c)
    | _ => none).toList

/-- R273: the counters for which the threads of a launch wait, as they stand. -/
def waitedCounters (s : State) (l : Launch) : List Nat :=
  (s.threads.filter fun x => x.live && (s.tm x.id.team).sup.isNone && (s.tm x.id.team).launch == l.key).flatMap fun x =>
    (counterAddrs s x).filterMap (counterNow s x.id)

/-- R41: does the wait of a thread that is away from its core hold still? A queue wait ends by its event; WAITW, GROW, JOIN and a
rendezvous cannot be met there. R403 makes MWAIT a wait for R39 and the table of R41 gives it no wake condition: a team that is away in
MWAIT is taken as awake at once, as one in WAITW is (DESIGN CHOICE, log 56). -/
def waitsAway (s : State) (x : Thread) : Bool :=
  match x.run with
  | .barrier n => ((s.tm x.id.team).bar n).pend.contains x.id
  | .waiting w => (match w with
    | .sleep d => decide (s.time < d)
    | .sleepu d => decide (s.cycleOf x.id < d)
    | .queue => true
    | .pending => !retryable s x w
    | _ => false)
  | .running => match standing s x with
    | none => !x.held.isEmpty && x.held.all fun h => !awayReached s x.id h.va h.target
    | some y =>
      if issueWait s y y.instr = some .pending then true
      else match y.instr with
        | .waitge d a _ _ => !awayReached s x.id (y.val64 a) (y.val64 d)
        | _ => !x.held.isEmpty && x.held.all fun h => !awayReached s x.id h.va h.target
  | _ => false

/-- R41: the wake condition of a swapped-out team holds: for a thread of it, the wait is over. -/
def awake (s : State) (k : Nat) : Bool := ((s.teamThreads k).filter Thread.live).any fun x => !waitsAway s x

def swappedAwake (s : State) (x : Team) : Bool := x.res == .swapped && awake s x.key

/-- R31, R33, R41: TEAM_DISPATCH; owed while teams are left. A woken team of the launch, and an older launch's team that fits, come
first. -/
def execTeamDispatch (launch : Nat) (s : State) : Host.Outcome State Fault Refusal :=
  run (.read fun s =>
    match s.launch? launch with
    | none => .nothing
    | some l =>
      let later : Eff := .upds [.event (.teamDispatch launch)]
      if l.teams ≤ l.next then .nothing
      else if s.teams.any (fun x => x.launch == launch && x.sup.isNone && swappedAwake s x) then later
      else if s.part.launches.any (fun m => decide (m.key < l.key) && decide (m.next < m.teams) && (placeNew s m).isSome) then later
      else match placeNew s l with
        | none => later
        | some (p, f) => .seq (.act fun s => addNew s l p f) (if l.next + 1 < l.teams then later else .nothing)) s

/-! ## The active set -/

/-- R17: ACTIVE_SET_SWAP: due for an active group that gives way, while a pending group is ready. -/
def execActiveSetSwap (core : Nat) (g : GId) (s : State) : Host.Outcome State Fault Refusal :=
  run (.seq (.act markReady) <| .act fun s =>
    let x := s.gr g
    if x.active && x.core == core && !s.isSup g.team && givesWay s g then swapActive s g else []) s

/-- The active group of a core that has held its place longest. -/
def longestActive (s : State) (core : Nat) : Option Group :=
  (s.groups.filter fun g => g.core == core && g.active && !s.isSup g.id.team).foldl (init := none) fun b g => match b with
    | none => some g
    | some h => if g.activeAt < h.activeAt then some g else some h

/-- R17, R18: PENDING_PROMOTE: a ready pending group takes a free place of the active set, or after 4,096 cycles of readiness the
place of the group that has held its own longest. -/
def execPendingPromote (core : Nat) (g : GId) (s : State) : Host.Outcome State Fault Refusal :=
  run (.act fun s =>
    let x := s.gr g
    let enter : Upd := .group g fun y => { y with active := true, activeAt := s.cycle core, readyAt := none }
    if x.active || x.hosted.isSome || x.core != core || s.isSup g.team || !groupReady s g then []
    else if activeOn s core < 8 then [enter]
    else if x.readyAt.any fun c => decide (c + 4096 ≤ s.cycle core) then
      match longestActive s core with
      | some h => [.group h.id (fun y => { y with active := false, readyAt := none }), enter]
      | none => []
    else []) s

/-! ## Saving a team (R242, R243) -/

/-- What a save completes: loads, stores, atomics and register results of the team, and LDMC deliveries from it and to it. -/
def completeForSave (k : Nat) : Eff := .read fun s => .each (fun o => match o.job with
  | .load _ _ | .access _ _ | .combined _ | .result | .poisoned _ | .obld _ _ _ => if o.t.team = k then completeOp o.id else .nothing
  | .ldmc _ lines dest dests was hits =>
    if o.t.team = k ∨ dests.any (fun c => (s.tm k).cores.any (· == c)) then
      .seq (.act fun s => deliverLines s dest dests lines was hits) (completeOp o.id)
    else .nothing
  | _ => .nothing) s.part.ops

/-- R242: stopped in its WAITGE, a thread stands at it again. -/
def Thread.rewind (x : Thread) (g : Gate) : Thread :=
  { x.goTo g.pc with widx := g.widx, ifpN := g.ifpN, ifpG := g.ifpG, gate := none }

/-- R242: the WAITGE at which a thread is stopped: its latest instruction, whose wait holds it. -/
def Thread.atGate (x : Thread) : Option Gate := if x.run = .running then x.gate.filter fun g => g.stamp == x.stamp else none

/-- R230, R242: the WAITGEs of a team that is saved are not issued: their counters fall. A thread that has not gone on since its WAITGE
stands at it again, and issues it afresh on restore; one that has, within the WAITGE's window, keeps it aside, since those instructions
are not repeated (DEDUCED, log 43). -/
def holdWaits (k : Nat) : Eff := .read fun s => .each (fun o => match o.job, o.wc with
  | .waitge va target, some wc =>
    if o.t.team = k then .act fun s => o.settle s ++ .dropOp o.id :: (match (s.th o.t).atGate with
      | some g => [.thread o.t fun x => x.rewind g]
      | none => [.thread o.t fun x => { x with held := x.held ++ [⟨o.tok, wc, va, target, (o.dlv.map Delivery.win).getD 0⟩] }])
    else .nothing
  | _, _ => .nothing) s.part.ops

/-- A queued group without the threads of a team. -/
def Wave.without (k : Nat) (w : Wave) : Wave := { w with ths := w.ths.filter fun t => t.team != k }

/-- R267: threads that a barrier has released, and whose wave has not left, are saved as released. -/
def leaveWaves (k : Nat) : Eff := .read fun s =>
  .seq (.each (fun x => if x.run = .wave then .seq (.act fun s => acquire s x.id) (.leave x.id 1) else .nothing) (s.teamThreads k))
    (.upds [.part fun p => { p with clusters := p.clusters.map fun c =>
      { c with waves := (c.waves.map (Wave.without k)).filter fun w => !w.ths.isEmpty } }])

/-- The scratchpad places of a team's claim under the names that they have while it is away, and back. -/
def awayPlace (x : Team) : Place → Place
  | .scr core off => (match x.cores.findIdx? (· == core) with
    | some ci => if x.claim.scrBase ≤ off ∧ off < x.claim.scrBase + x.claim.scrSize then .scr (awayCore x.key ci) (off - x.claim.scrBase)
      else .scr core off
    | none => .scr core off)
  | pl => pl
def herePlace (x : Team) : Place → Place
  | .scr core off => if 1024 ≤ core ∧ (core - 1024) / 4 = x.key then .scr (x.cores.getD ((core - 1024) % 4) 0) (x.claim.scrBase + off)
    else .scr core off
  | pl => pl

/-- The listed bytes of a range of keys, by offset. -/
def rangeCells (s : State) (key n : Nat) : List (Nat × Byte) :=
  s.mem.filterMap fun c => if key ≤ c.1 ∧ c.1 < key + n then some (c.1 - key, c.2) else none

/-- The bytes of a team's claim on each of its cores. -/
def claimCells (s : State) (x : Team) (key : Nat → Nat) (n : Nat) : List (Nat × Nat × Byte) :=
  x.cores.zipIdx.flatMap fun c => (rangeCells s (key c.1) n).map fun b => (c.2, b.1, b.2)

/-- R242: a thread's wait, as saved: what has not issued issues afresh; a parked thread stays parked. -/
def Thread.saved (x : Thread) : Thread :=
  match x.run with
  | .waiting .grow | .waiting .rendezvous | .waiting .fault => { x with run := .running, denied := false }
  | _ => x

/-- R260: a hosted group leaves its microscope core, to be hosted again, unless it was on its way home. -/
def unhostForSave (s : State) (g : Group) : List Upd := match g.hosted with
  | none => []
  | some h => [.micro h.m (fun k => { k with slots := updAt k.slots h.slot.toNat fun _ => Slot.reset }),
      .group g.id fun x => { x with hosted := none, homing := false,
                                    shutter := if g.homing then none else some ((s.micro h.m).slot h.slot.toNat).pav }]

/-- R242, R243: a team that is quiet is saved and gives up its place. -/
def saveTeam (k : Nat) (res : Residence) : Eff :=
  .seq spoilRows <| .seq (holdWaits k) <|
  .seq (.read fun s => .each (fun x => .seq (.act fun s => drainBuffer s x.id) (closeWindows x.id)) (s.teamThreads k)) <|
  .seq (leaveWaves k) <| .seq (landSends k) <| .seq (completeForSave k) <| .act fun s =>
    let x := s.tm k
    (s.teamGroups k).flatMap (fun g => unhostForSave s g ++ [.group g.id fun y => { y with grows := [], active := false, readyAt := none }]) ++
    (s.teamThreads k).map (fun y => .thread y.id Thread.saved) ++
    [mapPlaces (awayPlace x), .team k fun y => { y with
      res := res, waitAt := none, stopping := false, off := match res with
        | .faulted _ _ => true
        | _ => false,
      scr := claimCells s x (fun c => scrKey c x.claim.scrBase) x.claim.scrSize,
      acc := claimCells s x (fun c => accKey c x.claim.accBase 0) (x.claim.accRows * 256),
      obuf := claimCells s x (fun c => obufKey c x.claim.obBase) x.claim.obSize }]

/-- R41, R43: SWAP_OUT: due when a team without a hosted group has waited for its context's threshold. -/
def execSwapOut (team : Nat) (s : State) : Host.Outcome State Fault Refusal :=
  run (.read fun s =>
    let x := s.tm team
    if waitedOut s x && x.sup.isNone && x.res == .resident && teamWaits s team && teamQuiet s team then
      .seq (saveTeam team .swapped) (.upds [.event (.teamWake team), .report (.timeout team)])
    else .nothing) s

/-- R242, R273: PREEMPT: the threads are asked to stop; the team is saved when they have, and the resident kernel is told when the limit of
10,000 TIME cycles has passed. The request is void for a team whose last thread has
exited (R47). A team that a team fault has stopped is saved the same way (R243), and keeps its cause. -/
def execPreempt (team : Nat) (s : State) : Host.Outcome State Fault Refusal :=
  run (.read fun s =>
    match s.team? team with
    | none => .nothing
    | some x =>
      if !x.placed || !(s.teamThreads team).any Thread.live then .nothing
      else if teamQuiet s team then saveTeam team (match x.res with
        | .faulted c i => .faulted c i
        | _ => .preempted)
      else
        let late := x.stopping && decide (x.stopAt + 10000 ≤ s.time)
        .upds ([.team team (fun y => { y with stopping := true, stopAt := if y.stopping && !late then y.stopAt else s.time }), .event (.preempt team)] ++
          (if late then [.report (.timeout team)] else []))) s

/-! ## Restoring a team (R41, R244, R260, R276) -/

/-- A place for a team that is away: its lane bases are kept; a deterministic launch keeps its offsets. -/
def placeOld (s : State) (x : Team) : Option (Nat × Fit) :=
  match s.launch? x.launch with
  | none => none
  | some l =>
    let c := l.kern.cores
    let asks : Nat → List Ask := fun p => (s.teamGroups x.key).map fun g =>
      ⟨(placeCores c p).getD (g.id.group % max 1 c) 0, g.n / 8, some g.base⟩
    let ps := places s l.part c (if x.det then 0 else l.scan)
    (if x.det then ps.filter (mapsTo s x.launch c x.idx) else ps).findSome? fun p =>
      (fitTeam s.load (placeCores c p) x.claim x.w (asks p)
        (if x.det then some (x.claim.scrBase, x.claim.accBase, x.claim.obBase) else none)).map fun f => (p, f)

/-- A claim's saved bytes come back, over whatever the place holds. -/
def claimBack (s : State) (cores : List Nat) (key : Nat → Nat) (n : Nat) (bs : List (Nat × Nat × Byte)) : List (Nat × Byte) :=
  cores.zipIdx.flatMap fun c =>
    (rangeCells s (key c.1) n).map (fun b => (key c.1 + b.1, 0#8)) ++
    bs.filterMap fun b => if b.1 = c.2 then some (key c.1 + b.2.1, b.2.2) else none

/-- R244, R238: a thread goes on as ERET would have it: its clause is fetched and checked again, its guard is kept, an
instruction-address match at its word is not taken. A parked JOIN counts its time afresh (R21); SLEEP keeps its deadline (R432). -/
def Thread.restored (x : Thread) (time : Nat) : Thread :=
  { x with clause := none, kept := true, resumeG := if 0 < x.ifpN then some x.ifpG else none, noMatch := true, denied := false, run := match x.run with
    | .joined j _ => .joined j time
    | .waiting (.sleep d) => .waiting (.sleep d)
    | .waiting _ => .running
    | r => r }

/-- R244: the WAITGEs that a team kept aside wait again. -/
def reissueWaits (k : Nat) : Eff := .read fun s => .each (fun x =>
  .seq (.each (fun h => .read fun s =>
      .seq (.upds (if s.tokenFree h.tok then [incCounter x.id.gid h.wc] else []))
        (addOp h.tok x.id h.wc (some ⟨0#7, 0, some [], h.win⟩) none 0xFFFF (.waitge h.va h.target) fun _ => some (.waitgeRead x.id)))
    x.held)
    (.upds [.thread x.id fun x => { x with held := [] }])) (s.teamThreads k)

/-- A team takes its place again, with its threads at their resume points. Its chains come back (R207). -/
def restoreTeam (x : Team) (p : Nat) (f : Fit) : Eff :=
  .seq (.act fun s =>
    let cores := placeCores x.cores.length p
    let home : Team := { x with
      cores := cores, res := .resident, waitAt := none, scr := [], acc := [], obuf := [], off := false,
      claim := { x.claim with scrBase := f.scr, accBase := f.acc, obBase := f.ob } }
    [.stores (claimBack s cores (fun c => scrKey c f.scr) x.claim.scrSize x.scr ++
      claimBack s cores (fun c => accKey c f.acc 0) (x.claim.accRows * 256) x.acc ++
      claimBack s cores (fun c => obufKey c f.ob) x.claim.obSize x.obuf),
     .team x.key fun y => { y with
       cores := cores, res := .resident, waitAt := none, scr := [], acc := [], obuf := [], off := false,
       claim := { y.claim with scrBase := f.scr, accBase := f.acc, obBase := f.ob } },
     mapPlaces (herePlace home), freshCopies cores] ++
    (s.teamGroups x.key).flatMap (fun g =>
      let core := cores.getD (g.id.group % max 1 cores.length) 0
      .group g.id (fun y => { y with core := core, active := decide (activeOn s core + g.id.group / max 1 cores.length < 8),
                                     activeAt := s.cycle core, readyAt := none }) ::
      (if g.shutter.isSome && !s.events.contains (.shutterClose g.id) then [.event (.shutterClose g.id)] else [])) ++
    (s.teamThreads x.key).map fun y => .thread y.id fun z => z.restored s.time) <|
  .seq (reissueWaits x.key) <|
  .read fun s => .each (fun c => advanceChain c.ctx c.num)
    (s.part.chains.filter fun c => c.team == x.key || c.bound.any fun b => b.2.1 == x.key)

/-- R41, R42: TEAM_WAKE: a swapped-out team whose wake condition holds, or a pre-empted team, takes a place that passes the check;
owed while a swapped-out team is away. -/
def execTeamWake (team : Nat) (s : State) : Host.Outcome State Fault Refusal :=
  run (.read fun s =>
    match s.team? team with
    | none => .nothing
    | some x =>
      let later : Eff := if x.res = .swapped then .upds [.event (.teamWake team)] else .nothing
      if x.res = .preempted ∨ swappedAwake s x then match placeOld s x with
        | some (p, f) => restoreTeam x p f
        | none => later
      else later) s

end Sys2Proof.Machine
end

