-- ==== Sys2Proof/Machine/Power.lean ====
section
/-! DEFINITION. Power and links (10, R287, R288): the choice of a cluster's ratio and its change, the width of a link, replays and lane
retirement, the reads of energy accumulators, and writes to system registers. -/

namespace Sys2Proof.Machine

/-! ## Ratios (R264, R265, R452) -/

/-- The work cores of a cluster that are present. -/
def presentCores (s : State) (c : Nat) : Nat :=
  4 * ((List.range 12).filter fun i => s.part.cellPresent.getLsbD (12 * c + i)).length

/-- R452: the cycles of a period in which a core could have issued, over all cores of the cluster. -/
def periodSlots (s : State) (c : Nat) : Nat :=
  let k := s.cluster c
  (k.half / 2 - k.sinceHalf / 2) * presentCores s c

/-- R452: does a period's activity justify a ratio? -/
def justified (s : State) (c : Nat) (r : BitVec 2) : Bool :=
  let k := s.cluster c
  r == 0#2 || (decide (0 < k.issued) && decide (periodSlots s c * min (Config.justifiedFrom r.toNat) 32768 ≤ k.issued * 65536))

/-- R264, R270: the energy of a cluster over the period so far. -/
def periodEnergy (s : State) (c : Nat) : Nat := (s.energyOf (8 * (c / 4) + c % 4) - (s.cluster c).spent).toNat

/-- R264: does a cluster's power over a period, projected to a ratio, stay within PCAP? -/
def withinCap (s : State) (c : Nat) (r : BitVec 2) : Bool :=
  let k := s.cluster c
  k.pcap == 0#8 || decide (Config.projected (periodEnergy s c) k.cur.toNat r.toNat ≤ k.pcap.toNat)

/-- R264: the ratio that a cluster picks at the end of a period without a thermal limit: the highest at or below CEIL that its activity
justifies and PCAP permits; LOW where none does. -/
def chosenRatio (s : State) (c : Nat) : BitVec 2 :=
  ([2#2, 1#2].find? fun r => decide (r.toNat ≤ (s.cluster c).ceil.toNat) && justified s c r && withinCap s c r).getD 0#2

/-- R264: may a cluster take a ratio at the end of a period: its choice, or under a thermal limit a lower one? -/
def ratioAllowed (s : State) (c : Nat) (r : BitVec 2) (therm : Bool) : Bool :=
  if therm then decide (r.toNat < (chosenRatio s c).toNat) else r == chosenRatio s c

/-- R264: has a cluster's period of 2,000 TIME cycles ended? -/
def periodOver (s : State) (c : Nat) : Bool := decide ((s.cluster c).since + 2000 ≤ s.time)

/-- A period ends, and the next begins. -/
def newPeriod (s : State) (c : Nat) : Upd := .cluster c fun k => 
  { k with since := s.time, sinceHalf := k.half, issued := 0, spent := s.energyOf (8 * (c / 4) + c % 4) }

/-- R264: RATIO_SELECT: due at the end of a period. With AUTO = 0 the cluster stays at CEIL. A choice that the bounds do not allow is
none. -/
def execRatioSelect (cluster : Nat) (ratio : BitVec 2) (therm : BitVec 1) (s : State) : Host.Outcome State Fault Refusal :=
  run (.act fun s =>
    if !periodOver s cluster then []
    else if !(s.cluster cluster).auto then [newPeriod s cluster]
    else if !ratioAllowed s cluster ratio (therm == 1#1) then []
    else selectRatio s cluster ratio ++ [.cluster cluster (fun k => { k with therm := therm == 1#1 }), newPeriod s cluster]) s

/-- The ratio without a thermal limit (log 4: the default policy has none). -/
def defaultRatio (s : State) (c : Nat) : BitVec 2 := chosenRatio s c

/-- R265: RATIO_CHANGE_DONE. -/
def execRatioChangeDone (cluster : Nat) (s : State) : Host.Outcome State Fault Refusal :=
  run (.upds [.cluster cluster fun k => match k.target with
    | some r => { k with cur := r, target := none, dropped := none }
    | none => k]) s

/-! ## Links (R268, R269, R288) -/

def Upd.link (d : BitVec 2) (l : BitVec 3) (f : Link → Link) : Upd :=
  .die d.toNat fun x => { x with links := updAt x.links l.toNat f }

def State.link (s : State) (d : BitVec 2) (l : BitVec 3) : Link := (s.die d.toNat).link l.toNat

/-- A width change begins. -/
def startWidth (s : State) (d : BitVec 2) (l : BitVec 3) (w : BitVec 2) : List Upd :=
  let k := s.link d l
  if k.down ∨ k.target.isSome ∨ w = k.width then []
  else [.link d l (fun k => { k with target := some w }), .event (.linkWidthDone d l)]

/-- R269: LINK_WIDTH_SHED: half the width, not below MINW. -/
def execLinkWidthShed (die : BitVec 2) (link : BitVec 3) (s : State) : Host.Outcome State Fault Refusal :=
  run (.act fun s =>
    let k := s.link die link
    if k.shed && decide (k.minw.toNat < k.width.toNat) then startWidth s die link (k.width - 1#2) else []) s

/-- R268, R269: the width that a link takes when it widens. -/
def Link.wider (k : Link) : BitVec 2 :=
  let w := if k.shed then max (k.width.toNat + 1) k.minw.toNat else 2
  BitVec.ofNat 2 (min w k.widest.toNat)

/-- R269: LINK_WIDTH_RAISE: twice the width; with SHED = 0 the widest permitted. -/
def execLinkWidthRaise (die : BitVec 2) (link : BitVec 3) (s : State) : Host.Outcome State Fault Refusal :=
  run (.act fun s => if (s.link die link).width.toNat < (s.link die link).wider.toNat then startWidth s die link (s.link die link).wider else []) s

/-- The width a change that completes leaves: lanes retired meanwhile may hold it lower. -/
def Link.settled (k : Link) : Link := match k.target with
  | some w => { k with width := BitVec.ofNat 2 (min w.toNat k.widest.toNat), target := none }
  | none => k

/-- R269: LINK_WIDTH_DONE. With SHED = 0, or below MINW, the link widens further. -/
def execLinkWidthDone (die : BitVec 2) (link : BitVec 3) (s : State) : Host.Outcome State Fault Refusal :=
  run (.seq (.upds [.link die link Link.settled]) <| .act fun s =>
    let k := s.link die link
    if (!k.shed || decide (k.width.toNat < k.minw.toNat)) && decide (k.width.toNat < k.wider.toNat) then startWidth s die link k.wider else []) s

/-- R288, R269: without a whole quarter of its lanes a link cannot keep quarter width (DESIGN CHOICE, log 18). -/
def Link.spent (k : Link) : Bool := (List.range 4).all fun q => k.lanesOff.any fun x => x / 4 == q

/-- R287: the port of a die's link. -/
def portOf (d l : Nat) : Nat := 4 * d + (l - 2)

/-- The ports whose links are up. -/
def portUp (s : State) (p : Nat) : Bool := !((s.die (p / 4)).link (p % 4 + 2)).down

/-- R288: is a member of a group on a peer part that no port reaches any more? -/
def cutOff (s : State) (g : CollGroup) : Bool :=
  match s.ctx? g.ctx with
  | none => false
  | some c => g.parts.any fun b => b != 0#8 && (match c.peers[b.toNat - 1]? with
    | some p => (List.range 16).all fun i => !p.ports.getLsbD i || !portUp s i
    | none => false)

/-- R288: a link is down: the groups that it alone served end, and the resident kernel is told. -/
def endCutOff : Eff := .read fun s =>
  .each (fun g => .seq (failGroup g.ctx g.num) (.upds [dropColl g.ctx g.num, .report (.groupDown g.ctx g.num)]))
    (s.part.colls.filter (cutOff s))

/-- R269, R288, R303: a lane is retired. -/
def retireLane (d : BitVec 2) (l : BitVec 3) (lane : Nat) : Eff :=
  .seq (.upds [.link d l fun k => { k with lanesOff := if k.lanesOff.contains lane then k.lanesOff else lane :: k.lanesOff }]) <| .read fun s =>
    let k := s.link d l
    if k.down then .nothing
    else if k.spent then .seq (.upds [.link d l fun k => { k with down := true, target := none }]) endCutOff
    else .upds (if k.widest.toNat < k.width.toNat then startWidth s d l k.widest else [])

/-- R288: LINK_REPLAY: 8 replays that a lane causes within 2^20 flits retire it. -/
def execLinkReplay (die : BitVec 2) (link : BitVec 3) (lane : Nat) (s : State) : Host.Outcome State Fault Refusal :=
  run (.read fun s =>
    let k := s.link die link
    if k.down ∨ 16 ≤ lane then .nothing
    else
      let now := k.flits + 1 + Config.flitsSince s.free
      let rs := (lane, now) :: k.replays.filter fun r => now < r.2 + 2 ^ 20
      .seq (.upds [.link die link (fun k => { k with flits := now, replays := rs }), .drawn 1]) <|
        if 8 ≤ (rs.filter fun r => r.1 == lane).length then retireLane die link lane else .nothing) s

/-! ## Energy accumulators and other registers -/

/-- R271: ENERGY_LOW_READ: an agent's 32-bit read of a low half. -/
def execEnergyLowRead (acc agent : Nat) (s : State) : Host.Outcome State Fault Refusal :=
  run (.act fun s => (energyRead s acc agent false).2) s

/-- R271: ENERGY_HIGH_READ. -/
def execEnergyHighRead (acc agent : Nat) (s : State) : Host.Outcome State Fault Refusal :=
  run (.act fun s => (energyRead s acc agent true).2) s

/-- R212, R263, R268: SYSREG_WRITE: a supervisor core writes a system register: 8 bytes at a multiple of 8, otherwise 4. -/
def execSysregWrite (pa : Nat) (v : BitVec 64) (s : State) : Host.Outcome State Fault Refusal :=
  run (.act fun s => if pa % 4 = 0 then sysWriteBytes s pa (leBytes (if pa % 8 = 0 then 8 else 4) v.toNat) else []) s

/-- R293: QUIESCE. -/
def execQuiesce (pos : BitVec 3) (q : BitVec 1) (s : State) : Host.Outcome State Fault Refusal :=
  run (.upds [.pos pos.toNat fun p => { p with quiesce := q == 1#1 }]) s

end Sys2Proof.Machine
end

