-- ==== Sys2Proof/Machine/Boot.lean ====
section
/-! DEFINITION. Boot and stack positions (11): signed images and measurement (R296, R297), the identity of base dies (R290), cold
power-on, the mailbox commands (R293, R294), TBI transactions (R291, R292), and a power loss (R301). -/

namespace Sys2Proof.Machine

/-! ## Signed images -/

/-- R296: the digest of a signed image: of its header and body. -/
def imageDigest (img : List Byte) : List Byte := shake256 (img.take (img.length - 114)) 64

/-- R296: does a signed image verify? -/
def imageOk (img : List Byte) : Bool :=
  decide (178 ≤ img.length) && Config.verifies (img.drop (img.length - 114)) (imageDigest img) &&
    decide (Config.rollback ≤ Config.imageVersion (img.take 64))

/-- R297: MEAS after an image that is verified and run. -/
def measure (img : List Byte) : Upd := .part fun p =>
  { p with meas := BitVec.ofNat 512 (leNat (shake256 (leBytes 64 p.meas.toNat ++ imageDigest img) 64)) }

/-- R296: where copy `c` of image `k` stands, within the boot area of 64 MiB (DESIGN CHOICE, log 9). -/
def bootPlace (k c : Nat) : Nat := Config.bootImage k c % 2 ^ 25

/-- Copy `c` of image `k` as the flash holds it. -/
def bootCopy (s : State) (k c : Nat) : List Byte :=
  s.bytes (flashKey (bootPlace k c)) (min (Config.imageLength (s.bytes (flashKey (bootPlace k c)) 64)) (2 ^ 24))

/-- Copy A if it verifies, else copy B. -/
def bootImage (s : State) (k : Nat) : Option (List Byte) := ([0, 1].map (bootCopy s k)).find? imageOk

def setBootst (v : BitVec 8) : Upd := .part fun p => { p with bootst := v }

/-- The sequencer of a position runs an image: its version is the one IDENT shows (DESIGN CHOICE, log 9). -/
def runSequencer (i : Nat) (img : List Byte) : List Upd :=
  [.pos i (fun p => { p with seqver := BitVec.ofNat 32 (Config.imageVersion (img.take 64)) }), measure img]

/-- R296: images verified and run in turn: 0 the loader, 1 the resident kernel, 2 + i the sequencer of position i; recovery when both
copies of one fail. -/
def bootAll : List Nat → Eff
  | [] => .upds [setBootst 3#8]
  | k :: ks => .read fun s => match bootImage s k with
    | none => .upds [setBootst 0x80#8]
    | some img => .seq (.upds (if 2 ≤ k then runSequencer (k - 2) img else [measure img, setBootst (BitVec.ofNat 8 (k + 1))])) (bootAll ks)

/-- R290: is a base die's identity one that the part uses? -/
def Position.conforms (p : Position) : Bool :=
  p.tbiver == 1#8 && decide (1 ≤ p.capgib.toNat) &&
    ((p.kind == 1#8 && decide (p.capgib.toNat ≤ 48)) || (p.kind == 2#8 && decide (p.capgib.toNat ≤ 2048)))

def identify (i : Nat) : Upd := .pos i fun p => { p with disabled := !p.conforms }

/-- The positions whose base dies are used, as images of their sequencers. -/
def sequencers (s : State) : List Nat := ((List.range 8).filter fun i => !(s.position i).disabled).map (· + 2)

/-- R296, R297, R290: COLD_POWER_ON. -/
def execColdPowerOn (s : State) : Host.Outcome State Fault Refusal :=
  run (.when (fun s => s.part.bootst == 0#8)
    (.seq (.upds (.part (fun p => { p with meas := 0#512 }) :: (List.range 8).map identify)) <|
      .read fun s => bootAll (0 :: 1 :: sequencers s)) .nothing) s

/-! ## Power loss (R301) -/

/-- The byte stores that survive a power loss: the flash (R301). -/
def isFlash (a : Nat) : Bool := decide (2 ^ 59 ≤ a) && decide (a < 2 ^ 60)

def keepFlash : List Host.Cell → List Host.Cell
  | [] => []
  | c :: m => if isFlash c.1 then c :: keepFlash m else keepFlash m

/-- A stack position without power: what its base die is stays. -/
def Position.unpowered (p : Position) : Position :=
  { Position.reset with kind := p.kind, tbiver := p.tbiver, capgib := p.capgib, vendor := p.vendor, seqver := p.seqver, vdata := p.vdata }

/-- A part without power: its cells, its base dies and the translation store stay; everything else is as at cold power-on. -/
def Part.unpowered (p : Part) : Part :=
  { Part.reset with cellPresent := p.cellPresent, store := p.store.map (fun e => { e with users := [] }), erases := p.erases, pos := p.pos.map Position.unpowered }

/-- R301: the power fails: the flash, the base dies and the translation store are what remains. -/
def State.losePower (s : State) : State :=
  { State.reset with mem := keepFlash s.mem, sched := s.sched, nextId := s.nextId, part := s.part.unpowered }

/-- R301: POWER_LOSS: the part stops, and is as before a cold power-on; an entry that is being written is left incomplete. -/
def execPowerLoss (s : State) : Host.Outcome State Fault Refusal :=
  let torn := s.applyAll (if Config.tornEntry s.time then
    [.part fun p => { p with store := p.store.map fun e => if e.lastUse = s.time then { e with sig := [] } else e }] else [])
  .next torn.losePower

/-! ## Mailboxes (R293, R294) -/

/-- A mailbox command ends with a status. -/
def endCommand (i st : Nat) : Upd := .pos i fun p => { p with mbcmd := p.mbcmd &&& 0x7FFFFFFF#32, mbstat := BitVec.ofNat 8 st }

/-- A byte of device memory that is not on the position itself. -/
def bufferByteOk (s : State) (i pa : Nat) : Bool :=
  (match physRange pa with
    | .dram n | .tier2 n => n != i
    | _ => false) && present s pa

/-- R294: does the buffer of 4 KiB at MBARG, a physical address (DESIGN CHOICE, log 35), lie where it may? -/
def bufferOk (s : State) (i : Nat) : Bool :=
  let a := (s.position i).mbarg.toNat
  bufferByteOk s i a && bufferByteOk s i (a + 4095) && !(List.range 257).any fun k => s.uncorrectable (a + min (16 * k) 4095)

/-- A mailbox command that has been started: it is BUSY when it needs QUIESCED, which is 0, and faults on its buffer. -/
def command (i code : Nat) (quiesced buffer : Bool) (go : State → List Upd) (s : State) : Host.Outcome State Fault Refusal :=
  run (.act fun s =>
    let p := s.position i
    if !(p.mbcmd.getLsbD 31 && mailboxEvent i (p.mbcmd.toNat % 256) == mailboxEvent i code) then []
    else if quiesced && !s.quiesced i then [endCommand i 1]
    else if buffer && !bufferOk s i then [endCommand i 5]
    else go s) s

/-- R290: an identity record. -/
def Position.identity (p : Position) : List Byte :=
  leBytes 1 p.kind.toNat ++ leBytes 1 p.tbiver.toNat ++ leBytes 2 p.capgib.toNat ++ leBytes 4 p.vendor.toNat ++ leBytes 4 p.seqver.toNat ++
    (p.vdata ++ List.replicate 52 0#8).take 52

def State.mbarg (s : State) (i : Nat) : Nat := (s.position i).mbarg.toNat

def execMbIdent (pos : BitVec 3) (s : State) : Host.Outcome State Fault Refusal :=
  let i := pos.toNat
  command i 1 false true (fun s => homeWrite s (s.mbarg i) (s.position i).identity ++ [identify i, endCommand i 0]) s

/-- R292: a syndrome record's bytes. -/
def Syndrome.bytes (y : Syndrome) : List Byte :=
  leBytes 1 y.cls.toNat ++ leBytes 1 y.sect.toNat ++ leBytes 2 0 ++ leBytes 4 y.count.toNat ++ leBytes 8 y.offset.toNat ++
    leBytes 8 y.time.toNat ++ leBytes 8 y.detail.toNat

/-- R294: the records, oldest first, in 2,048 bytes, and the overflow count after them (DESIGN CHOICE, log 35). -/
def synBytes (p : Position) : List Byte :=
  (p.syn.flatMap Syndrome.bytes ++ List.replicate 2048 0#8).take 2048 ++ leBytes 8 p.lost

def execSynread (pos : BitVec 3) (s : State) : Host.Outcome State Fault Refusal :=
  let i := pos.toNat
  command i 2 false true (fun s => homeWrite s (s.mbarg i) (synBytes (s.position i)) ++
    [.pos i (fun p => { p with syn := [], lost := 0 }), .served (fun r => r == .syndrome i), endCommand i 0]) s

/-- The physical address of offset 0 of a position's range. -/
def positionBase (s : State) (i : Nat) : Nat := if (s.position i).kind = 2#8 then 0x100000000000 + i * 0x20000000000 else i * 0x1000000000

/-- The offsets that a repair lists: 64-bit words up to one of all ones, or the end of the buffer; an offset beyond what the position
holds names no row (DESIGN CHOICE, log 35). -/
def repairOffsets (p : Position) (bs : List Byte) : List Nat :=
  (((List.range 512).map fun k => fieldAt bs (8 * k) 8).takeWhile (· != 2 ^ 64 - 1)).filter fun o => decide (o < p.capgib.toNat * 2 ^ 30)

/-- Spare rows stand in for the lines at these offsets: what they hold is open (DESIGN CHOICE, log 6); they have no errors. -/
def repairRows (s : State) (i : Nat) (offs : List Nat) : List Upd :=
  let lines := offs.map fun o => (positionBase s i + o) / 128
  (lines.zipIdx.map fun (l, k) => .store (l * 128) (bytesOf ((List.range 32).map fun w => s.freeWord (32 * k + w)))) ++
    [.drawn (32 * lines.length), .part fun p => { p with bad := p.bad.filter fun x => !lines.contains (x / 8) }]

def execRowrepair (pos : BitVec 3) (s : State) : Host.Outcome State Fault Refusal :=
  let i := pos.toNat
  command i 4 true true (fun s =>
    if Config.sparesOut s.free then [.drawn 1, endCommand i 4]
    else .drawn 1 :: repairRows s i (repairOffsets (s.position i) (homeBytes s (s.mbarg i) 4096)) ++ [endCommand i 0]) s

/-- SEQLOAD: the image stands at the start of the buffer (DESIGN CHOICE, log 35). -/
def execSeqload (pos : BitVec 3) (s : State) : Host.Outcome State Fault Refusal :=
  let i := pos.toNat
  command i 5 true true (fun s =>
    let buf := homeBytes s (s.mbarg i) 4096
    let img := buf.take (Config.imageLength (buf.take 64))
    if imageOk img then runSequencer i img ++ [endCommand i 0] else [endCommand i 3]) s

/-- The listed bytes of a range of keys, cleared: they read as memory that nothing has written (DESIGN CHOICE, log 1). -/
def clearRange (s : State) (a n : Nat) : Upd := .stores ((rangeCells s a n).map fun c => (a + c.1, 0#8))

/-- RESET: a DRAM stack loses what it holds. -/
def execMbReset (pos : BitVec 3) (s : State) : Host.Outcome State Fault Refusal :=
  let i := pos.toNat
  command i 6 true false (fun s =>
    (if (s.position i).kind = 1#8 then
      [clearRange s (i * 0x1000000000) 0x1000000000, .part fun p => { p with bad := p.bad.filter fun x => x / 2 ^ 32 != i }] else []) ++
      [endCommand i 0]) s

def execMbReserved (pos : BitVec 3) (s : State) : Host.Outcome State Fault Refusal :=
  command pos.toNat 0 false false (fun _ => [endCommand pos.toNat 2]) s

/-! ## TBI (R291, R292) -/

/-- R292: a record is kept, merged with one of its CLASS and OFFSET; the latest 64 stay, the others are counted. -/
def keepSyndrome (y : Syndrome) (p : Position) : Position :=
  match p.syn.find? fun z => z.cls == y.cls && z.offset == y.offset with
  | some z =>
    { p with syn := (p.syn.filter fun z => !(z.cls == y.cls && z.offset == y.offset)) ++
        [{ y with count := z.count + y.count, sect := z.sect ||| y.sect }] }
  | none =>
    let all := p.syn ++ [y]
    { p with syn := all.drop (all.length - 64), lost := p.lost + (all.length - 64) }

/-- R292: a record is received; the resident kernel is told of classes 1, 2 and 5. -/
def receiveSyndrome (s : State) (i : Nat) (y : Syndrome) : List Upd :=
  [.pos i fun p => keepSyndrome { y with time := BitVec.ofNat 64 s.time } p] ++
    (if y.cls = 1#8 ∨ y.cls = 2#8 ∨ y.cls = 5#8 then [.report (.syndrome i)] else [])

/-- SCRUB: what it corrects among the offsets from buffer word 0 to word 1 is reported as syndromes of CLASS 0; which offsets those are is
open (DESIGN CHOICE, log 6). -/
def execScrub (pos : BitVec 3) (s : State) : Host.Outcome State Fault Refusal :=
  let i := pos.toNat
  command i 3 false true (fun s =>
    let lo := leNat (homeBytes s (s.mbarg i) 8)
    let hi := leNat (homeBytes s (s.mbarg i + 8) 8)
    ((Config.scrubFinds s.free).filter fun x => decide (lo ≤ x.1.toNat) && decide (x.1.toNat ≤ hi)).flatMap (fun x =>
      receiveSyndrome s i ⟨0#8, x.2.1, 1#32, x.1, 0#64, x.2.2⟩) ++ [.drawn 1, endCommand i 0]) s

/-- The sectors that a record's mask names. -/
def Syndrome.sectors (y : Syndrome) (base : Nat) : List Nat :=
  (List.range 8).filterMap fun k => if y.sect.getLsbD k then some ((base + y.offset.toNat) / 128 * 8 + k) else none

/-- TBI_SYN. Data that the base die cannot correct, or that arrives poisoned, completes as UNCORR from then on (R295; DEDUCED, log 15). -/
def execTbiSyn (pos : BitVec 3) (cls sect : BitVec 8) (off detail : BitVec 64) (s : State) : Host.Outcome State Fault Refusal :=
  let i := pos.toNat
  let y : Syndrome := ⟨cls, sect, 1#32, off, 0#64, detail⟩
  run (.act fun s => receiveSyndrome s i y ++
    (if cls = 1#8 ∨ cls = 5#8 then
      [.part fun p => { p with bad := p.bad ++ (y.sectors (positionBase s i)).filter fun x => !p.bad.contains x }] else [])) s

/-- R291: an access completes with an error. Data that does not arrive leaves its registers zero and poisoned, as a fault of the load does
(R147), with reason MEMERR for UNCORR and TARGET otherwise; an access without data is reported to the resident kernel (DEDUCED, log 15). -/
def failOp (o : Op) (status : BitVec 2) : Eff :=
  let reason := if status = 2#2 then rMemerr else rTarget
  let fail : Eff := match o.job, o.dlv with
    | .load va major, some d => .read fun s =>
      let k := freeRecord s o.t ((List.range d.n).map fun k => d.reg + BitVec.ofNat 7 k)
      .upds (takeRecord o.t k va reason major ++ [.op o.id fun o =>
        { o with job := .poisoned (BitVec.ofNat 3 k), dlv := some { d with vals := some (List.replicate d.n 0#32) } }])
    | .load va _, none | .access va _, _ => .upds [.report (.fault va (BitVec.ofNat 4 reason))]
    | _, _ => .nothing
  .seq fail (completeOp o.id)

/-- TBI_CMP: the completion of an access to the position, with its status: its data arrives, or it is done, or it has failed. -/
def execTbiCmp (pos : BitVec 3) (cmp : Completion) (s : State) : Host.Outcome State Fault Refusal :=
  run (.read fun s => match (s.op? cmp.op).filter (Op.onPosition s pos.toNat) with
    | some o => if cmp.status = 0#2 then completeOp cmp.op else failOp o cmp.status
    | none => .nothing) s

/-- TBI_NOP returns credits, which the model does not hold. -/
def execTbiNop (_pos : BitVec 3) (s : State) : Host.Outcome State Fault Refusal := run .nothing s

/-- TBI_RESERVED_OPCODE: a syndrome is logged, of an open CLASS and content (DESIGN CHOICE, log 6). -/
def execTbiReservedOpcode (pos : BitVec 3) (opcode : BitVec 4) (s : State) : Host.Outcome State Fault Refusal :=
  run (.act fun s =>
    if opcode.toNat < 9 then []
    else
      let w := s.freeWord
      receiveSyndrome s pos.toNat ⟨(w 0).setWidth 8, (w 1).setWidth 8, 1#32, w 2 ++ w 3, 0#64, w 4 ++ w 5⟩ ++ [.drawn 6]) s

end Sys2Proof.Machine
end

