-- ==== Sys2Proof/Machine/Launch.lean ====
section
/-! DEFINITION. Launches: LAUNCH (R383, R384), the release of teams and the end of launches (R44, R45, R277, R283, R386), and the launch
watchdog (R38). -/

namespace Sys2Proof.Machine

/-! ## Starting -/

/-- What starts a launch. -/
structure StartArgs where
  teams : Nat
  args  : BitVec 64
  done  : BitVec 64
  host  : Nat
  part  : BitVec 192
  queue : Option (BitVec 64)
deriving DecidableEq, Repr

/-- R384: the status of a start; 0 when it succeeds. -/
def startStatus (s : State) (c : Ctx) (k : Option Kernel) (r : StartArgs) : Nat :=
  if 2 ^ 31 < r.teams ∨ r.done.toNat % 8 ≠ 0 then 1
  else match k with
    | none => 2
    | some k =>
      if k.gen ≠ c.gen then 3
      else if !k.fitsEmpty || (places s r.part k.cores 0).isEmpty then 4
      else if 4096 ≤ (s.part.launches.filter fun l => l.ctx == c.num && l.fin.isNone).length then 5
      else 0

/-- R384: a start: its status, the LAUNCHID, and the updates. -/
def startLaunch (s : State) (c : Ctx) (k : Option Kernel) (r : StartArgs) : Nat × Nat × List Upd :=
  match startStatus s c k r, k with
  | 0, some k =>
    let l : Launch := ⟨s.nextId, c.num, c.nextLaunch, k, if r.teams = 0 then k.defTeams else r.teams, 0, r.args, r.done, r.host, r.part, 0,
      s.time, false, [], r.queue, none⟩
    (0, c.nextLaunch, [.part fun p => { p with launches := p.launches ++ [l] }, .ctx c.num fun c => { c with nextLaunch := c.nextLaunch + 1 },
      .named 1, .event (.teamDispatch l.key), .event (.launchWatchdog l.key)])
  | n, _ => (n, 0, [])

/-- The registered descriptor at an address. -/
def Ctx.kernelAt (c : Ctx) (va : BitVec 64) : Option Kernel := c.kernels.find? fun k => k.addr == some va

/-- R384: the partition of the launch of a team, or its context's. -/
def partOf (s : State) (k : Nat) (c : Ctx) : BitVec 192 := match s.launch? (s.tm k).launch with
  | some l => l.part
  | none => c.part

/-- LAUNCH of one thread with the bytes of its record; status and LAUNCHID are written when it completes. -/
def launchWith (i : Instr) (d : VReg) (wc : BitVec 3) (la : Nat) (bs : List Byte) (tok : Nat) (t : TId) : Eff := .read fun s =>
  let r := match s.ctxOf t.team with
    | none => (2, 0, [])
    | some c => startLaunch s c (c.kernelAt (BitVec.ofNat 64 (fieldAt bs 0 8)))
        ⟨fieldAt bs 8 8, BitVec.ofNat 64 (fieldAt bs 16 8), BitVec.ofNat 64 (fieldAt bs 24 8), 0, partOf s t.team c, none⟩
  .seq (.upds r.2.2) <| .seq (.done t i.len) (returns tok t wc d [BitVec.ofNat 32 r.1, BitVec.ofNat 32 r.2.1] la)

def execLaunch (d r : VReg) (wc : BitVec 3) (la : BitVec 4) (s : State) : Host.Outcome State Fault Refusal :=
  let i : Instr := .launch d r wc la
  run (issueCounted i wc (pairOf r) (commanding wc fun tok t => .read fun s =>
    let va := (s.th t).val64 r
    if va.toNat % 32 ≠ 0 then trap t cAlign va
    else overSectors t .load (sectorsFrom va 32) fun ps => .read fun s =>
      launchWith i d wc la.toNat (ps.flatMap fun x => placeBytes s (commandAgent s t) x.2 16) tok t)) s

/-! ## Ending -/

/-- R386: the completion value. -/
def doneValue (fin team cause : Nat) : Nat := team % 2 ^ 32 * 2 ^ 32 + cause % 32 * 2 ^ 8 + fin % 2 ^ 8

/-- R386: the exchange of DONE, or what it must wait for. A word that cannot be written is reported. -/
def writeDone (s : State) (l : Launch) (v : Nat) : Except (Wait × Report) (List Upd) :=
  let lost : Nat → List Upd := fun r => [.report (.doneFault l.key (BitVec.ofNat 4 r))]
  if l.done = 0#64 then .ok []
  else if 2 ^ 56 ≤ l.done.toNat then .ok (lost rNoncanon)
  else if 0xFF000000000000 ≤ l.done.toNat then .ok (lost rLocal)
  else match s.ctx? l.ctx with
    | none => .ok (lost rNomap)
    | some c => match pageFor s c hostIssuer true false .atomic l.done.toNat 8 with
      | (.error r, _) => .ok (lost r)
      | (.ok p, us) =>
        if (l.kern.det && p.far) || !sideCan .atom 8 (.page p) 0 then .ok (lost rTarget)
        else (ctxWrite s l.ctx p.home p (leBytes 8 v)).map fun vs => us ++ vs

/-- R285: host memory's place in the physical space. -/
def hostBase : Nat := 0x400000000000

/-- A launch is over: its order records are cleared (R277), DONE and the host's word are written (R283), its reports are settled. While
DONE must wait for a line (R153, R154), the launch stands, with no team to place. -/
def closeLaunch (l : Launch) (v : Nat) : Eff := .read fun s => match writeDone s l v with
  | .error w => .upds [Upd.report w.2, .launch l.key fun m => { m with next := m.teams, fin := some v }]
  | .ok us =>
    .seq (.upds us) <|
    .seq (.upds (if l.host = 0 ∨ 2 ^ 46 < l.host + 8 then [] else [.store (hostBase + l.host) (leBytes 8 v)])) <|
    .upds [.part fun p => { p with
      launches := p.launches.filter (fun m => m.key != l.key),
      orders := p.orders.filter (fun o => o.launch != l.key),
      queues := p.queues.map (fun q => { q with producers := q.producers.filter (· != l.key),
                                                consumers := q.consumers.filter (· != l.key) }),
      reports := p.reports.filter fun r => r != .stalled l.key }]

/-- R414: is a push of a launch still to be published? -/
def pushesDue (s : State) (launch : Nat) : Bool := s.part.ops.any fun o => match o.job with
  | .qpush _ _ _ l _ => l == launch
  | _ => false

/-- R131, R218: bytes of a claim that is gone are no place. -/
def voidPlace (x : Team) (pl : Place) : Place := match awayPlace x pl with
  | .scr core off => if 1024 ≤ core ∧ (core - 1024) / 4 = x.key then .tib 64 else .scr core off
  | pl => pl

/-- The engine commands of a team whose threads have exited that still have memory or a counter to write. -/
def Op.works (k : Nat) (o : Op) : Bool := o.t.team == k && (match o.job with
  | .copy _ | .accld _ | .accst _ | .status _ _ => true
  | _ => false)

/-- R44: a team retires: what it sent lands, its chains and groups end, its buffers are written, its claim is free. Its commands that have
memory or a counter to write go on (`Op.works`), and a push is published all the same (R414). -/
def retireTeam (k : Nat) : Eff :=
  .seq (.read fun s => .each (fun x => .act fun s => drainBuffer s x.id) (s.teamThreads k)) <|
  .seq spoilRows <| .seq (landSends k) <| .seq (endChains k) <| .seq (retireMember k) <| .act fun s =>
    (s.teamGroups k).flatMap (fun g => match g.hosted with
      | some h => [.micro h.m fun m => { m with slots := updAt m.slots h.slot.toNat fun _ => Slot.reset }]
      | none => []) ++
    [.part fun p => { p with
      ops := (p.ops.filter fun o => o.t.team != k || o.works k || (match o.job with
        | .load _ _ | .access _ _ | .combined _ | .ldmc _ _ _ _ _ _ | .qpush _ _ _ _ _ => true
        | _ => false)).map (fun o => if o.t.team = k then { o with dlv := none } else o),
      windows := p.windows.filter (fun w => w.t.team != k),
      clusters := p.clusters.map fun c =>
        { c with waves := (c.waves.map (Wave.without k)).filter fun w => !w.ths.isEmpty },
      reports := p.reports.filter fun r => match r with
        | .teamFault j _ => j != k
        | .timeout j => j != k
        | _ => true },
     mapPlaces (voidPlace (s.tm k)), .team k fun x => { x with res := .retired }]

/-- A team leaves the part, with the commands that are left of it. -/
def removeTeam (k : Nat) : Eff :=
  .seq (retireTeam k) (.upds [.part fun p => { p with ops := p.ops.filter fun o => !o.works k }, .dropTeam k])

/-- R44, R218: what a release waits for: deliveries into the team's scratchpad. -/
def releaseHeld (s : State) (k : Nat) : Bool := deliveriesTo s k

/-- What is left of a team's COPYs, accumulator commands and STATUS words is done at once, as far as nothing holds it (DEDUCED, log 44): no
event of the part lies between the retirement of its last group and the release of its claim (R44), which they use. -/
def finishWork (k : Nat) : Eff := .read fun s => .each (fun o => match o.job with
  | .copy c => .each (fun _ => copyTurn o.id) (List.range (c.rows - c.row + 1))
  | .status pl v => statusTurn o pl v .nothing
  | _ => .read fun s => if accAway s o || (accBlocked s o).isSome then .nothing else .seq (moveAcc o) (completeOp o.id))
  (s.part.ops.filter (Op.works k))

/-- R386: a retired team whose commands are done leaves; the last of its launch ends it, once the launch's pushes are published. -/
def leaveLaunch (team : Nat) (x : Team) (later : Eff) : Eff := .read fun s =>
  if s.part.ops.any (Op.works team) then later
  else match s.launch? x.launch with
    | none => .upds [.dropTeam team]
    | some l =>
      let last := l.next == l.teams && !s.teams.any fun y => y.key != team && y.sup.isNone && y.launch == x.launch
      if !last then .upds [.dropTeam team]
      else if pushesDue s l.key then later
      else .seq (.upds [.dropTeam team]) (closeLaunch l (doneValue 1 0 0))

/-- R44, R386: TEAM_RELEASE: due when every thread has exited and no delivery holds the claim, which is free then. Work that must still wait
for lines of an unbacked page or for a team that is away goes on without it (log 44), and the launch ends after it. -/
def execTeamRelease (team : Nat) (s : State) : Host.Outcome State Fault Refusal :=
  run (.read fun s =>
    match s.team? team with
    | none => .nothing
    | some x =>
      let later : Eff := .upds [.event (.teamRelease team)]
      if x.sup.isSome || (s.teamThreads team).any Thread.live then .nothing
      else if x.res = .retired then .seq (finishWork team) (leaveLaunch team x later)
      else if releaseHeld s team then later
      else .seq (finishWork team) <| .seq (retireTeam team) (leaveLaunch team x later)) s

/-- R240, R282, R386: a launch is ended with its teams; their commands under way complete as far as they can. -/
def endLaunch (l : Launch) (v : Nat) : Eff := .read fun s =>
  .seq (.each (fun x => .seq (completeForSave x.key) (.seq (finishWork x.key) (removeTeam x.key)))
    (s.teams.filter fun x => x.sup.isNone && x.launch == l.key))
    (closeLaunch l v)

/-- R38, R273: LAUNCH_WATCHDOG: a launch without progress for the period is reported as stalled; a launch that is over, and whose DONE
waited, tries again to write it; owed while it is live. -/
def execLaunchWatchdog (launch : Nat) (s : State) : Host.Outcome State Fault Refusal :=
  run (.read fun s =>
    match s.launch? launch with
    | none => .nothing
    | some l => match l.fin with
      | some v => .seq (closeLaunch l v) (.act fun s => if (s.launch? launch).isSome then [.event (.launchWatchdog launch)] else [])
      | none => .upds <|
      (if l.progress + Config.watchdog ≤ s.time ∧ l.stalled = false then
        [.launch l.key fun l => { l with stalled := true }, .report (.stalled l.key)] else []) ++
      [.event (.launchWatchdog launch)]) s

end Sys2Proof.Machine
end

