-- ==== Sys2Proof/Machine/Tables.lean ====
section
/-! DEFINITION. The resident kernel's memory: page frames, page tables built and read, and the move of a frame (R142, R143, R304). -/

namespace Sys2Proof.Machine

/-! ## Frames -/

/-- A page frame by its number, physical address / 65,536: does it lie in DRAM where frames are assigned (R144, R303, R305)? -/
def frameOpen (s : State) (f : Nat) : Bool :=
  let p := s.position (f / 2 ^ 20)
  decide (f / 2 ^ 20 < 8) && p.used 1 && !p.quiesce && !p.draining && decide (f % 2 ^ 20 < p.capgib.toNat * 2 ^ 14)

def frameFree (s : State) (f : Nat) : Bool := frameOpen s f && !s.part.frames.any fun x => x.2 == f

/-- The lowest run of `n` free frames that begins at a multiple of `n`: on each position, among as many candidates as there are frames
in use, and one more. -/
def freeRun (s : State) (n : Nat) : Option Nat :=
  ((List.range 8).flatMap fun p => (List.range (s.part.frames.length + 1)).map fun i => p * 2 ^ 20 + i * n).find? fun f =>
    (List.range n).all fun j => frameFree s (f + j)

/-- The lowest free frame. -/
def freeFrame (s : State) : Option Nat := freeRun s 1

/-- Nothing of `n` frames is cached any more. -/
def uncacheRun (f n : Nat) : Upd :=
  let inRun : Nat → Bool := fun pa => decide (f * 65536 ≤ pa) && decide (pa < (f + n) * 65536)
  .part fun p =>
    { p with l2 := p.l2.filter (fun l => !inRun (l.line * 128)), l1 := p.l1.filter (fun c => !inRun (c.sector * 16)),
             rdc := p.rdc.filter (fun c => !inRun (c.sector * 16)), hots := p.hots.filter (fun h => !inRun (h.line * 128)),
             redirects := p.redirects.filter (fun r => !inRun (r.2 * 128)), mcs := p.mcs.filter (fun m => !inRun (m.line * 128)),
             hostHeld := p.hostHeld.filter (fun l => !inRun (l * 128)),
             tlb := p.tlb.filter fun e => !(decide (pteFrame e.pte.toNat < (f + n) * 65536) &&
               decide (f * 65536 < pteFrame e.pte.toNat + pageSize e.level)) }

/-- `n` frames are given to a context, holding zeros. -/
def giveRun (s : State) (ctx f n : Nat) : List Upd :=
  [.part (fun p => { p with frames := (List.range n).map (fun i => (ctx, f + i)) ++ p.frames }), uncacheRun f n,
   .stores ((rangeCells s (f * 65536) (n * 65536)).map fun c => (f * 65536 + c.1, 0#8))]

/-- A frame is given to a context. -/
def giveFrame (s : State) (ctx f : Nat) : List Upd := giveRun s ctx f 1

/-! ## Page tables -/

/-- R143: a leaf: R, W, X, USR as bits 0 to 3 of `perms`; frame; unbacked with or without discard; HOME; MT. -/
def leafPte (perms frame : Nat) (u dp : Bool) (home mt : Nat) : Nat :=
  3 + perms % 16 * 4 + frame * 65536 + (if u then 2 ^ 58 else 0) + (if dp then 2 ^ 57 else 0) + home % 4 * 2 ^ 60 + mt % 4 * 2 ^ 62

/-- R143: the next table of a non-leaf entry. -/
def pteNext (e : Nat) : Nat := pteFrame e + e / 2 ^ 8 % 256 * 256

/-- A 64 KiB leaf put into the tables of a context, from a table of a level down; a table that is missing takes a frame of its own.
None: no frame is left, or a large leaf is in the way. -/
def mapPage (ctx va pte : Nat) : Nat → Nat → State → Option (List Upd)
  | 0, base, s => some (homeWrite s (base + 8 * vaIndex 0 va) (leBytes 8 pte))
  | level + 1, base, s =>
    let place := base + 8 * vaIndex (level + 1) va
    let e := leNat (homeBytes s place 8)
    if pteBit e 0 then (if pteBit e 1 then none else mapPage ctx va pte level (pteNext e) s)
    else match freeFrame s with
      | none => none
      | some f =>
        let us := giveFrame s ctx f ++ homeWrite s place (leBytes 8 (f * 65536 + 1))
        (mapPage ctx va pte level (f * 65536) (s.applyAll us)).map fun vs => us ++ vs

/-- `n` pages from a virtual address, each with the leaf that `pte` gives for its number. -/
def mapPages (c : Ctx) (va : Nat) (pte : Nat → Nat) : List Nat → State → Option (List Upd)
  | [], _ => some []
  | i :: is, s => match mapPage c.num (va + 65536 * i) (pte i) 3 c.ptbase s with
    | none => none
    | some us => (mapPages c va pte is (s.applyAll us)).map fun vs => us ++ vs

/-- The entries of a table that are in use, with their numbers. -/
def tableEntries (s : State) (base level : Nat) : List (Nat × Nat) :=
  (List.range (if 2 ≤ level then 8192 else if level = 1 then 512 else 32)).filterMap fun i =>
    let e := leNat (homeBytes s (base + 8 * i) 8)
    if pteBit e 0 then some (i, e) else none

/-- An entry of a context's tables: its level, where it stands, the first virtual address it covers, and its bits. -/
structure PtEntry where
  level : Nat
  place : Nat
  va    : Nat
  bits  : Nat
deriving DecidableEq, Repr

/-- All entries in use of the tables from one of a level down. -/
def entriesFrom (s : State) : Nat → Nat → Nat → List PtEntry
  | 0, base, va => (tableEntries s base 0).map fun x => ⟨0, base + 8 * x.1, va + x.1 * 2 ^ 16, x.2⟩
  | level + 1, base, va => (tableEntries s base (level + 1)).flatMap fun x =>
    let at_ := va + x.1 * (if level = 2 then 2 ^ 43 else if level = 1 then 2 ^ 30 else 2 ^ 21)
    ⟨level + 1, base + 8 * x.1, at_, x.2⟩ :: (if pteBit x.2 1 then [] else entriesFrom s level (pteNext x.2) at_)

def Ctx.entries (c : Ctx) (s : State) : List PtEntry := entriesFrom s 3 c.ptbase 0
def PtEntry.leaf (e : PtEntry) : Bool := pteBit e.bits 1

/-- The leaves of a context that cover part of a virtual range. -/
def Ctx.leavesIn (c : Ctx) (s : State) (va n : Nat) : List PtEntry :=
  (c.entries s).filter fun e => e.leaf && decide (e.va < va + n) && decide (va < e.va + pageSize e.level)

/-- The 64 KiB leaf or the larger one that covers an address. -/
def Ctx.leafAt (c : Ctx) (s : State) (va : Nat) : Option PtEntry := (c.leavesIn s va 1).head?

/-- An entry with another frame. -/
def withFrame (e f : Nat) : Nat := e / 2 ^ 52 * 2 ^ 52 + f * 65536 + e % 65536

/-- The first frame of a leaf, and how many frames it maps. -/
def PtEntry.frame (e : PtEntry) : Nat := pteFrame e.bits / 65536
def PtEntry.frames (e : PtEntry) : Nat := pageSize e.level / 65536

/-- The lines of a run of frames in L2. -/
def runLines (s : State) (f n : Nat) : List L2Line := s.part.l2.filter fun l => decide (f * 512 ≤ l.line) && decide (l.line < (f + n) * 512)

/-- Order records go with their sectors from one run of frames to another. -/
def moveOrders (f n g : Nat) : Upd := .part fun p =>
  { p with orders := p.orders.map fun o =>
    if f * 4096 ≤ o.sector ∧ o.sector < (f + n) * 4096 then { o with sector := g * 4096 + (o.sector - f * 4096) } else o }

/-! ## A frame move (R304) -/

/-- R155: the translations that waiting accesses keep are changed. -/
def moveStays (s : State) (g : TlbEntry → TlbEntry) : List Upd :=
  (s.threads.filter fun x => !x.stay.isEmpty).map fun x => .thread x.id fun y => { y with stay := y.stay.map g }

/-- The write-combining buffers on lines of a run of frames are written. -/
def drainRun (f n : Nat) : Eff := .read fun s =>
  .each (fun x => .act fun s => drainBuffer s x.id) (s.threads.filter fun x => x.wcBuf.any fun b =>
    decide (f * 512 ≤ b.line) && decide (b.line < (f + n) * 512))

/-- The dirty sectors of a run of frames are written back, its bytes copied to another, and the entries that name it changed; no copy or
translation of the old frames is left, and what commands under way have translated names the new ones. -/
def moveRun (ctx f n g : Nat) : Eff :=
  .seq (drainRun f n) <|
  .seq (.act fun s => (runLines s f n).flatMap L2Line.writeBack) <|
  .seq (.act fun s => giveRun s ctx g n) <|
  .act fun s =>
    let named := s.part.ctxs.flatMap fun c => (c.entries s).filter fun e => !pteBit e.bits 58 && pteFrame e.bits == f * 65536
    [.stores ((rangeCells s (f * 65536) (n * 65536)).map fun c => (g * 65536 + c.1, c.2)), uncacheRun f n] ++
    (named.flatMap fun e => homeWrite s e.place (leBytes 8 (withFrame e.bits g))) ++
    [moveOrders f n g,
     movePages (fun p => if f * 65536 ≤ p.pa ∧ p.pa < (f + n) * 65536 then { p with pa := g * 65536 + (p.pa - f * 65536) } else p)] ++
    moveStays s (fun e => if pteFrame e.pte.toNat = f * 65536 then { e with pte := BitVec.ofNat 64 (withFrame e.pte.toNat g) } else e) ++
    [.part fun p => { p with
       ctxs := p.ctxs.map (fun c => if c.ptbase = f * 65536 then { c with ptbase := g * 65536 } else c),
       frames := p.frames.filter fun x => decide (x.2 < f) || decide (f + n ≤ x.2) }]

/-- Does a frame lie on a stack position: in its DRAM, or behind its bridge? -/
def onPosition (pos f : Nat) : Bool := match physRange (f * 65536) with
  | .dram n | .tier2 n => n == pos
  | _ => false

/-- The leaves with frames, of every context. -/
def backedLeaves (s : State) : List (Nat × PtEntry) := s.part.ctxs.flatMap fun c =>
  ((c.entries s).filter fun e => e.leaf && !pteBit e.bits 58).map fun e => (c.num, e)

/-- R303: what stands on a stack position, as runs of frames: context, first frame, number; the pages on it, then other frames in use. -/
def framesOn (s : State) (pos : Nat) : List (Nat × Nat × Nat) :=
  let pages := ((backedLeaves s).filter fun x => onPosition pos x.2.frame).map fun x => (x.1, x.2.frame, x.2.frames)
  let runs := pages.foldl (init := ([] : List (Nat × Nat × Nat))) fun l x => if l.any fun y => y.2 == x.2 then l else l ++ [x]
  runs ++ ((s.part.frames.filter fun x => onPosition pos x.2 && !runs.any fun y => decide (y.2.1 ≤ x.2) && decide (x.2 < y.2.1 + y.2.2)).map
    fun x => (x.1, x.2, 1))

/-- R303: every run of frames of a position moves to the lowest free one elsewhere. -/
def moveAll : List (Nat × Nat × Nat) → Eff
  | [] => .nothing
  | x :: xs => .seq (.read fun s => match freeRun s x.2.2 with
    | some g => moveRun x.1 x.2.1 x.2.2 g
    | none => .nothing) (moveAll xs)

/-- Is there room for runs of frames, one after the other? -/
def roomFor : List (Nat × Nat × Nat) → State → Bool
  | [], _ => true
  | x :: xs, s => match freeRun s x.2.2 with
    | some g => roomFor xs (s.applyAll [.part fun p => { p with frames := (List.range x.2.2).map (fun i => (x.1, g + i)) ++ p.frames }])
    | none => false

/-! ## Virtual ranges and homes -/

/-- The end of the space where the kernel places ranges: the local windows (R128). -/
def vaEnd : Nat := 0xFF000000000000

/-- Where the kernel places modules from. -/
def moduleBase : Nat := 0x4000000000

def roundUp (x a : Nat) : Nat := (x + a - 1) / max 1 a * a

/-- The lowest base of a free range of `n` bytes, a multiple of `a`: the start of module space, or where a range ends. -/
def freeRange (c : Ctx) (n a : Nat) : Option Nat :=
  ((moduleBase :: c.ranges.map fun r => r.1 + r.2).filterMap fun x =>
      let b := roundUp (max x moduleBase) a
      if b + n ≤ vaEnd ∧ c.ranges.all (fun r => decide (b + n ≤ r.1) || decide (r.1 + r.2 ≤ b)) then some b else none).foldl (init := none)
    fun m b => match m with
      | none => some b
      | some y => some (min y b)

/-- The home die that the kernel gives a frame: the die its stack stands on. -/
def homeOfFrame (f : Nat) : Nat := f / 2 ^ 20 / 2 % 4

/-- The home die of host and unbacked pages of a context: that of its partition's lowest cell. -/
def homeOfCtx (c : Ctx) : Nat := ((List.range 192).find? (cellHas c.part)).getD 0 / 48

end Sys2Proof.Machine
end

