-- ==== Sys2Proof/Machine/Pof.lean ====
section
/-! DEFINITION. The loader (R95 to R111): the checks of a linked module in the order of their codes, the relocation and sealing of its
sections, and its mapping into a context. -/

namespace Sys2Proof.Machine

/-! ## The file (R96 to R101, R105) -/

/-- R97. -/
structure Section where
  name  : Nat
  type  : Nat
  flags : Nat
  addr  : Nat
  off   : Nat
  size  : Nat
  align : Nat
  link  : Nat
  info  : Nat
  entsz : Nat
deriving DecidableEq, Repr

def sectionOf (bs : List Byte) : Section :=
  ⟨fieldAt bs 0 4, fieldAt bs 4 2, fieldAt bs 6 2, fieldAt bs 8 8, fieldAt bs 0x10 8, fieldAt bs 0x18 8, fieldAt bs 0x20 4, fieldAt bs 0x24 4,
   fieldAt bs 0x28 4, fieldAt bs 0x2C 4⟩

/-- The `n` records of `size` bytes from an offset. -/
def recordsAt (bs : List Byte) (off size n : Nat) : List (List Byte) := (List.range n).map fun i => (bs.drop (off + size * i)).take size

def pofSections (bs : List Byte) : List Section := (recordsAt bs (fieldAt bs 0x10 8) 48 (fieldAt bs 0x18 4)).map sectionOf

def Section.flag (x : Section) (i : Nat) : Bool := x.flags / 2 ^ i % 2 == 1
/-- R99: the flags X, W, A, U, D. -/
def Section.x (x : Section) : Bool := x.flag 0
def Section.w (x : Section) : Bool := x.flag 1
def Section.a (x : Section) : Bool := x.flag 2
def Section.u (x : Section) : Bool := x.flag 3
def Section.d (x : Section) : Bool := x.flag 4

/-- The file bytes of a section; none for NULL and ZERO. -/
def Section.bytes (x : Section) (bs : List Byte) : List Byte := if x.type = 0 ∨ x.type = 3 then [] else (bs.drop x.off).take x.size

/-- The records of a section. -/
def Section.records (x : Section) (bs : List Byte) (n : Nat) : List (List Byte) := recordsAt (x.bytes bs) 0 n (x.size / n)

def nthSection (xs : List Section) (i : Nat) : Section := xs.getD i ⟨0, 0, 0, 0, 0, 0, 0, 0, 0, 0⟩

/-- R100. -/
structure Symbol where
  name  : Nat
  sect  : Nat
  bind  : Nat
  kind  : Nat
  value : Nat
deriving DecidableEq, Repr

def symbolOf (bs : List Byte) : Symbol := ⟨fieldAt bs 0 4, fieldAt bs 4 2, byteAt bs 6, byteAt bs 7, fieldAt bs 8 8⟩

/-- The symbols of a symbol table section. -/
def symbolsOf (bs : List Byte) (x : Section) : List Symbol := (x.records bs 24).map symbolOf

/-- R105: a relocation. -/
structure Reloc where
  off    : Nat
  sym    : Nat
  type   : Nat
  flags  : Nat
  addend : Int
deriving DecidableEq, Repr

def relocOf (bs : List Byte) : Reloc :=
  ⟨fieldAt bs 0 8, fieldAt bs 8 4, fieldAt bs 12 2, fieldAt bs 14 2, (BitVec.ofNat 64 (fieldAt bs 16 8)).toInt⟩

def relocsOf (bs : List Byte) (x : Section) : List Reloc := (x.records bs 24).map relocOf

/-! ## The checks (R110, R111) -/

/-- 1, LDMAGIC. R111 names no code for a file shorter than its header, which has no MAGIC where one should stand: it gets this one; and
none for a reserved field of the header that is not zero (R96), which is not looked at (DESIGN CHOICE, log 34). -/
def badMagic (bs : List Byte) : Bool :=
  decide (bs.length < 64) || bs.take 4 != [0x50#8, 0x4F#8, 0x46#8, 0x1A#8] || fieldAt bs 4 2 != 1 || fieldAt bs 12 4 != 64 ||
    fieldAt bs 0x1C 4 != 48

/-- 3, LDCHECK. -/
def badCheck (bs : List Byte) : Bool := (bs.drop 0x24).take 4 != shake256 (bs.take 0x24 ++ List.replicate 4 0#8 ++ bs.drop 0x28) 4

/-- R98: the flags a type permits, as a mask. -/
def flagsFor (type : Nat) : Nat := match type with
  | 1 => 5
  | 2 => 6
  | 3 => 30
  | 7 | 8 => 4
  | _ => 0

/-- R97: the entry size of a type. -/
def entrySize (type : Nat) : Nat := match type with
  | 5 | 6 => 24
  | 7 => 64
  | 8 => 96
  | _ => 0

/-- R97 to R99: is a section after entry 0 out of order? A loaded section stands on whole pages (DEDUCED, log 34). R111 names no code for
an ALIGN, an ENTSZ, a SIZE or an ADDR out of R97: each gives LDSECT, the code of the section table's faults; LINK, INFO and OFFSET of a
section for which R97 gives them no use are not looked at (DESIGN CHOICE, log 34). -/
def sectionBad (len : Nat) (x : Section) : Bool :=
  x.type == 0 || decide (9 < x.type) || decide (32 ≤ x.flags) || (x.flags &&& flagsFor x.type) != x.flags ||
    (x.x && x.w) || (x.u && x.type != 3) || (x.d && !x.u) || decide (30 < x.align) || (x.type == 1 && decide (x.align < 2)) ||
    (x.type == 8 && decide (x.align < 5)) || x.entsz != entrySize x.type || (x.type != 3 && decide (len < x.off + x.size)) ||
    (x.a && decide (2 ^ 56 < x.addr + x.size)) || (x.a && x.addr % 65536 != 0) ||
    (entrySize x.type != 0 && x.size % entrySize x.type != 0)

/-- The pages of a loaded section. -/
def Section.pages (x : Section) : Nat := (x.size + 65535) / 65536

/-- Do the link ranges of two loaded sections meet? -/
def sectionsMeet (x y : Section) : Bool :=
  x.a && y.a && decide (x.addr < y.addr + y.pages * 65536) && decide (y.addr < x.addr + x.pages * 65536)

def anyMeet : List Section → Bool
  | [] => false
  | x :: xs => xs.any (sectionsMeet x) || anyMeet xs

/-- 4, LDSECT; also for a SECTOFF or NSECT out of R96 and an entry 0 that is not zero, for which R111 names no code (DESIGN CHOICE,
log 34). -/
def badSections (bs : List Byte) : Bool :=
  let n := fieldAt bs 0x18 4
  let off := fieldAt bs 0x10 8
  decide (n < 1) || decide (65535 < n) || off % 8 != 0 || decide (bs.length < off + 48 * n) ||
    ((bs.drop off).take 48).any (· != 0#8) ||
    (let xs := (pofSections bs).drop 1
     xs.any (sectionBad bs.length) || anyMeet xs)

/-- Is a string offset outside a string table section? -/
def badString (xs : List Section) (tab off : Nat) : Bool := (nthSection xs tab).type != 4 || decide ((nthSection xs tab).size ≤ off)

/-- R100: is a symbol after entry 0 out of order? -/
def symbolBad (xs : List Section) (tab : Nat) (y : Symbol) : Bool :=
  badString xs tab y.name || y.sect == 0 || (y.sect != 0xFFFF && decide (xs.length ≤ y.sect)) || decide (1 < y.bind) ||
    y.kind == 3 || decide (5 < y.kind)

/-- R100: is entry 0 of a symbol table out of order? It is all zero: a reserved BIND or KIND gives LDSYM (R111), and so do another
non-zero byte and a table without an entry 0, for which R111 names no code (DESIGN CHOICE, log 34). -/
def entry0Bad (bs : List Byte) (x : Section) : Bool := decide (x.size < 24) || ((x.bytes bs).take 24).any (· != 0#8)

/-- The indices and symbols of one section; the LINK of a symbol table names a string table. -/
def indicesBad (bs : List Byte) (xs : List Section) (x : Section) : Bool :=
  let isSyms : Nat → Bool := fun i => (nthSection xs i).type == 5
  match x.type with
  | 5 => (nthSection xs x.link).type != 4 || entry0Bad bs x || ((symbolsOf bs x).drop 1).any (symbolBad xs x.link)
  | 6 => decide (xs.length ≤ x.link) || x.link == 0 || !isSyms x.info ||
      (relocsOf bs x).any fun r => decide ((symbolsOf bs (nthSection xs x.info)).length ≤ r.sym)
  | 7 => !isSyms x.link || (x.records bs 64).any fun k =>
      badString xs (nthSection xs x.link).link (fieldAt k 0 4) || fieldAt k 4 4 == 0 ||
        decide ((symbolsOf bs (nthSection xs x.link)).length ≤ fieldAt k 4 4)
  | _ => false

/-- 5, LDSYM. -/
def badSymbols (bs : List Byte) : Bool :=
  let xs := pofSections bs
  let strs := fieldAt bs 0x20 4
  (xs.drop 1).any fun x => badString xs strs x.name || indicesBad bs xs x

/-- R107: a symbol's address in a module loaded at a base, or its value. -/
def symbolAddr (xs : List Section) (base : Nat) (y : Symbol) : Nat :=
  if y.sect = 0xFFFF then y.value else base + (nthSection xs y.sect).addr + y.value

/-- R106: S + A of a relocation of a section, with the module at a base. -/
def relocValue (bs : List Byte) (xs : List Section) (base : Nat) (x : Section) (r : Reloc) : Int :=
  (if r.sym = 0 then 0 else match (symbolsOf bs (nthSection xs x.info))[r.sym]? with
    | some y => (symbolAddr xs base y : Int)
    | none => 0) + r.addend

/-- R106: does a value fit its field? -/
def relocFits (type : Nat) (v : Int) : Bool := match type with
  | 2 => decide (-2 ^ 31 ≤ v) && decide (v ≤ 2 ^ 32 - 1)
  | 7 => decide (-2048 ≤ v) && decide (v ≤ 2047)
  | 8 => decide (0 ≤ v) && decide (v ≤ 4095)
  | 9 => decide (-2 ^ 31 ≤ v) && decide (v ≤ 2 ^ 31 - 1)
  | _ => true

/-- R106: the bytes that a relocation patches; 0 for NONE. -/
def relocSize (type : Nat) : Nat := if type = 0 then 0 else if type = 1 then 8 else 4

/-- 6, LDRELOC: for a module at a base, or one for which no base has been found; also for a relocation with a reserved FLAGS bit (R105)
or with L = 0, which a linked module does not hold (R107): R111 names a code for neither (DESIGN CHOICE, log 34). -/
def badRelocs (bs : List Byte) (base : Option Nat) : Bool :=
  let xs := pofSections bs
  xs.any fun x => x.type == 6 && (relocsOf bs x).any fun r =>
    decide (10 < r.type) || r.type == 5 || r.type == 6 || r.type == 10 || r.flags % 2 == 0 || r.flags / 2 % 8 != 0 || decide (256 ≤ r.flags) ||
      decide (((nthSection xs x.link).bytes bs).length < r.off + relocSize r.type) ||
      base.any fun b => !relocFits r.type (relocValue bs xs b x r)

/-- R101: is a descriptor out of its values? -/
def kdescBad (ys : List Symbol) (k : List Byte) : Bool :=
  let c := byteAt k 10
  let n := fieldAt k 12 2
  (match ys[fieldAt k 4 4]? with
    | some y => y.kind != 1
    | none => true) ||
    !([1, 2, 3].contains (byteAt k 8)) || !([16, 32, 64].contains (byteAt k 9)) || !([1, 2, 4].contains c) || decide (1 < byteAt k 11) ||
    decide (n < 8) || decide (128 < n) || n % 8 != 0 || decide (16 < fieldAt k 14 2) || decide (fieldAt k 16 4 < 1) ||
    decide (2048 * c < fieldAt k 16 4) || decide (512 < fieldAt k 20 2) || decide (64 < fieldAt k 22 2) || decide (8192 < fieldAt k 24 4) ||
    fieldAt k 28 4 != 0 || decide (fieldAt k 0x20 8 < 1) || decide (2 ^ 31 < fieldAt k 0x20 8) || (k.drop 0x28).any (· != 0#8)

/-- 7, LDKDESC. -/
def badKdescs (bs : List Byte) : Bool :=
  let xs := pofSections bs
  xs.any fun x => x.type == 7 && (x.records bs 64).any (kdescBad (symbolsOf bs (nthSection xs x.link)))

/-! ## Placing the module -/

/-- R106: the bytes that stand in a field after a relocation. -/
def patchBytes (type : Nat) (old : List Byte) (v : Int) : List Byte :=
  let u := (v % 2 ^ 64).toNat
  match type with
  | 1 => leBytes 8 u
  | 4 => leBytes 4 (u / 2 ^ 32)
  | 7 | 8 => leBytes 4 (leNat old / 4096 * 4096 + u % 4096)
  | _ => leBytes 4 u

def patch (img : List Byte) (type off : Nat) (v : Int) : List Byte :=
  let n := relocSize type
  if n = 0 then img else overlay img off (patchBytes type ((img.drop off).take n) v)

/-- The bytes of section number `i` after its relocations. -/
def relocated (bs : List Byte) (base i : Nat) : List Byte :=
  let xs := pofSections bs
  (xs.filter fun x => x.type == 6 && x.link == i).foldl (init := (nthSection xs i).bytes bs) fun img x =>
    (relocsOf bs x).foldl (init := img) fun img r => patch img r.type r.off (relocValue bs xs base x r)

/-- 8, LDLAYOUT: a layout field is outside R102 as the file has it, or after relocation (R102, R110). -/
def badLayouts (bs : List Byte) (base : Option Nat) : Bool :=
  (pofSections bs).zipIdx.any fun x => x.1.type == 8 && ((x.1.records bs 96).any (fun y => !layoutValid y) ||
    base.any fun b => (recordsAt (relocated bs b x.2) 0 96 (x.1.size / 96)).any fun y => !layoutValid y)

/-- R102: a section of layout records with their CHECK fields. -/
def sealRecords (img : List Byte) : List Byte := (recordsAt img 0 96 (img.length / 96)).flatMap fun y => y.take 92 ++ layoutCheck y

/-- The bytes of a section as they are mapped. -/
def mappedBytes (bs : List Byte) (base i : Nat) : List Byte :=
  if (nthSection (pofSections bs) i).type = 8 then sealRecords (relocated bs base i) else relocated bs base i

/-- A page to be mapped. -/
structure PageAsk where
  va    : Nat
  perms : Nat
  u     : Bool
  dp    : Bool
  bytes : List Byte
deriving DecidableEq, Repr

/-- R110, steps 3 and 6: the pages of section number `i`. -/
def pagesOf (bs : List Byte) (base i : Nat) : List PageAsk :=
  let x := nthSection (pofSections bs) i
  if !x.a then []
  else
    let img := mappedBytes bs base i
    (List.range x.pages).map fun j =>
      ⟨base + x.addr + 65536 * j, 9 + (if x.w then 2 else 0) + (if x.x then 4 else 0), x.u, x.d, (img.drop (65536 * j)).take 65536⟩

/-- A page is given its frame, or its place in unbacked space, and its leaf. -/
def mapAsk (c : Ctx) (p : PageAsk) (s : State) : Option (List Upd) :=
  let home := homeOfCtx c
  let given : Option (List Upd × Nat) :=
    if p.u then some ([.named 1], leafPte p.perms (2 ^ 35 + s.nextId % 2 ^ 35) true p.dp home 0)
    else (freeFrame s).map fun f => (giveFrame s c.num f ++ [.store (f * 65536) p.bytes], leafPte p.perms f false false (homeOfFrame f) 0)
  match given with
  | none => none
  | some (us, pte) => (mapPage c.num p.va pte 3 c.ptbase (s.applyAll us)).map fun vs => us ++ vs

def mapAsks (c : Ctx) : List PageAsk → State → Option (List Upd)
  | [], _ => some []
  | p :: ps, s => match mapAsk c p s with
    | none => none
    | some us => (mapAsks c ps (s.applyAll us)).map fun vs => us ++ vs

/-- The virtual range a module takes. -/
def moduleSize (bs : List Byte) : Nat :=
  ((pofSections bs).filter Section.a).foldl (init := 0) fun m x => max m (x.addr + x.pages * 65536)

/-- A string of a string table. -/
def stringAt (bs : List Byte) (x : Section) (off : Nat) : List Byte := ((x.bytes bs).drop off).takeWhile (· != 0#8)

/-- R101, R110: the descriptors of a module loaded at a base. -/
def kernelsOf (bs : List Byte) (base : Nat) : List Kernel :=
  let xs := pofSections bs
  (xs.filter fun x => x.type == 7).flatMap fun x =>
    let tab := nthSection xs x.link
    (x.records bs 64).zipIdx.map fun k =>
      let entry := match (symbolsOf bs tab)[fieldAt k.1 4 4]? with
        | some y => symbolAddr xs base y
        | none => 0
      { addr := (if x.a then some (BitVec.ofNat 64 (base + x.addr + 64 * k.2)) else none : Option (BitVec 64))
        name := stringAt bs (nthSection xs tab.link) (fieldAt k.1 0 4)
        entry := BitVec.ofNat 64 entry
        gen := byteAt k.1 8
        w := byteAt k.1 9
        cores := byteAt k.1 10
        det := byteAt k.1 11 % 2 == 1
        regs := fieldAt k.1 12 2
        barriers := fieldAt k.1 14 2
        teamT := fieldAt k.1 16 4
        scratchK := fieldAt k.1 20 2
        obuf4k := fieldAt k.1 22 2
        accRows := fieldAt k.1 24 4
        defTeams := fieldAt k.1 0x20 8 }

/-- R110, R111: the load of a module into a context: its code, and what it changes. Where page frames run out, of pages or of tables, the
code is LDSPACE, which R111 gives for virtual range alone (DESIGN CHOICE, log 34). -/
def loadModule (s : State) (c : Ctx) (bs : List Byte) : Nat × List Upd :=
  if badMagic bs then (1, [])
  else if fieldAt bs 6 2 ≠ 2 then (2, [])
  else if badCheck bs then (3, [])
  else if badSections bs then (4, [])
  else if badSymbols bs then (5, [])
  else
    let size := moduleSize bs
    let base := freeRange c size 65536
    if badRelocs bs base then (6, [])
    else if badKdescs bs then (7, [])
    else if badLayouts bs base then (8, [])
    else match base with
      | none => (9, [])
      | some b => match mapAsks c ((List.range (pofSections bs).length).flatMap (pagesOf bs b)) s with
        | none => (9, [])
        | some us =>
          (0, us ++ [.ctx c.num fun c => { c with
            ranges := if size = 0 then c.ranges else (b, size) :: c.ranges, kernels := c.kernels ++ kernelsOf bs b }])

end Sys2Proof.Machine
end

