-- ==== Sys2Proof/Machine/Store.lean ====
section
/-! DEFINITION. MTC modules and the translation store (R299 to R302): the key, entries in the flash, the room they take, and the module a
request loads. -/

namespace Sys2Proof.Machine

/-! ## The store's space (R301, R302) -/

/-- The store's first byte in the flash, after the boot area; its erase blocks. -/
def storeBase : Nat := 2 ^ 26
def blockSize : Nat := 2 ^ 22
def blockCount : Nat := 8176

/-- The bytes of an entry: header, module, signature. -/
def StoreEntry.size (e : StoreEntry) : Nat := 64 + e.len + 114

/-- Does an entry have bytes in a block? -/
def StoreEntry.inBlock (e : StoreEntry) (b : Nat) : Bool :=
  decide (e.addr < storeBase + (b + 1) * blockSize) && decide (storeBase + b * blockSize < e.addr + e.size)

/-- Are `n` bytes from `a` free, outside a block? What a dropped entry or one that has moved away holds is not free until its block is
erased (R302). -/
def roomAt (s : State) (n : Nat) (avoid : Option Nat) (a : Nat) : Bool :=
  decide (a + n ≤ storeBase + blockCount * blockSize) && s.part.store.all (fun e => decide (a + n ≤ e.addr) || decide (e.addr + e.size ≤ a)) &&
    s.part.stale.all (fun r => decide (a + n ≤ r.1) || decide (r.2 ≤ a)) &&
    avoid.all fun b => decide (a + n ≤ storeBase + b * blockSize) || decide (storeBase + (b + 1) * blockSize ≤ a)

/-- Where `n` bytes are appended: after an entry, or at the start of a block (DESIGN CHOICE, log 10). -/
def storeRoom (s : State) (n : Nat) (avoid : Option Nat) : Option Nat :=
  ((s.part.store.map fun e => e.addr + e.size) ++ (List.range blockCount).map fun b => storeBase + b * blockSize).find? (roomAt s n avoid)

def eraseCount (s : State) (b : Nat) : Nat := match s.part.erases.find? fun x => x.1 == b with
  | some x => x.2
  | none => 0

/-- The newest LASTUSE in a block. -/
def newestUse (s : State) (b : Nat) : Nat := ((s.part.store.filter fun e => e.inBlock b && !e.dropped).map StoreEntry.lastUse).foldl max 0

/-- R302: the victim: among the blocks whose erase count is near the lowest, the one whose newest LASTUSE is oldest. -/
def victimBlock (s : State) : Nat :=
  let low := ((List.range blockCount).map (eraseCount s)).foldl min (eraseCount s 0)
  (((List.range blockCount).filter fun b => decide (eraseCount s b ≤ low + 512)).foldl (init := (none : Option Nat)) fun m b => match m with
    | none => some b
    | some c => if newestUse s b < newestUse s c then some b else some c).getD 0

/-- An entry's header, module and signature in the flash. -/
def writeEntry (e : StoreEntry) (module : List Byte) : List Upd :=
  [.store (flashKey e.addr) (leBytes 32 e.key.toNat ++ leBytes 8 e.len ++ leBytes 8 e.lastUse ++ List.replicate 16 0#8 ++ module ++
    (e.sig ++ List.replicate 114 0#8).take 114)]

def entryModule (s : State) (e : StoreEntry) : List Byte := s.bytes (flashKey (e.addr + 64)) e.len

/-- R302: the entries of a victim that are in use are copied forward; none when one finds no room. -/
def copyForward (b : Nat) : List StoreEntry → State → Option (List Upd)
  | [], _ => some []
  | e :: es, s => match storeRoom s e.size (some b) with
    | none => none
    | some a =>
      let f : StoreEntry := { e with addr := a }
      let us := (Upd.part fun p => { p with store := f :: p.store.filter fun x => x.addr != e.addr,
                                             stale := (e.addr, e.addr + e.size) :: p.stale }) :: writeEntry f (entryModule s e)
      (copyForward b es (s.applyAll us)).map fun vs => us ++ vs

/-- What a range of bytes leaves outside a block. -/
def outsideBlock (b : Nat) (r : Nat × Nat) : List (Nat × Nat) :=
  [(r.1, min r.2 (storeBase + b * blockSize)), (max r.1 (storeBase + (b + 1) * blockSize), r.2)].filter fun x => decide (x.1 < x.2)

/-- A block is erased whole; what stood in it is gone, and the rest of an entry that reached beyond it is stale. -/
def eraseBlock (s : State) (b : Nat) : List Upd :=
  let lost := (s.part.store.filter fun e => e.inBlock b).map fun e => (e.addr, e.addr + e.size)
  [.part (fun p => { p with store := p.store.filter (fun e => !e.inBlock b), stale := (lost ++ p.stale).flatMap (outsideBlock b),
                            erases := (b, eraseCount s b + 1) :: p.erases.filter fun x => x.1 != b }),
   .stores ((rangeCells s (flashKey (storeBase + b * blockSize)) blockSize).map fun c =>
     (flashKey (storeBase + b * blockSize) + c.1, 0#8))]

/-- Blocks are erased until `n` bytes have room. -/
def makeSpace (n : Nat) : Nat → State → List Upd
  | 0, _ => []
  | k + 1, s =>
    if (storeRoom s n none).isSome then []
    else
      let b := victimBlock s
      match copyForward b (s.part.store.filter fun e => e.inBlock b && !e.dropped && !e.users.isEmpty) s with
      | none => []
      | some us =>
        let s1 := s.applyAll us
        let vs := us ++ eraseBlock s1 b
        vs ++ makeSpace n k (s.applyAll vs)

/-! ## Keys and entries (R300, R301) -/

/-- Cells that are fitted, and bridge positions as a mask. -/
def activeCells (s : State) : Nat := ((List.range 192).filter (cellHas s.part.cellPresent)).length
def positionMask (s : State) (f : Position → Bool) : Nat := ((List.range 8).map fun i => if f (s.position i) then 2 ^ i else 0).sum

/-- R300: the shape. -/
def shapeOf (s : State) (c : Ctx) (det : Bool) : List Byte :=
  leBytes 2 (if det then 0 else activeCells s) ++ leBytes 1 c.gen ++ leBytes 1 (if det then 0 else positionMask s fun p => p.used 2) ++
    leBytes 1 (if det then 1 else 0) ++ leBytes 3 0

/-- R300: the translation key. -/
def translationKey (mtc shape : List Byte) : BitVec 256 := BitVec.ofNat 256 (leNat (shake256 (mtc ++ shape ++ Config.translatorVersion) 32))

/-- R301: what the store key signs for a module. -/
def entrySign (key : BitVec 256) (module : List Byte) : List Byte := Config.storeSign (leBytes 32 key.toNat ++ shake256 module 64)

/-- R301: does an entry's signature verify over its module in the flash? -/
def entryOk (s : State) (e : StoreEntry) : Bool := !e.sig.isEmpty && e.sig == entrySign e.key (entryModule s e)

/-- The entry of a key. -/
def storeEntry (s : State) (key : BitVec 256) : Option StoreEntry := s.part.store.find? fun e => e.key == key && !e.dropped

/-- An entry is used by a request. -/
def useEntry (s : State) (e : StoreEntry) : List Upd :=
  let f : StoreEntry := { e with lastUse := s.time }
  (Upd.part fun p => { p with store := p.store.map fun x => if x.addr = e.addr then f else x }) ::
    [.store (flashKey (e.addr + 40)) (leBytes 8 s.time)]

/-- R302: a context uses a module that has been loaded from the entry of a key. -/
def markUser (key : BitVec 256) (ctx : Nat) : Upd := .part fun p => { p with store := p.store.map fun x =>
  if x.key = key ∧ x.dropped = false then { x with users := ctx :: x.users.filter (· != ctx) } else x }

/-- R301: a fresh translation is stored where there is room. -/
def storeModule (s : State) (key : BitVec 256) (module : List Byte) : List Upd :=
  let n := 64 + module.length + 114
  let us := makeSpace n blockCount s
  let s1 := s.applyAll us
  us ++ (match storeRoom s1 n none with
    | none => []
    | some a =>
      let e : StoreEntry := ⟨key, a, module.length, entrySign key module, s.time, [], false⟩
      (Upd.part fun p => { p with store := e :: p.store }) :: writeEntry e module)

/-! ## MTCLOAD (R299) -/

/-- R299: is the header of an MTC module malformed? LEN is the module's length (DESIGN CHOICE, log 10). -/
def mtcBad (bs : List Byte) : Bool :=
  decide (bs.length < 64) || bs.take 4 != [0x4D#8, 0x54#8, 0x43#8, 0x1A#8] || fieldAt bs 4 2 != 1 || fieldAt bs 6 2 == 0 ||
    decide (4096 < fieldAt bs 6 2) || fieldAt bs 8 8 != bs.length || ((bs.drop 16).take 48).any (· != 0#8)

/-- R299: a status that the translator gives: 1, 2, 3 or 5 (DESIGN CHOICE, log 10). -/
def translateStatus (n : Nat) : Nat := if n = 2 ∨ n = 3 ∨ n = 5 then n else 1

/-- R299, R301: a request: its status, the loader's code, and what it changes. -/
def mtcLoad (s : State) (c : Ctx) (mtc : List Byte) : Nat × Nat × List Upd :=
  if mtcBad mtc then (1, 0, [])
  else
    let shape := shapeOf s c (Config.mtcDet mtc)
    let key := translationKey mtc shape
    let hit := (storeEntry s key).filter (entryOk s)
    let drop : List Upd := match storeEntry s key, hit with
      | some e, none => [.part fun p => { p with store := p.store.map fun x => if x.addr = e.addr then { x with dropped := true } else x }]
      | _, _ => []
    let got : Except Nat (List Byte × List Upd) := match hit with
      | some e => .ok (entryModule s e, useEntry s e)
      | none => (Config.translate mtc shape).map fun m => (m, storeModule (s.applyAll drop) key m)
    match got with
    | .error n => (translateStatus n, 0, drop)
    | .ok (m, us) =>
      let s1 := s.applyAll (drop ++ us)
      let r := loadModule s1 c m
      if r.1 = 0 then (0, 0, drop ++ us ++ markUser key c.num :: r.2) else (4, r.1, drop ++ us)

end Sys2Proof.Machine
end

