-- ==== Sys2Proof/Machine/Host.lean ====
section
/-! DEFINITION. The host's interface (R280 to R286, R298, R303 to R305): the request ring, the requests that the resident kernel serves,
and the host's accesses of exported memory. -/

namespace Sys2Proof.Machine

/-! ## The ring (R281) -/

def hostBytes (s : State) (a n : Nat) : List Byte := s.bytes (hostBase + a) n
def hostNum (s : State) (a n : Nat) : Nat := s.num (hostBase + a) n
def hostStore (a : Nat) (bs : List Byte) : Upd := .store (hostBase + a) bs

/-- Does a range lie in host memory (R285)? -/
def hostRange (a n : Nat) : Bool := decide (a + n ≤ 2 ^ 46)

/-- R281, R296: does the part serve the ring? -/
def ringOn (s : State) : Bool :=
  let n := s.part.ringlen.toNat
  [16, 32, 64, 128, 256, 512, 1024, 2048, 4096].contains n && s.part.ringbase.toNat % 4096 == 0 && hostRange s.part.ringbase.toNat (64 * n) &&
    (s.part.bootst == 3#8 || s.part.bootst == 0x80#8)

/-- The host address of an entry. -/
def entryAt (s : State) (e : Nat) : Nat := s.part.ringbase.toNat + 64 * e
def entryOp (s : State) (e : Nat) : Nat := hostNum s (entryAt s e) 2
def entryCtx (s : State) (e : Nat) : Nat := hostNum s (entryAt s e + 2) 2
def entryArg (s : State) (e i : Nat) : Nat := hostNum s (entryAt s e + 8 + 8 * i) 8

/-- R282, R303: the request that an entry makes. -/
def requestAt (s : State) (e : Nat) : Instr :=
  if s.part.bootst = 0x80#8 then (if entryOp s e = 3 then .recoveryLoad e else .reservedRequest e)
  else match entryOp s e with
    | 1 => .ctxnew e
    | 2 => .ctxend e
    | 3 => .load e
    | 4 => .mtcload e
    | 5 => .maphost e
    | 6 => .exportMem e
    | 7 => .hostLaunch e
    | 8 => .attest e
    | 9 => (match entryArg s e 0 with
      | 1 => .celloff e
      | 2 => .cellon e
      | 3 => .drain e
      | 4 => .undrain e
      | 5 => .laneoff e
      | _ => .serviceReserved e)
    | 10 => .ctxset e
    | _ => .reservedRequest e

/-- The request that is to be served next. -/
def nextRequest (s : State) : Option Instr :=
  if ringOn s && s.part.doneidx.toNat != s.part.doorbell.toNat % s.part.ringlen.toNat then some (requestAt s s.part.doneidx.toNat) else none

/-- The part owes the service of the next entry. -/
def oweRequest : Eff := .act fun s => match nextRequest s with
  | some i => if s.events.contains i then [] else [.event i]
  | none => []

/-- R281: a read of `n` bytes of BAR0 by the host; an offset that is not listed reads zero. -/
def bar0Read (s : State) (off n : Nat) : List Byte :=
  let regs : List (Nat × List Byte) := [(0, leBytes 4 s.part.bootst.toNat), (8, leBytes 8 s.part.ringbase.toNat),
    (0x10, leBytes 4 s.part.ringlen.toNat), (0x14, leBytes 4 s.part.doorbell.toNat), (0x18, leBytes 4 s.part.doneidx.toNat)]
  (List.range n).map fun i => ((regs.find? fun r => decide (r.1 ≤ off + i) && decide (off + i < r.1 + r.2.length)).map fun r =>
    r.2.getD (off + i - r.1) 0#8).getD 0#8

/-- R281: a write of BAR0 by the host: RINGBASE, RINGLEN or DOORBELL; void at every other offset. -/
def bar0Write (off : Nat) (v : BitVec 64) : Upd := .part fun p => match off with
  | 0x08 => { p with ringbase := v }
  | 0x10 => { p with ringlen := lo32 v }
  | 0x14 => { p with doorbell := lo32 v }
  | _ => p

/-- R281: HOST_DOORBELL: the host has written `ws` into its memory, and RINGBASE, RINGLEN and DOORBELL. Another ring is served from its
entry 0 (DESIGN CHOICE, log 36). -/
def execHostDoorbell (base : BitVec 64) (len v : Word) (ws : List (Nat × Byte)) (s : State) : Host.Outcome State Fault Refusal :=
  run (.seq (.act fun s =>
      let done : Word := if s.part.ringbase = base ∧ s.part.ringlen = len then s.part.doneidx else 0#32
      [.stores (ws.filterMap fun w => if w.1 < 2 ^ 46 then some (hostBase + w.1, w.2) else none),
       bar0Write 0x08 base, bar0Write 0x10 (len.setWidth 64), bar0Write 0x14 (v.setWidth 64), .part fun p => { p with doneidx := done },
       .report .doorbell]) oweRequest) s

/-- R281: results into the arguments of an entry and STATUS are written, then DONEIDX passes it. -/
def complete (e st : Nat) (results : List (Nat × Nat)) : Eff :=
  .seq (.act fun s =>
    (results.map fun r => hostStore (entryAt s e + 8 + 8 * r.1) (leBytes 8 r.2)) ++ [hostStore (entryAt s e + 4) (leBytes 4 st)]) <|
  .seq (.act fun s => [.part fun p => { p with doneidx := BitVec.ofNat 32 ((e + 1) % s.part.ringlen.toNat) }]) oweRequest

/-- A request is served when its entry is the next one; one that the entry no longer makes gives way to what it makes now. -/
def serve (i : Instr) (go : Eff) (s : State) : Host.Outcome State Fault Refusal :=
  run (.when (fun s => nextRequest s == some i) go oweRequest) s

/-- A request on the context of an entry: 0x100 for a context that does not exist (DESIGN CHOICE, log 36). -/
def withCtx (e : Nat) (go : Ctx → Eff) : Eff := .read fun s => match s.ctx? (entryCtx s e) with
  | some c => go c
  | none => complete e 0x100 []

/-- An update, a status, results. -/
def answer (e : Nat) (f : State → Nat × List (Nat × Nat) × List Upd) : Eff := .read fun s =>
  let r := f s
  .seq (.upds r.2.2) (complete e r.1 r.2.1)

/-! ## Contexts (R282, R284) -/

/-- R287: the peer table of a context: at most 255 entries. -/
def peersOf (num : Nat) : List Peer := ((Config.peerTable num).take 255).map fun x => ⟨x.1, x.2.1, x.2.2⟩

/-- A new context (R241). -/
def newCtx (num gen : Nat) (dbg : Bool) (quota : Nat) (part : BitVec 192) (ptbase : Nat) : Ctx where
  num := num
  asid := BitVec.ofNat 16 num
  gen := gen
  dbg := dbg
  waitThr := 20000
  ptbase := ptbase
  trapvec := 0#64
  emuvec := 0#64
  quota := quota
  savesz := Config.saveSz
  part := part
  kernels := []
  peers := peersOf num
  exports := []
  nextLaunch := 1
  ranges := []

/-- A free context number, which is its ASID too. -/
def freeCtx (s : State) : Option Nat :=
  if 4096 ≤ s.part.ctxs.length then none
  else (List.range 8300).find? fun n => decide (1 ≤ n) && !s.part.ctxs.any fun c => c.num == n || c.asid == BitVec.ofNat 16 n

def ctxNew (e : Nat) (s : State) : Nat × List (Nat × Nat) × List Upd :=
  let mask := BitVec.ofNat 192 (entryArg s e 3 + 2 ^ 64 * entryArg s e 4 + 2 ^ 128 * entryArg s e 5)
  let gen := entryArg s e 0
  if gen = 0 ∨ 3 < gen ∨ mask = 0#192 ∨ mask &&& ~~~s.part.cellPresent ≠ 0#192 then (0x100, [], [])
  else match freeCtx s, freeFrame s with
    | some n, some f =>
      (0, [(0, n)], giveFrame s n f ++ [.part fun p =>
        { p with ctxs := p.ctxs ++ [newCtx n gen (entryArg s e 1 % 2 == 1) (entryArg s e 2) mask (f * 65536)] }])
    | _, _ => (0x101, [], [])

def execCtxnew (e : Nat) (s : State) : Host.Outcome State Fault Refusal := serve (.ctxnew e) (answer e (ctxNew e)) s

/-- A report about a context. -/
def Report.ofCtx (ctx : Nat) : Report → Bool
  | .uevict c _ | .uquota c | .groupDown c _ | .exportFault c => c == ctx
  | _ => false

/-- What the part keeps of a context goes; its trip registers are off (DESIGN CHOICE, log 36). -/
def destroyCtx (c : Ctx) : Upd := .part fun p =>
  { p with
    ctxs := p.ctxs.filter (fun d => d.num != c.num)
    tlb := p.tlb.filter (fun e => e.asid != c.asid)
    l2 := p.l2.filter (fun l => !(l.unbacked && l.ctx == c.num))
    frames := p.frames.filter (fun f => f.1 != c.num)
    chains := p.chains.filter (fun x => x.ctx != c.num)
    colls := p.colls.filter (fun x => x.ctx != c.num)
    queues := p.queues.filter (fun x => x.ctx != c.num)
    ops := p.ops.filter (fun o => match o.job with
      | .qpush _ _ x _ _ => x != c.num
      | _ => true)
    saves := p.saves.filter (fun x => x.ctx != c.num)
    store := p.store.map (fun x => { x with users := x.users.filter (· != c.num) })
    trips := p.trips.map (fun r => if r.asid = c.asid then { r with ctl := r.ctl &&& ~~~3#32 } else r)
    reports := p.reports.filter fun r => !r.ofCtx c.num }

/-- CTXEND: every live launch ends with END 3, then, when their completion words are written, the context is destroyed. -/
def execCtxend (e : Nat) (s : State) : Host.Outcome State Fault Refusal :=
  serve (.ctxend e) (withCtx e fun c => .read fun s =>
    .seq (.each (fun l => endLaunch l (doneValue 3 0 0)) (s.part.launches.filter fun l => l.ctx == c.num)) <|
    .read fun s => if s.part.launches.any fun l => l.ctx == c.num then .upds [.event (.ctxend e)]
      else .seq (.upds [destroyCtx c]) (complete e 0 [])) s

/-- R284: a vector: a canonical multiple of 4; 0 is none. -/
def vectorOk (v : Nat) : Bool := decide (v < 2 ^ 56) && v % 4 == 0

def ctxSet (c : Ctx) (e : Nat) (s : State) : Nat × List (Nat × Nat) × List Upd :=
  let v := entryArg s e 1
  match entryArg s e 0 with
  | 1 => if vectorOk v then (0, [], [.ctx c.num fun c => { c with trapvec := BitVec.ofNat 64 v }]) else (0x100, [], [])
  | 2 => if vectorOk v then (0, [], [.ctx c.num fun c => { c with emuvec := BitVec.ofNat 64 v }]) else (0x100, [], [])
  | 3 => if 0x100 ≤ v ∧ v ≤ 0xFFFFFFFF then (0, [], [.ctx c.num fun c => { c with waitThr := v }]) else (0x100, [], [])
  | 4 => (0, [], [.ctx c.num fun c => { c with quota := v }])
  | _ => (0x100, [], [])

def execCtxset (e : Nat) (s : State) : Host.Outcome State Fault Refusal :=
  serve (.ctxset e) (withCtx e fun c => answer e (ctxSet c e)) s

/-! ## Modules (R110, R296, R299) -/

def execLoad (e : Nat) (s : State) : Host.Outcome State Fault Refusal :=
  serve (.load e) (withCtx e fun c => answer e fun s =>
    if !hostRange (entryArg s e 0) (entryArg s e 1) then (0x100, [], [])
    else
      let r := loadModule s c (hostBytes s (entryArg s e 0) (entryArg s e 1))
      (r.1, [], r.2)) s

def execMtcload (e : Nat) (s : State) : Host.Outcome State Fault Refusal :=
  serve (.mtcload e) (withCtx e fun c => answer e fun s =>
    if !hostRange (entryArg s e 0) (entryArg s e 1) then (0x100, [], [])
    else
      let r := mtcLoad s c (hostBytes s (entryArg s e 0) (entryArg s e 1))
      (r.1, if r.1 = 4 then [(1, r.2.1)] else [], r.2.2)) s

/-- R296: a loader image for recovery, written as both copies and run; boot continues with the resident kernel. -/
def recover (e : Nat) (img : List Byte) : Eff :=
  .seq (.upds [.store (flashKey (bootPlace 0 0)) img, .store (flashKey (bootPlace 0 1)) img]) <|
  .seq (complete e 0 []) <| .seq (.upds [measure img, setBootst 1#8]) <| .read fun s => bootAll (1 :: sequencers s)

def execRecoveryLoad (e : Nat) (s : State) : Host.Outcome State Fault Refusal :=
  serve (.recoveryLoad e) (.read fun s =>
    let n := entryArg s e 1
    if n < 178 ∨ 2 ^ 24 < n ∨ !hostRange (entryArg s e 0) n then complete e 0x100 []
    else
      let img := hostBytes s (entryArg s e 0) n
      if imageOk img then recover e img else complete e 0x102 []) s

/-! ## Memory (R285, R286) -/

/-- R285: is a MAPHOST refused? A page that is mapped already is not mapped again (DESIGN CHOICE, log 36). -/
def mapRefused (c : Ctx) (e : Nat) (s : State) : Bool :=
  let a := entryArg s e 0
  let n := entryArg s e 1
  let va := entryArg s e 2
  a % 65536 != 0 || n % 65536 != 0 || va % 65536 != 0 || decide (64 ≤ entryArg s e 3) || !hostRange a n || decide (vaEnd < va + n) ||
    !(c.leavesIn s va n).isEmpty || c.ranges.any fun r => decide (r.1 < va + n) && decide (va < r.1 + r.2)

def mapHost (c : Ctx) (e : Nat) (s : State) : Nat × List (Nat × Nat) × List Upd :=
  let n := entryArg s e 1
  let va := entryArg s e 2
  let flags := entryArg s e 3
  if mapRefused c e s then (0x100, [], [])
  else match mapPages c va (fun i => leafPte (flags / 4) ((hostBase + entryArg s e 0) / 65536 + i) false false (homeOfCtx c) (flags % 4))
      (List.range (n / 65536)) s with
    | none => (0x100, [], [])
    | some us => (0, [], us ++ [.ctx c.num fun c => { c with ranges := if n = 0 then c.ranges else (va, n) :: c.ranges }])

def execMaphost (e : Nat) (s : State) : Host.Outcome State Fault Refusal :=
  serve (.maphost e) (withCtx e fun c => answer e (mapHost c e)) s

/-- R286: does a leaf bar an export: unbacked, pinned, or of type 2 or 3? -/
def PtEntry.barsExport (x : PtEntry) : Bool := pteBit x.bits 58 || pteBit x.bits 59 || decide (2 ≤ pteMt x.bits)

def exportRange (c : Ctx) (e : Nat) (s : State) : Nat × List (Nat × Nat) × List Upd :=
  let va := entryArg s e 0
  let n := entryArg s e 1
  let dec := entryArg s e 2
  if va % 2 ^ 28 ≠ 0 ∨ n % 2 ^ 28 ≠ 0 ∨ n = 0 ∨ vaEnd < va + n ∨ 7 < dec ∨ (c.leavesIn s va n).any PtEntry.barsExport then (0x100, [], [])
  else (0, [], [.part fun p => { p with ctxs := p.ctxs.map fun d =>
    let rest := d.exports.filter fun x => x.1 != dec
    { d with exports := if d.num = c.num then (dec, BitVec.ofNat 64 va, n) :: rest else rest } }])

def execExportMem (e : Nat) (s : State) : Host.Outcome State Fault Refusal :=
  serve (.exportMem e) (withCtx e fun c => answer e (exportRange c e)) s

/-- The context and the virtual address behind an offset of a decoder. -/
def exportedAt (s : State) (dec off : Nat) : Option (Ctx × Nat) :=
  s.part.ctxs.findSome? fun c => c.exports.findSome? fun x => if x.1 = dec ∧ off < x.2.2 then some (c, x.2.1.toNat + off) else none

/-- R286: HOST_CXL_READ: a line is read at its home point and returned, and the host may hold it. A page that does not permit the read
gives poisoned data and a report. -/
def execHostCxlRead (dec : BitVec 3) (off : Nat) (s : State) : Host.Outcome State Fault Refusal :=
  run (.act fun s => match exportedAt s dec.toNat (off / 128 * 128) with
    | none => []
    | some (c, va) => match pageFor s c hostIssuer true false .load va 128 with
      | (.error _, us) => us ++ [.report (.exportFault c.num), .part fun q => { q with hostRead := some ([], true) }]
      | (.ok p, us) =>
        us ++ (homeRead (s.applyAll us) p c.num 16).2 ++
          [.part fun q => { q with hostHeld := p.pa / 128 :: q.hostHeld.filter (· != p.pa / 128),
                                   hostRead := some (homeBytes s (p.pa / 128 * 128) 128, false) }]) s

/-- R286: HOST_CXL_WRITE: 8 aligned bytes are written at the home point; a write that must wait for a line is tried again. A page that
does not permit the write drops it, with a report. -/
def execHostCxlWrite (dec : BitVec 3) (off : Nat) (v : BitVec 64) (s : State) : Host.Outcome State Fault Refusal :=
  run (.act fun s => match exportedAt s dec.toNat (off / 8 * 8) with
    | none => []
    | some (c, va) => match pageFor s c hostIssuer true false .store va 8 with
      | (.error _, us) => us ++ [.report (.exportFault c.num)]
      | (.ok p, us) => match ctxWrite (s.applyAll us) c.num p.home p (leBytes 8 v.toNat) with
        | .error w => us ++ [Upd.report w.2, .event (.hostCxlWrite dec off v)]
        | .ok vs => us ++ vs) s

/-! ## Launches, attestation (R283, R298) -/

/-- R283: the kernel's name: 1 to 255 bytes and a NUL byte. -/
def launchName (s : State) (a : Nat) : Option (List Byte) :=
  let bs := (hostBytes s a 256).takeWhile (· != 0#8)
  if hostRange a (bs.length + 1) ∧ 1 ≤ bs.length ∧ bs.length < 256 then some bs else none

def hostLaunchWith (c : Ctx) (e : Nat) (s : State) : Nat × List (Nat × Nat) × List Upd :=
  let kern := match launchName s (entryArg s e 0) with
    | none => none
    | some name => (c.kernels.filter fun k => k.name == name).getLast?
  if entryArg s e 4 % 8 ≠ 0 then (1, [], [])
  else
    let r := startLaunch s c kern ⟨entryArg s e 1, BitVec.ofNat 64 (entryArg s e 2), BitVec.ofNat 64 (entryArg s e 3), entryArg s e 4, c.part, none⟩
    (r.1, if r.1 = 0 then [(0, r.2.1)] else [], r.2.2)

def execHostLaunch (e : Nat) (s : State) : Host.Outcome State Fault Refusal :=
  serve (.hostLaunch e) (withCtx e fun c => answer e (hostLaunchWith c e)) s

/-- R298: the signed part of the record, with a nonce. -/
def attestBytes (s : State) (nonce : List Byte) : List Byte :=
  nonce ++ leBytes 8 Config.partId.toNat ++ leBytes 2 (activeCells s) ++ leBytes 1 (positionMask s fun p => p.used 2) ++
    leBytes 1 (positionMask s fun p => p.disabled) ++ leBytes 4 0 ++ leBytes 64 s.part.meas.toNat

def attestRecord (e : Nat) (s : State) : Nat × List (Nat × Nat) × List Upd :=
  if !hostRange (entryArg s e 0) 32 || !hostRange (entryArg s e 1) 228 then (0x100, [], [])
  else
    let bs := attestBytes s (hostBytes s (entryArg s e 0) 32)
    (0, [], [hostStore (entryArg s e 1) (bs ++ (Config.deviceSign bs ++ List.replicate 114 0#8).take 114 ++ [0#8, 0#8])])

def execAttest (e : Nat) (s : State) : Host.Outcome State Fault Refusal := serve (.attest e) (answer e (attestRecord e)) s

/-! ## Service (R303 to R305) -/

/-- R303: is a cell the last open one of a partition with a live launch? -/
def lastCell (s : State) (cell : Nat) : Bool :=
  s.part.launches.any fun l => cellHas l.part cell && !(List.range 192).any fun i => i != cell && cellOpen s l.part i

/-- The teams that stand on a cell, one that a team fault has stopped until it is saved. -/
def teamsOnCell (s : State) (cell : Nat) : List Team :=
  s.teams.filter fun x => x.placed && x.cores.any fun c => c / 4 == cell

/-- R303, R305: the teams of a cell are saved as they come to their resume points, to be restored elsewhere. One whose last thread has
exited is released, not saved (R44, R47). -/
def clearCell (e cell : Nat) : Eff := .read fun s =>
  .seq (.each (fun x => if x.res != .resident || !(s.teamThreads x.key).any Thread.live then .nothing else if teamQuiet s x.key then .seq (saveTeam x.key .swapped) (.upds [.event (.teamWake x.key)])
      else .upds [.team x.key fun y => { y with stopping := true }]) (teamsOnCell s cell)) <|
  .read fun s => if (teamsOnCell s cell).isEmpty then complete e 0 [] else .upds [.event (.celloff e)]

def execCelloff (e : Nat) (s : State) : Host.Outcome State Fault Refusal :=
  serve (.celloff e) (.read fun s =>
    let cell := entryArg s e 1
    if 192 ≤ cell ∨ !cellHas s.part.cellPresent cell then complete e 0x100 []
    else if !cellHas s.part.cellOff cell && lastCell s cell then complete e 0x101 []
    else .seq (.upds [.part fun p => { p with cellOff := p.cellOff ||| BitVec.ofNat 192 (2 ^ cell) }]) (clearCell e cell)) s

def execCellon (e : Nat) (s : State) : Host.Outcome State Fault Refusal :=
  serve (.cellon e) (.read fun s =>
    let cell := entryArg s e 1
    if 192 ≤ cell ∨ !cellHas s.part.cellPresent cell then complete e 0x100 []
    else .seq (.upds [.part fun p => { p with cellOff := p.cellOff &&& ~~~BitVec.ofNat 192 (2 ^ cell) }]) (complete e 0 [])) s

/-- R303: DRAIN: 0x101 when the frames find no room elsewhere (DESIGN CHOICE, log 36). -/
def drainPosition (e i : Nat) : Eff :=
  .seq (.upds [.pos i fun p => { p with draining := true }]) <| .read fun s =>
    if !roomFor (framesOn s i) s then .seq (.upds [.pos i fun p => { p with draining := false }]) (complete e 0x101 [])
    else .seq (moveAll (framesOn s i)) <| .seq (.upds [.pos i fun p => { p with quiesce := true }]) (complete e 0 [])

def execDrain (e : Nat) (s : State) : Host.Outcome State Fault Refusal :=
  serve (.drain e) (.read fun s =>
    if 8 ≤ entryArg s e 1 then complete e 0x100 [] else drainPosition e (entryArg s e 1)) s

def execUndrain (e : Nat) (s : State) : Host.Outcome State Fault Refusal :=
  serve (.undrain e) (.read fun s =>
    if 8 ≤ entryArg s e 1 then complete e 0x100 []
    else .seq (.upds [.pos (entryArg s e 1) fun p => { p with draining := false, quiesce := false }]) (complete e 0 [])) s

/-- R303: LANEOFF: the target names the lane in bits 7 to 0, the link in bits 15 to 8, the die in bits 23 to 16 (DESIGN CHOICE, log 36). -/
def execLaneoff (e : Nat) (s : State) : Host.Outcome State Fault Refusal :=
  serve (.laneoff e) (.read fun s =>
    let v := entryArg s e 1
    let l := v / 2 ^ 8 % 256
    if 16 ≤ v % 256 ∨ 6 ≤ l ∨ 4 ≤ v / 2 ^ 16 then complete e 0x100 []
    else .seq (retireLane (BitVec.ofNat 2 (v / 2 ^ 16)) (BitVec.ofNat 3 l) (v % 256)) (complete e 0 [])) s

def execServiceReserved (e : Nat) (s : State) : Host.Outcome State Fault Refusal := serve (.serviceReserved e) (complete e 0x100 []) s

/-- R282, R296: a reserved OP, or any but LOAD in recovery. -/
def execReservedRequest (e : Nat) (s : State) : Host.Outcome State Fault Refusal := serve (.reservedRequest e) (complete e 0xFFFFFFFF []) s

end Sys2Proof.Machine
end

