-- ==== Sys2Proof/Machine/Kernel.lean ====
section
/-! DEFINITION. What the resident kernel does on its own: unbacked pages made backed (R153 to R155), pages migrated (R157 to R159), offered
faults answered (R236), team faults served (R240), SYSCALLs finished (R438). -/

namespace Sys2Proof.Machine

/-! ## UEVICT and UQUOTA (R153 to R155) -/

/-- An entry's HOME. -/
def PtEntry.home (e : PtEntry) : Nat := e.bits / 2 ^ 60 % 4

/-- R155: a leaf made backed by frames from one on: its R, W, X, USR, G, HOME and MT stay. -/
def backedPte (e f : Nat) : Nat := e / 2 ^ 60 * 2 ^ 60 + f * 65536 + e % 65536

/-- A line of a page that has become backed by frames from `g` on: an ordinary dirty line, written to its frame too; where held lines fill
its set, its frame alone has it. -/
def rehome (f g : Nat) (l : L2Line) : Eff := .act fun s =>
  let line := g * 512 + (l.line - f * 512)
  (l.secs.map fun x => .store (line * 128 + x.i * 16) x.data) ++ (match makeRoom s l.die line with
    | some us => us ++
      [.part fun p => { p with l2 := { l with line := line, kind := 0, secs := l.secs.map fun x => { x with dirty := true } } :: p.l2 }]
    | none => [])

/-- R155: an unbacked page, of any size, takes frames; what commands under way have translated names them, and so do the translations that
the accesses that wait for it keep. -/
def convertPage (c : Ctx) (e : PtEntry) (g : Nat) : Eff := .read fun s =>
  let f := e.frame
  let n := e.frames
  .seq (.act fun s => giveRun s c.num g n ++ [uncacheRun f n]) <|
  .seq (.each (rehome f g) (runLines s f n)) <|
  .act fun s => homeWrite s e.place (leBytes 8 (backedPte e.bits g)) ++
    [moveOrders f n g,
     movePages (fun p => if f * 65536 ≤ p.pa ∧ p.pa < (f + n) * 65536 then { p with pa := g * 65536 + (p.pa - f * 65536), kind := 0 } else p)] ++
    moveStays s (fun t => if t.asid = c.asid ∧ t.level = e.level ∧ t.vpn = e.va / pageSize e.level then
      { t with pte := BitVec.ofNat 64 (backedPte t.pte.toNat g) } else t) ++
    [.part fun p => { p with reports := p.reports.filter fun r => match r with
        | .uevict x va => !(x == c.num && decide (e.va ≤ va.toNat) && decide (va.toNat < e.va + pageSize e.level))
        | _ => true }]

/-- UEVICT_CONVERSION: the kernel backs the unbacked page at an address with free frames, the first of them given; they stand as the
page's level asks (R143). Where no unbacked page is left, the report is served. -/
def execUevictConversion (ctx : Nat) (va : Nat) (frame : Nat) (s : State) : Host.Outcome State Fault Refusal :=
  run (.read fun s => match s.ctx? ctx with
    | none => served
    | some c => match (c.leafAt s va).filter fun e => pteBit e.bits 58 with
      | some e => if frame % e.frames = 0 ∧ (List.range e.frames).all (fun i => frameFree s (frame + i)) then convertPage c e frame else .nothing
      | none => served) s
where
  served : Eff := .upds [.served fun r => r == .uevict ctx (BitVec.ofNat 64 va)]

/-- R154: an unbacked line that the kernel names as a victim leaves under its page's policy. -/
def evictVictim (line : Nat) (s : State) : List Upd := match s.l2Line? line with
  | none => []
  | some l =>
    if l.kind = 2 then loseLine s line
    else if l.kind = 1 then [.report (.uevict l.ctx (BitVec.ofNat 64 l.va))]
    else []

/-- UQUOTA_SERVICE: the kernel raises the quota, or names victims among the context's unbacked lines. -/
def execUquotaService (ctx : Nat) (quota : Nat) (victims : List Nat) (s : State) : Host.Outcome State Fault Refusal :=
  run (.seq (.upds [.ctx ctx (fun c => { c with quota := max c.quota quota }), .served fun r => r == .uquota ctx]) <|
    .each (fun line => .act fun s => if (s.l2Line? line).any fun l => l.ctx == ctx then evictVictim line s else []) victims) s

/-! ## Migration (R157, R158) -/

/-- Is there no room for a held line at another home (R151)? -/
def homeFull (s : State) (die : Nat) (l : L2Line) : Bool := decide (12 ≤ (heldIn s die l.line).length)

/-- A line of a page moves to the new home, or leaves under its page's policy; a pinned line without room travels as an ordinary one, and
a line whose new set is full of held lines goes to its frame. -/
def moveLine (die : Nat) (l : L2Line) : Eff := .act fun s =>
  let place : Nat → List Upd := fun kind =>
    dropLine l.line :: (match makeRoom s die l.line with
      | some us => us ++ [.part fun p => { p with l2 := { l with die := die, kind := kind } :: p.l2 }]
      | none => l.writeBack)
  if lineHeld s l && homeFull s die l then (if l.kind = 2 then loseLine s l.line else place 4) else place l.kind

/-- The lines of the frames of a leaf. -/
def leafLines (s : State) (e : PtEntry) : List L2Line := runLines s e.frame e.frames

/-- The lines of a leaf that move, those of a page with DP = 0 before others, so that none of them meets a set that another has filled. -/
def movingLines (s : State) (die : Nat) (e : PtEntry) : List L2Line :=
  let ls := (leafLines s e).filter fun l => l.die != die
  ls.filter (fun l => l.kind == 1) ++ ls.filter fun l => l.kind != 1

/-- The lines of a page with DP = 0 that the new home cannot hold, when they move one after the other. -/
def stuckFrom (die : Nat) : List L2Line → State → List L2Line
  | [], _ => []
  | l :: ls, s => (if l.kind == 1 && homeFull s die l then [l] else []) ++ stuckFrom die ls ((moveLine die l).run s)
def stuckLines (s : State) (die : Nat) (e : PtEntry) : List L2Line := stuckFrom die (movingLines s die e) s

/-- R157: the lines move, leases and replicas of the page end, and its HOME changes, at one point. -/
def migrate (e : PtEntry) (home : Nat) : Eff := .read fun s =>
  let inPage : Nat → Bool := fun pa => decide (pteFrame e.bits ≤ pa) && decide (pa < pteFrame e.bits + pageSize e.level)
  .seq (.each (moveLine home) (movingLines s home e)) <|
  .act fun s => homeWrite s e.place (leBytes 8 (e.bits % 2 ^ 60 + home * 2 ^ 60 + e.bits / 2 ^ 62 * 2 ^ 62)) ++
    [.part fun p => { p with
      rdc := p.rdc.filter (fun x => !inPage (x.sector * 16)), hots := p.hots.filter (fun h => !inPage (h.line * 128)),
      redirects := p.redirects.filter (fun r => !inPage (r.2 * 128)), mcs := p.mcs.filter (fun m => !inPage (m.line * 128)),
      tlb := p.tlb.filter fun t => !inPage (pteFrame t.pte.toNat) },
     movePages (fun p => if inPage p.pa then { p with home := home } else p)] ++
    moveStays s fun t => if inPage (pteFrame t.pte.toNat) then
      { t with pte := BitVec.ofNat 64 (t.pte.toNat % 2 ^ 60 + home * 2 ^ 60 + t.pte.toNat / 2 ^ 62 * 2 ^ 62) } else t

/-- PAGE_MIGRATE: for a line that the kernel must first give a frame, UEVICT is raised, and the migration goes on when the page is
backed (R158). -/
def execPageMigrate (ctx : Nat) (va : Nat) (home : BitVec 2) (s : State) : Host.Outcome State Fault Refusal :=
  run (.read fun s => match (s.ctx? ctx).bind fun c => c.leafAt s va with
    | none => .nothing
    | some e =>
      if e.home = home.toNat then .nothing
      else if (stuckLines s home.toNat e).isEmpty then migrate e home.toNat
      else .upds [.report (.uevict ctx (BitVec.ofNat 64 (va / 65536 * 65536))), .event (.pageMigrate ctx va home)]) s

/-! ## Faults (R236, R240) -/

/-- The kernel puts a leaf over a virtual address: in place of the one that is there, or in the tables. -/
def grantPage (c : Ctx) (va pte : Nat) (s : State) : Option (List Upd) :=
  match c.leafAt s va with
  | some e => some (homeWrite s e.place (leBytes 8 pte))
  | none => mapPage c.num va pte 3 c.ptbase s

/-- No translation of an address is cached for a context any more, and no replica of its page is left (R177, R214). -/
def dropVa (asid : BitVec 16) (va : Nat) : Upd :=
  dropTranslations fun e => (e.asid == asid || pteBit e.pte.toNat 6) && e.vpn == va / pageSize e.level

/-- The thread goes on at its instruction. -/
def answerFault (t : TId) (va : BitVec 64) (reason : BitVec 4) (denied : Bool) : Eff :=
  .seq (.upds [.thread t fun x => { x with run := .running, denied := denied }]) <| .act fun s =>
    if s.threads.any fun x => x.run == .offered va reason then [] else [.served fun r => r == .fault va reason]

/-- FAULT_RESOLVED: the kernel maps the page or grants the permission with a leaf, or resolves nothing. -/
def execFaultResolved (t : TId) (resolved : Bool) (pte : BitVec 64) (s : State) : Host.Outcome State Fault Refusal :=
  run (.read fun s => match (s.th t).run with
    | .offered va reason =>
      if !resolved then answerFault t va reason true
      else match s.ctxOf t.team with
        | none => answerFault t va reason true
        | some c =>
          let f := pteFrame pte.toNat / 65536
          .seq (.upds (if frameFree s f then giveFrame s c.num f else [])) <| .read fun s =>
          match grantPage c va.toNat pte.toNat s with
          | none => answerFault t va reason true
          | some us => .seq (.upds (us ++ [dropVa c.asid va.toNat])) (answerFault t va reason false)
    | _ => .nothing) s

/-- TEAM_FAULT_SERVICE: once the team has stopped and is saved, the kernel resumes it, at a place that passes the check, or ends the
launch with END 2, the team and the cause (R386). The thread of a supervisor core goes on where it stood. -/
def execTeamFaultService (team : Nat) (resume : Bool) (s : State) : Host.Outcome State Fault Refusal :=
  run (.read fun s =>
    let x := s.tm team
    let told : Upd := .served fun r => match r with
      | .teamFault k _ => k == team
      | _ => false
    let later : Eff := .upds [.event (.teamFaultService team resume)]
    match x.res with
    | .faulted cause _ =>
      if x.sup.isSome then
        (if resume then .upds ([.team team (fun y => { y with res := .resident }), told] ++
          (s.teamThreads team).map fun y => .thread y.id fun z => { z with run := if z.run = .waiting .fault then .running else z.run })
         else .nothing)
      else if !x.off then later
      else if resume then (match placeOld s x with
        | some (p, f) => .seq (.upds [told]) (restoreTeam x p f)
        | none => later)
      else match s.launch? x.launch with
        | some l => .seq (.upds [told]) (endLaunch l (doneValue 2 x.idx cause))
        | none => .nothing
    | _ => .nothing) s

/-! ## SYSCALL (R438) -/

/-- The results of SYSCALL `n`: v0, and SETTRAP's write of TRAPVEC. -/
def serveSyscall (s : State) (t : TId) (n : Nat) : Word × List Upd :=
  if n ≠ 1 then (0xFFFFFFFF#32, [])
  else
    let v := (s.th t).val64 2#7
    if 2 ^ 56 ≤ v.toNat ∨ v.toNat % 4 ≠ 0 then (0xFFFFFFFE#32, [])
    else (0#32, match s.ctxOf t.team with
      | some c => [.ctx c.num fun c => { c with trapvec := v }]
      | none => [])

/-- SYSCALL_RETURN: results in v0 and v1 with poison clear; the thread resumes. -/
def execSyscallReturn (t : TId) (v1 : Word) (s : State) : Host.Outcome State Fault Refusal :=
  run (.act fun s => match (s.th t).run with
    | .syscall n =>
      let r := serveSyscall s t n.toNat
      r.2 ++ putRegs s t 0#7 [r.1, v1] ++ [.thread t (fun x => { x with run := .running }), .served fun r => r == .syscall t]
    | _ => []) s

end Sys2Proof.Machine
end

