-- ==== Sys2Proof/Machine/Queue.lean ====
section
/-! DEFINITION. Queues (R34 to R38, R413 to R417): QPUSH, QPOP, QFREE, the publication of a push with the start of a consumer, and the end
of a queue wait. -/

namespace Sys2Proof.Machine

/-- R34: the fields of a descriptor. -/
structure QDesc where
  base     : Nat
  slotSz   : Nat
  nslot    : Nat
  head     : Nat
  tail     : Nat
  free     : Nat
  full     : Nat
  consumer : Nat
deriving DecidableEq, Repr

def qdescOf (bs : List Byte) : QDesc :=
  ⟨fieldAt bs 0 8, fieldAt bs 8 4, fieldAt bs 12 4, fieldAt bs 16 8, fieldAt bs 24 8, fieldAt bs 32 8, fieldAt bs 40 8, fieldAt bs 48 8⟩

/-- R34: SLOTSZ and NSLOT are in range. -/
def QDesc.ok (q : QDesc) : Bool := [16, 32, 64, 128, 256].contains q.slotSz && decide (1 ≤ q.nslot) && decide (q.nslot ≤ 2 ^ 24)

/-- The address of slot number `n` of those ever reserved. -/
def QDesc.slotAt (q : QDesc) (n : Nat) : BitVec 64 := BitVec.ofNat 64 (q.base + n % q.nslot * q.slotSz)

/-- The words of a range. -/
def wordsFrom (va : BitVec 64) (n : Nat) : List (BitVec 64) := steppedFrom va 4 (n / 4)

/-- The bytes at the places of words. -/
def wordBytesAt (s : State) (a : Agent) (ps : List (BitVec 64 × Place)) : List Byte := ps.flatMap fun x => placeBytes s a x.2 4

/-- What an instruction has found of its queue: its address, the places of the descriptor's words, its fields. -/
structure QView where
  va     : BitVec 64
  places : List (BitVec 64 × Place)
  desc   : QDesc
deriving DecidableEq, Repr

/-- R413, checks 2 to 5, with the alignment of a record. -/
def withQueue (t : TId) (va : BitVec 64) (record : Option (BitVec 64)) (go : QView → Eff) : Eff := .read fun s =>
  let a := commandAgent s t
  if va.toNat % 64 ≠ 0 then trap t cAlign va
  else match record.filter fun r => r.toNat % 16 != 0 with
    | some r => trap t cAlign r
    | none => match pagePlaces a .atomic (wordsFrom va 64) s with
      | (.error (r, bad), us) => .seq (.upds us) (faultAt t r bad)
      | (.ok ps, us) => .seq (.upds (us ++ usedPlaces s a (ps.map Prod.snd))) <| .read fun s =>
        let q := qdescOf (wordBytesAt s a ps)
        match ps.find? fun x => orderBars s a x.2 with
        | some x => trap t cDorder x.1
        | none => if !q.ok then trap t cAlign va else go ⟨va, ps, q⟩

/-- R413, check 6: a range of pages that the operation touches. -/
def withRange (t : TId) (k : AccessKind) (va : BitVec 64) (n : Nat) (go : List (BitVec 64 × Place) → Eff) : Eff := .read fun s =>
  let a := commandAgent s t
  match pagePlaces a k (wordsFrom va n) s with
  | (.error (r, bad), us) => .seq (.upds us) (faultAt t r bad)
  | (.ok ps, us) => .seq (.upds us) <| .read fun s => match ps.find? fun x => orderBars s a x.2 with
    | some x => trap t cDorder x.1
    | none => go ps

/-- A 64-bit field of a descriptor is written: field number `n` of its 8 bytes. -/
def QView.set (q : QView) (a : Agent) (n v : Nat) : Eff :=
  .each (writeAt a) (((q.places.map Prod.snd).drop (2 * n)).zip [leBytes 4 v, leBytes 4 (v / 2 ^ 32)])

/-- R414: what the part keeps of a queue. -/
def State.queue (s : State) (ctx : Nat) (va : BitVec 64) : QueueRec :=
  (s.part.queues.find? fun q => q.ctx == ctx && q.addr == va).getD ⟨ctx, va, [], [], []⟩

def Upd.queue (s : State) (ctx : Nat) (va : BitVec 64) (f : QueueRec → QueueRec) : Upd := .part fun p =>
  { p with queues := f (s.queue ctx va) :: p.queues.filter fun q => !(q.ctx == ctx && q.addr == va) }

/-- R415: is a launch that has pushed on the queue still live? -/
def producerLive (s : State) (ctx : Nat) (va : BitVec 64) : Bool := (s.queue ctx va).producers.any fun l => (s.launch? l).any fun l => l.fin.isNone

/-- R273: a queue has moved: the launches that push on it, pop from it or consume it make progress. -/
def queueMoved (s : State) (ctx : Nat) (va : BitVec 64) : List Upd :=
  let q := s.queue ctx va
  (s.part.launches.filter fun l => q.producers.contains l.key || q.consumers.contains l.key || (l.ctx == ctx && l.queue == some va)).map
    fun l => .launch l.key fun l => { l with progress := s.time, stalled := false }

/-- R273, R415: a launch is one of a queue's consumers. -/
def QueueRec.consumedBy (launch : Nat) (r : QueueRec) : QueueRec :=
  { r with consumers := launch :: r.consumers.filter (· != launch) }

/-- R273: a pop or a free of a thread moves its queue. -/
def popMoved (t : TId) (va : BitVec 64) : Eff :=
  .seq (.act fun s => [Upd.queue s (ctxNum s t.team) va (QueueRec.consumedBy (s.tm t.team).launch)])
    (.act fun s => queueMoved s (ctxNum s t.team) va)

/-- A thread waits for its queue. -/
def waitQueue (t : TId) : Eff := .seq (.wait t .queue) (.upds [.event (.queueWaitWake t)])

/-- R414: the reservation and the copy; the publication follows. -/
def pushRecord (i : Instr) (tok : Nat) (t : TId) (wc : BitVec 3) (q : QView) (src dst : List (BitVec 64 × Place)) : Eff := .read fun s =>
  let a := commandAgent s t
  let ctx := ctxNum s t.team
  let launch := (s.tm t.team).launch
  if q.desc.free = 0 then waitQueue t
  else match engineBlocked s a ((dst ++ q.places).map Prod.snd) with
    | some w => .waitServed t w
    | none =>
      .seq (q.set a 4 (q.desc.free - 1)) <| .seq (q.set a 2 (q.desc.head + 1)) <|
      .seq (.act fun s => usedPlaces s a (src.map Prod.snd)) <|
      .seq (.read fun s => .each (writeAt a) ((dst.map Prod.snd).zip (src.map fun x => placeBytes s a x.2 4))) <|
      .seq (freshAfterAll t ((q.places ++ src ++ dst).map Prod.snd)) <|
      .seq (.act fun s => [Upd.queue s ctx q.va fun r =>
        { r with producers := launch :: r.producers.filter (· != launch), due := r.due ++ [s.nextId] }]) <|
      .seq (.act fun s => queueMoved s ctx q.va) <|
      .seq (.done t i.len) <|
      addOp tok t wc none none (s.gr t.gid).core
        (.qpush q.va (q.desc.head % q.desc.nslot) ctx launch (((q.places.map Prod.snd).drop 10).take 2)) fun id => some (.qpushPublish id)

def execQpush (q r : VReg) (wc : BitVec 3) (la : BitVec 4) (s : State) : Host.Outcome State Fault Refusal :=
  let i : Instr := .qpush q r wc la
  run (issueCounted i wc (pairOf q ++ pairOf r) (commanding wc fun tok t => .read fun s =>
    let x := s.th t
    withQueue t (x.val64 q) (some (x.val64 r)) fun v =>
      withRange t .load (x.val64 r) v.desc.slotSz fun src =>
        withRange t .store (v.desc.slotAt v.desc.head) v.desc.slotSz fun dst => pushRecord i tok t wc v src dst)) s

/-- R415: QPOP takes a filled slot, waits, or reports an empty queue; vd is written when it completes, pm in the order of the program
(R62). -/
def popSlot (i : Instr) (tok : Nat) (t : TId) (wc : BitVec 3) (la : Nat) (d : VReg) (p : PReg) (q : QView) : Eff := .read fun s =>
  let a := commandAgent s t
  let end_ : Word → Bool → Eff := fun v b =>
    .seq (.upds [putPred t p ⟨b, false, 0#3⟩]) (.seq (.done t i.len) (returns tok t wc d [v] la))
  if 0 < q.desc.full then
    match engineBlocked s a (q.places.map Prod.snd) with
    | some w => .waitServed t w
    | none => .seq (q.set a 5 (q.desc.full - 1)) <| .seq (q.set a 3 (q.desc.tail + 1)) <|
      .seq (.act fun s => acquire s t) <| .seq (popMoved t q.va) (end_ (BitVec.ofNat 32 (q.desc.tail % q.desc.nslot)) true)
  else if producerLive s (ctxNum s t.team) q.va then waitQueue t
  else end_ 0xFFFFFFFF#32 false

def execQpop (d q : VReg) (wc : BitVec 3) (la : BitVec 4) (p : PReg) (s : State) : Host.Outcome State Fault Refusal :=
  let i : Instr := .qpop d q wc la p
  run (issueCounted i wc (pairOf q) (commanding wc fun tok t => .read fun s =>
    withQueue t ((s.th t).val64 q) none fun v =>
      withRange t .load (v.desc.slotAt v.desc.tail) v.desc.slotSz fun _ => popSlot i tok t wc la.toNat d p v)) s

/-- R416: QFREE returns a slot, as a release. -/
def execQfree (q : VReg) (wc : BitVec 3) (la : BitVec 4) (s : State) : Host.Outcome State Fault Refusal :=
  let i : Instr := .qfree q wc la
  run (issueCounted i wc (pairOf q) (commanding wc fun _ t => .read fun s =>
    withQueue t ((s.th t).val64 q) none fun v => .read fun s =>
      let a := commandAgent s t
      match engineBlocked s a (v.places.map Prod.snd) with
      | some w => .waitServed t w
      | none => .seq (v.set a 4 (min (v.desc.free + 1) v.desc.nslot)) <| .seq (freshAfterAll t (v.places.map Prod.snd)) <|
        .seq (popMoved t v.va) (.done t i.len))) s

/-- R37, R417: a queue whose FULL has risen from zero starts its consumer, unless its context has a live launch of that kernel. -/
def startConsumer (ctx launch : Nat) (va : BitVec 64) (q : QDesc) : Eff := .act fun s =>
  if q.full ≠ 0 ∨ q.consumer = 0 ∨
      (s.part.launches.any fun l => l.ctx == ctx && l.kern.addr == some (BitVec.ofNat 64 q.consumer) && l.fin.isNone) then []
  else match s.ctx? ctx with
    | none => []
    | some c =>
      let part := match s.launch? launch with
        | some l => l.part
        | none => c.part
      (startLaunch s c (c.kernelAt (BitVec.ofNat 64 q.consumer)) ⟨0, va, 0#64, 0, part, some va⟩).2.2

/-- The bytes of a descriptor of a context's queue, as the part reads them. -/
def descAt (s : State) (ctx : Nat) (va : BitVec 64) : Option QDesc := match s.ctx? ctx with
  | none => none
  | some c => match pageFor s c linkIssuer false true .load va.toNat 64 with
    | (.ok p, _) => some (qdescOf (homeBytes s p.pa 64))
    | (.error _, _) => none

/-- R414: the publication of a push, when the earlier reservations of the queue are published and the team, if it is still there, holds
its place: FULL rises as a release and the push completes; else what is to be done `later`. -/
def publish (op : Nat) (later : Eff) : Eff := .read fun s =>
    match ((s.op? op).map fun o => (o.t, o.job) : Option (TId × Job)) with
    | some (t, .qpush va _ ctx launch full) =>
      let a : Agent := { commandAgent s t with ctx := ctx }
      if (s.team? t.team).any (fun x => !(x.here || x.res == .retired)) || (s.queue ctx va).due.head? != some op then later
      else match engineBlocked s a full with
        | some w => .seq (.upds [Upd.report w.2]) later
        | none =>
          let n := leNat (full.flatMap fun pl => placeBytes s a pl 4)
          .seq (.each (writeAt a) (full.zip [leBytes 4 (n + 1), leBytes 4 ((n + 1) / 2 ^ 32)])) <|
          .seq (freshAfterAll t full) <| .seq (.act fun s => [Upd.queue s ctx va fun r => { r with due := r.due.drop 1 }]) <|
          .seq (.read fun s => match descAt s ctx va with
            | some q => startConsumer ctx launch va { q with full := n }
            | none => .nothing) <|
          .seq (completeOp op) (.act fun s => queueMoved s ctx va)
    | _ => .nothing

/-- QPUSH_PUBLISH: owed until the push is published. -/
def execQpushPublish (op : Nat) (s : State) : Host.Outcome State Fault Refusal :=
  run (publish op (.upds [.event (.qpushPublish op)])) s

/-- R41: may a thread that waits for its queue try again: FREE or FULL is above zero, or no producer is live? An address that faults
meets its fault at the instruction. -/
def queueReady (s : State) (x : Thread) : Bool :=
  let look : VReg → (QDesc → Bool) → Bool := fun q f =>
    let a := commandAgent s x.id
    match (pagePlaces a .atomic (wordsFrom (x.val64 q) 64) s).1 with
    | .error _ => true
    | .ok ps => f (qdescOf (wordBytesAt s a ps))
  match x.instr with
  | .qpush q _ _ _ => look q fun d => d.free != 0
  | .qpop _ q _ _ _ => look q fun d => d.full != 0 || !producerLive s (ctxNum s x.id.team) (x.val64 q)
  | _ => true

/-- QUEUE_WAIT_WAKE: the instruction is tried again; owed while the thread waits. -/
def execQueueWaitWake (t : TId) (s : State) : Host.Outcome State Fault Refusal :=
  run (.act fun s =>
    match (s.th t).run with
    | .waiting .queue =>
      if queueReady s (s.th t) then [.thread t fun x => { x with run := .running }] else [.event (.queueWaitWake t)]
    | _ => []) s

end Sys2Proof.Machine
end

