-- ==== Sys2Proof/Machine/Advance.lean ====
section
/-! DEFINITION. The parts of a step: what a turn finds settled, the front of an issue group (fetch and check of its clause, the passing of
void instructions), a TIME cycle, and the policy that chooses the next turn (DESIGN CHOICE, log 4). -/

namespace Sys2Proof.Machine

/-! ## What a turn finds settled -/

/-- R22: the rendezvous that resolve are over. -/
def settleAll : Eff := .read fun s =>
  .each settleLanes ((s.groups.filter fun g => (s.threadsOf g.id).any fun x => x.run == .waiting .rendezvous).map Group.id)

/-- What every issue group finds: rendezvous that resolve are over, and the pending groups that are ready are noted (R17). -/
def prepared : Eff := .seq settleAll (.act markReady)

/-! ## The front of an issue group -/

/-- The core that issues a thread: a slot of a microscope core (R249), a supervisor core, or its home core. -/
def issueCore (s : State) (x : Thread) : Nat :=
  let g := s.gr x.id.gid
  match g.hosted with
  | some h => 1024 + 2 * h.m + h.slot.toNat
  | none => if s.isSup x.id.team then 2048 + x.id.team else g.core

/-- R13: the lane of a thread on its core. -/
def laneOf (s : State) (t : TId) : Nat := (s.gr t.gid).base + t.idx

/-- R15: do two threads stand at one instruction: of one core and context, at one PC and word, at one execution of a REPEAT (log 7)? They may
be of several groups. -/
def together (s : State) (x y : Thread) : Bool :=
  issueCore s x == issueCore s y && ctxNum s x.id.team == ctxNum s y.id.team && (s.tm x.id.team).gen == (s.tm y.id.team).gen &&
    x.pc == y.pc && x.widx == y.widx && x.rep == y.rep

/-- The order of threads in an issue group: team, group, index. -/
def nameBefore (t u : TId) : Bool :=
  decide (t.team < u.team) || (t.team == u.team && (decide (t.group < u.group) || (t.group == u.group && decide (t.idx < u.idx))))

/-- May these threads form an issue group: eligible threads at one instruction, at most one per lane, in their order (R15)? A microscope core
executes one thread at a time (R249). -/
def issuable (s : State) (ths : List TId) : Bool :=
  match ths with
  | [] => false
  | t :: ts =>
    let x := s.th t
    ths.all (fun u => (s.thread? u).isSome && eligible s (s.th u) && together s x (s.th u)) &&
      ((ths.zip ts).all fun p => nameBefore p.1 p.2) && decide (ths.map (laneOf s)).Nodup && (ts.isEmpty || (s.gr t.gid).hosted.isNone)

/-- The parts of an issue group that execute one after the other: the threads of one group that stand alike. -/
def partsOf (s : State) : Nat → List TId → List (List TId)
  | 0, _ => []
  | _, [] => []
  | n + 1, t :: ts =>
    let alike : TId → Bool := fun u => (s.th t).sameStand (s.th u)
    (t :: ts.filter alike) :: partsOf s n (ts.filter fun u => !alike u)

/-- R64, R67, R421: a thread passes a void instruction; a REPEAT takes its target along, and counts its executions in open
windows (R60). -/
def passVoid (i : Instr) (t : TId) : Eff := .read fun s =>
  let x := s.th t
  .seq (if i.crossLane then passLane t else .nothing) <|
  .seq (traceRecord s t i true) <|
  match i with
  | .repeatN _ _ n =>
    let tl := match x.clause with
      | some c => (c.instrAt (x.widx + 1) none).len
      | none => 1
    .seq (.done t (1 + tl)) (.upds (List.replicate (n.toNat + 1) (shrinkWindows t)))
  | _ => .done t i.len

/-- What the front of an issue group leaves: the step is over, or an instruction executes. -/
inductive Front where
  | done (s : State)
  | exec (i : Instr) (s : State)

/-- The instruction at which the threads stand, void or not. -/
def frontAt (t : TId) (s : State) : Front :=
  let x := s.th t
  let i := x.instr
  if x.voided then
    .done ((Eff.seq (perThread (passVoid i)) (if i.crossLane then settleLanes t.gid else .nothing)).run s)
  else .exec i s

/-- The threads enter the clause they stand at (R50 to R53, R238). In generation 1 no ICLAUSE arises: an extension word that ERET names is
decoded where it stands, as a branch to it would have it (R77; DEDUCED, log 26). -/
def frontEnter (t : TId) (s : State) : Front :=
  let x := s.th t
  let e := fetchClause s t x.pc
  let s := s.applyAll e.2
  match e.1 with
  | .fault r va => .done ((perThread fun u => offer u va r (takeTrap u cPfault va r 1)).run s)
  | .bad c v => .done ((perThread fun u => takeTrap u c v 0 1).run s)
  | .ok c =>
    let s := (perThread fun u => .seq (observe u c.wait) <| .seq (closeOperandWindows u fun w => c.wait.getLsbD w.wc.toNat)
      (.upds [.thread u fun y => y.enter c])).run s
    let y := s.th t
    if y.clause.isNone then .done s
    else if !c.isInstr y.widx then .done ((perThread fun u =>
      if c.implicit then .upds [.thread u fun y => y.goTo (wordAddr y.pc true y.widx)]
      else takeTrap u cIclause (BitVec.ofNat 64 y.widx) 0 1).run s)
    else frontAt t s

/-- R452: the arithmetic cycles of the current TIME cycle. -/
def Cluster.cyclesNow (c : Cluster) : Nat := (c.half + c.halfRate) / 2 - c.half / 2

/-- R452: has a thread of a work core issued between two states? -/
def issuedBy (s s' : State) (t : TId) : Bool :=
  (s.gr t.gid).hosted.isNone && !s.isSup t.team && (decide (s.stamp ≤ (s'.th t).stamp) || !(s'.th t).live)

/-- R452: a turn in which a thread of a work core issues takes a cycle of its core: one of those of the current TIME cycle that the core has
not taken (log 48). -/
def countIssue (s s' : State) (ths : List TId) : List Upd :=
  match ths.find? (issuedBy s s') with
  | none => []
  | some t =>
    let core := (s.gr t.gid).core
    [.cluster (clusterOf core) fun c =>
      let taken := if c.busyAt = s.time then c.busy else []
      if taken.count core < c.cyclesNow then { c with issued := c.issued + 1, busy := core :: taken, busyAt := s.time } else c]

/-- A thread that ERET has sent into a clause beyond its first word takes its place in it, as far as the clause can be had; its guard is
kept (R238). -/
def Thread.reenter (x : Thread) (e : Entry) : Thread :=
  if x.clause.isSome ∨ x.widx ≤ 1 then x
  else match e with
    | .ok c => x.enter c
    | _ => match x.resumeG with
      | some g => { x with ifpN := 1, ifpG := g }
      | none => x

/-- R234: WATCH for a store that a drain has performed, before the thread issues any further instruction; its resume word is where the thread
stands. -/
def takeWatch (t : TId) : Eff := .read fun s =>
  let x := s.th t
  match x.watch with
  | none => .nothing
  | some (va, r) =>
    let e := fetchClause s t x.pc
    .seq (.upds (e.2 ++ [.thread t fun x => { x.reenter e.1 with watch := none }])) (.read fun s => takeTrap t cWatch va r (s.th t).widx)

/-- The front of a part of an issue group. -/
def front (ths : List TId) (s : State) : Front :=
  match ths with
  | [] => .done s
  | t :: _ =>
    let s := { s with cur := ⟨t.gid, ths⟩ }
    if ths.any fun u => (s.th u).watch.isSome then .done ((perThread takeWatch).run s)
    else if (s.th t).clause.isNone then frontEnter t s else frontAt t s

/-! ## A microscope core (R249) -/

/-- What an operation of a hosted thread does without depending on another thread. -/
def finishHosted (o : Op) : Eff := match o.job with
  | .load _ _ | .access _ _ | .combined _ | .result | .poisoned _ | .obld _ _ _ => completeOp o.id
  | .ldmc _ lines dest dests was hits => .seq (.act fun s => deliverLines s dest dests lines was hits) (completeOp o.id)
  | .asend ctx num rank rows => landSend o.id ctx num rank rows
  | .copy c => .each (fun _ => copyTurn o.id) (List.range (c.rows + 1))
  | .accld _ | .accst _ => .read fun s => if accAway s o || (accBlocked s o).isSome then .nothing else .seq (moveAcc o) (completeOp o.id)
  | .waitge va target => readCounter o.t o.id va target
  | .qpush _ _ _ _ _ => publish o.id .nothing
  | .matrix _ | .coll _ _ | .status _ _ | .sign _ | .obres _ _ | .await _ _ | .arel _ _ _ => .nothing

/-- R249: what a hosted thread's instruction does without depending on another thread is complete before the next thread starts. -/
def hostedEnd : Eff := .read fun s =>
  if (s.gr s.cur.gid).hosted.isNone then .nothing
  else perThread fun t => .seq (.act fun s => drainBuffer s t) <|
    .read fun s => .each finishHosted (s.part.ops.filter fun o => o.t == t)

/-- What ends the turn of an issue group from a state: on a microscope core all that it does alone; its cycle is counted (R452). -/
def ended (s : State) (ths : List TId) : Host.Outcome State Fault Refusal → Host.Outcome State Fault Refusal
  | .next s' =>
    let s' := hostedEnd.run s'
    .next (s'.applyAll (countIssue s s' ths))
  | r => r

/-! ## A TIME cycle -/

/-- The reports that ask nothing more of the resident kernel than to be told: they are served when no thread waits for an event (R376); a
DOORBELL is, when the ring is empty. -/
def Report.told (ringDone : Bool) : Report → Bool
  | .doorbell => ringDone
  | .timeout _ | .stalled _ | .groupDown _ _ | .doneFault _ _ | .exportFault _ => true
  | _ => false

/-- What a TIME cycle brings up to date: since when a team waits without a break (R41), which pending groups are ready (R18), whether a
counter has moved for which a launch waits (R273), which reports are served. -/
def refresh (s : State) : List Upd :=
  (s.teams.filterMap fun x =>
    if x.sup.isSome then none
    else if teamWaits s x.key && x.res == .resident then
      (if x.waitAt.isNone || !waitUnbroken s x then
        (s.ctx? x.ctx).map fun c => .team x.key fun y => { y with waitAt := some (s.time, c.waitThr), waitStamp := s.stamp } else none)
    else if x.waitAt.isSome then some (.team x.key fun y => { y with waitAt := none }) else none) ++
  markReady s ++
  (s.part.launches.filterMap fun l =>
    let now := waitedCounters s l
    if now = l.seen then none else some (.launch l.key fun l => { l with seen := now, progress := s.time, stalled := false })) ++
  (if s.threads.any fun x => x.run == .waiting .idle then [] else [.served (Report.told (nextRequest s).isNone)])

/-- R270: the energies of accumulators `0` to `n - 1` that a TIME cycle adds, within a budget: each a free amount (DESIGN CHOICE, log 12), the
last word of a die's eight nothing. -/
def energyAdded (time budget : Nat) : Nat → List Nat
  | 0 => []
  | n + 1 =>
    let before := energyAdded time budget n
    before ++ [if n % 8 = 7 then 0 else min (Config.energy n time).toNat (budget - before.sum)]

/-- R270: what all the accumulators may hold after `time` TIME cycles of 5 ns at 3.0 kW, in units of 2⁻¹⁶ J. -/
def energyBound (time : Nat) : Nat := time * 98304 / 100000

/-- R270: the energy a TIME cycle adds; an accumulator never wraps. -/
def addEnergy (s : State) : Upd :=
  let held := (s.part.dies.toList.flatMap fun d => d.energy.toList.map BitVec.toNat).sum
  let more := energyAdded s.time (energyBound s.time - held) 32
  .part fun p => { p with dies := p.dies.mapIdx fun d x =>
    { x with energy := x.energy.mapIdx fun i e => BitVec.ofNat 64 (min (2 ^ 64 - 1) (e.toNat + more.getD (8 * d + i) 0)) } }

/-- A TIME cycle; the waves that fall due in it leave in it (R266). -/
def tickEff : Eff :=
  .seq (.upds [.tick]) <| .seq settleAll <| .seq (.act fun s => refresh s ++ [addEnergy s]) (.each sendWave (List.range 16))

/-! ## The policy -/

/-- Names in the order of an issue group. -/
def insertName (t : TId) : List TId → List TId
  | [] => [t]
  | u :: us => if nameBefore t u then t :: u :: us else u :: insertName t us

/-- R15: the issue group of the table entry that holds the oldest eligible thread: the eligible threads at that entry's PC, at that thread's
instruction (log 7), of two on one lane the older; on a microscope core one thread (R249). -/
def nextIssue (s : State) : Option (List TId) :=
  let el := s.threads.filter (eligible s)
  (oldestOf el).map fun x =>
    let here := el.filter fun y => issueCore s y == issueCore s x
    let at_ := here.filter fun y => pcTable here (pcEntry x.pc) == some y.pc && together s x y
    let lanes := at_.filter fun y => !at_.any fun z => laneOf s z.id == laneOf s y.id && before z y
    let ths := (lanes.map Thread.id).foldr insertName []
    if (s.gr x.id.gid).hosted.isSome then ths.take 1 else ths

/-- What the resident kernel serves when nothing else decides: a page is backed, a quota is raised by one
line, an offered fault is not resolved, a SYSCALL returns,
a launch with a team fault ends (DESIGN CHOICE, log 4). -/
def kernelService (s : State) : Option Instr :=
  let backs : Report → Option Instr := fun r => match r with
    | .uevict ctx va =>
      let n := (((s.ctx? ctx).bind fun c => c.leafAt s va.toNat).map PtEntry.frames).getD 1
      (freeRun s n).map fun f => .uevictConversion ctx va.toNat f
    | .uquota ctx => (s.ctx? ctx).map fun c => .uquotaService ctx (c.quota + 1) []
    | _ => none
  let answers : Thread → Option Instr := fun x => match x.run with
    | .offered _ _ => some (.faultResolved x.id false 0#64)
    | .syscall _ => some (.syscallReturn x.id 0#32)
    | _ => none
  let ends : Team → Option Instr := fun x => match x.res with
    | .faulted _ _ => if x.sup.isNone && x.off && (s.launch? x.launch).isSome then some (.teamFaultService x.key false) else none
    | _ => none
  ((s.part.reports.findSome? backs).or (s.threads.findSome? answers)).or (s.teams.findSome? ends)

/-- R17, R18, R27, R41, R150, R264: what falls due by the state alone. -/
def dueEvent (s : State) : Option Instr :=
  let work := s.groups.filter fun g => !s.isSup g.id.team && g.hosted.isNone
  let pendingOn : Nat → Bool := fun c => work.any fun g => g.core == c && !g.active && groupReady s g.id
  let swap := (work.find? fun g => g.active && givesWay s g.id && pendingOn g.core).map fun g => Instr.activeSetSwap g.core g.id
  let promote := (work.find? fun g => !g.active && groupReady s g.id && (decide (activeOn s g.core < 8) ||
    g.readyAt.any fun c => decide (c + 4096 ≤ s.cycle g.core))).map fun g => Instr.pendingPromote g.core g.id
  let grant := (s.threads.find? fun x => x.run.rejected && decide (0 < entriesFree s (s.gr x.id.gid).core)).map fun x =>
    Instr.mshrGrant (s.gr x.id.gid).core
  let out := (s.teams.find? fun x => x.res == .resident && waitedOut s x).map fun x => Instr.swapOut x.key
  let grow := (s.groups.find? fun g => !g.grows.isEmpty && growStuck s g.core).map fun g => Instr.growDeadlockFail g.core
  let ratio := ((List.range 16).find? (periodOver s)).map fun c => Instr.ratioSelect c (defaultRatio s c) 0#1
  ((((swap.or promote).or grant).or out).or grow).or (ratio.or (kernelService s))

/-- The next turn: the schedule; before the part has booted, its boot; else events and issue groups alternate, and TIME
passes after six issues or when nothing may issue (DESIGN CHOICE, log 4). -/
def nextTurn (s : State) : Turn × State :=
  match s.sched with
  | x :: xs => (x, { s with sched := xs })
  | [] =>
    if s.part.bootst = 0#8 then (.event .coldPowerOn, s)
    else
      let issueTurn : State → Turn × State := fun s =>
        match (if s.since < 6 then nextIssue (prepared.run s) else none) with
        | some ths => (.issue ths, { s with since := s.since + 1 })
        | none => (.tick, { s with since := 0 })
      if s.evTurn then
        let owed : Option (Turn × State) := match s.events with
          | e :: es => some (.event e, { s with events := es, evTurn := false })
          | [] => none
        let due : Option (Turn × State) := (dueEvent s).map fun e => (.event e, { s with evTurn := false })
        ((if (s.since + s.time) % 2 = 0 then due.or owed else owed.or due)).getD (issueTurn { s with evTurn := true })
      else issueTurn { s with evTurn := true }

/-! ## Placing a word (DESIGN CHOICE, log 21) -/

/-- The clause that holds an instruction word and its extension word, with what its entry needs after it: the covered
instructions of an IFP, the target of a REPEAT. -/
def clauseFor (nbits w : Nat) : List Word :=
  let v := w % 2 ^ nbits
  let w0 : Word := BitVec.ofNat 32 v
  let m := (field w0 26 6).toNat
  let ext := if hasExtension w0 then [BitVec.ofNat 32 (v / 2 ^ 32)] else []
  let pad : List Word :=
    if m = 0x14 then List.replicate (field w0 0 4).toNat 0x5C000000#32
    else if m = 0x15 then [0x04000000#32] else []
  let body := w0 :: ext ++ pad
  let cls := if m = 0x14 then 4 else if m = 0x15 then 0 else classOf m
  BitVec.ofNat 32 (0xA7000000 + cls * 256 + body.length % 16) :: body

/-- Bytes of a list of words in memory. -/
def wordBytes (ws : List Word) : List Byte := ws.flatMap fun w => leBytes 4 w.toNat

/-- The context whose level-3 table stands at physical address 0x1_0000. -/
def bootCtx (asid : BitVec 16) : Ctx where
  num := 0
  asid := asid
  gen := 3
  dbg := true
  waitThr := 20000
  ptbase := 0x10000
  trapvec := 0#64
  emuvec := 0#64
  quota := 0
  savesz := 0
  part := BitVec.allOnes 192
  kernels := []
  peers := []
  exports := []
  nextLaunch := 0
  ranges := []

def placeWord (s : State) (nbits w : Nat) : State :=
  let t : TId := ⟨0, 0, 0⟩
  let asid := s.part.supAsid.toList.headD 0#16
  let lines := [0x20, 0x200, 0x400]
  let s1 := s.applyAll
    [.part fun p => { p with ctxs := bootCtx asid :: p.ctxs, frames := (0, 0) :: (0, 1) :: (0, 2) :: p.frames, tlb := [], l2 := p.l2.filter fun l => !lines.contains l.line },
     .store 0x1000 (wordBytes (clauseFor nbits w)),
     .store 0x10000 (leBytes 8 0x20001),
     .store 0x20000 (leBytes 8 0x3F),
     .thread t fun x => { x.goTo 0x1000#64 with run := .running, noMatch := false }]
  { s1 with sched := .issue [t] :: s1.sched }

end Sys2Proof.Machine
end

