-- ==== Sys2Proof/Machine/Int.lean ====
section
/-! DEFINITION. The integer, logic, move and literal instructions: majors 0x01 to 0x09 (R58, R70, R308, R322, R333, R335, R339,
R341, R377, R378, R392, R394, R399, R405, R409, R410, R423, R448), which act on each thread separately and propagate poison
(R148, R348). -/

namespace Sys2Proof.Machine

/-! ## The shape of an arithmetic instruction -/

/-- R148: a result that reads registers in the order of a list: poisoned, with the index of the first poisoned one. -/
def Thread.result (x : Thread) (srcs : List VReg) (w : Word) : Reg :=
  match x.poisoned srcs with
  | some k => ⟨w, true, k⟩
  | none => ⟨w, false, 0#3⟩

/-- An instruction that writes one register from registers of its thread, in the order of `srcs`, and from its group. -/
def alu (i : Instr) (d : VReg) (srcs : List VReg) (f : Thread → Group → Word) : Eff :=
  issue i [] [] fun t => .seq (.act fun s => putReg s t d ((s.th t).result srcs (f (s.th t) (s.gr t.gid)))) (.done t i.len)

/-- One source. -/
def alu1 (i : Instr) (d a : VReg) (f : Word → Word) : Eff := alu i d [a] fun x _ => f (x.val a)
/-- Two sources. -/
def alu2 (i : Instr) (d a b : VReg) (f : Word → Word → Word) : Eff := alu i d [a, b] fun x _ => f (x.val a) (x.val b)
/-- Three sources, the destination being the third. -/
def alu3 (i : Instr) (d a b : VReg) (f : Word → Word → Word → Word) : Eff :=
  alu i d [a, b, d] fun x _ => f (x.val a) (x.val b) (x.val d)

/-- A comparison writes a predicate; its poison follows R148. -/
def compare (i : Instr) (p : PReg) (a b : VReg) (f : Word → Word → Bool) : Eff :=
  issue i [] [] fun t => .seq (.act fun s =>
    let x := s.th t
    let r := x.result [a, b] 0#32
    [putPred t p ⟨f (x.val a) (x.val b), r.poison, r.idx⟩]) (.done t i.len)

/-! ## Functions of words -/

/-- R377: bits 63 to 32 of the signed product. -/
def mulHighS (a b : Word) : Word := (a.signExtend 64 * b.signExtend 64).extractLsb' 32 32
/-- R377: bits 63 to 32 of the unsigned product. -/
def mulHighN (a b : Word) : Word := (a.setWidth 64 * b.setWidth 64).extractLsb' 32 32
def minS (a b : Word) : Word := if b.slt a then b else a
def minN (a b : Word) : Word := if b.ult a then b else a
def maxS (a b : Word) : Word := if a.slt b then b else a
def maxN (a b : Word) : Word := if a.ult b then b else a
/-- R377: the absolute value modulo 2^32. -/
def absW (a : Word) : Word := if a.msb then 0#32 - a else a
/-- R377: va when vd is not zero, otherwise vb. -/
def selW (a b d : Word) : Word := if d = 0#32 then b else a

/-- R378: an operation on each half. -/
def halves (f : BitVec 16 → BitVec 16 → BitVec 16) (a b : Word) : Word :=
  f (a.extractLsb' 16 16) (b.extractLsb' 16 16) ++ f (a.extractLsb' 0 16) (b.extractLsb' 0 16)
/-- R308: the signed maximum of a half, its bit 0 the decision: 1 when vb's half was taken. -/
def maxDecide (a b : BitVec 16) : BitVec 16 :=
  if a.slt b then b ||| 1#16 else a &&& ~~~1#16

/-- R423: the shift count. -/
def shiftOf (b : Word) : Nat := b.toNat % 32
/-- R333: position and width of a bit field. -/
def fieldPos (b : Word) : Nat := b.toNat % 32
def fieldWidth (b : Word) : Nat := min (b.toNat / 256 % 64) 32
/-- R333: a field of `w` bits, zero-extended; all of the word when `w` is 32. -/
def lowBits (w : Nat) (x : Word) : Word := BitVec.ofNat 32 (x.toNat % 2 ^ w)
def bfxN (a b : Word) : Word := lowBits (fieldWidth b) (a >>> fieldPos b)
def bfxS (a b : Word) : Word :=
  let w := fieldWidth b
  let x := lowBits w (a.sshiftRight (fieldPos b))
  if w = 0 then 0#32 else if w < 32 ∧ x.getLsbD (w - 1) then x ||| (0xFFFFFFFF#32 <<< w) else x
def bfiW (a b d : Word) : Word :=
  let m : Word := BitVec.ofNat 32 (2 ^ fieldWidth b - 1) <<< fieldPos b
  (d &&& ~~~m) ||| ((a <<< fieldPos b) &&& m)

/-- R410: the number of 1 bits among the low `n`. -/
def countOnes (x : Word) : Nat → Nat
  | 0 => 0
  | n + 1 => (if x.getLsbD n then 1 else 0) + countOnes x n
/-- R339: the number of 0 bits above the highest 1 bit among the low `n`. -/
def leadingZeros (x : Word) : Nat → Nat
  | 0 => 0
  | n + 1 => if x.getLsbD n then 0 else 1 + leadingZeros x n

/-- A 12-bit literal, sign-extended (R56). -/
def imm32 (imm : BitVec 12) : Word := imm.signExtend 32

/-! ## Major 0x01 and IADDI (R377, R378, R394) -/

def execIadd (d a b : VReg) (s : State) : Host.Outcome State Fault Refusal := run (alu2 (.iadd d a b) d a b (· + ·)) s
def execIsub (d a b : VReg) (s : State) : Host.Outcome State Fault Refusal := run (alu2 (.isub d a b) d a b (· - ·)) s
def execImul (d a b : VReg) (s : State) : Host.Outcome State Fault Refusal := run (alu2 (.imul d a b) d a b (· * ·)) s
def execImulhS (d a b : VReg) (s : State) : Host.Outcome State Fault Refusal := run (alu2 (.imulhS d a b) d a b mulHighS) s
def execImulhN (d a b : VReg) (s : State) : Host.Outcome State Fault Refusal := run (alu2 (.imulhN d a b) d a b mulHighN) s
def execImad (d a b : VReg) (s : State) : Host.Outcome State Fault Refusal :=
  run (alu3 (.imad d a b) d a b fun x y z => x * y + z) s
def execIminS (d a b : VReg) (s : State) : Host.Outcome State Fault Refusal := run (alu2 (.iminS d a b) d a b minS) s
def execIminN (d a b : VReg) (s : State) : Host.Outcome State Fault Refusal := run (alu2 (.iminN d a b) d a b minN) s
def execImaxS (d a b : VReg) (s : State) : Host.Outcome State Fault Refusal := run (alu2 (.imaxS d a b) d a b maxS) s
def execImaxN (d a b : VReg) (s : State) : Host.Outcome State Fault Refusal := run (alu2 (.imaxN d a b) d a b maxN) s
def execIabs (d a : VReg) (s : State) : Host.Outcome State Fault Refusal := run (alu1 (.iabs d a) d a absW) s
def execIsel (d a b : VReg) (s : State) : Host.Outcome State Fault Refusal := run (alu3 (.isel d a b) d a b selW) s
def execIadd2 (d a b : VReg) (s : State) : Host.Outcome State Fault Refusal := run (alu2 (.iadd2 d a b) d a b (halves (· + ·))) s
def execIsub2 (d a b : VReg) (s : State) : Host.Outcome State Fault Refusal := run (alu2 (.isub2 d a b) d a b (halves (· - ·))) s
def execImin2S (d a b : VReg) (s : State) : Host.Outcome State Fault Refusal :=
  run (alu2 (.imin2S d a b) d a b (halves fun x y => if y.slt x then y else x)) s
def execImin2N (d a b : VReg) (s : State) : Host.Outcome State Fault Refusal :=
  run (alu2 (.imin2N d a b) d a b (halves fun x y => if y.ult x then y else x)) s
def execImax2S (d a b : VReg) (s : State) : Host.Outcome State Fault Refusal :=
  run (alu2 (.imax2S d a b) d a b (halves fun x y => if x.slt y then y else x)) s
def execImax2N (d a b : VReg) (s : State) : Host.Outcome State Fault Refusal :=
  run (alu2 (.imax2N d a b) d a b (halves fun x y => if x.ult y then y else x)) s
def execMaxd2 (d a b : VReg) (s : State) : Host.Outcome State Fault Refusal := run (alu2 (.maxd2 d a b) d a b (halves maxDecide)) s
def execIaddi (d a : VReg) (imm : BitVec 12) (s : State) : Host.Outcome State Fault Refusal :=
  run (alu1 (.iaddi d a imm) d a (· + imm32 imm)) s

/-! ## Majors 0x02 and 0x04 to 0x06 -/

def execAnd (d a b : VReg) (s : State) : Host.Outcome State Fault Refusal := run (alu2 (.and d a b) d a b (· &&& ·)) s
def execOr (d a b : VReg) (s : State) : Host.Outcome State Fault Refusal := run (alu2 (.or d a b) d a b (· ||| ·)) s
def execXor (d a b : VReg) (s : State) : Host.Outcome State Fault Refusal := run (alu2 (.xor d a b) d a b (· ^^^ ·)) s
def execNot (d a : VReg) (s : State) : Host.Outcome State Fault Refusal := run (alu1 (.not d a) d a (~~~ ·)) s
def execShl (d a b : VReg) (s : State) : Host.Outcome State Fault Refusal :=
  run (alu2 (.shl d a b) d a b fun x y => x <<< shiftOf y) s
def execShr (d a b : VReg) (s : State) : Host.Outcome State Fault Refusal :=
  run (alu2 (.shr d a b) d a b fun x y => x >>> shiftOf y) s
def execSar (d a b : VReg) (s : State) : Host.Outcome State Fault Refusal :=
  run (alu2 (.sar d a b) d a b fun x y => x.sshiftRight (shiftOf y)) s
def execRot (d a b : VReg) (s : State) : Host.Outcome State Fault Refusal :=
  run (alu2 (.rot d a b) d a b fun x y => x.rotateLeft (shiftOf y)) s
def execBfxS (d a b : VReg) (s : State) : Host.Outcome State Fault Refusal := run (alu2 (.bfxS d a b) d a b bfxS) s
def execBfxN (d a b : VReg) (s : State) : Host.Outcome State Fault Refusal := run (alu2 (.bfxN d a b) d a b bfxN) s
def execBfi (d a b : VReg) (s : State) : Host.Outcome State Fault Refusal := run (alu3 (.bfi d a b) d a b bfiW) s
def execPopc (d a : VReg) (s : State) : Host.Outcome State Fault Refusal :=
  run (alu1 (.popc d a) d a fun x => BitVec.ofNat 32 (countOnes x 32)) s
def execClz (d a : VReg) (s : State) : Host.Outcome State Fault Refusal :=
  run (alu1 (.clz d a) d a fun x => BitVec.ofNat 32 (leadingZeros x 32)) s
def execBrev (d a : VReg) (s : State) : Host.Outcome State Fault Refusal := run (alu1 (.brev d a) d a BitVec.reverse) s
def execAndi (d a : VReg) (imm : BitVec 12) (s : State) : Host.Outcome State Fault Refusal :=
  run (alu1 (.andi d a imm) d a (· &&& imm32 imm)) s
def execOri (d a : VReg) (imm : BitVec 12) (s : State) : Host.Outcome State Fault Refusal :=
  run (alu1 (.ori d a imm) d a (· ||| imm32 imm)) s
def execXori (d a : VReg) (imm : BitVec 12) (s : State) : Host.Outcome State Fault Refusal :=
  run (alu1 (.xori d a imm) d a (· ^^^ imm32 imm)) s

/-! ## Moves and literals (R58, R392, R399) -/

/-- R399: MOV copies va with its poison. -/
def execMov (d a : VReg) (s : State) : Host.Outcome State Fault Refusal := run (alu1 (.mov d a) d a id) s

/-- R399, R400: MOVG to a group register: with va's poison and index 0; the highest thread's value stands. -/
def execMovgToG (g : GReg) (a : VReg) (s : State) : Host.Outcome State Fault Refusal :=
  run (issue (.movgToG g a) [] [] fun t => .seq (.act fun s =>
    let r := (s.th t).reg a
    putG s t.gid g ⟨r.val, r.poison, 0#3⟩) (.done t 1)) s

/-- R399: MOVG from a group register: with its poison and index 0. -/
def execMovgFromG (d : VReg) (g : GReg) (s : State) : Host.Outcome State Fault Refusal :=
  run (issue (.movgFromG d g) [] [] fun t => .seq (.act fun s =>
    let r := (s.gr t.gid).reg g
    putReg s t d ⟨r.val, r.poison, 0#3⟩) (.done t 1)) s

def execMovi (d : VReg) (imm : BitVec 12) (s : State) : Host.Outcome State Fault Refusal :=
  run (alu (.movi d imm) d [] fun _ _ => imm32 imm) s
def execMoviX (d : VReg) (lit : Word) (s : State) : Host.Outcome State Fault Refusal :=
  run (alu (.moviX d lit) d [] fun _ _ => lit) s

/-- R392: LEA: both halves are poisoned when either half of va is. -/
def execLea (d a : VReg) (imm : BitVec 12) (s : State) : Host.Outcome State Fault Refusal :=
  run (issue (.lea d a imm) [] [] fun t => .seq (.act fun s =>
    let x := s.th t
    let v := x.val64 a + imm.signExtend 64
    putReg s t d (x.result (pairOf a) (lo32 v)) ++ putReg s t (d + 1#7) (x.result (pairOf a) (hi32 v))) (.done t 1)) s

/-- R341, R70: CMPI. -/
def execCmpi (p : PReg) (a b : VReg) (c : BitVec 5) (s : State) : Host.Outcome State Fault Refusal :=
  run (compare (.cmpi p a b c) p a b (cmpi c.toNat)) s

end Sys2Proof.Machine
end

