-- ==== Sys2Proof/Machine/Float.lean ====
section
/-! DEFINITION. The floating-point instructions: majors 0x0A to 0x0E (R71, R72, R127, R340, R355 to R359, R361, R374), over the
number formats of Flags.lean. NARMODE is the group's (R119, R122). -/

namespace Sys2Proof.Machine

def execFadd (d a b : VReg) (s : State) : Host.Outcome State Fault Refusal := run (alu2 (.fadd d a b) d a b fadd32) s
def execFsub (d a b : VReg) (s : State) : Host.Outcome State Fault Refusal := run (alu2 (.fsub d a b) d a b fsub32) s
def execFmul (d a b : VReg) (s : State) : Host.Outcome State Fault Refusal := run (alu2 (.fmul d a b) d a b fmul32) s
def execFfma (d a b : VReg) (s : State) : Host.Outcome State Fault Refusal := run (alu3 (.ffma d a b) d a b ffma32) s
def execFmin (d a b : VReg) (s : State) : Host.Outcome State Fault Refusal := run (alu2 (.fmin d a b) d a b fmin32) s
def execFmax (d a b : VReg) (s : State) : Host.Outcome State Fault Refusal := run (alu2 (.fmax d a b) d a b fmax32) s
def execFdot2 (d a b : VReg) (s : State) : Host.Outcome State Fault Refusal := run (alu3 (.fdot2 d a b) d a b fdot2) s
def execFkey (d a : VReg) (s : State) : Host.Outcome State Fault Refusal := run (alu1 (.fkey d a) d a fkey) s
def execFclass (d a : VReg) (s : State) : Host.Outcome State Fault Refusal := run (alu1 (.fclass d a) d a fclass) s

/-- R359: FCVT, under the group's NARMODE. -/
def execFcvt (d a : VReg) (f : BitVec 5) (s : State) : Host.Outcome State Fault Refusal :=
  run (alu (.fcvt d a f) d [a] fun x g => fcvt f.toNat g.narmode (x.val a)) s

def execFrcp (d a : VReg) (s : State) : Host.Outcome State Fault Refusal := run (alu1 (.frcp d a) d a frcp) s
def execFrsq (d a : VReg) (s : State) : Host.Outcome State Fault Refusal := run (alu1 (.frsq d a) d a frsq) s
def execFsqrt (d a : VReg) (s : State) : Host.Outcome State Fault Refusal := run (alu1 (.fsqrt d a) d a fsqrt) s
def execFexp2 (d a : VReg) (s : State) : Host.Outcome State Fault Refusal := run (alu1 (.fexp2 d a) d a fexp2) s
def execFlog2 (d a : VReg) (s : State) : Host.Outcome State Fault Refusal := run (alu1 (.flog2 d a) d a flog2) s
def execFsin (d a : VReg) (s : State) : Host.Outcome State Fault Refusal := run (alu1 (.fsin d a) d a fsin) s
def execFcos (d a : VReg) (s : State) : Host.Outcome State Fault Refusal := run (alu1 (.fcos d a) d a fcos) s

/-- R340, R71: CMPF. -/
def execCmpf (p : PReg) (a b : VReg) (c : BitVec 5) (s : State) : Host.Outcome State Fault Refusal :=
  run (compare (.cmpf p a b c) p a b (cmpf c.toNat)) s

/-- R374: a packed operation under the group's NARMODE. -/
def packed (i : Instr) (d a b : VReg) (f : Word → Word → Word → Word) : Eff :=
  alu i d [a, b] fun x g => f g.narmode (x.val a) (x.val b)
/-- R374: HFMA2, which also reads vd. -/
def packedFma (i : Instr) (fm : Fmt) (d a b : VReg) : Eff :=
  alu i d [a, b, d] fun x g => hfma2 fm g.narmode (x.val a) (x.val b) (x.val d)

def execHadd2F16 (d a b : VReg) (s : State) : Host.Outcome State Fault Refusal := run (packed (.hadd2F16 d a b) d a b (hadd2 fp16)) s
def execHadd2Bf16 (d a b : VReg) (s : State) : Host.Outcome State Fault Refusal := run (packed (.hadd2Bf16 d a b) d a b (hadd2 bf16)) s
def execHmul2F16 (d a b : VReg) (s : State) : Host.Outcome State Fault Refusal := run (packed (.hmul2F16 d a b) d a b (hmul2 fp16)) s
def execHmul2Bf16 (d a b : VReg) (s : State) : Host.Outcome State Fault Refusal := run (packed (.hmul2Bf16 d a b) d a b (hmul2 bf16)) s
def execHfma2F16 (d a b : VReg) (s : State) : Host.Outcome State Fault Refusal := run (packedFma (.hfma2F16 d a b) fp16 d a b) s
def execHfma2Bf16 (d a b : VReg) (s : State) : Host.Outcome State Fault Refusal := run (packedFma (.hfma2Bf16 d a b) bf16 d a b) s
def execHmin2F16 (d a b : VReg) (s : State) : Host.Outcome State Fault Refusal := run (alu2 (.hmin2F16 d a b) d a b (hmin2 fp16)) s
def execHmin2Bf16 (d a b : VReg) (s : State) : Host.Outcome State Fault Refusal := run (alu2 (.hmin2Bf16 d a b) d a b (hmin2 bf16)) s
def execHmax2F16 (d a b : VReg) (s : State) : Host.Outcome State Fault Refusal := run (alu2 (.hmax2F16 d a b) d a b (hmax2 fp16)) s
def execHmax2Bf16 (d a b : VReg) (s : State) : Host.Outcome State Fault Refusal := run (alu2 (.hmax2Bf16 d a b) d a b (hmax2 bf16)) s

end Sys2Proof.Machine
end

