-- ==== Sys2Proof/Machine/System.lean ====
section
/-! DEFINITION. The system instructions: GETS and SETS (R369, R370, R426, R427), TRAP, SYSCALL and ERET (R238, R353, R438, R442), HALT and
IDLE (R376), TLBINV (R439, R440), CTXSV and CTXLD (R345 to R347). -/

namespace Sys2Proof.Machine

/-! ## Special registers -/

/-- R122: the writable bits of NARMODE. -/
def narmodeMask : Word := 0x00077777#32

/-- R232: the writable bits of TCAUSE. -/
def tcauseMask : Word := 0x60F0F01F#32

/-- R10 to R13: an identity register of a launched thread. -/
def identity (s : State) (t : TId) (sel : Nat) : Nat :=
  let g := s.gr t.gid
  let x := s.tm t.team
  match sel with
  | 0 => s.tid t
  | 1 => g.base + t.idx
  | 2 => t.group
  | 3 => x.idx
  | 4 => (match s.launch? x.launch with
    | some l => l.id
    | none => 0)
  | 5 => g.core
  | _ => g.core / 4

/-- R370: the value of a special register, as the words it has. The identity registers are those of a launched thread: on a
supervisor core the spec states none, and they read free words (DESIGN CHOICE, log 6). -/
def specialValue (s : State) (t : TId) (sel : Nat) : List Word :=
  let x := s.th t
  let wide : Nat → List Word := fun v => [BitVec.ofNat 32 v, BitVec.ofNat 32 (v / 2 ^ 32)]
  match sel with
  | 7 => wide (s.cycleOf t)
  | 8 => wide s.time
  | 9 => [(s.gr t.gid).narmode]
  | 10 => [(match (s.tm t.team).sup with
    | some n => (s.part.supAsid.toList.getD n 0#16).setWidth 32
    | none => (match s.ctxOf t.team with
      | some c => c.asid.setWidth 32
      | none => 0#32))]
  | 11 => wide (s.gr t.gid).emuvec.toNat
  | 12 => [x.tcause]
  | 13 => wide x.tpc.toNat
  | 14 => wide x.tval.toNat
  | 15 => [(s.cluster (s.homeCluster t)).slope.setWidth 32]
  | 16 => [(s.cluster (s.homeCluster t)).ratio]
  | _ => [if s.isSup t.team then s.freeWord 0 else BitVec.ofNat 32 (identity s t sel)]

def execGets (d : VReg) (sel : BitVec 8) (s : State) : Host.Outcome State Fault Refusal :=
  run (issue (.gets d sel) [] [] fun t =>
    .seq (.act fun s => putRegs s t d (specialValue s t sel.toNat)) <|
    .seq (.act fun s => if s.isSup t.team ∧ sel.toNat < 7 then [.drawn 1] else []) (.done t 1)) s

/-- R370: does SETS of a register raise PRIV? -/
def setsPriv (sup : Bool) (sel : Nat) : Bool :=
  decide (sel < 7) || sel == 8 || ((sel == 7 || sel == 10 || sel == 15 || sel == 16) && !sup)

/-- R427: what SETS writes; `lo` and `hi` are the values of va and va+1. -/
def setsWrite (s : State) (t : TId) (sel : Nat) (lo hi : Word) : List Upd :=
  match sel with
  | 9 => [.group t.gid fun g => { g with narmode := lo &&& narmodeMask }]
  | 10 => (match (s.tm t.team).sup with
    | some n => [.part fun p => { p with supAsid := updAt p.supAsid n fun _ => lo.setWidth 16 }]
    | none => [])
  | 11 => [.group t.gid fun g => { g with emuvec := hi ++ lo }]
  | 12 => [.thread t fun x => { x with tcause := (x.tcause &&& ~~~tcauseMask) ||| (lo &&& tcauseMask) }]
  | 13 => [.thread t fun x => { x with tpc := (hi ++ lo) &&& 0x00FFFFFFFFFFFFFF#64 }]
  | 14 => [.thread t fun x => { x with tval := hi ++ lo }]
  | 15 => [.cluster (s.homeCluster t) fun c => { c with slope := lo.setWidth 16 }]
  | _ => []

def execSets (a : VReg) (sel : BitVec 8) (s : State) : Host.Outcome State Fault Refusal :=
  run (issue (.sets a sel) (if special64 sel then pairOf a else [a]) [] fun t => .read fun s =>
    let x := s.th t
    if setsPriv (s.isSup t.team) sel.toNat then trap t cPriv (BitVec.ofNat 64 x.widx)
    else .seq (.act fun s => setsWrite s t sel.toNat (x.val a) (x.val (a + 1#7))) (.done t 1)) s

/-! ## TRAP, SYSCALL, ERET -/

def execTrap (n : BitVec 8) (s : State) : Host.Outcome State Fault Refusal :=
  run (issue (.trap n) [] [] fun t => .read fun s => takeTrap t cTrap (n.setWidth 64) 0 ((s.th t).widx + 1)) s

/-- R438: the request is delivered; the thread waits at the next clause for its results. -/
def execSyscall (n : BitVec 8) (s : State) : Host.Outcome State Fault Refusal :=
  run (issue (.syscall n) [] [] fun t =>
    .seq (closeWindows t) <| .seq (.pass t 1) (.upds [.thread t fun x => { x with run := .syscall n }, .report (.syscall t)])) s

/-- R238: a thread re-enters at TPC, at the word TCAUSE names, with its IFP guard. -/
def Thread.returns (x : Thread) : Thread :=
  let c := x.tcause
  { x.goTo x.tpc with
    widx := max (c.toNat / 2 ^ 12 % 16) 1
    tcause := c &&& 0x7FFFFFFF#32
    resumeG := if c.getLsbD 30 then some (c.getLsbD 29) else none
    noMatch := true }

def execEret (s : State) : Host.Outcome State Fault Refusal :=
  run (issue .eret [] [] fun t => .read fun s =>
    if (s.th t).inh then .seq (.transfer t (s.th t).tpc) (.upds [.thread t fun x => { x.returns with run := .running }])
    else illegal t 0xD) s

/-! ## HALT, IDLE -/

/-- The thread of a supervisor core stops until a reset. -/
def execHalt (s : State) : Host.Outcome State Fault Refusal :=
  run (issue .halt [] [] fun t => .seq (.pass t 1) (.upds [.thread t fun x => { x with run := .halted }])) s

/-- R376: IDLE waits until something is pending for the resident kernel; it consumes nothing. -/
def execIdle (s : State) : Host.Outcome State Fault Refusal :=
  run (issue .idle [] [] fun t => .read fun s => if s.part.reports.isEmpty then .wait t .idle else .done t 1) s

/-! ## TLBINV -/

/-- R439: does a TLBINV drop a cached translation? -/
def tlbinvDrops (sel : BitVec 2) (asid : BitVec 16) (va : Nat) (e : TlbEntry) : Bool :=
  let glob := pteBit e.pte.toNat 6
  match sel.toNat with
  | 0 => (e.asid == asid || glob) && decide (va < 2 ^ 56) && e.vpn == va / pageSize e.level
  | 1 => e.asid == asid && !glob
  | 2 => !glob
  | _ => true

/-- R440: the write-combining stores of the part are performed at their frames (R140 lets a buffer be written at any earlier moment); other
accesses under a dropped translation are waited for (`flightOver`). -/
def drainAll : Eff := .read fun s => .each (fun x => .act fun s => drainBuffer s x.id) (s.threads.filter fun x => x.wcBuf.isSome)

def execTlbinv (n a : VReg) (t : BitVec 2) (s : State) : Host.Outcome State Fault Refusal :=
  run (issue (.tlbinv n a t) (if t = 0#2 then n :: pairOf a else if t = 1#2 then [n] else []) [] fun th => .read fun s =>
    let x := s.th th
    .seq drainAll <| .seq (.act fun s => acquire s th) <|
    .seq (.upds [dropTranslations (tlbinvDrops t ((x.val n).setWidth 16) (x.val64 a).toNat)]) <| .read fun s =>
      if flightOver s (s.th th) (.tlbinv n a t) then .done th 1 else .wait th .inFlight) s

/-! ## CTXSV, CTXLD -/

/-- The result of CTXSV and CTXLD. -/
def endCtx (t : TId) (p : PReg) (b : Bool) : Eff := .seq (.upds [putPred t p ⟨b, false, 0#3⟩]) (.done t 1)

/-- R241: SAVESZ of a thread's context. -/
def saveSize (s : State) (t : TId) : Nat := match s.ctxOf t.team with
  | some c => c.savesz
  | none => Config.saveSz

/-- R243: the bytes that stand for a saved state in an area of `n` (DESIGN CHOICE, log 8). -/
def saveBytes (n tag : Nat) : List Byte := (List.range n).map (Config.saveByte tag)

/-- A new save area; an older one at its place or of its team is none any more. -/
def addSave (y : SaveArea) : Upd := .part fun q =>
  { q with saves := y :: q.saves.filter fun z => z.team != y.team && !(z.ctx == y.ctx && z.addr == y.addr) }

/-- R346: the save, on an area that translates whole. -/
def saveInto (t : TId) (p : PReg) (va : BitVec 64) (ctx : Nat) (x : Team) : Eff := .read fun s =>
  let a := agentOf s t
  match piecePlaces a .store 1 (steppedFrom va 1 (saveSize s t)) s with
  | (.error (r, bad), us) => .seq (.upds (us ++ [.team x.key fun y => { y with stopping := false }])) (faultAt t r bad)
  | (.ok ps, us) => .seq (.upds us) <| .read fun s =>
    match engineBlocked s a (ps.map Prod.snd) with
    | some w => .waitServed t w
    | none =>
      if !teamQuiet s x.key then .seq (.upds [.team x.key fun y => { y with stopping := true }]) (.wait t .inFlight)
      else
        let tag := s.nextId
        .seq (.upds [.named 1]) <| .seq (saveTeam x.key .saved) <|
        .seq (.each (writeAt a) ((ps.map Prod.snd).zip ((saveBytes ps.length tag).map fun b => [b]))) <|
        .seq (.upds [addSave ⟨ctx, va, tag, x.key⟩]) (endCtx t p true)

def execCtxsv (t a : VReg) (p : PReg) (s : State) : Host.Outcome State Fault Refusal :=
  run (issue (.ctxsv t a p) (pairOf a) [] fun th => .read fun s =>
    let x := s.th th
    let va := x.val64 a
    if va.toNat % 256 ≠ 0 then trap th cAlign va
    else match s.ctxOf th.team with
      | none => endCtx th p false
      | some c => match teamNamed s c.num (x.val t) (x.val (t + 1#7)) with
        | none => endCtx th p false
        | some y =>
          let mine := x.run == .waiting .inFlight
          if y.res != .resident || (y.stopping && !mine) || !(s.teamThreads y.key).any Thread.live then endCtx th p false
          else saveInto th p va c.num y) s

/-- R346: the area that stands at an address: of this context, unaltered, and of a team that is saved. -/
def areaAt (s : State) (ctx : Nat) (va : BitVec 64) (bs : List Byte) : Option Team :=
  match s.part.saves.find? fun y => y.ctx == ctx && y.addr == va with
  | none => none
  | some y => if bs = saveBytes bs.length y.tag then (s.team? y.team).filter fun x => x.res == .saved else none

def execCtxld (a : VReg) (p : PReg) (s : State) : Host.Outcome State Fault Refusal :=
  run (issue (.ctxld a p) (pairOf a) [] fun th => .read fun s =>
    let va := (s.th th).val64 a
    let g := agentOf s th
    if va.toNat % 256 ≠ 0 then trap th cAlign va
    else match piecePlaces g .load 1 (steppedFrom va 1 (saveSize s th)) s with
      | (.error (r, bad), us) => .seq (.upds us) (faultAt th r bad)
      | (.ok ps, us) => .seq (.upds us) <| .read fun s =>
        match areaAt s (ctxNum s th.team) va (ps.map fun x => placeByte s g x.2) with
        | none => illegal th 0xB
        | some x => match placeOld s x with
          | none => endCtx th p false
          | some (q, f) => .seq (restoreTeam x q f) (endCtx th p true)) s

end Sys2Proof.Machine
end

