-- ==== Sys2Proof/Machine/Microscope.lean ====
section
/-! DEFINITION. The microscope cores: MIGRATE, UNMIG and the shutter (R250 to R253, R260), WPSET (R246, R248), TRACE (R256, R441), and the
control of hosted groups (R255). -/

namespace Sys2Proof.Machine

/-! ## Moving a group -/

/-- R250, R253: what a movement completes: the loads, stores, deliveries and sends of the group. -/
def completeForMove (g : GId) : Eff :=
  .seq (.read fun s => .each (fun x => .seq (.act fun s => drainBuffer s x.id) (closeWindows x.id)) (s.threadsOf g)) <|
  .read fun s => .each (fun o => if o.t.gid ≠ g then .nothing else match o.job with
    | .load _ _ | .access _ _ | .combined _ | .result | .poisoned _ => completeOp o.id
    | .ldmc _ lines dest dests was hits => .seq (.act fun s => deliverLines s dest dests lines was hits) (completeOp o.id)
    | .asend ctx num rank rows => landSend o.id ctx num rank rows
    | _ => .nothing) s.part.ops

/-- Does every thread of a group stand at a resume point, with no record write or accumulator command outstanding? -/
def groupQuiet (s : State) (g : GId) : Bool :=
  (s.threadsOf g).all (Thread.stands s) && !s.part.ops.any fun o => o.t.gid == g && (o.isRecord || o.isAcc)

/-- R240, R260: does a team stop for something other than the shutter: a save that a movement does not come before? -/
def teamStops (s : State) (k : Nat) : Bool := (s.tm k).stopping || (s.tm k).res != .resident

/-- R250: a group takes a slot; its value history begins at zero. -/
def takeSlot (g : GId) (pav : Bool) (h : Hosting) : Eff := .act fun s =>
  let base := debugBase h.m
  let vs := base + 0x100000 + h.slot.toNat * 0x80000
  let gs := base + 0x200000 + h.slot.toNat * 0x800
  [.stores ((rangeCells s vs 0x80000).map (fun c => (vs + c.1, 0#8)) ++ (rangeCells s gs 0x800).map fun c => (gs + c.1, 0#8)),
   .micro h.m (fun m => { m with slots := updAt m.slots h.slot.toNat fun _ =>
     ⟨some g, BitVec.ofNat 10 (s.gr g).core, BitVec.ofNat 9 g.group, false, pav, none⟩ }),
   .group g fun x => { x with hosted := some h, shutter := none, active := false, readyAt := none }]

/-- R250: SHUTTER_CLOSE: the group moves when its threads have stopped, or stays at home where no slot is free; owed while it is asked
for. For a group for which nothing has asked, it is the resident kernel's request. A save of its team comes first, and a group whose team
is away moves after its restore, which owes the event again (R260). -/
def execShutterClose (g : GId) (s : State) : Host.Outcome State Fault Refusal :=
  run (.read fun s =>
    match s.group? g with
    | none => .nothing
    | some x =>
      if !teamHere s g.team || s.isSup g.team || x.hosted.isSome then .nothing
      else match x.shutter with
        | none =>
          if !teamStops s g.team && slotOffered s (clusterOf x.core) then .upds [.group g (fun x => { x with shutter := some false }), .event (.shutterClose g)]
          else .nothing
        | some pav =>
          if teamStops s g.team || !groupQuiet s g then .upds [.event (.shutterClose g)]
          else match freeSlot s (clusterOf x.core) with
            | none => .upds [.group g fun x => { x with shutter := none }]
            | some h => .seq (completeForMove g) (takeSlot g pav h)) s

/-- R253, R164: GROUP_RETURN: the threads stop, and the group goes on at home; a group that STOP holds returns when it runs again
(R260). -/
def execGroupReturn (g : GId) (s : State) : Host.Outcome State Fault Refusal :=
  run (.read fun s =>
    match (s.gr g).hosted with
    | none => .nothing
    | some h =>
      if ((s.micro h.m).slot h.slot.toNat).stop || teamStops s g.team || !groupQuiet s g then
        .upds [.group g (fun x => { x with homing := true }), .event (.groupReturn g)]
      else .seq (completeForMove g) <| .act fun s =>
        let core := (s.gr g).core
        [.micro h.m (fun m => { m with slots := updAt m.slots h.slot.toNat fun _ => Slot.reset }),
         .group g (fun x => { x with hosted := none, homing := false, active := decide (activeOn s core < 8),
                                     activeAt := s.cycle core, readyAt := none }),
         freshCopies [core]]) s

/-- R252: MIGRATE. A supervisor core's thread has no home core to leave: no slot is free for it. -/
def execMigrate (pav : BitVec 1) (p : PReg) (s : State) : Host.Outcome State Fault Refusal :=
  run (issue (.migrate pav p) [] [] fun t => .read fun s =>
    let g := s.gr t.gid
    let result : Bool → Eff := fun b => .seq (.upds [putPred t p ⟨b, false, 0#3⟩]) (.done t 1)
    if !s.dbg t.team then trap t cPriv (BitVec.ofNat 64 (s.th t).widx)
    else if g.hosted.isSome || g.shutter.isSome then result true
    else if s.isSup t.team || !slotOffered s (clusterOf g.core) then result false
    else .seq (.upds [.group t.gid (fun g => { g with shutter := some (pav == 1#1) }), .event (.shutterClose t.gid)]) (result true)) s

/-- R252: UNMIG. -/
def execUnmig (s : State) : Host.Outcome State Fault Refusal :=
  run (issue .unmig [] [] fun t => .read fun s =>
    let g := s.gr t.gid
    if g.hosted.isSome && !g.homing then
      .seq (.upds [.group t.gid (fun g => { g with homing := true }), .event (.groupReturn t.gid)]) (.done t 1)
    else .done t 1) s

/-! ## WPSET -/

/-- R248: is a trip descriptor illegal? -/
def tripBad (lo hi ctl rsv : Nat) : Bool :=
  ctl / 16 % 4 == 3 || ctl / 4 % 4 == 3 || decide (2 ^ 9 ≤ ctl) || rsv != 0 || decide (hi < lo) || (ctl % 4 == 3 && ctl / 16 % 4 != 0)

/-- The trip register of a thread's home core takes a descriptor. A supervisor core has none. -/
def setTrip (t : TId) (bs : List Byte) : Eff := .read fun s =>
  let lo := fieldAt bs 0 8
  let hi := fieldAt bs 8 8
  let ctl := fieldAt bs 24 4
  if tripBad lo hi ctl (fieldAt bs 28 4) then illegal t 7
  else
    let asid := match s.ctxOf t.team with
      | some c => c.asid
      | none => 0#16
    let r : Trip := ⟨BitVec.ofNat 64 lo, BitVec.ofNat 64 hi, BitVec.ofNat 64 (fieldAt bs 16 8), BitVec.ofNat 32 ctl, asid⟩
    .seq (if s.isSup t.team then .nothing else .upds [.part fun p => { p with trips := updAt p.trips (s.gr t.gid).core fun _ => r }])
      (.done t 1)

def execWpset (a : VReg) (s : State) : Host.Outcome State Fault Refusal :=
  run (issue (.wpset a) (pairOf a) [] fun t => .read fun s =>
    let va := (s.th t).val64 a
    let g := agentOf s t
    if !s.dbg t.team then trap t cPriv (BitVec.ofNat 64 (s.th t).widx)
    else if va.toNat % 32 ≠ 0 then trap t cAlign va
    else match piecePlaces g .load 16 (sectorsFrom va 32) s with
      | (.error (r, bad), us) => .seq (.upds us) (faultAt t r bad)
      | (.ok ps, us) => .seq (.upds us) <| .seq (.each (fun x => drainFor t x.2) ps) <| .read fun s =>
        match ps.find? fun x => orderBars s g x.2 with
        | some x => trap t cDorder x.1
        | none => .seq (.upds (usedPlaces s g (ps.map Prod.snd))) <| .seq (freshAfterAll t (ps.map Prod.snd)) <| .read fun s =>
          setTrip t (ps.flatMap fun x => placeBytes s g x.2 16)) s

/-! ## TRACE -/

/-- R256: TRCTL after TRACE `op` by a thread of slot `h`. -/
def traceControl (op : BitVec 2) (h : BitVec 1) (v : Word) : Word :=
  match op.toNat with
  | 0 => v &&& 0x7FFFFFFF#32
  | 3 => v &&& 0xDFFFF000#32
  | n => (v &&& 0x2FFFFFFF#32) ||| 0x80000000#32 ||| (if n = 1 then 0x40000000#32 else 0#32) |||
      (if h = 1#1 then 0x10000000#32 else 0#32)

def execTrace (op : BitVec 2) (s : State) : Host.Outcome State Fault Refusal :=
  run (issue (.trace op) [] [] fun t => .read fun s =>
    match (s.gr t.gid).hosted with
    | none => .done t 1
    | some h => .seq (.upds [.micro h.m fun m => { m with trctl := traceControl op h.slot m.trctl }]) (.done t 1)) s

/-! ## STOP and STEP (R255) -/

/-- HOST_STOP. -/
def execHostStop (m : Nat) (slot stop : BitVec 1) (s : State) : Host.Outcome State Fault Refusal :=
  run (.upds [.micro m fun k => { k with slots := updAt k.slots slot.toNat (Slot.setStop (stop == 1#1)) }]) s

/-- HOST_STEP. -/
def execHostStep (m : Nat) (slot : BitVec 1) (s : State) : Host.Outcome State Fault Refusal :=
  run (.act fun s => if ((s.micro m).slot slot.toNat).stop then stepHosted s m slot.toNat else []) s

end Sys2Proof.Machine
end

