-- ==== Sys2Proof/Machine/Dispatch.lean ====
section
/-! DEFINITION. The meaning of every instruction and event, by its definition. -/

namespace Sys2Proof.Machine

def exec (i : Instr) (s : State) : Host.Outcome State Fault Refusal :=
  match i with
  | .iadd d a b => Sys2Proof.Machine.execIadd d a b s
  | .isub d a b => Sys2Proof.Machine.execIsub d a b s
  | .imul d a b => Sys2Proof.Machine.execImul d a b s
  | .imulhS d a b => Sys2Proof.Machine.execImulhS d a b s
  | .imulhN d a b => Sys2Proof.Machine.execImulhN d a b s
  | .imad d a b => Sys2Proof.Machine.execImad d a b s
  | .iminS d a b => Sys2Proof.Machine.execIminS d a b s
  | .iminN d a b => Sys2Proof.Machine.execIminN d a b s
  | .imaxS d a b => Sys2Proof.Machine.execImaxS d a b s
  | .imaxN d a b => Sys2Proof.Machine.execImaxN d a b s
  | .iabs d a => Sys2Proof.Machine.execIabs d a s
  | .isel d a b => Sys2Proof.Machine.execIsel d a b s
  | .iadd2 d a b => Sys2Proof.Machine.execIadd2 d a b s
  | .isub2 d a b => Sys2Proof.Machine.execIsub2 d a b s
  | .imin2S d a b => Sys2Proof.Machine.execImin2S d a b s
  | .imin2N d a b => Sys2Proof.Machine.execImin2N d a b s
  | .imax2S d a b => Sys2Proof.Machine.execImax2S d a b s
  | .imax2N d a b => Sys2Proof.Machine.execImax2N d a b s
  | .maxd2 d a b => Sys2Proof.Machine.execMaxd2 d a b s
  | .and d a b => Sys2Proof.Machine.execAnd d a b s
  | .or d a b => Sys2Proof.Machine.execOr d a b s
  | .xor d a b => Sys2Proof.Machine.execXor d a b s
  | .not d a => Sys2Proof.Machine.execNot d a s
  | .shl d a b => Sys2Proof.Machine.execShl d a b s
  | .shr d a b => Sys2Proof.Machine.execShr d a b s
  | .sar d a b => Sys2Proof.Machine.execSar d a b s
  | .rot d a b => Sys2Proof.Machine.execRot d a b s
  | .bfxS d a b => Sys2Proof.Machine.execBfxS d a b s
  | .bfxN d a b => Sys2Proof.Machine.execBfxN d a b s
  | .bfi d a b => Sys2Proof.Machine.execBfi d a b s
  | .popc d a => Sys2Proof.Machine.execPopc d a s
  | .clz d a => Sys2Proof.Machine.execClz d a s
  | .brev d a => Sys2Proof.Machine.execBrev d a s
  | .mov d a => Sys2Proof.Machine.execMov d a s
  | .movgToG g a => Sys2Proof.Machine.execMovgToG g a s
  | .movgFromG d g => Sys2Proof.Machine.execMovgFromG d g s
  | .iaddi d a imm => Sys2Proof.Machine.execIaddi d a imm s
  | .andi d a imm => Sys2Proof.Machine.execAndi d a imm s
  | .ori d a imm => Sys2Proof.Machine.execOri d a imm s
  | .xori d a imm => Sys2Proof.Machine.execXori d a imm s
  | .cmpi p a b c => Sys2Proof.Machine.execCmpi p a b c s
  | .movi d imm => Sys2Proof.Machine.execMovi d imm s
  | .moviX d lit => Sys2Proof.Machine.execMoviX d lit s
  | .lea d a imm => Sys2Proof.Machine.execLea d a imm s
  | .fadd d a b => Sys2Proof.Machine.execFadd d a b s
  | .fsub d a b => Sys2Proof.Machine.execFsub d a b s
  | .fmul d a b => Sys2Proof.Machine.execFmul d a b s
  | .ffma d a b => Sys2Proof.Machine.execFfma d a b s
  | .fmin d a b => Sys2Proof.Machine.execFmin d a b s
  | .fmax d a b => Sys2Proof.Machine.execFmax d a b s
  | .fdot2 d a b => Sys2Proof.Machine.execFdot2 d a b s
  | .fkey d a => Sys2Proof.Machine.execFkey d a s
  | .fclass d a => Sys2Proof.Machine.execFclass d a s
  | .fcvt d a f => Sys2Proof.Machine.execFcvt d a f s
  | .frcp d a => Sys2Proof.Machine.execFrcp d a s
  | .frsq d a => Sys2Proof.Machine.execFrsq d a s
  | .fsqrt d a => Sys2Proof.Machine.execFsqrt d a s
  | .fexp2 d a => Sys2Proof.Machine.execFexp2 d a s
  | .flog2 d a => Sys2Proof.Machine.execFlog2 d a s
  | .fsin d a => Sys2Proof.Machine.execFsin d a s
  | .fcos d a => Sys2Proof.Machine.execFcos d a s
  | .cmpf p a b c => Sys2Proof.Machine.execCmpf p a b c s
  | .hadd2F16 d a b => Sys2Proof.Machine.execHadd2F16 d a b s
  | .hadd2Bf16 d a b => Sys2Proof.Machine.execHadd2Bf16 d a b s
  | .hmul2F16 d a b => Sys2Proof.Machine.execHmul2F16 d a b s
  | .hmul2Bf16 d a b => Sys2Proof.Machine.execHmul2Bf16 d a b s
  | .hfma2F16 d a b => Sys2Proof.Machine.execHfma2F16 d a b s
  | .hfma2Bf16 d a b => Sys2Proof.Machine.execHfma2Bf16 d a b s
  | .hmin2F16 d a b => Sys2Proof.Machine.execHmin2F16 d a b s
  | .hmin2Bf16 d a b => Sys2Proof.Machine.execHmin2Bf16 d a b s
  | .hmax2F16 d a b => Sys2Proof.Machine.execHmax2F16 d a b s
  | .hmax2Bf16 d a b => Sys2Proof.Machine.execHmax2Bf16 d a b s
  | .shfl d a b => Sys2Proof.Machine.execShfl d a b s
  | .shflx d a b => Sys2Proof.Machine.execShflx d a b s
  | .shflu d a b => Sys2Proof.Machine.execShflu d a b s
  | .shfld d a b => Sys2Proof.Machine.execShfld d a b s
  | .voteAny p a b => Sys2Proof.Machine.execVoteAny p a b s
  | .voteAll p a b => Sys2Proof.Machine.execVoteAll p a b s
  | .voteBallot d a b => Sys2Proof.Machine.execVoteBallot d a b s
  | .redgAdd d a b => Sys2Proof.Machine.execRedgAdd d a b s
  | .redgMin d a b => Sys2Proof.Machine.execRedgMin d a b s
  | .redgMax d a b => Sys2Proof.Machine.execRedgMax d a b s
  | .scangAdd d a b => Sys2Proof.Machine.execScangAdd d a b s
  | .scangMax d a b => Sys2Proof.Machine.execScangMax d a b s
  | .matchLanes d a b => Sys2Proof.Machine.execMatchLanes d a b s
  | .elect p b => Sys2Proof.Machine.execElect p b s
  | .bra p neg off => Sys2Proof.Machine.execBra p neg off s
  | .brx neg p a => Sys2Proof.Machine.execBrx neg p a s
  | .call p neg off => Sys2Proof.Machine.execCall p neg off s
  | .ret a => Sys2Proof.Machine.execRet a s
  | .ifp f p c => Sys2Proof.Machine.execIfp f p c s
  | .repeatN sm sc c => Sys2Proof.Machine.execRepeatN sm sc c s
  | .enrol j => Sys2Proof.Machine.execEnrol j s
  | .join j => Sys2Proof.Machine.execJoin j s
  | .strike j => Sys2Proof.Machine.execStrike j s
  | .nop => Sys2Proof.Machine.execNop s
  | .exit => Sys2Proof.Machine.execExit s
  | .yield => Sys2Proof.Machine.execYield s
  | .sleep a => Sys2Proof.Machine.execSleep a s
  | .sleepu t => Sys2Proof.Machine.execSleepu t s
  | .sleepuCounter t c => Sys2Proof.Machine.execSleepuCounter t c s
  | .ld d a wc sz cp la => Sys2Proof.Machine.execLd d a wc sz cp la s
  | .ldOffset d a wc sz cp la off => Sys2Proof.Machine.execLdOffset d a wc sz cp la off s
  | .st d a wc sz cp la => Sys2Proof.Machine.execSt d a wc sz cp la s
  | .stOffset d a wc sz cp la off => Sys2Proof.Machine.execStOffset d a wc sz cp la off s
  | .lda d a wc sz cp la => Sys2Proof.Machine.execLda d a wc sz cp la s
  | .ldaScope d a wc sz cp la scope => Sys2Proof.Machine.execLdaScope d a wc sz cp la scope s
  | .stl d a wc sz cp la => Sys2Proof.Machine.execStl d a wc sz cp la s
  | .stlScope d a wc sz cp la scope => Sys2Proof.Machine.execStlScope d a wc sz cp la scope s
  | .ldmc d a wc la doff nl => Sys2Proof.Machine.execLdmc d a wc la doff nl s
  | .pref a wc ln cp la => Sys2Proof.Machine.execPref a wc ln cp la s
  | .prefOffset a wc ln cp la off => Sys2Proof.Machine.execPrefOffset a wc ln cp la off s
  | .atom d a wc cp la => Sys2Proof.Machine.execAtom d a wc cp la s
  | .atomExt d a wc cp la scope b ord op size => Sys2Proof.Machine.execAtomExt d a wc cp la scope b ord op size s
  | .red d a wc cp la => Sys2Proof.Machine.execRed d a wc cp la s
  | .redExt d a wc cp la scope ord op size => Sys2Proof.Machine.execRedExt d a wc cp la scope ord op size s
  | .atomk d a wc op cp la => Sys2Proof.Machine.execAtomk d a wc op cp la s
  | .atomkExt d a wc op cp la scope ord => Sys2Proof.Machine.execAtomkExt d a wc op cp la scope ord s
  | .fence kind scope => Sys2Proof.Machine.execFence kind scope s
  | .discard n a => Sys2Proof.Machine.execDiscard n a s
  | .flushl n a => Sys2Proof.Machine.execFlushl n a s
  | .invl n a l2 => Sys2Proof.Machine.execInvl n a l2 s
  | .ptest p a => Sys2Proof.Machine.execPtest p a s
  | .bari a n => Sys2Proof.Machine.execBari a n s
  | .bara a n => Sys2Proof.Machine.execBara a n s
  | .barw n => Sys2Proof.Machine.execBarw n s
  | .bar a n => Sys2Proof.Machine.execBar a n s
  | .waitge d a wc la => Sys2Proof.Machine.execWaitge d a wc la s
  | .waitw mask => Sys2Proof.Machine.execWaitw mask s
  | .grow p m => Sys2Proof.Machine.execGrow p m s
  | .shrink m => Sys2Proof.Machine.execShrink m s
  | .kset k a p => Sys2Proof.Machine.execKset k a p s
  | .mma b k ob wc la nk atile reuse z crow => Sys2Proof.Machine.execMma b k ob wc la nk atile reuse z crow s
  | .mmaq b k ob wc la nk atile reuse z crow => Sys2Proof.Machine.execMmaq b k ob wc la nk atile reuse z crow s
  | .opfence => Sys2Proof.Machine.execOpfence s
  | .mwait k => Sys2Proof.Machine.execMwait k s
  | .mprogMat d k => Sys2Proof.Machine.execMprogMat d k s
  | .mprogCopy d => Sys2Proof.Machine.execMprogCopy d s
  | .obres ob a wc la => Sys2Proof.Machine.execObres ob a wc la s
  | .obrel ob wc la => Sys2Proof.Machine.execObrel ob wc la s
  | .obld ob a wc la n doff => Sys2Proof.Machine.execObld ob a wc la n doff s
  | .accz wc la n row => Sys2Proof.Machine.execAccz wc la n row s
  | .accld a sv wc la n fmt row => Sys2Proof.Machine.execAccld a sv wc la n fmt row s
  | .accst a sv wc la n fmt row => Sys2Proof.Machine.execAccst a sv wc la n fmt row s
  | .accrd d a wc la => Sys2Proof.Machine.execAccrd d a wc la s
  | .achain d a wc la => Sys2Proof.Machine.execAchain d a wc la s
  | .asend h sv wc la => Sys2Proof.Machine.execAsend h sv wc la s
  | .await h wc la => Sys2Proof.Machine.execAwait h wc la s
  | .arel h wc e la => Sys2Proof.Machine.execArel h wc e la s
  | .copy c q wc st la inc => Sys2Proof.Machine.execCopy c q wc st la inc s
  | .copyg c q wc st la inc => Sys2Proof.Machine.execCopyg c q wc st la inc s
  | .sealLayout d sv wc la => Sys2Proof.Machine.execSeal d sv wc la s
  | .cgrp d a wc la => Sys2Proof.Machine.execCgrp d a wc la s
  | .cgrpEnd h wc la => Sys2Proof.Machine.execCgrpEnd h wc la s
  | .cgath h a wc la => Sys2Proof.Machine.execCgath h a wc la s
  | .crsc h a wc la => Sys2Proof.Machine.execCrsc h a wc la s
  | .cata h a wc la => Sys2Proof.Machine.execCata h a wc la s
  | .cbar h wc la => Sys2Proof.Machine.execCbar h wc la s
  | .launch d r wc la => Sys2Proof.Machine.execLaunch d r wc la s
  | .qpush q r wc la => Sys2Proof.Machine.execQpush q r wc la s
  | .qpop d q wc la p => Sys2Proof.Machine.execQpop d q wc la p s
  | .qfree q wc la => Sys2Proof.Machine.execQfree q wc la s
  | .gets d sv => Sys2Proof.Machine.execGets d sv s
  | .sets a sv => Sys2Proof.Machine.execSets a sv s
  | .trap n => Sys2Proof.Machine.execTrap n s
  | .syscall n => Sys2Proof.Machine.execSyscall n s
  | .eret => Sys2Proof.Machine.execEret s
  | .halt => Sys2Proof.Machine.execHalt s
  | .idle => Sys2Proof.Machine.execIdle s
  | .tlbinv n a t => Sys2Proof.Machine.execTlbinv n a t s
  | .ctxsv t a p => Sys2Proof.Machine.execCtxsv t a p s
  | .ctxld a p => Sys2Proof.Machine.execCtxld a p s
  | .migrate pav p => Sys2Proof.Machine.execMigrate pav p s
  | .unmig => Sys2Proof.Machine.execUnmig s
  | .wpset a => Sys2Proof.Machine.execWpset a s
  | .trace op => Sys2Proof.Machine.execTrace op s
  | .rejoinTimeout g j => Sys2Proof.Machine.execRejoinTimeout g j s
  | .sleepWake t => Sys2Proof.Machine.execSleepWake t s
  | .sleepuWake t => Sys2Proof.Machine.execSleepuWake t s
  | .barrierWave cluster => Sys2Proof.Machine.execBarrierWave cluster s
  | .waitgeRead t => Sys2Proof.Machine.execWaitgeRead t s
  | .growGrant g => Sys2Proof.Machine.execGrowGrant g s
  | .growDeadlockFail core => Sys2Proof.Machine.execGrowDeadlockFail core s
  | .mmaRoundIssue team k => Sys2Proof.Machine.execMmaRoundIssue team k s
  | .matrixStep op => Sys2Proof.Machine.execMatrixStep op s
  | .asendLand op => Sys2Proof.Machine.execAsendLand op s
  | .copyComplete op => Sys2Proof.Machine.execCopyComplete op s
  | .collectiveForm ctx num => Sys2Proof.Machine.execCollectiveForm ctx num s
  | .collectiveComplete ctx num seq => Sys2Proof.Machine.execCollectiveComplete ctx num seq s
  | .qpushPublish op => Sys2Proof.Machine.execQpushPublish op s
  | .queueWaitWake t => Sys2Proof.Machine.execQueueWaitWake t s
  | .loadReturn op => Sys2Proof.Machine.execLoadReturn op s
  | .accessAck op => Sys2Proof.Machine.execAccessAck op s
  | .mshrGrant core => Sys2Proof.Machine.execMshrGrant core s
  | .wcDrainTimeout t => Sys2Proof.Machine.execWcDrainTimeout t s
  | .rdcLeaseEnd die sector => Sys2Proof.Machine.execRdcLeaseEnd die sector s
  | .ldmcMergeEnd rec => Sys2Proof.Machine.execLdmcMergeEnd rec s
  | .ldmcHoldEnd rec => Sys2Proof.Machine.execLdmcHoldEnd rec s
  | .ldmcDeliveryDone op => Sys2Proof.Machine.execLdmcDeliveryDone op s
  | .shutterClose g => Sys2Proof.Machine.execShutterClose g s
  | .groupReturn g => Sys2Proof.Machine.execGroupReturn g s
  | .activeSetSwap core g => Sys2Proof.Machine.execActiveSetSwap core g s
  | .pendingPromote core g => Sys2Proof.Machine.execPendingPromote core g s
  | .teamDispatch launch => Sys2Proof.Machine.execTeamDispatch launch s
  | .teamRelease team => Sys2Proof.Machine.execTeamRelease team s
  | .swapOut team => Sys2Proof.Machine.execSwapOut team s
  | .teamWake team => Sys2Proof.Machine.execTeamWake team s
  | .ctxnew e => Sys2Proof.Machine.execCtxnew e s
  | .ctxend e => Sys2Proof.Machine.execCtxend e s
  | .load e => Sys2Proof.Machine.execLoad e s
  | .recoveryLoad e => Sys2Proof.Machine.execRecoveryLoad e s
  | .mtcload e => Sys2Proof.Machine.execMtcload e s
  | .maphost e => Sys2Proof.Machine.execMaphost e s
  | .exportMem e => Sys2Proof.Machine.execExportMem e s
  | .hostLaunch e => Sys2Proof.Machine.execHostLaunch e s
  | .attest e => Sys2Proof.Machine.execAttest e s
  | .ctxset e => Sys2Proof.Machine.execCtxset e s
  | .celloff e => Sys2Proof.Machine.execCelloff e s
  | .cellon e => Sys2Proof.Machine.execCellon e s
  | .drain e => Sys2Proof.Machine.execDrain e s
  | .undrain e => Sys2Proof.Machine.execUndrain e s
  | .laneoff e => Sys2Proof.Machine.execLaneoff e s
  | .serviceReserved e => Sys2Proof.Machine.execServiceReserved e s
  | .reservedRequest e => Sys2Proof.Machine.execReservedRequest e s
  | .mbIdent pos => Sys2Proof.Machine.execMbIdent pos s
  | .synread pos => Sys2Proof.Machine.execSynread pos s
  | .scrub pos => Sys2Proof.Machine.execScrub pos s
  | .rowrepair pos => Sys2Proof.Machine.execRowrepair pos s
  | .seqload pos => Sys2Proof.Machine.execSeqload pos s
  | .mbReset pos => Sys2Proof.Machine.execMbReset pos s
  | .mbReserved pos => Sys2Proof.Machine.execMbReserved pos s
  | .coldPowerOn => Sys2Proof.Machine.execColdPowerOn s
  | .linkWidthRaise die link => Sys2Proof.Machine.execLinkWidthRaise die link s
  | .linkWidthDone die link => Sys2Proof.Machine.execLinkWidthDone die link s
  | .ratioSelect cluster ratio therm => Sys2Proof.Machine.execRatioSelect cluster ratio therm s
  | .ratioChangeDone cluster => Sys2Proof.Machine.execRatioChangeDone cluster s
  | .preempt team => Sys2Proof.Machine.execPreempt team s
  | .launchWatchdog launch => Sys2Proof.Machine.execLaunchWatchdog launch s
  | .uevictConversion ctx va frame => Sys2Proof.Machine.execUevictConversion ctx va frame s
  | .pageMigrate ctx va home => Sys2Proof.Machine.execPageMigrate ctx va home s
  | .faultResolved t resolved pte => Sys2Proof.Machine.execFaultResolved t resolved pte s
  | .teamFaultService team resume => Sys2Proof.Machine.execTeamFaultService team resume s
  | .syscallReturn t v1 => Sys2Proof.Machine.execSyscallReturn t v1 s
  | .uquotaService ctx quota victims => Sys2Proof.Machine.execUquotaService ctx quota victims s
  | .hostStop m slot stop => Sys2Proof.Machine.execHostStop m slot stop s
  | .hostStep m slot => Sys2Proof.Machine.execHostStep m slot s
  | .linkWidthShed die link => Sys2Proof.Machine.execLinkWidthShed die link s
  | .hostDoorbell base len v ws => Sys2Proof.Machine.execHostDoorbell base len v ws s
  | .hostCxlRead dec off => Sys2Proof.Machine.execHostCxlRead dec off s
  | .hostCxlWrite dec off v => Sys2Proof.Machine.execHostCxlWrite dec off v s
  | .tbiSyn pos cls sect off detail => Sys2Proof.Machine.execTbiSyn pos cls sect off detail s
  | .tbiCmp pos op => Sys2Proof.Machine.execTbiCmp pos op s
  | .tbiNop pos => Sys2Proof.Machine.execTbiNop pos s
  | .tbiReservedOpcode pos opcode => Sys2Proof.Machine.execTbiReservedOpcode pos opcode s
  | .quiesce pos q => Sys2Proof.Machine.execQuiesce pos q s
  | .linkReplay die link lane => Sys2Proof.Machine.execLinkReplay die link lane s
  | .energyLowRead acc agent => Sys2Proof.Machine.execEnergyLowRead acc agent s
  | .energyHighRead acc agent => Sys2Proof.Machine.execEnergyHighRead acc agent s
  | .sysregWrite pa v => Sys2Proof.Machine.execSysregWrite pa v s
  | .powerLoss => Sys2Proof.Machine.execPowerLoss s

end Sys2Proof.Machine
end

