-- ==== Sys2Proof/Machine/Step.lean ====
section
/-! DEFINITION. One step: a turn of the machine is one issue group executing one instruction, one event, or one TIME cycle.
The schedule is consumed first; without one, the model's own policy chooses (DESIGN CHOICE, log 4). `Advance` holds its parts. -/

namespace Sys2Proof.Machine

/-- The parts of an issue group: their threads enter their clause, or pass a void instruction, or execute the instruction at which they stand.
A part whose threads may issue no longer is left for a later turn. -/
def stepParts : List (List TId) → State → Host.Outcome State Fault Refusal
  | [], s => .next s
  | ths :: rest, s =>
    if issuable s ths then
      match (match front ths s with
        | .done s' => .next s'
        | .exec i s' => exec i s' : Host.Outcome State Fault Refusal) with
      | .next s' => stepParts rest s'
      | r => r
    else stepParts rest s

/-- The step of an issue group. -/
def stepIssue (ths : List TId) (s : State) : Host.Outcome State Fault Refusal :=
  let s1 := prepared.run s
  if issuable s1 ths then ended s1 ths (stepParts (partsOf s1 ths.length ths) s1) else .fault .badTurn

/-- A turn. -/
def stepTurn (turn : Turn) (s : State) : Host.Outcome State Fault Refusal :=
  match turn with
  | .issue ths => stepIssue ths s
  | .event i => exec i s
  | .tick => .next (tickEff.run s)

/-- One step. -/
def step (s : State) : Host.Outcome State Fault Refusal :=
  match nextTurn s with
  | (turn, s') => stepTurn turn s'

/-- The instruction whose bits are `w` stored where the thread of supervisor core 0 fetches next: a clause that holds it, with
what its entry needs after it, on a page mapped for that thread; and that thread's turn is next (DESIGN CHOICE, log 21). -/
def State.withFetchWord (s : State) (nbits w : Nat) : State := placeWord s nbits w

end Sys2Proof.Machine
end

