-- ==== Sys2Proof/Safety.lean ====
section
/-! DEFINITION. The terms that the statements use: a safe state, an issue that nothing keeps from its own effect, how a thread
moves on, and what an instruction leaves unchanged. -/

namespace Sys2Proof

/-- Every thread, group and team has a name of its own (R9, R10). -/
structure NamesDistinct (s : Machine.State) : Prop where
  threads : (s.threads.map Machine.Thread.id).Nodup
  groups : (s.groups.map Machine.Group.id).Nodup
  teams : (s.teams.map Machine.Team.key).Nodup

/-- The next name that the model gives is new. -/
structure FreshName (s : Machine.State) : Prop where
  teams : ∀ x ∈ s.teams, x.key < s.nextId
  groups : ∀ x ∈ s.groups, x.id.team < s.nextId
  threads : ∀ x ∈ s.threads, x.id.team < s.nextId

/-- What every step keeps: the byte stores are in their canonical form, names are distinct, and the next one is new; the names of the
supervisor cores are given (R209). -/
structure Safe (s : Machine.State) : Prop where
  mem : Machine.Memory.wf s.mem = true
  names : NamesDistinct s
  fresh : FreshName s
  given : 8 ≤ s.nextId

namespace Machine

/-! ## An issue -/

/-- Nothing keeps a thread's instruction from its own effect: its registers lie in the allocation, no watchpoint matches, it
consumes no poison (R235). -/
structure Clear (s : State) (t : TId) (i : Instr) (eats : List VReg) (ps : List PReg) : Prop where
  names : beyond s t i = none
  watch : matchHere s t (s.th t).wordAt.toNat i.word = none
  regs : (s.th t).poisoned eats = none
  preds : (s.th t).poisonedP ps = none

/-- The current issue group is one thread, and it exists. -/
structure Solo (s : State) (t : TId) : Prop where
  cur : s.cur = ⟨t.gid, [t]⟩
  thread : (s.thread? t).isSome = true
  group : (s.group? t.gid).isSome = true

/-- A group that no microscope core hosts. -/
def Unhosted (s : State) (t : TId) : Prop := (s.gr t.gid).hosted = none

/-- The thread has executed `len` words: it stands where `Thread.step` puts it (R48, R64, R67), and runs. -/
def MovesOn (s s' : State) (t : TId) (len : Nat) : Prop :=
  (s'.th t).pc = ((s.th t).step len).pc ∧ (s'.th t).widx = ((s.th t).step len).widx ∧
    (s'.th t).clause = ((s.th t).step len).clause ∧ (s'.th t).rep = ((s.th t).step len).rep ∧
    (s'.th t).ifpN = ((s.th t).step len).ifpN ∧ (s'.th t).run = .running

/-- The thread stands at the clause header at `pc` (R48), and runs. -/
def JumpsTo (s' : State) (t : TId) (pc : BitVec 64) : Prop :=
  (s'.th t).pc = pc ∧ (s'.th t).widx = 1 ∧ (s'.th t).clause = none ∧ (s'.th t).rep = none ∧ (s'.th t).ifpN = 0 ∧
    (s'.th t).run = .running

/-- The thread has not executed the instruction: it stands where it stood, and waits for `w`. -/
def HeldAt (s s' : State) (t : TId) (w : Wait) : Prop :=
  (s'.th t).pc = (s.th t).pc ∧ (s'.th t).widx = (s.th t).widx ∧ (s'.th t).clause = (s.th t).clause ∧ (s'.th t).run = .waiting w

/-! ## Frames -/

/-- A state that differs from another in bytes of the debug block of microscope core `m`, and in the microscope cores, at most. -/
structure SameButDebug (m : Nat) (a b : State) : Prop where
  eq : b = { a with mem := b.mem, part := { a.part with micros := b.part.micros } }
  mem : ∀ k, k < debugBase m ∨ debugBase (m + 1) ≤ k → b.byte k = a.byte k

/-- Everything a thread holds but the registers and predicates named, where it stands, its age and its windows. -/
structure KeepsThread (x y : Thread) (rs : List VReg) (ps : List PReg) : Prop where
  regs : ∀ r, r ∉ rs → y.reg r = x.reg r
  preds : ∀ p, p ∉ ps → y.pred p = x.pred p
  recs : y.recs = x.recs
  tpc : y.tpc = x.tpc
  tval : y.tval = x.tval
  tcause : y.tcause = x.tcause
  send : y.send = x.send
  wcBuf : y.wcBuf = x.wcBuf
  held : y.held = x.held
  cmpl : y.cmpl = x.cmpl
  watch : y.watch = x.watch

/-- Everything a group holds but the group registers named and its place in the active set. -/
structure KeepsGroup (x y : Group) (gs : List GReg) : Prop where
  regs : ∀ r, r ∉ gs → y.reg r = x.reg r
  alloc : y.n = x.n
  masks : y.jE = x.jE ∧ y.jA = x.jA
  counters : y.wc = x.wc
  narmode : y.narmode = x.narmode
  emuvec : y.emuvec = x.emuvec
  home : y.core = x.core ∧ y.hosted = x.hosted

/-- An outstanding operation without its register-write window. -/
def Op.bare (o : Op) : Op := { o with dlv := o.dlv.map fun d => { d with win := 0 } }

/-- The part, but for the windows of outstanding operations, the marks on open operand windows, the progress of launches and the
microscope cores' trace controls. -/
structure KeepsPart (p q : Part) : Prop where
  ops : q.ops.map Op.bare = p.ops.map Op.bare
  windows : q.windows.length = p.windows.length
  launches : q.launches.map Launch.key = p.launches.map Launch.key
  rest : q = { p with ops := q.ops, windows := q.windows, launches := q.launches, micros := q.micros }

/-- A register-only instruction of thread `t` changes these registers of it and no more: no other thread, no byte outside the
debug block of its microscope core if a microscope core hosts it (R104, R257). -/
structure RegisterFrame (s s' : State) (t : TId) (rs : List VReg) (ps : List PReg) (gs : List GReg) : Prop where
  own : KeepsThread (s.th t) (s'.th t) rs ps
  others : ∀ u, u ≠ t → s'.th u = s.th u
  group : KeepsGroup (s.gr t.gid) (s'.gr t.gid) gs
  groups : ∀ g, g ≠ t.gid → KeepsGroup (s.gr g) (s'.gr g) []
  teams : s'.teams = s.teams
  part : KeepsPart s.part s'.part
  time : s'.time = s.time
  mem : ∀ a, (∀ h, (s.gr t.gid).hosted = some h → a < debugBase h.m ∨ debugBase (h.m + 1) ≤ a) → s'.byte a = s.byte a

end Machine

end Sys2Proof
end

