-- ==== Sys2Proof/Certificates/Slice0/Obligations.lean ====
section
/-! DEFINITION. The statements for the provers. Each `def Obligations.<Name>` is one statement, listed in OBLIGATIONS.json; the
terms it uses stand in Safety.lean and before it. A statement about an instruction is about its own effect in every state in
which nothing keeps the thread from it (`Clear`: R235, steps 2 to 4). -/

open Sys2Proof Sys2Proof.Machine

/-! ## Encoding -/

/-- R48, R56, R58: the words of a well-formed instruction decode to it, every operand at every value its entry admits, whatever
word follows; an instruction has an extension word exactly when its X bit says so. -/
def Obligations.DecodeOfEncode : Prop :=
  ∀ (i : Instr) (w : Word) (ws : List Word), i.wf = true → encode i = w :: ws →
    ∀ y : Word, decodeWord w (ws.headD y) = .ok i ∧ hasExtension w = !ws.isEmpty ∧ ws.length ≤ 1

/-- R50, R56, R73: a word that decodes (with the word after it) is the encoding of what it decodes to, which is well formed: no
bit of it is ignored, and no operand outside its entry's values is accepted. -/
def Obligations.EncodeOfDecode : Prop :=
  ∀ (w x : Word) (i : Instr), decodeWord w x = .ok i → i.wf = true ∧ encode i = if hasExtension w then [w, x] else [w]

/-- Words written out from the encodings of the spec: MOV (R399), IMULH.s and IADDI (R377), MOVI with its literal (R58), BRA (R59), LD
(R388), ANDI (R322), LEA (R392), NOP (R404), HADD2 and HFMA2 (R374), REDG (R420), and the IFP and REPEAT of R59's fragment. -/
def Obligations.WordsDecode : Prop :=
  decodeWord 0x0880400E#32 0#32 = .ok (.mov 16#7 4#7) ∧
  decodeWord 0x042060E3#32 0#32 = .ok (.imulhS 4#7 6#7 7#7) ∧
  decodeWord 0x0C183FFF#32 0#32 = .ok (.iaddi 3#7 3#7 0xFFF#12) ∧
  decodeWord 0x20401000#32 0x12345678#32 = .ok (.moviX 8#7 0x12345678#32) ∧
  decodeWord 0x413FFFF9#32 0#32 = .ok (.bra 2#3 0#1 0x3FFFF9#22) ∧
  decodeWord 0x6020A220#32 0#32 = .ok (.ld 4#7 10#7 1#3 0#2 1#2 0#4) ∧
  decodeWord 0x10A14FFC#32 0#32 = .ok (.andi 20#7 20#7 0xFFC#12) ∧
  decodeWord 0x2460A020#32 0#32 = .ok (.lea 12#7 10#7 32#12) ∧
  decodeWord 0x5C000000#32 0#32 = .ok .nop ∧
  decodeWord 0x38181040#32 0#32 = .ok (.hadd2F16 3#7 1#7 2#7) ∧
  decodeWord 0x38181045#32 0#32 = .ok (.hfma2Bf16 3#7 1#7 2#7) ∧
  decodeWord 0x3C484007#32 0#32 = .ok (.redgAdd 9#7 4#7 0#7) ∧
  decodeWord 0x3C484109#32 0#32 = .ok (.redgMax 9#7 4#7 8#7) ∧
  decodeWord 0x50080001#32 0#32 = .ok (.ifp 0#1 1#3 1#4) ∧
  decodeWord 0x54380003#32 0#32 = .ok (.repeatN 7#3 0#2 3#4)

/-! ## Steps -/

/-- R237: thread `t` has taken a trap to `vec`: its resume address, TVAL, TCAUSE, and where it stands. -/
structure Trapped (s s' : State) (t : TId) (vec : BitVec 64) (code : Nat) (val : BitVec 64) (reason : Nat) : Prop where
  stand : JumpsTo s' t vec
  tpc : (s'.th t).tpc = (s.th t).pc &&& 0x00FFFFFFFFFFFFFF#64
  tval : (s'.th t).tval = val
  tcause : (s'.th t).tcause = tcauseOf true (decide (0 < (s.th t).ifpN)) (decide (0 < (s.th t).ifpN) && (s.th t).ifpG) reason
    (s.th t).widx code

/-- A thread whose trap goes to `vec` (R237): not in a handler, its context has a TRAPVEC, its word lies in its clause. -/
structure Vectored (s : State) (t : TId) (vec : BitVec 64) : Prop where
  ctx : ∃ c, s.ctxOf t.team = some c ∧ c.trapvec = vec
  some : vec ≠ 0#64
  level : (s.th t).inh = false
  inside : ∀ c, (s.th t).clause = .some c → (s.th t).widx ≤ c.count

/-- A thread whose trap of a cause goes to `vec`: an ILLEGAL to its group's EMUVEC, another to its context's TRAPVEC (R237). -/
def VectoredFor (s : State) (t : TId) (cause : Nat) (vec : BitVec 64) : Prop :=
  if cause = 1 then (s.gr t.gid).emuvec = vec ∧ vec ≠ 0#64 ∧ (s.th t).inh = false ∧ ∀ c, (s.th t).clause = .some c → (s.th t).widx ≤ c.count
  else Vectored s t vec

/-- The instruction `i` that a thread's word holds in its clause: as it stands, or under a REPEAT with its fields stepped (R67). -/
def WordHolds (x : Thread) (c : Clause) (i : Instr) : Prop :=
  (x.rep = none ∧ decodeWord (c.word x.widx) (c.word (x.widx + 1)) = .ok i) ∨
    ∃ r, x.rep = some r ∧ decodeWord (steppedWord (c.word x.widx) r.sm r.stride r.k) (c.word (x.widx + 1)) = .ok i

/-- The words that a void instruction takes along: its own, and a REPEAT its target's (R67). -/
def voidLen (x : Thread) (c : Clause) : Instr → Nat
  | .repeatN _ _ _ => 1 + (c.instrAt (x.widx + 1) none).len
  | i => i.len

/-- The schedule gives the turn to an issue group, which finds the state `s1`. -/
structure TurnOf (s s1 : State) (ths : List TId) (rest : List Turn) : Prop where
  sched : s.sched = .issue ths :: rest
  found : s1 = prepared.run { s with sched := rest }
  group : issuable s1 ths = true

/-- R15, R48, R64, R65, R67, R68: a turn of an issue group whose threads stand at a word of their clause that decodes to an instruction runs
that instruction, with the fields stepped under a REPEAT: the step is `exec` of it, with the issue group noted, on a microscope core what it
does alone (R249), and the cycle counted for the cluster's activity (R452). A WATCH of a store that a drain has performed is taken before it
(R234). Under a false guard the word is void: the thread moves on, nothing else changes, and a cross-lane instruction is noted as passed. Threads
of two groups at one word execute one after the other in the same turn.
Turns are the model's choice (log 4), and so is how threads share an issue group (log 7). -/
def Obligations.StepRunsDecoded : Prop :=
  (∀ (s s1 : State) (t : TId) (ts : List TId) (rest : List Turn) (c : Clause) (i : Instr),
    TurnOf s s1 (t :: ts) rest → (∀ u ∈ ts, (s1.th t).sameStand (s1.th u) = true) → (s1.th t).clause = some c →
    let s2 : State := { s1 with cur := ⟨t.gid, t :: ts⟩ }
    ((∀ u ∈ t :: ts, (s1.th u).watch = none) → (s1.th t).voided = false → WordHolds (s1.th t) c i →
      step s = ended s1 (t :: ts) (exec i s2) ∧
        ∀ s', exec i s2 = .next s' → (s'.gr s'.cur.gid).hosted = none →
          step s = .next (s'.applyAll (countIssue s1 s' (t :: ts)))) ∧
    ((∃ u ∈ t :: ts, (s1.th u).watch.isSome = true) → step s = ended s1 (t :: ts) (.next ((perThread takeWatch).run s2)))) ∧
  (∀ (s s1 : State) (t : TId) (rest : List Turn) (c : Clause) (i : Instr), TurnOf s s1 [t] rest → (s1.th t).clause = some c →
    (s1.th t).watch = none → (s1.th t).voided = true → decodeWord (c.word (s1.th t).widx) (c.word ((s1.th t).widx + 1)) = .ok i →
    Unhosted s1 t →
    ∃ s', step s = .next s' ∧ MovesOn s1 s' t (voidLen (s1.th t) c i) ∧ (∀ r, (s'.th t).reg r = (s1.th t).reg r) ∧
      (∀ p, (s'.th t).pred p = (s1.th t).pred p) ∧
      (i.crossLane = false → s'.mem = s1.mem ∧ ∀ u, u ≠ t → s'.th u = s1.th u) ∧
      (i.crossLane = true → ∃ a ∈ (s'.gr t.gid).passed, a.addr = (s1.th t).wordAt ∧ a.idx = t.idx)) ∧
  (∀ (s s1 s' : State) (t u : TId) (rest : List Turn) (c d : Clause) (i j : Instr), TurnOf s s1 [t, u] rest →
    (s1.th t).sameStand (s1.th u) = false → (s1.th t).clause = some c → (s1.th t).watch = none → (s1.th t).voided = false →
    WordHolds (s1.th t) c i → exec i { s1 with cur := ⟨t.gid, [t]⟩ } = .next s' → issuable s' [u] = true → (s'.th u).clause = some d →
    (s'.th u).watch = none → (s'.th u).voided = false → WordHolds (s'.th u) d j →
    step s = ended s1 [t, u] (exec j { s' with cur := ⟨u.gid, [u]⟩ }))

/-- A thread that stands at a clause header, which no re-entry or void IFP concerns, with its turn. -/
structure AtHeader (s s1 : State) (t : TId) (rest : List Turn) : Prop where
  turn : TurnOf s s1 [t] rest
  watch : (s1.th t).watch = none
  clause : (s1.th t).clause = none
  first : (s1.th t).widx = 1
  guard : (s1.th t).resumeG = none ∧ (s1.th t).ifpN = 0 ∧ (s1.th t).ifpVoid = none
  rep : (s1.th t).rep = none
  gen : (s1.tm t.team).gen ≠ 1

/-- R48, R50, R53: threads at a clause header whose words in memory form a clause that passes the checks enter it, and the step is `exec`
of the instruction that its first word holds. A header that fails its checks raises ICLAUSE with TVAL 0; a word that fails one raises its
cause, ICLAUSE, ILLEGAL or PRIV, with TVAL its word index; a fetch that faults is offered to the kernel when it is NOMAP or PERM, and denied or
of another reason raises PFAULT with the word's address; a PC that is no multiple of 4 raises ALIGN (R238). All of them have WIDX 1.
Turns are the model's choice (log 4); the header is checked first (log 26). -/
def Obligations.StepEntersClause : Prop :=
  (∀ (s s1 : State) (t : TId) (rest : List Turn) (h : Word) (ws : List Word) (us vs : List Upd) (i : Instr), AtHeader s s1 t rest →
    let s2 : State := { s1 with cur := ⟨t.gid, [t]⟩ }
    let c : Clause := ⟨h, mapWords (s1.tm t.team).gen false ws, false⟩
    (s1.th t).pc.toNat % 4 = 0 → fetchWord s2 (agentOf s2 t) (s1.th t).pc = (.ok h, us) → headerBad h = false →
    fetchWords s2 (agentOf s2 t) ((s1.th t).pc + 4#64) (field h 0 4).toNat = (.ok ws, vs) →
    checkItems (agentOf s2 t).user false (field h 8 3).toNat 0 (itemsOf (s1.tm t.team).gen false 1 ws) = none →
    decodeWord (c.word 1) (c.word 2) = .ok i →
      ∃ s', step s = ended s1 [t] (exec i s') ∧ (s'.th t).clause = some c ∧ (s'.th t).pc = (s1.th t).pc ∧ (s'.th t).widx = 1 ∧
        s'.cur = ⟨t.gid, [t]⟩) ∧
  (∀ (s s1 : State) (t : TId) (rest : List Turn) (h : Word) (us : List Upd) (vec : BitVec 64), AtHeader s s1 t rest → Unhosted s1 t →
    let s2 : State := { s1 with cur := ⟨t.gid, [t]⟩ }
    (s1.th t).pc.toNat % 4 = 0 → fetchWord s2 (agentOf s2 t) (s1.th t).pc = (.ok h, us) → headerBad h = true → Vectored s1 t vec →
      ∃ s', step s = .next s' ∧ Trapped s1 s' t vec 2 0#64 0) ∧
  (∀ (s s1 : State) (t : TId) (rest : List Turn) (h : Word) (ws : List Word) (us vs : List Upd) (cause w : Nat) (vec : BitVec 64),
    AtHeader s s1 t rest → Unhosted s1 t →
    let s2 : State := { s1 with cur := ⟨t.gid, [t]⟩ }
    (s1.th t).pc.toNat % 4 = 0 → fetchWord s2 (agentOf s2 t) (s1.th t).pc = (.ok h, us) → headerBad h = false →
    fetchWords s2 (agentOf s2 t) ((s1.th t).pc + 4#64) (field h 0 4).toNat = (.ok ws, vs) →
    checkItems (agentOf s2 t).user false (field h 8 3).toNat 0 (itemsOf (s1.tm t.team).gen false 1 ws) = some (cause, w) →
    VectoredFor s1 t cause vec →
      (cause = 1 ∨ cause = 2 ∨ cause = 3) ∧ ∃ s', step s = .next s' ∧ Trapped s1 s' t vec cause (BitVec.ofNat 64 w) 0) ∧
  (∀ (s s1 : State) (t : TId) (rest : List Turn) (r : Nat) (va : BitVec 64) (vec : BitVec 64), AtHeader s s1 t rest → Unhosted s1 t →
    let s2 : State := { s1 with cur := ⟨t.gid, [t]⟩ }
    (s1.th t).pc.toNat % 4 = 0 →
    (((fetchWord s2 (agentOf s2 t) (s1.th t).pc).1 = .error r ∧ va = (s1.th t).pc) ∨
      ∃ h us, fetchWord s2 (agentOf s2 t) (s1.th t).pc = (.ok h, us) ∧ headerBad h = false ∧
        (fetchWords s2 (agentOf s2 t) ((s1.th t).pc + 4#64) (field h 0 4).toNat).1 = .error (r, va)) → Vectored s1 t vec →
      ∃ s', step s = .next s' ∧
        ((r = 4 ∨ r = 5) → (s1.th t).denied = false → (s'.th t).run = .offered va (BitVec.ofNat 4 r) ∧ (s'.th t).pc = (s1.th t).pc) ∧
        ((r ≠ 4 ∧ r ≠ 5) ∨ (s1.th t).denied = true → Trapped s1 s' t vec 5 va r)) ∧
  (∀ (s s1 : State) (t : TId) (rest : List Turn) (vec : BitVec 64), AtHeader s s1 t rest → Unhosted s1 t →
    (s1.th t).pc.toNat % 4 ≠ 0 → Vectored s1 t vec →
      ∃ s', step s = .next s' ∧ Trapped s1 s' t vec 6 (s1.th t).pc 0)

/-- A turn that the schedule gives to an event runs the event's meaning; a TIME cycle adds one to TIME (R272), and where no wave is due
and no thread waits at a rendezvous it leaves memory and the threads as they are; every instruction and event, in every state, answers a next
state.
Turns are the model's choice (log 4). -/
def Obligations.StepTakesTurns : Prop :=
  (∀ (i : Instr) (s : State), ∃ s', exec i s = .next s') ∧
  (∀ (s : State) (i : Instr) (rest : List Turn), s.sched = .event i :: rest → step s = exec i { s with sched := rest }) ∧
  (∀ (s : State) (rest : List Turn), s.sched = .tick :: rest →
    ∃ s', step s = .next s' ∧ s'.time = s.time + 1 ∧
      ((∀ c ∈ s.part.clusters.toList, c.waves = []) → (∀ x ∈ s.threads, x.run ≠ .waiting .rendezvous) →
        s'.mem = s.mem ∧ s'.threads = s.threads))

/-- Every step keeps the byte stores in their one canonical form, whatever state it starts from.
The byte stores and their one form are the model's choice (log 1). -/
def Obligations.StepKeepsSafe : Prop := ∀ s s' : State, Safe s → step s = .next s' → Safe s'

/-- R2: the state after reset, and the part without power, have the canonical form.
The byte stores and their one form are the model's choice (log 1). -/
def Obligations.ResetSafe : Prop := Safe State.reset ∧ ∀ s s' : State, Safe s → exec .powerLoss s = .next s' → Safe s'

/-- R272: TIME never falls, nor do the counters from which free values and names are taken, in any step but the loss of power.
Free values and names are the model's own fields (log 4, log 6). -/
def Obligations.StepIsMonotone : Prop :=
  ∀ s s' : State, step s = .next s' → (nextTurn s).1 ≠ .event .powerLoss →
    s.time ≤ s'.time ∧ s.free ≤ s'.free ∧ s.nextId ≤ s'.nextId

/-- What reset leaves in the registers whose reset values the spec gives: TIME counts from cold power-on (R272), every cluster's
CLPWR, RATIO and CSLOPE (R262, R263, R266), NETCTL (R212), the links (R268), TRCTL (R256), every trip register off (R246), BOOTST
(R296). -/
def Obligations.ResetRegisters : Prop :=
  State.reset.time = 0 ∧ State.reset.part.bootst = 0#8 ∧
  (∀ c ∈ State.reset.part.clusters.toList,
    c.auto = true ∧ c.ceil = 2#2 ∧ c.pcap = 0#8 ∧ c.cur = 1#2 ∧ c.target = none ∧ c.therm = false ∧ c.slope = 64#16 ∧ c.half = 0) ∧
  (∀ d ∈ State.reset.part.dies.toList,
    d.netctl = 1#1 ++ 1#1 ++ 0#6 ++ 0x40#8 ++ 4#4 ++ 4#4 ++ 4#4 ++ 0#4 ∧
      ∀ l ∈ d.links.toList, l.width = 2#2 ∧ l.shed = true ∧ l.minw = 0#2) ∧
  (∀ m ∈ State.reset.part.micros.toList, m.trctl = 0#32 ∧ ∀ x ∈ m.slots.toList, x.gid = none) ∧
  (∀ r ∈ State.reset.part.trips.toList, r.ctl = 0#32)

/-! ## Register-only instructions -/

/-- What an instruction that writes one v register writes: the register, the registers it reads in the order in which it
takes their poison (R148), and the value, from the thread's registers and its group's NARMODE. -/
structure AluEffect where
  d : VReg
  srcs : List VReg
  val : Thread → Group → Word

/-- R58, R377, R378, R394, R308, R322, R333, R335, R339, R399, R405, R409, R410, R423, R448: the integer and logic instructions,
by the numbers that their operands stand for: `toNat` as .n32, `toInt` as .s32. -/
def intEffect : Instr → Option AluEffect
  | .iadd d a b => some ⟨d, [a, b], fun x _ => BitVec.ofNat 32 ((x.val a).toNat + (x.val b).toNat)⟩
  | .isub d a b => some ⟨d, [a, b], fun x _ => BitVec.ofInt 32 ((x.val a).toInt - (x.val b).toInt)⟩
  | .imul d a b => some ⟨d, [a, b], fun x _ => BitVec.ofNat 32 ((x.val a).toNat * (x.val b).toNat)⟩
  | .imulhS d a b => some ⟨d, [a, b], fun x _ => BitVec.ofInt 32 ((x.val a).toInt * (x.val b).toInt / 2 ^ 32)⟩
  | .imulhN d a b => some ⟨d, [a, b], fun x _ => BitVec.ofNat 32 ((x.val a).toNat * (x.val b).toNat / 2 ^ 32)⟩
  | .imad d a b => some ⟨d, [a, b, d], fun x _ => BitVec.ofNat 32 ((x.val a).toNat * (x.val b).toNat + (x.val d).toNat)⟩
  | .iminS d a b => some ⟨d, [a, b], fun x _ => BitVec.ofInt 32 (min (x.val a).toInt (x.val b).toInt)⟩
  | .iminN d a b => some ⟨d, [a, b], fun x _ => BitVec.ofNat 32 (min (x.val a).toNat (x.val b).toNat)⟩
  | .imaxS d a b => some ⟨d, [a, b], fun x _ => BitVec.ofInt 32 (max (x.val a).toInt (x.val b).toInt)⟩
  | .imaxN d a b => some ⟨d, [a, b], fun x _ => BitVec.ofNat 32 (max (x.val a).toNat (x.val b).toNat)⟩
  | .iabs d a => some ⟨d, [a], fun x _ => BitVec.ofNat 32 (x.val a).toInt.natAbs⟩
  | .isel d a b => some ⟨d, [a, b, d], fun x _ => if x.val d ≠ 0#32 then x.val a else x.val b⟩
  | .iaddi d a imm => some ⟨d, [a], fun x _ => BitVec.ofInt 32 ((x.val a).toInt + imm.toInt)⟩
  | .and d a b => some ⟨d, [a, b], fun x _ => x.val a &&& x.val b⟩
  | .or d a b => some ⟨d, [a, b], fun x _ => x.val a ||| x.val b⟩
  | .xor d a b => some ⟨d, [a, b], fun x _ => x.val a ^^^ x.val b⟩
  | .not d a => some ⟨d, [a], fun x _ => ~~~x.val a⟩
  | .shl d a b => some ⟨d, [a, b], fun x _ => BitVec.ofNat 32 ((x.val a).toNat * 2 ^ ((x.val b).toNat % 32))⟩
  | .shr d a b => some ⟨d, [a, b], fun x _ => BitVec.ofNat 32 ((x.val a).toNat / 2 ^ ((x.val b).toNat % 32))⟩
  | .sar d a b => some ⟨d, [a, b], fun x _ => BitVec.ofInt 32 ((x.val a).toInt / 2 ^ ((x.val b).toNat % 32))⟩
  | .rot d a b => some ⟨d, [a, b], fun x _ => (x.val a).rotateLeft ((x.val b).toNat % 32)⟩
  | .andi d a imm => some ⟨d, [a], fun x _ => x.val a &&& imm.signExtend 32⟩
  | .ori d a imm => some ⟨d, [a], fun x _ => x.val a ||| imm.signExtend 32⟩
  | .xori d a imm => some ⟨d, [a], fun x _ => x.val a ^^^ imm.signExtend 32⟩
  | .popc d a => some ⟨d, [a], fun x _ => BitVec.ofNat 32 ((List.range 32).filter (x.val a).getLsbD).length⟩
  | .clz d a => some ⟨d, [a], fun x _ => BitVec.ofNat 32 (if x.val a = 0#32 then 32 else 31 - (x.val a).toNat.log2)⟩
  | .brev d a => some ⟨d, [a], fun x _ => (x.val a).reverse⟩
  | .mov d a => some ⟨d, [a], fun x _ => x.val a⟩
  | .movi d imm => some ⟨d, [], fun _ _ => BitVec.ofInt 32 imm.toInt⟩
  | .moviX d lit => some ⟨d, [], fun _ _ => lit⟩
  | _ => none

/-- R308, R333, R355 to R361, R374, R378, R394: the packed, bit-field and floating-point instructions, by the functions of the
number formats; the packed ones act on each half. -/
def fmtEffect : Instr → Option AluEffect
  | .iadd2 d a b => some ⟨d, [a, b], fun x _ => halves (· + ·) (x.val a) (x.val b)⟩
  | .isub2 d a b => some ⟨d, [a, b], fun x _ => halves (· - ·) (x.val a) (x.val b)⟩
  | .imin2S d a b => some ⟨d, [a, b], fun x _ => halves (fun u v => if v.slt u then v else u) (x.val a) (x.val b)⟩
  | .imin2N d a b => some ⟨d, [a, b], fun x _ => halves (fun u v => if v.ult u then v else u) (x.val a) (x.val b)⟩
  | .imax2S d a b => some ⟨d, [a, b], fun x _ => halves (fun u v => if u.slt v then v else u) (x.val a) (x.val b)⟩
  | .imax2N d a b => some ⟨d, [a, b], fun x _ => halves (fun u v => if u.ult v then v else u) (x.val a) (x.val b)⟩
  | .maxd2 d a b => some ⟨d, [a, b], fun x _ => halves maxDecide (x.val a) (x.val b)⟩
  | .bfxS d a b => some ⟨d, [a, b], fun x _ => bfxS (x.val a) (x.val b)⟩
  | .bfxN d a b => some ⟨d, [a, b], fun x _ => bfxN (x.val a) (x.val b)⟩
  | .bfi d a b => some ⟨d, [a, b, d], fun x _ => bfiW (x.val a) (x.val b) (x.val d)⟩
  | .fadd d a b => some ⟨d, [a, b], fun x _ => fadd32 (x.val a) (x.val b)⟩
  | .fsub d a b => some ⟨d, [a, b], fun x _ => fsub32 (x.val a) (x.val b)⟩
  | .fmul d a b => some ⟨d, [a, b], fun x _ => fmul32 (x.val a) (x.val b)⟩
  | .ffma d a b => some ⟨d, [a, b, d], fun x _ => ffma32 (x.val a) (x.val b) (x.val d)⟩
  | .fmin d a b => some ⟨d, [a, b], fun x _ => fmin32 (x.val a) (x.val b)⟩
  | .fmax d a b => some ⟨d, [a, b], fun x _ => fmax32 (x.val a) (x.val b)⟩
  | .fdot2 d a b => some ⟨d, [a, b, d], fun x _ => fdot2 (x.val a) (x.val b) (x.val d)⟩
  | .fkey d a => some ⟨d, [a], fun x _ => fkey (x.val a)⟩
  | .fclass d a => some ⟨d, [a], fun x _ => fclass (x.val a)⟩
  | .fcvt d a f => some ⟨d, [a], fun x g => fcvt f.toNat g.narmode (x.val a)⟩
  | .frcp d a => some ⟨d, [a], fun x _ => frcp (x.val a)⟩
  | .frsq d a => some ⟨d, [a], fun x _ => frsq (x.val a)⟩
  | .fsqrt d a => some ⟨d, [a], fun x _ => fsqrt (x.val a)⟩
  | .fexp2 d a => some ⟨d, [a], fun x _ => fexp2 (x.val a)⟩
  | .flog2 d a => some ⟨d, [a], fun x _ => flog2 (x.val a)⟩
  | .fsin d a => some ⟨d, [a], fun x _ => fsin (x.val a)⟩
  | .fcos d a => some ⟨d, [a], fun x _ => fcos (x.val a)⟩
  | .hadd2F16 d a b => some ⟨d, [a, b], fun x g => hadd2 fp16 g.narmode (x.val a) (x.val b)⟩
  | .hadd2Bf16 d a b => some ⟨d, [a, b], fun x g => hadd2 bf16 g.narmode (x.val a) (x.val b)⟩
  | .hmul2F16 d a b => some ⟨d, [a, b], fun x g => hmul2 fp16 g.narmode (x.val a) (x.val b)⟩
  | .hmul2Bf16 d a b => some ⟨d, [a, b], fun x g => hmul2 bf16 g.narmode (x.val a) (x.val b)⟩
  | .hfma2F16 d a b => some ⟨d, [a, b, d], fun x g => hfma2 fp16 g.narmode (x.val a) (x.val b) (x.val d)⟩
  | .hfma2Bf16 d a b => some ⟨d, [a, b, d], fun x g => hfma2 bf16 g.narmode (x.val a) (x.val b) (x.val d)⟩
  | .hmin2F16 d a b => some ⟨d, [a, b], fun x _ => hmin2 fp16 (x.val a) (x.val b)⟩
  | .hmin2Bf16 d a b => some ⟨d, [a, b], fun x _ => hmin2 bf16 (x.val a) (x.val b)⟩
  | .hmax2F16 d a b => some ⟨d, [a, b], fun x _ => hmax2 fp16 (x.val a) (x.val b)⟩
  | .hmax2Bf16 d a b => some ⟨d, [a, b], fun x _ => hmax2 bf16 (x.val a) (x.val b)⟩
  | _ => none

/-- R148: a result is poisoned when a register it reads is, with the index of the first such one. -/
def resultOf (x : Thread) (srcs : List VReg) (w : Word) : Reg :=
  match srcs.find? fun r => (x.reg r).poison with
  | some r => ⟨w, true, (x.reg r).idx⟩
  | none => ⟨w, false, 0#3⟩

/-- The instruction completes with the effect: the destination takes the value, with its poison; the thread moves on. -/
def CompletesWith (i : Instr) (e : AluEffect) : Prop :=
  ∀ (s : State) (t : TId), Solo s t → Clear s t i [] [] →
    ∃ s', exec i s = .next s' ∧ (s'.th t).reg e.d = resultOf (s.th t) e.srcs (e.val (s.th t) (s.gr t.gid)) ∧
      MovesOn s s' t i.len

/-- The integer, logic and literal instructions complete with the values of their rules. -/
def Obligations.IntegerResults : Prop := ∀ (i : Instr) (e : AluEffect), intEffect i = some e → CompletesWith i e

/-! ## The number formats -/

/-- R112: the number that a value stands for; NaN and the infinities stand for none. -/
def ratOf : FVal → ℚ
  | .fin s m e => (if s then -1 else 1) * m * 2 ^ e
  | _ => 0

/-- A finite value with sign `s` that stands for `q`. -/
def IsFinite (v : FVal) (s : Bool) (q : ℚ) : Prop := ∃ m e, v = .fin s m e ∧ ratOf v = q

/-- R112, R114: the magnitude of the code with exponent field and fraction field `k`. The code of an infinity reads as the power
of two that follows the largest finite value. -/
def magnitudeOf (f : Fmt) (k : Nat) : ℚ :=
  let e := k / 2 ^ f.fw
  let m : ℚ := ((k % 2 ^ f.fw : Nat) : ℚ) / 2 ^ f.fw
  if f = f8 ∧ k = 0x7E then 240 else if e = 0 then 2 ^ (1 - f.bias) * m else 2 ^ ((e : ℤ) - f.bias) * (1 + m)

/-- R112, R114: the codes. -/
def CodesRead : Prop :=
  fp32 = ⟨8, 23, 127⟩ ∧ fp16 = ⟨5, 10, 15⟩ ∧ bf16 = ⟨8, 7, 127⟩ ∧ f8 = ⟨4, 3, 8⟩ ∧ (∀ x : Word, unpack32 x = fp32.unpack x.toNat) ∧
  ∀ f ∈ [fp32, fp16, bf16, f8], ∀ (s : Bool) (k : Nat), k < 2 ^ (f.ew + f.fw) →
    let v := f.unpack ((if s then 2 ^ (f.ew + f.fw) else 0) + k)
    let top := (2 ^ f.ew - 1) * 2 ^ f.fw
    if f = f8 then (if k = 0x7F then v = .nan s else IsFinite v s ((if s then -1 else 1) * magnitudeOf f k))
    else if k = top then v = .inf s
    else if top < k then v = .nan s
    else IsFinite v s ((if s then -1 else 1) * magnitudeOf f k)

/-- R115, R120: of two neighbours `lo ≤ m < hi` with the codes `j` and `j + 1`, the code that `m` rounds to. -/
def rounded (rm : Nat) (s : Bool) (lo hi m : ℚ) (j : Nat) : Nat :=
  if m = lo then j else match rm with
    | 0 => if m - lo < hi - m ∨ (m - lo = hi - m ∧ j % 2 = 0) then j else j + 1
    | 1 => j
    | 2 => if s then j + 1 else j
    | _ => if s then j else j + 1

/-- R115, R120: the magnitude `m` of sign `s` rounds to the code `k`, `top` being the first code above the finite ones. -/
def RoundsTo (f : Fmt) (rm : Nat) (s : Bool) (top : Nat) (m : ℚ) (k : Nat) : Prop :=
  ∃ j, j ≤ top ∧ magnitudeOf f j ≤ m ∧
    if j = top then k = top else m < magnitudeOf f (j + 1) ∧ k = rounded rm s (magnitudeOf f j) (magnitudeOf f (j + 1)) m j

/-- R114, R115, R120: the code of a result, without its sign: a magnitude at or above the one after the largest finite value overflows. -/
def Narrows (f : Fmt) (rm : Nat) (sat s : Bool) (m : ℚ) (c : Nat) : Prop :=
  if f = f8 then if 256 ≤ m then c = (if sat then 0x7E else 0x7F) else RoundsTo f rm s 0x7E m c
  else
    let top := (2 ^ f.ew - 1) * 2 ^ f.fw
    ∃ k, RoundsTo f rm s top m k ∧
      c = if k < top then k else if sat then top - 1 else match rm with
        | 0 => top
        | 1 => top - 1
        | 2 => if s then top else top - 1
        | _ => if s then top - 1 else top

/-- R115: the canonical NaN of a format, its sign clear. -/
def canonicalNan (f : Fmt) : Nat :=
  if f = fp32 then 0x7FC00000 else if f = fp16 then 0x7E00 else if f = bf16 then 0x7FC0 else 0x7F

/-- R115, R120: what a value becomes in a format, under a rounding mode and saturation; FP32 rounds to nearest even. -/
def CodesWritten : Prop :=
  (∀ f ∈ [fp32, fp16, bf16, f8], ∀ (rm : Nat) (sat s : Bool), rm < 4 →
    let sign := if s then 2 ^ (f.ew + f.fw) else 0
    f.pack rm sat (.nan s) = sign + canonicalNan f ∧
    f.pack rm sat (.inf s) = sign + (if f = f8 then (if sat then 0x7E else 0x7F)
      else (2 ^ f.ew - 1) * 2 ^ f.fw - (if sat then 1 else 0)) ∧
    ∀ (m : Nat) (e : Int), ∃ c, f.pack rm sat (.fin s m e) = sign + c ∧ Narrows f rm sat s (m * 2 ^ e) c) ∧
  (∀ v : FVal, round32 v = if v.isNan then 0x7FC00000#32 else BitVec.ofNat 32 (fp32.pack 0 false v)) ∧
  ∀ (rm : Nat) (s : Bool) (m : Nat) (e : Int), rm < 4 →
    let q : ℚ := m * 2 ^ e
    roundInt rm s m e = rounded rm s ⌊q⌋₊ (⌊q⌋₊ + 1) q ⌊q⌋₊

/-- R355, R374: the exact sum, with the sign of an exact zero by the rounding mode `rm`. -/
def sumExact (rm : Nat) (x y r : FVal) : Prop :=
  match x, y with
  | .nan _, _ => r = .nan false
  | _, .nan _ => r = .nan false
  | .inf s, .inf t => r = if s = t then .inf s else .nan false
  | .inf s, .fin _ _ _ => r = .inf s
  | .fin _ _ _, .inf t => r = .inf t
  | .fin s m _, .fin t n _ =>
    let q := ratOf x + ratOf y
    IsFinite r (if q = 0 then (if s = t ∧ m = 0 ∧ n = 0 then s else decide (rm = 2)) else decide (q < 0)) q

/-- R355, R374: the exact product. -/
def productExact (x y r : FVal) : Prop :=
  match x, y with
  | .nan _, _ => r = .nan false
  | _, .nan _ => r = .nan false
  | .inf s, .inf t => r = .inf (xor s t)
  | .inf s, .fin t n _ => r = if n = 0 then .nan false else .inf (xor s t)
  | .fin s m _, .inf t => r = if m = 0 then .nan false else .inf (xor s t)
  | .fin s _ _, .fin t _ _ => IsFinite r (xor s t) (ratOf x * ratOf y)

/-- R124: GroupSum before its rounding: `e` is the largest exponent, and every term is cut off below 2^(e − 26). -/
def groupExact (ps : List FVal) (r : FVal) : Prop :=
  if (∃ s, .nan s ∈ ps) ∨ (.inf false ∈ ps ∧ .inf true ∈ ps) then r = .nan false
  else if .inf false ∈ ps then r = .inf false
  else if .inf true ∈ ps then r = .inf true
  else if ∀ p ∈ ps, ratOf p = 0 then IsFinite r (decide (ps ≠ [] ∧ ∀ p ∈ ps, p.sign = true)) 0
  else ∃ e : ℤ, (∃ p ∈ ps, (2 : ℚ) ^ e ≤ |ratOf p|) ∧ (∀ p ∈ ps, |ratOf p| < (2 : ℚ) ^ (e + 1)) ∧
    let q : ℚ := 2 ^ (e - 26)
    let sum : ℚ := (ps.map fun p => (if p.sign then -1 else 1) * ((⌊|ratOf p| / q⌋ : ℤ) : ℚ) * q).sum
    IsFinite r (decide (sum < 0)) sum

/-- R71, R356: the number order of two values that are no NaN; the two zeros are equal in it. -/
def lessVal : FVal → FVal → Prop
  | .inf s, .inf t => s = true ∧ t = false
  | .inf s, _ => s = true
  | _, .inf t => t = false
  | x, y => ratOf x < ratOf y

/-- R127, R356: the order in which −0 stands below +0. -/
def belowVal (x y : FVal) : Prop := lessVal x y ∨ (x.isZero = true ∧ y.isZero = true ∧ x.sign = true ∧ y.sign = false)

/-- R71, R124, R355, R356, R374: sums, products, order, minimum and maximum. -/
def ArithmeticExact : Prop :=
  (∀ (rm : Nat) (x y : FVal), sumExact rm x y (x.add rm y)) ∧
  (∀ x y : FVal, productExact x y (x.mul y)) ∧
  (∀ ps : List FVal, groupExact ps (groupSum ps)) ∧
  (∀ x y : FVal, x.isNan = false → y.isNan = false →
    (x.cmp y = -1 ↔ lessVal x y) ∧ (x.cmp y = 1 ↔ lessVal y x) ∧ (x.cmp y = 0 ↔ ¬lessVal x y ∧ ¬lessVal y x)) ∧
  ∀ f ∈ [fp32, fp16, bf16], ∀ a b : Nat,
    let x := f.unpack a
    let y := f.unpack b
    (x.isNan = true → y.isNan = true → fminBits f a b = canonicalNan f ∧ fmaxBits f a b = canonicalNan f) ∧
    (x.isNan = true → y.isNan = false → fminBits f a b = b ∧ fmaxBits f a b = b) ∧
    (x.isNan = false → y.isNan = true → fminBits f a b = a ∧ fmaxBits f a b = a) ∧
    (x.isNan = false → y.isNan = false →
      (belowVal y x → fminBits f a b = b ∧ fmaxBits f a b = a) ∧ (belowVal x y → fminBits f a b = a ∧ fmaxBits f a b = b) ∧
      (¬belowVal x y → ¬belowVal y x → fminBits f a b = a ∧ fmaxBits f a b = a))

/-- R115, R127, R355 to R358: the FP32 functions; of the seven of R358 the values at the points that its table names. -/
def SingleFunctions : Prop :=
  (∀ a b d : Word,
    fadd32 a b = round32 ((unpack32 a).add 0 (unpack32 b)) ∧ fsub32 a b = round32 ((unpack32 a).add 0 (unpack32 b).neg) ∧
    fmul32 a b = round32 ((unpack32 a).mul (unpack32 b)) ∧
    ffma32 a b d = round32 (((unpack32 a).mul (unpack32 b)).add 0 (unpack32 d)) ∧
    fmin32 a b = BitVec.ofNat 32 (fminBits fp32 a.toNat b.toNat) ∧ fmax32 a b = BitVec.ofNat 32 (fmaxBits fp32 a.toNat b.toNat)) ∧
  (∀ (s : Bool) (m : Nat) (e : Int), (FVal.fin s m e).neg = .fin (!s) m e ∧ (FVal.inf s).neg = .inf (!s) ∧ (FVal.nan s).neg.isNan = true) ∧
  (∀ a : Word, ((unpack32 a).isNan = true → fkey a = 0#32) ∧
    ((unpack32 a).isNan = false → fkey a = if a.getLsbD 31 then ~~~a else a ||| 0x80000000#32)) ∧
  (∀ a b : Word, (unpack32 a).isNan = false → (unpack32 b).isNan = false →
    0 < (fkey a).toNat ∧ ((fkey a).toNat < (fkey b).toNat ↔ belowVal (unpack32 a) (unpack32 b))) ∧
  (∀ a : Word, fclass a = 1#32 <<< (match unpack32 a with
    | .inf s => if s then 0 else 7
    | .nan _ => if a.getLsbD 22 then 9 else 8
    | .fin s m e => if m = 0 then (if s then 3 else 4)
        else if (m : ℚ) * 2 ^ e < 2 ^ (-126 : ℤ) then (if s then 2 else 5) else (if s then 1 else 6) : Nat)) ∧
  (∀ a : Word, (unpack32 a).isNan = true → ∀ g ∈ [frcp, frsq, fsqrt, fexp2, flog2, fsin, fcos], g a = 0x7FC00000#32) ∧
  (∀ a : Word, (unpack32 a).isNan = false → lessVal (unpack32 a) (.fin false 0 0) →
    frsq a = 0x7FC00000#32 ∧ fsqrt a = 0x7FC00000#32 ∧ flog2 a = 0x7FC00000#32) ∧
  frcp 0#32 = 0x7F800000#32 ∧ frcp 0x80000000#32 = 0xFF800000#32 ∧ frcp 0x7F800000#32 = 0#32 ∧ frcp 0xFF800000#32 = 0x80000000#32 ∧
  frsq 0#32 = 0x7F800000#32 ∧ frsq 0x80000000#32 = 0xFF800000#32 ∧ frsq 0x7F800000#32 = 0#32 ∧
  fsqrt 0#32 = 0#32 ∧ fsqrt 0x80000000#32 = 0x80000000#32 ∧ fsqrt 0x7F800000#32 = 0x7F800000#32 ∧
  fexp2 0xFF800000#32 = 0#32 ∧ fexp2 0x7F800000#32 = 0x7F800000#32 ∧ fexp2 0#32 = 0x3F800000#32 ∧ fexp2 0x80000000#32 = 0x3F800000#32 ∧
  flog2 0#32 = 0xFF800000#32 ∧ flog2 0x80000000#32 = 0xFF800000#32 ∧ flog2 0x3F800000#32 = 0#32 ∧ flog2 0x7F800000#32 = 0x7F800000#32 ∧
  fsin 0x7F800000#32 = 0x7FC00000#32 ∧ fsin 0xFF800000#32 = 0x7FC00000#32 ∧ fsin 0#32 = 0#32 ∧ fsin 0x80000000#32 = 0x80000000#32 ∧
  fsin 0xC0000000#32 = 0x80000000#32 ∧ fsin 0x3F000000#32 = 0x3F800000#32 ∧
  fcos 0x7F800000#32 = 0x7FC00000#32 ∧ fcos 0xFF800000#32 = 0x7FC00000#32 ∧ fcos 0x3F000000#32 = 0#32 ∧ fcos 0x3F800000#32 = 0xBF800000#32

/-- R119: the rounding mode and the saturation of NARMODE's field at bit `lo`. -/
def modeAt (nm : Word) (lo : Nat) : Nat := (nm.extractLsb' lo 2).toNat
def satAt (nm : Word) (lo : Nat) : Bool := nm.getLsbD (lo + 2)

/-- R72, R121, R359: the pairs between floating-point formats: fn, source, destination, and the NARMODE field that governs. -/
def floatPairs : List (Nat × Fmt × Fmt × Option Nat) :=
  [(0, fp32, fp16, some 4), (1, fp32, bf16, some 0), (2, fp32, f8, some 8), (3, fp16, fp32, none), (4, bf16, fp32, none),
   (5, f8, fp32, none), (6, fp16, bf16, some 0), (7, bf16, fp16, some 4), (8, fp16, f8, some 8), (9, bf16, f8, some 8),
   (10, f8, fp16, none), (11, f8, bf16, none)]

/-- R72, R121, R359: the pairs from FP32 to integers: fn, NARMODE field, signedness and width. -/
def intPairs : List (Nat × Option Nat × Bool × Nat) :=
  [(12, none, true, 32), (13, none, false, 32), (16, some 12, true, 8), (17, some 16, true, 4), (18, some 12, false, 8)]

/-- R120, R121: an FP32 value as an integer of `w` bits in a register: rounded, then clamped, or reduced modulo 2^w under SAT. -/
def toInteger (rm : Nat) (sat signed : Bool) (w : Nat) (v : FVal) : Word :=
  let lo : Int := if signed then -2 ^ (w - 1) else 0
  let hi : Int := if signed then 2 ^ (w - 1) - 1 else 2 ^ w - 1
  match v with
  | .nan _ => 0#32
  | .inf s => if sat then 0#32 else BitVec.ofInt 32 (if s then lo else hi)
  | .fin s m e =>
    let i : Int := (if s then -1 else 1) * (roundInt rm s m e : Int)
    if sat then (if signed then (BitVec.ofInt w i).signExtend 32 else (BitVec.ofInt w i).setWidth 32)
    else BitVec.ofInt 32 (max lo (min hi i))

/-- R72, R119 to R121, R359: the conversions. -/
def Conversions : Prop :=
  (∀ p ∈ floatPairs, ∀ nm a : Word,
    let mode := p.2.2.2.elim (0, false) fun lo => (modeAt nm lo, satAt nm lo)
    fcvt p.1 nm a = BitVec.ofNat 32 (p.2.2.1.pack mode.1 mode.2 (p.2.1.unpack (a.toNat % 2 ^ (1 + p.2.1.ew + p.2.1.fw))))) ∧
  (∀ p ∈ intPairs, ∀ nm a : Word,
    let mode := p.2.1.elim (0, false) fun lo => (modeAt nm lo, satAt nm lo)
    fcvt p.1 nm a = toInteger mode.1 mode.2 p.2.2.1 p.2.2.2 (unpack32 a)) ∧
  ∀ nm a : Word,
    let whole : Int → Word := fun i => round32 (.fin (decide (i < 0)) i.natAbs 0)
    fcvt 14 nm a = whole a.toInt ∧ fcvt 15 nm a = whole a.toNat ∧ fcvt 19 nm a = whole (a.setWidth 8).toInt

/-- R308, R333, R361, R374, R378, R394: the packed and bit-field functions, by halves and by bits. -/
def PackedFunctions : Prop :=
  (∀ f ∈ [fp16, bf16], ∀ nm a b d : Word, ∀ h < 2,
    let lo := if f = fp16 then 4 else 0
    let value : Word → FVal := fun x => f.unpack (x.extractLsb' (16 * h) 16).toNat
    let narrow : FVal → BitVec 16 := fun v =>
      BitVec.ofNat 16 (if v.isNan then canonicalNan f else f.pack (modeAt nm lo) (satAt nm lo) v)
    (hadd2 f nm a b).extractLsb' (16 * h) 16 = narrow ((value a).add (modeAt nm lo) (value b)) ∧
    (hmul2 f nm a b).extractLsb' (16 * h) 16 = narrow ((value a).mul (value b)) ∧
    (hfma2 f nm a b d).extractLsb' (16 * h) 16 = narrow (groupSum [(value a).mul (value b), value d]) ∧
    (hmin2 f a b).extractLsb' (16 * h) 16 =
      BitVec.ofNat 16 (fminBits f (a.extractLsb' (16 * h) 16).toNat (b.extractLsb' (16 * h) 16).toNat) ∧
    (hmax2 f a b).extractLsb' (16 * h) 16 =
      BitVec.ofNat 16 (fmaxBits f (a.extractLsb' (16 * h) 16).toNat (b.extractLsb' (16 * h) 16).toNat)) ∧
  (∀ a b d : Word,
    let value : Word → Nat → FVal := fun x h => bf16.unpack (x.extractLsb' (16 * h) 16).toNat
    fdot2 a b d = fadd32 d (round32 (groupSum [(value a 0).mul (value b 0), (value a 1).mul (value b 1)]))) ∧
  (∀ (g : BitVec 16 → BitVec 16 → BitVec 16) (a b : Word), ∀ h < 2,
    (halves g a b).extractLsb' (16 * h) 16 = g (a.extractLsb' (16 * h) 16) (b.extractLsb' (16 * h) 16)) ∧
  (∀ a b : BitVec 16, maxDecide a b = if b.toInt ≤ a.toInt then a &&& 0xFFFE#16 else b ||| 1#16) ∧
  ∀ a b d : Word,
    let p := b.toNat % 32
    let w := min (b.toNat / 256 % 64) 32
    ∀ i < 32,
      (bfxN a b).getLsbD i = (decide (i < w) && a.getLsbD (p + i)) ∧
      (bfxS a b).getLsbD i = (decide (0 < w) && a.getLsbD (min (p + min i (w - 1)) 31)) ∧
      (bfiW a b d).getLsbD i = if p ≤ i ∧ i < p + w then a.getLsbD (i - p) else d.getLsbD i

/-- The packed, bit-field and floating-point instructions complete with the values of their formats' functions, which compute what the
rules of the formats say: codes, rounding, exact sums and products, GroupSum, order, conversions, halves and bit fields. -/
def Obligations.FormatResults : Prop :=
  (∀ (i : Instr) (e : AluEffect), fmtEffect i = some e → CompletesWith i e) ∧
  CodesRead ∧ CodesWritten ∧ ArithmeticExact ∧ SingleFunctions ∧ Conversions ∧ PackedFunctions

/-- R70: the condition of CMPI with code `c`, by the numbers that the words stand for. -/
def cmpiCond (c : Nat) (a b : Word) : Prop :=
  match c with
  | 0 => a.toNat = b.toNat
  | 1 => a.toNat ≠ b.toNat
  | 2 => a.toInt < b.toInt
  | 3 => a.toInt ≤ b.toInt
  | 4 => b.toInt < a.toInt
  | 5 => b.toInt ≤ a.toInt
  | 6 => a.toNat < b.toNat
  | 7 => a.toNat ≤ b.toNat
  | 8 => b.toNat < a.toNat
  | _ => b.toNat ≤ a.toNat

/-- R71: the condition of CMPF with code `c`: `lt`, `eq`, `gt` of two values that are no NaN, `un` when one is. -/
def cmpfCond (c : Nat) (a b : Word) : Bool :=
  let un := (unpack32 a).isNan || (unpack32 b).isNan
  let k := (unpack32 a).cmp (unpack32 b)
  let ord : Bool := !un
  match c with
  | 0 => ord && k == 0
  | 1 => un || k != 0
  | 2 => ord && decide (k < 0)
  | 3 => ord && decide (k ≤ 0)
  | 4 => ord && decide (0 < k)
  | 5 => ord && decide (0 ≤ k)
  | 6 => un
  | 7 => ord
  | 8 => un || k == 0
  | 9 => un || decide (k < 0)
  | 10 => un || decide (k ≤ 0)
  | 11 => un || decide (0 < k)
  | 12 => un || decide (0 ≤ k)
  | _ => ord && k != 0

/-- R149, R340, R341, R412: the instructions that write a predicate from the thread's registers. -/
def predEffect : Instr → Option (PReg × (Thread → Pred → Prop))
  | .cmpi p a b c => some (p, fun x q =>
      (q.val = true ↔ cmpiCond c.toNat (x.val a) (x.val b)) ∧ q.poison = (resultOf x [a, b] 0#32).poison ∧ q.idx = (resultOf x [a, b] 0#32).idx)
  | .cmpf p a b c => some (p, fun x q =>
      q.val = cmpfCond c.toNat (x.val a) (x.val b) ∧ q.poison = (resultOf x [a, b] 0#32).poison ∧ q.idx = (resultOf x [a, b] 0#32).idx)
  | .ptest p a => some (p, fun x q => q = ⟨(x.reg a).poison, false, 0#3⟩)
  | _ => none

/-- R148, R149, R340, R341, R412: CMPI, CMPF and PTEST complete: the predicate takes its value and its poison; a write to p0 is void; no other
predicate changes. -/
def PredicatesComplete : Prop :=
  ∀ (i : Instr) (p : PReg) (f : Thread → Pred → Prop), predEffect i = some (p, f) →
    ∀ (s : State) (t : TId), Solo s t → Clear s t i [] [] →
      ∃ s', exec i s = .next s' ∧ (p ≠ 0#3 → f (s.th t) ((s'.th t).pred p)) ∧
        (∀ q, q ≠ p ∨ q = 0#3 → (s'.th t).pred q = (s.th t).pred q) ∧ MovesOn s s' t i.len

/-- R71: the condition of CMPF with code `c`, in the number order, in which the two zeros are equal. -/
def floatCond (c : Nat) (a b : Word) : Prop :=
  let x := unpack32 a
  let y := unpack32 b
  let un := x.isNan = true ∨ y.isNan = true
  let lt := lessVal x y
  let gt := lessVal y x
  match c with
  | 0 => ¬un ∧ ¬lt ∧ ¬gt
  | 1 => un ∨ lt ∨ gt
  | 2 => ¬un ∧ lt
  | 3 => ¬un ∧ ¬gt
  | 4 => ¬un ∧ gt
  | 5 => ¬un ∧ ¬lt
  | 6 => un
  | 7 => ¬un
  | 8 => un ∨ (¬lt ∧ ¬gt)
  | 9 => un ∨ lt
  | 10 => un ∨ ¬gt
  | 11 => un ∨ gt
  | 12 => un ∨ ¬lt
  | _ => ¬un ∧ (lt ∨ gt)

/-- R70, R71: the comparisons, with the condition that their predicate takes. -/
def compares : Instr → Option (PReg × (Thread → Prop))
  | .cmpi p a b c => some (p, fun x => cmpiCond c.toNat (x.val a) (x.val b))
  | .cmpf p a b c => some (p, fun x => floatCond c.toNat (x.val a) (x.val b))
  | _ => none

/-- R70, R71: CMPI and CMPF complete: the predicate takes the condition; a write to p0 is void; no other predicate changes. A clause
that begins with a word of CMPI or CMPF with a bit of d[6:3], or with a function that has no condition, is ILLEGAL at that word. -/
def Obligations.PredicateResults : Prop :=
  (∀ (i : Instr) (p : PReg) (f : Thread → Prop), compares i = some (p, f) →
    ∀ (s : State) (t : TId), Solo s t → Clear s t i [] [] →
      ∃ s', exec i s = .next s' ∧ (p ≠ 0#3 → (((s'.th t).pred p).val = true ↔ f (s.th t))) ∧
        (∀ q, q ≠ p ∨ q = 0#3 → (s'.th t).pred q = (s.th t).pred q) ∧ MovesOn s s' t 1) ∧
  (∀ (w x : Word) (ws : List Word) (cls k : Nat) (user : Bool),
    (field w 26 6 = 0x07#6 ∧ (field w 22 4 ≠ 0#4 ∨ 10 ≤ (field w 0 5).toNat)) ∨
      (field w 26 6 = 0x0D#6 ∧ (field w 22 4 ≠ 0#4 ∨ 14 ≤ (field w 0 5).toNat)) →
    (∀ i, decodeWord w x ≠ .ok i) ∧ checkItems user false cls 0 (itemsOf 3 false k (w :: ws)) = some (cIllegal, k))

/-- R392, R399: LEA forms a 64-bit address with the carry into the high word, both halves poisoned when either half of va is;
MOVG moves between a v register and a group register, with the poison bit and index 0. -/
def Obligations.PairAndGroupMoves : Prop :=
  (∀ (d a : VReg) (imm : BitVec 12) (s : State) (t : TId), Solo s t → Clear s t (.lea d a imm) [] [] →
    ∃ s', exec (.lea d a imm) s = .next s' ∧ MovesOn s s' t 1 ∧
      (let v := BitVec.ofInt 64 (((s.th t).val64 a).toInt + imm.toInt)
       (s'.th t).reg d = resultOf (s.th t) [a, a + 1#7] (v.setWidth 32) ∧
         (s'.th t).reg (d + 1#7) = resultOf (s.th t) [a, a + 1#7] ((v >>> 32).setWidth 32))) ∧
  (∀ (g : GReg) (a : VReg) (s : State) (t : TId), Solo s t → Clear s t (.movgToG g a) [] [] →
    ∃ s', exec (.movgToG g a) s = .next s' ∧ MovesOn s s' t 1 ∧
      (s'.gr t.gid).reg g = ⟨(s.th t).val a, ((s.th t).reg a).poison, 0#3⟩) ∧
  (∀ (d : VReg) (g : GReg) (s : State) (t : TId), Solo s t → Clear s t (.movgFromG d g) [] [] →
    ∃ s', exec (.movgFromG d g) s = .next s' ∧ MovesOn s s' t 1 ∧
      (s'.th t).reg d = ⟨((s.gr t.gid).reg g).val, ((s.gr t.gid).reg g).poison, 0#3⟩)

/-- What register-only instructions other than the arithmetic ones may write: v registers, predicates, group registers. -/
def otherWrites : Instr → Option (List VReg × List PReg × List GReg)
  | .cmpi p _ _ _ => some ([], [p], [])
  | .cmpf p _ _ _ => some ([], [p], [])
  | .ptest p _ => some ([], [p], [])
  | .lea d _ _ => some ([d, d + 1#7], [], [])
  | .movgToG g _ => some ([], [], [g])
  | .movgFromG d _ => some ([d], [], [])
  | .bra _ _ _ => some ([], [], [])
  | .call _ _ _ => some ([2#7, 3#7], [], [])
  | .nop => some ([], [], [])
  | .ifp _ _ _ => some ([], [], [])
  | _ => none

/-- What the register-only instructions may write. -/
def registerWrites (i : Instr) : Option (List VReg × List PReg × List GReg) :=
  (otherWrites i).or (((intEffect i).or (fmtEffect i)).map fun e => ([e.d], [], []))

/-- The predicates whose poison a register-only instruction consumes (R149). -/
def predsEaten : Instr → List PReg
  | .bra p _ _ => [p]
  | .call p _ _ => [p]
  | .ifp _ p _ => [p]
  | _ => []

/-- The frame of the register-only instructions: nothing changes but the registers they write, where the thread stands, and its
windows; no byte of memory but in the debug block of a microscope core that hosts the thread. -/
def Obligations.RegisterOnlyFrame : Prop :=
  ∀ (i : Instr) (rs : List VReg) (ps : List PReg) (gs : List GReg), registerWrites i = some (rs, ps, gs) →
    ∀ (s : State) (t : TId), Solo s t → Clear s t i [] (predsEaten i) →
      ∃ s', exec i s = .next s' ∧ RegisterFrame s s' t rs ps gs

/-! ## Control -/

/-- R59: is a branch taken: when its predicate differs from its neg bit, p0 being true. -/
def taken (x : Thread) (p : PReg) (neg : BitVec 1) : Prop := (x.pred p).val ≠ (neg == 1#1)

/-- R334, R337: BRA and CALL: taken, the thread stands at the header 4 × off from its clause's header, and CALL links the
address of the word after the clause in v2:v3; not taken, it moves on. -/
def Obligations.BranchResults : Prop :=
  (∀ (p : PReg) (neg : BitVec 1) (off : BitVec 22) (s : State) (t : TId), Solo s t → Clear s t (.bra p neg off) [] [p] →
    ∃ s', exec (.bra p neg off) s = .next s' ∧
      (taken (s.th t) p neg → JumpsTo s' t ((s.th t).pc + BitVec.ofInt 64 (4 * off.toInt))) ∧
      (¬ taken (s.th t) p neg → MovesOn s s' t 1)) ∧
  (∀ (p : PReg) (neg : BitVec 1) (off : BitVec 22) (c : Clause) (s : State) (t : TId), Solo s t → Clear s t (.call p neg off) [] [p] →
    (s.th t).clause = some c → c.implicit = false →
    ∃ s', exec (.call p neg off) s = .next s' ∧
      (taken (s.th t) p neg → JumpsTo s' t ((s.th t).pc + BitVec.ofInt 64 (4 * off.toInt)) ∧
        (s'.th t).val64 2#7 = (s.th t).pc + BitVec.ofNat 64 (4 * (c.hdr.toNat % 16 + 1)) ∧
        ((s'.th t).reg 2#7).poison = false ∧ ((s'.th t).reg 3#7).poison = false) ∧
      (¬ taken (s.th t) p neg → MovesOn s s' t 1 ∧ (s'.th t).val64 2#7 = (s.th t).val64 2#7)) ∧
  (∀ (p : PReg) (neg : BitVec 1) (a : VReg) (s : State) (t : TId), Solo s t → Clear s t (.brx neg p a) [] [p] →
    ∃ s', exec (.brx neg p a) s = .next s' ∧
      (taken (s.th t) p neg → (s.th t).poisoned [a, a + 1#7] = none → ((s.th t).val64 a).toNat < 2 ^ 56 →
        ((s.th t).val64 a).toNat % 4 = 0 → JumpsTo s' t ((s.th t).val64 a)) ∧
      (¬ taken (s.th t) p neg → MovesOn s s' t 1)) ∧
  (∀ (a : VReg) (s : State) (t : TId), Solo s t → Clear s t (.ret a) [] [] → (s.th t).poisoned [a, a + 1#7] = none →
    ((s.th t).val64 a).toNat < 2 ^ 56 → ((s.th t).val64 a).toNat % 4 = 0 →
    ∃ s', exec (.ret a) s = .next s' ∧ JumpsTo s' t ((s.th t).val64 a))

/-- R64, R67, R379, R421: IFP samples its guard and covers the next c instructions; REPEAT runs the next instruction c + 1 times
with its step mask and stride, when no execution of the target names a register beyond the allocation and none matches. -/
def Obligations.GuardAndRepeat : Prop :=
  (∀ (f : BitVec 1) (p : PReg) (c : BitVec 4) (s : State) (t : TId), Solo s t → Clear s t (.ifp f p c) [] [p] →
    ∃ s', exec (.ifp f p c) s = .next s' ∧ (s'.th t).ifpN = c.toNat ∧
      ((s'.th t).ifpG = true ↔ ((s.th t).pred p).val ≠ (f == 1#1)) ∧ (s'.th t).pc = ((s.th t).step 1).pc ∧
      (s'.th t).widx = ((s.th t).step 1).widx ∧ (s'.th t).run = .running) ∧
  (∀ (sm : BitVec 3) (sc : BitVec 2) (c : BitVec 4) (cl : Clause) (s : State) (t : TId), Solo s t → Clear s t (.repeatN sm sc c) [] [] →
    (s.th t).clause = some cl → repeatBeyond s t sm (2 ^ sc.toNat) (c.toNat + 1) = none →
    matchHere s t (wordAddr (s.th t).pc cl.implicit ((s.th t).widx + 1)).toNat (cl.word ((s.th t).widx + 1)) = none →
    ∃ s', exec (.repeatN sm sc c) s = .next s' ∧ (s'.th t).rep = some ⟨sm, 2 ^ sc.toNat, 0, c.toNat + 1⟩ ∧
      (s'.th t).pc = ((s.th t).step 1).pc ∧ (s'.th t).widx = ((s.th t).step 1).widx ∧ (s'.th t).ifpN = (s.th t).ifpN ∧
      (s'.th t).run = .running)

/-- R17: a group of the home core of thread `t` that is pending and ready. -/
def PendingReady (s : State) (t : TId) (g : Group) : Prop :=
  g.core = (s.gr t.gid).core ∧ g.active = false ∧ g.readyAt.isSome = true ∧ g.hosted = none ∧ s.isSup g.id.team = false

/-- R148, R149, R340, R341, R363, R364, R404, R412, R446, R449: CMPI, CMPF and PTEST write their predicate, with its poison; NOP only moves on; YIELD moves on, and outside a microscope core its group changes places with
the oldest ready pending group; FENCE moves on with the thread's combining buffer written; WAITW moves on when the counters of its
mask are zero, and is held until then. -/
def Obligations.PlainCompletions : Prop :=
  PredicatesComplete ∧
  (∀ (s : State) (t : TId), Solo s t → Clear s t .nop [] [] →
    ∃ s', exec .nop s = .next s' ∧ MovesOn s s' t 1 ∧ RegisterFrame s s' t [] [] []) ∧
  (∀ (s : State) (t : TId), Safe s → Solo s t → Clear s t .yield [] [] →
    ∃ s', exec .yield s = .next s' ∧ MovesOn s s' t 1 ∧
      (Unhosted s t → s.isSup t.team = false → (s.gr t.gid).active = true → (∃ g ∈ s.groups, PendingReady s t g) →
        (s'.gr t.gid).active = false ∧ ∃ g ∈ s.groups, PendingReady s t g ∧ (s'.gr g.id).active = true)) ∧
  (∀ (kind : BitVec 2) (scope : BitVec 3) (s : State) (t : TId), Solo s t → Clear s t (.fence kind scope) [] [] →
    ∃ s', exec (.fence kind scope) s = .next s' ∧ MovesOn s s' t 1 ∧ (s'.th t).wcBuf = none) ∧
  (∀ (mask : BitVec 8) (s : State) (t : TId), Solo s t → Clear s t (.waitw mask) [] [] →
    ∃ s', exec (.waitw mask) s = .next s' ∧
      ((∀ n : Fin 8, mask.getLsbD n = true → (s.gr t.gid).wc[n] = 0#6) → MovesOn s s' t 1) ∧
      ((∃ n : Fin 8, mask.getLsbD n = true ∧ (s.gr t.gid).wc[n] ≠ 0#6) → HeldAt s s' t .counters))

/-! ## Cross-lane instructions -/

/-- R22, R429: the value that thread index `u` of a group brings to the rendezvous at which thread `t` arrives with selector
`sel`, when it takes part: it is in the mask, and it is `t`, or a live thread that waits at the same place, or reached it and left its
value. -/
def brings (s : State) (t : TId) (i : Instr) (sel : Word) (u : Nat) : Option Reg :=
  let g := s.gr t.gid
  let x := s.th ⟨t.team, t.group, u⟩
  if selected g sel u = false then none
  else if u ≠ t.idx ∧ x.live = false then none
  else if u = t.idx then some ((s.th t).reg (laneSource i))
  else if x.run = .waiting .rendezvous ∧ x.wordAt = (s.th t).wordAt then some (x.reg (laneSource x.instr))
  else (g.arrivals.find? fun a => a.addr == (s.th t).wordAt && a.idx == u).map Arrival.val

/-- R420: `v` is the greatest (or least) of the values `P` of lanes below `n`, some of which take part: as .s32, as .n32, or as FP32 by R356,
where the numbers count before NaNs, and nothing but NaNs gives the canonical one. -/
def ExtremeOf (most : Bool) (ty n : Nat) (P : Nat → Option Reg) (v : Word) : Prop :=
  let le : Word → Word → Prop := fun a b => if most then (if ty = 0 then b.toInt ≤ a.toInt else b.toNat ≤ a.toNat)
    else (if ty = 0 then a.toInt ≤ b.toInt else a.toNat ≤ b.toNat)
  let number : Reg → Prop := fun r => (unpack32 r.val).isNan = false
  (ty ≤ 1 → (∃ u < n, (P u).map Reg.val = some v) ∧ ∀ u < n, ∀ r, P u = some r → le v r.val) ∧
  (ty = 2 → (∃ u < n, ∃ r, P u = some r ∧ number r) →
    (∃ u < n, ∃ r, P u = some r ∧ number r ∧ v = r.val) ∧
      ∀ u < n, ∀ r, P u = some r → number r → (if most then (unpack32 r.val).cmp (unpack32 v) ≤ 0 else (unpack32 v).cmp (unpack32 r.val) ≤ 0)) ∧
  (ty = 2 → (∀ u < n, ∀ r, P u = some r → ¬ number r) → v = 0x7FC00000#32)

/-- R420: the poison of a result of lane `i` over the values `P` of lanes below `w`: its own record index when its own value is poisoned, else
0. -/
def PoisonOf (w i : Nat) (P : Nat → Option Reg) (poison : Bool) (idx : BitVec 3) : Prop :=
  (poison = true ↔ ∃ u < w, ∃ r, P u = some r ∧ r.poison = true) ∧
    (poison = true → idx = match P i with
      | some r => if r.poison then r.idx else 0#3
      | none => 0#3)

/-- What thread index `i` of a group of width `w` holds after a cross-lane instruction: `P` the values of the participants, `S`
the mask, `out` whether it stands outside its own mask (R23). -/
structure LaneHolds (ins : Instr) (w i : Nat) (sel : Word) (S : Nat → Bool) (P : Nat → Option Reg) (out : Bool) (y : Thread) : Prop where
  /-- R428: SHFL and its forms read one lane; a lane that brings nothing gives zero and vp. -/
  shuffle : ∀ d a b k, ((ins = .shfl d a b ∧ k = some (selLane sel)) ∨ (ins = .shflx d a b ∧ k = some (i ^^^ selLane sel)) ∨
      (ins = .shflu d a b ∧ k = if selLane sel ≤ i then some (i - selLane sel) else none) ∨
      (ins = .shfld d a b ∧ k = some (i + selLane sel))) →
    y.val d = ((k.bind P).map Reg.val).getD 0#32 ∧ ((y.reg d).poison = true ↔ ∃ r, k.bind P = some r ∧ r.poison = true) ∧
      (selVp sel ≠ 0#3 → ((y.pred (selVp sel)).val = true ↔ out = true ∨ k.bind P = none))
  /-- R444: VOTE. -/
  any : ∀ p a b, ins = .voteAny p a b → p ≠ 0#3 → p ≠ selVp sel →
    ((y.pred p).val = true ↔ ∃ u < w, ∃ r, P u = some r ∧ r.val ≠ 0#32)
  all : ∀ p a b, ins = .voteAll p a b → p ≠ 0#3 → p ≠ selVp sel →
    ((y.pred p).val = true ↔ ∀ u < w, ∀ r, P u = some r → r.val ≠ 0#32)
  votePoison : ∀ p a b, ins = .voteAny p a b ∨ ins = .voteAll p a b → p ≠ 0#3 → p ≠ selVp sel →
    PoisonOf w i P (y.pred p).poison (y.pred p).idx
  ballot : ∀ d a b, ins = .voteBallot d a b → ∀ u < w,
    ((if u < 32 then (y.val d).getLsbD u else (y.val (d + 1#7)).getLsbD (u - 32)) = true ↔ ∃ r, P u = some r ∧ r.val ≠ 0#32)
  /-- R420, R424: sums, minima and maxima over the participants, of those up to its own index for SCANG. -/
  sum : ∀ d a b, ins = .redgAdd d a b → selType sel ≠ 2 →
    (y.val d).toNat = (((List.range w).filterMap P).map fun r => r.val.toNat).sum % 2 ^ 32
  treeSum : ∀ d a b, ins = .redgAdd d a b → selType sel = 2 →
    y.val d = treeAdd (fun u => if u < w then ((P u).map Reg.val).getD 0x80000000#32 else 0x80000000#32) w.log2 0
  least : ∀ d a b, ins = .redgMin d a b → (∃ u < w, (P u).isSome = true) → ExtremeOf false (selType sel) w P (y.val d)
  greatest : ∀ d a b, ins = .redgMax d a b → (∃ u < w, (P u).isSome = true) → ExtremeOf true (selType sel) w P (y.val d)
  prefixSum : ∀ d a b, ins = .scangAdd d a b → selType sel ≠ 2 → i < w →
    (y.val d).toNat = (((List.range (i + 1)).filterMap P).map fun r => r.val.toNat).sum % 2 ^ 32
  prefixFloat : ∀ d a b, ins = .scangAdd d a b → selType sel = 2 → i < w →
    y.val d = (((List.range (i + 1)).filterMap P).map Reg.val).foldl fadd32 0x80000000#32
  prefixMost : ∀ d a b, ins = .scangMax d a b → i < w → (∃ u < i + 1, (P u).isSome = true) →
    ExtremeOf true (selType sel) (i + 1) P (y.val d)
  /-- R393, R420, R424, R444: the result is poisoned when a participant's value is. -/
  poison : ∀ d a b, (ins = .voteBallot d a b ∨ ins = .redgAdd d a b ∨ ins = .redgMin d a b ∨ ins = .redgMax d a b ∨
      ins = .scangAdd d a b ∨ ins = .scangMax d a b ∨ ins = .matchLanes d a b) →
    PoisonOf w i P (y.reg d).poison (y.reg d).idx ∧
      ((ins = .matchLanes d a b ∨ (ins = .voteBallot d a b ∧ w = 64)) →
        PoisonOf w i P (y.reg (d + 1#7)).poison (y.reg (d + 1#7)).idx)
  /-- R23: over no participants. -/
  empty : (∀ u, P u = none) →
    (∀ d a b, ins = .redgMin d a b → y.val d = emptyRed .min (selType sel)) ∧
    (∀ d a b, (ins = .redgMax d a b ∨ ins = .scangMax d a b) → y.val d = emptyRed .max (selType sel))
  /-- R420, R424: vp says that a lane of the mask (for SCANG, up to its own index) brought nothing. -/
  absent : selVp sel ≠ 0#3 →
    ((∃ d a b, ins = .voteBallot d a b ∨ ins = .redgAdd d a b ∨ ins = .redgMin d a b ∨ ins = .redgMax d a b) ∨
      (∃ p a b, ins = .voteAny p a b ∨ ins = .voteAll p a b) →
      ((y.pred (selVp sel)).val = true ↔ out = true ∨ ∃ u < w, S u = true ∧ P u = none)) ∧
    ((∃ d a b, ins = .scangAdd d a b ∨ ins = .scangMax d a b) →
      ((y.pred (selVp sel)).val = true ↔ out = true ∨ ∃ u ≤ i, S u = true ∧ P u = none))
  /-- R351, R393: the mask of the participants with the value that the thread brings, and the lowest participant. -/
  same : ∀ d a b, ins = .matchLanes d a b → ∀ u < w,
    ((if u < 32 then (y.val d).getLsbD u else (y.val (d + 1#7)).getLsbD (u - 32)) = true ↔
      ∃ r q, P u = some r ∧ P i = some q ∧ r.val = q.val)
  lowest : ∀ p b, ins = .elect p b → p ≠ 0#3 → i < w →
    ((y.pred p).val = true ↔ (P i).isSome = true ∧ ∀ u < i, P u = none)

/-- The cross-lane instructions: SHFL, SHFLX, SHFLU, SHFLD, VOTE in its three forms, REDG in its three, SCANG in its two, MATCH,
ELECT. -/
def CrossForm (i : Instr) : Prop :=
  (∃ d a b, i = .shfl d a b ∨ i = .shflx d a b ∨ i = .shflu d a b ∨ i = .shfld d a b ∨ i = .voteBallot d a b ∨ i = .redgAdd d a b ∨
    i = .redgMin d a b ∨ i = .redgMax d a b ∨ i = .scangAdd d a b ∨ i = .scangMax d a b ∨ i = .matchLanes d a b) ∨
  (∃ p a b, i = .voteAny p a b ∨ i = .voteAll p a b) ∨ ∃ p b, i = .elect p b

/-- A thread's issue of a cross-lane instruction with a selector that it permits (R428, R444): nothing keeps it from its effect. -/
structure AtLanes (s : State) (t : TId) (i : Instr) : Prop where
  form : CrossForm i
  safe : Safe s
  solo : Solo s t
  clear : Clear s t i [] []
  word : (s.th t).instr = i
  width : (s.gr t.gid).w ∈ [16, 32, 64]
  lane : t.idx < (s.gr t.gid).w
  selector : selBad i ((s.th t).val (laneSel i)) = false
  ballot : ∀ d a b, i = .voteBallot d a b → (s.gr t.gid).w = 64 → d.toNat % 2 = 0

/-- R22, R23, R63, R351, R393, R420, R424, R428 to R430, R444: a thread at a cross-lane instruction with a selector that its
instruction permits completes: outside its own mask at once with the result over no participants; in its mask with the result over
the participants when every live thread of the mask has met it (at once when it is alone in it); it waits for them until then.
That a thread that left leaves its value is the model's reading (log 27). -/
def Obligations.CrossLaneResults : Prop :=
  (∀ (i : Instr) (s : State) (t : TId), AtLanes s t i →
    let sel := (s.th t).val (laneSel i)
    let g := s.gr t.gid
    selected g sel t.idx = false →
    ∃ s', exec i s = .next s' ∧ MovesOn s s' t 1 ∧ LaneHolds i g.w t.idx sel (selected g sel) (fun _ => none) true (s'.th t)) ∧
  (∀ (i : Instr) (s : State) (t : TId), AtLanes s t i →
    let sel := (s.th t).val (laneSel i)
    let g := s.gr t.gid
    selected g sel t.idx = true →
    (∀ u ∈ s.threads, u.id.gid = t.gid → u.id ≠ t → u.live = true → selected g sel u.id.idx = true →
      metAt s g (s.th t).wordAt u = true) →
    ∃ s', exec i s = .next s' ∧ MovesOn s s' t 1 ∧ LaneHolds i g.w t.idx sel (selected g sel) (brings s t i sel) false (s'.th t)) ∧
  (∀ (i : Instr) (s : State) (t : TId), AtLanes s t i →
    let sel := (s.th t).val (laneSel i)
    let g := s.gr t.gid
    selected g sel t.idx = true →
    (∃ u ∈ s.threads, u.id.gid = t.gid ∧ u.id ≠ t ∧ u.live = true ∧ selected g sel u.id.idx = true ∧
      metAt s g (s.th t).wordAt u = false) →
    ∃ s', exec i s = .next s' ∧ HeldAt s s' t .rendezvous ∧ ∀ r, (s'.th t).reg r = (s.th t).reg r)

/-! ## Rejoin masks, exits, waits for a time -/

/-- Bit `i` of a group's rejoin mask `j`: enrolled, arrived. -/
def enrolled (g : Group) (j : BitVec 3) (i : Nat) : Bool := (g.jE[j.toNat]'j.isLt).getLsbD i
def arrivedAt (g : Group) (j : BitVec 3) (i : Nat) : Bool := (g.jA[j.toNat]'j.isLt).getLsbD i

/-- R21: after the arrivals or strikes of an instruction, a mask `j` of a group whose enrolled and arrived threads agree, one at
least, is released: its parked threads move on and the mask is clear. -/
def ReleasedMask (s s' : State) (g : GId) (j : BitVec 3) : Prop :=
  (∀ i < 64, enrolled (s'.gr g) j i = false ∧ arrivedAt (s'.gr g) j i = false) ∧
  ∀ x ∈ s.threads, x.id.gid = g → (∃ n, x.run = .joined j n) → MovesOn s s' x.id 1

/-- R21, R47, R352, R380, R437: ENROL adds the thread to a mask, STRIKE takes it away, JOIN parks an enrolled thread and is void
for another; a mask is released when the arrived threads are all those enrolled; 1,024 TIME cycles after a thread parked it is
released all the same, while its team holds its place (R242). -/
def Obligations.RejoinMasks : Prop :=
  (∀ (j : BitVec 3) (s : State) (t : TId), Safe s → Solo s t → Clear s t (.enrol j) [] [] → t.idx < 64 →
    (s.th t).run = .running →
    ∃ s', exec (.enrol j) s = .next s' ∧ MovesOn s s' t 1 ∧
      (arrivedAt (s.gr t.gid) j t.idx = false →
        ∀ i < 64, (enrolled (s'.gr t.gid) j i = true ↔ i = t.idx ∨ enrolled (s.gr t.gid) j i = true) ∧
          arrivedAt (s'.gr t.gid) j i = arrivedAt (s.gr t.gid) j i)) ∧
  (∀ (j : BitVec 3) (s : State) (t : TId), Safe s → Solo s t → Clear s t (.strike j) [] [] → t.idx < 64 →
    (s.th t).run = .running →
    ∃ s', exec (.strike j) s = .next s' ∧ MovesOn s s' t 1 ∧ enrolled (s'.gr t.gid) j t.idx = false ∧
      arrivedAt (s'.gr t.gid) j t.idx = false ∧
      ((∃ i < 64, i ≠ t.idx ∧ enrolled (s.gr t.gid) j i = true) →
        (∀ i < 64, i ≠ t.idx → enrolled (s.gr t.gid) j i = arrivedAt (s.gr t.gid) j i) → ReleasedMask s s' t.gid j) ∧
      ((∃ i < 64, i ≠ t.idx ∧ enrolled (s.gr t.gid) j i ≠ arrivedAt (s.gr t.gid) j i) →
        ∀ i < 64, i ≠ t.idx → enrolled (s'.gr t.gid) j i = enrolled (s.gr t.gid) j i ∧
          arrivedAt (s'.gr t.gid) j i = arrivedAt (s.gr t.gid) j i)) ∧
  (∀ (j : BitVec 3) (s : State) (t : TId), Safe s → Solo s t → Clear s t (.join j) [] [] → t.idx < 64 →
    (s.th t).run = .running →
    ∃ s', exec (.join j) s = .next s' ∧
      (enrolled (s.gr t.gid) j t.idx = false → MovesOn s s' t 1) ∧
      (enrolled (s.gr t.gid) j t.idx = true →
        (∀ i < 64, enrolled (s.gr t.gid) j i = (arrivedAt (s.gr t.gid) j i || decide (i = t.idx))) →
        MovesOn s s' t 1 ∧ ReleasedMask s s' t.gid j) ∧
      (enrolled (s.gr t.gid) j t.idx = true →
        (∃ i < 64, enrolled (s.gr t.gid) j i ≠ (arrivedAt (s.gr t.gid) j i || decide (i = t.idx))) →
        (s'.th t).run = .joined j s.time ∧ (s'.th t).widx = (s.th t).widx ∧ arrivedAt (s'.gr t.gid) j t.idx = true)) ∧
  (∀ (g : GId) (j : BitVec 3) (s : State), Safe s → (s.group? g).isSome = true →
    (∃ x ∈ s.threads, x.id.gid = g ∧ ∃ n, x.run = .joined j n ∧ n + 1024 ≤ s.time) →
    ∃ s', exec (.rejoinTimeout g j) s = .next s' ∧
      (teamHere s g.team = true → ReleasedMask s s' g j) ∧
      (teamHere s g.team = false → s'.threads = s.threads ∧ s'.groups = s.groups ∧ Instr.rejoinTimeout g j ∈ s'.events))

/-- A thread parked at a barrier whose phase has completed: it stands in its cluster's queue for a wave, or has left in one (R266). -/
def InWave (s s' : State) (t : TId) : Prop :=
  ((s'.th t).run = .wave ∧ (s'.th t).pc = (s.th t).pc ∧ (s'.th t).widx = (s.th t).widx ∧
    t ∈ (s'.cluster (clusterOf (s.gr t.gid).core)).waves.flatMap Wave.ths) ∨ MovesOn s s' t 1

/-- R266: a cluster in which no wave holds a completed phase back: no group is queued, its slope is off, no wave has left in the last 20
TIME cycles. -/
def WaveOpen (s : State) (c : Nat) : Prop :=
  (s.cluster c).waves = [] ∧ (s.cluster c).slope = 0#16 ∧ ∀ w, (s.cluster c).lastWave = some w → w + 20 ≤ s.time

/-- R311: the phase of barrier `n` of a team completes in this step: a new phase is open, the threads that waited leave with their
groups' waves (R266), at once where no wave holds them back. -/
def PhaseEnds (s s' : State) (k : Nat) (n : BitVec 4) : Prop :=
  ((s'.tm k).bar n).cnt = 0 ∧ ((s'.tm k).bar n).arr = 0 ∧ ((s'.tm k).bar n).pend = [] ∧
  ∀ x ∈ s.threads, x.id.team = k → x.run = .barrier n →
    InWave s s' x.id ∧ (WaveOpen s (clusterOf (s.gr x.id.gid).core) → MovesOn s s' x.id 1)

/-- The groups of a team exist for each of its threads, on work cores, with numbers of R10. -/
def Grouped (s : State) (k : Nat) : Prop :=
  (∀ x ∈ s.threads, x.id.team = k → (s.group? x.id.gid).isSome = true) ∧
  ∀ g ∈ s.groups, g.id.team = k → g.core < 768 ∧ g.id.group < 512

/-- R44 to R47, R311, R354: EXIT ends the thread: it leaves every mask of its group; it departs from each barrier at which it has arrived
and waits for none, whose phase completes when that makes its count, and changes no other; a rendezvous that waited for it alone, no thread
being parked at a rejoin mask, is over; when no thread of its team lives, the team's release is owed. -/
def Obligations.ExitEnds : Prop :=
  ∀ (s : State) (t : TId), Safe s → Solo s t → Clear s t .exit [] [] →
    ∃ s', exec .exit s = .next s' ∧ (s'.th t).run = .exited ∧
      (∀ j : BitVec 3, enrolled (s'.gr t.gid) j t.idx = false ∧ arrivedAt (s'.gr t.gid) j t.idx = false) ∧
      ((∀ u ∈ s.threads, u.id.team = t.team → u.id ≠ t → u.live = false) → Instr.teamRelease t.team ∈ s'.events) ∧
      ((s.team? t.team).isSome = true → Grouped s t.team → ∀ n : BitVec 4,
        let b := (s.tm t.team).bar n
        let c := (s'.tm t.team).bar n
        (t ∈ b.memb → t ∉ b.pend → (b.cnt = 0 ∨ b.arr + b.dep + 1 < b.cnt) → c = { b with dep := b.dep + 1 }) ∧
        (t ∈ b.memb → t ∉ b.pend → b.cnt ≠ 0 → b.cnt ≤ b.arr + b.dep + 1 → PhaseEnds s s' t.team n) ∧
        ((t ∉ b.memb ∨ t ∈ b.pend) → c = b)) ∧
      ((∀ v ∈ s.threads, v.id.gid = t.gid → ∀ j n, v.run ≠ .joined j n) →
        ∀ u ∈ s.threads, u.id.gid = t.gid → u.id ≠ t → u.run = .waiting .rendezvous →
          (∀ v ∈ s.threads, v.id.gid = t.gid → v.id ≠ t → v.live = true →
            selected (s.gr t.gid) (u.val (laneSel u.instr)) v.id.idx = true → metAt s (s.gr t.gid) u.wordAt v = true) →
          MovesOn s s' u.id 1)

/-- R432, R433: SLEEP and SLEEPU of no time move on; of some time they wait until TIME, CYCLE reaches it, when the thread moves
on while its team holds its place (a SLEEPU of a team that is saved is executed afresh on restore); SLEEPU with a counter then reads it at
its home point, goes on when it has reached its target, and raises PMISS (7) with the counter's address when not, at issue when the time has
passed and at its wake. -/
def Obligations.TimedWaits : Prop :=
  (∀ (a : VReg) (s : State) (t : TId), Solo s t → Clear s t (.sleep a) [] [] →
    ∃ s', exec (.sleep a) s = .next s' ∧ ((s.th t).val a = 0#32 → MovesOn s s' t 1) ∧
      ((s.th t).val a ≠ 0#32 → HeldAt s s' t (.sleep (s.time + ((s.th t).val a).toNat)) ∧ Instr.sleepWake t ∈ s'.events)) ∧
  (∀ (v : VReg) (s : State) (t : TId), Solo s t → Clear s t (.sleepu v) [] [] → (s.th t).instr = .sleepu v →
    ∃ s', exec (.sleepu v) s = .next s' ∧ (((s.th t).val64 v).toNat ≤ s.cycleOf t → MovesOn s s' t 1) ∧
      (s.cycleOf t < ((s.th t).val64 v).toNat → HeldAt s s' t (.sleepu ((s.th t).val64 v).toNat) ∧ Instr.sleepuWake t ∈ s'.events)) ∧
  (∀ (v c : VReg) (pl : Place) (us : List Upd) (s : State) (t : TId), Solo s t → Clear s t (.sleepuCounter v c) (pairOf c) [] →
    ((s.th t).val64 c).toNat % 8 = 0 → translate s (agentOf s t) .load ((s.th t).val64 c) 8 = (.ok pl, us) →
    orderBars s (agentOf s t) pl = false → s.cycleOf t < ((s.th t).val64 v).toNat →
    ∃ s', exec (.sleepuCounter v c) s = .next s' ∧ HeldAt s s' t (.sleepu ((s.th t).val64 v).toNat) ∧
      Instr.sleepuWake t ∈ s'.events) ∧
  (∀ (v c : VReg) (pl pm : Place) (us vs : List Upd) (s : State) (t : TId), Solo s t → Clear s t (.sleepuCounter v c) (pairOf c) [] →
    (s.th t).instr = .sleepuCounter v c → ((s.th t).val64 c).toNat % 8 = 0 → ((s.th t).val64 v).toNat ≤ s.cycleOf t →
    translate s (agentOf s t) .load ((s.th t).val64 c) 8 = (.ok pl, us) →
    translate (s.applyAll us) (agentOf s t) .load ((s.th t).val64 c) 8 = (.ok pm, vs) →
    orderBars s (agentOf s t) pl = false → orderBars s (agentOf s t) pm = false → (s.th t).wcBuf = none →
    ∃ s', exec (.sleepuCounter v c) s = .next s' ∧
      (((s.th t).val64 (v + 2#7)).toNat ≤ leNat (readPlace ((s.applyAll us).applyAll vs) (agentOf s t) pm 8 1).1 → MovesOn s s' t 1) ∧
      (∀ vec, leNat (readPlace ((s.applyAll us).applyAll vs) (agentOf s t) pm 8 1).1 < ((s.th t).val64 (v + 2#7)).toNat →
        Vectored s t vec → Trapped s s' t vec 7 ((s.th t).val64 c) 0)) ∧
  (∀ (d : Nat) (s : State) (t : TId), (s.thread? t).isSome = true → (s.th t).run = .waiting (.sleep d) →
    ∃ s', exec (.sleepWake t) s = .next s' ∧ (d ≤ s.time → teamHere s t.team = true → MovesOn s s' t 1) ∧
      (s.time < d ∨ teamHere s t.team = false → s'.th t = s.th t ∧ Instr.sleepWake t ∈ s'.events)) ∧
  (∀ (d : Nat) (s : State) (t : TId), (s.thread? t).isSome = true → (s.th t).run = .waiting (.sleepu d) →
    ∃ s', exec (.sleepuWake t) s = .next s' ∧ (teamHere s t.team = false → s' = s) ∧
      (teamHere s t.team = true → d ≤ s.cycleOf t → (∀ v c, (s.th t).instr ≠ .sleepuCounter v c) → MovesOn s s' t 1) ∧
      (teamHere s t.team = true → d ≤ s.cycleOf t → ∀ v c pl us, (s.th t).instr = .sleepuCounter v c →
        translate s (agentOf s t) .load ((s.th t).val64 c) 8 = (.ok pl, us) → orderBars s (agentOf s t) pl = false →
        (s.th t).wcBuf = none →
        (((s.th t).val64 (v + 2#7)).toNat ≤ leNat (readPlace (s.applyAll us) (agentOf s t) pl 8 1).1 → MovesOn s s' t 1) ∧
        (∀ vec, leNat (readPlace (s.applyAll us) (agentOf s t) pl 8 1).1 < ((s.th t).val64 (v + 2#7)).toNat →
          Vectored s t vec → Trapped s s' t vec 7 ((s.th t).val64 c) 0)) ∧
      (teamHere s t.team = true → s.cycleOf t < d → s'.th t = s.th t ∧ Instr.sleepuWake t ∈ s'.events))

/-! ## Named barriers -/

/-- R310, R311, R332: BARI fixes the count of an open phase; BARA arrives and goes on; BARW waits while the thread's own arrival is
pending; BAR arrives and waits; the arrival that makes the count completes the phase. -/
def Obligations.BarrierArrivals : Prop :=
  (∀ (a : VReg) (n : BitVec 4) (s : State) (t : TId), Solo s t → Clear s t (.bari a n) [] [] → (s.team? t.team).isSome = true →
    n.toNat < (s.tm t.team).claim.barriers → 1 ≤ ((s.th t).val a).toNat → ((s.th t).val a).toNat ≤ 8192 →
    (((s.tm t.team).bar n).cnt = 0 ∨ ((s.tm t.team).bar n).cnt = ((s.th t).val a).toNat) →
    ∃ s', exec (.bari a n) s = .next s' ∧ MovesOn s s' t 1 ∧
      (s'.tm t.team).bar n = { (s.tm t.team).bar n with cnt := ((s.th t).val a).toNat }) ∧
  (∀ (a : VReg) (n : BitVec 4) (i : Instr) (s : State) (t : TId), i = .bara a n ∨ i = .bar a n → Safe s → Solo s t →
    Clear s t i [] [] → (s.th t).run = .running → (s.th t).arrived = false → (s.team? t.team).isSome = true →
    Grouped s t.team → n.toNat < (s.tm t.team).claim.barriers →
    let b := (s.tm t.team).bar n
    let c := ((s.th t).val a).toNat
    1 ≤ c → c ≤ 8192 → (b.cnt = 0 ∨ b.cnt = c) → t ∉ b.pend →
    ∃ s', exec i s = .next s' ∧ (s'.th t).wcBuf = none ∧
      (c ≤ b.arr + 1 + b.dep → PhaseEnds s s' t.team n) ∧
      (b.arr + 1 + b.dep < c → ((s'.tm t.team).bar n).cnt = c ∧ ((s'.tm t.team).bar n).arr = b.arr + 1 ∧
        (∀ u, u ∈ ((s'.tm t.team).bar n).pend ↔ u = t ∨ u ∈ b.pend)) ∧
      (i = .bara a n → MovesOn s s' t 1) ∧
      (i = .bar a n → c ≤ b.arr + 1 + b.dep →
        InWave s s' t ∧ (WaveOpen s (clusterOf (s.gr t.gid).core) → MovesOn s s' t 1)) ∧
      (i = .bar a n → b.arr + 1 + b.dep < c →
        (s'.th t).pc = (s.th t).pc ∧ (s'.th t).widx = (s.th t).widx ∧ (s'.th t).run = .barrier n)) ∧
  (∀ (n : BitVec 4) (s : State) (t : TId), Safe s → Solo s t → Clear s t (.barw n) [] [] → (s.th t).run = .running →
    n.toNat < (s.tm t.team).claim.barriers →
    ∃ s', exec (.barw n) s = .next s' ∧
      (t ∉ ((s.tm t.team).bar n).pend → MovesOn s s' t 1) ∧
      (t ∈ ((s.tm t.team).bar n).pend → (s'.th t).run = .barrier n ∧ (s'.th t).pc = (s.th t).pc ∧ (s'.th t).widx = (s.th t).widx))

/-- R261, R266, R427: may the queued group `w` of a cluster leave in a wave that holds `n` groups already: its SLOPE is 0, or SLOPE × 0.1 µs
over the step of RATIO.CUR, 0.20, 0.32 or 0.45 A, rounded down and one at least, is more than `n`? -/
def Fits (c : Cluster) (w : Wave) (n : Nat) : Prop :=
  w.slope = 0#16 ∨ n < max 1 (w.slope.toNat * 10 / (if c.cur = 0#2 then 20 else if c.cur = 1#2 then 32 else 45))

/-- R266: the first `n` groups of a cluster's queue leave in a wave that holds `used` groups already, and no more fit it: their threads
go on. -/
def WaveLeaves (s s' : State) (c used n : Nat) : Prop :=
  let q := (s.cluster c).waves
  n ≤ q.length ∧ (s'.cluster c).waves = q.drop n ∧ (∀ k w, k < n → q[k]? = some w → Fits (s.cluster c) w (used + k)) ∧
    (∀ w, q[n]? = some w → ¬ Fits (s.cluster c) w (used + n)) ∧
    ∀ w ∈ q.take n, ∀ u ∈ w.ths, (s.th u).run = .wave → MovesOn s s' u 1

/-- R266, R427: a wave releases the oldest groups of its cluster's queue, as many as its slope lets it, one at least; groups that come in
the wave's TIME cycle share it while it has room; the next wave is 20 TIME cycles later. -/
def Obligations.BarrierWaves : Prop :=
  ∀ (c : Nat) (s : State), c < 16 → Safe s → (s.cluster c).waves ≠ [] → ((s.cluster c).waves.flatMap Wave.ths).Nodup →
    ∃ s', exec (.barrierWave c) s = .next s' ∧
      ((∀ w, (s.cluster c).lastWave = some w → w + 20 ≤ s.time) →
        ∃ n, 1 ≤ n ∧ WaveLeaves s s' c 0 n ∧ (s'.cluster c).lastWave = some s.time ∧ (s'.cluster c).waveUsed = n) ∧
      ((s.cluster c).lastWave = some s.time → ∃ n, WaveLeaves s s' c (s.cluster c).waveUsed n) ∧
      ((∃ w, (s.cluster c).lastWave = some w ∧ w < s.time ∧ s.time < w + 20) →
        s'.threads = s.threads ∧ s'.part = s.part ∧ Instr.barrierWave c ∈ s'.events)

/-! ## GROW and SHRINK -/

/-- A GROW's threads go on with its predicate. -/
def GrowEnds (s s' : State) (r : Grow) (v : Bool) : Prop :=
  ∀ u ∈ r.ths, (s.th u).run = .waiting .grow → MovesOn s s' u 1 ∧ (r.p ≠ 0#3 → (s'.th u).pred r.p = ⟨v, false, 0#3⟩)

/-- R25 to R28, R372, R373: GROW within the allocation, or with its blocks free, completes with its predicate true, the new
registers zero; it waits when blocks are missing, and the grant gives them while its team holds its place; when all groups of a core are stuck the youngest
request fails. SHRINK lowers the allocation, to 8 at least,
behind the GROWs that its group issued before it. -/
def Obligations.GrowAndShrink : Prop :=
  (∀ (p : PReg) (m : BitVec 8) (s : State) (t : TId), Safe s → Solo s t → Clear s t (.grow p m) [] [] →
    (s.gr t.gid).grows = [] → roundAlloc m.toNat ≤ 128 →
    let g := s.gr t.gid
    ∃ s', exec (.grow p m) s = .next s' ∧
      (roundAlloc m.toNat ≤ g.n → MovesOn s s' t 1 ∧ (s'.gr t.gid).n = g.n ∧ (p ≠ 0#3 → (s'.th t).pred p = ⟨true, false, 0#3⟩)) ∧
      (g.n < roundAlloc m.toNat → growGrantable s g ⟨roundAlloc m.toNat, p, s.nextId, []⟩ = true →
        MovesOn s s' t 1 ∧ (s'.gr t.gid).n = roundAlloc m.toNat ∧ (p ≠ 0#3 → (s'.th t).pred p = ⟨true, false, 0#3⟩) ∧
        ∀ r : VReg, g.n ≤ r.toNat → r.toNat < roundAlloc m.toNat → (s'.th t).reg r = Reg.zero) ∧
      (g.n < roundAlloc m.toNat → growGrantable s g ⟨roundAlloc m.toNat, p, s.nextId, []⟩ = false →
        HeldAt s s' t .grow ∧ (s'.gr t.gid).grows = [⟨roundAlloc m.toNat, p, s.nextId, [t]⟩] ∧ Instr.growGrant t.gid ∈ s'.events)) ∧
  (∀ (g : GId) (r : Grow) (rs : List Grow) (s : State), Safe s → (s.group? g).isSome = true → (s.gr g).grows = r :: rs →
    (∀ q ∈ rs, q.order ≠ r.order) → r.ths.Nodup →
    ∃ s', exec (.growGrant g) s = .next s' ∧ (teamHere s g.team = false → s' = s) ∧
      (teamHere s g.team = true → (s.gr g).n < r.m → growGrantable s (s.gr g) r = true → (s'.gr g).n = r.m ∧ (s'.gr g).grows = rs ∧ GrowEnds s s' r true) ∧
      (teamHere s g.team = true → (s.gr g).n < r.m → growGrantable s (s.gr g) r = false → s'.threads = s.threads ∧ s'.groups = s.groups ∧
        Instr.growGrant g ∈ s'.events)) ∧
  (∀ (c : Nat) (g : Group) (r : Grow) (s : State), Safe s → growStuck s c = true → g ∈ groupsOn s c → r ∈ g.grows → r.ths.Nodup →
    (∀ h ∈ groupsOn s c, ∀ q ∈ h.grows, (h.id, q) ≠ (g.id, r) → q.order < r.order) →
    ∃ s', exec (.growDeadlockFail c) s = .next s' ∧ (s'.gr g.id).n = (s.gr g.id).n ∧ r ∉ (s'.gr g.id).grows ∧ GrowEnds s s' r false) ∧
  (∀ (m : BitVec 8) (s : State) (t : TId), Solo s t → Clear s t (.shrink m) [] [] →
    (∀ o ∈ s.part.ops, o.t.gid = t.gid → o.dlv = none) → (s.gr t.gid).grows = [] →
    ∃ s', exec (.shrink m) s = .next s' ∧ MovesOn s s' t 1 ∧
      (s'.gr t.gid).n = min (s.gr t.gid).n (max 8 (roundAlloc m.toNat)) ∧ ∀ r, (s'.th t).reg r = (s.th t).reg r) ∧
  (∀ (m : BitVec 8) (s : State) (t : TId), Solo s t → Clear s t (.shrink m) [] [] → (s.gr t.gid).grows ≠ [] →
    max 8 (roundAlloc m.toNat) < (s.gr t.gid).n →
    ∃ s', exec (.shrink m) s = .next s' ∧ HeldAt s s' t .windows ∧ (s'.gr t.gid).n = (s.gr t.gid).n)

/-! ## Memory -/

/-- A safe state whose homes hold what they should (R135): lines have one copy, sectors one number each and 16 bytes, and a clean
one its frame's bytes. -/
structure Settled (s : State) : Prop where
  safe : Safe s
  lines : (s.part.l2.map L2Line.line).Nodup
  low : ∀ l ∈ s.part.l2, l.line < 2 ^ 48
  sectors : ∀ l ∈ s.part.l2, (l.secs.map Sector.i).Nodup
  sixteen : ∀ l ∈ s.part.l2, ∀ x ∈ l.secs, x.i < 8 ∧ x.data.length = 16
  clean : ∀ l ∈ s.part.l2, ∀ x ∈ l.secs, x.dirty = false → x.data = s.bytes (l.line * 128 + x.i * 16) 16

/-- R135 to R140, R152: `v` is the number that an access of `n` bytes at a place reads, where no copy or replica serves it. -/
def Reads (s : State) (t : TId) (pl : Place) (n cp v : Nat) : Prop :=
  match pl with
  | .scr core off => v = s.num (scrKey core off) n
  | .tib off => v = leNat (((tibBytes s t.team).drop off).take n)
  | .page p =>
    let uncopied := pointOf p cp = 3 ∨ (replicaFor s (agentOf s t) (p.pa / 128) = none ∧
      (pointOf p cp = 1 ∨ ((∀ c ∈ s.part.l1, c.sector ≠ p.pa / 16) ∧ ∀ c ∈ s.part.rdc, c.sector ≠ p.pa / 16)))
    (physRange p.pa ≠ .sys → uncopied →
      (pointOf p cp = 3 ∨ (s.l2Line? (p.pa / 128)).isSome = true ∨ (p.kind ≠ 1 ∧ p.kind ≠ 2)) → v = leNat (homeBytes s p.pa n)) ∧
    (physRange p.pa ≠ .sys → uncopied → pointOf p cp ≠ 3 → s.l2Line? (p.pa / 128) = none → (p.kind = 1 ∨ p.kind = 2) → v = 0)

/-- A number of `n` bytes as register values (R388). -/
def regWords (n v : Nat) : List Word := if n = 8 then [BitVec.ofNat 32 v, BitVec.ofNat 32 (v / 2 ^ 32)] else [BitVec.ofNat 32 v]

/-- An access at issue (R55, R150): its counter is not full, it has been granted a miss-status entry or one is free that no rejected access
waits for, its address is aligned and translates to a place that no order record bars. -/
structure Reaches (s : State) (t : TId) (k : AccessKind) (wc : BitVec 3) (va : BitVec 64) (n : Nat) (pl : Place) : Prop where
  counter : (s.gr t.gid).counter wc ≠ 63#6
  aligned : va.toNat % n = 0
  place : (translate s (agentOf s t) k va n).1 = .ok pl
  order : orderBars s (agentOf s t) pl = false
  entry : (s.th t).run.granted = true ∨ (0 < entriesFree s (s.gr t.gid).core ∧ rejectedWaits s (s.gr t.gid).core = false)

/-- The issue counts (R55): the counter is one more, operation `id` of thread `t` is outstanding, its event owed. -/
structure Counts (s s' : State) (t : TId) (wc : BitVec 3) (dlv : Option Delivery) (ev : Nat → Instr) : Prop where
  counter : (s'.gr t.gid).counter wc = (s.gr t.gid).counter wc + 1#6
  op : ∃ o ∈ s'.part.ops, o.id = s.nextId + 1 ∧ o.tok = s.nextId ∧ o.t = t ∧ o.wc = some wc ∧ o.dlv = dlv
  event : ev (s.nextId + 1) ∈ s'.events

/-- A load: destination, address pair, counter, bytes, cache policy, window, offset. -/
structure LoadForm where
  d : VReg
  a : VReg
  wc : BitVec 3
  n : Nat
  cp : Nat
  la : Nat
  off : Word

def loadForm : Instr → Option LoadForm
  | .ld d a wc sz cp la => some ⟨d, a, wc, Sys2Proof.Machine.sizeOf sz, cp.toNat, la.toNat, 0#32⟩
  | .ldOffset d a wc sz cp la off => some ⟨d, a, wc, Sys2Proof.Machine.sizeOf sz, cp.toNat, la.toNat, off⟩
  | .lda d a wc sz cp la => some ⟨d, a, wc, if sz = 1#1 then 8 else 4, if cp = 3#2 then 3 else 1, la.toNat, 0#32⟩
  | .ldaScope d a wc sz cp la _ => some ⟨d, a, wc, if sz = 1#1 then 8 else 4, if cp = 3#2 then 3 else 1, la.toNat, 0#32⟩
  | _ => none

/-- R55, R60, R388, R390: LD and LDA, plain and extended, issue: the value at the place is outstanding for the destination, with
its window; no register and no byte of memory changes.
An access is performed at its issue (log 5), with one count for an issue (log 29). -/
def Obligations.LoadResults : Prop :=
  ∀ (i : Instr) (f : LoadForm) (pl : Place) (s : State) (t : TId), loadForm i = some f → Solo s t → Clear s t i (pairOf f.a) [] →
    let va := (s.th t).val64 f.a + f.off.signExtend 64
    Reaches s t .load f.wc va f.n pl → (s.th t).wcBuf = none →
    ∃ s' v, exec i s = .next s' ∧ MovesOn s s' t i.len ∧ Reads s t pl f.n f.cp v ∧
      Counts s s' t f.wc (some ⟨f.d, (regWords f.n v).length, some (regWords f.n v), f.la⟩) .loadReturn ∧
      (∀ r, (s'.th t).reg r = (s.th t).reg r) ∧ (Unhosted s t → Settled s → ∀ a, homeByte s' a = homeByte s a)

/-- A store: data register, address pair, counter, bytes, cache policy, offset; is it a release. -/
structure StoreForm where
  d : VReg
  a : VReg
  wc : BitVec 3
  n : Nat
  cp : Nat
  off : Word
  rel : Bool

def storeForm : Instr → Option StoreForm
  | .st d a wc sz cp _ => some ⟨d, a, wc, Sys2Proof.Machine.sizeOf sz, cp.toNat, 0#32, false⟩
  | .stOffset d a wc sz cp _ off => some ⟨d, a, wc, Sys2Proof.Machine.sizeOf sz, cp.toNat, off, false⟩
  | .stl d a wc sz cp _ => some ⟨d, a, wc, if sz = 1#1 then 8 else 4, cp.toNat, 0#32, true⟩
  | .stlScope d a wc sz cp _ _ => some ⟨d, a, wc, if sz = 1#1 then 8 else 4, cp.toNat, 0#32, true⟩
  | _ => none

/-- A write to a place need not wait, and no line leaves the unbacked space for it (R153, R154): a line that is not there finds
room in its set. -/
def Writable (s : State) (t : TId) (pl : Place) (cp : Nat) : Prop :=
  match pl with
  | .scr _ _ => True
  | .tib _ => False
  | .page p => physRange p.pa ≠ .sys ∧
      (pointOf p cp ≠ 3 → (s.l2Line? (p.pa / 128)).isSome = true ∨ p.kind = 0 ∨ p.kind = 3 ∨
        ((heldIn s p.home (p.pa / 128)).length < 12 ∧
          ∃ c, s.ctx? (ctxNum s t.team) = some c ∧ unbackedCount s (ctxNum s t.team) < c.quota))

/-- The bytes at a place are `bs`, and every other byte of memory is as it was: the address of a page's byte is `p.pa`, of the
scratchpad's its key. -/
def Stored (s s' : State) (pl : Place) (bs : List Byte) : Prop :=
  match pl with
  | .scr core off => s'.bytes (scrKey core off) bs.length = bs ∧
      ∀ k, k < scrKey core off ∨ scrKey core off + bs.length ≤ k → s'.byte k = s.byte k
  | .tib _ => True
  | .page p => homeBytes s' p.pa bs.length = bs ∧ ∀ k, k < p.pa ∨ p.pa + bs.length ≤ k → homeByte s' k = homeByte s k

/-- R55, R138 to R140, R166, R434, R436: ST and STL issue: the bytes of the data register stand at the place the address translates to,
nothing else changes in memory; on a write-combining page they stand in the thread's buffer. STL is a release: what stood in the thread's
buffer is at the memory side before it.
An access is performed at its issue (log 5), with one count for an issue (log 29). -/
def Obligations.StoreResults : Prop :=
  (∀ (i : Instr) (f : StoreForm) (pl : Place) (s : State) (t : TId), storeForm i = some f → Solo s t →
    Clear s t i (pairOf f.a ++ loadRegs f.d f.n) [] → Unhosted s t →
    let va := (s.th t).val64 f.a + f.off.signExtend 64
    let v := if f.n = 8 then ((s.th t).val64 f.d).toNat else ((s.th t).val f.d).toNat
    Reaches s t .store f.wc va f.n pl → (s.th t).wcBuf = none → Settled s → Writable s t pl f.cp →
    findMatch s t 1 va.toNat f.n (v % 256 ^ f.n) = none →
    ∃ s', exec i s = .next s' ∧ MovesOn s s' t i.len ∧ Counts s s' t f.wc none .accessAck ∧
      (∀ r, (s'.th t).reg r = (s.th t).reg r) ∧
      (pl.combines = false → Stored s s' pl (leBytes f.n v)) ∧
      (∀ p, pl = .page p → p.mt = 1 →
        (s.threads.filter fun y => y.wcBuf.isSome && (agentOf s y.id).issuer == (agentOf s t).issuer).length < 8 →
        s'.mem = s.mem ∧
          (s'.th t).wcBuf = some ⟨p.pa / 128, cells p.pa (leBytes f.n v), s.time, [(va, f.n, leNat (leBytes f.n v))]⟩)) ∧
  (∀ (i : Instr) (f : StoreForm) (b : WcBuffer) (p : Page) (s : State) (t : TId), storeForm i = some f → f.rel = true → Solo s t →
    Clear s t i (pairOf f.a ++ loadRegs f.d f.n) [] → Unhosted s t →
    let va := (s.th t).val64 f.a + f.off.signExtend 64
    let v := if f.n = 8 then ((s.th t).val64 f.d).toNat else ((s.th t).val f.d).toNat
    Reaches s t .store f.wc va f.n (.page p) → (s.th t).wcBuf = some b → (∀ c ∈ b.bytes, c.1 / 128 = b.line) → Settled s →
    p.mt = 0 → p.kind = 0 → physRange p.pa ≠ .sys → p.pa / 128 ≠ b.line → findMatch s t 1 va.toNat f.n (v % 256 ^ f.n) = none →
    (∀ x ∈ b.accs, findMatch s t 1 x.1.toNat x.2.1 x.2.2 = none) →
    ∃ s', exec i s = .next s' ∧ MovesOn s s' t i.len ∧ (s'.th t).wcBuf = none ∧ homeBytes s' p.pa f.n = leBytes f.n v ∧
      ∀ a, a < p.pa ∨ p.pa + f.n ≤ a →
        homeByte s' a = if b.bytes.any (fun c => c.1 == a) then Memory.get (Memory.setAll s.mem b.bytes) a else homeByte s a)

/-- An atomic: its kind, destination and operand, address pair, second operand, counter, bytes, operation of R326, cache policy,
window. -/
structure AtomForm where
  k : AtomKind
  d : VReg
  a : VReg
  b : VReg
  wc : BitVec 3
  n : Nat
  op : Nat
  cp : BitVec 2
  la : Nat

def atomForm : Instr → Option AtomForm
  | .atom d a wc cp la => some ⟨.atom, d, a, 0#7, wc, 4, 0, cp, la.toNat⟩
  | .atomExt d a wc cp la _ b _ op sz => some ⟨.atom, d, a, b, wc, if sz = 1#2 then 8 else 4, op.toNat, cp, la.toNat⟩
  | .red d a wc cp la => some ⟨.red, d, a, 0#7, wc, 4, 0, cp, la.toNat⟩
  | .redExt d a wc cp la _ _ op sz => some ⟨.red, d, a, 0#7, wc, if sz = 1#2 then 8 else 4, op.toNat, cp, la.toNat⟩
  | .atomk d a wc op cp la => some ⟨.key, d, a, 0#7, wc, 8, keyOp op, cp, la.toNat⟩
  | .atomkExt d a wc op cp la _ _ => some ⟨.key, d, a, 0#7, wc, 8, keyOp op, cp, la.toNat⟩
  | _ => none

/-- R326, R329: the value that an operation with operands `x` and `b` writes over `old` in `n` bytes, signed values read as
two's complement. -/
def Updates (op n old x b new : Nat) : Prop :=
  (op = 0 → new = (old + x) % 2 ^ (8 * n)) ∧
  (op = 1 → (new = old ∨ new = x) ∧ signedOf n new = min (signedOf n old) (signedOf n x)) ∧
  (op = 2 → new = min old x) ∧
  (op = 3 → (new = old ∨ new = x) ∧ signedOf n new = max (signedOf n old) (signedOf n x)) ∧
  (op = 4 → new = max old x) ∧
  (op = 5 → new = old &&& x) ∧ (op = 6 → new = old ||| x) ∧ (op = 7 → new = old ^^^ x) ∧ (op = 8 → new = x) ∧
  (op = 9 → new = if old = x then b else old) ∧
  (op = 10 → new = (fadd32 (BitVec.ofNat 32 old) (BitVec.ofNat 32 x)).toNat) ∧
  (op = 11 → new = (fminNan (BitVec.ofNat 32 old) (BitVec.ofNat 32 x)).toNat) ∧
  (op = 12 → new = (fmaxNan (BitVec.ofNat 32 old) (BitVec.ofNat 32 x)).toNat)

/-- R325 to R329, R418, R419: ATOM, RED and ATOMK issue: the operation's value replaces the old one at the place (a compare that fails
writes nothing), and ATOM and ATOMK have the old one outstanding for their destination.
An access is performed at its issue (log 5), with one count for an issue (log 29). -/
def Obligations.AtomicResults : Prop :=
  ∀ (i : Instr) (f : AtomForm) (pl : Place) (s : State) (t : TId), i.wf = true → atomForm i = some f → Solo s t →
    Clear s t i (pairOf f.a ++ (if f.op = 9 then loadRegs f.b f.n else []) ++ loadRegs f.d f.n) [] → Unhosted s t →
    ((s.tm t.team).det = true → f.k ≠ .key → f.op < 10) → sideCan f.k f.op pl f.cp.toNat = true →
    let va := (s.th t).val64 f.a
    let x := operand (s.th t) f.d f.n
    let b := operand (s.th t) f.b f.n
    Reaches s t .atomic f.wc va f.n pl → (s.th t).wcBuf = none → Settled s → Writable s t pl f.cp.toNat →
    (∀ new, findMatch s t 2 va.toNat f.n new = none) →
    ∃ s' old new, exec i s = .next s' ∧ MovesOn s s' t i.len ∧ Reads s t pl f.n (homeCp f.cp) old ∧ Updates f.op f.n old x b new ∧
      (f.k ≠ .red → Counts s s' t f.wc (some ⟨f.d, (regWords f.n old).length, some (regWords f.n old), f.la⟩) .loadReturn) ∧
      (f.k = .red → Counts s s' t f.wc none .accessAck) ∧
      (∀ r, (s'.th t).reg r = (s.th t).reg r) ∧ (f.op ≠ 9 ∨ old = x → Stored s s' pl (leBytes f.n new)) ∧
      (f.op = 9 → old ≠ x → ∀ k, homeByte s' k = homeByte s k)

/-- R55, R60, R140, R150, R175: LOAD_RETURN writes the destination and ends the operation, with
zero and poison for a load whose fault was not resolved (R147); so does ACCESS_ACK; a store that
stands in its thread's buffer is not yet performed; the access of a core that was rejected first takes a free miss-status entry; a buffer
is written at the memory side, where the home holds no copy then (R139), 100 TIME cycles after it opened; a lease's end takes its copy. -/
def Obligations.AccessesComplete : Prop :=
  (∀ (o : Op) (d : Delivery) (vs : List Word) (k : BitVec 3) (s : State), s.op? o.id = some o → o.dlv = some d → d.vals = some vs →
    o.job = .poisoned k → (s.thread? o.t).isSome = true → vs.length ≤ 128 →
    ∃ s', exec (.loadReturn o.id) s = .next s' ∧ s'.op? o.id = none ∧
      (∀ j, j < vs.length → (s'.th o.t).reg (d.reg + BitVec.ofNat 7 j) = ⟨0#32, true, k⟩) ∧ (∀ u, u ≠ o.t → s'.th u = s.th u)) ∧
  (∀ (o : Op) (d : Delivery) (vs : List Word) (s : State), s.op? o.id = some o → o.dlv = some d → d.vals = some vs →
    (∀ k, o.job ≠ .poisoned k) → (s.thread? o.t).isSome = true → vs.length ≤ 128 →
    ∃ s', exec (.loadReturn o.id) s = .next s' ∧ s'.op? o.id = none ∧
      (∀ k, k < vs.length → (s'.th o.t).reg (d.reg + BitVec.ofNat 7 k) = ⟨vs.getD k 0#32, false, 0#3⟩) ∧
      (∀ u, u ≠ o.t → s'.th u = s.th u) ∧ (Unhosted s o.t → s'.mem = s.mem)) ∧
  (∀ (o : Op) (n : BitVec 3) (s : State), s.op? o.id = some o → o.dlv = none → o.wc = some n → (s.group? o.t.gid).isSome = true →
    (∀ line, o.job = .combined line → ∀ b, (s.th o.t).wcBuf = some b → b.line ≠ line) → (∀ pl v, o.job ≠ .status pl v) → o.isAcc = false →
    ∃ s', exec (.accessAck o.id) s = .next s' ∧ s'.op? o.id = none ∧ s'.threads = s.threads ∧ s'.mem = s.mem ∧
      ((s.counting = some o.tok ∨ ∃ p ∈ s.part.ops, p.tok = o.tok ∧ p.id ≠ o.id) →
        (s'.gr o.t.gid).counter n = (s.gr o.t.gid).counter n) ∧
      (s.counting ≠ some o.tok → (∀ p ∈ s.part.ops, p.tok = o.tok → p.id = o.id) →
        (s'.gr o.t.gid).counter n = (s.gr o.t.gid).counter n - 1#6)) ∧
  (∀ (o : Op) (line : Nat) (b : WcBuffer) (s : State), s.op? o.id = some o → o.job = .combined line →
    (s.th o.t).wcBuf = some b → b.line = line →
    ∃ s', exec (.accessAck o.id) s = .next s' ∧ s'.part = s.part ∧ Instr.accessAck o.id ∈ s'.events) ∧
  (∀ (c k : Nat) (x : Thread) (s : State), Safe s → x ∈ s.threads → x.run = .waiting (.mshr false k) → (s.gr x.id.gid).core = c →
    (∀ y ∈ s.threads, ∀ n, y.run = .waiting (.mshr false n) → (s.gr y.id.gid).core = c → y.id ≠ x.id → k < n) →
    ∃ s', exec (.mshrGrant c) s = .next s' ∧ (0 < entriesFree s c → (s'.th x.id).run = .waiting (.mshr true k)) ∧
      (entriesFree s c = 0 → s' = s)) ∧
  (∀ (b : WcBuffer) (s : State) (t : TId), (s.th t).wcBuf = some b → (s.thread? t).isSome = true →
    ∃ s', exec (.wcDrainTimeout t) s = .next s' ∧
      (b.since + 100 ≤ s.time → (s'.th t).wcBuf = none ∧
        (Unhosted s t → s.l2Line? b.line = none → s'.mem = Memory.setAll s.mem b.bytes) ∧
        (Unhosted s t → Settled s → (∀ c ∈ b.bytes, c.1 / 128 = b.line) →
          ∀ a, homeByte s' a = if b.bytes.any (fun c => c.1 == a) then Memory.get (Memory.setAll s.mem b.bytes) a else homeByte s a)) ∧
      (s.time < b.since + 100 → s'.threads = s.threads ∧ s'.mem = s.mem ∧ Instr.wcDrainTimeout t ∈ s'.events)) ∧
  (∀ (die sector : Nat) (s : State), ∃ s', exec (.rdcLeaseEnd die sector) s = .next s' ∧ copyOf s'.part.rdc die sector = none ∧
    ∀ d n, (d, n) ≠ (die, sector) → copyOf s'.part.rdc d n = copyOf s.part.rdc d n)

/-- An access of R234 and R235: what it does, its address, its bytes, the registers whose poison it consumes, its counter. -/
structure AccessForm where
  k : AccessKind
  a : VReg
  off : Word
  n : Nat
  eats : List VReg
  wc : BitVec 3

/-- The loads, stores and atomics. -/
def accessForm (i : Instr) : Option AccessForm :=
  match loadForm i, storeForm i, atomForm i with
  | some f, _, _ => some ⟨.load, f.a, f.off, f.n, pairOf f.a, f.wc⟩
  | _, some f, _ => some ⟨.store, f.a, f.off, f.n, pairOf f.a ++ loadRegs f.d f.n, f.wc⟩
  | _, _, some f => some ⟨.atomic, f.a, 0#32, f.n, pairOf f.a ++ (if f.op = 9 then loadRegs f.b f.n else []) ++ loadRegs f.d f.n, f.wc⟩
  | _, _, _ => none

/-- R327: a deterministic launch does not permit an atomic of a thread. -/
def BarredAtomic (s : State) (t : TId) (i : Instr) : Prop :=
  ∃ f, atomForm i = some f ∧ (s.tm t.team).det = true ∧ f.k ≠ .key ∧ 10 ≤ f.op

/-- R145, R147, R234 to R237, R388: of a load, store or atomic, a misaligned address traps with ALIGN; a translation fault that the kernel
has not been offered is offered to it, when it is NOMAP or PERM, and changes no memory; denied, or of another reason, a load goes on, with
its record taken and a zero, poisoned destination outstanding, and a store or atomic traps with PFAULT. -/
def Obligations.AccessFaults : Prop :=
  (∀ (i : Instr) (f : AccessForm) (vec : BitVec 64) (s : State) (t : TId), i.wf = true → accessForm i = some f → Solo s t →
    Clear s t i f.eats [] → ¬ BarredAtomic s t i →
    let va := (s.th t).val64 f.a + f.off.signExtend 64
    (s.gr t.gid).counter f.wc ≠ 63#6 → va.toNat % f.n ≠ 0 → Vectored s t vec →
    ∃ s', exec i s = .next s' ∧ Trapped s s' t vec 6 va 0 ∧ (Unhosted s t → s'.mem = s.mem)) ∧
  (∀ (i : Instr) (f : AccessForm) (r : Nat) (s : State) (t : TId), i.wf = true → accessForm i = some f → Solo s t →
    Clear s t i f.eats [] → ¬ BarredAtomic s t i →
    let va := (s.th t).val64 f.a + f.off.signExtend 64
    (s.gr t.gid).counter f.wc ≠ 63#6 → va.toNat % f.n = 0 → (translate s (agentOf s t) f.k va f.n).1 = .error r →
    (r = 4 ∨ r = 5) → (s.th t).denied = false →
    ∃ s', exec i s = .next s' ∧ (s'.th t).run = .offered va (BitVec.ofNat 4 r) ∧ (s'.th t).pc = (s.th t).pc ∧
      (s'.th t).widx = (s.th t).widx ∧ Report.fault va (BitVec.ofNat 4 r) ∈ s'.part.reports ∧ (Unhosted s t → s'.mem = s.mem)) ∧
  (∀ (i : Instr) (f : LoadForm) (r : Nat) (s : State) (t : TId), loadForm i = some f → Solo s t → Clear s t i (pairOf f.a) [] →
    let va := (s.th t).val64 f.a + f.off.signExtend 64
    (s.gr t.gid).counter f.wc ≠ 63#6 → va.toNat % f.n = 0 → (translate s (agentOf s t) .load va f.n).1 = .error r →
    ((r ≠ 4 ∧ r ≠ 5) ∨ (s.th t).denied = true) →
    ∃ s', exec i s = .next s' ∧ MovesOn s s' t i.len ∧ (∀ q, (s'.th t).reg q = (s.th t).reg q) ∧
      (let k := freeRecord s t (loadRegs f.d f.n)
       (∀ h : 1 ≤ k ∧ k ≤ 4, (s'.th t).recs[k - 1]'(by omega) = ⟨va, BitVec.ofNat 4 r, BitVec.ofNat 6 i.major⟩) ∧
         ∃ o ∈ s'.part.ops, o.id = s.nextId + 1 ∧ o.t = t ∧ o.wc = some f.wc ∧ o.job = .poisoned (BitVec.ofNat 3 k) ∧
           o.dlv = some ⟨f.d, (loadRegs f.d f.n).length, some ((loadRegs f.d f.n).map fun _ => 0#32), f.la⟩ ∧
           Instr.loadReturn o.id ∈ s'.events)) ∧
  (∀ (i : Instr) (f : AccessForm) (r : Nat) (vec : BitVec 64) (s : State) (t : TId), i.wf = true → accessForm i = some f →
    f.k ≠ .load → Solo s t → Clear s t i f.eats [] → ¬ BarredAtomic s t i →
    let va := (s.th t).val64 f.a + f.off.signExtend 64
    (s.gr t.gid).counter f.wc ≠ 63#6 → va.toNat % f.n = 0 → (translate s (agentOf s t) f.k va f.n).1 = .error r →
    ((r ≠ 4 ∧ r ≠ 5) ∨ (s.th t).denied = true) → Vectored s t vec →
    ∃ s', exec i s = .next s' ∧ Trapped s s' t vec 5 va r ∧ (Unhosted s t → s'.mem = s.mem))

/-- R411: PREF moves on, whatever it brings in; no register and no byte of memory changes; its counter does not stay raised. -/
def Obligations.PrefetchResults : Prop :=
  ∀ (i : Instr) (a : VReg) (wc : BitVec 3) (s : State) (t : TId),
    (∃ ln cp la, i = .pref a wc ln cp la ∨ ∃ off, i = .prefOffset a wc ln cp la off) → Solo s t → Clear s t i (pairOf a) [] →
    (s.gr t.gid).counter wc ≠ 63#6 → (∀ o ∈ s.part.ops, o.tok < s.nextId) →
    ∃ s', exec i s = .next s' ∧ MovesOn s s' t i.len ∧ (∀ r, (s'.th t).reg r = (s.th t).reg r) ∧
      (s'.gr t.gid).counter wc = (s.gr t.gid).counter wc ∧ (Unhosted s t → Settled s → ∀ k, homeByte s' k = homeByte s k)

/-- R152, R156, R313, R349, R366, R367: DISCARD, FLUSHL and INVL of no bytes are void; of a range that translates whole, DISCARD leaves
zeros at the homes of its backed sectors and takes the data of unbacked ones away, so that each is zero in its line or its line does not
exist, FLUSHL their homes' bytes in the frames, and INVL takes the core's copies away. -/
def Obligations.RangeResults : Prop :=
  (∀ (i : Instr) (n a : VReg) (s : State) (t : TId),
    (i = .discard n a ∨ i = .flushl n a ∨ ∃ l2, i = .invl n a l2) → Solo s t → Clear s t i [] [] → (s.th t).val n = 0#32 →
    ∃ s', exec i s = .next s' ∧ MovesOn s s' t 1 ∧ (Unhosted s t → s'.mem = s.mem) ∧ ∀ r, (s'.th t).reg r = (s.th t).reg r) ∧
  (∀ (n a : VReg) (secs : List SectorAt) (s : State) (t : TId), Solo s t → Clear s t (.discard n a) [] [] → Unhosted s t →
    Settled s → (s.th t).val n ≠ 0#32 → (s.th t).poisoned (pairOf a ++ [n]) = none → ((s.th t).val64 a).toNat % 16 = 0 →
    ((s.th t).val n).toNat % 16 = 0 →
    (rangeSectors (agentOf s t) .discard (((s.th t).val n).toNat / 16) ((s.th t).val64 a) s).1 = .ok secs →
    (∀ x ∈ secs, x.page.mt = 0 ∧ x.page.kind = 0) → barredSector s t secs = none → (s.th t).wcBuf = none →
    (∀ x ∈ secs, findMatch s t 1 x.va.toNat 16 0 = none) →
    ∃ s', exec (.discard n a) s = .next s' ∧ MovesOn s s' t 1 ∧
      (∀ k, (∃ x ∈ secs, k / 16 = x.page.pa / 16) → homeByte s' k = 0#8) ∧
      (∀ k, (∀ x ∈ secs, k / 16 ≠ x.page.pa / 16) → homeByte s' k = homeByte s k)) ∧
  (∀ (n a : VReg) (secs : List SectorAt) (s : State) (t : TId), Solo s t → Clear s t (.discard n a) [] [] → Unhosted s t →
    Settled s → (s.th t).val n ≠ 0#32 → (s.th t).poisoned (pairOf a ++ [n]) = none → ((s.th t).val64 a).toNat % 16 = 0 →
    ((s.th t).val n).toNat % 16 = 0 →
    (rangeSectors (agentOf s t) .discard (((s.th t).val n).toNat / 16) ((s.th t).val64 a) s).1 = .ok secs →
    (∀ x ∈ secs, x.page.mt = 0 ∧ (x.page.kind = 1 ∨ x.page.kind = 2)) → barredSector s t secs = none →
    (∀ x ∈ secs, findMatch s t 1 x.va.toNat 16 0 = none) →
    ∃ s', exec (.discard n a) s = .next s' ∧ MovesOn s s' t 1 ∧ s'.mem = s.mem ∧
      (∀ k, (∃ x ∈ secs, k / 16 = x.page.pa / 16) → s'.l2Line? (k / 128) = none ∨ homeByte s' k = 0#8) ∧
      (∀ k, (∀ x ∈ secs, k / 16 ≠ x.page.pa / 16) →
        ((s'.l2Line? (k / 128)).isSome = true ∨ ∀ x ∈ secs, k / 128 ≠ x.page.pa / 128) → homeByte s' k = homeByte s k)) ∧
  (∀ (n a : VReg) (secs : List SectorAt) (s : State) (t : TId), Solo s t → Clear s t (.flushl n a) [] [] → Unhosted s t →
    Settled s → (s.th t).val n ≠ 0#32 → (s.th t).poisoned (pairOf a ++ [n]) = none → ((s.th t).val64 a).toNat % 16 = 0 →
    ((s.th t).val n).toNat % 16 = 0 → (s.th t).wcBuf = none →
    (rangeSectors (agentOf s t) .flush (((s.th t).val n).toNat / 16) ((s.th t).val64 a) s).1 = .ok secs →
    ∃ s', exec (.flushl n a) s = .next s' ∧ MovesOn s s' t 1 ∧ (∀ k, homeByte s' k = homeByte s k) ∧
      (∀ x ∈ secs, x.page.mt = 0 → x.page.kind ≠ 1 → x.page.kind ≠ 2 →
        ∀ k, k / 16 = x.page.pa / 16 → s'.byte k = homeByte s k)) ∧
  (∀ (n a : VReg) (l2 : BitVec 1) (secs : List SectorAt) (c : Nat) (s : State) (t : TId), Solo s t → Clear s t (.invl n a l2) [] [] →
    Unhosted s t → Settled s → (s.th t).val n ≠ 0#32 → (s.th t).poisoned (pairOf a ++ [n]) = none → ((s.th t).val64 a).toNat % 16 = 0 →
    ((s.th t).val n).toNat % 16 = 0 → (agentOf s t).core = some c →
    (rangeSectors (agentOf s t) .flush (((s.th t).val n).toNat / 16) ((s.th t).val64 a) s).1 = .ok secs →
    ∃ s', exec (.invl n a l2) s = .next s' ∧ MovesOn s s' t 1 ∧ (∀ k, homeByte s' k = homeByte s k) ∧
      (∀ x ∈ secs, x.page.mt = 0 → copyOf s'.part.l1 c (x.page.pa / 16) = none ∧
        copyOf s'.part.rdc (agentOf s t).die (x.page.pa / 16) = none))

/-- R230, R179, R445: WAITGE moves on and waits in the background, with its window and counter; a read that finds the target
reached completes it, a lower counter leaves it waiting. -/
def Obligations.CounterWaits : Prop :=
  (∀ (d a : VReg) (wc : BitVec 3) (la : BitVec 4) (pl : Place) (s : State) (t : TId), Solo s t →
    Clear s t (.waitge d a wc la) (pairOf a) [] → (s.gr t.gid).counter wc ≠ 63#6 → ((s.th t).val64 a).toNat % 8 = 0 →
    (translate s (agentOf s t) .load ((s.th t).val64 a) 8).1 = .ok pl → orderBars s (agentOf s t) pl = false →
    ∃ s', exec (.waitge d a wc la) s = .next s' ∧ MovesOn s s' t 1 ∧
      Counts s s' t wc (some ⟨0#7, 0, some [], la.toNat⟩) (fun _ => .waitgeRead t) ∧ (∀ r, (s'.th t).reg r = (s.th t).reg r) ∧
      ∃ o ∈ s'.part.ops, o.id = s.nextId + 1 ∧ o.job = .waitge ((s.th t).val64 a) ((s.th t).val64 d)) ∧
  (∀ (o : Op) (va target : BitVec 64) (pl : Place) (us : List Upd) (s : State), o.job = .waitge va target →
    (∀ p ∈ s.part.ops, p.t = o.t → (∃ v w, p.job = .waitge v w) → p = o) → o ∈ s.part.ops → (s.part.ops.map Op.id).Nodup →
    translate s (agentOf s o.t) .load va 8 = (.ok pl, us) → teamHere s o.t.team = true → (s.th o.t).wcBuf = none →
    ∃ s', exec (.waitgeRead o.t) s = .next s' ∧
      (target.toNat ≤ leNat (readPlace s (agentOf s o.t) pl 8 1).1 → s'.op? o.id = none) ∧
      (leNat (readPlace s (agentOf s o.t) pl 8 1).1 < target.toNat → s'.op? o.id = some o ∧ Instr.waitgeRead o.t ∈ s'.events))

/-! ## Multicast, the matrix unit and the accumulate network -/

/-- An instruction of format M or E issues (R55): nothing keeps the thread from it, and its counter is not full. -/
structure Issues (s : State) (t : TId) (i : Instr) (eats : List VReg) (wc : BitVec 3) : Prop where
  solo : Solo s t
  clear : Clear s t i eats []
  counter : (s.gr t.gid).counter wc ≠ 63#6

/-- R55, R60 to R62, R317: an instruction has issued whose result returns when it completes: its counter is one more, and the delivery is
outstanding, its event owed. -/
structure Returns (s s' : State) (t : TId) (wc : BitVec 3) (d : VReg) (vs : List Word) (la : Nat) : Prop where
  counter : (s'.gr t.gid).counter wc = (s.gr t.gid).counter wc + 1#6
  op : ∃ o ∈ s'.part.ops, s.nextId < o.id ∧ o.tok = s.nextId ∧ o.t = t ∧ o.wc = some wc ∧ o.dlv = some ⟨d, vs.length, some vs, la⟩ ∧
    o.job = .result ∧ Instr.loadReturn o.id ∈ s'.events
  regs : ∀ r, (s'.th t).reg r = (s.th t).reg r

/-- R215 to R218, R391: LDMC with no mask bit returns a drop mask of zero and reads nothing; with a mask it is outstanding for the recipients that
hold a claim, with each line's bytes, its drop mask due in its pair; the windows of its records close, then end, as NETCTL times them
(R212); the delivery writes every line on every recipient; a byte written since the LDMC issued ends as either value. -/
def Obligations.MulticastResults : Prop :=
  (∀ (d a : VReg) (wc : BitVec 3) (la : BitVec 4) (doff : BitVec 12) (nl : BitVec 7) (xs : List SectorAt) (s : State) (t : TId),
    let i : Instr := .ldmc d a wc la doff nl
    let mask := (s.th t).val64 d
    let va := (s.th t).val64 a
    let dest := doff.toNat * 128
    let n := (nl.toNat + 1) * 128
    let core0 := (s.gr t.gid).core / 48 * 48
    Issues s t i (pairOf d ++ pairOf a) wc → (s.th t).wcBuf = none → badMaskBit s t mask = none → va.toNat % 128 = 0 → dest + n ≤ 524288 →
    (ldmcLines (agentOf s t) (nl.toNat + 1) va s).1 = .ok xs → (mask ≠ 0#64 → barredLine s (agentOf s t) xs = none) →
    s.part.mcs = [] → (xs.map fun x => x.page.pa / 128).Nodup → (∀ x ∈ xs, physRange x.page.pa ≠ .sys) →
    ∃ s', exec i s = .next s' ∧ MovesOn s s' t i.len ∧
      (mask = 0#64 → Returns s s' t wc d [0#32, 0#32] la.toNat ∧ s'.part.mcs = []) ∧
      (mask ≠ 0#64 → (∀ r, (s'.th t).reg r = (s.th t).reg r) ∧
        ∃ o ∈ s'.part.ops, o.t = t ∧ o.wc = some wc ∧ Instr.ldmcDeliveryDone o.id ∈ s'.events ∧
          (s'.gr t.gid).counter wc = (s.gr t.gid).counter wc + 1#6 ∧
          ∃ recs dests dm was, o.job = .ldmc recs (xs.map fun x => (x.page.pa / 128, lineBytes s (agentOf s t) x.page)) dest dests was [] ∧
            was = ((landing dest dests xs.length).flatMap fun k => s.bytes k 128) ∧
            o.dlv = some ⟨d, 2, some [BitVec.ofNat 32 dm, BitVec.ofNat 32 (dm / 2 ^ 32)], la.toNat⟩ ∧
            (∀ p < 48, (dm.testBit p = true ↔ mask.getLsbD p = true ∧ inClaim s (s.tm t.team).ctx (core0 + p) dest n = false)) ∧
            (∀ c, c ∈ dests ↔ ∃ p < 48, c = core0 + p ∧ mask.getLsbD p = true ∧ inClaim s (s.tm t.team).ctx c dest n = true))) ∧
  (∀ (m : McRec) (s : State), m ∈ s.part.mcs → (∀ x ∈ s.part.mcs, x.id = m.id → x = m) →
    let window := 16 * 2 ^ (m.ctl.toNat / 2 ^ 8 % 16)
    ∃ s', exec (.ldmcMergeEnd m.id) s = .next s' ∧
      (window ≤ 10 * (s.time - m.since) → Instr.ldmcHoldEnd m.id ∈ s'.events ∧
        (∀ x ∈ s'.part.mcs, x.id = m.id → x = { m with merging := false, since := s.time }) ∧
        s'.part.mcs.map McRec.id = s.part.mcs.map McRec.id) ∧
      (10 * (s.time - m.since) < window → s'.part = s.part ∧ Instr.ldmcMergeEnd m.id ∈ s'.events)) ∧
  (∀ (m : McRec) (s : State), m ∈ s.part.mcs → (∀ x ∈ s.part.mcs, x.id = m.id → x = m) →
    let hold := 2 ^ (m.ctl.toNat / 2 ^ 4 % 16 + 8)
    ∃ s', exec (.ldmcHoldEnd m.id) s = .next s' ∧
      (hold ≤ 10 * (s.time - m.since) → ∀ x, x ∈ s'.part.mcs ↔ x ∈ s.part.mcs ∧ x.id ≠ m.id) ∧
      (10 * (s.time - m.since) < hold → s'.part = s.part ∧ Instr.ldmcHoldEnd m.id ∈ s'.events)) ∧
  (∀ (o : Op) (recs dests hits : List Nat) (lines : List (Nat × List Byte)) (dest : Nat) (was : List Byte) (s : State), Safe s →
    s.op? o.id = some o → o.job = .ldmc recs lines dest dests was hits → (∀ l ∈ lines, l.2.length = 128) →
    dest + 128 * lines.length ≤ 524288 → was.length = lines.length * (dests.length * 128) →
    ∃ s', exec (.ldmcDeliveryDone o.id) s = .next s' ∧
      ((∀ m ∈ s.part.mcs, m.id ∈ recs → m.merging = false) → s'.op? o.id = none ∧
        (∀ core ∈ dests, ∀ k (h : k < lines.length), ∀ b < 128,
          let key := scrKey core (dest + 128 * k + b)
          s'.byte key = lines[k].2.getD b 0#8 ∨ s'.byte key = s.byte key) ∧
        (was = ((landing dest dests lines.length).flatMap fun k => s.bytes k 128) → hits = [] →
          ∀ core ∈ dests, ∀ k (h : k < lines.length), s'.bytes (scrKey core (dest + 128 * k)) 128 = lines[k].2)) ∧
      ((∃ m ∈ s.part.mcs, m.id ∈ recs ∧ m.merging = true) → s'.part = s.part ∧ s'.mem = s.mem ∧
        Instr.ldmcDeliveryDone o.id ∈ s'.events))

/-- R187, R189, R382, R396, R397: KSET sets a register that no operation uses, when its four groups exist; a signature joins the
open round with the B registers as they stand, and the last one makes the round due. -/
def Obligations.SigningResults : Prop :=
  (∀ (k : BitVec 3) (a : VReg) (p : PReg) (s : State) (t : TId), Solo s t → Clear s t (.kset k a p) [] [] →
    (s.team? t.team).isSome = true → (∀ j ∈ matrixJobs s, j.2.team ≠ t.team ∨ j.2.k ≠ k) →
    let x := s.tm t.team
    let g0 := ((s.th t).val a).toNat % 512
    let ok := (x.kreg k).isOpen = false ∧ g0 + 3 * max 1 x.cores.length < (x.threads + x.w - 1) / x.w
    ∃ s', exec (.kset k a p) s = .next s' ∧ MovesOn s s' t 1 ∧
      (ok → (s'.tm t.team).kreg k = ⟨true, false, 0, [], BitVec.ofNat 9 g0⟩ ∧ (p ≠ 0#3 → ((s'.th t).pred p).val = true)) ∧
      (¬ ok → (s'.tm t.team).kreg k = x.kreg k ∧ (p ≠ 0#3 → ((s'.th t).pred p).val = false))) ∧
  (∀ (b : VReg) (k : BitVec 3) (ob : BitVec 4) (wc : BitVec 3) (la nk : BitVec 4) (atile : BitVec 8) (reuse z : BitVec 1)
    (crow : BitVec 13) (q : Bool) (i : Instr) (s : State) (t : TId),
    (i = if q then .mmaq b k ob wc la nk atile reuse z crow else .mma b k ob wc la nk atile reuse z crow) →
    Issues s t i (i.names (s.gr t.gid).w) wc → (s.th t).wcBuf = none → (s.team? t.team).isSome = true →
    let x := s.tm t.team
    let r := x.kreg k
    let rec_ := x.obRec ob
    (∀ g ∈ r.sigs, g.t ≠ t) → r.valid = true → (∃ n < 4, quarter x r.g0.toNat n = t.group) →
    recNt rec_ ≠ 0 → (recFmt rec_ = 4 ↔ q = true) → atile.toNat + nk.toNat + 1 ≤ recNt rec_ →
    crow.toNat + 64 ≤ x.claim.accRows → landedRow s t.team (ciOf s t) crow.toNat 64 = none →
    ∃ s', exec i s = .next s' ∧ MovesOn s s' t i.len ∧ (s'.gr t.gid).counter wc = (s.gr t.gid).counter wc + 1#6 ∧
      ((s'.tm t.team).kreg k).isOpen = true ∧
      (∃ g : Sig, ((s'.tm t.team).kreg k).sigs = r.sigs ++ [g] ∧ g.t = t ∧ g.ob = ob ∧ g.crow = crow ∧ g.atile = atile ∧ g.nk = nk ∧
        g.z = z ∧ g.quant = q ∧ (∀ n, b.toNat + n < 128 → g.bregs.getD n 0#32 = (s.th t).val (b + BitVec.ofNat 7 n)) ∧
        ∃ o ∈ s'.part.ops, o.id = g.opId ∧ o.t = t ∧ o.wc = some wc ∧ o.job = .sign k) ∧
      ((∀ u ∈ s.threads, u.id.team = t.team → u.live = true → (∃ n < 4, quarter x r.g0.toNat n = u.id.group) →
          u.id = t ∨ ∃ g ∈ r.sigs, g.t = u.id) → Instr.mmaRoundIssue t.team k ∈ s'.events) ∧
      (∀ v, (s'.th t).reg v = (s.th t).reg v))

/-- The windows disturb no row of an operation (R200): no action has made rows undefined, and windows on its rows are its own
register's. -/
def Undisturbed (s : State) (j : MatrixJob) : Prop :=
  ∀ w ∈ s.part.windows, w.spoilt = false ∧ (w.k = j.k ∨ w.rowsOf j.team j.ci j.crow 64 = false)

/-- R189, R190, R194, R197, R397, R451: a round whose signers have all signed issues as one operation with the fields of the signature
of the lowest TID; each step adds one group sum to every element of its 64 C rows, in order; the last one ends the operation.
A disturbed operand window is ruled out by a premise: its values are free words (log 6, log 39). -/
def Obligations.MatrixOperations : Prop :=
  (∀ (team : Nat) (k : BitVec 3) (g : Sig) (s : State), (s.team? team).isSome = true →
    let r := (s.tm team).kreg k
    roundFull s team r = true → g ∈ r.sigs →
    (∀ h ∈ r.sigs, h ≠ g → g.t.group < h.t.group ∨ (g.t.group = h.t.group ∧ g.t.idx < h.t.idx)) →
    ∃ s', exec (.mmaRoundIssue team k) s = .next s' ∧ ((s'.tm team).kreg k).isOpen = false ∧ ((s'.tm team).kreg k).sigs = [] ∧
      (roundFits ((s.tm team).obRec g.ob) g = true →
        ∃ o ∈ s'.part.ops, o.id = s.nextId ∧ Instr.matrixStep o.id ∈ s'.events ∧
          o.job = .matrix ⟨team, k, ciOf s g.t, g.ob, (s.tm team).obRec g.ob, g.crow.toNat, g.atile.toNat, g.nk.toNat, g.z == 1#1,
            g.quant, r.g0.toNat, r.sigs, 0⟩) ∧
      (roundFits ((s.tm team).obRec g.ob) g = false → ∀ h ∈ r.sigs, s'.op? h.opId = none)) ∧
  (∀ (op : Nat) (j : MatrixJob) (s : State), Safe s → (op, j) ∈ matrixJobs s → (matrixJobs s).find? (fun i => i.1 == op) = some (op, j) →
    (matrixJobs s).find? (fun i => teamHere s i.2.team && coreAt s i.2.team i.2.ci == coreAt s j.team j.ci) = some (op, j) →
    teamHere s j.team = true → Undisturbed s j → coreAt s j.team j.ci < 768 → (s.tm j.team).claim.accBase + j.crow + 64 ≤ 8192 →
    ∃ s', exec (.matrixStep op) s = .next s' ∧
      (∀ m < 64, ∀ n < 64,
        let fmt := recFmt j.record
        let old := (rowWords s j.team j.ci (j.crow + m)).getD n 0#32
        let code := (s.byte (obKey s j.team j.ci (recBase j.record * 4096 + recScoff j.record * 16 + 64 * (j.atile + j.done) + m))).toNat
        let sc := if fmt = 4 then
            blockScale code
              (BitVec.ofNat 32 (s.num (obKey s j.team j.ci (recBase j.record * 4096 + recSsoff j.record * 16 +
                4 * ((64 * (j.atile + j.done) + m) / 256))) 4))
          else 0#32
        let g := if fmt = 4 ∧ code = 0 ∧ sc = 0#32 then 0#32 else groupOf fmt
          (aElems s fmt (obKey s j.team j.ci (recBase j.record * 4096 + (j.atile + j.done) * tileSize fmt)) m)
          (bElems (s.tm j.team).w (max 1 (s.tm j.team).cores.length) fmt j j.done n) sc
        (rowWords s' j.team j.ci (j.crow + m)).getD n 0#32 =
          if j.done = 0 ∧ j.z = true then g else if fmt = 3 then old + g else fadd32 old g) ∧
      (j.done < j.nk → Instr.matrixStep op ∈ s'.events ∧
        (∀ a, a < rowKey s j.team j.ci j.crow ∨ rowKey s j.team j.ci (j.crow + 64) ≤ a → s'.byte a = s.byte a)) ∧
      (j.nk ≤ j.done → s'.op? op = none ∧ ∀ g ∈ j.sigs, s'.op? g.opId = none))

/-- R193, R199, R201, R229, R402, R403, R406, R408: OPFENCE and MWAIT go on when what they wait for is complete; MPROG reads the progress
of a register, and the rows of the thread's oldest COPY that have moved; OBRES writes its record and OBREL clears NT, at once when no
issued operation reads it, and is outstanding until then. -/
def Obligations.MatrixControl : Prop :=
  (∀ (s : State) (t : TId), Solo s t → Clear s t .opfence [] [] →
    ∃ s', exec .opfence s = .next s' ∧
      ((∀ o ∈ s.part.ops, o.t = t → (∀ m v, o.job ≠ .obres m v) ∧ (∀ c lo hi, o.job ≠ .obld c lo hi) ∧ ∀ j, o.job ≠ .accld j) →
        MovesOn s s' t 1) ∧
      ((∃ o ∈ s.part.ops, o.t = t ∧ ((∃ m v, o.job = .obres m v) ∨ (∃ c lo hi, o.job = .obld c lo hi) ∨ ∃ j, o.job = .accld j)) →
        HeldAt s s' t .opfence)) ∧
  (∀ (k : BitVec 3) (s : State) (t : TId), Solo s t → Clear s t (.mwait k) [] [] →
    ∃ s', exec (.mwait k) s = .next s' ∧
      ((∀ o ∈ s.part.ops, o.t = t → o.job ≠ .sign k) → MovesOn s s' t 1 ∧ ∀ w ∈ s'.part.windows, w.t = t → w.k ≠ k) ∧
      ((∃ o ∈ s.part.ops, o.t = t ∧ o.job = .sign k) → HeldAt s s' t .matrix)) ∧
  (∀ (d : VReg) (k : BitVec 3) (s : State) (t : TId), Solo s t → Clear s t (.mprogMat d k) [] [] →
    ∃ s', exec (.mprogMat d k) s = .next s' ∧ MovesOn s s' t 1 ∧
      (let v := (s'.th t).val d
       (v.getLsbD 31 = true ↔ ((s.tm t.team).kreg k).isOpen = true ∨ ∃ j ∈ matrixJobs s, j.2.team = t.team ∧ j.2.k = k) ∧
       v.extractLsb' 16 9 = BitVec.ofNat 9 ((s.tm t.team).kreg k).sigs.length ∧
       v.extractLsb' 0 5 = BitVec.ofNat 5 ((s.tm t.team).kreg k).done)) ∧
  (∀ (d : VReg) (s : State) (t : TId), Solo s t → Clear s t (.mprogCopy d) [] [] →
    ∃ s', exec (.mprogCopy d) s = .next s' ∧ MovesOn s s' t 1 ∧
      ((∀ o ∈ s.part.ops, o.t = t → ∀ c, o.job ≠ .copy c) → (s'.th t).val d = 0#32) ∧
      (∀ (o : Op) (c : CopyJob) (pre post : List Op), s.part.ops = pre ++ o :: post → o.t = t → o.job = .copy c →
        (∀ p ∈ pre, p.t = t → ∀ e, p.job ≠ .copy e) → (s'.th t).val d = 1#1 ++ 0#7 ++ BitVec.ofNat 24 c.row)) ∧
  (∀ (m : BitVec 4) (v : BitVec 64) (w : Option (BitVec 64)) (wc : BitVec 3) (i : Instr) (s : State) (t : TId), Issues s t i [] wc →
    (s.team? t.team).isSome = true →
    (((∃ a la, i = .obres m a wc la ∧ v = (s.th t).val64 a) ∧ w = some v ∧ recBad v = false ∧
        (recBase v + recLen v) * 4096 ≤ (s.tm t.team).claim.obSize) ∨
      ∃ la, i = .obrel m wc la ∧ w = none ∧ v = (s.tm t.team).obRec m &&& 0xFFFFFFFFFFFF00FF#64) →
    ∃ s', exec i s = .next s' ∧ MovesOn s s' t 1 ∧
      ((∀ j ∈ matrixJobs s, j.2.team ≠ t.team ∨ j.2.ob ≠ m) → (s'.tm t.team).obRec m = v) ∧
      ((∃ j ∈ matrixJobs s, j.2.team = t.team ∧ j.2.ob = m) → (s'.tm t.team).obRec m = (s.tm t.team).obRec m ∧
        (s'.gr t.gid).counter wc = (s.gr t.gid).counter wc + 1#6 ∧
        ∃ o ∈ s'.part.ops, o.id = s.nextId + 1 ∧ o.t = t ∧ o.job = .obres m w))

/-- R178: what an engine command of a thread reads at the places of its sectors. -/
def sectorBytes (s : State) (t : TId) (ps : List (BitVec 64 × Place)) : List Byte :=
  ps.flatMap fun x => placeBytes s (commandAgent s t) x.2 16

/-- A place whose bytes memory gives: no register space, and of the team information block what it holds. -/
def Known : Place → Prop
  | .scr _ _ => True
  | .tib off => off + 16 ≤ 64
  | .page p => physRange p.pa ≠ .sys

/-- Reads of places at the home point, which clean no home copy (R139). -/
def AtHome (pls : List Place) : Prop := ∀ p, Place.page p ∈ pls → pointOf p 1 ≠ 3

/-- R200: no rows of a completed operation are undefined, and no window that concerns a thread is on `n` rows of its core. -/
structure Calm (s : State) (t : TId) (row n : Nat) : Prop where
  none : ∀ w ∈ s.part.windows, w.spoiltDone s = false
  rows : ∀ r < n, undefinedRow s t t.team (ciOf s t) (row + r) = false

/-- A team's rows and operand buffer lie on work cores, in the stores of R29. -/
structure OnCore (s : State) (t : TId) (row n : Nat) : Prop where
  core : coreAt s t.team (ciOf s t) < 768
  rows : row + n ≤ (s.tm t.team).claim.accRows
  store : (s.tm t.team).claim.accBase + (s.tm t.team).claim.accRows ≤ 8192
  landing : landedRow s t.team (ciOf s t) row n = none

/-- R193, R195, R196, R199, R318 to R320, R407: OBLD puts memory bytes into the operand buffer, where no other OBLD under way has; ACCZ clears rows; ACCLD and ACCST issue, and at
their completion ACCLD puts widened memory elements into rows, ACCST narrowed rows into memory, where the source has not changed since
the issue; ACCRD reads one element, which returns to its register. -/
def Obligations.AccumulatorCommands : Prop :=
  (∀ (ob : BitVec 4) (a : VReg) (wc : BitVec 3) (la : BitVec 4) (n doff : BitVec 14) (ps : List (BitVec 64 × Place)) (s : State) (t : TId),
    let i : Instr := .obld ob a wc la n doff
    let r := (s.tm t.team).obRec ob
    Safe s → Issues s t i (pairOf a) wc → recNt r ≠ 0 → doff.toNat * 16 + n.toNat * 16 ≤ recLen r * 4096 → ((s.th t).val64 a).toNat % 16 = 0 →
    (piecePlaces (commandAgent s t) .load 16 (sectorsFrom ((s.th t).val64 a) (n.toNat * 16)) s).1 = .ok ps →
    (∀ x ∈ ps, orderBars s (commandAgent s t) x.2 = false ∧ Known x.2) → Unhosted s t → (s.th t).wcBuf = none → Settled s →
    let off := recBase r * 4096 + doff.toNat * 16
    let lo := obKey s t.team (ciOf s t) off
    ∃ s', exec i s = .next s' ∧ MovesOn s s' t i.len ∧ Counts s s' t wc none .accessAck ∧
      ((∀ x < n.toNat * 16, obldUnder s t.team (ciOf s t) (off + x) = false) → s'.bytes lo (n.toNat * 16) = sectorBytes s t ps) ∧
      (AtHome (ps.map Prod.snd) → (∀ w ∈ s.part.windows, w.spoiltDone s = false ∧
          (w.concerns s t = true → w.overBytes off (off + n.toNat * 16) = false)) →
        ∀ k, k < lo ∨ lo + n.toNat * 16 ≤ k → s'.byte k = s.byte k)) ∧
  (∀ (wc : BitVec 3) (la : BitVec 4) (n : BitVec 14) (row : BitVec 13) (s : State) (t : TId),
    let i : Instr := .accz wc la n row
    Safe s → Issues s t i [] wc → OnCore s t row.toNat n.toNat → Calm s t row.toNat n.toNat → Unhosted s t →
    ∃ s', exec i s = .next s' ∧ MovesOn s s' t i.len ∧
      (∀ k, rowKey s t.team (ciOf s t) row.toNat ≤ k → k < rowKey s t.team (ciOf s t) (row.toNat + n.toNat) → s'.byte k = 0#8) ∧
      ∀ k, k < rowKey s t.team (ciOf s t) row.toNat ∨ rowKey s t.team (ciOf s t) (row.toNat + n.toNat) ≤ k → s'.byte k = s.byte k) ∧
  (∀ (a st : VReg) (wc : BitVec 3) (la : BitVec 4) (n : BitVec 7) (fmt : BitVec 3) (row : BitVec 13) (ps : List (BitVec 64 × Place))
    (s : State) (t : TId),
    let i : Instr := .accld a st wc la n fmt row
    Issues s t i (pairOf a ++ [st]) wc → i.wf = true → OnCore s t row.toNat n.toNat → (s.th t).wcBuf = none →
    ((s.th t).val64 a).toNat % 16 = 0 → ((s.th t).val st).toNat % 16 = 0 →
    (piecePlaces (commandAgent s t) .load 16
      ((List.range n.toNat).flatMap fun r => sectorsFrom (memRowAt ((s.th t).val64 a) ((s.th t).val st) r) (memRow fmt.toNat)) s).1 = .ok ps →
    (∀ x ∈ ps, orderBars s (commandAgent s t) x.2 = false ∧ Known x.2) → Settled s →
    ∃ s', exec i s = .next s' ∧ MovesOn s s' t i.len ∧ Counts s s' t wc none .accessAck ∧
      (Unhosted s t → (∀ k, homeByte s' k = homeByte s k) ∧ (AtHome (ps.map Prod.snd) → s'.mem = s.mem)) ∧
      (∀ r, (s'.th t).reg r = (s.th t).reg r) ∧
      ∃ o ∈ s'.part.ops, o.id = s.nextId + 1 ∧
        o.job = .accld ⟨ps.map Prod.snd, row.toNat, n.toNat, fmt.toNat, 0#32, sectorBytes s t ps, [], []⟩) ∧
  (∀ (a st : VReg) (wc : BitVec 3) (la : BitVec 4) (n : BitVec 7) (fmt : BitVec 3) (row : BitVec 13) (ps : List (BitVec 64 × Place))
    (s : State) (t : TId),
    let i : Instr := .accst a st wc la n fmt row
    Issues s t i (pairOf a ++ [st]) wc → i.wf = true → OnCore s t row.toNat n.toNat → (s.th t).wcBuf = none →
    ((s.th t).val64 a).toNat % 16 = 0 → ((s.th t).val st).toNat % 16 = 0 →
    (piecePlaces (commandAgent s t) .store 16
      ((List.range n.toNat).flatMap fun r => sectorsFrom (memRowAt ((s.th t).val64 a) ((s.th t).val st) r) (memRow fmt.toNat)) s).1 = .ok ps →
    (∀ x ∈ ps, orderBars s (commandAgent s t) x.2 = false) → engineBlocked s (commandAgent s t) (ps.map Prod.snd) = none →
    Calm s t row.toNat n.toNat →
    ∃ s', exec i s = .next s' ∧ MovesOn s s' t i.len ∧ Counts s s' t wc none .accessAck ∧ (Unhosted s t → s'.mem = s.mem) ∧
      (∀ r, (s'.th t).reg r = (s.th t).reg r) ∧
      ∃ o ∈ s'.part.ops, o.id = s.nextId + 1 ∧
        o.job = .accst ⟨ps.map Prod.snd, row.toNat, n.toNat, fmt.toNat, (s.gr t.gid).narmode,
          (List.range n.toNat).flatMap fun r => bytesOf (rowWords s t.team (ciOf s t) (row.toNat + r)), [], []⟩) ∧
  (∀ (o : Op) (j : AccJob) (s : State), s.op? o.id = some o → o.job = .accld j → accAway s o = false →
    let ci := ciOf s o.t
    coreAt s o.t.team ci < 768 → (s.tm o.t.team).claim.accBase + j.row + j.n ≤ 8192 → j.places.length * 16 = j.n * memRow j.fmt →
    j.was = sectorBytes s o.t (j.places.map fun p => (0#64, p)) → j.rows = [] → Calm s o.t j.row j.n →
    ∃ s', exec (.accessAck o.id) s = .next s' ∧ s'.op? o.id = none ∧
      (∀ r < j.n, rowWords s' o.t.team ci (j.row + r) = widenRow j.fmt ((j.was.drop (r * memRow j.fmt)).take (memRow j.fmt))) ∧
      (AtHome j.places → ∀ k, k < rowKey s o.t.team ci j.row ∨ rowKey s o.t.team ci (j.row + j.n) ≤ k → s'.byte k = s.byte k)) ∧
  (∀ (o : Op) (j : AccJob) (s : State), s.op? o.id = some o → o.job = .accst j → accAway s o = false → accBlocked s o = none → Settled s →
    let ci := ciOf s o.t
    let rows := (List.range j.n).map fun r => rowWords s o.t.team ci (j.row + r)
    j.fmt < 5 → j.places.length * 16 = j.n * memRow j.fmt → j.was = rows.flatMap bytesOf →
    (∀ pl ∈ j.places, ∃ p, pl = .page p ∧ p.mt = 0 ∧ p.kind = 0 ∧ p.pa % 16 = 0 ∧ physRange p.pa ≠ .sys) →
    (j.places.map placeKey).Nodup → j.rivals = [] → Calm s o.t j.row j.n →
    let bs := rows.flatMap (narrowRow j.fmt j.nm)
    ∃ s', exec (.accessAck o.id) s = .next s' ∧ s'.op? o.id = none ∧
      (∀ k (h : k < j.places.length), homeBytes s' (placeKey j.places[k]) 16 = (bs.drop (16 * k)).take 16) ∧
      ∀ a, (∀ pl ∈ j.places, a / 16 ≠ placeKey pl / 16) → homeByte s' a = homeByte s a) ∧
  (∀ (d a : VReg) (wc : BitVec 3) (la : BitVec 4) (s : State) (t : TId),
    let i : Instr := .accrd d a wc la
    let e := ((s.th t).val a).toNat % 2 ^ 19
    Issues s t i [] wc → badRow s t.team (ciOf s t) (e / 64) 1 = none → Calm s t (e / 64) 1 →
    ∃ s', exec i s = .next s' ∧ MovesOn s s' t 1 ∧
      Returns s s' t wc d [(rowWords s t.team (ciOf s t) (e / 64)).getD (e % 64) 0#32] la.toNat)

/-- No sender's rows stand landed and not added in a chain. -/
def NoneDue (c : Chain) : Prop := ∀ q, q ∈ c.landed → q ∈ c.added

/-- The chain that a handle names for a team's context, live and the only one of its number. -/
structure Names (s : State) (t : TId) (h : Word) (c : Chain) : Prop where
  named : chainOf s (s.tm t.team).ctx h = some c
  one : ∀ d ∈ s.part.chains, d.ctx = c.ctx → d.num = c.num → d = c

/-- R203 to R208, R321, R323, R324, R330: ACHAIN returns a handle of a new chain, or the status of its first failing check; ASEND has its
rows in flight, once for a round; they land in the landing rows of their rank, and a FREE chain adds them at once; AWAIT and
AREL wait while a rank is missing; at the end of a round AWAIT completes and AREL ends the round or the chain.
The wait of AREL.end is the model's reading (log 33). -/
def Obligations.ChainResults : Prop :=
  (∀ (d a : VReg) (wc : BitVec 3) (la : BitVec 4) (ps : List (BitVec 64 × Place)) (s : State) (t : TId),
    let i : Instr := .achain d a wc la
    Issues s t i (pairOf a) wc → (s.th t).wcBuf = none → Settled s → ((s.th t).val64 a).toNat % 32 = 0 →
    (piecePlaces (commandAgent s t) .load 16 (sectorsFrom ((s.th t).val64 a) 32) s).1 = .ok ps →
    (∀ x ∈ ps, orderBars s (commandAgent s t) x.2 = false ∧ Known x.2) →
    ∃ s' v, exec i s = .next s' ∧ MovesOn s s' t 1 ∧ Returns s s' t wc d [v] la.toNat ∧
      (∀ e, chainStatus s t (sectorBytes s t ps) = .error e → v = BitVec.ofNat 32 e ∧ s'.part.chains = s.part.chains) ∧
      (∀ c num, chainStatus s t (sectorBytes s t ps) = .ok (c, num) → v.getLsbD 31 = true ∧
        ∃ e, chainOf s' (s.tm t.team).ctx v = some e ∧ e.num = num ∧ e.free = c.free ∧ e.int = c.int ∧ e.nr = c.nr ∧
          e.trow = c.trow ∧ e.lrow = c.lrow ∧ e.senders = c.senders ∧ e.team = t.team ∧ e.landed = [] ∧
          s'.part.chains = s.part.chains ++ [e])) ∧
  (∀ (h r : VReg) (wc : BitVec 3) (la : BitVec 4) (c : Chain) (s : State) (t : TId),
    let i : Instr := .asend h r wc la
    let w := (s.th t).val r
    let rank := w.toNat / 2 ^ 16 % 16
    let row := w.toNat % 2 ^ 13
    Issues s t i [h, r] wc → (s.th t).wcBuf = none → Names s t ((s.th t).val h) c → chainDown s c = false → rank ≠ 0 → w &&& 0xFFF0E000#32 = 0#32 →
    badRow s t.team (ciOf s t) row c.nr = none → rank ≤ c.senders.length → rank ∉ c.sent →
    (∀ b, c.bound.find? (fun b => b.1 == rank) = some b → b.2.1 = t.team ∧ b.2.2 = ciOf s t) →
    (c.bound.find? (fun b => b.1 == rank) = none → rankCore s c rank = coreAt s t.team (ciOf s t)) →
    Calm s t row c.nr →
    ∃ s', exec i s = .next s' ∧ MovesOn s s' t 1 ∧ (s'.th t).send = ⟨(s.th t).val h, w.extractLsb' 0 13, w.extractLsb' 16 4⟩ ∧
      Counts s s' t wc none .asendLand ∧
      (∃ o ∈ s'.part.ops, o.id = s.nextId + 1 ∧
        o.job = .asend c.ctx c.num rank ((List.range c.nr).map fun k => rowWords s t.team (ciOf s t) (row + k))) ∧
      ∃ e, s'.chain? c.ctx c.num = some e ∧ e.sent = rank :: c.sent) ∧
  (∀ (o : Op) (rank : Nat) (rows : List (List Word)) (c : Chain) (s : State), Safe s → s.op? o.id = some o → o.job = .asend c.ctx c.num rank rows →
    s.chain? c.ctx c.num = some c → (∀ d ∈ s.part.chains, d.ctx = c.ctx → d.num = c.num → d = c) → o.dlv = none →
    rows.length = c.nr → (∀ ws ∈ rows, ws.length = 64) → 1 ≤ rank → rank ≤ c.senders.length → c.senders.length ≤ 15 → rank ∉ c.added →
    NoneDue c → c.awaited = false → coreAt s c.team c.ci < 768 →
    (s.tm c.team).claim.accBase + c.lrow + c.senders.length * c.nr ≤ 8192 → (s.tm c.team).claim.accBase + c.trow + c.nr ≤ 8192 →
    rangesMeet c.trow c.nr c.lrow (c.senders.length * c.nr) = false →
    (∀ w ∈ s.part.windows, w.spoilt = false ∧ w.rowsOf c.team c.ci c.trow c.nr = false) →
    ∃ s', exec (.asendLand o.id) s = .next s' ∧ s'.op? o.id = none ∧
      (∀ k (h : k < rows.length), rowWords s' c.team c.ci (c.lrow + (rank - 1) * c.nr + k) = rows[k]) ∧
      (∃ e, s'.chain? c.ctx c.num = some e ∧ e.landed = rank :: c.landed ∧ e.added = if c.free then rank :: c.added else c.added) ∧
      (∀ k (h : k < rows.length), rowWords s' c.team c.ci (c.trow + k) =
        if c.free then ((rowWords s c.team c.ci (c.trow + k)).zip rows[k]).map (fun p => addElem c.int p.1 p.2)
        else rowWords s c.team c.ci (c.trow + k))) ∧
  (∀ (h : VReg) (wc : BitVec 3) (i : Instr) (fin : Option Bool) (c : Chain) (s : State) (t : TId), Issues s t i [] wc →
    Names s t ((s.th t).val h) c → c.team = t.team → chainDown s c = false → NoneDue c →
    (∃ la, (i = .await h wc la ∧ fin = none) ∨ ∃ e, i = .arel h wc e la ∧ fin = some (e == 1#1)) →
    (∀ o ∈ s.part.ops, o.tok < s.nextId ∧ o.job ≠ .await c.ctx c.num ∧ o.job ≠ .arel c.ctx c.num true ∧ o.job ≠ .arel c.ctx c.num false) →
    ∃ s', exec i s = .next s' ∧ MovesOn s s' t 1 ∧
      (c.added.length ≠ c.senders.length →
        (∃ o ∈ s'.part.ops, o.id = s.nextId + 1 ∧ o.t = t ∧
          o.job = match fin with
            | none => .await c.ctx c.num
            | some f => .arel c.ctx c.num f) ∧
        (s'.gr t.gid).counter wc = (s.gr t.gid).counter wc + 1#6) ∧
      (c.added.length = c.senders.length → (s'.gr t.gid).counter wc = (s.gr t.gid).counter wc ∧
        (fin = none → (s'.chain? c.ctx c.num).map Chain.landed = some c.landed) ∧
        (fin = some true → s'.chain? c.ctx c.num = none) ∧
        (fin = some false → ∃ e, s'.chain? c.ctx c.num = some e ∧ e.sent = [] ∧ e.landed = [] ∧ e.added = [] ∧ e.awaited = false)))

/-! ## The tile streamer and collectives -/

/-- A place whose bytes have one home: a scratchpad byte, or a byte of an ordinary cached page. -/
def Plain : Place → Prop
  | .scr _ _ => True
  | .tib _ => False
  | .page p => p.mt = 0 ∧ p.kind = 0 ∧ physRange p.pa ≠ .sys

/-- Places whose pieces of `n` bytes do not overlap. -/
def Apart (n : Nat) (pls : List Place) : Prop :=
  pls.Pairwise fun p q => placeKey p + n ≤ placeKey q ∨ placeKey q + n ≤ placeKey p

/-- R224, R226, R228: what a COPY or COPYG by thread `t` with registers from `c` finds when every check passes: its layout record,
the elements of its box, the places of the elements' bytes, of the buffer's pieces and of the counter; none barred by team order. -/
structure CopySees (s : State) (t : TId) (c : VReg) (gather st : Bool) (l : Layout) (es : List (Option (Int × Nat)))
    (ts bs : List (BitVec 64 × Place)) (cp : Place) : Prop where
  aligned : copyMisaligned (copyArgs (s.th t) c gather) = none
  sees : ∃ ps xs us vs ws zs ys,
    let a := engineOf s t
    let g := copyArgs (s.th t) c gather
    let s1 := s.applyAll (us ++ usedPlaces s a (ps.map Prod.snd))
    let s2 := s1.applyAll (vs ++ usedPlaces s1 a (xs.map Prod.snd))
    let r := ps.flatMap fun x => placeBytes s a x.2 16
    piecePlaces a .load 16 (sectorsFrom g.record 96) s = (.ok ps, us) ∧
    l = layoutOf r ∧ layoutSealed r = true ∧ layoutValid r = true ∧ (gather = true → 2 ≤ l.rank) ∧
    piecePlaces a .load 4 ((g.list.map fun x => steppedFrom x 4 (l.boxes.getD 1 0)).getD []) s1 = (.ok xs, vs) ∧
    es = boxElems l g.coords (g.list.map fun _ => xs.map fun x => signedOf 4 (leNat (placeBytes s a x.2 4))) ∧
    rangeBad l es g.buf.toNat = none ∧
    piecePlaces a (if st then .store else .load) 1
      (es.flatMap fun e => ((e.map fun x => steppedFrom (BitVec.ofInt 64 x.1) 1 l.bytes).getD [])) s2 = (.ok ts, ws) ∧
    pieceList a (if st then .load else .store) (bufPieces g.buf (l.count * l.bits / 8)) (s2.applyAll ws) = (.ok bs, zs) ∧
    translate ((s2.applyAll ws).applyAll zs) a .atomic g.count 8 = (.ok cp, ys) ∧
    ∀ x ∈ ps ++ xs, orderBars s a x.2 = false ∧ Known x.2
  counter : sideCan .atom 0 cp 0 = true
  order : ∀ x ∈ ts ++ bs, orderBars s (engineOf s t) x.2 = false
  counterOrder : orderBars s (engineOf s t) cp = false

/-- A COPY's next row moves now: its team holds its place, the memory it names is in place, nothing has to be allocated first, the row's
bytes are apart and plain memory that no earlier row, and no COPY that is not ordered with it, has written. -/
structure RowMoves (s : State) (o : Op) (c : CopyJob) : Prop where
  op : s.op? o.id = some o
  job : o.job = .copy c
  here : teamHere s o.t.team = true
  left : c.row < c.rows
  placed : ∀ p ∈ c.places, p.away = false
  free : engineBlocked s (engineOf s o.t) ((c.pieces c.row (List.replicate c.per 0)).map BoxPiece.place) = none
  plain : ∀ x ∈ c.pieces c.row (List.replicate c.per 0), Plain x.place
  apart : ((c.pieces c.row (List.replicate c.per 0)).flatMap BoxPiece.halves).Nodup
  fresh : ∀ x ∈ c.pieces c.row (List.replicate c.per 0), ∀ h ∈ x.halves, h ∉ (c.written c.row ++ c.rivals).map halfKey
  alone : c.vals = none
  even : c.esize ≠ 0 ∨ c.per % 2 = 0
  inside : (c.row + 1) * c.per ≤ c.elems.length

/-- R224 to R231, R342, R343: COPY and COPYG issue: QTIME promises a later CYCLE, and the COPY is under way with what it has found;
nothing moves yet. COPY_COMPLETE moves a row: the elements move between the tensor and the buffer, elements out of bounds being zero in
the buffer and not written in the tensor; after the last row it adds to the counter and ends the operation; it waits while its team, not yet
released, is away. A counter in the scratchpad of a team that is away takes the add in the saved state (R42). SEAL writes the record with its check
value behind its 92 bytes (R225, R425).
Corners of COPY and SEAL are the model's reading (log 40). -/
def Obligations.StreamerResults : Prop :=
  (∀ (c q : VReg) (wc : BitVec 3) (st : BitVec 1) (la : BitVec 4) (inc : BitVec 16) (gather : Bool) (l : Layout)
    (es : List (Option (Int × Nat))) (ts bs : List (BitVec 64 × Place)) (cp : Place) (s : State) (t : TId),
    let i : Instr := if gather then .copyg c q wc st la inc else .copy c q wc st la inc
    let g := copyArgs (s.th t) c gather
    let per := max 1 (l.boxes.getD 0 1)
    let j : CopyJob := ⟨cp, inc.toNat, l.count / per, 0, st == 1#1, l.esize, per, placeElems l.bytes es (ts.map Prod.snd),
      bs.map Prod.snd, none, (copyJobs s).flatMap fun c => c.written c.row⟩
    Issues s t i (copyReads c gather) wc → (s.th t).wcBuf = none → Settled s → CopySees s t c gather (st == 1#1) l es ts bs cp →
    ∃ s', exec i s = .next s' ∧ MovesOn s s' t i.len ∧ Counts s s' t wc none .copyComplete ∧
      (∃ o ∈ s'.part.ops, o.id = s.nextId + 1 ∧ ∃ vs, o.job = .copy { j with vals := vs } ∧ (j.overlaps = false → vs = none)) ∧
      (∃ n, 1 ≤ n ∧ (s'.th t).val64 q = BitVec.ofNat 64 (s.cycleOf t + n)) ∧ g.count.toNat % 8 = 0 ∧
      (∀ r, r ≠ q → r ≠ q + 1#7 → (s'.th t).reg r = (s.th t).reg r) ∧ (Unhosted s t → ∀ k, homeByte s' k = homeByte s k)) ∧
  (∀ (o : Op) (c : CopyJob) (s : State), Settled s → RowMoves s o c →
    let a := engineOf s o.t
    let row : State → List Byte := fun s => (List.range c.rowBytes).map fun i => placeByte s a (c.bufByte (c.row * c.rowBytes + i))
    ∃ s', exec (.copyComplete o.id) s = .next s' ∧ s'.op? o.id = some { o with job := .copy { c with row := c.row + 1 } } ∧
      Instr.copyComplete o.id ∈ s'.events ∧ s'.threads = s.threads ∧
      (c.st = false → row s' = packElems c.esize (((c.elems.drop (c.row * c.per)).take c.per).map (readElem s a c.esize))) ∧
      (c.st = true → ∀ k e, k < c.per → c.elems[c.row * c.per + k]? = some (some e) → e.places.length = elemBytes c.esize → e.nibble < 2 →
        readElem s' a c.esize (some e) = bufElem c.esize (row s) k)) ∧
  (∀ (o : Op) (c : CopyJob) (s : State), s.op? o.id = some o → o.job = .copy c → teamHere s o.t.team = true → c.rows ≤ c.row →
    c.counter.away = false → placeKey c.counter % 8 = 0 → Writable s o.t c.counter 0 → Settled s →
      ∃ s', exec (.copyComplete o.id) s = .next s' ∧ s'.op? o.id = none ∧
        Stored s s' c.counter (leBytes 8 ((leNat (placeBytes s (engineOf s o.t) c.counter 8) + c.inc) % 2 ^ 64))) ∧
  (∀ (o : Op) (c : CopyJob) (k ci off : Nat) (s : State), s.op? o.id = some o → o.job = .copy c → teamHere s o.t.team = true →
    c.rows ≤ c.row → c.counter = .scr (awayCore k ci) off → ci < 4 → (s.team? k).isSome = true →
      ∃ s', exec (.copyComplete o.id) s = .next s' ∧ s'.op? o.id = none ∧ s'.mem = s.mem ∧
        (s'.tm k).savedBytes ci off 8 = leBytes 8 ((leNat ((s.tm k).savedBytes ci off 8) + c.inc) % 2 ^ 64)) ∧
  (∀ (o : Op) (c : CopyJob) (s : State), s.op? o.id = some o → o.job = .copy c → teamWorks s o.t.team = false →
      ∃ s', exec (.copyComplete o.id) s = .next s' ∧ s'.part = s.part ∧ s'.mem = s.mem ∧ Instr.copyComplete o.id ∈ s'.events) ∧
  (∀ (d r : VReg) (wc : BitVec 3) (la : BitVec 4) (ps ds : List (BitVec 64 × Place)) (us vs : List Upd) (s : State) (t : TId),
    let i : Instr := .sealLayout d r wc la
    let a := engineOf s t
    let bs := ps.flatMap fun x => placeBytes s a x.2 4
    Issues s t i (pairOf d ++ pairOf r) wc → Unhosted s t → (s.th t).wcBuf = none → Settled s →
    ((s.th t).val64 d).toNat % 32 = 0 → ((s.th t).val64 r).toNat % 32 = 0 →
    pagePlaces a .load (steppedFrom ((s.th t).val64 r) 4 23) s = (.ok ps, us) → layoutValid bs = true →
    pagePlaces a .store (steppedFrom ((s.th t).val64 d) 4 24) (s.applyAll (us ++ usedPlaces s a (ps.map Prod.snd))) = (.ok ds, vs) →
    (∀ x ∈ ps ++ ds, orderBars s a x.2 = false) → (∀ x ∈ ps, Known x.2) → engineBlocked s a (ds.map Prod.snd) = none →
    (∀ x ∈ ds, Plain x.2) → Apart 4 (ds.map Prod.snd) →
    ∃ s', exec i s = .next s' ∧ MovesOn s s' t i.len ∧
      ds.flatMap (fun x => placeBytes s' a x.2 4) = bs ++ shake256 (bs.take 92) 4 ∧ (∀ v, (s'.th t).reg v = (s.th t).reg v))

/-- The group that a handle names is the only one of its number. -/
structure JoinsGroup (s : State) (t : TId) (h : Word) (g : CollGroup) : Prop where
  named : groupOfHandle s t h = some g
  one : ∀ e ∈ s.part.colls, e.ctx = g.ctx → e.num = g.num → e = g

/-- R219, R220, R338: CGRP with a descriptor whose fields are in order and which names no places: the first member makes the group,
another joins it with a rank of its own, the last one makes it form; another result is the status of the failing check. CGRP.end
ends the group and what is pending in it.
Cases the rules do not list are the model's reading (log 41). -/
def Obligations.CollectiveGroups : Prop :=
  (∀ (d a : VReg) (wc : BitVec 3) (la : BitVec 4) (ps : List (BitVec 64 × Place)) (s : State) (t : TId),
    let i : Instr := .cgrp d a wc la
    let bs := sectorBytes s t ps
    let ctx := ctxNum s t.team
    let nm := fieldAt bs 8 2
    let rank := fieldAt bs 10 2
    let key := BitVec.ofNat 64 (fieldAt bs 0 8)
    Issues s t i (pairOf a) wc → (s.th t).wcBuf = none → Settled s → ((s.th t).val64 a).toNat % 32 = 0 →
    (piecePlaces (commandAgent s t) .load 16 (sectorsFrom ((s.th t).val64 a) 32) s).1 = .ok ps →
    (∀ x ∈ ps, orderBars s (commandAgent s t) x.2 = false ∧ Known x.2) → fieldAt bs 16 8 = 0 →
    ∃ s' v, exec i s = .next s' ∧ MovesOn s s' t i.len ∧ Returns s s' t wc d [v] la.toNat ∧
      ((fieldAt bs 12 4 ≠ 0 ∨ fieldAt bs 24 8 ≠ 0) → v = 1#32 ∧ s'.part.colls = s.part.colls) ∧
      (fieldAt bs 12 4 = 0 → fieldAt bs 24 8 = 0 → (nm < 2 ∨ 4096 < nm ∨ nm ≤ rank) →
        v = 2#32 ∧ s'.part.colls = s.part.colls) ∧
      (fieldAt bs 12 4 = 0 → fieldAt bs 24 8 = 0 → 2 ≤ nm → nm ≤ 4096 → rank < nm →
        (∀ g ∈ s.part.colls, g.ctx = ctx → g.key ≠ key) →
        ((∃ n < 256, s.coll? ctx n = none) → ∃ g, groupOfHandle s' t v = some g ∧ g.key = key ∧ g.nm = nm ∧
          g.members = [(rank, t)] ∧ g.formed = false ∧ s'.part.colls = s.part.colls ++ [g]) ∧
        ((∀ n < 256, s.coll? ctx n ≠ none) → v = 5#32 ∧ s'.part.colls = s.part.colls)) ∧
      (fieldAt bs 12 4 = 0 → fieldAt bs 24 8 = 0 → 2 ≤ nm → nm ≤ 4096 → rank < nm →
        ∀ g, s.part.colls.find? (fun g => g.ctx == ctx && g.key == key) = some g → g.num < 256 →
          (∀ e ∈ s.part.colls, e.ctx = ctx → e.num = g.num → e = g) →
          ((g.nm ≠ nm ∨ ∃ m ∈ g.members, m.1 = rank) → v = 4#32 ∧ s'.part.colls = s.part.colls) ∧
          (g.nm = nm → (∀ m ∈ g.members, m.1 ≠ rank) →
            groupOfHandle s' t v = some { g with members := (rank, t) :: g.members } ∧
            (g.members.length + 1 = nm → Instr.collectiveForm ctx g.num ∈ s'.events)))) ∧
  (∀ (h : VReg) (wc : BitVec 3) (la : BitVec 4) (g : CollGroup) (s : State) (t : TId), Issues s t (.cgrpEnd h wc la) [] wc →
    groupOfHandle s t ((s.th t).val h) = some g →
    (∀ o ∈ g.ops, ∀ pl, o.statAt = some pl → Plain pl ∧ pl.away = false) →
    ∃ s', exec (.cgrpEnd h wc la) s = .next s' ∧ MovesOn s s' t (Instr.cgrpEnd h wc la).len ∧ s'.coll? g.ctx g.num = none ∧
      ∀ o ∈ g.ops, s'.op? o.opId = none)

/-- The kind of a member operation with its handle, descriptor pair and counter (R221, R338, R344). -/
def memberForm : Instr → Option (Nat × VReg × VReg × BitVec 3)
  | .cgath h a wc _ => some (0, h, a, wc)
  | .crsc h a wc _ => some (1, h, a, wc)
  | .cata h a wc _ => some (2, h, a, wc)
  | _ => none

/-- A member's operation has entered its group (R221): outstanding on its counter, at its rank's place, and matched when it is the
last to arrive. -/
def EntersGroup (s s' : State) (t : TId) (wc : BitVec 3) (g : CollGroup) (kind : Nat) (data : List Byte) (src dst desc : BitVec 64)
    (bytes op : Nat) (srcAt dstAt : List Place) (statAt : Option Place) : Prop :=
  (s'.gr t.gid).counter wc = (s.gr t.gid).counter wc + 1#6 ∧
  (∃ o ∈ s'.part.ops, o.id = s.nextId + 1 ∧ o.t = t ∧ o.wc = some wc ∧ o.job = .coll g.ctx g.num) ∧
  (let seq := g.done + (g.ops.filter fun o => o.rank == rankOf g t).length
   let g' := { g with ops := g.ops ++ [⟨rankOf g t, seq, kind, data, src, dst, bytes, op, false, desc, s.nextId + 1, t,
     srcAt, dstAt, statAt⟩] }
   s'.coll? g.ctx g.num = some g' ∧ (allArrived g' seq = true → Instr.collectiveComplete g.ctx g.num seq ∈ s'.events))

/-- R184, R221, R338, R344: CGATH, CRSC and CATA with a descriptor in order take SRC's bytes and enter their group, with the places of
what they write; CBAR enters with none.
That an address of the peer window or the team information block is no place is the model's reading (log 41). -/
def Obligations.MemberOperations : Prop :=
  (∀ (i : Instr) (kind : Nat) (h a : VReg) (wc : BitVec 3) (g : CollGroup) (ps ss ds : List (BitVec 64 × Place)) (pl : Place)
    (us vs ws xs : List Upd) (s : State) (t : TId), memberForm i = some (kind, h, a, wc) → Issues s t i (pairOf a) wc →
    (s.th t).wcBuf = none → Settled s →
    let va := (s.th t).val64 a
    let c := commandAgent s t
    let bs := sectorBytes s t ps
    let bytes := fieldAt bs 16 4
    let s1 := s.applyAll (us ++ usedPlaces s c (ps.map Prod.snd))
    va.toNat % 32 = 0 → JoinsGroup s t ((s.th t).val h) g → g.broken = false →
    piecePlaces c .load 16 (sectorsFrom va 32) s = (.ok ps, us) →
    translate s1 c .store (va + 28#64) 4 = (.ok pl, vs) →
    bytes % 16 = 0 → 16 ≤ bytes → bytes ≤ 2 ^ 30 → fieldAt bs 21 7 = 0 → (kind = 1 → byteAt bs 20 ≤ 5) →
    fieldAt bs 0 8 % 16 = 0 → fieldAt bs 8 8 % 16 = 0 →
    memberPlaces c .load (sectorsFrom (BitVec.ofNat 64 (fieldAt bs 0 8)) (if kind = 0 then bytes else g.nm * bytes))
      (s1.applyAll vs) = (.ok ss, ws) →
    memberPlaces c .store (sectorsFrom (BitVec.ofNat 64 (fieldAt bs 8 8)) (if kind = 1 then bytes else g.nm * bytes))
      ((s1.applyAll vs).applyAll ws) = (.ok ds, xs) →
    (∀ x ∈ ps ++ ss ++ ds, orderBars s c x.2 = false) → (∀ x ∈ ps ++ ss, Known x.2) →
    ∃ s', exec i s = .next s' ∧ MovesOn s s' t i.len ∧
      EntersGroup s s' t wc g kind (sectorBytes s t ss) (BitVec.ofNat 64 (fieldAt bs 0 8)) (BitVec.ofNat 64 (fieldAt bs 8 8)) va bytes (byteAt bs 20)
        (ss.map Prod.snd) (ds.map Prod.snd) (some pl)) ∧
  (∀ (h : VReg) (wc : BitVec 3) (la : BitVec 4) (g : CollGroup) (s : State) (t : TId), Issues s t (.cbar h wc la) [] wc →
    JoinsGroup s t ((s.th t).val h) g → g.broken = false → (s.th t).wcBuf = none →
    ∃ s', exec (.cbar h wc la) s = .next s' ∧ MovesOn s s' t (Instr.cbar h wc la).len ∧ EntersGroup s s' t wc g 3 [] 0#64 0#64 0#64 0 0 [] [] none)

/-- R221: all SRCs in rank order; the member's own block of each SRC in rank order; sums modulo 2^32 of its own block, for OP 1. -/
def BlocksExchanged : Prop :=
  ∀ (ops : List CollOp) (nm bytes op r : Nat) (data : Nat → List Byte), r < nm → nm ≤ 4096 → 0 < bytes → bytes % 4 = 0 →
    (∀ m < nm, (ops.find? fun o => o.rank == m).map CollOp.data = some (data m)) →
    ((∀ m < nm, (data m).length = bytes) → ∀ m < nm, blockOf (memberResult ops nm 0 bytes op r) m bytes = data m) ∧
    ((∀ m < nm, (data m).length = nm * bytes) → ∀ m < nm, blockOf (memberResult ops nm 2 bytes op r) m bytes = blockOf (data m) r bytes) ∧
    ((∀ m < nm, (data m).length = nm * bytes) → op = 1 → ∀ k < bytes / 4,
      ((wordsOf (memberResult ops nm 1 bytes op r)).getD k 0#32).toNat =
        ((List.range nm).map fun m => ((wordsOf (blockOf (data m) r bytes)).getD k 0#32).toNat).sum % 2 ^ 32)

/-- R220 to R223: a group forms when every rank has joined; a matched operation, the earlier ones complete and the teams in their
places, writes what each member's DST and STATUS receive, by the operation, and ends at every member; it waits while a team is away (R223); a STATUS that had to
wait is written when its operation's turn comes.
Cases the rules do not list are the model's reading (log 41). -/
def Obligations.CollectiveCompletion : Prop :=
  BlocksExchanged ∧
  (∀ (g : CollGroup) (s : State), s.coll? g.ctx g.num = some g → g.nm ≤ g.members.length →
    ∃ s', exec (.collectiveForm g.ctx g.num) s = .next s' ∧ (s'.coll? g.ctx g.num).map CollGroup.formed = some true ∧
      (∀ q, (∃ o ∈ g.ops, o.seq = q) → allArrived { g with formed := true } q = true → Instr.collectiveComplete g.ctx g.num q ∈ s'.events)) ∧
  (∀ (g : CollGroup) (kind bytes op : Nat) (s : State), s.coll? g.ctx g.num = some g →
    let ops := g.ops.filter fun o => o.seq == g.done
    allArrived g g.done = true → resultAway s ops = false → resultBlocked s ops = none → Settled s →
    (∀ o ∈ ops, o.bad = false ∧ o.kind = kind ∧ o.bytes = bytes ∧ o.op = op ∧ o.data.length = srcBytes kind g.nm bytes) →
    kind ≤ 3 → bytes % 16 = 0 → (∀ o ∈ ops, o.dstAt.length * 16 = dstBytes kind g.nm bytes) →
    (∀ o ∈ ops, ∀ pl, o.statAt = some pl → Plain pl ∧ placeKey pl % 4 = 0 ∧
      ∀ p ∈ ops, ∀ x ∈ p.dstAt, placeKey pl + 4 ≤ placeKey x ∨ placeKey x + 16 ≤ placeKey pl) →
    (∀ o ∈ ops, ∀ x ∈ o.dstAt, ∀ y ∈ o.srcAt, touches x 16 y 16 = false) →
    (ops.map CollOp.rank).Nodup → (∀ o ∈ ops, ∀ x ∈ o.dstAt, Plain x ∧ placeKey x % 16 = 0) → Apart 16 (ops.flatMap CollOp.dstAt) →
    ∃ s', exec (.collectiveComplete g.ctx g.num g.done) s = .next s' ∧
      (s'.coll? g.ctx g.num).map CollGroup.done = some (g.done + 1) ∧
      (s'.coll? g.ctx g.num).map CollGroup.ops = some (g.ops.filter fun o => o.seq != g.done) ∧
      (∀ o ∈ ops, s'.op? o.opId = none ∧ ∀ pl, o.statAt = some pl → placeBytes s' (commandAgent s o.t) pl 4 = leBytes 4 0) ∧
      (kind ≠ 3 → ∀ o ∈ ops, o.dstAt.flatMap (fun x => placeBytes s' (commandAgent s o.t) x 16) =
        memberResult ops g.nm kind bytes op o.rank)) ∧
  (∀ (o : Op) (pl : Place) (v : Nat) (s : State), s.op? o.id = some o → o.job = .status pl v → placeKey pl % 4 = 0 → Plain pl →
    pl.away = false → Settled s →
    ∃ s', exec (.accessAck o.id) s = .next s' ∧ s'.op? o.id = none ∧ Stored s s' pl (leBytes 4 v)) ∧
  (∀ (g : CollGroup) (q : Nat) (s : State), s.coll? g.ctx g.num = some g → allArrived g q = true →
    (g.done ≠ q ∨ resultAway s (g.ops.filter fun o => o.seq == q) = true) →
    ∃ s', exec (.collectiveComplete g.ctx g.num q) s = .next s' ∧ s'.part = s.part ∧ s'.mem = s.mem ∧
      Instr.collectiveComplete g.ctx g.num q ∈ s'.events)

/-- R222: what a member of a group of `nm` receives of a reduction: its own block of all SRCs, combined in the order of the tree over the ranks,
whose left half is the largest power of two below its size. -/
def Obligations.CollectiveValues : Prop :=
  ∀ (ops : List CollOp) (nm bytes op r : Nat) (data : Nat → List Byte), r < nm → nm ≤ 4096 → 0 < bytes → bytes % 4 = 0 →
    (∀ m < nm, (ops.find? fun o => o.rank == m).map CollOp.data = some (data m)) → (∀ m < nm, (data m).length = nm * bytes) →
    ∃ T : Nat → Nat → List Word,
      (∀ lo < nm, T lo 1 = wordsOf (blockOf (data lo) r bytes)) ∧
      (∀ lo n h, lo + n ≤ nm → (∃ k, h = 2 ^ k) → h < n → n ≤ 2 * h →
        T lo n = ((T lo h).zip (T (lo + h) (n - h))).map fun p => combineOp op p.1 p.2) ∧
      wordsOf (memberResult ops nm 1 bytes op r) = T 0 nm

/-! ## Launches and queues -/

/-- R383, R384: a launch of a kernel has started as asked: it exists from then on, with what its record says, and its teams are
due. -/
def Starts (s s' : State) (c : Ctx) (k : Kernel) (r : StartArgs) : Prop :=
  ∃ l : Launch, s'.part.launches = s.part.launches ++ [l] ∧ l.ctx = c.num ∧ l.id = c.nextLaunch ∧ l.kern = k ∧
    l.teams = (if r.teams = 0 then k.defTeams else r.teams) ∧ l.args = r.args ∧ l.done = r.done ∧ l.host = r.host ∧ l.part = r.part ∧
    l.next = 0 ∧ Instr.teamDispatch l.key ∈ s'.events

/-- R383, R384: LAUNCH returns the status of the first failing check, or zero and the LAUNCHID of a launch that exists from then on,
with what its record says, and whose teams are due. -/
def Obligations.LaunchResults : Prop :=
  ∀ (d r : VReg) (wc : BitVec 3) (la : BitVec 4) (ps : List (BitVec 64 × Place)) (c : Ctx) (s : State) (t : TId),
    let i : Instr := .launch d r wc la
    let bs := sectorBytes s t ps
    let teams := fieldAt bs 8 8
    let done := fieldAt bs 24 8
    let part := partOf s t.team c
    let kern := c.kernelAt (BitVec.ofNat 64 (fieldAt bs 0 8))
    let live := s.part.launches.filter fun l => l.ctx == c.num && l.fin.isNone
    Issues s t i (pairOf r) wc → (s.th t).wcBuf = none → Settled s → ((s.th t).val64 r).toNat % 32 = 0 → s.ctxOf t.team = some c →
    (piecePlaces (commandAgent s t) .load 16 (sectorsFrom ((s.th t).val64 r) 32) s).1 = .ok ps →
    (∀ x ∈ ps, orderBars s (commandAgent s t) x.2 = false ∧ Known x.2) →
    ∃ s' v0 v1, exec i s = .next s' ∧ MovesOn s s' t i.len ∧ Returns s s' t wc d [v0, v1] la.toNat ∧
      ((2 ^ 31 < teams ∨ done % 8 ≠ 0) → v0 = 1#32) ∧
      (teams ≤ 2 ^ 31 → done % 8 = 0 → kern = none → v0 = 2#32) ∧
      (teams ≤ 2 ^ 31 → done % 8 = 0 → ∀ k, kern = some k →
        (k.gen ≠ c.gen → v0 = 3#32) ∧
        (k.gen = c.gen → (k.fitsEmpty = false ∨ places s part k.cores 0 = []) → v0 = 4#32) ∧
        (k.gen = c.gen → k.fitsEmpty = true → places s part k.cores 0 ≠ [] →
          (4096 ≤ live.length → v0 = 5#32) ∧
          (live.length < 4096 → v0 = 0#32 ∧
            v1 = BitVec.ofNat 32 c.nextLaunch ∧
            Starts s s' c k ⟨teams, BitVec.ofNat 64 (fieldAt bs 16 8), BitVec.ofNat 64 done, 0, part, none⟩))) ∧
      (v0 ≠ 0#32 → v1 = 0#32 ∧ s'.part.launches = s.part.launches)

/-- R31, R383 to R385: a dispatch places the next team of a launch where it fits: its threads stand at the entry with the state of
R385.
Which place a team takes is the model's choice among those that fit (log 42). -/
def Obligations.DispatchPlaces : Prop :=
  ∀ (l : Launch) (p : Nat) (f : Fit) (s : State), s.launch? l.key = some l → l.next < l.teams → FreshName s →
    (∀ x ∈ s.teams, x.launch = l.key → x.sup = none → swappedAwake s x = false) →
    (∀ m ∈ s.part.launches, m.key < l.key → m.next < m.teams → placeNew s m = none) → placeNew s l = some (p, f) →
    let k := l.kern
    let n := s.nextId
    ∃ s' x, exec (.teamDispatch l.key) s = .next s' ∧ s'.team? n = some x ∧ x.cores = placeCores k.cores p ∧ x.launch = l.key ∧
      x.idx = l.next ∧ x.gen = k.gen ∧ x.claim.scrBase = f.scr ∧ x.claim.accBase = f.acc ∧ x.claim.obBase = f.ob ∧
      (∀ r, x.kreg r = KReg.zero) ∧ (∀ m, x.obRec m = 0#64) ∧
      (∀ j < k.teamT, let y := s'.th ⟨n, j / k.w, j % k.w⟩
        y.pc = k.entry ∧ y.widx = 1 ∧ y.clause = none ∧ y.run = .running ∧ (∀ r, y.reg r = Reg.zero) ∧
          (∀ q, q ≠ 0#3 → y.pred q = ⟨false, false, 0#3⟩) ∧ y.tpc = 0#64 ∧ y.tval = 0#64 ∧ y.tcause = 0#32) ∧
      (∀ j < f.bases.length, let g := s'.gr ⟨n, j⟩
        g.n = k.regs ∧ g.w = k.w ∧ g.base = f.bases.getD j 0 ∧ (g.reg 1#5).val ++ (g.reg 0#5).val = l.args ∧
          (∀ r, 2 ≤ r.toNat → g.reg r = Reg.zero) ∧ (∀ m, g.counter m = 0#6) ∧ g.narmode = 0#32 ∧
          (∀ c, s.ctx? l.ctx = some c → g.emuvec = c.emuvec) ∧
          (∀ b : BitVec 3, ∀ b' < 64, enrolled g b b' = false)) ∧
      (s'.launch? l.key).map Launch.next = some (l.next + 1) ∧ (l.next + 1 < l.teams → Instr.teamDispatch l.key ∈ s'.events)

/-- R38, R44, R45, R273, R386: the release of a team whose threads have all exited takes it off the part, and frees its claim at once, though
a command that must still wait goes on without it; that of the last team of a launch ends the launch, and writes END 1 to its completion word; a launch without progress for the period is told as stalled.
What a release waits for and how an ended launch's commands finish is the model's reading (log 44). -/
def Obligations.LaunchEnds : Prop :=
  (∀ (x : Team) (s : State), s.team? x.key = some x → x.sup = none → (∀ y ∈ s.threads, y.id.team = x.key → y.live = false) →
    releaseHeld s x.key = false → (∀ o ∈ s.part.ops, o.works x.key = false) →
    (∀ g ∈ s.part.colls, ∀ m ∈ g.members, m.2.team ≠ x.key) →
    (∀ l, s.launch? x.launch = some l → l.next ≠ l.teams ∨ ∃ y ∈ s.teams, y.key ≠ x.key ∧ y.sup = none ∧ y.launch = x.launch) →
    ∃ s', exec (.teamRelease x.key) s = .next s' ∧ s'.team? x.key = none ∧ (∀ y ∈ s'.threads, y.id.team ≠ x.key) ∧
      (∀ g ∈ s'.groups, g.id.team ≠ x.key) ∧ (s'.launch? x.launch).isSome = (s.launch? x.launch).isSome) ∧
  (∀ (x : Team) (l : Launch) (c : Ctx) (p : Page) (s : State), s.team? x.key = some x → x.sup = none →
    (∀ y ∈ s.threads, y.id.team = x.key → y.live = false) → releaseHeld s x.key = false → (∀ o ∈ s.part.ops, o.works x.key = false) →
    (∀ y ∈ s.threads, y.wcBuf = none) → s.launch? x.launch = some l → l.next = l.teams → pushesDue s l.key = false →
    (∀ y ∈ s.teams, y.key ≠ x.key → y.sup = none → y.launch ≠ x.launch) → l.done ≠ 0#64 → l.done.toNat < 0xFF000000000000 →
    l.done.toNat % 8 = 0 → l.host = 0 → s.ctx? l.ctx = some c → pageFor s c hostIssuer true false .atomic l.done.toNat 8 = (.ok p, []) →
    Plain (.page p) → l.kern.det = false → s.part.colls = [] → Settled s →
    ∃ s', exec (.teamRelease x.key) s = .next s' ∧ s'.team? x.key = none ∧ s'.launch? l.key = none ∧
      homeBytes s' p.pa 8 = leBytes 8 1) ∧
  (∀ (x : Team) (s : State), s.team? x.key = some x → x.sup = none → (∀ y ∈ s.threads, y.id.team = x.key → y.live = false) →
    releaseHeld s x.key = true → x.res ≠ .retired →
    ∃ s', exec (.teamRelease x.key) s = .next s' ∧ s'.team? x.key = some x ∧ Instr.teamRelease x.key ∈ s'.events) ∧
  (∀ (x : Team) (s : State), s.team? x.key = some x → x.sup = none → (∀ y ∈ s.threads, y.id.team = x.key → y.live = false) →
    releaseHeld s x.key = false →
    ∃ s', exec (.teamRelease x.key) s = .next s' ∧
      ∀ y, s'.team? x.key = some y → y.res = .retired ∧ y.placed = false ∧ Instr.teamRelease x.key ∈ s'.events) ∧
  (∀ (l : Launch) (s : State), s.launch? l.key = some l → l.fin = none →
    ∃ s', exec (.launchWatchdog l.key) s = .next s' ∧ Instr.launchWatchdog l.key ∈ s'.events ∧
      (l.progress + Config.watchdog ≤ s.time → l.stalled = false →
        (s'.launch? l.key).map Launch.stalled = some true ∧ Report.stalled l.key ∈ s'.part.reports) ∧
      (s.time < l.progress + Config.watchdog → s'.part = s.part))

/-- R34, R413: what a queue instruction of thread `t` finds at the descriptor address `va`: its words' places and its fields. -/
structure QueueSeen (s : State) (t : TId) (va : BitVec 64) (ps : List (BitVec 64 × Place)) (us : List Upd) (q : QDesc) : Prop where
  aligned : va.toNat % 64 = 0
  places : pagePlaces (commandAgent s t) .atomic (wordsFrom va 64) s = (.ok ps, us)
  desc : q = qdescOf (wordBytesAt s (commandAgent s t) ps)
  ok : q.ok = true
  order : ∀ x ∈ ps, orderBars s (commandAgent s t) x.2 = false
  free : engineBlocked s (commandAgent s t) (ps.map Prod.snd) = none
  plain : ∀ x ∈ ps, Plain x.2
  apart : Apart 4 (ps.map Prod.snd)

/-- R34, R35, R413 to R417: QPUSH takes a free slot, copies the record into it and has the increment of FULL outstanding, or waits
while none is free; QPOP takes a filled slot, waits while a producer lives, and reports an empty queue, its slot number to return to its register; QFREE gives a slot back. -/
def Obligations.QueueResults : Prop :=
  (∀ (q r : VReg) (wc : BitVec 3) (la : BitVec 4) (ps src dst : List (BitVec 64 × Place)) (us vs ws : List Upd) (d : QDesc)
    (s : State) (t : TId),
    let i : Instr := .qpush q r wc la
    let c := commandAgent s t
    Issues s t i (pairOf q ++ pairOf r) wc → Unhosted s t → Settled s → (s.th t).wcBuf = none →
    QueueSeen s t ((s.th t).val64 q) ps us d → ((s.th t).val64 r).toNat % 16 = 0 →
    let s1 := s.applyAll (us ++ usedPlaces s c (ps.map Prod.snd))
    pagePlaces c .load (wordsFrom ((s.th t).val64 r) d.slotSz) s1 = (.ok src, vs) →
    pagePlaces c .store (wordsFrom (d.slotAt d.head) d.slotSz) (s1.applyAll vs) = (.ok dst, ws) →
    (∀ x ∈ src ++ dst, orderBars s c x.2 = false) → engineBlocked s c ((dst ++ ps).map Prod.snd) = none → (∀ x ∈ dst, Plain x.2) →
    Apart 4 ((dst ++ ps).map Prod.snd) → (∀ x ∈ src, Plain x.2 ∧ ∀ y ∈ ps, placeKey x.2 + 4 ≤ placeKey y.2 ∨ placeKey y.2 + 4 ≤ placeKey x.2) →
    d.head + 1 < 2 ^ 64 →
    ∃ s', exec i s = .next s' ∧
      (d.free ≠ 0 → MovesOn s s' t i.len ∧ Counts s s' t wc none .qpushPublish ∧
        (∃ o ∈ s'.part.ops, o.id = s.nextId + 1 ∧ o.job = .qpush ((s.th t).val64 q) (d.head % d.nslot)
          (ctxNum s t.team) (s.tm t.team).launch (((ps.map Prod.snd).drop 10).take 2)) ∧
        qdescOf (wordBytesAt s' c ps) = { d with free := d.free - 1, head := d.head + 1 } ∧
        wordBytesAt s' c dst = wordBytesAt s c src) ∧
      (d.free = 0 → HeldAt s s' t .queue ∧ s'.mem = s.mem ∧ Instr.queueWaitWake t ∈ s'.events)) ∧
  (∀ (dd q : VReg) (wc : BitVec 3) (la : BitVec 4) (p : PReg) (ps slot : List (BitVec 64 × Place)) (us vs : List Upd) (d : QDesc)
    (s : State) (t : TId),
    let i : Instr := .qpop dd q wc la p
    let c := commandAgent s t
    Issues s t i (pairOf q) wc → Unhosted s t → Settled s → (s.th t).wcBuf = none → QueueSeen s t ((s.th t).val64 q) ps us d →
    pagePlaces c .load (wordsFrom (d.slotAt d.tail) d.slotSz) (s.applyAll (us ++ usedPlaces s c (ps.map Prod.snd))) = (.ok slot, vs) →
    (∀ x ∈ slot, orderBars s c x.2 = false) → d.tail + 1 < 2 ^ 64 →
    ∃ s', exec i s = .next s' ∧
      (d.full ≠ 0 → MovesOn s s' t i.len ∧ Returns s s' t wc dd [BitVec.ofNat 32 (d.tail % d.nslot)] la.toNat ∧
        (p ≠ 0#3 → (s'.th t).pred p = ⟨true, false, 0#3⟩) ∧
        qdescOf (wordBytesAt s' c ps) = { d with full := d.full - 1, tail := d.tail + 1 }) ∧
      (d.full = 0 → producerLive s (ctxNum s t.team) ((s.th t).val64 q) = false → MovesOn s s' t i.len ∧ s'.mem = s.mem ∧
        Returns s s' t wc dd [0xFFFFFFFF#32] la.toNat ∧ (p ≠ 0#3 → (s'.th t).pred p = ⟨false, false, 0#3⟩)) ∧
      (d.full = 0 → producerLive s (ctxNum s t.team) ((s.th t).val64 q) = true → HeldAt s s' t .queue ∧ s'.mem = s.mem)) ∧
  (∀ (q : VReg) (wc : BitVec 3) (la : BitVec 4) (ps : List (BitVec 64 × Place)) (us : List Upd) (d : QDesc) (s : State) (t : TId),
    let i : Instr := .qfree q wc la
    Issues s t i (pairOf q) wc → Unhosted s t → Settled s → (s.th t).wcBuf = none → QueueSeen s t ((s.th t).val64 q) ps us d →
    ∃ s', exec i s = .next s' ∧ MovesOn s s' t i.len ∧
      qdescOf (wordBytesAt s' (commandAgent s t) ps) = { d with free := min (d.free + 1) d.nslot })

/-- R37, R41, R414: a push whose turn it is publishes: FULL rises, the push ends, and a queue that was empty starts its consumer when
it has no live launch; a thread that waits for its queue tries again when the queue is ready for it, and waits on until then. -/
def Obligations.QueueEvents : Prop :=
  (∀ (o : Op) (va : BitVec 64) (slot launch : Nat) (ps : List (BitVec 64 × Place)) (us : List Upd) (d : QDesc) (s : State),
    s.op? o.id = some o → o.job = .qpush va slot (ctxNum s o.t.team) launch (((ps.map Prod.snd).drop 10).take 2) → o.dlv = none →
    teamHere s o.t.team = true → Settled s →
    (s.queue (ctxNum s o.t.team) va).due.head? = some o.id → QueueSeen s o.t va ps us d → d.full + 1 < 2 ^ 64 →
    ∃ s', exec (.qpushPublish o.id) s = .next s' ∧ s'.op? o.id = none ∧
      qdescOf (wordBytesAt s' (commandAgent s o.t) ps) = { d with full := d.full + 1 } ∧
      (s'.queue (ctxNum s o.t.team) va).due = (s.queue (ctxNum s o.t.team) va).due.drop 1 ∧
      (d.full = 0 → ∀ c k p, s.ctx? (ctxNum s o.t.team) = some c → c.kernelAt (BitVec.ofNat 64 d.consumer) = some k → d.consumer ≠ 0 →
        pageFor s c linkIssuer false true .load va.toNat 64 = (.ok p, []) →
        (∀ n (h : n < ps.length), placeKey ps[n].2 = p.pa + 4 * n) →
        (∀ l ∈ s.part.launches, l.ctx = ctxNum s o.t.team → l.kern.addr = some (BitVec.ofNat 64 d.consumer) → l.fin.isSome = true) →
        startStatus s c (some k) ⟨0, va, 0#64, 0, ((s.launch? launch).map Launch.part).getD c.part, some va⟩ = 0 →
        ∃ l ∈ s'.part.launches, l.ctx = c.num ∧ l.queue = some va ∧ l.args = va ∧ l.done = 0#64 ∧ l.kern = k)) ∧
  (∀ (s : State) (t : TId), (s.thread? t).isSome = true → (s.th t).run = .waiting .queue →
    ∃ s', exec (.queueWaitWake t) s = .next s' ∧
      (queueReady s (s.th t) = true → (s'.th t).run = .running ∧ (s'.th t).pc = (s.th t).pc ∧ (s'.th t).widx = (s.th t).widx) ∧
      (queueReady s (s.th t) = false → s'.threads = s.threads ∧ Instr.queueWaitWake t ∈ s'.events))

/-! ## System instructions -/

/-- R10 to R13, R232, R262, R266, R272, R370, R371: the value of special register `sel` of a thread, low word first; for a thread of a
launched team where the register is an identity. -/
def specialReads (s : State) (t : TId) (sel : Nat) (v : List Word) : Prop :=
  let g := s.gr t.gid
  let wide : Nat → List Word := fun n => [BitVec.ofNat 32 n, BitVec.ofNat 32 (n / 2 ^ 32)]
  (s.isSup t.team = false →
    (sel = 0 → v = [BitVec.ofNat 32 (t.group * g.w + t.idx)]) ∧ (sel = 1 → v = [BitVec.ofNat 32 (g.base + t.idx)]) ∧
    (sel = 2 → v = [BitVec.ofNat 32 t.group]) ∧ (sel = 3 → v = [BitVec.ofNat 32 (s.tm t.team).idx]) ∧
    (sel = 4 → ∀ l, s.launch? (s.tm t.team).launch = some l → v = [BitVec.ofNat 32 l.id]) ∧
    (sel = 5 → v = [BitVec.ofNat 32 g.core]) ∧ (sel = 6 → v = [BitVec.ofNat 32 (g.core / 4)]) ∧
    (sel = 10 → ∀ c, s.ctxOf t.team = some c → v = [c.asid.setWidth 32])) ∧
  (sel = 7 → v = wide (s.cycleOf t)) ∧ (sel = 8 → v = wide s.time) ∧ (sel = 9 → v = [g.narmode]) ∧
  (sel = 11 → v = wide g.emuvec.toNat) ∧ (sel = 12 → v = [(s.th t).tcause]) ∧ (sel = 13 → v = wide (s.th t).tpc.toNat) ∧
  (sel = 14 → v = wide (s.th t).tval.toNat) ∧ (sel = 15 → v = [(s.cluster (s.homeCluster t)).slope.setWidth 32]) ∧
  (sel = 16 → ∃ w : Word, v = [w] ∧ w.extractLsb' 0 2 = (s.cluster (s.homeCluster t)).cur ∧
    (w.getLsbD 2 = true ↔ (s.cluster (s.homeCluster t)).target.isSome = true) ∧ w.getLsbD 3 = (s.cluster (s.homeCluster t)).therm ∧
    w.extractLsb' 4 2 = (s.cluster (s.homeCluster t)).ceil)

/-- R369, R370, R426, R427: GETS writes a special register's value, clean; SETS writes the writable bits of one, keeps all others, and
raises PRIV where the register is not the thread's to write. -/
def Obligations.SpecialRegisters : Prop :=
  (∀ (d : VReg) (sel : BitVec 8) (s : State) (t : TId), Solo s t → Clear s t (.gets d sel) [] [] → sel.toNat ≤ 16 →
    ∃ s' v, exec (.gets d sel) s = .next s' ∧ MovesOn s s' t 1 ∧ specialReads s t sel.toNat v ∧
      (∀ k (h : k < v.length), (s'.th t).reg (d + BitVec.ofNat 7 k) = ⟨v[k], false, 0#3⟩) ∧
      (∀ r, (∀ k < v.length, r ≠ d + BitVec.ofNat 7 k) → (s'.th t).reg r = (s.th t).reg r)) ∧
  (∀ (a : VReg) (sel : BitVec 8) (s : State) (t : TId), Solo s t →
    Clear s t (.sets a sel) (if special64 sel then pairOf a else [a]) [] → sel.toNat ≤ 16 → setsPriv (s.isSup t.team) sel.toNat = false →
    ∃ s', exec (.sets a sel) s = .next s' ∧ MovesOn s s' t 1 ∧ (Unhosted s t → s'.mem = s.mem) ∧ (∀ r, (s'.th t).reg r = (s.th t).reg r) ∧
      (s'.gr t.gid).narmode = (if sel = 9#8 then (s.th t).val a &&& 0x00077777#32 else (s.gr t.gid).narmode) ∧
      (s'.gr t.gid).emuvec = (if sel = 11#8 then (s.th t).val64 a else (s.gr t.gid).emuvec) ∧
      (s'.th t).tcause = (if sel = 12#8 then ((s.th t).tcause &&& 0x9F0F0FE0#32) ||| ((s.th t).val a &&& 0x60F0F01F#32) else (s.th t).tcause) ∧
      (s'.th t).tpc = (if sel = 13#8 then (s.th t).val64 a &&& 0x00FFFFFFFFFFFFFF#64 else (s.th t).tpc) ∧
      (s'.th t).tval = (if sel = 14#8 then (s.th t).val64 a else (s.th t).tval) ∧
      (s.homeCluster t < 16 → (s'.cluster (s.homeCluster t)).slope =
        if sel = 15#8 then ((s.th t).val a).setWidth 16 else (s.cluster (s.homeCluster t)).slope) ∧
      (∀ n, (s.tm t.team).sup = some n → n < 8 → s'.part.supAsid.toList.getD n 0#16 =
        if sel = 10#8 then ((s.th t).val a).setWidth 16 else s.part.supAsid.toList.getD n 0#16)) ∧
  (∀ (a : VReg) (sel : BitVec 8) (vec : BitVec 64) (s : State) (t : TId), Solo s t →
    Clear s t (.sets a sel) (if special64 sel then pairOf a else [a]) [] → Vectored s t vec →
    (sel.toNat < 7 ∨ sel = 8#8 ∨ ((sel = 7#8 ∨ sel = 10#8 ∨ sel = 15#8 ∨ sel = 16#8) ∧ s.isSup t.team = false)) →
    ∃ s', exec (.sets a sel) s = .next s' ∧ Trapped s s' t vec 3 (BitVec.ofNat 64 (s.th t).widx) 0)

/-- R237 to R240, R353, R376, R438, R442: TRAP takes its trap with its number, its resume word the next one; ERET goes back to it, with
INH clear and the guard of its IFP, and is illegal outside a handler; SYSCALL waits at the next clause for the kernel; HALT stops;
IDLE waits while nothing is reported. -/
def Obligations.TrapsAndReturns : Prop :=
  (∀ (n : BitVec 8) (vec : BitVec 64) (c : Clause) (s : State) (t : TId), Solo s t → Clear s t (.trap n) [] [] → Vectored s t vec →
    (s.th t).clause = some c →
    ∃ s', exec (.trap n) s = .next s' ∧ JumpsTo s' t vec ∧ (s'.th t).tval = n.setWidth 64 ∧
      ((s.th t).widx < c.count → (s'.th t).tpc = (s.th t).pc &&& 0x00FFFFFFFFFFFFFF#64 ∧
        (s'.th t).tcause = tcauseOf true false false 0 ((s.th t).widx + 1) 17) ∧
      (c.count = (s.th t).widx → (s'.th t).tpc = nextClause (s.th t).pc c &&& 0x00FFFFFFFFFFFFFF#64 ∧
        (s'.th t).tcause = tcauseOf true false false 0 1 17)) ∧
  (∀ (s : State) (t : TId), Solo s t → Clear s t .eret [] [] → (s.th t).inh = true →
    ∃ s', exec .eret s = .next s' ∧ (s'.th t).pc = (s.th t).tpc ∧ (s'.th t).widx = max ((s.th t).tcause.toNat / 2 ^ 12 % 16) 1 ∧
      (s'.th t).clause = none ∧ (s'.th t).rep = none ∧ (s'.th t).tcause = (s.th t).tcause &&& 0x7FFFFFFF#32 ∧ (s'.th t).run = .running ∧
      (s'.th t).resumeG = (if (s.th t).tcause.getLsbD 30 then some ((s.th t).tcause.getLsbD 29) else none) ∧
      (s'.th t).tpc = (s.th t).tpc ∧ (s'.th t).tval = (s.th t).tval) ∧
  (∀ (s : State) (t : TId), Solo s t → Clear s t .eret [] [] → (s.th t).inh = false → (s.gr t.gid).emuvec ≠ 0#64 →
    (∀ c, (s.th t).clause = some c → (s.th t).widx ≤ c.count) →
    ∃ s', exec .eret s = .next s' ∧ Trapped s s' t (s.gr t.gid).emuvec 1 13#64 0) ∧
  (∀ (n : BitVec 8) (s : State) (t : TId), Solo s t → Clear s t (.syscall n) [] [] →
    ∃ s', exec (.syscall n) s = .next s' ∧ (s'.th t).run = .syscall n ∧ (s'.th t).pc = ((s.th t).step 1).pc ∧
      (s'.th t).widx = ((s.th t).step 1).widx ∧ Report.syscall t ∈ s'.part.reports) ∧
  (∀ (v1 : Word) (n : BitVec 8) (s : State) (t : TId), (s.thread? t).isSome = true → (s.th t).run = .syscall n →
    ∃ s', exec (.syscallReturn t v1) s = .next s' ∧ (s'.th t).run = .running ∧ (s'.th t).val 1#7 = v1 ∧ (s'.th t).pc = (s.th t).pc) ∧
  (∀ (s : State) (t : TId), Solo s t → Clear s t .halt [] [] →
    ∃ s', exec .halt s = .next s' ∧ (s'.th t).run = .halted) ∧
  (∀ (s : State) (t : TId), Solo s t → Clear s t .idle [] [] →
    ∃ s', exec .idle s = .next s' ∧ (s.part.reports ≠ [] → MovesOn s s' t 1) ∧ (s.part.reports = [] → HeldAt s s' t .idle))

/-- R141, R345 to R347, R439, R440: TLBINV drops the cached translations that it names, of every issuer, leaves no store in a combining
buffer, and waits while a command is in flight on a page that it names; CTXSV saves a quiet team into
its area and CTXLD brings a saved one back, where it fits, with its scratchpad.
The bytes of an area are opaque (log 8); what TLBINV waits for is the model's reading (log 46). -/
def Obligations.TranslationsAndSaves : Prop :=
  (∀ (n a : VReg) (k : BitVec 2) (s : State) (t : TId), Solo s t →
    Clear s t (.tlbinv n a k) (if k = 0#2 then n :: pairOf a else if k = 1#2 then [n] else []) [] →
    let asid := ((s.th t).val n).setWidth 16
    let va := ((s.th t).val64 a).toNat
    ∃ s', exec (.tlbinv n a k) s = .next s' ∧
      (inFlight s k asid va = false → MovesOn s s' t 1) ∧ (inFlight s k asid va = true → HeldAt s s' t .inFlight) ∧
      (∀ x ∈ s'.threads, x.wcBuf = none) ∧
      ∀ e, e ∈ s'.part.tlb ↔ e ∈ s.part.tlb ∧
        ¬ (k = 3#2 ∨ (k = 2#2 ∧ pteBit e.pte.toNat 6 = false) ∨ (k = 1#2 ∧ e.asid = asid ∧ pteBit e.pte.toNat 6 = false) ∨
          (k = 0#2 ∧ (e.asid = asid ∨ pteBit e.pte.toNat 6 = true) ∧ va < 2 ^ 56 ∧ e.vpn = va / pageSize e.level))) ∧
  (∀ (v a : VReg) (p : PReg) (c : Ctx) (y : Team) (ps : List (BitVec 64 × Place)) (us : List Upd) (s : State) (t : TId), Solo s t →
    Clear s t (.ctxsv v a p) (pairOf a) [] → Settled s → (s.th t).run = .running →
    ((s.th t).val64 a).toNat % 256 = 0 → s.ctxOf t.team = some c →
    teamNamed s c.num ((s.th t).val v) ((s.th t).val (v + 1#7)) = some y → y.key ≠ t.team → y.res = .resident → y.stopping = false →
    (∃ x ∈ s.threads, x.id.team = y.key ∧ x.live = true) →
    piecePlaces (agentOf s t) .store 1 (steppedFrom ((s.th t).val64 a) 1 (saveSize s t)) s = (.ok ps, us) →
    engineBlocked s (agentOf s t) (ps.map Prod.snd) = none → teamQuiet s y.key = true → (∀ x ∈ ps, Plain x.2) →
    Apart 1 (ps.map Prod.snd) →
    ∃ s', exec (.ctxsv v a p) s = .next s' ∧ MovesOn s s' t 1 ∧ (p ≠ 0#3 → (s'.th t).pred p = ⟨true, false, 0#3⟩) ∧
      (s'.team? y.key).map Team.res = some .saved ∧
      (areaAt s' c.num ((s.th t).val64 a) (ps.map fun x => placeByte s' (agentOf s t) x.2)).map Team.key = some y.key) ∧
  (∀ (a : VReg) (p : PReg) (x : Team) (q : Nat) (f : Fit) (ps : List (BitVec 64 × Place)) (us : List Upd) (s : State) (t : TId), Solo s t →
    Clear s t (.ctxld a p) (pairOf a) [] → Safe s → ((s.th t).val64 a).toNat % 256 = 0 →
    piecePlaces (agentOf s t) .load 1 (steppedFrom ((s.th t).val64 a) 1 (saveSize s t)) s = (.ok ps, us) →
    areaAt s (ctxNum s t.team) ((s.th t).val64 a) (ps.map fun x => placeByte s (agentOf s t) x.2) = some x →
    placeOld s x = some (q, f) → (q + 1) * x.cores.length ≤ 768 →
    ∃ s', exec (.ctxld a p) s = .next s' ∧ MovesOn s s' t 1 ∧ (p ≠ 0#3 → (s'.th t).pred p = ⟨true, false, 0#3⟩) ∧
      (s'.team? x.key).map Team.res = some .resident ∧ (s'.team? x.key).map Team.cores = some (placeCores x.cores.length q) ∧
      ((x.scr.map fun b => (b.1, b.2.1)).Nodup → ∀ b ∈ x.scr, b.1 < x.cores.length → b.2.1 < x.claim.scrSize →
        s'.byte (scrKey ((placeCores x.cores.length q).getD b.1 0) (f.scr + b.2.1)) = b.2.2))

/-! ## The active set, and teams away from their place -/

/-- R17, R18, R41 to R43, R47, R242 to R244: a blocked active group gives its place to the oldest ready pending one; a ready pending group
takes a free place, or after 4,096 cycles the place of the group that has held its own longest; a team that has waited for its
threshold is saved, with what its claim holds, and wakes; a pre-empted team stops and is saved, and so is one that a team fault stopped,
while a request for a team whose last thread has exited is void; a team away takes a place where it fits.
What a save completes is the model's reading (log 43); turns are the model's choice (log 4). -/
def Obligations.ResidenceResults : Prop :=
  (∀ (core : Nat) (g : GId) (h : Group) (s : State), Safe s → (s.group? g).isSome = true → (s.gr g).active = true →
    let s1 := s.applyAll (markReady s)
    (s.gr g).core = core → s.isSup g.team = false → givesWay s1 g = true → oldestPending s1 core = some h →
    ∃ s', exec (.activeSetSwap core g) s = .next s' ∧ (s'.gr g).active = false ∧ (s'.gr h.id).active = true ∧
      (s'.gr h.id).activeAt = s.cycle core) ∧
  (∀ (core : Nat) (g : GId) (s : State), (s.gr g).active = false ∨ givesWay (s.applyAll (markReady s)) g = false →
    ∃ s', exec (.activeSetSwap core g) s = .next s' ∧ ∀ h, (s'.gr h).active = (s.gr h).active ∧ (s'.gr h).activeAt = (s.gr h).activeAt) ∧
  (∀ (g : GId) (s : State), (∀ x ∈ s.threads, x.id.gid = g → x.live = true → ∃ j n, x.run = .joined j n ∨ x.run = .barrier n) ∨
    (∀ x ∈ s.threads, x.id.gid = g → x.live = false) → givesWay s g = true) ∧
  (∀ (core : Nat) (g : GId) (s : State), Safe s → (s.group? g).isSome = true → (s.gr g).active = false → (s.gr g).hosted = none →
    (s.gr g).core = core → s.isSup g.team = false → groupReady s g = true →
    ∃ s', exec (.pendingPromote core g) s = .next s' ∧
      (activeOn s core < 8 → (s'.gr g).active = true ∧ (s'.gr g).activeAt = s.cycle core) ∧
      (8 ≤ activeOn s core → ∀ h n, longestActive s core = some h → (s.gr g).readyAt = some n → n + 4096 ≤ s.cycle core →
        (s'.gr g).active = true ∧ (s'.gr h.id).active = false) ∧
      (8 ≤ activeOn s core → (∀ n, (s.gr g).readyAt = some n → s.cycle core < n + 4096) → s'.groups = s.groups)) ∧
  (∀ (k : Nat) (s : State), (s.team? k).isSome = true →
    let x := s.tm k
    waitedOut s x = true → x.sup = none → x.res = .resident → teamWaits s k = true → teamQuiet s k = true →
    ∃ s', exec (.swapOut k) s = .next s' ∧ (s'.team? k).map Team.res = some .swapped ∧ Instr.teamWake k ∈ s'.events ∧
      (s.part.ops = [] → (∀ y ∈ s.threads, y.id.team = k → y.wcBuf = none) → ∀ i off, i < x.cores.length → off < x.claim.scrSize →
        let b := s.byte (scrKey (x.cores.getD i 0) (x.claim.scrBase + off))
        b ≠ 0#8 → (i, off, b) ∈ (s'.tm k).scr)) ∧
  (∀ (k : Nat) (s : State), waitedOut s (s.tm k) = false ∨ teamWaits s k = false →
    exec (.swapOut k) s = .next s) ∧
  (∀ (k : Nat) (s : State), (s.teamThreads k).any Thread.live = false → exec (.preempt k) s = .next s) ∧
  (∀ (k : Nat) (s : State), (s.team? k).isSome = true → (s.tm k).sup = none → (s.tm k).res = .resident →
    (s.teamThreads k).any Thread.live = true →
    ∃ s', exec (.preempt k) s = .next s' ∧
      (teamQuiet s k = true → (s'.team? k).map Team.res = some .preempted) ∧
      (teamQuiet s k = false → (s'.team? k).map Team.stopping = some true ∧ Instr.preempt k ∈ s'.events ∧
        s'.threads = s.threads ∧ s'.mem = s.mem)) ∧
  (∀ (k c i : Nat) (s : State), (s.team? k).isSome = true → (s.tm k).sup = none → (s.tm k).res = .faulted c i → (s.tm k).off = false →
    (s.teamThreads k).any Thread.live = true → teamQuiet s k = true →
    ∃ s', exec (.preempt k) s = .next s' ∧ (s'.team? k).map Team.res = some (.faulted c i) ∧ (s'.team? k).map Team.off = some true) ∧
  (∀ (x : Team) (p : Nat) (f : Fit) (s : State), s.team? x.key = some x → (x.res = .preempted ∨ swappedAwake s x = true) →
    placeOld s x = some (p, f) →
    ∃ s', exec (.teamWake x.key) s = .next s' ∧ (s'.team? x.key).map Team.res = some .resident ∧
      (s'.team? x.key).map Team.cores = some (placeCores x.cores.length p) ∧
      (s'.team? x.key).map (fun y => y.claim.scrBase) = some f.scr) ∧
  (∀ (x : Team) (s : State), s.team? x.key = some x → x.res = .swapped → (awake s x.key = false ∨ placeOld s x = none) →
    ∃ s', exec (.teamWake x.key) s = .next s' ∧ s'.teams = s.teams ∧ s'.threads = s.threads ∧ Instr.teamWake x.key ∈ s'.events)

/-! ## The microscope cores -/

/-- R246 to R257, R260, R395, R441, R443, R447: MIGRATE asks for the move of its group, with predicate true when it will move or is hosted;
UNMIG asks for its return; a group that has stopped moves to a free slot, and home again; WPSET sets the trip register of its thread's
home core from a legal record; TRACE changes TRCTL of the core that hosts its thread; STOP and STEP.
Cases of a supervisor core are the model's reading (log 47). -/
def Obligations.MicroscopeResults : Prop :=
  (∀ (pav : BitVec 1) (p : PReg) (s : State) (t : TId), Solo s t → Clear s t (.migrate pav p) [] [] → s.dbg t.team = true →
    ∃ s', exec (.migrate pav p) s = .next s' ∧ MovesOn s s' t 1 ∧
      ((s.gr t.gid).hosted.isSome = true → (p ≠ 0#3 → (s'.th t).pred p = ⟨true, false, 0#3⟩) ∧
        (s'.gr t.gid).hosted = (s.gr t.gid).hosted) ∧
      ((s.gr t.gid).hosted = none → (s.gr t.gid).shutter = none → s.isSup t.team = false →
        (slotOffered s (clusterOf (s.gr t.gid).core) = true → (p ≠ 0#3 → (s'.th t).pred p = ⟨true, false, 0#3⟩) ∧
          (s'.gr t.gid).shutter = some (pav == 1#1) ∧ Instr.shutterClose t.gid ∈ s'.events) ∧
        (slotOffered s (clusterOf (s.gr t.gid).core) = false → (p ≠ 0#3 → (s'.th t).pred p = ⟨false, false, 0#3⟩) ∧
          (s'.gr t.gid).shutter = none))) ∧
  (∀ (i : Instr) (a : VReg) (pav : BitVec 1) (p : PReg) (vec : BitVec 64) (s : State) (t : TId), Solo s t →
    (i = .migrate pav p ∧ Clear s t i [] []) ∨ (i = .wpset a ∧ Clear s t i (pairOf a) []) → s.dbg t.team = false → Vectored s t vec →
    ∃ s', exec i s = .next s' ∧ Trapped s s' t vec 3 (BitVec.ofNat 64 (s.th t).widx) 0) ∧
  (∀ (s : State) (t : TId), Solo s t → Clear s t .unmig [] [] →
    ∃ s', exec .unmig s = .next s' ∧ MovesOn s s' t 1 ∧
      ((s.gr t.gid).hosted.isSome = true → (s'.gr t.gid).homing = true ∧
        ((s.gr t.gid).homing = false → Instr.groupReturn t.gid ∈ s'.events)) ∧
      ((s.gr t.gid).hosted = none → (s'.gr t.gid).homing = (s.gr t.gid).homing)) ∧
  (∀ (g : GId) (pav : Bool) (s : State), (s.group? g).isSome = true → (s.tm g.team).res = .resident → s.isSup g.team = false →
    (s.gr g).hosted = none → (s.gr g).shutter = some pav →
    ∃ s', exec (.shutterClose g) s = .next s' ∧
      ((s.tm g.team).stopping = true → s'.groups = s.groups ∧ Instr.shutterClose g ∈ s'.events) ∧
      (groupQuiet s g = false → s'.groups = s.groups ∧ Instr.shutterClose g ∈ s'.events) ∧
      ((s.tm g.team).stopping = false → groupQuiet s g = true → freeSlot s (clusterOf (s.gr g).core) = none →
        (s'.gr g).shutter = none ∧ (s'.gr g).hosted = none) ∧
      ((s.tm g.team).stopping = false → groupQuiet s g = true → ∀ h, freeSlot s (clusterOf (s.gr g).core) = some h →
        (s'.gr g).hosted = some h ∧ (s'.gr g).shutter = none ∧ (s'.gr g).active = false ∧
          ((s'.micro h.m).slot h.slot.toNat).gid = some g ∧ ((s'.micro h.m).slot h.slot.toNat).pav = pav)) ∧
  (∀ (g : GId) (h : Hosting) (s : State), (s.group? g).isSome = true → (s.gr g).hosted = some h →
    ∃ s', exec (.groupReturn g) s = .next s' ∧
      ((((s.micro h.m).slot h.slot.toNat).stop = true ∨ teamStops s g.team = true ∨ groupQuiet s g = false) →
        (s'.gr g).hosted = some h ∧ (s'.gr g).homing = true ∧ Instr.groupReturn g ∈ s'.events) ∧
      (((s.micro h.m).slot h.slot.toNat).stop = false → teamStops s g.team = false → groupQuiet s g = true →
        (s'.gr g).hosted = none ∧ (s'.gr g).homing = false ∧ ((s'.micro h.m).slot h.slot.toNat).gid = none)) ∧
  (∀ (a : VReg) (ps : List (BitVec 64 × Place)) (us : List Upd) (s : State) (t : TId), Solo s t → Clear s t (.wpset a) (pairOf a) [] →
    s.dbg t.team = true → ((s.th t).val64 a).toNat % 32 = 0 →
    piecePlaces (agentOf s t) .load 16 (sectorsFrom ((s.th t).val64 a) 32) s = (.ok ps, us) → (s.th t).wcBuf = none → Settled s →
    (∀ x ∈ ps, orderBars s (agentOf s t) x.2 = false ∧ Known x.2) →
    let bs := ps.flatMap fun x => placeBytes s (agentOf s t) x.2 16
    tripBad (fieldAt bs 0 8) (fieldAt bs 8 8) (fieldAt bs 24 4) (fieldAt bs 28 4) = false → s.isSup t.team = false →
    (s.gr t.gid).core < 768 →
    ∃ s', exec (.wpset a) s = .next s' ∧ MovesOn s s' t 1 ∧
      (s'.trip (s.gr t.gid).core).lo = BitVec.ofNat 64 (fieldAt bs 0 8) ∧ (s'.trip (s.gr t.gid).core).hi = BitVec.ofNat 64 (fieldAt bs 8 8) ∧
      (s'.trip (s.gr t.gid).core).value = BitVec.ofNat 64 (fieldAt bs 16 8) ∧
      (s'.trip (s.gr t.gid).core).ctl = BitVec.ofNat 32 (fieldAt bs 24 4) ∧
      (∀ c, s.ctxOf t.team = some c → (s'.trip (s.gr t.gid).core).asid = c.asid) ∧
      ∀ n, n ≠ (s.gr t.gid).core → s'.trip n = s.trip n) ∧
  (∀ (op : BitVec 2) (s : State) (t : TId), Solo s t → Clear s t (.trace op) [] [] →
    ∃ s', exec (.trace op) s = .next s' ∧ MovesOn s s' t 1 ∧ (Unhosted s t → s'.part.micros = s.part.micros) ∧
      ∀ h, (s.gr t.gid).hosted = some h → (s'.micro h.m).trctl = traceControl op h.slot
        (if (s.micro h.m).trctl.getLsbD 31 ∧ (s.micro h.m).trctl.getLsbD 28 = h.slot.getLsbD 0 then nextTrctl (s.micro h.m).trctl
         else (s.micro h.m).trctl)) ∧
  (∀ (m : Nat) (slot stop : BitVec 1) (s : State), m < 32 →
    ∃ s', exec (.hostStop m slot stop) s = .next s' ∧ s'.threads = s.threads ∧
      ((s'.micro m).slot slot.toNat).stop = (stop == 1#1) ∧ ((s'.micro m).slot slot.toNat).gid = ((s.micro m).slot slot.toNat).gid ∧
      ((s'.micro m).slot slot.toNat).hit =
        if stop = 1#1 ∧ ((s.micro m).slot slot.toNat).stop = false then none else ((s.micro m).slot slot.toNat).hit) ∧
  (∀ (m : Nat) (slot : BitVec 1) (s : State),
    ∃ s', exec (.hostStep m slot) s = .next s' ∧ (((s.micro m).slot slot.toNat).stop = false → s' = s) ∧
      (((s.micro m).slot slot.toNat).stop = true → ∀ g, ((s.micro m).slot slot.toNat).gid = some g →
        ∀ x ∈ s.threads, x.id.gid = g → (s'.th x.id).mayStep = true))

/-! ## Power, clocks, links, energy -/

/-- R261 to R265, R271, R268, R269, R288, R212, R263, R293, R254, R452: CYCLE counts at the ratio in effect; a period of 2,000 TIME
cycles ends with a ratio within the bounds, LOW without activity, and CEIL with AUTO = 0; a ratio change completes; a link sheds,
raises and completes a width, and retires a lane with 8 replays within 2^20 flits; an accumulator's low half latches its high half for
its reader, once; a write to a system register changes its writable fields; QUIESCE.
CYCLE is held in half cycles (log 17); the halves of a link are the model's choice (log 18). -/
def Obligations.PowerResults : Prop :=
  (∀ (s : State) (rest : List Turn) (c : Nat), s.sched = .tick :: rest → c < 16 →
    ∃ s', step s = .next s' ∧ (s'.cluster c).cur = (s.cluster c).cur ∧
      ((s.cluster c).target = none → (s.cluster c).dropped = none →
        ((s.cluster c).cur = 0#2 → (s'.cluster c).half = (s.cluster c).half + 9) ∧
        ((s.cluster c).cur = 1#2 → (s'.cluster c).half = (s.cluster c).half + 12) ∧
        ((s.cluster c).cur = 2#2 → (s'.cluster c).half = (s.cluster c).half + 15)) ∧
      (∀ r : BitVec 2, (s.cluster c).target = some r → (s.cluster c).dropped = none →
        (r = 0#2 ∨ (s.cluster c).cur = 0#2 → (s'.cluster c).half = (s.cluster c).half + 9))) ∧
  (∀ (c : Nat) (r : BitVec 2) (th : BitVec 1) (s : State), c < 16 →
    let k := s.cluster c
    ∃ s', exec (.ratioSelect c r th) s = .next s' ∧
      (s.time < k.since + 2000 → s' = s) ∧
      (k.since + 2000 ≤ s.time → k.auto = false → (s'.cluster c).since = s.time ∧ (s'.cluster c).issued = 0 ∧
        (s'.cluster c).cur = k.cur ∧ (s'.cluster c).target = k.target) ∧
      (k.since + 2000 ≤ s.time → k.auto = true → k.ceil ≠ 3#2 →
        let busy := 0 < k.issued ∧ periodSlots s c ≤ 2 * k.issued
        ((k.ceil.toNat < r.toNat ∨ (k.issued = 0 ∧ r ≠ 0#2) ∨ (k.pcap = 0#8 ∧ th = 0#1 ∧ r ≠ k.ceil ∧ busy) ∨
          (th = 0#1 ∧ r ≠ 0#2 ∧ withinCap s c r = false) ∨ (th = 1#1 ∧ (chosenRatio s c).toNat ≤ r.toNat)) → s' = s) ∧
        ((k.issued = 0 ∧ th = 0#1 ∧ r = 0#2) ∨ (k.pcap = 0#8 ∧ busy ∧ th = 0#1 ∧ r = k.ceil) ∨
            (k.pcap = 0#8 ∧ busy ∧ th = 1#1 ∧ r.toNat < k.ceil.toNat) ∨ (th = 0#1 ∧ r = chosenRatio s c) →
          (s'.cluster c).target.getD (s'.cluster c).cur = r ∧ (s'.cluster c).therm = (th == 1#1) ∧ (s'.cluster c).since = s.time ∧
            (s'.cluster c).issued = 0 ∧ (k.target.getD k.cur ≠ r → Instr.ratioChangeDone c ∈ s'.events)))) ∧
  (∀ (c : Nat) (s : State), c < 16 →
    ∃ s', exec (.ratioChangeDone c) s = .next s' ∧
      (∀ r, (s.cluster c).target = some r → (s'.cluster c).cur = r ∧ (s'.cluster c).target = none ∧ (s'.cluster c).dropped = none) ∧
      ((s.cluster c).target = none → s'.cluster c = s.cluster c)) ∧
  (∀ (d : BitVec 2) (l : BitVec 3) (s : State), l.toNat < 6 →
    let k := s.link d l
    (∃ s', exec (.linkWidthShed d l) s = .next s' ∧
      (k.shed = true → k.minw.toNat < k.width.toNat → k.down = false → k.target = none →
        (s'.link d l).target = some (k.width - 1#2) ∧ (s'.link d l).width = k.width ∧ Instr.linkWidthDone d l ∈ s'.events) ∧
      ((k.shed = false ∨ k.width.toNat ≤ k.minw.toNat) → s' = s)) ∧
    (∃ s', exec (.linkWidthRaise d l) s = .next s' ∧
      (k.shed = true → k.lanesOff = [] → k.width.toNat < 2 → k.minw.toNat ≤ k.width.toNat + 1 → k.down = false → k.target = none →
        (s'.link d l).target = some (k.width + 1#2) ∧ Instr.linkWidthDone d l ∈ s'.events) ∧
      (k.shed = false → k.lanesOff = [] → k.width.toNat < 2 → k.down = false → k.target = none →
        (s'.link d l).target = some 2#2 ∧ Instr.linkWidthDone d l ∈ s'.events)) ∧
    (∀ w : BitVec 2, k.target = some w → k.shed = true → k.lanesOff = [] → k.minw.toNat ≤ w.toNat → w.toNat ≤ 2 →
      ∃ s', exec (.linkWidthDone d l) s = .next s' ∧ (s'.link d l).width = w ∧ (s'.link d l).target = none)) ∧
  (∀ (d : BitVec 2) (l : BitVec 3) (lane : Nat) (s : State), l.toNat < 6 → lane < 16 → (s.link d l).down = false →
    let k := s.link d l
    let now := k.flits + 1 + Config.flitsSince s.free
    let rs := (lane, now) :: k.replays.filter fun r => now < r.2 + 2 ^ 20
    ∃ s', exec (.linkReplay d l lane) s = .next s' ∧ s'.free = s.free + 1 ∧ (s'.link d l).replays = rs ∧
      ((rs.filter fun r => r.1 == lane).length < 8 → (s'.link d l).lanesOff = k.lanesOff ∧ (s'.link d l).down = false) ∧
      (8 ≤ (rs.filter fun r => r.1 == lane).length → lane ∈ (s'.link d l).lanesOff)) ∧
  (∀ (acc agent : Nat) (s : State),
    ∃ s' s'', exec (.energyLowRead acc agent) s = .next s' ∧ exec (.energyHighRead acc agent) s' = .next s'' ∧
      (energyRead s acc agent false).1 = lo32 (s.energyOf acc) ∧ (energyRead s' acc agent true).1 = hi32 (s.energyOf acc) ∧
      (energyRead s'' acc agent true).1 = hi32 (s''.energyOf acc) ∧ s''.mem = s.mem) ∧
  (∀ (d i : Nat) (v : BitVec 64) (s : State), d < 4 →
    let base := 0x200000000000 + d * 0x10000
    (∃ s', exec (.sysregWrite (base + 0x100) v) s = .next s' ∧ (s'.die d).netctl = lo32 v &&& 0xC0FFFFF0#32) ∧
    (i < 4 → ∃ s', exec (.sysregWrite (base + 0x200 + 0x20 * i) v) s = .next s' ∧
      (s'.cluster (4 * d + i)).pcap = v.extractLsb' 16 8 ∧ (s'.cluster (4 * d + i)).auto = v.getLsbD 3 ∧
      (s'.cluster (4 * d + i)).ceil = (if v.extractLsb' 0 2 = 3#2 then (s.cluster (4 * d + i)).ceil else v.extractLsb' 0 2) ∧
      (v.getLsbD 3 = false → (s'.cluster (4 * d + i)).therm = false ∧
        (s'.cluster (4 * d + i)).target.getD (s'.cluster (4 * d + i)).cur = (s'.cluster (4 * d + i)).ceil) ∧
      (v.getLsbD 3 = true → (s.cluster (4 * d + i)).since = 0 →
        (s'.cluster (4 * d + i)).target.getD (s'.cluster (4 * d + i)).cur = if (s'.cluster (4 * d + i)).ceil = 0#2 then 0#2 else 1#2)) ∧
    (i < 6 → ∃ s', exec (.sysregWrite (base + 0x800 + 8 * i) v) s = .next s' ∧
      ((s'.die d).link i).shed = v.getLsbD 3 ∧ ((s'.die d).link i).width = ((s.die d).link i).width ∧
      ((s'.die d).link i).minw = if v.extractLsb' 0 2 = 3#2 then 2#2 else v.extractLsb' 0 2) ∧
    (i < 2 → ∃ s', exec (.sysregWrite (base + 0x600 + 0x40 * i) v) s = .next s' ∧
      ((s.position (2 * d + i)).mbcmd.getLsbD 31 = true → (s'.position (2 * d + i)).mbcmd = (s.position (2 * d + i)).mbcmd) ∧
      ((s.position (2 * d + i)).mbcmd.getLsbD 31 = false → (s'.position (2 * d + i)).mbcmd = lo32 v &&& 0x800000FF#32 ∧
        (v.getLsbD 31 = true → mailboxEvent (2 * d + i) (v.toNat % 256) ∈ s'.events)))) ∧
  (∀ (m : Nat) (v : BitVec 64) (s : State), m < 32 →
    ∃ s', exec (.sysregWrite (0x210000000000 + m * 0x400000) v) s = .next s' ∧
      (s'.micro m).trctl = ((s.micro m).trctl &&& 0x2FFFFFFF#32) ||| (lo32 v &&& 0xD0000000#32)) ∧
  (∀ (i : BitVec 3) (q : BitVec 1) (s : State),
    ∃ s', exec (.quiesce i q) s = .next s' ∧ (s'.position i.toNat).quiesce = (q == 1#1))

/-! ## Boot, mailboxes, base dies -/

/-- A mailbox command has ended with a status (R293). -/
def Ended (s' : State) (i st : Nat) : Prop :=
  (s'.position i).mbcmd.getLsbD 31 = false ∧ (s'.position i).mbstat = BitVec.ofNat 8 st

/-- The mailbox of a position has been asked for the command of a code (R293). -/
def Asked (s : State) (i code : Nat) : Prop :=
  (s.position i).mbcmd.getLsbD 31 = true ∧ mailboxEvent i ((s.position i).mbcmd.toNat % 256) = mailboxEvent i code

/-- R290 to R294, R296, R297, R301: COLD_POWER_ON verifies, measures and runs the images, and ends in BOOTST 3, or 0x80 when both copies
of one fail; a power loss leaves the flash and nothing else of memory; each mailbox command ends with its status, BUSY without the
quiesced state that it needs, which an outstanding access delays, and its effect; a syndrome record is kept, one of its CLASS and OFFSET
counted up; a completion completes its access, one with an error leaves its registers poisoned or is reported; NOP changes nothing; a reserved opcode logs a syndrome.
Keys and images are opaque (log 9), errors are marked sectors (log 15), buffer layouts are the model's (log 35). -/
def Obligations.PositionResults : Prop :=
  (∀ s : State, ∃ s', exec .coldPowerOn s = .next s' ∧ (s.part.bootst ≠ 0#8 → s' = s) ∧
    (s.part.bootst = 0#8 →
      (∀ i < 8, (s'.position i).disabled = !(s.position i).conforms) ∧
      (bootImage s 0 = none → s'.part.bootst = 0x80#8 ∧ s'.part.meas = 0#512) ∧
      (∀ a, bootImage s 0 = some a → bootImage s 1 = none → s'.part.bootst = 0x80#8 ∧
        s'.part.meas = BitVec.ofNat 512 (leNat (shake256 (List.replicate 64 0#8 ++ imageDigest a) 64))) ∧
      ((bootImage s 0).isSome = true → (bootImage s 1).isSome = true →
        (∀ i < 8, (s.position i).conforms = true → (bootImage s (i + 2)).isSome = true) → s'.part.bootst = 3#8))) ∧
  (∀ s : State, Safe s → ∃ s', exec .powerLoss s = .next s' ∧ s'.part.bootst = 0#8 ∧ s'.time = 0 ∧ s'.threads = State.reset.threads ∧
    ∀ a, s'.byte a = if 2 ^ 59 ≤ a ∧ a < 2 ^ 60 then s.byte a else 0#8) ∧
  (∀ (p : BitVec 3) (s : State),
    let i := p.toNat
    let x := s.position i
    (Asked s i 1 → ∃ s', exec (.mbIdent p) s = .next s' ∧ (bufferOk s i = false → Ended s' i 5 ∧ s'.mem = s.mem) ∧
      (bufferOk s i = true → Ended s' i 0 ∧ (s'.position i).disabled = !x.conforms ∧
        (Settled s → homeBytes s' (s.mbarg i) 64 = x.identity))) ∧
    (Asked s i 2 → ∃ s', exec (.synread p) s = .next s' ∧ (bufferOk s i = false → Ended s' i 5 ∧ (s'.position i).syn = x.syn) ∧
      (bufferOk s i = true → Ended s' i 0 ∧ (s'.position i).syn = [] ∧ (s'.position i).lost = 0 ∧
        (Settled s → homeBytes s' (s.mbarg i) 2056 = synBytes x))) ∧
    (Asked s i 3 → ∃ s', exec (.scrub p) s = .next s' ∧ s'.mem = s.mem ∧ Ended s' i (if bufferOk s i then 0 else 5) ∧
      (bufferOk s i = false → (s'.position i).syn = x.syn) ∧
      ∀ y ∈ (s'.position i).syn, y ∈ x.syn ∨ (y.cls = 0#8 ∧ leNat (homeBytes s (s.mbarg i) 8) ≤ y.offset.toNat ∧
        y.offset.toNat ≤ leNat (homeBytes s (s.mbarg i + 8) 8))) ∧
    (Asked s i 4 → ∃ s', exec (.rowrepair p) s = .next s' ∧ (s.quiesced i = false → Ended s' i 1) ∧
      (s.quiesced i = true → bufferOk s i = true → Ended s' i (if Config.sparesOut s.free then 4 else 0) ∧
        (Config.sparesOut s.free = false → ∀ o ∈ repairOffsets x (homeBytes s (s.mbarg i) 4096),
          ∀ b ∈ s'.part.bad, b / 8 ≠ (positionBase s i + o) / 128))) ∧
    (Asked s i 5 → ∃ s', exec (.seqload p) s = .next s' ∧ (s.quiesced i = false → Ended s' i 1) ∧
      (s.quiesced i = true → bufferOk s i = true →
        let buf := homeBytes s (s.mbarg i) 4096
        let img := buf.take (Config.imageLength (buf.take 64))
        (imageOk img = false → Ended s' i 3 ∧ s'.part.meas = s.part.meas) ∧
        (imageOk img = true → Ended s' i 0 ∧
          s'.part.meas = BitVec.ofNat 512 (leNat (shake256 (leBytes 64 s.part.meas.toNat ++ imageDigest img) 64))))) ∧
    (Asked s i 6 → ∃ s', exec (.mbReset p) s = .next s' ∧ (s.quiesced i = false → Ended s' i 1 ∧ s'.mem = s.mem) ∧
      (s.quiesced i = true → Ended s' i 0 ∧ (x.kind ≠ 1#8 → s'.mem = s.mem) ∧
        (Safe s → x.kind = 1#8 → ∀ a,
          s'.byte a = if i * 0x1000000000 ≤ a ∧ a < (i + 1) * 0x1000000000 then 0#8 else s.byte a))) ∧
    (Asked s i 0 → ∃ s', exec (.mbReserved p) s = .next s' ∧ Ended s' i 2 ∧ s'.mem = s.mem)) ∧
  (∀ (p : BitVec 3) (cls sect : BitVec 8) (off detail : BitVec 64) (s : State),
    let i := p.toNat
    ∃ s', exec (.tbiSyn p cls sect off detail) s = .next s' ∧
      ((∀ z ∈ (s.position i).syn, z.cls ≠ cls ∨ z.offset ≠ off) → (s.position i).syn.length < 64 →
        (s'.position i).syn = (s.position i).syn ++ [⟨cls, sect, 1#32, off, BitVec.ofNat 64 s.time, detail⟩] ∧
          (s'.position i).lost = (s.position i).lost) ∧
      (∀ z, ((s.position i).syn.find? fun z => z.cls == cls && z.offset == off) = some z →
        (s'.position i).syn.getLast? = some ⟨cls, z.sect ||| sect, z.count + 1#32, off, BitVec.ofNat 64 s.time, detail⟩ ∧
          ((s'.position i).syn.filter fun z => z.cls == cls && z.offset == off).length = 1) ∧
      (cls = 1#8 ∨ cls = 2#8 ∨ cls = 5#8 → Report.syndrome i ∈ s'.part.reports) ∧
      (cls = 1#8 ∨ cls = 5#8 → ∀ k < 8, sect.getLsbD k = true →
        (positionBase s i + off.toNat) / 128 * 8 + k ∈ s'.part.bad)) ∧
  (∀ (p : BitVec 3) (o : Op) (va : BitVec 64) (major l : Nat) (status : BitVec 2) (s : State), s.op? o.id = some o →
    o.job = .load va major ∨ o.job = .access va major → o.line = some l →
    ∃ s', exec (.tbiCmp p ⟨o.id, status⟩) s = .next s' ∧ (linePosition l = some p.toNat → s'.op? o.id = none) ∧
      (linePosition l ≠ some p.toNat → s' = s) ∧
      (linePosition l = some p.toNat → status ≠ 0#2 → o.job = .load va major → ∀ d, o.dlv = some d → (s.thread? o.t).isSome = true →
        ∀ k < d.n, ((s'.th o.t).reg (d.reg + BitVec.ofNat 7 k)).poison = true) ∧
      (linePosition l = some p.toNat → status ≠ 0#2 → o.job = .access va major →
        Report.fault va (if status = 2#2 then BitVec.ofNat 4 rMemerr else BitVec.ofNat 4 rTarget) ∈ s'.part.reports)) ∧
  (∀ (p : BitVec 3) (s : State), exec (.tbiNop p) s = .next s) ∧
  (∀ (p : BitVec 3) (n : BitVec 4) (s : State), ∃ s', exec (.tbiReservedOpcode p n) s = .next s' ∧ (n.toNat < 9 → s' = s) ∧
    (9 ≤ n.toNat → s'.free = s.free + 6 ∧ ∃ y ∈ (s'.position p.toNat).syn, y.time = BitVec.ofNat 64 s.time))

/-! ## The host -/

/-- R281: the request of entry `e` has been served: its STATUS, and DONEIDX past it. -/
def Answered (s s' : State) (e st : Nat) : Prop :=
  hostNum s' (entryAt s e + 4) 4 = st ∧ s'.part.doneidx = BitVec.ofNat 32 ((e + 1) % s.part.ringlen.toNat)

/-- Result `k` of an entry (R281). -/
def Given (s s' : State) (e k v : Nat) : Prop := hostNum s' (entryAt s e + 8 + 8 * k) 8 = v

/-- A launch request of entry `e` has answered with its status (R283, R384): 0 with the LAUNCHID of a launch that exists from then on. -/
def HostStarts (s s' : State) (e : Nat) (c : Ctx) (k : Option Kernel) (r : StartArgs) : Prop :=
  Answered s s' e (startStatus s c k r) ∧
  (startStatus s c k r ≠ 0 → s'.part.launches = s.part.launches) ∧
  (startStatus s c k r = 0 → (c.nextLaunch < 2 ^ 64 → Given s s' e 0 c.nextLaunch) ∧
    ∃ kern, k = some kern ∧ Starts s s' c kern r)

/-- R281 to R286, R298, R299, R303, R110, R296: a doorbell makes the part serve its ring; each request that is next in the ring answers
with its status and its results, and has its effect: a context is made, changed, ended; a module is loaded; host memory is mapped and a
range exported; a launch is started; the part attested; cells, positions and lanes taken out of use and back; reserved requests
answer so.
Some statuses of cases that the rules do not list are the model's (log 36). -/
def Obligations.HostRequestResults : Prop :=
  (∀ (base : BitVec 64) (len v : Word) (ws : List (Nat × Byte)) (s : State), Safe s → (ws.map Prod.fst).Nodup →
    ∃ s', exec (.hostDoorbell base len v ws) s = .next s' ∧ s'.part.ringbase = base ∧ s'.part.ringlen = len ∧ s'.part.doorbell = v ∧
      (s.part.ringbase = base → s.part.ringlen = len → s'.part.doneidx = s.part.doneidx) ∧
      (∀ w ∈ ws, w.1 < 2 ^ 46 → s'.byte (0x400000000000 + w.1) = w.2) ∧
      (∀ i, nextRequest s' = some i → i ∈ s'.events) ∧ Report.doorbell ∈ s'.part.reports) ∧
  (∀ (e : Nat) (s : State), Safe s →
    let gen := entryArg s e 0
    let mask := BitVec.ofNat 192 (entryArg s e 3 + 2 ^ 64 * entryArg s e 4 + 2 ^ 128 * entryArg s e 5)
    (nextRequest s = some (.ctxnew e) → ∃ s', exec (.ctxnew e) s = .next s' ∧
      ((gen = 0 ∨ 3 < gen ∨ mask = 0#192 ∨ mask &&& ~~~s.part.cellPresent ≠ 0#192) → Answered s s' e 0x100 ∧ s'.part.ctxs = s.part.ctxs) ∧
      (1 ≤ gen → gen ≤ 3 → mask ≠ 0#192 → mask &&& ~~~s.part.cellPresent = 0#192 →
        (freeCtx s = none ∨ freeFrame s = none → Answered s s' e 0x101 ∧ s'.part.ctxs = s.part.ctxs) ∧
        (∀ n f, freeCtx s = some n → freeFrame s = some f → Answered s s' e 0 ∧ Given s s' e 0 n ∧
          s'.ctx? n = some (newCtx n gen (entryArg s e 1 % 2 == 1) (entryArg s e 2) mask (f * 65536)) ∧
          (n, f) ∈ s'.part.frames))) ∧
    (nextRequest s = some (.attest e) → ∃ s', exec (.attest e) s = .next s' ∧
      (2 ^ 46 < entryArg s e 0 + 32 ∨ 2 ^ 46 < entryArg s e 1 + 228 → Answered s s' e 0x100) ∧
      (entryArg s e 0 + 32 ≤ 2 ^ 46 → entryArg s e 1 + 228 ≤ 2 ^ 46 → Answered s s' e 0 ∧
        (entryArg s e 1 + 228 ≤ entryAt s e ∨ entryAt s e + 64 ≤ entryArg s e 1 →
          hostBytes s' (entryArg s e 1) 112 = attestBytes s (hostBytes s (entryArg s e 0) 32)))) ∧
    (nextRequest s = some (.recoveryLoad e) →
      let n := entryArg s e 1
      let img := hostBytes s (entryArg s e 0) n
      ∃ s', exec (.recoveryLoad e) s = .next s' ∧
        (n < 178 ∨ 2 ^ 24 < n ∨ 2 ^ 46 < entryArg s e 0 + n → Answered s s' e 0x100) ∧
        (178 ≤ n → n ≤ 2 ^ 24 → entryArg s e 0 + n ≤ 2 ^ 46 →
          (imageOk img = false → Answered s s' e 0x102 ∧ s'.part.bootst = s.part.bootst) ∧
          (imageOk img = true → Answered s s' e 0 ∧ s'.bytes (flashKey (bootPlace 0 1)) n = img ∧
            (s'.part.bootst = 3#8 ∨ s'.part.bootst = 0x80#8)))) ∧
    (nextRequest s = some (.celloff e) → ∃ s', exec (.celloff e) s = .next s' ∧
      let cell := entryArg s e 1
      (192 ≤ cell ∨ s.part.cellPresent.getLsbD cell = false → Answered s s' e 0x100) ∧
      (s.part.cellPresent.getLsbD cell = true → s.part.cellOff.getLsbD cell = false → lastCell s cell = true →
        Answered s s' e 0x101 ∧ s'.part.cellOff = s.part.cellOff) ∧
      (s.part.cellPresent.getLsbD cell = true → lastCell s cell = false → s'.part.cellOff.getLsbD cell = true ∧
        (teamsOnCell s cell = [] → Answered s s' e 0) ∧
        (∀ x ∈ teamsOnCell s cell, (∀ y ∈ teamsOnCell s cell, teamQuiet s y.key = false) →
          (x.res = .resident → (∃ y ∈ s.threads, y.id.team = x.key ∧ y.live = true) → (s'.tm x.key).stopping = true) ∧
            Instr.celloff e ∈ s'.events))) ∧
    (nextRequest s = some (.cellon e) → ∃ s', exec (.cellon e) s = .next s' ∧
      (192 ≤ entryArg s e 1 ∨ s.part.cellPresent.getLsbD (entryArg s e 1) = false → Answered s s' e 0x100) ∧
      (s.part.cellPresent.getLsbD (entryArg s e 1) = true → Answered s s' e 0 ∧ s'.part.cellOff.getLsbD (entryArg s e 1) = false)) ∧
    (nextRequest s = some (.drain e) → ∃ s', exec (.drain e) s = .next s' ∧
      (8 ≤ entryArg s e 1 → Answered s s' e 0x100) ∧
      (entryArg s e 1 < 8 → framesOn s (entryArg s e 1) = [] → Answered s s' e 0 ∧ (s'.position (entryArg s e 1)).draining = true ∧
        (s'.position (entryArg s e 1)).quiesce = true)) ∧
    (nextRequest s = some (.undrain e) → ∃ s', exec (.undrain e) s = .next s' ∧
      (8 ≤ entryArg s e 1 → Answered s s' e 0x100) ∧
      (entryArg s e 1 < 8 → Answered s s' e 0 ∧ (s'.position (entryArg s e 1)).draining = false ∧
        (s'.position (entryArg s e 1)).quiesce = false)) ∧
    (nextRequest s = some (.laneoff e) → ∃ s', exec (.laneoff e) s = .next s' ∧
      let v := entryArg s e 1
      (16 ≤ v % 256 ∨ 6 ≤ v / 2 ^ 8 % 256 ∨ 4 ≤ v / 2 ^ 16 → Answered s s' e 0x100) ∧
      (v % 256 < 16 → v / 2 ^ 8 % 256 < 6 → v / 2 ^ 16 < 4 → Answered s s' e 0 ∧
        v % 256 ∈ ((s'.die (v / 2 ^ 16)).link (v / 2 ^ 8 % 256)).lanesOff)) ∧
    (nextRequest s = some (.serviceReserved e) → ∃ s', exec (.serviceReserved e) s = .next s' ∧ Answered s s' e 0x100) ∧
    (nextRequest s = some (.reservedRequest e) → ∃ s', exec (.reservedRequest e) s = .next s' ∧ Answered s s' e 0xFFFFFFFF)) ∧
  (∀ (e : Nat) (i : Instr) (s : State), Safe s →
    i ∈ [.ctxend e, .ctxset e, .load e, .mtcload e, .maphost e, .exportMem e, .hostLaunch e] → nextRequest s = some i →
    s.ctx? (entryCtx s e) = none → ∃ s', exec i s = .next s' ∧ Answered s s' e 0x100) ∧
  (∀ (e : Nat) (c : Ctx) (s : State), Safe s → s.ctx? (entryCtx s e) = some c →
    (nextRequest s = some (.ctxend e) → ∃ s', exec (.ctxend e) s = .next s' ∧
      ((∀ l ∈ s.part.launches, l.ctx = c.num → l.done = 0#64) → Answered s s' e 0 ∧ s'.ctx? c.num = none ∧
        ∀ l ∈ s'.part.launches, l.ctx ≠ c.num) ∧
      ((s'.ctx? c.num = none ∧ (∀ l ∈ s'.part.launches, l.ctx ≠ c.num) ∧ Answered s s' e 0) ∨ Instr.ctxend e ∈ s'.events)) ∧
    (nextRequest s = some (.ctxset e) → ∃ s', exec (.ctxset e) s = .next s' ∧
      let v := entryArg s e 1
      let sel := entryArg s e 0
      ((sel = 1 ∨ sel = 2) → v < 2 ^ 56 → v % 4 = 0 → Answered s s' e 0 ∧
        (s'.ctx? c.num).map (fun d => if sel = 1 then d.trapvec else d.emuvec) = some (BitVec.ofNat 64 v)) ∧
      (sel = 3 → 0x100 ≤ v → v ≤ 0xFFFFFFFF → Answered s s' e 0 ∧ (s'.ctx? c.num).map Ctx.waitThr = some v) ∧
      (sel = 4 → Answered s s' e 0 ∧ (s'.ctx? c.num).map Ctx.quota = some v) ∧
      ((sel = 0 ∨ 4 < sel ∨ ((sel = 1 ∨ sel = 2) ∧ (2 ^ 56 ≤ v ∨ v % 4 ≠ 0)) ∨ (sel = 3 ∧ (v < 0x100 ∨ 0xFFFFFFFF < v))) →
        Answered s s' e 0x100 ∧ s'.part.ctxs = s.part.ctxs)) ∧
    (nextRequest s = some (.load e) → entryArg s e 0 + entryArg s e 1 ≤ 2 ^ 46 → ∃ s', exec (.load e) s = .next s' ∧
      let r := loadModule s c (hostBytes s (entryArg s e 0) (entryArg s e 1))
      Answered s s' e r.1 ∧ s'.part.ctxs = (s.applyAll r.2).part.ctxs ∧ ∀ a < 0x400000000000, s'.byte a = (s.applyAll r.2).byte a) ∧
    (nextRequest s = some (.mtcload e) → entryArg s e 0 + entryArg s e 1 ≤ 2 ^ 46 → ∃ s', exec (.mtcload e) s = .next s' ∧
      let r := mtcLoad s c (hostBytes s (entryArg s e 0) (entryArg s e 1))
      Answered s s' e r.1 ∧ (r.1 = 4 → Given s s' e 1 r.2.1) ∧ s'.part.ctxs = (s.applyAll r.2.2).part.ctxs ∧
        s'.part.store = (s.applyAll r.2.2).part.store) ∧
    (nextRequest s = some (.maphost e) → ∃ s', exec (.maphost e) s = .next s' ∧
      let va := entryArg s e 2
      let n := entryArg s e 1
      let pte : Nat → Nat := fun i => leafPte (entryArg s e 3 / 4) ((hostBase + entryArg s e 0) / 65536 + i) false false (homeOfCtx c)
        (entryArg s e 3 % 4)
      (mapRefused c e s = true → Answered s s' e 0x100 ∧ s'.part.ctxs = s.part.ctxs) ∧
      (mapRefused c e s = false → ∀ us, mapPages c va pte (List.range (n / 65536)) s = some us → Answered s s' e 0 ∧
        (s'.ctx? c.num).map Ctx.ranges = some (if n = 0 then c.ranges else (va, n) :: c.ranges) ∧
        ∀ a < 0x400000000000, s'.byte a = (s.applyAll us).byte a)) ∧
    (nextRequest s = some (.exportMem e) → ∃ s', exec (.exportMem e) s = .next s' ∧
      let va := entryArg s e 0
      let n := entryArg s e 1
      let dec := entryArg s e 2
      let bad := va % 2 ^ 28 ≠ 0 ∨ n % 2 ^ 28 ≠ 0 ∨ n = 0 ∨ 0xFF000000000000 < va + n ∨ 7 < dec ∨
        ∃ x ∈ c.leavesIn s va n, x.barsExport = true
      (bad → Answered s s' e 0x100 ∧ s'.part.ctxs = s.part.ctxs) ∧
      (¬ bad → Answered s s' e 0 ∧ (dec, BitVec.ofNat 64 va, n) ∈ ((s'.ctx? c.num).map Ctx.exports).getD [] ∧
        ∀ d ∈ s'.part.ctxs, d.num ≠ c.num → ∀ x ∈ d.exports, x.1 ≠ dec)) ∧
    (nextRequest s = some (.hostLaunch e) → entryArg s e 4 % 8 = 0 → ∃ s', exec (.hostLaunch e) s = .next s' ∧
      HostStarts s s' e c ((launchName s (entryArg s e 0)).bind fun name => (c.kernels.filter fun k => k.name == name).getLast?)
        ⟨entryArg s e 1, BitVec.ofNat 64 (entryArg s e 2), BitVec.ofNat 64 (entryArg s e 3), entryArg s e 4, c.part, none⟩)) ∧
  (∀ (dec : BitVec 3) (off : Nat) (v : BitVec 64) (s : State),
    (∃ s', exec (.hostCxlRead dec off) s = .next s' ∧ (exportedAt s dec.toNat (off / 128 * 128) = none → s' = s) ∧
      ∀ c va, exportedAt s dec.toNat (off / 128 * 128) = some (c, va) →
        (∀ p us, pageFor s c hostIssuer true false .load va 128 = (.ok p, us) → p.pa / 128 ∈ s'.part.hostHeld ∧
          s'.part.hostRead = some (homeBytes s (p.pa / 128 * 128) 128, false)) ∧
        (∀ r us, pageFor s c hostIssuer true false .load va 128 = (.error r, us) → Report.exportFault c.num ∈ s'.part.reports ∧
          s'.part.hostRead = some ([], true))) ∧
    (∃ s', exec (.hostCxlWrite dec off v) s = .next s' ∧ (exportedAt s dec.toNat (off / 8 * 8) = none → s' = s) ∧
      ∀ c va, exportedAt s dec.toNat (off / 8 * 8) = some (c, va) →
        (∀ p, Settled s → pageFor s c hostIssuer true false .store va 8 = (.ok p, []) → Plain (.page p) → va % 8 = 0 →
          homeBytes s' p.pa 8 = leBytes 8 v.toNat) ∧
        (∀ p us w, pageFor s c hostIssuer true false .store va 8 = (.ok p, us) →
          ctxWrite (s.applyAll us) c.num p.home p (leBytes 8 v.toNat) = .error w → Instr.hostCxlWrite dec off v ∈ s'.events) ∧
        (∀ r us, pageFor s c hostIssuer true false .store va 8 = (.error r, us) → Report.exportFault c.num ∈ s'.part.reports ∧ s'.mem = s.mem)))

/-! ## The resident kernel -/

/-- R153 to R158, R236, R240, R386, R438: an unbacked page takes a free frame; a quota rises and is told no more; a page moves to
another home when its lines can; an offered fault is answered, its thread going on at its instruction; a team that a fault has stopped
is resumed where it fits once it is saved, or ends its launch.
What the resident kernel decides is an argument; frames are the model's (log 23), a resident page keeps the translation of the access that waits (log 24). -/
def Obligations.KernelResults : Prop :=
  (∀ (ctx va frame : Nat) (c : Ctx) (x : PtEntry) (s : State), s.ctx? ctx = some c → c.leafAt s va = some x →
    ∃ s', exec (.uevictConversion ctx va frame) s = .next s' ∧
      (pteBit x.bits 58 = true → frame % x.frames = 0 → (∀ i < x.frames, frameFree s (frame + i) = true) →
        (∀ i < x.frames, (c.num, frame + i) ∈ s'.part.frames) ∧
        (Settled s → homeBytes s' x.place 8 = leBytes 8 (backedPte x.bits frame))) ∧
      (pteBit x.bits 58 = true → (frame % x.frames ≠ 0 ∨ ∃ i < x.frames, frameFree s (frame + i) = false) → s' = s) ∧
      (pteBit x.bits 58 = false → s'.mem = s.mem ∧ s'.part.frames = s.part.frames ∧
        Report.uevict ctx (BitVec.ofNat 64 va) ∉ s'.part.reports)) ∧
  (∀ (ctx quota : Nat) (vs : List Nat) (c : Ctx) (s : State), s.ctx? ctx = some c →
    ∃ s', exec (.uquotaService ctx quota vs) s = .next s' ∧ (s'.ctx? ctx).map Ctx.quota = some (max c.quota quota) ∧
      Report.uquota ctx ∉ s'.part.reports) ∧
  (∀ (ctx va : Nat) (home : BitVec 2) (c : Ctx) (x : PtEntry) (s : State), s.ctx? ctx = some c → c.leafAt s va = some x →
    ∃ s', exec (.pageMigrate ctx va home) s = .next s' ∧ (x.home = home.toNat → s' = s) ∧
      (x.home ≠ home.toNat → stuckLines s home.toNat x ≠ [] → Instr.pageMigrate ctx va home ∈ s'.events ∧
        Report.uevict ctx (BitVec.ofNat 64 (va / 65536 * 65536)) ∈ s'.part.reports ∧ s'.mem = s.mem) ∧
      (x.home ≠ home.toNat → stuckLines s home.toNat x = [] → Settled s → x.bits < 2 ^ 64 →
        homeBytes s' x.place 8 = leBytes 8 (x.bits % 2 ^ 60 + home.toNat * 2 ^ 60 + x.bits / 2 ^ 62 * 2 ^ 62))) ∧
  (∀ (t : TId) (pte va : BitVec 64) (reason : BitVec 4) (s : State), (s.thread? t).isSome = true → (s.th t).run = .offered va reason →
    (∃ s', exec (.faultResolved t false pte) s = .next s' ∧ (s'.th t).run = .running ∧ (s'.th t).denied = true ∧
      (s'.th t).pc = (s.th t).pc ∧ (s'.th t).widx = (s.th t).widx ∧ s'.mem = s.mem) ∧
    (∀ c x, s.ctxOf t.team = some c → c.leafAt s va.toNat = some x → frameFree s (pteFrame pte.toNat / 65536) = false → Settled s →
      ∃ s', exec (.faultResolved t true pte) s = .next s' ∧ (s'.th t).run = .running ∧ (s'.th t).denied = false ∧
        homeBytes s' x.place 8 = leBytes 8 pte.toNat ∧
        ∀ y ∈ s'.part.tlb, y.asid = c.asid → y.vpn ≠ va.toNat / pageSize y.level)) ∧
  (∀ (x : Team) (cause tid : Nat) (s : State), s.team? x.key = some x → x.res = .faulted cause tid →
    (x.sup.isSome = true → ∃ s', exec (.teamFaultService x.key true) s = .next s' ∧ (s'.team? x.key).map Team.res = some .resident ∧
      Report.teamFault x.key cause ∉ s'.part.reports) ∧
    (x.sup = none → x.off = false → ∀ b, ∃ s', exec (.teamFaultService x.key b) s = .next s' ∧ s'.threads = s.threads ∧ s'.teams = s.teams ∧
      Instr.teamFaultService x.key b ∈ s'.events) ∧
    (∀ p f, x.sup = none → x.off = true → placeOld s x = some (p, f) →
      ∃ s', exec (.teamFaultService x.key true) s = .next s' ∧ (s'.team? x.key).map Team.res = some .resident ∧
        (s'.team? x.key).map Team.cores = some (placeCores x.cores.length p) ∧ Report.teamFault x.key cause ∉ s'.part.reports) ∧
    (∀ l, s.launch? x.launch = some l → x.sup = none → x.off = true → l.done = 0#64 →
      ∃ s', exec (.teamFaultService x.key false) s = .next s' ∧ s'.launch? l.key = none ∧ s'.team? x.key = none ∧
        ∀ y ∈ s'.threads, y.id.team ≠ x.key))

/-! ## The causes before an instruction's own effect, and issue groups -/

/-- The instructions whose causes are stated together: arithmetic, comparisons, loads, stores, atomics, branches, and the register-only
ones. -/
def StatedForm (i : Instr) : Prop :=
  (intEffect i).isSome = true ∨ (fmtEffect i).isSome = true ∨ (predEffect i).isSome = true ∨ (accessForm i).isSome = true ∨
    (otherWrites i).isSome = true ∨ (∃ neg p a, i = .brx neg p a) ∨ (∃ a, i = .ret a) ∨ (∃ a sel, i = .sets a sel)

/-- R55: an access is not held by its wait counter. -/
def CounterFree (s : State) (t : TId) (i : Instr) : Prop := ∀ f, accessForm i = some f → (s.gr t.gid).counter f.wc ≠ 63#6

/-- R149: the registers whose poison an access or a SETS consumes. -/
def regsEaten (i : Instr) : List VReg := match accessForm i, i with
  | some f, _ => f.eats
  | none, .sets a sel => if special64 sel then pairOf a else [a]
  | none, _ => []

/-- R149: the thread takes PFAULT for the poison record `k`. -/
def PoisonTrapped (s s' : State) (t : TId) (vec : BitVec 64) (k : BitVec 3) : Prop :=
  (∀ h : 1 ≤ k.toNat ∧ k.toNat ≤ 4, let r := (s.th t).recs[k.toNat - 1]'(by omega)
    Trapped s s' t vec 5 r.addr r.reason.toNat) ∧
  (k.toNat = 0 ∨ 4 < k.toNat → Trapped s s' t vec 5 0xFFFFFFFFFFFFFFFF#64 0)

/-- R246: the trip register of a thread's core, of its ASID, matches an access or an instruction: its kind (1 store, 2 atomic, 3
instruction), address, bytes and value; `act` is its ACT. -/
def TripMatches (s : State) (t : TId) (kind addr n val act : Nat) : Prop :=
  let r := s.trip (s.gr t.gid).core
  let size := match r.ctl.toNat / 64 % 4 with
    | 0 => 4
    | 1 => 8
    | 2 => 2
    | _ => 1
  let equal := val % 256 ^ n = r.value.toNat % 256 ^ n
  Unhosted s t ∧ s.isSup t.team = false ∧ (∃ c, s.ctxOf t.team = some c ∧ r.asid = c.asid) ∧ 1 ≤ kind ∧ r.ctl.toNat % 4 = kind ∧
    r.lo.toNat ≤ (if kind = 3 then addr else addr + n - 1) ∧ addr ≤ r.hi.toNat ∧
    (r.ctl.toNat / 16 % 4 = 0 ∨ (size = n ∧ ((r.ctl.toNat / 16 % 4 = 1 ∧ equal) ∨ (r.ctl.toNat / 16 % 4 = 2 ∧ ¬ equal)))) ∧
    r.ctl.toNat / 4 % 4 = act

/-- R246: under ONCE, a trip that has fired is off. -/
def TripFired (s s' : State) (t : TId) : Prop :=
  let core := (s.gr t.gid).core
  ((s.trip core).ctl.getLsbD 8 = true → (s'.trip core).ctl.toNat % 4 = 0) ∧ ((s.trip core).ctl.getLsbD 8 = false → s'.trip core = s.trip core)

/-- R234: thread `t` has executed its instruction and then taken WATCH: it resumes at its next word. -/
structure WatchedAfter (s s' : State) (t : TId) (len : Nat) (vec val : BitVec 64) : Prop where
  stand : JumpsTo s' t vec
  tpc : (s'.th t).tpc = ((s.th t).step len).pc &&& 0x00FFFFFFFFFFFFFF#64
  tval : (s'.th t).tval = val
  tcause : (s'.th t).tcause = tcauseOf true (decide (0 < ((s.th t).step len).ifpN))
    (decide (0 < ((s.th t).step len).ifpN) && ((s.th t).step len).ifpG) 0 ((s.th t).step len).widx 11

/-- R25, R149, R234, R235, R237, R240, R246, R247, R372: the causes of the instructions named in `StatedForm`, in the order of R235: WATCH on
the instruction's address; ILLEGAL for a register at or beyond the allocation, with the first such register; PFAULT for consumed poison, with
its record. Where a handler runs, or no vector is set, the team faults instead and the resident kernel is told. WATCH on a store
follows the access. A shutter closes on the group that an ACT 1 or 2 matches, or WATCH with REASON 2 is raised. GROW past 128 raises GROWFAIL. -/
def Obligations.TrapCauses : Prop :=
  (∀ (i : Instr) (s : State) (t : TId) (r : Nat), StatedForm i → CounterFree s t i → Solo s t →
    matchHere s t (s.th t).wordAt.toNat i.word = none →
    beyond s t i = some r → (∀ c, (s.th t).clause = some c → (s.th t).widx ≤ c.count) →
    ∃ s', exec i s = .next s' ∧
      ((s.th t).inh = false → (s.gr t.gid).emuvec ≠ 0#64 → Trapped s s' t (s.gr t.gid).emuvec 1 (BitVec.ofNat 64 r) 0) ∧
      ((s.th t).inh = true ∨ (s.gr t.gid).emuvec = 0#64 → (s.team? t.team).isSome = true →
        let code := if (s.th t).inh then 4 else 1
        (s'.team? t.team).map Team.res = some (.faulted code (s.tid t)) ∧ Report.teamFault t.team code ∈ s'.part.reports)) ∧
  (∀ (i : Instr) (vec : BitVec 64) (k : BitVec 3) (s : State) (t : TId), i.wf = true → StatedForm i → CounterFree s t i → Solo s t →
    matchHere s t (s.th t).wordAt.toNat i.word = none → beyond s t i = none →
    (s.th t).poisoned (regsEaten i) = some k → Vectored s t vec → ∃ s', exec i s = .next s' ∧ PoisonTrapped s s' t vec k) ∧
  (∀ (i : Instr) (p : PReg) (vec : BitVec 64) (s : State) (t : TId), (predsEaten i = [p] ∨ ∃ neg a, i = .brx neg p a) → Solo s t →
    matchHere s t (s.th t).wordAt.toNat i.word = none → beyond s t i = none →
    ((s.th t).pred p).poison = true → Vectored s t vec → ∃ s', exec i s = .next s' ∧ PoisonTrapped s s' t vec ((s.th t).pred p).idx) ∧
  (∀ (i : Instr) (a : VReg) (vec : BitVec 64) (k : BitVec 3) (s : State) (t : TId),
    (i = .ret a ∨ ∃ neg p, i = .brx neg p a ∧ taken (s.th t) p neg) → Solo s t → Clear s t i [] (match i with
      | .brx _ p _ => [p]
      | _ => []) →
    (s.th t).poisoned [a, a + 1#7] = some k → Vectored s t vec → ∃ s', exec i s = .next s' ∧ PoisonTrapped s s' t vec k) ∧
  (∀ (i : Instr) (vec : BitVec 64) (act : Nat) (s : State) (t : TId), StatedForm i → CounterFree s t i → Solo s t →
    (s.th t).noMatch = false → (s.th t).rep = none → TripMatches s t 3 (s.th t).wordAt.toNat 4 i.word.toNat act → Vectored s t vec →
    ∃ s', exec i s = .next s' ∧
      (act = 0 → Trapped s s' t vec 11 (s.th t).wordAt 0 ∧ TripFired s s' t) ∧
      (1 ≤ act → act ≤ 2 → (s.gr t.gid).shutter = none → slotOffered s (clusterOf (s.gr t.gid).core) = false →
        Trapped s s' t vec 11 (s.th t).wordAt 2 ∧ TripFired s s' t) ∧
      (1 ≤ act → act ≤ 2 → (s.gr t.gid).shutter = none → slotOffered s (clusterOf (s.gr t.gid).core) = true → i = .nop →
        MovesOn s s' t 1 ∧ (s'.gr t.gid).shutter = some (decide (act = 2)) ∧ Instr.shutterClose t.gid ∈ s'.events ∧ TripFired s s' t)) ∧
  (∀ (i : Instr) (f : StoreForm) (pl : Place) (vec : BitVec 64) (s : State) (t : TId), storeForm i = some f → Solo s t →
    Clear s t i (pairOf f.a ++ loadRegs f.d f.n) [] →
    let va := (s.th t).val64 f.a + f.off.signExtend 64
    let v := if f.n = 8 then ((s.th t).val64 f.d).toNat else ((s.th t).val f.d).toNat
    Reaches s t .store f.wc va f.n pl → (s.th t).wcBuf = none → Settled s → Writable s t pl f.cp → pl.combines = false →
    TripMatches s t 1 va.toNat f.n (v % 256 ^ f.n) 0 → Vectored s t vec →
    ∃ s', exec i s = .next s' ∧ WatchedAfter s s' t i.len vec va ∧ TripFired s s' t ∧ Stored s s' pl (leBytes f.n v)) ∧
  ∀ (p : PReg) (m : BitVec 8) (vec : BitVec 64) (s : State) (t : TId), Solo s t → Clear s t (.grow p m) [] [] → 128 < m.toNat →
    Vectored s t vec → ∃ s', exec (.grow p m) s = .next s' ∧ Trapped s s' t vec 16 (m.setWidth 64) 0

/-- R15, R46: an arithmetic instruction of an issue group acts on each of its threads as if alone: each one's destination takes the value from its
own registers, and each moves on. -/
def Obligations.GroupsActAlone : Prop :=
  ∀ (i : Instr) (e : AluEffect) (s : State), intEffect i = some e ∨ fmtEffect i = some e → Safe s → s.cur.ths.Nodup →
    (∀ t ∈ s.cur.ths, t.gid = s.cur.gid ∧ (s.thread? t).isSome = true ∧ Clear s t i [] []) → (s.group? s.cur.gid).isSome = true →
    (s.gr s.cur.gid).hosted = none →
    ∃ s', exec i s = .next s' ∧
      (∀ t ∈ s.cur.ths, (s'.th t).reg e.d = resultOf (s.th t) e.srcs (e.val (s.th t) (s.gr t.gid)) ∧ MovesOn s s' t i.len ∧
        ∀ r, r ≠ e.d → (s'.th t).reg r = (s.th t).reg r) ∧
      (∀ u, u ∉ s.cur.ths → s'.th u = s.th u) ∧ s'.mem = s.mem
end

