-- ==== Sys2Proof/Laws/Memory.lean ====
section
/-! SUPPORT. The byte stores: a write is read back, other keys keep their bytes, and every operation keeps the canonical
form. -/

namespace Sys2Proof.Machine

/-! ## Reading after writing -/

theorem Memory.get_of_lt {lo : Nat} : ∀ {m : List Host.Cell} {a : Nat}, Memory.wfFrom lo m = true → a < lo → Memory.get m a = 0#8
  | [], _, _, _ => rfl
  | (b, v) :: m, a, h, ha => by
    simp only [Memory.wfFrom, Bool.and_eq_true, decide_eq_true_eq] at h
    have : b ≠ a := by omega
    simp only [Memory.get, if_neg this]
    exact Memory.get_of_lt h.2 (by omega)

theorem Memory.get_set_ne : ∀ (m : List Host.Cell) (a b : Nat) (v : Byte), a ≠ b → Memory.get (Memory.set m a v) b = Memory.get m b
  | [], a, b, v, h => by
    by_cases hv : v = 0#8 <;> simp [Memory.set, Memory.get, hv, h]
  | (c, x) :: m, a, b, v, h => by
    simp only [Memory.set]
    split
    · split <;> simp [Memory.get, h]
    · split
      · rename_i hac; subst hac
        split <;> simp [Memory.get, h]
      · by_cases hcb : c = b <;> simp [Memory.get, hcb, Memory.get_set_ne m a b v h]

theorem Memory.get_set_self {lo : Nat} :
    ∀ {m : List Host.Cell} (a : Nat) (v : Byte), Memory.wfFrom lo m = true → Memory.get (Memory.set m a v) a = v
  | [], a, v, _ => by
    by_cases hv : v = 0#8 <;> simp [Memory.set, Memory.get, hv]
  | (c, x) :: m, a, v, h => by
    simp only [Memory.wfFrom, Bool.and_eq_true, decide_eq_true_eq] at h
    simp only [Memory.set]
    split
    · rename_i hac
      split
      · rename_i hv
        have : c ≠ a := by omega
        simp only [Memory.get, if_neg this, hv]
        exact Memory.get_of_lt h.2 (by omega)
      · simp [Memory.get]
    · split
      · rename_i hac; subst hac
        split
        · rename_i hv; rw [hv]; exact Memory.get_of_lt h.2 (by omega)
        · simp [Memory.get]
      · rename_i hne
        have : c ≠ a := by omega
        simp only [Memory.get, if_neg this]
        exact Memory.get_set_self a v h.2

/-- A list of writes leaves the keys that it does not name. -/
theorem Memory.get_setAll_of_notMem : ∀ (ws : List (Nat × Byte)) (m : List Host.Cell) (b : Nat),
    (∀ w ∈ ws, w.1 ≠ b) → Memory.get (Memory.setAll m ws) b = Memory.get m b
  | [], _, _, _ => rfl
  | (a, v) :: ws, m, b, h => by
    simp only [Memory.setAll]
    rw [Memory.get_setAll_of_notMem ws _ b fun w hw => h w (List.mem_cons_of_mem _ hw)]
    exact Memory.get_set_ne m a b v (h (a, v) List.mem_cons_self)

/-! ## The canonical form -/

theorem Memory.wfFrom_mono {lo lo' : Nat} : ∀ {m : List Host.Cell}, lo' ≤ lo → Memory.wfFrom lo m = true → Memory.wfFrom lo' m = true
  | [], _, _ => rfl
  | (a, v) :: m, hl, h => by
    simp only [Memory.wfFrom, Bool.and_eq_true, decide_eq_true_eq] at h ⊢
    exact ⟨⟨by omega, h.1.2⟩, h.2⟩

theorem Memory.wfFrom_set : ∀ {m : List Host.Cell} {lo a : Nat} {v : Byte},
    Memory.wfFrom lo m = true → lo ≤ a → Memory.wfFrom lo (Memory.set m a v) = true
  | [], lo, a, v, _, ha => by
    by_cases hv : v = 0#8 <;> simp [Memory.set, Memory.wfFrom, hv, ha]
  | (c, x) :: m, lo, a, v, h, ha => by
    have h' := h
    simp only [Memory.wfFrom, Bool.and_eq_true, decide_eq_true_eq] at h'
    simp only [Memory.set]
    split
    · rename_i hac
      split
      · exact h
      · rename_i hv
        simp only [Memory.wfFrom, Bool.and_eq_true, decide_eq_true_eq, bne_iff_ne, ne_eq]
        exact ⟨⟨ha, hv⟩, ⟨by omega, by simpa using h'.1.2⟩, h'.2⟩
    · split
      · rename_i hac; subst hac
        split
        · exact Memory.wfFrom_mono (by omega) h'.2
        · rename_i hv
          simp only [Memory.wfFrom, Bool.and_eq_true, decide_eq_true_eq, bne_iff_ne, ne_eq]
          exact ⟨⟨ha, hv⟩, h'.2⟩
      · rename_i h1 h2
        simp only [Memory.wfFrom, Bool.and_eq_true, decide_eq_true_eq]
        exact ⟨⟨h'.1.1, h'.1.2⟩, Memory.wfFrom_set h'.2 (by omega)⟩

/-- A write keeps the canonical form. -/
theorem Memory.wf_set {m : List Host.Cell} (a : Nat) (v : Byte) (h : Memory.wf m = true) : Memory.wf (Memory.set m a v) = true :=
  Memory.wfFrom_set h (Nat.zero_le a)

/-- A list of writes keeps the canonical form. -/
theorem Memory.wf_setAll : ∀ (ws : List (Nat × Byte)) {m : List Host.Cell}, Memory.wf m = true → Memory.wf (Memory.setAll m ws) = true
  | [], _, h => h
  | (a, v) :: ws, _, h => Memory.wf_setAll ws (Memory.wf_set a v h)

theorem Memory.wfFrom_keepFlash : ∀ {m : List Host.Cell} {lo : Nat}, Memory.wfFrom lo m = true → Memory.wfFrom lo (keepFlash m) = true
  | [], _, _ => rfl
  | (a, v) :: m, lo, h => by
    simp only [Memory.wfFrom, Bool.and_eq_true, decide_eq_true_eq] at h
    simp only [keepFlash]
    split
    · simp only [Memory.wfFrom, Bool.and_eq_true, decide_eq_true_eq]
      exact ⟨h.1, Memory.wfFrom_keepFlash h.2⟩
    · exact Memory.wfFrom_mono (by omega) (Memory.wfFrom_keepFlash h.2)

/-- A power loss keeps the canonical form. -/
theorem Memory.wf_keepFlash {m : List Host.Cell} (h : Memory.wf m = true) : Memory.wf (keepFlash m) = true :=
  Memory.wfFrom_keepFlash h

/-- Equal contents are equal memories. -/
theorem Memory.ext {lo : Nat} : ∀ {m n : List Host.Cell}, Memory.wfFrom lo m = true → Memory.wfFrom lo n = true →
    (∀ a, Memory.get m a = Memory.get n a) → m = n
  | [], [], _, _, _ => rfl
  | [], (b, w) :: n, _, hn, h => by
    have := h b
    simp only [Memory.wfFrom, Bool.and_eq_true, bne_iff_ne, ne_eq] at hn
    simp [Memory.get] at this
    exact absurd this.symm hn.1.2
  | (a, v) :: m, [], hm, _, h => by
    have := h a
    simp only [Memory.wfFrom, Bool.and_eq_true, bne_iff_ne, ne_eq] at hm
    simp [Memory.get] at this
    exact absurd this hm.1.2
  | (a, v) :: m, (b, w) :: n, hm, hn, h => by
    simp only [Memory.wfFrom, Bool.and_eq_true, decide_eq_true_eq, bne_iff_ne, ne_eq] at hm hn
    have hab : a = b := by
      rcases Nat.lt_trichotomy a b with hlt | heq | hgt
      · have := h a
        have hb : b ≠ a := by omega
        simp only [Memory.get, if_true, if_neg hb] at this
        rw [Memory.get_of_lt hn.2 (by omega)] at this
        exact absurd this hm.1.2
      · exact heq
      · have := h b
        have ha : a ≠ b := by omega
        simp only [Memory.get, if_true, if_neg ha] at this
        rw [Memory.get_of_lt hm.2 (by omega)] at this
        exact absurd this.symm hn.1.2
    subst hab
    have hvw : v = w := by simpa [Memory.get] using h a
    subst hvw
    congr 1
    refine Memory.ext hm.2 hn.2 fun c => ?_
    by_cases hc : a = c
    · subst hc
      rw [Memory.get_of_lt hm.2 (by omega), Memory.get_of_lt hn.2 (by omega)]
    · simpa [Memory.get, hc] using h c

end Sys2Proof.Machine
end

