-- ==== Sys2Proof/Laws/State.lean ====
section
/-! SUPPORT. What each update does to each field of the state: one lemma per field per update. -/

namespace Sys2Proof.Machine

/-! ## thread -/

@[simp] theorem apply_thread_time (s : State) (t : TId) (f : Thread → Thread) : ((Upd.thread t f).apply s).time = s.time := rfl
@[simp] theorem apply_thread_mem (s : State) (t : TId) (f : Thread → Thread) : ((Upd.thread t f).apply s).mem = s.mem := rfl
@[simp] theorem apply_thread_threads (s : State) (t : TId) (f : Thread → Thread) : ((Upd.thread t f).apply s).threads = s.threads.map (mapThread t f) := rfl
@[simp] theorem apply_thread_groups (s : State) (t : TId) (f : Thread → Thread) : ((Upd.thread t f).apply s).groups = s.groups := rfl
@[simp] theorem apply_thread_teams (s : State) (t : TId) (f : Thread → Thread) : ((Upd.thread t f).apply s).teams = s.teams := rfl
@[simp] theorem apply_thread_part (s : State) (t : TId) (f : Thread → Thread) : ((Upd.thread t f).apply s).part = s.part := rfl
@[simp] theorem apply_thread_cur (s : State) (t : TId) (f : Thread → Thread) : ((Upd.thread t f).apply s).cur = s.cur := rfl
@[simp] theorem apply_thread_sched (s : State) (t : TId) (f : Thread → Thread) : ((Upd.thread t f).apply s).sched = s.sched := rfl
@[simp] theorem apply_thread_events (s : State) (t : TId) (f : Thread → Thread) : ((Upd.thread t f).apply s).events = s.events := rfl
@[simp] theorem apply_thread_free (s : State) (t : TId) (f : Thread → Thread) : ((Upd.thread t f).apply s).free = s.free := rfl
@[simp] theorem apply_thread_nextId (s : State) (t : TId) (f : Thread → Thread) : ((Upd.thread t f).apply s).nextId = s.nextId := rfl
@[simp] theorem apply_thread_counting (s : State) (t : TId) (f : Thread → Thread) : ((Upd.thread t f).apply s).counting = s.counting := rfl
@[simp] theorem apply_thread_stamp (s : State) (t : TId) (f : Thread → Thread) : ((Upd.thread t f).apply s).stamp = s.stamp := rfl
@[simp] theorem apply_thread_evTurn (s : State) (t : TId) (f : Thread → Thread) : ((Upd.thread t f).apply s).evTurn = s.evTurn := rfl
@[simp] theorem apply_thread_since (s : State) (t : TId) (f : Thread → Thread) : ((Upd.thread t f).apply s).since = s.since := rfl

/-! ## group -/

@[simp] theorem apply_group_time (s : State) (g : GId) (f : Group → Group) : ((Upd.group g f).apply s).time = s.time := rfl
@[simp] theorem apply_group_mem (s : State) (g : GId) (f : Group → Group) : ((Upd.group g f).apply s).mem = s.mem := rfl
@[simp] theorem apply_group_threads (s : State) (g : GId) (f : Group → Group) : ((Upd.group g f).apply s).threads = s.threads := rfl
@[simp] theorem apply_group_groups (s : State) (g : GId) (f : Group → Group) : ((Upd.group g f).apply s).groups = s.groups.map (mapGroup g f) := rfl
@[simp] theorem apply_group_teams (s : State) (g : GId) (f : Group → Group) : ((Upd.group g f).apply s).teams = s.teams := rfl
@[simp] theorem apply_group_part (s : State) (g : GId) (f : Group → Group) : ((Upd.group g f).apply s).part = s.part := rfl
@[simp] theorem apply_group_cur (s : State) (g : GId) (f : Group → Group) : ((Upd.group g f).apply s).cur = s.cur := rfl
@[simp] theorem apply_group_sched (s : State) (g : GId) (f : Group → Group) : ((Upd.group g f).apply s).sched = s.sched := rfl
@[simp] theorem apply_group_events (s : State) (g : GId) (f : Group → Group) : ((Upd.group g f).apply s).events = s.events := rfl
@[simp] theorem apply_group_free (s : State) (g : GId) (f : Group → Group) : ((Upd.group g f).apply s).free = s.free := rfl
@[simp] theorem apply_group_nextId (s : State) (g : GId) (f : Group → Group) : ((Upd.group g f).apply s).nextId = s.nextId := rfl
@[simp] theorem apply_group_counting (s : State) (g : GId) (f : Group → Group) : ((Upd.group g f).apply s).counting = s.counting := rfl
@[simp] theorem apply_group_stamp (s : State) (g : GId) (f : Group → Group) : ((Upd.group g f).apply s).stamp = s.stamp := rfl
@[simp] theorem apply_group_evTurn (s : State) (g : GId) (f : Group → Group) : ((Upd.group g f).apply s).evTurn = s.evTurn := rfl
@[simp] theorem apply_group_since (s : State) (g : GId) (f : Group → Group) : ((Upd.group g f).apply s).since = s.since := rfl

/-! ## team -/

@[simp] theorem apply_team_time (s : State) (k : Nat) (f : Team → Team) : ((Upd.team k f).apply s).time = s.time := rfl
@[simp] theorem apply_team_mem (s : State) (k : Nat) (f : Team → Team) : ((Upd.team k f).apply s).mem = s.mem := rfl
@[simp] theorem apply_team_threads (s : State) (k : Nat) (f : Team → Team) : ((Upd.team k f).apply s).threads = s.threads := rfl
@[simp] theorem apply_team_groups (s : State) (k : Nat) (f : Team → Team) : ((Upd.team k f).apply s).groups = s.groups := rfl
@[simp] theorem apply_team_teams (s : State) (k : Nat) (f : Team → Team) : ((Upd.team k f).apply s).teams = s.teams.map (mapTeam k f) := rfl
@[simp] theorem apply_team_part (s : State) (k : Nat) (f : Team → Team) : ((Upd.team k f).apply s).part = s.part := rfl
@[simp] theorem apply_team_cur (s : State) (k : Nat) (f : Team → Team) : ((Upd.team k f).apply s).cur = s.cur := rfl
@[simp] theorem apply_team_sched (s : State) (k : Nat) (f : Team → Team) : ((Upd.team k f).apply s).sched = s.sched := rfl
@[simp] theorem apply_team_events (s : State) (k : Nat) (f : Team → Team) : ((Upd.team k f).apply s).events = s.events := rfl
@[simp] theorem apply_team_free (s : State) (k : Nat) (f : Team → Team) : ((Upd.team k f).apply s).free = s.free := rfl
@[simp] theorem apply_team_nextId (s : State) (k : Nat) (f : Team → Team) : ((Upd.team k f).apply s).nextId = s.nextId := rfl
@[simp] theorem apply_team_counting (s : State) (k : Nat) (f : Team → Team) : ((Upd.team k f).apply s).counting = s.counting := rfl
@[simp] theorem apply_team_stamp (s : State) (k : Nat) (f : Team → Team) : ((Upd.team k f).apply s).stamp = s.stamp := rfl
@[simp] theorem apply_team_evTurn (s : State) (k : Nat) (f : Team → Team) : ((Upd.team k f).apply s).evTurn = s.evTurn := rfl
@[simp] theorem apply_team_since (s : State) (k : Nat) (f : Team → Team) : ((Upd.team k f).apply s).since = s.since := rfl

/-! ## part -/

@[simp] theorem apply_part_time (s : State) (f : Part → Part) : ((Upd.part f).apply s).time = s.time := rfl
@[simp] theorem apply_part_mem (s : State) (f : Part → Part) : ((Upd.part f).apply s).mem = s.mem := rfl
@[simp] theorem apply_part_threads (s : State) (f : Part → Part) : ((Upd.part f).apply s).threads = s.threads := rfl
@[simp] theorem apply_part_groups (s : State) (f : Part → Part) : ((Upd.part f).apply s).groups = s.groups := rfl
@[simp] theorem apply_part_teams (s : State) (f : Part → Part) : ((Upd.part f).apply s).teams = s.teams := rfl
@[simp] theorem apply_part_part (s : State) (f : Part → Part) : ((Upd.part f).apply s).part = f s.part := rfl
@[simp] theorem apply_part_cur (s : State) (f : Part → Part) : ((Upd.part f).apply s).cur = s.cur := rfl
@[simp] theorem apply_part_sched (s : State) (f : Part → Part) : ((Upd.part f).apply s).sched = s.sched := rfl
@[simp] theorem apply_part_events (s : State) (f : Part → Part) : ((Upd.part f).apply s).events = s.events := rfl
@[simp] theorem apply_part_free (s : State) (f : Part → Part) : ((Upd.part f).apply s).free = s.free := rfl
@[simp] theorem apply_part_nextId (s : State) (f : Part → Part) : ((Upd.part f).apply s).nextId = s.nextId := rfl
@[simp] theorem apply_part_counting (s : State) (f : Part → Part) : ((Upd.part f).apply s).counting = s.counting := rfl
@[simp] theorem apply_part_stamp (s : State) (f : Part → Part) : ((Upd.part f).apply s).stamp = s.stamp := rfl
@[simp] theorem apply_part_evTurn (s : State) (f : Part → Part) : ((Upd.part f).apply s).evTurn = s.evTurn := rfl
@[simp] theorem apply_part_since (s : State) (f : Part → Part) : ((Upd.part f).apply s).since = s.since := rfl

/-! ## store -/

@[simp] theorem apply_store_time (s : State) (a : Nat) (bs : List Byte) : ((Upd.store a bs).apply s).time = s.time := rfl
@[simp] theorem apply_store_mem (s : State) (a : Nat) (bs : List Byte) : ((Upd.store a bs).apply s).mem = Memory.setAll s.mem (cells a bs) := rfl
@[simp] theorem apply_store_threads (s : State) (a : Nat) (bs : List Byte) : ((Upd.store a bs).apply s).threads = s.threads := rfl
@[simp] theorem apply_store_groups (s : State) (a : Nat) (bs : List Byte) : ((Upd.store a bs).apply s).groups = s.groups := rfl
@[simp] theorem apply_store_teams (s : State) (a : Nat) (bs : List Byte) : ((Upd.store a bs).apply s).teams = s.teams := rfl
@[simp] theorem apply_store_part (s : State) (a : Nat) (bs : List Byte) : ((Upd.store a bs).apply s).part = s.part := rfl
@[simp] theorem apply_store_cur (s : State) (a : Nat) (bs : List Byte) : ((Upd.store a bs).apply s).cur = s.cur := rfl
@[simp] theorem apply_store_sched (s : State) (a : Nat) (bs : List Byte) : ((Upd.store a bs).apply s).sched = s.sched := rfl
@[simp] theorem apply_store_events (s : State) (a : Nat) (bs : List Byte) : ((Upd.store a bs).apply s).events = s.events := rfl
@[simp] theorem apply_store_free (s : State) (a : Nat) (bs : List Byte) : ((Upd.store a bs).apply s).free = s.free := rfl
@[simp] theorem apply_store_nextId (s : State) (a : Nat) (bs : List Byte) : ((Upd.store a bs).apply s).nextId = s.nextId := rfl
@[simp] theorem apply_store_counting (s : State) (a : Nat) (bs : List Byte) : ((Upd.store a bs).apply s).counting = s.counting := rfl
@[simp] theorem apply_store_stamp (s : State) (a : Nat) (bs : List Byte) : ((Upd.store a bs).apply s).stamp = s.stamp := rfl
@[simp] theorem apply_store_evTurn (s : State) (a : Nat) (bs : List Byte) : ((Upd.store a bs).apply s).evTurn = s.evTurn := rfl
@[simp] theorem apply_store_since (s : State) (a : Nat) (bs : List Byte) : ((Upd.store a bs).apply s).since = s.since := rfl

/-! ## stores -/

@[simp] theorem apply_stores_time (s : State) (cs : List (Nat × Byte)) : ((Upd.stores cs).apply s).time = s.time := rfl
@[simp] theorem apply_stores_mem (s : State) (cs : List (Nat × Byte)) : ((Upd.stores cs).apply s).mem = Memory.setAll s.mem cs := rfl
@[simp] theorem apply_stores_threads (s : State) (cs : List (Nat × Byte)) : ((Upd.stores cs).apply s).threads = s.threads := rfl
@[simp] theorem apply_stores_groups (s : State) (cs : List (Nat × Byte)) : ((Upd.stores cs).apply s).groups = s.groups := rfl
@[simp] theorem apply_stores_teams (s : State) (cs : List (Nat × Byte)) : ((Upd.stores cs).apply s).teams = s.teams := rfl
@[simp] theorem apply_stores_part (s : State) (cs : List (Nat × Byte)) : ((Upd.stores cs).apply s).part = s.part := rfl
@[simp] theorem apply_stores_cur (s : State) (cs : List (Nat × Byte)) : ((Upd.stores cs).apply s).cur = s.cur := rfl
@[simp] theorem apply_stores_sched (s : State) (cs : List (Nat × Byte)) : ((Upd.stores cs).apply s).sched = s.sched := rfl
@[simp] theorem apply_stores_events (s : State) (cs : List (Nat × Byte)) : ((Upd.stores cs).apply s).events = s.events := rfl
@[simp] theorem apply_stores_free (s : State) (cs : List (Nat × Byte)) : ((Upd.stores cs).apply s).free = s.free := rfl
@[simp] theorem apply_stores_nextId (s : State) (cs : List (Nat × Byte)) : ((Upd.stores cs).apply s).nextId = s.nextId := rfl
@[simp] theorem apply_stores_counting (s : State) (cs : List (Nat × Byte)) : ((Upd.stores cs).apply s).counting = s.counting := rfl
@[simp] theorem apply_stores_stamp (s : State) (cs : List (Nat × Byte)) : ((Upd.stores cs).apply s).stamp = s.stamp := rfl
@[simp] theorem apply_stores_evTurn (s : State) (cs : List (Nat × Byte)) : ((Upd.stores cs).apply s).evTurn = s.evTurn := rfl
@[simp] theorem apply_stores_since (s : State) (cs : List (Nat × Byte)) : ((Upd.stores cs).apply s).since = s.since := rfl

/-! ## addTeam -/

@[simp] theorem apply_addTeam_time (s : State) (t : Team) (gs : List Group) (ths : List Thread) : ((Upd.addTeam t gs ths).apply s).time = s.time := rfl
@[simp] theorem apply_addTeam_mem (s : State) (t : Team) (gs : List Group) (ths : List Thread) : ((Upd.addTeam t gs ths).apply s).mem = s.mem := rfl
@[simp] theorem apply_addTeam_threads (s : State) (t : Team) (gs : List Group) (ths : List Thread) : ((Upd.addTeam t gs ths).apply s).threads = joinNew Thread.id s.threads (ths.filter fun x => x.id.team == t.key) := rfl
@[simp] theorem apply_addTeam_groups (s : State) (t : Team) (gs : List Group) (ths : List Thread) : ((Upd.addTeam t gs ths).apply s).groups = joinNew Group.id s.groups (gs.filter fun g => g.id.team == t.key) := rfl
@[simp] theorem apply_addTeam_teams (s : State) (t : Team) (gs : List Group) (ths : List Thread) : ((Upd.addTeam t gs ths).apply s).teams = joinNew Team.key s.teams [t] := rfl
@[simp] theorem apply_addTeam_part (s : State) (t : Team) (gs : List Group) (ths : List Thread) : ((Upd.addTeam t gs ths).apply s).part = s.part := rfl
@[simp] theorem apply_addTeam_cur (s : State) (t : Team) (gs : List Group) (ths : List Thread) : ((Upd.addTeam t gs ths).apply s).cur = s.cur := rfl
@[simp] theorem apply_addTeam_sched (s : State) (t : Team) (gs : List Group) (ths : List Thread) : ((Upd.addTeam t gs ths).apply s).sched = s.sched := rfl
@[simp] theorem apply_addTeam_events (s : State) (t : Team) (gs : List Group) (ths : List Thread) : ((Upd.addTeam t gs ths).apply s).events = s.events := rfl
@[simp] theorem apply_addTeam_free (s : State) (t : Team) (gs : List Group) (ths : List Thread) : ((Upd.addTeam t gs ths).apply s).free = s.free := rfl
@[simp] theorem apply_addTeam_nextId (s : State) (t : Team) (gs : List Group) (ths : List Thread) : ((Upd.addTeam t gs ths).apply s).nextId = max s.nextId (t.key + 1) := rfl
@[simp] theorem apply_addTeam_counting (s : State) (t : Team) (gs : List Group) (ths : List Thread) : ((Upd.addTeam t gs ths).apply s).counting = s.counting := rfl
@[simp] theorem apply_addTeam_stamp (s : State) (t : Team) (gs : List Group) (ths : List Thread) : ((Upd.addTeam t gs ths).apply s).stamp = s.stamp := rfl
@[simp] theorem apply_addTeam_evTurn (s : State) (t : Team) (gs : List Group) (ths : List Thread) : ((Upd.addTeam t gs ths).apply s).evTurn = s.evTurn := rfl
@[simp] theorem apply_addTeam_since (s : State) (t : Team) (gs : List Group) (ths : List Thread) : ((Upd.addTeam t gs ths).apply s).since = s.since := rfl

/-! ## dropTeam -/

@[simp] theorem apply_dropTeam_time (s : State) (k : Nat) : ((Upd.dropTeam k).apply s).time = s.time := rfl
@[simp] theorem apply_dropTeam_mem (s : State) (k : Nat) : ((Upd.dropTeam k).apply s).mem = s.mem := rfl
@[simp] theorem apply_dropTeam_threads (s : State) (k : Nat) : ((Upd.dropTeam k).apply s).threads = s.threads.filter (fun x => x.id.team != k) := rfl
@[simp] theorem apply_dropTeam_groups (s : State) (k : Nat) : ((Upd.dropTeam k).apply s).groups = s.groups.filter (fun x => x.id.team != k) := rfl
@[simp] theorem apply_dropTeam_teams (s : State) (k : Nat) : ((Upd.dropTeam k).apply s).teams = s.teams.filter (fun x => x.key != k) := rfl
@[simp] theorem apply_dropTeam_part (s : State) (k : Nat) : ((Upd.dropTeam k).apply s).part = s.part := rfl
@[simp] theorem apply_dropTeam_cur (s : State) (k : Nat) : ((Upd.dropTeam k).apply s).cur = s.cur := rfl
@[simp] theorem apply_dropTeam_sched (s : State) (k : Nat) : ((Upd.dropTeam k).apply s).sched = s.sched := rfl
@[simp] theorem apply_dropTeam_events (s : State) (k : Nat) : ((Upd.dropTeam k).apply s).events = s.events := rfl
@[simp] theorem apply_dropTeam_free (s : State) (k : Nat) : ((Upd.dropTeam k).apply s).free = s.free := rfl
@[simp] theorem apply_dropTeam_nextId (s : State) (k : Nat) : ((Upd.dropTeam k).apply s).nextId = s.nextId := rfl
@[simp] theorem apply_dropTeam_counting (s : State) (k : Nat) : ((Upd.dropTeam k).apply s).counting = s.counting := rfl
@[simp] theorem apply_dropTeam_stamp (s : State) (k : Nat) : ((Upd.dropTeam k).apply s).stamp = s.stamp := rfl
@[simp] theorem apply_dropTeam_evTurn (s : State) (k : Nat) : ((Upd.dropTeam k).apply s).evTurn = s.evTurn := rfl
@[simp] theorem apply_dropTeam_since (s : State) (k : Nat) : ((Upd.dropTeam k).apply s).since = s.since := rfl

/-! ## event -/

@[simp] theorem apply_event_time (s : State) (i : Instr) : ((Upd.event i).apply s).time = s.time := rfl
@[simp] theorem apply_event_mem (s : State) (i : Instr) : ((Upd.event i).apply s).mem = s.mem := rfl
@[simp] theorem apply_event_threads (s : State) (i : Instr) : ((Upd.event i).apply s).threads = s.threads := rfl
@[simp] theorem apply_event_groups (s : State) (i : Instr) : ((Upd.event i).apply s).groups = s.groups := rfl
@[simp] theorem apply_event_teams (s : State) (i : Instr) : ((Upd.event i).apply s).teams = s.teams := rfl
@[simp] theorem apply_event_part (s : State) (i : Instr) : ((Upd.event i).apply s).part = s.part := rfl
@[simp] theorem apply_event_cur (s : State) (i : Instr) : ((Upd.event i).apply s).cur = s.cur := rfl
@[simp] theorem apply_event_sched (s : State) (i : Instr) : ((Upd.event i).apply s).sched = s.sched := rfl
@[simp] theorem apply_event_events (s : State) (i : Instr) : ((Upd.event i).apply s).events = s.events ++ [i] := rfl
@[simp] theorem apply_event_free (s : State) (i : Instr) : ((Upd.event i).apply s).free = s.free := rfl
@[simp] theorem apply_event_nextId (s : State) (i : Instr) : ((Upd.event i).apply s).nextId = s.nextId := rfl
@[simp] theorem apply_event_counting (s : State) (i : Instr) : ((Upd.event i).apply s).counting = s.counting := rfl
@[simp] theorem apply_event_stamp (s : State) (i : Instr) : ((Upd.event i).apply s).stamp = s.stamp := rfl
@[simp] theorem apply_event_evTurn (s : State) (i : Instr) : ((Upd.event i).apply s).evTurn = s.evTurn := rfl
@[simp] theorem apply_event_since (s : State) (i : Instr) : ((Upd.event i).apply s).since = s.since := rfl

/-! ## drawn -/

@[simp] theorem apply_drawn_time (s : State) (n : Nat) : ((Upd.drawn n).apply s).time = s.time := rfl
@[simp] theorem apply_drawn_mem (s : State) (n : Nat) : ((Upd.drawn n).apply s).mem = s.mem := rfl
@[simp] theorem apply_drawn_threads (s : State) (n : Nat) : ((Upd.drawn n).apply s).threads = s.threads := rfl
@[simp] theorem apply_drawn_groups (s : State) (n : Nat) : ((Upd.drawn n).apply s).groups = s.groups := rfl
@[simp] theorem apply_drawn_teams (s : State) (n : Nat) : ((Upd.drawn n).apply s).teams = s.teams := rfl
@[simp] theorem apply_drawn_part (s : State) (n : Nat) : ((Upd.drawn n).apply s).part = s.part := rfl
@[simp] theorem apply_drawn_cur (s : State) (n : Nat) : ((Upd.drawn n).apply s).cur = s.cur := rfl
@[simp] theorem apply_drawn_sched (s : State) (n : Nat) : ((Upd.drawn n).apply s).sched = s.sched := rfl
@[simp] theorem apply_drawn_events (s : State) (n : Nat) : ((Upd.drawn n).apply s).events = s.events := rfl
@[simp] theorem apply_drawn_free (s : State) (n : Nat) : ((Upd.drawn n).apply s).free = s.free + n := rfl
@[simp] theorem apply_drawn_nextId (s : State) (n : Nat) : ((Upd.drawn n).apply s).nextId = s.nextId := rfl
@[simp] theorem apply_drawn_counting (s : State) (n : Nat) : ((Upd.drawn n).apply s).counting = s.counting := rfl
@[simp] theorem apply_drawn_stamp (s : State) (n : Nat) : ((Upd.drawn n).apply s).stamp = s.stamp := rfl
@[simp] theorem apply_drawn_evTurn (s : State) (n : Nat) : ((Upd.drawn n).apply s).evTurn = s.evTurn := rfl
@[simp] theorem apply_drawn_since (s : State) (n : Nat) : ((Upd.drawn n).apply s).since = s.since := rfl

/-! ## named -/

@[simp] theorem apply_named_time (s : State) (n : Nat) : ((Upd.named n).apply s).time = s.time := rfl
@[simp] theorem apply_named_mem (s : State) (n : Nat) : ((Upd.named n).apply s).mem = s.mem := rfl
@[simp] theorem apply_named_threads (s : State) (n : Nat) : ((Upd.named n).apply s).threads = s.threads := rfl
@[simp] theorem apply_named_groups (s : State) (n : Nat) : ((Upd.named n).apply s).groups = s.groups := rfl
@[simp] theorem apply_named_teams (s : State) (n : Nat) : ((Upd.named n).apply s).teams = s.teams := rfl
@[simp] theorem apply_named_part (s : State) (n : Nat) : ((Upd.named n).apply s).part = s.part := rfl
@[simp] theorem apply_named_cur (s : State) (n : Nat) : ((Upd.named n).apply s).cur = s.cur := rfl
@[simp] theorem apply_named_sched (s : State) (n : Nat) : ((Upd.named n).apply s).sched = s.sched := rfl
@[simp] theorem apply_named_events (s : State) (n : Nat) : ((Upd.named n).apply s).events = s.events := rfl
@[simp] theorem apply_named_free (s : State) (n : Nat) : ((Upd.named n).apply s).free = s.free := rfl
@[simp] theorem apply_named_nextId (s : State) (n : Nat) : ((Upd.named n).apply s).nextId = s.nextId + n := rfl
@[simp] theorem apply_named_counting (s : State) (n : Nat) : ((Upd.named n).apply s).counting = s.counting := rfl
@[simp] theorem apply_named_stamp (s : State) (n : Nat) : ((Upd.named n).apply s).stamp = s.stamp := rfl
@[simp] theorem apply_named_evTurn (s : State) (n : Nat) : ((Upd.named n).apply s).evTurn = s.evTurn := rfl
@[simp] theorem apply_named_since (s : State) (n : Nat) : ((Upd.named n).apply s).since = s.since := rfl

/-! ## counting -/

@[simp] theorem apply_counting_time (s : State) (o : Option Nat) : ((Upd.counting o).apply s).time = s.time := rfl
@[simp] theorem apply_counting_mem (s : State) (o : Option Nat) : ((Upd.counting o).apply s).mem = s.mem := rfl
@[simp] theorem apply_counting_threads (s : State) (o : Option Nat) : ((Upd.counting o).apply s).threads = s.threads := rfl
@[simp] theorem apply_counting_groups (s : State) (o : Option Nat) : ((Upd.counting o).apply s).groups = s.groups := rfl
@[simp] theorem apply_counting_teams (s : State) (o : Option Nat) : ((Upd.counting o).apply s).teams = s.teams := rfl
@[simp] theorem apply_counting_part (s : State) (o : Option Nat) : ((Upd.counting o).apply s).part = s.part := rfl
@[simp] theorem apply_counting_cur (s : State) (o : Option Nat) : ((Upd.counting o).apply s).cur = s.cur := rfl
@[simp] theorem apply_counting_sched (s : State) (o : Option Nat) : ((Upd.counting o).apply s).sched = s.sched := rfl
@[simp] theorem apply_counting_events (s : State) (o : Option Nat) : ((Upd.counting o).apply s).events = s.events := rfl
@[simp] theorem apply_counting_free (s : State) (o : Option Nat) : ((Upd.counting o).apply s).free = s.free := rfl
@[simp] theorem apply_counting_nextId (s : State) (o : Option Nat) : ((Upd.counting o).apply s).nextId = s.nextId := rfl
@[simp] theorem apply_counting_counting (s : State) (o : Option Nat) : ((Upd.counting o).apply s).counting = o := rfl
@[simp] theorem apply_counting_stamp (s : State) (o : Option Nat) : ((Upd.counting o).apply s).stamp = s.stamp := rfl
@[simp] theorem apply_counting_evTurn (s : State) (o : Option Nat) : ((Upd.counting o).apply s).evTurn = s.evTurn := rfl
@[simp] theorem apply_counting_since (s : State) (o : Option Nat) : ((Upd.counting o).apply s).since = s.since := rfl

/-! ## stamped -/

@[simp] theorem apply_stamped_time (s : State) : ((Upd.stamped).apply s).time = s.time := rfl
@[simp] theorem apply_stamped_mem (s : State) : ((Upd.stamped).apply s).mem = s.mem := rfl
@[simp] theorem apply_stamped_threads (s : State) : ((Upd.stamped).apply s).threads = s.threads := rfl
@[simp] theorem apply_stamped_groups (s : State) : ((Upd.stamped).apply s).groups = s.groups := rfl
@[simp] theorem apply_stamped_teams (s : State) : ((Upd.stamped).apply s).teams = s.teams := rfl
@[simp] theorem apply_stamped_part (s : State) : ((Upd.stamped).apply s).part = s.part := rfl
@[simp] theorem apply_stamped_cur (s : State) : ((Upd.stamped).apply s).cur = s.cur := rfl
@[simp] theorem apply_stamped_sched (s : State) : ((Upd.stamped).apply s).sched = s.sched := rfl
@[simp] theorem apply_stamped_events (s : State) : ((Upd.stamped).apply s).events = s.events := rfl
@[simp] theorem apply_stamped_free (s : State) : ((Upd.stamped).apply s).free = s.free := rfl
@[simp] theorem apply_stamped_nextId (s : State) : ((Upd.stamped).apply s).nextId = s.nextId := rfl
@[simp] theorem apply_stamped_counting (s : State) : ((Upd.stamped).apply s).counting = s.counting := rfl
@[simp] theorem apply_stamped_stamp (s : State) : ((Upd.stamped).apply s).stamp = s.stamp + 1 := rfl
@[simp] theorem apply_stamped_evTurn (s : State) : ((Upd.stamped).apply s).evTurn = s.evTurn := rfl
@[simp] theorem apply_stamped_since (s : State) : ((Upd.stamped).apply s).since = s.since := rfl

/-! ## tick -/

@[simp] theorem apply_tick_time (s : State) : ((Upd.tick).apply s).time = s.time + 1 := rfl
@[simp] theorem apply_tick_mem (s : State) : ((Upd.tick).apply s).mem = s.mem := rfl
@[simp] theorem apply_tick_threads (s : State) : ((Upd.tick).apply s).threads = s.threads := rfl
@[simp] theorem apply_tick_groups (s : State) : ((Upd.tick).apply s).groups = s.groups := rfl
@[simp] theorem apply_tick_teams (s : State) : ((Upd.tick).apply s).teams = s.teams := rfl
@[simp] theorem apply_tick_part (s : State) : ((Upd.tick).apply s).part = { s.part with clusters := s.part.clusters.map fun c => { c with half := c.half + c.halfRate } } := rfl
@[simp] theorem apply_tick_cur (s : State) : ((Upd.tick).apply s).cur = s.cur := rfl
@[simp] theorem apply_tick_sched (s : State) : ((Upd.tick).apply s).sched = s.sched := rfl
@[simp] theorem apply_tick_events (s : State) : ((Upd.tick).apply s).events = s.events := rfl
@[simp] theorem apply_tick_free (s : State) : ((Upd.tick).apply s).free = s.free := rfl
@[simp] theorem apply_tick_nextId (s : State) : ((Upd.tick).apply s).nextId = s.nextId := rfl
@[simp] theorem apply_tick_counting (s : State) : ((Upd.tick).apply s).counting = s.counting := rfl
@[simp] theorem apply_tick_stamp (s : State) : ((Upd.tick).apply s).stamp = s.stamp := rfl
@[simp] theorem apply_tick_evTurn (s : State) : ((Upd.tick).apply s).evTurn = s.evTurn := rfl
@[simp] theorem apply_tick_since (s : State) : ((Upd.tick).apply s).since = s.since := rfl

/-! ## Lookups that an update leaves alone -/

@[simp] theorem apply_thread_gr (s : State) (t : TId) (f : Thread → Thread) (u : GId) : ((Upd.thread t f).apply s).gr u = s.gr u := rfl
@[simp] theorem apply_thread_groupFind (s : State) (t : TId) (f : Thread → Thread) (u : GId) : ((Upd.thread t f).apply s).group? u = s.group? u := rfl
@[simp] theorem apply_thread_tm (s : State) (t : TId) (f : Thread → Thread) (u : Nat) : ((Upd.thread t f).apply s).tm u = s.tm u := rfl
@[simp] theorem apply_thread_teamFind (s : State) (t : TId) (f : Thread → Thread) (u : Nat) : ((Upd.thread t f).apply s).team? u = s.team? u := rfl
@[simp] theorem apply_thread_byte (s : State) (t : TId) (f : Thread → Thread) (b : Nat) : ((Upd.thread t f).apply s).byte b = s.byte b := rfl
@[simp] theorem apply_thread_teamGroups (s : State) (t : TId) (f : Thread → Thread) (u : Nat) : ((Upd.thread t f).apply s).teamGroups u = s.teamGroups u := rfl
@[simp] theorem apply_thread_isSup (s : State) (t : TId) (f : Thread → Thread) (u : Nat) : ((Upd.thread t f).apply s).isSup u = s.isSup u := rfl
@[simp] theorem apply_group_th (s : State) (g : GId) (f : Group → Group) (u : TId) : ((Upd.group g f).apply s).th u = s.th u := rfl
@[simp] theorem apply_group_threadFind (s : State) (g : GId) (f : Group → Group) (u : TId) : ((Upd.group g f).apply s).thread? u = s.thread? u := rfl
@[simp] theorem apply_group_tm (s : State) (g : GId) (f : Group → Group) (u : Nat) : ((Upd.group g f).apply s).tm u = s.tm u := rfl
@[simp] theorem apply_group_teamFind (s : State) (g : GId) (f : Group → Group) (u : Nat) : ((Upd.group g f).apply s).team? u = s.team? u := rfl
@[simp] theorem apply_group_byte (s : State) (g : GId) (f : Group → Group) (b : Nat) : ((Upd.group g f).apply s).byte b = s.byte b := rfl
@[simp] theorem apply_group_threadsOf (s : State) (g : GId) (f : Group → Group) (u : GId) : ((Upd.group g f).apply s).threadsOf u = s.threadsOf u := rfl
@[simp] theorem apply_group_teamThreads (s : State) (g : GId) (f : Group → Group) (u : Nat) : ((Upd.group g f).apply s).teamThreads u = s.teamThreads u := rfl
@[simp] theorem apply_group_isSup (s : State) (g : GId) (f : Group → Group) (u : Nat) : ((Upd.group g f).apply s).isSup u = s.isSup u := rfl
@[simp] theorem apply_team_th (s : State) (k : Nat) (f : Team → Team) (u : TId) : ((Upd.team k f).apply s).th u = s.th u := rfl
@[simp] theorem apply_team_threadFind (s : State) (k : Nat) (f : Team → Team) (u : TId) : ((Upd.team k f).apply s).thread? u = s.thread? u := rfl
@[simp] theorem apply_team_gr (s : State) (k : Nat) (f : Team → Team) (u : GId) : ((Upd.team k f).apply s).gr u = s.gr u := rfl
@[simp] theorem apply_team_groupFind (s : State) (k : Nat) (f : Team → Team) (u : GId) : ((Upd.team k f).apply s).group? u = s.group? u := rfl
@[simp] theorem apply_team_byte (s : State) (k : Nat) (f : Team → Team) (b : Nat) : ((Upd.team k f).apply s).byte b = s.byte b := rfl
@[simp] theorem apply_team_threadsOf (s : State) (k : Nat) (f : Team → Team) (u : GId) : ((Upd.team k f).apply s).threadsOf u = s.threadsOf u := rfl
@[simp] theorem apply_team_teamThreads (s : State) (k : Nat) (f : Team → Team) (u : Nat) : ((Upd.team k f).apply s).teamThreads u = s.teamThreads u := rfl
@[simp] theorem apply_team_teamGroups (s : State) (k : Nat) (f : Team → Team) (u : Nat) : ((Upd.team k f).apply s).teamGroups u = s.teamGroups u := rfl
@[simp] theorem apply_part_th (s : State) (f : Part → Part) (u : TId) : ((Upd.part f).apply s).th u = s.th u := rfl
@[simp] theorem apply_part_threadFind (s : State) (f : Part → Part) (u : TId) : ((Upd.part f).apply s).thread? u = s.thread? u := rfl
@[simp] theorem apply_part_gr (s : State) (f : Part → Part) (u : GId) : ((Upd.part f).apply s).gr u = s.gr u := rfl
@[simp] theorem apply_part_groupFind (s : State) (f : Part → Part) (u : GId) : ((Upd.part f).apply s).group? u = s.group? u := rfl
@[simp] theorem apply_part_tm (s : State) (f : Part → Part) (u : Nat) : ((Upd.part f).apply s).tm u = s.tm u := rfl
@[simp] theorem apply_part_teamFind (s : State) (f : Part → Part) (u : Nat) : ((Upd.part f).apply s).team? u = s.team? u := rfl
@[simp] theorem apply_part_byte (s : State) (f : Part → Part) (b : Nat) : ((Upd.part f).apply s).byte b = s.byte b := rfl
@[simp] theorem apply_part_threadsOf (s : State) (f : Part → Part) (u : GId) : ((Upd.part f).apply s).threadsOf u = s.threadsOf u := rfl
@[simp] theorem apply_part_teamThreads (s : State) (f : Part → Part) (u : Nat) : ((Upd.part f).apply s).teamThreads u = s.teamThreads u := rfl
@[simp] theorem apply_part_teamGroups (s : State) (f : Part → Part) (u : Nat) : ((Upd.part f).apply s).teamGroups u = s.teamGroups u := rfl
@[simp] theorem apply_part_isSup (s : State) (f : Part → Part) (u : Nat) : ((Upd.part f).apply s).isSup u = s.isSup u := rfl
@[simp] theorem apply_store_th (s : State) (a : Nat) (bs : List Byte) (u : TId) : ((Upd.store a bs).apply s).th u = s.th u := rfl
@[simp] theorem apply_store_threadFind (s : State) (a : Nat) (bs : List Byte) (u : TId) : ((Upd.store a bs).apply s).thread? u = s.thread? u := rfl
@[simp] theorem apply_store_gr (s : State) (a : Nat) (bs : List Byte) (u : GId) : ((Upd.store a bs).apply s).gr u = s.gr u := rfl
@[simp] theorem apply_store_groupFind (s : State) (a : Nat) (bs : List Byte) (u : GId) : ((Upd.store a bs).apply s).group? u = s.group? u := rfl
@[simp] theorem apply_store_tm (s : State) (a : Nat) (bs : List Byte) (u : Nat) : ((Upd.store a bs).apply s).tm u = s.tm u := rfl
@[simp] theorem apply_store_teamFind (s : State) (a : Nat) (bs : List Byte) (u : Nat) : ((Upd.store a bs).apply s).team? u = s.team? u := rfl
@[simp] theorem apply_store_threadsOf (s : State) (a : Nat) (bs : List Byte) (u : GId) : ((Upd.store a bs).apply s).threadsOf u = s.threadsOf u := rfl
@[simp] theorem apply_store_teamThreads (s : State) (a : Nat) (bs : List Byte) (u : Nat) : ((Upd.store a bs).apply s).teamThreads u = s.teamThreads u := rfl
@[simp] theorem apply_store_teamGroups (s : State) (a : Nat) (bs : List Byte) (u : Nat) : ((Upd.store a bs).apply s).teamGroups u = s.teamGroups u := rfl
@[simp] theorem apply_store_isSup (s : State) (a : Nat) (bs : List Byte) (u : Nat) : ((Upd.store a bs).apply s).isSup u = s.isSup u := rfl
@[simp] theorem apply_stores_th (s : State) (cs : List (Nat × Byte)) (u : TId) : ((Upd.stores cs).apply s).th u = s.th u := rfl
@[simp] theorem apply_stores_threadFind (s : State) (cs : List (Nat × Byte)) (u : TId) : ((Upd.stores cs).apply s).thread? u = s.thread? u := rfl
@[simp] theorem apply_stores_gr (s : State) (cs : List (Nat × Byte)) (u : GId) : ((Upd.stores cs).apply s).gr u = s.gr u := rfl
@[simp] theorem apply_stores_groupFind (s : State) (cs : List (Nat × Byte)) (u : GId) : ((Upd.stores cs).apply s).group? u = s.group? u := rfl
@[simp] theorem apply_stores_tm (s : State) (cs : List (Nat × Byte)) (u : Nat) : ((Upd.stores cs).apply s).tm u = s.tm u := rfl
@[simp] theorem apply_stores_teamFind (s : State) (cs : List (Nat × Byte)) (u : Nat) : ((Upd.stores cs).apply s).team? u = s.team? u := rfl
@[simp] theorem apply_stores_threadsOf (s : State) (cs : List (Nat × Byte)) (u : GId) : ((Upd.stores cs).apply s).threadsOf u = s.threadsOf u := rfl
@[simp] theorem apply_stores_teamThreads (s : State) (cs : List (Nat × Byte)) (u : Nat) : ((Upd.stores cs).apply s).teamThreads u = s.teamThreads u := rfl
@[simp] theorem apply_stores_teamGroups (s : State) (cs : List (Nat × Byte)) (u : Nat) : ((Upd.stores cs).apply s).teamGroups u = s.teamGroups u := rfl
@[simp] theorem apply_stores_isSup (s : State) (cs : List (Nat × Byte)) (u : Nat) : ((Upd.stores cs).apply s).isSup u = s.isSup u := rfl
@[simp] theorem apply_addTeam_byte (s : State) (t : Team) (gs : List Group) (ths : List Thread) (b : Nat) : ((Upd.addTeam t gs ths).apply s).byte b = s.byte b := rfl
@[simp] theorem apply_dropTeam_byte (s : State) (k : Nat) (b : Nat) : ((Upd.dropTeam k).apply s).byte b = s.byte b := rfl
@[simp] theorem apply_event_th (s : State) (i : Instr) (u : TId) : ((Upd.event i).apply s).th u = s.th u := rfl
@[simp] theorem apply_event_threadFind (s : State) (i : Instr) (u : TId) : ((Upd.event i).apply s).thread? u = s.thread? u := rfl
@[simp] theorem apply_event_gr (s : State) (i : Instr) (u : GId) : ((Upd.event i).apply s).gr u = s.gr u := rfl
@[simp] theorem apply_event_groupFind (s : State) (i : Instr) (u : GId) : ((Upd.event i).apply s).group? u = s.group? u := rfl
@[simp] theorem apply_event_tm (s : State) (i : Instr) (u : Nat) : ((Upd.event i).apply s).tm u = s.tm u := rfl
@[simp] theorem apply_event_teamFind (s : State) (i : Instr) (u : Nat) : ((Upd.event i).apply s).team? u = s.team? u := rfl
@[simp] theorem apply_event_byte (s : State) (i : Instr) (b : Nat) : ((Upd.event i).apply s).byte b = s.byte b := rfl
@[simp] theorem apply_event_threadsOf (s : State) (i : Instr) (u : GId) : ((Upd.event i).apply s).threadsOf u = s.threadsOf u := rfl
@[simp] theorem apply_event_teamThreads (s : State) (i : Instr) (u : Nat) : ((Upd.event i).apply s).teamThreads u = s.teamThreads u := rfl
@[simp] theorem apply_event_teamGroups (s : State) (i : Instr) (u : Nat) : ((Upd.event i).apply s).teamGroups u = s.teamGroups u := rfl
@[simp] theorem apply_event_isSup (s : State) (i : Instr) (u : Nat) : ((Upd.event i).apply s).isSup u = s.isSup u := rfl
@[simp] theorem apply_drawn_th (s : State) (n : Nat) (u : TId) : ((Upd.drawn n).apply s).th u = s.th u := rfl
@[simp] theorem apply_drawn_threadFind (s : State) (n : Nat) (u : TId) : ((Upd.drawn n).apply s).thread? u = s.thread? u := rfl
@[simp] theorem apply_drawn_gr (s : State) (n : Nat) (u : GId) : ((Upd.drawn n).apply s).gr u = s.gr u := rfl
@[simp] theorem apply_drawn_groupFind (s : State) (n : Nat) (u : GId) : ((Upd.drawn n).apply s).group? u = s.group? u := rfl
@[simp] theorem apply_drawn_tm (s : State) (n : Nat) (u : Nat) : ((Upd.drawn n).apply s).tm u = s.tm u := rfl
@[simp] theorem apply_drawn_teamFind (s : State) (n : Nat) (u : Nat) : ((Upd.drawn n).apply s).team? u = s.team? u := rfl
@[simp] theorem apply_drawn_byte (s : State) (n : Nat) (b : Nat) : ((Upd.drawn n).apply s).byte b = s.byte b := rfl
@[simp] theorem apply_drawn_threadsOf (s : State) (n : Nat) (u : GId) : ((Upd.drawn n).apply s).threadsOf u = s.threadsOf u := rfl
@[simp] theorem apply_drawn_teamThreads (s : State) (n : Nat) (u : Nat) : ((Upd.drawn n).apply s).teamThreads u = s.teamThreads u := rfl
@[simp] theorem apply_drawn_teamGroups (s : State) (n : Nat) (u : Nat) : ((Upd.drawn n).apply s).teamGroups u = s.teamGroups u := rfl
@[simp] theorem apply_drawn_isSup (s : State) (n : Nat) (u : Nat) : ((Upd.drawn n).apply s).isSup u = s.isSup u := rfl
@[simp] theorem apply_named_th (s : State) (n : Nat) (u : TId) : ((Upd.named n).apply s).th u = s.th u := rfl
@[simp] theorem apply_named_threadFind (s : State) (n : Nat) (u : TId) : ((Upd.named n).apply s).thread? u = s.thread? u := rfl
@[simp] theorem apply_named_gr (s : State) (n : Nat) (u : GId) : ((Upd.named n).apply s).gr u = s.gr u := rfl
@[simp] theorem apply_named_groupFind (s : State) (n : Nat) (u : GId) : ((Upd.named n).apply s).group? u = s.group? u := rfl
@[simp] theorem apply_named_tm (s : State) (n : Nat) (u : Nat) : ((Upd.named n).apply s).tm u = s.tm u := rfl
@[simp] theorem apply_named_teamFind (s : State) (n : Nat) (u : Nat) : ((Upd.named n).apply s).team? u = s.team? u := rfl
@[simp] theorem apply_named_byte (s : State) (n : Nat) (b : Nat) : ((Upd.named n).apply s).byte b = s.byte b := rfl
@[simp] theorem apply_named_threadsOf (s : State) (n : Nat) (u : GId) : ((Upd.named n).apply s).threadsOf u = s.threadsOf u := rfl
@[simp] theorem apply_named_teamThreads (s : State) (n : Nat) (u : Nat) : ((Upd.named n).apply s).teamThreads u = s.teamThreads u := rfl
@[simp] theorem apply_named_teamGroups (s : State) (n : Nat) (u : Nat) : ((Upd.named n).apply s).teamGroups u = s.teamGroups u := rfl
@[simp] theorem apply_named_isSup (s : State) (n : Nat) (u : Nat) : ((Upd.named n).apply s).isSup u = s.isSup u := rfl
@[simp] theorem apply_counting_th (s : State) (o : Option Nat) (u : TId) : ((Upd.counting o).apply s).th u = s.th u := rfl
@[simp] theorem apply_counting_threadFind (s : State) (o : Option Nat) (u : TId) : ((Upd.counting o).apply s).thread? u = s.thread? u := rfl
@[simp] theorem apply_counting_gr (s : State) (o : Option Nat) (u : GId) : ((Upd.counting o).apply s).gr u = s.gr u := rfl
@[simp] theorem apply_counting_groupFind (s : State) (o : Option Nat) (u : GId) : ((Upd.counting o).apply s).group? u = s.group? u := rfl
@[simp] theorem apply_counting_tm (s : State) (o : Option Nat) (u : Nat) : ((Upd.counting o).apply s).tm u = s.tm u := rfl
@[simp] theorem apply_counting_teamFind (s : State) (o : Option Nat) (u : Nat) : ((Upd.counting o).apply s).team? u = s.team? u := rfl
@[simp] theorem apply_counting_byte (s : State) (o : Option Nat) (b : Nat) : ((Upd.counting o).apply s).byte b = s.byte b := rfl
@[simp] theorem apply_counting_threadsOf (s : State) (o : Option Nat) (u : GId) : ((Upd.counting o).apply s).threadsOf u = s.threadsOf u := rfl
@[simp] theorem apply_counting_teamThreads (s : State) (o : Option Nat) (u : Nat) : ((Upd.counting o).apply s).teamThreads u = s.teamThreads u := rfl
@[simp] theorem apply_counting_teamGroups (s : State) (o : Option Nat) (u : Nat) : ((Upd.counting o).apply s).teamGroups u = s.teamGroups u := rfl
@[simp] theorem apply_counting_isSup (s : State) (o : Option Nat) (u : Nat) : ((Upd.counting o).apply s).isSup u = s.isSup u := rfl
@[simp] theorem apply_stamped_th (s : State) (u : TId) : ((Upd.stamped).apply s).th u = s.th u := rfl
@[simp] theorem apply_stamped_threadFind (s : State) (u : TId) : ((Upd.stamped).apply s).thread? u = s.thread? u := rfl
@[simp] theorem apply_stamped_gr (s : State) (u : GId) : ((Upd.stamped).apply s).gr u = s.gr u := rfl
@[simp] theorem apply_stamped_groupFind (s : State) (u : GId) : ((Upd.stamped).apply s).group? u = s.group? u := rfl
@[simp] theorem apply_stamped_tm (s : State) (u : Nat) : ((Upd.stamped).apply s).tm u = s.tm u := rfl
@[simp] theorem apply_stamped_teamFind (s : State) (u : Nat) : ((Upd.stamped).apply s).team? u = s.team? u := rfl
@[simp] theorem apply_stamped_byte (s : State) (b : Nat) : ((Upd.stamped).apply s).byte b = s.byte b := rfl
@[simp] theorem apply_stamped_threadsOf (s : State) (u : GId) : ((Upd.stamped).apply s).threadsOf u = s.threadsOf u := rfl
@[simp] theorem apply_stamped_teamThreads (s : State) (u : Nat) : ((Upd.stamped).apply s).teamThreads u = s.teamThreads u := rfl
@[simp] theorem apply_stamped_teamGroups (s : State) (u : Nat) : ((Upd.stamped).apply s).teamGroups u = s.teamGroups u := rfl
@[simp] theorem apply_stamped_isSup (s : State) (u : Nat) : ((Upd.stamped).apply s).isSup u = s.isSup u := rfl
@[simp] theorem apply_tick_th (s : State) (u : TId) : ((Upd.tick).apply s).th u = s.th u := rfl
@[simp] theorem apply_tick_threadFind (s : State) (u : TId) : ((Upd.tick).apply s).thread? u = s.thread? u := rfl
@[simp] theorem apply_tick_gr (s : State) (u : GId) : ((Upd.tick).apply s).gr u = s.gr u := rfl
@[simp] theorem apply_tick_groupFind (s : State) (u : GId) : ((Upd.tick).apply s).group? u = s.group? u := rfl
@[simp] theorem apply_tick_tm (s : State) (u : Nat) : ((Upd.tick).apply s).tm u = s.tm u := rfl
@[simp] theorem apply_tick_teamFind (s : State) (u : Nat) : ((Upd.tick).apply s).team? u = s.team? u := rfl
@[simp] theorem apply_tick_byte (s : State) (b : Nat) : ((Upd.tick).apply s).byte b = s.byte b := rfl
@[simp] theorem apply_tick_threadsOf (s : State) (u : GId) : ((Upd.tick).apply s).threadsOf u = s.threadsOf u := rfl
@[simp] theorem apply_tick_teamThreads (s : State) (u : Nat) : ((Upd.tick).apply s).teamThreads u = s.teamThreads u := rfl
@[simp] theorem apply_tick_teamGroups (s : State) (u : Nat) : ((Upd.tick).apply s).teamGroups u = s.teamGroups u := rfl
@[simp] theorem apply_tick_isSup (s : State) (u : Nat) : ((Upd.tick).apply s).isSup u = s.isSup u := rfl

end Sys2Proof.Machine
end

