-- ==== Sys2Proof/Laws/Effect.lean ====
section
/-! SUPPORT. Effects: how they run, and what no effect can do, proved once from the updates. -/

namespace Sys2Proof.Machine

/-! ## Running -/

@[simp] theorem applyAll_nil (s : State) : s.applyAll [] = s := rfl
@[simp] theorem applyAll_cons (s : State) (u : Upd) (us : List Upd) : s.applyAll (u :: us) = (u.apply s).applyAll us := rfl

theorem applyAll_append : ∀ (s : State) (us vs : List Upd), s.applyAll (us ++ vs) = (s.applyAll us).applyAll vs
  | _, [], _ => rfl
  | s, u :: us, vs => applyAll_append (u.apply s) us vs

@[simp] theorem run_act (f : State → List Upd) (s : State) : (Eff.act f).run s = s.applyAll (f s) := rfl
@[simp] theorem run_seq (a b : Eff) (s : State) : (Eff.seq a b).run s = b.run (a.run s) := rfl
@[simp] theorem run_read (f : State → Eff) (s : State) : (Eff.read f).run s = (f s).run s := rfl
@[simp] theorem run_nothing (s : State) : Eff.nothing.run s = s := rfl
@[simp] theorem run_upds (us : List Upd) (s : State) : (Eff.upds us).run s = s.applyAll us := rfl
@[simp] theorem run_each_nil {α : Type} (f : α → Eff) (s : State) : (Eff.each f []).run s = s := rfl
@[simp] theorem run_each_cons {α : Type} (f : α → Eff) (x : α) (xs : List α) (s : State) :
    (Eff.each f (x :: xs)).run s = (Eff.each f xs).run ((f x).run s) := rfl
@[simp] theorem run_perThread (f : TId → Eff) (s : State) : (perThread f).run s = (Eff.each f s.cur.ths).run s := rfl
/-- A meaning that is an effect always has a next state. -/
@[simp] theorem run_next (e : Eff) (s : State) : Machine.run e s = .next (e.run s) := rfl

/-! ## What holds of every effect -/

/-- A relation that every update keeps, and that composes, holds between the ends of every effect. -/
theorem applyAll_rel (R : State → State → Prop) (hr : ∀ s, R s s) (ht : ∀ a b c, R a b → R b c → R a c)
    (hu : ∀ s (u : Upd), R s (u.apply s)) : ∀ (us : List Upd) (s : State), R s (s.applyAll us)
  | [], s => hr s
  | u :: us, s => ht _ _ _ (hu s u) (applyAll_rel R hr ht hu us (u.apply s))

theorem run_rel (R : State → State → Prop) (hr : ∀ s, R s s) (ht : ∀ a b c, R a b → R b c → R a c)
    (hu : ∀ s (u : Upd), R s (u.apply s)) : ∀ (e : Eff) (s : State), R s (e.run s)
  | .act f, s => applyAll_rel R hr ht hu (f s) s
  | .seq a b, s => ht _ _ _ (run_rel R hr ht hu a s) (run_rel R hr ht hu b (a.run s))
  | .read f, s => run_rel R hr ht hu (f s) s

/-- A property that every update keeps is kept by every effect. -/
theorem run_keeps (P : State → Prop) (hu : ∀ s (u : Upd), P s → P (u.apply s)) (e : Eff) (s : State) (h : P s) : P (e.run s) :=
  run_rel (fun a b => P a → P b) (fun _ h => h) (fun _ _ _ f g h => g (f h)) (fun s u => hu s u) e s h

theorem applyAll_keeps (P : State → Prop) (hu : ∀ s (u : Upd), P s → P (u.apply s)) (us : List Upd) (s : State) (h : P s) :
    P (s.applyAll us) := run_keeps P hu (.upds us) s h

theorem apply_mem_wf (s : State) (u : Upd) (h : Memory.wf s.mem = true) : Memory.wf (u.apply s).mem = true := by
  cases u <;> first | exact h | exact Memory.wf_setAll _ h

theorem run_mem_wf (e : Eff) (s : State) (h : Memory.wf s.mem = true) : Memory.wf (e.run s).mem = true :=
  run_keeps (fun s => Memory.wf s.mem = true) apply_mem_wf e s h

theorem applyAll_mem_wf (us : List Upd) (s : State) (h : Memory.wf s.mem = true) : Memory.wf (s.applyAll us).mem = true :=
  applyAll_keeps (fun s => Memory.wf s.mem = true) apply_mem_wf us s h

/-- R272: no effect turns TIME back. -/
theorem run_time_le (e : Eff) (s : State) : s.time ≤ (e.run s).time :=
  run_rel (fun a b => a.time ≤ b.time) (fun _ => Nat.le_refl _) (fun _ _ _ => Nat.le_trans)
    (fun s u => by cases u <;> simp) e s

theorem applyAll_time_le (us : List Upd) (s : State) : s.time ≤ (s.applyAll us).time := run_time_le (.upds us) s

/-- A free value that has been drawn is not drawn again. -/
theorem run_free_le (e : Eff) (s : State) : s.free ≤ (e.run s).free :=
  run_rel (fun a b => a.free ≤ b.free) (fun _ => Nat.le_refl _) (fun _ _ _ => Nat.le_trans)
    (fun s u => by cases u <;> simp) e s

/-- A name that has been given is not given again. -/
theorem run_nextId_le (e : Eff) (s : State) : s.nextId ≤ (e.run s).nextId :=
  run_rel (fun a b => a.nextId ≤ b.nextId) (fun _ => Nat.le_refl _) (fun _ _ _ => Nat.le_trans)
    (fun s u => by cases u <;> simp) e s

@[simp] theorem run_cur (e : Eff) (s : State) : (e.run s).cur = s.cur :=
  run_rel (fun a b => b.cur = a.cur) (fun _ => rfl) (fun _ _ _ f g => g.trans f) (fun s u => by cases u <;> rfl) e s

@[simp] theorem applyAll_cur (us : List Upd) (s : State) : (s.applyAll us).cur = s.cur := run_cur (.upds us) s

@[simp] theorem run_sched (e : Eff) (s : State) : (e.run s).sched = s.sched :=
  run_rel (fun a b => b.sched = a.sched) (fun _ => rfl) (fun _ _ _ f g => g.trans f) (fun s u => by cases u <;> rfl) e s

@[simp] theorem applyAll_sched (us : List Upd) (s : State) : (s.applyAll us).sched = s.sched := run_sched (.upds us) s

/-! ## Threads, groups and teams by name -/

theorem find_map_eq {α β : Type} [DecidableEq β] (key : α → β) (k : β) (f : α → α) (hf : ∀ x, key (f x) = key x) :
    ∀ l : List α, (l.map f).find? (fun x => key x == k) = (l.find? fun x => key x == k).map f
  | [] => rfl
  | x :: l => by
    simp only [List.map_cons, List.find?_cons, hf]
    cases key x == k <;> simp [find_map_eq key k f hf l]

theorem mapThread_id (t : TId) (f : Thread → Thread) (x : Thread) : (mapThread t f x).id = x.id := by
  unfold mapThread; split <;> rfl
theorem mapGroup_id (g : GId) (f : Group → Group) (x : Group) : (mapGroup g f x).id = x.id := by
  unfold mapGroup; split <;> rfl
theorem mapTeam_key (k : Nat) (f : Team → Team) (x : Team) : (mapTeam k f x).key = x.key := by
  unfold mapTeam; split <;> rfl

theorem thread?_id {s : State} {t : TId} {x : Thread} (h : s.thread? t = some x) : x.id = t := by
  simpa using List.find?_some h
theorem group?_id {s : State} {g : GId} {x : Group} (h : s.group? g = some x) : x.id = g := by
  simpa using List.find?_some h
theorem team?_key {s : State} {k : Nat} {x : Team} (h : s.team? k = some x) : x.key = k := by
  simpa using List.find?_some h

theorem thread?_apply_thread (s : State) (t u : TId) (f : Thread → Thread) :
    ((Upd.thread t f).apply s).thread? u = (s.thread? u).map (mapThread t f) :=
  find_map_eq Thread.id u (mapThread t f) (mapThread_id t f) s.threads
theorem group?_apply_group (s : State) (g u : GId) (f : Group → Group) :
    ((Upd.group g f).apply s).group? u = (s.group? u).map (mapGroup g f) :=
  find_map_eq Group.id u (mapGroup g f) (mapGroup_id g f) s.groups
theorem team?_apply_team (s : State) (k u : Nat) (f : Team → Team) :
    ((Upd.team k f).apply s).team? u = (s.team? u).map (mapTeam k f) :=
  find_map_eq Team.key u (mapTeam k f) (mapTeam_key k f) s.teams

/-- A change of a thread that exists. -/
theorem th_apply_thread_self {s : State} {t : TId} (f : Thread → Thread) (h : (s.thread? t).isSome = true) :
    ((Upd.thread t f).apply s).th t = { f (s.th t) with id := t } := by
  obtain ⟨x, hx⟩ := Option.isSome_iff_exists.mp h
  have hid := thread?_id hx
  simp [State.th, thread?_apply_thread, hx, mapThread, hid]

theorem th_apply_thread_ne (s : State) {t u : TId} (f : Thread → Thread) (h : u ≠ t) :
    ((Upd.thread t f).apply s).th u = s.th u := by
  unfold State.th
  rw [thread?_apply_thread]
  cases hx : s.thread? u with
  | none => rfl
  | some x =>
    have hid := thread?_id hx
    simp [mapThread, hid, h]

theorem gr_apply_group_self {s : State} {g : GId} (f : Group → Group) (h : (s.group? g).isSome = true) :
    ((Upd.group g f).apply s).gr g = { f (s.gr g) with id := g } := by
  obtain ⟨x, hx⟩ := Option.isSome_iff_exists.mp h
  have hid := group?_id hx
  simp [State.gr, group?_apply_group, hx, mapGroup, hid]

theorem gr_apply_group_ne (s : State) {g u : GId} (f : Group → Group) (h : u ≠ g) :
    ((Upd.group g f).apply s).gr u = s.gr u := by
  unfold State.gr
  rw [group?_apply_group]
  cases hx : s.group? u with
  | none => rfl
  | some x =>
    have hid := group?_id hx
    simp [mapGroup, hid, h]

theorem tm_apply_team_self {s : State} {k : Nat} (f : Team → Team) (h : (s.team? k).isSome = true) :
    ((Upd.team k f).apply s).tm k = { f (s.tm k) with key := k } := by
  obtain ⟨x, hx⟩ := Option.isSome_iff_exists.mp h
  have hid := team?_key hx
  simp [State.tm, team?_apply_team, hx, mapTeam, hid]

theorem tm_apply_team_ne (s : State) {k u : Nat} (f : Team → Team) (h : u ≠ k) :
    ((Upd.team k f).apply s).tm u = s.tm u := by
  unfold State.tm
  rw [team?_apply_team]
  cases hx : s.team? u with
  | none => rfl
  | some x =>
    have hid := team?_key hx
    simp [mapTeam, hid, h]

/-- An update that leaves the list of threads leaves every thread. -/
theorem th_of_threads {s s' : State} (h : s'.threads = s.threads) (t : TId) : s'.th t = s.th t := by
  simp [State.th, State.thread?, h]
theorem gr_of_groups {s s' : State} (h : s'.groups = s.groups) (g : GId) : s'.gr g = s.gr g := by
  simp [State.gr, State.group?, h]
theorem tm_of_teams {s s' : State} (h : s'.teams = s.teams) (k : Nat) : s'.tm k = s.tm k := by
  simp [State.tm, State.team?, h]

theorem isSome_thread?_apply_thread (s : State) (t u : TId) (f : Thread → Thread) :
    (((Upd.thread t f).apply s).thread? u).isSome = (s.thread? u).isSome := by
  rw [thread?_apply_thread, Option.isSome_map]
theorem isSome_group?_apply_group (s : State) (g u : GId) (f : Group → Group) :
    (((Upd.group g f).apply s).group? u).isSome = (s.group? u).isSome := by
  rw [group?_apply_group, Option.isSome_map]

end Sys2Proof.Machine
end

