-- ==== Sys2Proof/Laws/Issue.lean ====
section
/-! SUPPORT. The issue of an instruction: what a thread that meets no match, no trap and no consumed poison does is its
instruction's own effect; and what a trace record changes. -/

namespace Sys2Proof.Machine

/-! ## Bytes written in a row -/

theorem leBytes_length (n v : Nat) : (leBytes n v).length = n := by
  induction n generalizing v with
  | zero => rfl
  | succ n ih => simp [leBytes, ih]

theorem mem_cells {a : Nat} {bs : List Byte} {w : Nat × Byte} (h : w ∈ cells a bs) : a ≤ w.1 ∧ w.1 < a + bs.length := by
  induction bs generalizing a with
  | nil => simp [cells] at h
  | cons b bs ih =>
    rcases List.mem_cons.mp h with rfl | h
    · simp
    · have := ih h
      simp only [List.length_cons]
      omega

/-- A store leaves every byte outside the bytes it stores. -/
theorem byte_apply_store (s : State) (a : Nat) (bs : List Byte) (b : Nat) (h : b < a ∨ a + bs.length ≤ b) :
    ((Upd.store a bs).apply s).byte b = s.byte b := by
  refine Memory.get_setAll_of_notMem _ _ _ fun w hw => ?_
  have := mem_cells hw
  omega

theorem get_setAll_cells {lo : Nat} : ∀ (bs : List Byte) {m : List Host.Cell} (a i : Nat), Memory.wfFrom lo m = true → lo ≤ a →
    (h : i < bs.length) → Memory.get (Memory.setAll m (cells a bs)) (a + i) = bs[i]
  | b :: bs, m, a, 0, hw, ha, _ => by
    simp only [cells, Memory.setAll, Nat.add_zero]
    rw [Memory.get_setAll_of_notMem _ _ _ fun w hw => by have := mem_cells hw; omega]
    exact Memory.get_set_self a b hw
  | b :: bs, m, a, i + 1, hw, ha, h => by
    simp only [cells, Memory.setAll, List.getElem_cons_succ]
    rw [show a + (i + 1) = a + 1 + i by omega]
    exact get_setAll_cells bs (a + 1) i (Memory.wfFrom_set hw ha) (by omega) (by simpa using h)

/-- A store is read back. -/
theorem byte_apply_store_self (s : State) (a : Nat) (bs : List Byte) (i : Nat) (hw : Memory.wf s.mem = true) (h : i < bs.length) :
    ((Upd.store a bs).apply s).byte (a + i) = bs[i] := get_setAll_cells bs a i hw (Nat.zero_le a) h

/-! ## Trace records -/

theorem SameButDebug.refl (m : Nat) (a : State) : SameButDebug m a a := ⟨rfl, fun _ _ => rfl⟩

theorem SameButDebug.trans {m : Nat} {a b c : State} (h : SameButDebug m a b) (g : SameButDebug m b c) : SameButDebug m a c := by
  refine ⟨?_, fun k hk => (g.mem k hk).trans (h.mem k hk)⟩
  rw [g.eq, h.eq]

theorem traceBytes_length (s s' : State) (t : TId) (i : Instr) (v : Bool) : (traceBytes s s' t i v).length = 64 := by
  simp [traceBytes, leBytes_length]

theorem SameButDebug.store {m : Nat} (s : State) (a : Nat) (bs : List Byte) (h1 : debugBase m ≤ a)
    (h2 : a + bs.length ≤ debugBase (m + 1)) : SameButDebug m s ((Upd.store a bs).apply s) :=
  ⟨rfl, fun k hk => byte_apply_store s a bs k (by omega)⟩

theorem SameButDebug.micro (m : Nat) (s : State) (i : Nat) (f : Micro → Micro) : SameButDebug m s ((Upd.micro i f).apply s) :=
  ⟨rfl, fun _ _ => rfl⟩

/-- A trace record changes the debug block of the thread's microscope core, and its TRCTL. -/
theorem traceRecord_debug (s s' : State) (t : TId) (i : Instr) (v : Bool) :
    (traceRecord s t i v).run s' = s' ∨
      ∃ h, (s.gr t.gid).hosted = some h ∧ SameButDebug h.m s' ((traceRecord s t i v).run s') := by
  cases hh : (s.gr t.gid).hosted with
  | none => left; simp [traceRecord, hh]
  | some h =>
    right
    refine ⟨h, rfl, ?_⟩
    simp only [traceRecord, run_act, hh]
    split
    · rw [applyAll_cons, applyAll_cons, applyAll_nil]
      refine SameButDebug.trans (SameButDebug.store s' _ _ ?_ ?_) (SameButDebug.micro _ _ _ _)
      · omega
      · rw [traceBytes_length]
        have hb : debugBase (h.m + 1) = debugBase h.m + 0x400000 := by simp [debugBase]; omega
        have : (s'.micro h.m).trctl.toNat % 4096 < 4096 := Nat.mod_lt _ (by decide)
        omega
    · exact SameButDebug.refl _ _

/-! ## A clear issue -/

theorem afterMatch_clear {s : State} {t : TId} {i : Instr} {eats : List VReg} {ps : List PReg} (h : Clear s t i eats ps)
    (body : TId → Eff) :
    (watchInstr t (s.th t).wordAt.toNat i.word (afterMatch i eats ps body t)).run s = (body t).run s := by
  simp [watchInstr, afterMatch, h.names, h.watch, h.regs, h.preds]

theorem issueThread_clear {s : State} {t : TId} {i : Instr} {eats : List VReg} {ps : List PReg} (h : Clear s t i eats ps)
    (hh : (s.gr t.gid).hosted = none) (body : TId → Eff) : (issueThread i eats ps body t).run s = (body t).run s := by
  simp only [issueThread, traced, run_read, hh, Option.isNone_none, if_true]
  exact afterMatch_clear h body

/-- The issue of an instruction by one thread, when the thread is not hosted. -/
theorem issue_solo {s : State} {t : TId} {i : Instr} {eats : List VReg} {ps : List PReg} (hs : Solo s t) (h : Clear s t i eats ps)
    (hh : (s.gr t.gid).hosted = none) (body : TId → Eff) : (issue i eats ps body).run s = (body t).run s := by
  simp [issue, hs.cur, issueThread_clear h hh]

/-- The issue of an instruction by one thread, hosted or not; TRACE, whose record comes first, apart. -/
theorem issue_solo_debug {s : State} {t : TId} {i : Instr} {eats : List VReg} {ps : List PReg} (hs : Solo s t)
    (h : Clear s t i eats ps) (hi : ∀ op, i ≠ .trace op) (body : TId → Eff) :
    (issue i eats ps body).run s = (body t).run s ∨
      ∃ g, (s.gr t.gid).hosted = some g ∧ SameButDebug g.m ((body t).run s) ((issue i eats ps body).run s) := by
  cases hh : (s.gr t.gid).hosted with
  | none => left; exact issue_solo hs h hh body
  | some g =>
    have key : (issue i eats ps body).run s =
        (Eff.read fun s' => if (s'.th t).run.heldBack then .nothing else traceRecord s t i false).run ((body t).run s) := by
      simp only [issue, run_perThread, hs.cur, run_each_cons, run_each_nil, issueThread, traced, run_read, hh, Option.isNone_some,
        if_false, Bool.false_eq_true]
      cases i <;> first | exact absurd rfl (hi _) | simp only [run_seq, run_read, afterMatch_clear h body]
    rw [key]
    simp only [run_read]
    split
    · left; rfl
    · rcases traceRecord_debug s ((body t).run s) t i false with he | ⟨g', hg', hd⟩
      · left; exact he
      · right; exact ⟨g', by rw [← hh, hg'], hd⟩

/-! ## Registers -/

@[simp] theorem reg_setReg_self (x : Thread) (r : VReg) (y : Reg) : (x.setReg r y).reg r = y := by
  simp [Thread.setReg, Thread.reg]

theorem reg_setReg_ne (x : Thread) {r q : VReg} (y : Reg) (h : q ≠ r) : (x.setReg r y).reg q = x.reg q := by
  have : r.toNat ≠ q.toNat := fun e => h (BitVec.eq_of_toNat_eq e.symm)
  simp [Thread.setReg, Thread.reg, this]

@[simp] theorem setReg_p (x : Thread) (r : VReg) (y : Reg) : (x.setReg r y).p = x.p := rfl
@[simp] theorem setReg_id (x : Thread) (r : VReg) (y : Reg) : (x.setReg r y).id = x.id := rfl

/-- p0 stays true (R59, R70). -/
theorem pred_zero (x : Thread) : x.pred 0#3 = ⟨true, false, 0#3⟩ := by simp [Thread.pred]

theorem pred_setPred_self (x : Thread) {p : PReg} (y : Pred) (h : p ≠ 0#3) : (x.setPred p y).pred p = y := by
  simp [Thread.setPred, Thread.pred, h]

theorem pred_setPred_ne (x : Thread) {p q : PReg} (y : Pred) (h : q ≠ p) : (x.setPred p y).pred q = x.pred q := by
  have : p.toNat ≠ q.toNat := fun e => h (BitVec.eq_of_toNat_eq e.symm)
  by_cases hp : p = 0#3
  · simp [Thread.setPred, hp]
  · by_cases hq : q = 0#3 <;> simp [Thread.setPred, Thread.pred, hp, hq, this]

@[simp] theorem setPred_v (x : Thread) (p : PReg) (y : Pred) : (x.setPred p y).v = x.v := by
  unfold Thread.setPred; split <;> rfl

/-! ## Moving on -/

@[simp] theorem step_v (x : Thread) (n : Nat) : (x.step n).v = x.v := by
  simp only [Thread.step, Thread.step.move, Thread.goTo]
  repeat' split
  all_goals rfl
@[simp] theorem step_p (x : Thread) (n : Nat) : (x.step n).p = x.p := by
  simp only [Thread.step, Thread.step.move, Thread.goTo]
  repeat' split
  all_goals rfl
@[simp] theorem step_id (x : Thread) (n : Nat) : (x.step n).id = x.id := by
  simp only [Thread.step, Thread.step.move, Thread.goTo]
  repeat' split
  all_goals rfl

/-! ## Engine commands and operations that are left outstanding -/

theorem drainBuffer_none {s : State} {t : TId} (h : (s.th t).wcBuf = none) : drainBuffer s t = [] := by simp only [drainBuffer, h]

theorem run_drained_none {s : State} {t : TId} (go : Eff) (h : (s.th t).wcBuf = none) : (drained t go).run s = go.run s := by
  simp only [drained, run_seq, run_act, drainBuffer_none h, applyAll_nil]

/-- What an engine command does before its own effect, for a thread with no buffered store. -/
theorem run_commanding_none {s : State} {t : TId} (wc : BitVec 3) (body : Nat → TId → Eff) (tok : Nat) (h : (s.th t).wcBuf = none) :
    (commanding wc body tok t).run s =
      (body tok t).run ((Upd.thread t fun x => { x with cmpl := x.cmpl ||| (1#8 <<< wc.toNat) }).apply s) := by
  simp only [commanding, run_drained_none _ h, run_seq, run_upds, applyAll_cons, applyAll_nil]

/-- A thread that has no engine command to observe acquires nothing by its counters. -/
theorem run_observe_none {s : State} {t : TId} (mask : BitVec 8) (h : (s.th t).cmpl = 0#8) : (observe t mask).run s = s := by
  simp [observe, h]

/-- An operation is outstanding under the next free name, and its event is owed. -/
theorem run_addOp (tok : Nat) (t : TId) (wc : BitVec 3) (dlv : Option Delivery) (line : Option Nat) (core : Nat) (job : Job)
    (ev : Nat → Option Instr) (s : State) : (addOp tok t wc dlv line core job ev).run s =
      s.applyAll ([.addOp ⟨s.nextId, tok, t, some wc, dlv, line, core, job⟩, .named 1] ++ (ev s.nextId).toList.map Upd.event) := by
  cases h : ev s.nextId <;> simp [addOp, h]

end Sys2Proof.Machine
end

