-- ==== Sys2Proof/Laws/Moves.lean ====
section
/-! SUPPORT. What the shared operations do, each said once: register writes, moving on, jumping, waiting, taking a trap. -/

namespace Sys2Proof.Machine

/-! ## Updates that spare a part of the state -/

/-- An update of no thread, group or team. -/
def Upd.spares : Upd → Bool
  | .thread _ _ | .group _ _ | .team _ _ | .addTeam _ _ _ | .dropTeam _ => false
  | _ => true

/-- An update of no byte. -/
def Upd.sparesBytes : Upd → Bool
  | .store _ _ | .stores _ => false
  | _ => true

theorem applyAll_spares : ∀ (us : List Upd) (s : State), us.all Upd.spares = true →
    (s.applyAll us).threads = s.threads ∧ (s.applyAll us).groups = s.groups ∧ (s.applyAll us).teams = s.teams
  | [], _, _ => ⟨rfl, rfl, rfl⟩
  | u :: us, s, h => by
    simp only [List.all_cons, Bool.and_eq_true] at h
    have ih := applyAll_spares us (u.apply s) h.2
    rw [applyAll_cons]
    cases u <;> simp_all [Upd.spares]

theorem applyAll_sparesBytes : ∀ (us : List Upd) (s : State), us.all Upd.sparesBytes = true → (s.applyAll us).mem = s.mem
  | [], _, _ => rfl
  | u :: us, s, h => by
    simp only [List.all_cons, Bool.and_eq_true] at h
    have ih := applyAll_sparesBytes us (u.apply s) h.2
    rw [applyAll_cons]
    cases u <;> simp_all [Upd.sparesBytes]

theorem th_applyAll_spares {us : List Upd} (s : State) (t : TId) (h : us.all Upd.spares = true) : (s.applyAll us).th t = s.th t :=
  th_of_threads (applyAll_spares us s h).1 t
theorem gr_applyAll_spares {us : List Upd} (s : State) (g : GId) (h : us.all Upd.spares = true) : (s.applyAll us).gr g = s.gr g :=
  gr_of_groups (applyAll_spares us s h).2.1 g

theorem progress_spares (s : State) (k : Nat) : (progress s k).all Upd.spares = true := by
  unfold progress; split <;> rfl
theorem progress_sparesBytes (s : State) (k : Nat) : (progress s k).all Upd.sparesBytes = true := by
  unfold progress; split <;> rfl

theorem historyV_spares (s : State) (t : TId) : ∀ (ws : List Word) (r : VReg), (historyV s t r ws).all Upd.spares = true
  | [], _ => rfl
  | w :: ws, r => by
    unfold historyV
    split
    · rfl
    · simp only [List.all_cons, Bool.and_eq_true]
      exact ⟨rfl, historyV_spares s t ws (r + 1#7)⟩

theorem touchB_spares (s : State) (t : TId) (r : VReg) (n b : Nat) : (touchB s t r n b).all Upd.spares = true := by
  unfold touchB; split <;> rfl
theorem touchB_sparesBytes (s : State) (t : TId) (r : VReg) (n b : Nat) : (touchB s t r n b).all Upd.sparesBytes = true := by
  unfold touchB; split <;> rfl

theorem historyV_unhosted {s : State} {t : TId} (h : Unhosted s t) (ws : List Word) (r : VReg) : historyV s t r ws = [] := by
  cases ws with
  | nil => rfl
  | cons w ws => simp only [historyV]; rw [show (s.gr t.gid).hosted = none from h]

theorem historyG_spares (s : State) (g : GId) (r : GReg) (w : Word) : (historyG s g r w).all Upd.spares = true := by
  unfold historyG; split <;> rfl

theorem swapActive_threads (s s' : State) (g : GId) : (s'.applyAll (swapActive s g)).threads = s'.threads := by
  unfold swapActive; split <;> rfl
theorem swapActive_teams (s s' : State) (g : GId) : (s'.applyAll (swapActive s g)).teams = s'.teams := by
  unfold swapActive; split <;> rfl
theorem swapActive_mem (s s' : State) (g : GId) : (s'.applyAll (swapActive s g)).mem = s'.mem := by
  unfold swapActive; split <;> rfl
theorem yieldPlace_threads (s s' : State) (t : TId) (y : Bool) : (s'.applyAll (yieldPlace s t y)).threads = s'.threads := by
  unfold yieldPlace; split
  · exact swapActive_threads _ _ _
  · rfl
theorem yieldPlace_teams (s s' : State) (t : TId) (y : Bool) : (s'.applyAll (yieldPlace s t y)).teams = s'.teams := by
  unfold yieldPlace; split
  · exact swapActive_teams _ _ _
  · rfl
theorem yieldPlace_mem (s s' : State) (t : TId) (y : Bool) : (s'.applyAll (yieldPlace s t y)).mem = s'.mem := by
  unfold yieldPlace; split
  · exact swapActive_mem _ _ _
  · rfl
theorem swapActive_part (s s' : State) (g : GId) : (s'.applyAll (swapActive s g)).part = s'.part := by
  unfold swapActive; split <;> rfl

/-! ## Register writes -/

theorem putReg_th_self {s s' : State} {t : TId} (r : VReg) (y : Reg) (h : (s.thread? t).isSome = true) :
    (s.applyAll (putReg s' t r y)).th t = { (s.th t).setReg r y with id := t } := by
  unfold putReg
  rw [applyAll_cons, th_applyAll_spares _ t (by rw [List.all_append, historyV_spares, touchB_spares]; rfl)]
  exact th_apply_thread_self _ h

theorem putReg_th_ne (s s' : State) {t u : TId} (r : VReg) (y : Reg) (h : u ≠ t) : (s.applyAll (putReg s' t r y)).th u = s.th u := by
  unfold putReg
  rw [applyAll_cons, th_applyAll_spares _ u (by rw [List.all_append, historyV_spares, touchB_spares]; rfl)]
  exact th_apply_thread_ne s _ h

theorem putReg_groups (s s' : State) (t : TId) (r : VReg) (y : Reg) : (s.applyAll (putReg s' t r y)).groups = s.groups := by
  unfold putReg
  rw [applyAll_cons]
  exact (applyAll_spares _ _ (by rw [List.all_append, historyV_spares, touchB_spares]; rfl)).2.1
theorem putReg_teams (s s' : State) (t : TId) (r : VReg) (y : Reg) : (s.applyAll (putReg s' t r y)).teams = s.teams := by
  unfold putReg
  rw [applyAll_cons]
  exact (applyAll_spares _ _ (by rw [List.all_append, historyV_spares, touchB_spares]; rfl)).2.2
theorem putReg_isSome (s s' : State) (t u : TId) (r : VReg) (y : Reg) :
    ((s.applyAll (putReg s' t r y)).thread? u).isSome = (s.thread? u).isSome := by
  unfold putReg
  rw [applyAll_cons]
  have := (applyAll_spares (historyV s' t r [y.val] ++ touchB s' t r 1 s'.nextId) ((Upd.thread t fun x => x.setReg r y).apply s)
    (by rw [List.all_append, historyV_spares, touchB_spares]; rfl)).1
  unfold State.thread?
  rw [this]
  exact isSome_thread?_apply_thread s t u _

theorem putRegsOf_th_self {s s' : State} {t : TId} (r : VReg) (ws : List Word) (op : Nat) (h : (s.thread? t).isSome = true) :
    (s.applyAll (putRegsOf s' t r ws op)).th t = { (s.th t).setRegs r ws with id := t } := by
  unfold putRegsOf
  rw [applyAll_cons, th_applyAll_spares _ t (by rw [List.all_append, historyV_spares, touchB_spares]; rfl)]
  exact th_apply_thread_self _ h

theorem putRegsOf_th_ne (s s' : State) {t u : TId} (r : VReg) (ws : List Word) (op : Nat) (h : u ≠ t) :
    (s.applyAll (putRegsOf s' t r ws op)).th u = s.th u := by
  unfold putRegsOf
  rw [applyAll_cons, th_applyAll_spares _ u (by rw [List.all_append, historyV_spares, touchB_spares]; rfl)]
  exact th_apply_thread_ne s _ h

/-! ## Moving on -/

/-- The thread after `Eff.done`. -/
theorem done_th_self {s : State} {t : TId} (len : Nat) (h : (s.thread? t).isSome = true) :
    ((Eff.done t len).run s).th t =
      { (s.th t).step len with id := t, run := .running, stamp := s.stamp, last := s.cycleOf t, noMatch := false, denied := false,
                               arrived := false, vetted := false, stay := [] } := by
  simp only [Eff.done, run_act]
  rw [applyAll_append]
  rw [th_of_threads (yieldPlace_threads _ _ _ _), applyAll_append, th_applyAll_spares _ t (progress_spares s t.team), applyAll_cons,
    th_applyAll_spares _ t (by rfl)]
  exact th_apply_thread_self _ h

theorem done_th_ne (s : State) {t u : TId} (len : Nat) (h : u ≠ t) : ((Eff.done t len).run s).th u = s.th u := by
  simp only [Eff.done, run_act]
  rw [applyAll_append]
  rw [th_of_threads (yieldPlace_threads _ _ _ _), applyAll_append, th_applyAll_spares _ u (progress_spares s t.team), applyAll_cons,
    th_applyAll_spares _ u (by rfl)]
  exact th_apply_thread_ne s _ h

theorem done_mem (s : State) (t : TId) (len : Nat) : ((Eff.done t len).run s).mem = s.mem := by
  simp only [Eff.done, run_act]
  rw [applyAll_append]
  rw [yieldPlace_mem, applyAll_append, applyAll_sparesBytes _ _ (progress_sparesBytes s t.team)]
  rfl

theorem done_teams (s : State) (t : TId) (len : Nat) : ((Eff.done t len).run s).teams = s.teams := by
  simp only [Eff.done, run_act]
  rw [applyAll_append]
  rw [yieldPlace_teams, applyAll_append, (applyAll_spares _ _ (progress_spares s t.team)).2.2]
  rfl

theorem done_movesOn {s : State} {t : TId} (len : Nat) (h : (s.thread? t).isSome = true) :
    MovesOn s ((Eff.done t len).run s) t len := by
  unfold MovesOn
  rw [done_th_self len h]
  exact ⟨rfl, rfl, rfl, rfl, rfl, rfl⟩

/-- A state that differs in a debug block shows the same threads, groups and teams. -/
theorem SameButDebug.threads {m : Nat} {a b : State} (h : SameButDebug m a b) : b.threads = a.threads := by rw [h.eq]
theorem SameButDebug.groups {m : Nat} {a b : State} (h : SameButDebug m a b) : b.groups = a.groups := by rw [h.eq]
theorem SameButDebug.teams {m : Nat} {a b : State} (h : SameButDebug m a b) : b.teams = a.teams := by rw [h.eq]

/-- The issue of an instruction by one thread shows the threads that its own effect leaves. -/
theorem issue_solo_threads {s : State} {t : TId} {i : Instr} {eats : List VReg} {ps : List PReg} (hs : Solo s t)
    (h : Clear s t i eats ps) (hi : ∀ op, i ≠ .trace op) (body : TId → Eff) :
    ((issue i eats ps body).run s).threads = ((body t).run s).threads ∧
      ((issue i eats ps body).run s).groups = ((body t).run s).groups ∧
        ((issue i eats ps body).run s).teams = ((body t).run s).teams := by
  rcases issue_solo_debug hs h hi body with he | ⟨_, _, hd⟩
  · rw [he]; exact ⟨rfl, rfl, rfl⟩
  · exact ⟨hd.threads, hd.groups, hd.teams⟩

/-! ## Poison -/

theorem poisoned_eq_find (x : Thread) : ∀ rs : List VReg,
    x.poisoned rs = (rs.find? fun r => (x.reg r).poison).map fun r => (x.reg r).idx
  | [] => rfl
  | r :: rs => by
    simp only [Thread.poisoned, List.find?_cons]
    cases (x.reg r).poison <;> simp [poisoned_eq_find x rs]

end Sys2Proof.Machine
end

