-- ==== Sys2Proof/Laws/Names.lean ====
section
/-! SUPPORT. Names: every effect keeps the names of threads, groups and teams distinct and the next name new, and so every state
safe; and with distinct names an element of the state is what its name stands for. -/

namespace Sys2Proof.Machine

theorem addNew_nodup {α β : Type} [DecidableEq β] (name : α → β) : ∀ (ys xs : List α), (xs.map name).Nodup →
    ((joinNew name xs ys).map name).Nodup
  | [], _, h => h
  | y :: ys, xs, h => by
    simp only [joinNew]
    refine addNew_nodup name ys _ ?_
    split
    · exact h
    · rename_i hn
      simp only [List.any_eq_true, beq_iff_eq, not_exists, not_and] at hn
      rw [List.map_append, List.nodup_append]
      refine ⟨h, by simp, ?_⟩
      intro a ha b hb
      simp only [List.map_cons, List.map_nil, List.mem_singleton] at hb
      obtain ⟨x, hx, rfl⟩ := List.mem_map.mp ha
      rw [hb]
      exact hn x hx

theorem map_name {α β : Type} (name : α → β) (f : α → α) (hf : ∀ x, name (f x) = name x) (l : List α) :
    (l.map f).map name = l.map name := by
  rw [List.map_map]
  exact List.map_congr_left fun x _ => hf x

theorem apply_names (s : State) (u : Upd) (h : NamesDistinct s) : NamesDistinct (u.apply s) := by
  obtain ⟨h1, h2, h3⟩ := h
  cases u with
  | thread t f => exact ⟨by rw [apply_thread_threads, map_name _ _ (mapThread_id t f)]; exact h1, h2, h3⟩
  | group g f => exact ⟨h1, by rw [apply_group_groups, map_name _ _ (mapGroup_id g f)]; exact h2, h3⟩
  | team k f => exact ⟨h1, h2, by rw [apply_team_teams, map_name _ _ (mapTeam_key k f)]; exact h3⟩
  | addTeam t gs ths => exact ⟨addNew_nodup _ _ _ h1, addNew_nodup _ _ _ h2, addNew_nodup _ _ _ h3⟩
  | dropTeam k =>
    exact ⟨h1.sublist (List.filter_sublist.map _), h2.sublist (List.filter_sublist.map _), h3.sublist (List.filter_sublist.map _)⟩
  | _ => exact ⟨h1, h2, h3⟩

theorem run_names (e : Eff) (s : State) (h : NamesDistinct s) : NamesDistinct (e.run s) := run_keeps NamesDistinct apply_names e s h

theorem applyAll_names (us : List Upd) (s : State) (h : NamesDistinct s) : NamesDistinct (s.applyAll us) :=
  run_names (.upds us) s h

theorem mem_joinNew {α β : Type} [DecidableEq β] (name : α → β) : ∀ (ys xs : List α) {x : α}, x ∈ joinNew name xs ys → x ∈ xs ∨ x ∈ ys
  | [], _, _, h => .inl h
  | y :: ys, xs, x, h => by
    simp only [joinNew] at h
    rcases mem_joinNew name ys _ h with h | h
    · split at h
      · exact .inl h
      · rcases List.mem_append.mp h with h | h
        · exact .inl h
        · exact .inr (by simpa using .inl (List.mem_singleton.mp h))
    · exact .inr (List.mem_cons_of_mem _ h)

theorem apply_fresh (s : State) (u : Upd) (h : FreshName s) : FreshName (u.apply s) := by
  obtain ⟨h1, h2, h3⟩ := h
  cases u with
  | thread t f =>
    refine ⟨h1, h2, fun x hx => ?_⟩
    obtain ⟨y, hy, rfl⟩ := List.mem_map.mp hx
    rw [mapThread_id]
    exact h3 y hy
  | group g f =>
    refine ⟨h1, fun x hx => ?_, h3⟩
    obtain ⟨y, hy, rfl⟩ := List.mem_map.mp hx
    rw [mapGroup_id]
    exact h2 y hy
  | team k f =>
    refine ⟨fun x hx => ?_, h2, h3⟩
    obtain ⟨y, hy, rfl⟩ := List.mem_map.mp hx
    rw [mapTeam_key]
    exact h1 y hy
  | addTeam t gs ths =>
    refine ⟨fun x hx => ?_, fun x hx => ?_, fun x hx => ?_⟩ <;> rw [apply_addTeam_nextId] <;>
      rcases mem_joinNew _ _ _ hx with h | h
    · have := h1 x h; omega
    · rw [List.mem_singleton.mp h]; omega
    · have := h2 x h; omega
    · have := (List.mem_filter.mp h).2
      simp only [beq_iff_eq] at this
      omega
    · have := h3 x h; omega
    · have := (List.mem_filter.mp h).2
      simp only [beq_iff_eq] at this
      omega
  | dropTeam k =>
    exact ⟨fun x hx => h1 x (List.mem_filter.mp hx).1, fun x hx => h2 x (List.mem_filter.mp hx).1,
      fun x hx => h3 x (List.mem_filter.mp hx).1⟩
  | named n =>
    exact ⟨fun x hx => Nat.lt_add_right n (h1 x hx), fun x hx => Nat.lt_add_right n (h2 x hx), fun x hx => Nat.lt_add_right n (h3 x hx)⟩
  | _ => exact ⟨h1, h2, h3⟩

/-- Every effect keeps a state safe. -/
theorem run_safe (e : Eff) (s : State) (h : Safe s) : Safe (e.run s) where
  mem := run_mem_wf e s h.mem
  names := run_names e s h.names
  fresh := run_keeps FreshName apply_fresh e s h.fresh
  given := Nat.le_trans h.given (run_nextId_le e s)

theorem find_of_mem {α β : Type} [DecidableEq β] (name : α → β) : ∀ {l : List α} {x : α}, (l.map name).Nodup → x ∈ l →
    l.find? (fun y => name y == name x) = some x
  | y :: l, x, h, hx => by
    rw [List.map_cons, List.nodup_cons] at h
    rcases List.mem_cons.mp hx with rfl | hx
    · simp
    · have : name y ≠ name x := fun e => h.1 (e ▸ List.mem_map_of_mem hx)
      simp only [List.find?_cons, beq_eq_false_iff_ne.mpr this]
      exact find_of_mem name h.2 hx

/-- With distinct names, a thread of the list is the thread of its name. -/
theorem th_of_mem {s : State} (h : NamesDistinct s) {x : Thread} (hx : x ∈ s.threads) : s.th x.id = x := by
  simp [State.th, State.thread?, find_of_mem Thread.id h.threads hx]
theorem gr_of_mem {s : State} (h : NamesDistinct s) {x : Group} (hx : x ∈ s.groups) : s.gr x.id = x := by
  simp [State.gr, State.group?, find_of_mem Group.id h.groups hx]
theorem tm_of_mem {s : State} (h : NamesDistinct s) {x : Team} (hx : x ∈ s.teams) : s.tm x.key = x := by
  simp [State.tm, State.team?, find_of_mem Team.key h.teams hx]

theorem mem_threadsOf {s : State} {g : GId} {x : Thread} : x ∈ s.threadsOf g ↔ x ∈ s.threads ∧ x.id.team = g.team ∧ x.id.group = g.group := by
  simp [State.threadsOf]

theorem th_id {s : State} {t : TId} : (s.th t).id = t := by
  unfold State.th
  cases h : s.thread? t with
  | none => rfl
  | some x => exact thread?_id h

theorem mem_of_thread? {s : State} {t : TId} (h : (s.thread? t).isSome = true) : s.th t ∈ s.threads := by
  obtain ⟨x, hx⟩ := Option.isSome_iff_exists.mp h
  have : s.th t = x := by simp [State.th, hx]
  rw [this]
  exact List.mem_of_find?_eq_some hx

end Sys2Proof.Machine
end

