-- ==== Sys2Proof/Laws/Frame.lean ====
section
/-! SUPPORT. The frame of a register-only effect: it composes, and each shared operation has it. -/

namespace Sys2Proof.Machine

theorem KeepsThread.refl (x : Thread) (rs : List VReg) (ps : List PReg) : KeepsThread x x rs ps :=
  ⟨fun _ _ => rfl, fun _ _ => rfl, rfl, rfl, rfl, rfl, rfl, rfl, rfl, rfl, rfl⟩

theorem KeepsThread.trans {x y z : Thread} {rs : List VReg} {ps : List PReg} (h : KeepsThread x y rs ps) (g : KeepsThread y z rs ps) :
    KeepsThread x z rs ps :=
  ⟨fun r hr => (g.regs r hr).trans (h.regs r hr), fun p hp => (g.preds p hp).trans (h.preds p hp), g.recs.trans h.recs,
    g.tpc.trans h.tpc, g.tval.trans h.tval, g.tcause.trans h.tcause, g.send.trans h.send, g.wcBuf.trans h.wcBuf,
    g.held.trans h.held, g.cmpl.trans h.cmpl, g.watch.trans h.watch⟩

theorem KeepsGroup.refl (x : Group) (gs : List GReg) : KeepsGroup x x gs := ⟨fun _ _ => rfl, rfl, ⟨rfl, rfl⟩, rfl, rfl, rfl, ⟨rfl, rfl⟩⟩

theorem KeepsGroup.trans {x y z : Group} {gs : List GReg} (h : KeepsGroup x y gs) (g : KeepsGroup y z gs) : KeepsGroup x z gs :=
  ⟨fun r hr => (g.regs r hr).trans (h.regs r hr), g.alloc.trans h.alloc, ⟨g.masks.1.trans h.masks.1, g.masks.2.trans h.masks.2⟩,
    g.counters.trans h.counters, g.narmode.trans h.narmode, g.emuvec.trans h.emuvec,
    ⟨g.home.1.trans h.home.1, g.home.2.trans h.home.2⟩⟩

theorem KeepsGroup.mono {x y : Group} {gs hs : List GReg} (h : KeepsGroup x y gs) (hh : ∀ r ∈ gs, r ∈ hs) : KeepsGroup x y hs :=
  ⟨fun r hr => h.regs r fun hm => hr (hh r hm), h.alloc, h.masks, h.counters, h.narmode, h.emuvec, h.home⟩

theorem KeepsPart.refl (p : Part) : KeepsPart p p := ⟨rfl, rfl, rfl, rfl⟩

theorem KeepsPart.trans {p q r : Part} (h : KeepsPart p q) (g : KeepsPart q r) : KeepsPart p r :=
  ⟨g.ops.trans h.ops, g.windows.trans h.windows, g.launches.trans h.launches, by rw [g.rest, h.rest]⟩

/-- Two states that agree outside the debug block of the microscope core that hosts the group of `t`. -/
def SameBytes (s a b : State) (t : TId) : Prop :=
  ∀ k, (∀ h, (s.gr t.gid).hosted = some h → k < debugBase h.m ∨ debugBase (h.m + 1) ≤ k) → b.byte k = a.byte k

theorem RegisterFrame.refl (s : State) (t : TId) (rs : List VReg) (ps : List PReg) (gs : List GReg) : RegisterFrame s s t rs ps gs :=
  ⟨KeepsThread.refl _ _ _, fun _ _ => rfl, KeepsGroup.refl _ _, fun _ _ => KeepsGroup.refl _ _, rfl, KeepsPart.refl _, rfl,
    fun _ _ => rfl⟩

theorem RegisterFrame.trans {a b c : State} {t : TId} {rs : List VReg} {ps : List PReg} {gs : List GReg}
    (h : RegisterFrame a b t rs ps gs) (g : RegisterFrame b c t rs ps gs) : RegisterFrame a c t rs ps gs :=
  ⟨h.own.trans g.own, fun u hu => (g.others u hu).trans (h.others u hu), h.group.trans g.group,
    fun u hu => (h.groups u hu).trans (g.groups u hu), g.teams.trans h.teams, h.part.trans g.part, g.time.trans h.time,
    fun k hk => (g.mem k (fun x hx => hk x (by rw [← h.group.home.2]; exact hx))).trans (h.mem k hk)⟩

/-- Update by update. -/
theorem RegisterFrame.cons {s : State} {t : TId} {rs : List VReg} {ps : List PReg} {gs : List GReg} {u : Upd} {us : List Upd}
    (h : RegisterFrame s (u.apply s) t rs ps gs) (g : RegisterFrame (u.apply s) ((u.apply s).applyAll us) t rs ps gs) :
    RegisterFrame s (s.applyAll (u :: us)) t rs ps gs := h.trans g

theorem RegisterFrame.append {s : State} {t : TId} {rs : List VReg} {ps : List PReg} {gs : List GReg} {us vs : List Upd}
    (h : RegisterFrame s (s.applyAll us) t rs ps gs) (g : RegisterFrame (s.applyAll us) ((s.applyAll us).applyAll vs) t rs ps gs) :
    RegisterFrame s (s.applyAll (us ++ vs)) t rs ps gs := by rw [applyAll_append]; exact h.trans g

theorem RegisterFrame.debug {a b : State} {t : TId} {rs : List VReg} {ps : List PReg} {gs : List GReg} {x : Hosting}
    (hx : (a.gr t.gid).hosted = some x) (h : SameButDebug x.m a b) : RegisterFrame a b t rs ps gs := by
  have ht : ∀ u, b.th u = a.th u := fun u => th_of_threads h.threads u
  have hg : ∀ u, b.gr u = a.gr u := fun u => gr_of_groups h.groups u
  refine ⟨?_, fun u _ => ht u, ?_, fun u _ => ?_, h.teams, ?_, ?_, fun k hk => h.mem k (hk x hx)⟩
  · rw [ht]; exact KeepsThread.refl _ _ _
  · rw [hg]; exact KeepsGroup.refl _ _
  · rw [hg]; exact KeepsGroup.refl _ _
  · have hp : b.part = { a.part with micros := b.part.micros } := by rw [h.eq]
    exact ⟨by rw [hp], by rw [hp], by rw [hp], by rw [hp]⟩
  · rw [h.eq]

/-- A change of the part alone. -/
theorem RegisterFrame.ofPart {s : State} {t : TId} {rs : List VReg} {ps : List PReg} {gs : List GReg} (f : Part → Part)
    (h : KeepsPart s.part (f s.part)) : RegisterFrame s ((Upd.part f).apply s) t rs ps gs :=
  ⟨KeepsThread.refl _ _ _, fun _ _ => rfl, KeepsGroup.refl _ _, fun _ _ => KeepsGroup.refl _ _, rfl, h, rfl, fun _ _ => rfl⟩

/-- A change of the thread alone. -/
theorem RegisterFrame.ofThread {s : State} {t : TId} {rs : List VReg} {ps : List PReg} {gs : List GReg} (f : Thread → Thread)
    (he : (s.thread? t).isSome = true) (h : KeepsThread (s.th t) (f (s.th t)) rs ps) :
    RegisterFrame s ((Upd.thread t f).apply s) t rs ps gs := by
  refine ⟨?_, fun u hu => th_apply_thread_ne s f hu, KeepsGroup.refl _ _, fun _ _ => KeepsGroup.refl _ _, rfl, KeepsPart.refl _, rfl,
    fun _ _ => rfl⟩
  rw [th_apply_thread_self f he]
  exact ⟨h.regs, h.preds, h.recs, h.tpc, h.tval, h.tcause, h.send, h.wcBuf, h.held, h.cmpl, h.watch⟩

theorem RegisterFrame.stamped (s : State) (t : TId) (rs : List VReg) (ps : List PReg) (gs : List GReg) :
    RegisterFrame s (Upd.stamped.apply s) t rs ps gs :=
  ⟨KeepsThread.refl _ _ _, fun _ _ => rfl, KeepsGroup.refl _ _, fun _ _ => KeepsGroup.refl _ _, rfl, KeepsPart.refl _, rfl,
    fun _ _ => rfl⟩

/-- A change of a group alone. -/
theorem RegisterFrame.ofGroup {s : State} {t : TId} {rs : List VReg} {ps : List PReg} {gs : List GReg} (g : GId) (f : Group → Group)
    (h : ∀ x, KeepsGroup x (f x) (if g = t.gid then gs else [])) : RegisterFrame s ((Upd.group g f).apply s) t rs ps gs := by
  have key : ∀ u, KeepsGroup (s.gr u) (((Upd.group g f).apply s).gr u) (if u = t.gid then gs else []) := by
    intro u
    by_cases hu : u = g
    · subst hu
      unfold State.gr
      rw [group?_apply_group]
      cases hx : s.group? u with
      | none => exact KeepsGroup.refl _ _
      | some x =>
        have hid := group?_id hx
        simp only [Option.map_some, Option.getD_some, mapGroup, hid, if_true]
        have := h x
        exact ⟨this.regs, this.alloc, this.masks, this.counters, this.narmode, this.emuvec, this.home⟩
    · rw [gr_apply_group_ne s f hu]; exact KeepsGroup.refl _ _
  refine ⟨KeepsThread.refl _ _ _, fun _ _ => rfl, ?_, fun u hu => ?_, rfl, KeepsPart.refl _, rfl, fun _ _ => rfl⟩
  · have := key t.gid; rwa [if_pos rfl] at this
  · have := key u; rwa [if_neg hu] at this

theorem debugBase_succ (m : Nat) : debugBase (m + 1) = debugBase m + 0x400000 := by simp [debugBase]; omega

/-- Values pushed into the histories of a hosted group (R257). -/
theorem RegisterFrame.history {s s0 : State} {t : TId} {rs : List VReg} {ps : List PReg} {gs : List GReg}
    (hh : (s0.gr t.gid).hosted = (s.gr t.gid).hosted) : ∀ (ws : List Word) (r : VReg),
    RegisterFrame s (s.applyAll (historyV s0 t r ws)) t rs ps gs := by
  intro ws
  induction ws generalizing s with
  | nil => intro r; exact RegisterFrame.refl _ _ _ _ _
  | cons w ws ih =>
    intro r
    cases hx : (s0.gr t.gid).hosted with
    | none => simp only [historyV, hx]; exact RegisterFrame.refl _ _ _ _ _
    | some x =>
      simp only [historyV, hx, applyAll_cons]
      have hd : SameButDebug x.m s ((pushHistory s0 (debugBase x.m + 0x100000 + x.slot.toNat * 0x80000 + t.idx % 64 * 0x2000 +
          r.toNat * 0x40) w).apply s) := by
        have h1 : x.slot.toNat < 2 := x.slot.isLt
        have h2 : r.toNat < 128 := r.isLt
        have h3 : t.idx % 64 < 64 := Nat.mod_lt _ (by decide)
        have hl : ∀ a n, (s0.bytes a n).length = n := by
          intro a n
          induction n generalizing a with
          | zero => rfl
          | succ n ih => simp [State.bytes, ih]
        refine SameButDebug.store s _ _ (by omega) ?_
        rw [List.length_append, leBytes_length, hl, debugBase_succ]
        omega
      have h0 := RegisterFrame.debug (rs := rs) (ps := ps) (gs := gs) (hh.symm.trans hx) hd
      have h1 := ih (s := (pushHistory s0 (debugBase x.m + 0x100000 + x.slot.toNat * 0x80000 + t.idx % 64 * 0x2000 +
        r.toNat * 0x40) w).apply s) (hh.trans h0.group.home.2.symm) (r + 1#7)
      exact h0.trans h1

/-- A register write. -/
theorem RegisterFrame.putReg {s s0 : State} {t : TId} {rs : List VReg} {ps : List PReg} {gs : List GReg} (r : VReg) (y : Reg)
    (he : (s.thread? t).isSome = true) (hh : (s0.gr t.gid).hosted = (s.gr t.gid).hosted) (hr : r ∈ rs) :
    RegisterFrame s (s.applyAll (putReg s0 t r y)) t rs ps gs := by
  unfold Machine.putReg
  rw [applyAll_cons, applyAll_append]
  have h1 : RegisterFrame s ((Upd.thread t fun x => x.setReg r y).apply s) t rs ps gs := RegisterFrame.ofThread _ he
    ⟨fun q hq => reg_setReg_ne _ _ (fun e => hq (e ▸ hr)), fun _ _ => rfl, rfl, rfl, rfl, rfl, rfl, rfl, rfl, rfl, rfl⟩
  have h2 := RegisterFrame.history (s := (Upd.thread t fun x => x.setReg r y).apply s) (rs := rs) (ps := ps) (gs := gs) hh [y.val] r
  refine h1.trans (h2.trans ?_)
  · unfold touchB
    split
    · rw [applyAll_cons, applyAll_nil]
      refine RegisterFrame.ofPart _ ?_
      refine ⟨rfl, ?_, rfl, rfl⟩
      simp
    · exact RegisterFrame.refl _ _ _ _ _

theorem RegisterFrame.putPred {s : State} {t : TId} {rs : List VReg} {ps : List PReg} {gs : List GReg} (p : PReg) (y : Pred)
    (he : (s.thread? t).isSome = true) (hp : p ∈ ps) : RegisterFrame s ((Machine.putPred t p y).apply s) t rs ps gs := by
  refine RegisterFrame.ofThread _ he ?_
  refine ⟨fun q _ => ?_, fun q hq => pred_setPred_ne _ _ (fun e => hq (e ▸ hp)), ?_, ?_, ?_, ?_, ?_, ?_, ?_, ?_, ?_⟩
  · simp [Thread.reg]
  all_goals (unfold Thread.setPred; split <;> rfl)

theorem bare_shrink (t : TId) (o : Op) :
    (if o.t = t then { o with dlv := o.dlv.map fun d => { d with win := d.win - 1 } } else o).bare = o.bare := by
  split
  · simp [Op.bare, Function.comp_def]
  · rfl

theorem RegisterFrame.shrink {s : State} {t u : TId} {rs : List VReg} {ps : List PReg} {gs : List GReg} :
    RegisterFrame s ((shrinkWindows u).apply s) t rs ps gs := by
  unfold shrinkWindows
  refine RegisterFrame.ofPart _ ?_
  refine ⟨?_, rfl, rfl, rfl⟩
  rw [List.map_map]
  exact List.map_congr_left fun o _ => bare_shrink u o

theorem RegisterFrame.progress {s s0 : State} {t : TId} {rs : List VReg} {ps : List PReg} {gs : List GReg} (k : Nat) :
    RegisterFrame s (s.applyAll (progress s0 k)) t rs ps gs := by
  unfold Machine.progress
  split
  · rw [applyAll_cons, applyAll_nil]
    unfold Upd.launch
    refine RegisterFrame.ofPart _ ?_
    refine ⟨rfl, rfl, ?_, rfl⟩
    rw [List.map_map]
    refine List.map_congr_left fun l _ => ?_
    simp only [Function.comp_apply]
    split <;> rfl
  · exact RegisterFrame.refl _ _ _ _ _

theorem RegisterFrame.swap {s s0 : State} {t : TId} {rs : List VReg} {ps : List PReg} {gs : List GReg} (g : GId) :
    RegisterFrame s (s.applyAll (swapActive s0 g)) t rs ps gs := by
  unfold swapActive
  split
  · exact RegisterFrame.refl _ _ _ _ _
  · refine RegisterFrame.cons ?_ (RegisterFrame.cons ?_ (RegisterFrame.refl _ _ _ _ _))
    all_goals
      refine RegisterFrame.ofGroup _ _ ?_
      intro x
      exact ⟨fun _ _ => rfl, rfl, ⟨rfl, rfl⟩, rfl, rfl, rfl, ⟨rfl, rfl⟩⟩

theorem RegisterFrame.yield {s s0 : State} {t : TId} {rs : List VReg} {ps : List PReg} {gs : List GReg} (u : TId) (b : Bool) :
    RegisterFrame s (s.applyAll (yieldPlace s0 u b)) t rs ps gs := by
  unfold yieldPlace
  split
  · exact RegisterFrame.swap _
  · exact RegisterFrame.refl _ _ _ _ _

/-- Moving on. -/
theorem RegisterFrame.done {s : State} {t : TId} {rs : List VReg} {ps : List PReg} {gs : List GReg} (len : Nat)
    (he : (s.thread? t).isSome = true) : RegisterFrame s ((Eff.done t len).run s) t rs ps gs := by
  simp only [Eff.done, run_act]
  refine RegisterFrame.append (RegisterFrame.append (RegisterFrame.cons ?_ (RegisterFrame.cons RegisterFrame.shrink
    (RegisterFrame.cons (RegisterFrame.stamped _ _ _ _ _) (RegisterFrame.refl _ _ _ _ _)))) (RegisterFrame.progress _)) ?_
  · refine RegisterFrame.ofThread _ he ?_
    simp only [Thread.step, Thread.step.move, Thread.goTo]
    repeat' split
    all_goals exact ⟨fun _ _ => rfl, fun _ _ => rfl, rfl, rfl, rfl, rfl, rfl, rfl, rfl, rfl, rfl⟩
  · exact RegisterFrame.yield _ _

/-- A jump. -/
theorem RegisterFrame.jump {s : State} {t : TId} {rs : List VReg} {ps : List PReg} {gs : List GReg} (pc : BitVec 64)
    (he : (s.thread? t).isSome = true) : RegisterFrame s ((Eff.jump t pc).run s) t rs ps gs := by
  simp only [Eff.jump, run_act]
  refine RegisterFrame.append (RegisterFrame.append (RegisterFrame.cons ?_ (RegisterFrame.cons RegisterFrame.shrink
    (RegisterFrame.cons (RegisterFrame.stamped _ _ _ _ _) (RegisterFrame.refl _ _ _ _ _)))) (RegisterFrame.progress _))
    (RegisterFrame.yield _ _)
  refine RegisterFrame.ofThread _ he ?_
  exact ⟨fun _ _ => rfl, fun _ _ => rfl, rfl, rfl, rfl, rfl, rfl, rfl, rfl, rfl, rfl⟩

/-- The issue of an instruction by one thread has the frame of its own effect. -/
theorem RegisterFrame.issue {s : State} {t : TId} {i : Instr} {eats : List VReg} {qs : List PReg} {rs : List VReg} {ps : List PReg}
    {gs : List GReg} (hs : Solo s t) (h : Clear s t i eats qs) (hi : ∀ op, i ≠ .trace op) (body : TId → Eff)
    (hb : RegisterFrame s ((body t).run s) t rs ps gs) : RegisterFrame s ((Machine.issue i eats qs body).run s) t rs ps gs := by
  rcases issue_solo_debug hs h hi body with he | ⟨x, hx, hd⟩
  · rw [he]; exact hb
  · exact RegisterFrame.trans hb (RegisterFrame.debug (hb.group.home.2.trans hx) hd)

end Sys2Proof.Machine
end

