-- ==== Sys2Proof/Laws/PerInstr.lean ====
section
/-! SUPPORT. The family Encoding: of each instruction, that the words its encoder writes decode to it, and that its first word says
whether it has another. -/

set_option linter.unusedSimpArgs false

namespace Sys2Proof.Laws.Encoding

theorem field_asWord {k : Nat} (x : BitVec k) (lo n : Nat) (_ : lo + n ≤ k) (hk : k = 32) : field (asWord x) lo n = x.extractLsb' lo n := by
  subst hk; simp [field, asWord]

theorem cat_hi {m k : Nat} (x : BitVec m) (y : BitVec k) (lo n : Nat) (h : k ≤ lo) :
    (cat x y).extractLsb' lo n = x.extractLsb' (lo - k) n := BitVec.extractLsb'_append_eq_of_le h

theorem cat_lo {m k : Nat} (x : BitVec m) (y : BitVec k) (lo n : Nat) (h : lo + n ≤ k) :
    (cat x y).extractLsb' lo n = y.extractLsb' lo n := BitVec.extractLsb'_append_eq_of_add_le h

/-- The words of a well-formed instruction are one or two; they decode to it, whatever word follows; the first says how many they
are. -/
def Statement (i : Instr) : Prop :=
  i.wf = true → ∀ (w : Word) (ws : List Word), encode i = w :: ws →
    ∀ y : Word, decodeWord w (ws.headD y) = .ok i ∧ hasExtension w = !ws.isEmpty ∧ ws.length ≤ 1

/-- An instruction of one word. -/
theorem of_one {i : Instr} {w : Word} (h : encode i = [w]) (hd : i.wf = true → ∀ y, decodeWord w y = .ok i)
    (hx : hasExtension w = false) : Statement i := by
  intro hw v vs hv y
  rw [h] at hv
  obtain ⟨rfl, rfl⟩ := List.cons.inj hv
  exact ⟨hd hw y, hx, by simp⟩

/-- An instruction of two words. -/
theorem of_two {i : Instr} {w x : Word} (h : encode i = [w, x]) (hd : i.wf = true → decodeWord w x = .ok i)
    (hx : hasExtension w = true) : Statement i := by
  intro hw v vs hv y
  rw [h] at hv
  obtain ⟨rfl, rfl⟩ := List.cons.inj hv
  exact ⟨hd hw, hx, by simp⟩

/-- An event has no words. -/
theorem of_none {i : Instr} (h : encode i = []) : Statement i := by
  intro _ v vs hv
  rw [h] at hv
  cases hv

theorem iadd : ∀ x0 x1 x2, Statement (.iadd x0 x1 x2) := by
  intro x0 x1 x2; refine of_one rfl ?_ ?_
  · intro h y; simp (disch := omega) [decodeWord, decodeFixed, decode01, field_asWord, cat_hi, cat_lo, BitVec.extractLsb'_eq_self, h]
  · simp (disch := omega) [hasExtension, field_asWord, cat_hi, cat_lo, BitVec.extractLsb'_eq_self]
theorem isub : ∀ x0 x1 x2, Statement (.isub x0 x1 x2) := by
  intro x0 x1 x2; refine of_one rfl ?_ ?_
  · intro h y; simp (disch := omega) [decodeWord, decodeFixed, decode01, field_asWord, cat_hi, cat_lo, BitVec.extractLsb'_eq_self, h]
  · simp (disch := omega) [hasExtension, field_asWord, cat_hi, cat_lo, BitVec.extractLsb'_eq_self]
theorem imul : ∀ x0 x1 x2, Statement (.imul x0 x1 x2) := by
  intro x0 x1 x2; refine of_one rfl ?_ ?_
  · intro h y; simp (disch := omega) [decodeWord, decodeFixed, decode01, field_asWord, cat_hi, cat_lo, BitVec.extractLsb'_eq_self, h]
  · simp (disch := omega) [hasExtension, field_asWord, cat_hi, cat_lo, BitVec.extractLsb'_eq_self]
theorem imulhS : ∀ x0 x1 x2, Statement (.imulhS x0 x1 x2) := by
  intro x0 x1 x2; refine of_one rfl ?_ ?_
  · intro h y; simp (disch := omega) [decodeWord, decodeFixed, decode01, field_asWord, cat_hi, cat_lo, BitVec.extractLsb'_eq_self, h]
  · simp (disch := omega) [hasExtension, field_asWord, cat_hi, cat_lo, BitVec.extractLsb'_eq_self]
theorem imulhN : ∀ x0 x1 x2, Statement (.imulhN x0 x1 x2) := by
  intro x0 x1 x2; refine of_one rfl ?_ ?_
  · intro h y; simp (disch := omega) [decodeWord, decodeFixed, decode01, field_asWord, cat_hi, cat_lo, BitVec.extractLsb'_eq_self, h]
  · simp (disch := omega) [hasExtension, field_asWord, cat_hi, cat_lo, BitVec.extractLsb'_eq_self]
theorem imad : ∀ x0 x1 x2, Statement (.imad x0 x1 x2) := by
  intro x0 x1 x2; refine of_one rfl ?_ ?_
  · intro h y; simp (disch := omega) [decodeWord, decodeFixed, decode01, field_asWord, cat_hi, cat_lo, BitVec.extractLsb'_eq_self, h]
  · simp (disch := omega) [hasExtension, field_asWord, cat_hi, cat_lo, BitVec.extractLsb'_eq_self]
theorem iminS : ∀ x0 x1 x2, Statement (.iminS x0 x1 x2) := by
  intro x0 x1 x2; refine of_one rfl ?_ ?_
  · intro h y; simp (disch := omega) [decodeWord, decodeFixed, decode01, field_asWord, cat_hi, cat_lo, BitVec.extractLsb'_eq_self, h]
  · simp (disch := omega) [hasExtension, field_asWord, cat_hi, cat_lo, BitVec.extractLsb'_eq_self]
theorem iminN : ∀ x0 x1 x2, Statement (.iminN x0 x1 x2) := by
  intro x0 x1 x2; refine of_one rfl ?_ ?_
  · intro h y; simp (disch := omega) [decodeWord, decodeFixed, decode01, field_asWord, cat_hi, cat_lo, BitVec.extractLsb'_eq_self, h]
  · simp (disch := omega) [hasExtension, field_asWord, cat_hi, cat_lo, BitVec.extractLsb'_eq_self]
theorem imaxS : ∀ x0 x1 x2, Statement (.imaxS x0 x1 x2) := by
  intro x0 x1 x2; refine of_one rfl ?_ ?_
  · intro h y; simp (disch := omega) [decodeWord, decodeFixed, decode01, field_asWord, cat_hi, cat_lo, BitVec.extractLsb'_eq_self, h]
  · simp (disch := omega) [hasExtension, field_asWord, cat_hi, cat_lo, BitVec.extractLsb'_eq_self]
theorem imaxN : ∀ x0 x1 x2, Statement (.imaxN x0 x1 x2) := by
  intro x0 x1 x2; refine of_one rfl ?_ ?_
  · intro h y; simp (disch := omega) [decodeWord, decodeFixed, decode01, field_asWord, cat_hi, cat_lo, BitVec.extractLsb'_eq_self, h]
  · simp (disch := omega) [hasExtension, field_asWord, cat_hi, cat_lo, BitVec.extractLsb'_eq_self]
theorem iabs : ∀ x0 x1, Statement (.iabs x0 x1) := by
  intro x0 x1; refine of_one rfl ?_ ?_
  · intro h y; simp (disch := omega) [decodeWord, decodeFixed, decode01, field_asWord, cat_hi, cat_lo, BitVec.extractLsb'_eq_self, h]
  · simp (disch := omega) [hasExtension, field_asWord, cat_hi, cat_lo, BitVec.extractLsb'_eq_self]
theorem isel : ∀ x0 x1 x2, Statement (.isel x0 x1 x2) := by
  intro x0 x1 x2; refine of_one rfl ?_ ?_
  · intro h y; simp (disch := omega) [decodeWord, decodeFixed, decode01, field_asWord, cat_hi, cat_lo, BitVec.extractLsb'_eq_self, h]
  · simp (disch := omega) [hasExtension, field_asWord, cat_hi, cat_lo, BitVec.extractLsb'_eq_self]
theorem iadd2 : ∀ x0 x1 x2, Statement (.iadd2 x0 x1 x2) := by
  intro x0 x1 x2; refine of_one rfl ?_ ?_
  · intro h y; simp (disch := omega) [decodeWord, decodeFixed, decode01, field_asWord, cat_hi, cat_lo, BitVec.extractLsb'_eq_self, h]
  · simp (disch := omega) [hasExtension, field_asWord, cat_hi, cat_lo, BitVec.extractLsb'_eq_self]
theorem isub2 : ∀ x0 x1 x2, Statement (.isub2 x0 x1 x2) := by
  intro x0 x1 x2; refine of_one rfl ?_ ?_
  · intro h y; simp (disch := omega) [decodeWord, decodeFixed, decode01, field_asWord, cat_hi, cat_lo, BitVec.extractLsb'_eq_self, h]
  · simp (disch := omega) [hasExtension, field_asWord, cat_hi, cat_lo, BitVec.extractLsb'_eq_self]
theorem imin2S : ∀ x0 x1 x2, Statement (.imin2S x0 x1 x2) := by
  intro x0 x1 x2; refine of_one rfl ?_ ?_
  · intro h y; simp (disch := omega) [decodeWord, decodeFixed, decode01, field_asWord, cat_hi, cat_lo, BitVec.extractLsb'_eq_self, h]
  · simp (disch := omega) [hasExtension, field_asWord, cat_hi, cat_lo, BitVec.extractLsb'_eq_self]
theorem imin2N : ∀ x0 x1 x2, Statement (.imin2N x0 x1 x2) := by
  intro x0 x1 x2; refine of_one rfl ?_ ?_
  · intro h y; simp (disch := omega) [decodeWord, decodeFixed, decode01, field_asWord, cat_hi, cat_lo, BitVec.extractLsb'_eq_self, h]
  · simp (disch := omega) [hasExtension, field_asWord, cat_hi, cat_lo, BitVec.extractLsb'_eq_self]
theorem imax2S : ∀ x0 x1 x2, Statement (.imax2S x0 x1 x2) := by
  intro x0 x1 x2; refine of_one rfl ?_ ?_
  · intro h y; simp (disch := omega) [decodeWord, decodeFixed, decode01, field_asWord, cat_hi, cat_lo, BitVec.extractLsb'_eq_self, h]
  · simp (disch := omega) [hasExtension, field_asWord, cat_hi, cat_lo, BitVec.extractLsb'_eq_self]
theorem imax2N : ∀ x0 x1 x2, Statement (.imax2N x0 x1 x2) := by
  intro x0 x1 x2; refine of_one rfl ?_ ?_
  · intro h y; simp (disch := omega) [decodeWord, decodeFixed, decode01, field_asWord, cat_hi, cat_lo, BitVec.extractLsb'_eq_self, h]
  · simp (disch := omega) [hasExtension, field_asWord, cat_hi, cat_lo, BitVec.extractLsb'_eq_self]
theorem maxd2 : ∀ x0 x1 x2, Statement (.maxd2 x0 x1 x2) := by
  intro x0 x1 x2; refine of_one rfl ?_ ?_
  · intro h y; simp (disch := omega) [decodeWord, decodeFixed, decode01, field_asWord, cat_hi, cat_lo, BitVec.extractLsb'_eq_self, h]
  · simp (disch := omega) [hasExtension, field_asWord, cat_hi, cat_lo, BitVec.extractLsb'_eq_self]
theorem and : ∀ x0 x1 x2, Statement (.and x0 x1 x2) := by
  intro x0 x1 x2; refine of_one rfl ?_ ?_
  · intro h y; simp (disch := omega) [decodeWord, decodeFixed, decode02, field_asWord, cat_hi, cat_lo, BitVec.extractLsb'_eq_self, h]
  · simp (disch := omega) [hasExtension, field_asWord, cat_hi, cat_lo, BitVec.extractLsb'_eq_self]
theorem or : ∀ x0 x1 x2, Statement (.or x0 x1 x2) := by
  intro x0 x1 x2; refine of_one rfl ?_ ?_
  · intro h y; simp (disch := omega) [decodeWord, decodeFixed, decode02, field_asWord, cat_hi, cat_lo, BitVec.extractLsb'_eq_self, h]
  · simp (disch := omega) [hasExtension, field_asWord, cat_hi, cat_lo, BitVec.extractLsb'_eq_self]
theorem xor : ∀ x0 x1 x2, Statement (.xor x0 x1 x2) := by
  intro x0 x1 x2; refine of_one rfl ?_ ?_
  · intro h y; simp (disch := omega) [decodeWord, decodeFixed, decode02, field_asWord, cat_hi, cat_lo, BitVec.extractLsb'_eq_self, h]
  · simp (disch := omega) [hasExtension, field_asWord, cat_hi, cat_lo, BitVec.extractLsb'_eq_self]
theorem not : ∀ x0 x1, Statement (.not x0 x1) := by
  intro x0 x1; refine of_one rfl ?_ ?_
  · intro h y; simp (disch := omega) [decodeWord, decodeFixed, decode02, field_asWord, cat_hi, cat_lo, BitVec.extractLsb'_eq_self, h]
  · simp (disch := omega) [hasExtension, field_asWord, cat_hi, cat_lo, BitVec.extractLsb'_eq_self]
theorem shl : ∀ x0 x1 x2, Statement (.shl x0 x1 x2) := by
  intro x0 x1 x2; refine of_one rfl ?_ ?_
  · intro h y; simp (disch := omega) [decodeWord, decodeFixed, decode02, field_asWord, cat_hi, cat_lo, BitVec.extractLsb'_eq_self, h]
  · simp (disch := omega) [hasExtension, field_asWord, cat_hi, cat_lo, BitVec.extractLsb'_eq_self]
theorem shr : ∀ x0 x1 x2, Statement (.shr x0 x1 x2) := by
  intro x0 x1 x2; refine of_one rfl ?_ ?_
  · intro h y; simp (disch := omega) [decodeWord, decodeFixed, decode02, field_asWord, cat_hi, cat_lo, BitVec.extractLsb'_eq_self, h]
  · simp (disch := omega) [hasExtension, field_asWord, cat_hi, cat_lo, BitVec.extractLsb'_eq_self]
theorem sar : ∀ x0 x1 x2, Statement (.sar x0 x1 x2) := by
  intro x0 x1 x2; refine of_one rfl ?_ ?_
  · intro h y; simp (disch := omega) [decodeWord, decodeFixed, decode02, field_asWord, cat_hi, cat_lo, BitVec.extractLsb'_eq_self, h]
  · simp (disch := omega) [hasExtension, field_asWord, cat_hi, cat_lo, BitVec.extractLsb'_eq_self]
theorem rot : ∀ x0 x1 x2, Statement (.rot x0 x1 x2) := by
  intro x0 x1 x2; refine of_one rfl ?_ ?_
  · intro h y; simp (disch := omega) [decodeWord, decodeFixed, decode02, field_asWord, cat_hi, cat_lo, BitVec.extractLsb'_eq_self, h]
  · simp (disch := omega) [hasExtension, field_asWord, cat_hi, cat_lo, BitVec.extractLsb'_eq_self]
theorem bfxS : ∀ x0 x1 x2, Statement (.bfxS x0 x1 x2) := by
  intro x0 x1 x2; refine of_one rfl ?_ ?_
  · intro h y; simp (disch := omega) [decodeWord, decodeFixed, decode02, field_asWord, cat_hi, cat_lo, BitVec.extractLsb'_eq_self, h]
  · simp (disch := omega) [hasExtension, field_asWord, cat_hi, cat_lo, BitVec.extractLsb'_eq_self]
theorem bfxN : ∀ x0 x1 x2, Statement (.bfxN x0 x1 x2) := by
  intro x0 x1 x2; refine of_one rfl ?_ ?_
  · intro h y; simp (disch := omega) [decodeWord, decodeFixed, decode02, field_asWord, cat_hi, cat_lo, BitVec.extractLsb'_eq_self, h]
  · simp (disch := omega) [hasExtension, field_asWord, cat_hi, cat_lo, BitVec.extractLsb'_eq_self]
theorem bfi : ∀ x0 x1 x2, Statement (.bfi x0 x1 x2) := by
  intro x0 x1 x2; refine of_one rfl ?_ ?_
  · intro h y; simp (disch := omega) [decodeWord, decodeFixed, decode02, field_asWord, cat_hi, cat_lo, BitVec.extractLsb'_eq_self, h]
  · simp (disch := omega) [hasExtension, field_asWord, cat_hi, cat_lo, BitVec.extractLsb'_eq_self]
theorem popc : ∀ x0 x1, Statement (.popc x0 x1) := by
  intro x0 x1; refine of_one rfl ?_ ?_
  · intro h y; simp (disch := omega) [decodeWord, decodeFixed, decode02, field_asWord, cat_hi, cat_lo, BitVec.extractLsb'_eq_self, h]
  · simp (disch := omega) [hasExtension, field_asWord, cat_hi, cat_lo, BitVec.extractLsb'_eq_self]
theorem clz : ∀ x0 x1, Statement (.clz x0 x1) := by
  intro x0 x1; refine of_one rfl ?_ ?_
  · intro h y; simp (disch := omega) [decodeWord, decodeFixed, decode02, field_asWord, cat_hi, cat_lo, BitVec.extractLsb'_eq_self, h]
  · simp (disch := omega) [hasExtension, field_asWord, cat_hi, cat_lo, BitVec.extractLsb'_eq_self]
theorem brev : ∀ x0 x1, Statement (.brev x0 x1) := by
  intro x0 x1; refine of_one rfl ?_ ?_
  · intro h y; simp (disch := omega) [decodeWord, decodeFixed, decode02, field_asWord, cat_hi, cat_lo, BitVec.extractLsb'_eq_self, h]
  · simp (disch := omega) [hasExtension, field_asWord, cat_hi, cat_lo, BitVec.extractLsb'_eq_self]
theorem mov : ∀ x0 x1, Statement (.mov x0 x1) := by
  intro x0 x1; refine of_one rfl ?_ ?_
  · intro h y; simp (disch := omega) [decodeWord, decodeFixed, decode02, field_asWord, cat_hi, cat_lo, BitVec.extractLsb'_eq_self, h]
  · simp (disch := omega) [hasExtension, field_asWord, cat_hi, cat_lo, BitVec.extractLsb'_eq_self]
theorem movgToG : ∀ x0 x1, Statement (.movgToG x0 x1) := by
  intro x0 x1; refine of_one rfl ?_ ?_
  · intro h y; simp (disch := omega) [decodeWord, decodeFixed, decode02, field_asWord, cat_hi, cat_lo, BitVec.extractLsb'_eq_self, h]
  · simp (disch := omega) [hasExtension, field_asWord, cat_hi, cat_lo, BitVec.extractLsb'_eq_self]
theorem movgFromG : ∀ x0 x1, Statement (.movgFromG x0 x1) := by
  intro x0 x1; refine of_one rfl ?_ ?_
  · intro h y; simp (disch := omega) [decodeWord, decodeFixed, decode02, field_asWord, cat_hi, cat_lo, BitVec.extractLsb'_eq_self, h]
  · simp (disch := omega) [hasExtension, field_asWord, cat_hi, cat_lo, BitVec.extractLsb'_eq_self]
theorem iaddi : ∀ x0 x1 x2, Statement (.iaddi x0 x1 x2) := by
  intro x0 x1 x2; refine of_one rfl ?_ ?_
  · intro h y; simp (disch := omega) [decodeWord, decodeFixed, decode03, field_asWord, cat_hi, cat_lo, BitVec.extractLsb'_eq_self, h]
  · simp (disch := omega) [hasExtension, field_asWord, cat_hi, cat_lo, BitVec.extractLsb'_eq_self]
theorem andi : ∀ x0 x1 x2, Statement (.andi x0 x1 x2) := by
  intro x0 x1 x2; refine of_one rfl ?_ ?_
  · intro h y; simp (disch := omega) [decodeWord, decodeFixed, decode04, field_asWord, cat_hi, cat_lo, BitVec.extractLsb'_eq_self, h]
  · simp (disch := omega) [hasExtension, field_asWord, cat_hi, cat_lo, BitVec.extractLsb'_eq_self]
theorem ori : ∀ x0 x1 x2, Statement (.ori x0 x1 x2) := by
  intro x0 x1 x2; refine of_one rfl ?_ ?_
  · intro h y; simp (disch := omega) [decodeWord, decodeFixed, decode05, field_asWord, cat_hi, cat_lo, BitVec.extractLsb'_eq_self, h]
  · simp (disch := omega) [hasExtension, field_asWord, cat_hi, cat_lo, BitVec.extractLsb'_eq_self]
theorem xori : ∀ x0 x1 x2, Statement (.xori x0 x1 x2) := by
  intro x0 x1 x2; refine of_one rfl ?_ ?_
  · intro h y; simp (disch := omega) [decodeWord, decodeFixed, decode06, field_asWord, cat_hi, cat_lo, BitVec.extractLsb'_eq_self, h]
  · simp (disch := omega) [hasExtension, field_asWord, cat_hi, cat_lo, BitVec.extractLsb'_eq_self]
theorem cmpi : ∀ x0 x1 x2 x3, Statement (.cmpi x0 x1 x2 x3) := by
  intro x0 x1 x2 x3; refine of_one rfl ?_ ?_
  · intro h y; simp (disch := omega) [decodeWord, decodeFixed, decode07, field_asWord, cat_hi, cat_lo, BitVec.extractLsb'_eq_self, h]
  · simp (disch := omega) [hasExtension, field_asWord, cat_hi, cat_lo, BitVec.extractLsb'_eq_self]
theorem movi : ∀ x0 x1, Statement (.movi x0 x1) := by
  intro x0 x1; refine of_one rfl ?_ ?_
  · intro h y; simp (disch := omega) [decodeWord, decodeFixed, decode08, field_asWord, cat_hi, cat_lo, BitVec.extractLsb'_eq_self, h]
  · simp (disch := omega) [hasExtension, field_asWord, cat_hi, cat_lo, BitVec.extractLsb'_eq_self]
theorem moviX : ∀ x0 x1, Statement (.moviX x0 x1) := by
  intro x0 x1; refine of_two rfl ?_ ?_
  · intro h; simp (disch := omega) [decodeWord, decodeFixed, decode08, field_asWord, cat_hi, cat_lo, BitVec.extractLsb'_eq_self, h]
  · simp (disch := omega) [hasExtension, field_asWord, cat_hi, cat_lo, BitVec.extractLsb'_eq_self]
theorem lea : ∀ x0 x1 x2, Statement (.lea x0 x1 x2) := by
  intro x0 x1 x2; refine of_one rfl ?_ ?_
  · intro h y; simp (disch := omega) [decodeWord, decodeFixed, decode09, field_asWord, cat_hi, cat_lo, BitVec.extractLsb'_eq_self, h]
  · simp (disch := omega) [hasExtension, field_asWord, cat_hi, cat_lo, BitVec.extractLsb'_eq_self]
theorem fadd : ∀ x0 x1 x2, Statement (.fadd x0 x1 x2) := by
  intro x0 x1 x2; refine of_one rfl ?_ ?_
  · intro h y; simp (disch := omega) [decodeWord, decodeFixed, decode0A, field_asWord, cat_hi, cat_lo, BitVec.extractLsb'_eq_self, h]
  · simp (disch := omega) [hasExtension, field_asWord, cat_hi, cat_lo, BitVec.extractLsb'_eq_self]
theorem fsub : ∀ x0 x1 x2, Statement (.fsub x0 x1 x2) := by
  intro x0 x1 x2; refine of_one rfl ?_ ?_
  · intro h y; simp (disch := omega) [decodeWord, decodeFixed, decode0A, field_asWord, cat_hi, cat_lo, BitVec.extractLsb'_eq_self, h]
  · simp (disch := omega) [hasExtension, field_asWord, cat_hi, cat_lo, BitVec.extractLsb'_eq_self]
theorem fmul : ∀ x0 x1 x2, Statement (.fmul x0 x1 x2) := by
  intro x0 x1 x2; refine of_one rfl ?_ ?_
  · intro h y; simp (disch := omega) [decodeWord, decodeFixed, decode0A, field_asWord, cat_hi, cat_lo, BitVec.extractLsb'_eq_self, h]
  · simp (disch := omega) [hasExtension, field_asWord, cat_hi, cat_lo, BitVec.extractLsb'_eq_self]
theorem ffma : ∀ x0 x1 x2, Statement (.ffma x0 x1 x2) := by
  intro x0 x1 x2; refine of_one rfl ?_ ?_
  · intro h y; simp (disch := omega) [decodeWord, decodeFixed, decode0A, field_asWord, cat_hi, cat_lo, BitVec.extractLsb'_eq_self, h]
  · simp (disch := omega) [hasExtension, field_asWord, cat_hi, cat_lo, BitVec.extractLsb'_eq_self]
theorem fmin : ∀ x0 x1 x2, Statement (.fmin x0 x1 x2) := by
  intro x0 x1 x2; refine of_one rfl ?_ ?_
  · intro h y; simp (disch := omega) [decodeWord, decodeFixed, decode0A, field_asWord, cat_hi, cat_lo, BitVec.extractLsb'_eq_self, h]
  · simp (disch := omega) [hasExtension, field_asWord, cat_hi, cat_lo, BitVec.extractLsb'_eq_self]
theorem fmax : ∀ x0 x1 x2, Statement (.fmax x0 x1 x2) := by
  intro x0 x1 x2; refine of_one rfl ?_ ?_
  · intro h y; simp (disch := omega) [decodeWord, decodeFixed, decode0A, field_asWord, cat_hi, cat_lo, BitVec.extractLsb'_eq_self, h]
  · simp (disch := omega) [hasExtension, field_asWord, cat_hi, cat_lo, BitVec.extractLsb'_eq_self]
theorem fdot2 : ∀ x0 x1 x2, Statement (.fdot2 x0 x1 x2) := by
  intro x0 x1 x2; refine of_one rfl ?_ ?_
  · intro h y; simp (disch := omega) [decodeWord, decodeFixed, decode0A, field_asWord, cat_hi, cat_lo, BitVec.extractLsb'_eq_self, h]
  · simp (disch := omega) [hasExtension, field_asWord, cat_hi, cat_lo, BitVec.extractLsb'_eq_self]
theorem fkey : ∀ x0 x1, Statement (.fkey x0 x1) := by
  intro x0 x1; refine of_one rfl ?_ ?_
  · intro h y; simp (disch := omega) [decodeWord, decodeFixed, decode0A, field_asWord, cat_hi, cat_lo, BitVec.extractLsb'_eq_self, h]
  · simp (disch := omega) [hasExtension, field_asWord, cat_hi, cat_lo, BitVec.extractLsb'_eq_self]
theorem fclass : ∀ x0 x1, Statement (.fclass x0 x1) := by
  intro x0 x1; refine of_one rfl ?_ ?_
  · intro h y; simp (disch := omega) [decodeWord, decodeFixed, decode0A, field_asWord, cat_hi, cat_lo, BitVec.extractLsb'_eq_self, h]
  · simp (disch := omega) [hasExtension, field_asWord, cat_hi, cat_lo, BitVec.extractLsb'_eq_self]
theorem fcvt : ∀ x0 x1 x2, Statement (.fcvt x0 x1 x2) := by
  intro x0 x1 x2; refine of_one rfl ?_ ?_
  · intro h y; simp (disch := omega) [decodeWord, decodeFixed, decode0B, field_asWord, cat_hi, cat_lo, BitVec.extractLsb'_eq_self, h]
  · simp (disch := omega) [hasExtension, field_asWord, cat_hi, cat_lo, BitVec.extractLsb'_eq_self]
theorem frcp : ∀ x0 x1, Statement (.frcp x0 x1) := by
  intro x0 x1; refine of_one rfl ?_ ?_
  · intro h y; simp (disch := omega) [decodeWord, decodeFixed, decode0C, field_asWord, cat_hi, cat_lo, BitVec.extractLsb'_eq_self, h]
  · simp (disch := omega) [hasExtension, field_asWord, cat_hi, cat_lo, BitVec.extractLsb'_eq_self]
theorem frsq : ∀ x0 x1, Statement (.frsq x0 x1) := by
  intro x0 x1; refine of_one rfl ?_ ?_
  · intro h y; simp (disch := omega) [decodeWord, decodeFixed, decode0C, field_asWord, cat_hi, cat_lo, BitVec.extractLsb'_eq_self, h]
  · simp (disch := omega) [hasExtension, field_asWord, cat_hi, cat_lo, BitVec.extractLsb'_eq_self]
theorem fsqrt : ∀ x0 x1, Statement (.fsqrt x0 x1) := by
  intro x0 x1; refine of_one rfl ?_ ?_
  · intro h y; simp (disch := omega) [decodeWord, decodeFixed, decode0C, field_asWord, cat_hi, cat_lo, BitVec.extractLsb'_eq_self, h]
  · simp (disch := omega) [hasExtension, field_asWord, cat_hi, cat_lo, BitVec.extractLsb'_eq_self]
theorem fexp2 : ∀ x0 x1, Statement (.fexp2 x0 x1) := by
  intro x0 x1; refine of_one rfl ?_ ?_
  · intro h y; simp (disch := omega) [decodeWord, decodeFixed, decode0C, field_asWord, cat_hi, cat_lo, BitVec.extractLsb'_eq_self, h]
  · simp (disch := omega) [hasExtension, field_asWord, cat_hi, cat_lo, BitVec.extractLsb'_eq_self]
theorem flog2 : ∀ x0 x1, Statement (.flog2 x0 x1) := by
  intro x0 x1; refine of_one rfl ?_ ?_
  · intro h y; simp (disch := omega) [decodeWord, decodeFixed, decode0C, field_asWord, cat_hi, cat_lo, BitVec.extractLsb'_eq_self, h]
  · simp (disch := omega) [hasExtension, field_asWord, cat_hi, cat_lo, BitVec.extractLsb'_eq_self]
theorem fsin : ∀ x0 x1, Statement (.fsin x0 x1) := by
  intro x0 x1; refine of_one rfl ?_ ?_
  · intro h y; simp (disch := omega) [decodeWord, decodeFixed, decode0C, field_asWord, cat_hi, cat_lo, BitVec.extractLsb'_eq_self, h]
  · simp (disch := omega) [hasExtension, field_asWord, cat_hi, cat_lo, BitVec.extractLsb'_eq_self]
theorem fcos : ∀ x0 x1, Statement (.fcos x0 x1) := by
  intro x0 x1; refine of_one rfl ?_ ?_
  · intro h y; simp (disch := omega) [decodeWord, decodeFixed, decode0C, field_asWord, cat_hi, cat_lo, BitVec.extractLsb'_eq_self, h]
  · simp (disch := omega) [hasExtension, field_asWord, cat_hi, cat_lo, BitVec.extractLsb'_eq_self]
theorem cmpf : ∀ x0 x1 x2 x3, Statement (.cmpf x0 x1 x2 x3) := by
  intro x0 x1 x2 x3; refine of_one rfl ?_ ?_
  · intro h y; simp (disch := omega) [decodeWord, decodeFixed, decode0D, field_asWord, cat_hi, cat_lo, BitVec.extractLsb'_eq_self, h]
  · simp (disch := omega) [hasExtension, field_asWord, cat_hi, cat_lo, BitVec.extractLsb'_eq_self]
theorem hadd2F16 : ∀ x0 x1 x2, Statement (.hadd2F16 x0 x1 x2) := by
  intro x0 x1 x2; refine of_one rfl ?_ ?_
  · intro h y; simp (disch := omega) [decodeWord, decodeFixed, decode0E, field_asWord, cat_hi, cat_lo, BitVec.extractLsb'_eq_self, h]
  · simp (disch := omega) [hasExtension, field_asWord, cat_hi, cat_lo, BitVec.extractLsb'_eq_self]
theorem hadd2Bf16 : ∀ x0 x1 x2, Statement (.hadd2Bf16 x0 x1 x2) := by
  intro x0 x1 x2; refine of_one rfl ?_ ?_
  · intro h y; simp (disch := omega) [decodeWord, decodeFixed, decode0E, field_asWord, cat_hi, cat_lo, BitVec.extractLsb'_eq_self, h]
  · simp (disch := omega) [hasExtension, field_asWord, cat_hi, cat_lo, BitVec.extractLsb'_eq_self]
theorem hmul2F16 : ∀ x0 x1 x2, Statement (.hmul2F16 x0 x1 x2) := by
  intro x0 x1 x2; refine of_one rfl ?_ ?_
  · intro h y; simp (disch := omega) [decodeWord, decodeFixed, decode0E, field_asWord, cat_hi, cat_lo, BitVec.extractLsb'_eq_self, h]
  · simp (disch := omega) [hasExtension, field_asWord, cat_hi, cat_lo, BitVec.extractLsb'_eq_self]
theorem hmul2Bf16 : ∀ x0 x1 x2, Statement (.hmul2Bf16 x0 x1 x2) := by
  intro x0 x1 x2; refine of_one rfl ?_ ?_
  · intro h y; simp (disch := omega) [decodeWord, decodeFixed, decode0E, field_asWord, cat_hi, cat_lo, BitVec.extractLsb'_eq_self, h]
  · simp (disch := omega) [hasExtension, field_asWord, cat_hi, cat_lo, BitVec.extractLsb'_eq_self]
theorem hfma2F16 : ∀ x0 x1 x2, Statement (.hfma2F16 x0 x1 x2) := by
  intro x0 x1 x2; refine of_one rfl ?_ ?_
  · intro h y; simp (disch := omega) [decodeWord, decodeFixed, decode0E, field_asWord, cat_hi, cat_lo, BitVec.extractLsb'_eq_self, h]
  · simp (disch := omega) [hasExtension, field_asWord, cat_hi, cat_lo, BitVec.extractLsb'_eq_self]
theorem hfma2Bf16 : ∀ x0 x1 x2, Statement (.hfma2Bf16 x0 x1 x2) := by
  intro x0 x1 x2; refine of_one rfl ?_ ?_
  · intro h y; simp (disch := omega) [decodeWord, decodeFixed, decode0E, field_asWord, cat_hi, cat_lo, BitVec.extractLsb'_eq_self, h]
  · simp (disch := omega) [hasExtension, field_asWord, cat_hi, cat_lo, BitVec.extractLsb'_eq_self]
theorem hmin2F16 : ∀ x0 x1 x2, Statement (.hmin2F16 x0 x1 x2) := by
  intro x0 x1 x2; refine of_one rfl ?_ ?_
  · intro h y; simp (disch := omega) [decodeWord, decodeFixed, decode0E, field_asWord, cat_hi, cat_lo, BitVec.extractLsb'_eq_self, h]
  · simp (disch := omega) [hasExtension, field_asWord, cat_hi, cat_lo, BitVec.extractLsb'_eq_self]
theorem hmin2Bf16 : ∀ x0 x1 x2, Statement (.hmin2Bf16 x0 x1 x2) := by
  intro x0 x1 x2; refine of_one rfl ?_ ?_
  · intro h y; simp (disch := omega) [decodeWord, decodeFixed, decode0E, field_asWord, cat_hi, cat_lo, BitVec.extractLsb'_eq_self, h]
  · simp (disch := omega) [hasExtension, field_asWord, cat_hi, cat_lo, BitVec.extractLsb'_eq_self]
theorem hmax2F16 : ∀ x0 x1 x2, Statement (.hmax2F16 x0 x1 x2) := by
  intro x0 x1 x2; refine of_one rfl ?_ ?_
  · intro h y; simp (disch := omega) [decodeWord, decodeFixed, decode0E, field_asWord, cat_hi, cat_lo, BitVec.extractLsb'_eq_self, h]
  · simp (disch := omega) [hasExtension, field_asWord, cat_hi, cat_lo, BitVec.extractLsb'_eq_self]
theorem hmax2Bf16 : ∀ x0 x1 x2, Statement (.hmax2Bf16 x0 x1 x2) := by
  intro x0 x1 x2; refine of_one rfl ?_ ?_
  · intro h y; simp (disch := omega) [decodeWord, decodeFixed, decode0E, field_asWord, cat_hi, cat_lo, BitVec.extractLsb'_eq_self, h]
  · simp (disch := omega) [hasExtension, field_asWord, cat_hi, cat_lo, BitVec.extractLsb'_eq_self]
theorem shfl : ∀ x0 x1 x2, Statement (.shfl x0 x1 x2) := by
  intro x0 x1 x2; refine of_one rfl ?_ ?_
  · intro h y; simp (disch := omega) [decodeWord, decodeFixed, decode0F, field_asWord, cat_hi, cat_lo, BitVec.extractLsb'_eq_self, h]
  · simp (disch := omega) [hasExtension, field_asWord, cat_hi, cat_lo, BitVec.extractLsb'_eq_self]
theorem shflx : ∀ x0 x1 x2, Statement (.shflx x0 x1 x2) := by
  intro x0 x1 x2; refine of_one rfl ?_ ?_
  · intro h y; simp (disch := omega) [decodeWord, decodeFixed, decode0F, field_asWord, cat_hi, cat_lo, BitVec.extractLsb'_eq_self, h]
  · simp (disch := omega) [hasExtension, field_asWord, cat_hi, cat_lo, BitVec.extractLsb'_eq_self]
theorem shflu : ∀ x0 x1 x2, Statement (.shflu x0 x1 x2) := by
  intro x0 x1 x2; refine of_one rfl ?_ ?_
  · intro h y; simp (disch := omega) [decodeWord, decodeFixed, decode0F, field_asWord, cat_hi, cat_lo, BitVec.extractLsb'_eq_self, h]
  · simp (disch := omega) [hasExtension, field_asWord, cat_hi, cat_lo, BitVec.extractLsb'_eq_self]
theorem shfld : ∀ x0 x1 x2, Statement (.shfld x0 x1 x2) := by
  intro x0 x1 x2; refine of_one rfl ?_ ?_
  · intro h y; simp (disch := omega) [decodeWord, decodeFixed, decode0F, field_asWord, cat_hi, cat_lo, BitVec.extractLsb'_eq_self, h]
  · simp (disch := omega) [hasExtension, field_asWord, cat_hi, cat_lo, BitVec.extractLsb'_eq_self]
theorem voteAny : ∀ x0 x1 x2, Statement (.voteAny x0 x1 x2) := by
  intro x0 x1 x2; refine of_one rfl ?_ ?_
  · intro h y; simp (disch := omega) [decodeWord, decodeFixed, decode0F, field_asWord, cat_hi, cat_lo, BitVec.extractLsb'_eq_self, h]
  · simp (disch := omega) [hasExtension, field_asWord, cat_hi, cat_lo, BitVec.extractLsb'_eq_self]
theorem voteAll : ∀ x0 x1 x2, Statement (.voteAll x0 x1 x2) := by
  intro x0 x1 x2; refine of_one rfl ?_ ?_
  · intro h y; simp (disch := omega) [decodeWord, decodeFixed, decode0F, field_asWord, cat_hi, cat_lo, BitVec.extractLsb'_eq_self, h]
  · simp (disch := omega) [hasExtension, field_asWord, cat_hi, cat_lo, BitVec.extractLsb'_eq_self]
theorem voteBallot : ∀ x0 x1 x2, Statement (.voteBallot x0 x1 x2) := by
  intro x0 x1 x2; refine of_one rfl ?_ ?_
  · intro h y; simp (disch := omega) [decodeWord, decodeFixed, decode0F, field_asWord, cat_hi, cat_lo, BitVec.extractLsb'_eq_self, h]
  · simp (disch := omega) [hasExtension, field_asWord, cat_hi, cat_lo, BitVec.extractLsb'_eq_self]
theorem redgAdd : ∀ x0 x1 x2, Statement (.redgAdd x0 x1 x2) := by
  intro x0 x1 x2; refine of_one rfl ?_ ?_
  · intro h y; simp (disch := omega) [decodeWord, decodeFixed, decode0F, field_asWord, cat_hi, cat_lo, BitVec.extractLsb'_eq_self, h]
  · simp (disch := omega) [hasExtension, field_asWord, cat_hi, cat_lo, BitVec.extractLsb'_eq_self]
theorem redgMin : ∀ x0 x1 x2, Statement (.redgMin x0 x1 x2) := by
  intro x0 x1 x2; refine of_one rfl ?_ ?_
  · intro h y; simp (disch := omega) [decodeWord, decodeFixed, decode0F, field_asWord, cat_hi, cat_lo, BitVec.extractLsb'_eq_self, h]
  · simp (disch := omega) [hasExtension, field_asWord, cat_hi, cat_lo, BitVec.extractLsb'_eq_self]
theorem redgMax : ∀ x0 x1 x2, Statement (.redgMax x0 x1 x2) := by
  intro x0 x1 x2; refine of_one rfl ?_ ?_
  · intro h y; simp (disch := omega) [decodeWord, decodeFixed, decode0F, field_asWord, cat_hi, cat_lo, BitVec.extractLsb'_eq_self, h]
  · simp (disch := omega) [hasExtension, field_asWord, cat_hi, cat_lo, BitVec.extractLsb'_eq_self]
theorem scangAdd : ∀ x0 x1 x2, Statement (.scangAdd x0 x1 x2) := by
  intro x0 x1 x2; refine of_one rfl ?_ ?_
  · intro h y; simp (disch := omega) [decodeWord, decodeFixed, decode0F, field_asWord, cat_hi, cat_lo, BitVec.extractLsb'_eq_self, h]
  · simp (disch := omega) [hasExtension, field_asWord, cat_hi, cat_lo, BitVec.extractLsb'_eq_self]
theorem scangMax : ∀ x0 x1 x2, Statement (.scangMax x0 x1 x2) := by
  intro x0 x1 x2; refine of_one rfl ?_ ?_
  · intro h y; simp (disch := omega) [decodeWord, decodeFixed, decode0F, field_asWord, cat_hi, cat_lo, BitVec.extractLsb'_eq_self, h]
  · simp (disch := omega) [hasExtension, field_asWord, cat_hi, cat_lo, BitVec.extractLsb'_eq_self]
theorem matchLanes : ∀ x0 x1 x2, Statement (.matchLanes x0 x1 x2) := by
  intro x0 x1 x2; refine of_one rfl ?_ ?_
  · intro h y; simp (disch := omega) [decodeWord, decodeFixed, decode0F, field_asWord, cat_hi, cat_lo, BitVec.extractLsb'_eq_self, h]
  · simp (disch := omega) [hasExtension, field_asWord, cat_hi, cat_lo, BitVec.extractLsb'_eq_self]
theorem elect : ∀ x0 x1, Statement (.elect x0 x1) := by
  intro x0 x1; refine of_one rfl ?_ ?_
  · intro h y; simp (disch := omega) [decodeWord, decodeFixed, decode0F, field_asWord, cat_hi, cat_lo, BitVec.extractLsb'_eq_self, h]
  · simp (disch := omega) [hasExtension, field_asWord, cat_hi, cat_lo, BitVec.extractLsb'_eq_self]
theorem bra : ∀ x0 x1 x2, Statement (.bra x0 x1 x2) := by
  intro x0 x1 x2; refine of_one rfl ?_ ?_
  · intro h y; simp (disch := omega) [decodeWord, decodeFixed, decode10, field_asWord, cat_hi, cat_lo, BitVec.extractLsb'_eq_self, h]
  · simp (disch := omega) [hasExtension, field_asWord, cat_hi, cat_lo, BitVec.extractLsb'_eq_self]
theorem brx : ∀ x0 x1 x2, Statement (.brx x0 x1 x2) := by
  intro x0 x1 x2; refine of_one rfl ?_ ?_
  · intro h y; simp (disch := omega) [decodeWord, decodeFixed, decode11, field_asWord, cat_hi, cat_lo, BitVec.extractLsb'_eq_self, h]
  · simp (disch := omega) [hasExtension, field_asWord, cat_hi, cat_lo, BitVec.extractLsb'_eq_self]
theorem call : ∀ x0 x1 x2, Statement (.call x0 x1 x2) := by
  intro x0 x1 x2; refine of_one rfl ?_ ?_
  · intro h y; simp (disch := omega) [decodeWord, decodeFixed, decode12, field_asWord, cat_hi, cat_lo, BitVec.extractLsb'_eq_self, h]
  · simp (disch := omega) [hasExtension, field_asWord, cat_hi, cat_lo, BitVec.extractLsb'_eq_self]
theorem ret : ∀ x0, Statement (.ret x0) := by
  intro x0; refine of_one rfl ?_ ?_
  · intro h y; simp (disch := omega) [decodeWord, decodeFixed, decode13, field_asWord, cat_hi, cat_lo, BitVec.extractLsb'_eq_self, h]
  · simp (disch := omega) [hasExtension, field_asWord, cat_hi, cat_lo, BitVec.extractLsb'_eq_self]
theorem ifp : ∀ x0 x1 x2, Statement (.ifp x0 x1 x2) := by
  intro x0 x1 x2; refine of_one rfl ?_ ?_
  · intro h y; simp (disch := omega) [decodeWord, decodeFixed, decode14, field_asWord, cat_hi, cat_lo, BitVec.extractLsb'_eq_self, h]
  · simp (disch := omega) [hasExtension, field_asWord, cat_hi, cat_lo, BitVec.extractLsb'_eq_self]
theorem repeatN : ∀ x0 x1 x2, Statement (.repeatN x0 x1 x2) := by
  intro x0 x1 x2; refine of_one rfl ?_ ?_
  · intro h y; simp (disch := omega) [decodeWord, decodeFixed, decode15, field_asWord, cat_hi, cat_lo, BitVec.extractLsb'_eq_self, h]
  · simp (disch := omega) [hasExtension, field_asWord, cat_hi, cat_lo, BitVec.extractLsb'_eq_self]
theorem enrol : ∀ x0, Statement (.enrol x0) := by
  intro x0; refine of_one rfl ?_ ?_
  · intro h y; simp (disch := omega) [decodeWord, decodeFixed, decode16, field_asWord, cat_hi, cat_lo, BitVec.extractLsb'_eq_self, h]
  · simp (disch := omega) [hasExtension, field_asWord, cat_hi, cat_lo, BitVec.extractLsb'_eq_self]
theorem join : ∀ x0, Statement (.join x0) := by
  intro x0; refine of_one rfl ?_ ?_
  · intro h y; simp (disch := omega) [decodeWord, decodeFixed, decode16, field_asWord, cat_hi, cat_lo, BitVec.extractLsb'_eq_self, h]
  · simp (disch := omega) [hasExtension, field_asWord, cat_hi, cat_lo, BitVec.extractLsb'_eq_self]
theorem strike : ∀ x0, Statement (.strike x0) := by
  intro x0; refine of_one rfl ?_ ?_
  · intro h y; simp (disch := omega) [decodeWord, decodeFixed, decode16, field_asWord, cat_hi, cat_lo, BitVec.extractLsb'_eq_self, h]
  · simp (disch := omega) [hasExtension, field_asWord, cat_hi, cat_lo, BitVec.extractLsb'_eq_self]
theorem nop : Statement .nop := by
  refine of_one rfl ?_ ?_
  · intro h y; simp (disch := omega) [decodeWord, decodeFixed, decode17, field_asWord, cat_hi, cat_lo, BitVec.extractLsb'_eq_self, h]
  · simp (disch := omega) [hasExtension, field_asWord, cat_hi, cat_lo, BitVec.extractLsb'_eq_self]
theorem exit : Statement .exit := by
  refine of_one rfl ?_ ?_
  · intro h y; simp (disch := omega) [decodeWord, decodeFixed, decode17, field_asWord, cat_hi, cat_lo, BitVec.extractLsb'_eq_self, h]
  · simp (disch := omega) [hasExtension, field_asWord, cat_hi, cat_lo, BitVec.extractLsb'_eq_self]
theorem yield : Statement .yield := by
  refine of_one rfl ?_ ?_
  · intro h y; simp (disch := omega) [decodeWord, decodeFixed, decode17, field_asWord, cat_hi, cat_lo, BitVec.extractLsb'_eq_self, h]
  · simp (disch := omega) [hasExtension, field_asWord, cat_hi, cat_lo, BitVec.extractLsb'_eq_self]
theorem sleep : ∀ x0, Statement (.sleep x0) := by
  intro x0; refine of_one rfl ?_ ?_
  · intro h y; simp (disch := omega) [decodeWord, decodeFixed, decode17, field_asWord, cat_hi, cat_lo, BitVec.extractLsb'_eq_self, h]
  · simp (disch := omega) [hasExtension, field_asWord, cat_hi, cat_lo, BitVec.extractLsb'_eq_self]
theorem sleepu : ∀ x0, Statement (.sleepu x0) := by
  intro x0; refine of_one rfl ?_ ?_
  · intro h y; simp (disch := omega) [decodeWord, decodeFixed, decode17, field_asWord, cat_hi, cat_lo, BitVec.extractLsb'_eq_self, h]
  · simp (disch := omega) [hasExtension, field_asWord, cat_hi, cat_lo, BitVec.extractLsb'_eq_self]
theorem sleepuCounter : ∀ x0 x1, Statement (.sleepuCounter x0 x1) := by
  intro x0 x1; refine of_one rfl ?_ ?_
  · intro h y; simp (disch := omega) [decodeWord, decodeFixed, decode17, field_asWord, cat_hi, cat_lo, BitVec.extractLsb'_eq_self, h]
  · simp (disch := omega) [hasExtension, field_asWord, cat_hi, cat_lo, BitVec.extractLsb'_eq_self]
theorem ld : ∀ x0 x1 x2 x3 x4 x5, Statement (.ld x0 x1 x2 x3 x4 x5) := by
  intro x0 x1 x2 x3 x4 x5; refine of_one rfl ?_ ?_
  · intro h y; simp (disch := omega) [decodeWord, decodeFixed, decode18, field_asWord, cat_hi, cat_lo, BitVec.extractLsb'_eq_self, h]
  · simp (disch := omega) [hasExtension, field_asWord, cat_hi, cat_lo, BitVec.extractLsb'_eq_self]
theorem ldOffset : ∀ x0 x1 x2 x3 x4 x5 x6, Statement (.ldOffset x0 x1 x2 x3 x4 x5 x6) := by
  intro x0 x1 x2 x3 x4 x5 x6; refine of_two rfl ?_ ?_
  · intro h; simp (disch := omega) [decodeWord, decodeFixed, decode18, field_asWord, cat_hi, cat_lo, BitVec.extractLsb'_eq_self, h]
  · simp (disch := omega) [hasExtension, field_asWord, cat_hi, cat_lo, BitVec.extractLsb'_eq_self]
theorem st : ∀ x0 x1 x2 x3 x4 x5, Statement (.st x0 x1 x2 x3 x4 x5) := by
  intro x0 x1 x2 x3 x4 x5; refine of_one rfl ?_ ?_
  · intro h y; simp (disch := omega) [decodeWord, decodeFixed, decode19, field_asWord, cat_hi, cat_lo, BitVec.extractLsb'_eq_self, h]
  · simp (disch := omega) [hasExtension, field_asWord, cat_hi, cat_lo, BitVec.extractLsb'_eq_self]
theorem stOffset : ∀ x0 x1 x2 x3 x4 x5 x6, Statement (.stOffset x0 x1 x2 x3 x4 x5 x6) := by
  intro x0 x1 x2 x3 x4 x5 x6; refine of_two rfl ?_ ?_
  · intro h; simp (disch := omega) [decodeWord, decodeFixed, decode19, field_asWord, cat_hi, cat_lo, BitVec.extractLsb'_eq_self, h]
  · simp (disch := omega) [hasExtension, field_asWord, cat_hi, cat_lo, BitVec.extractLsb'_eq_self]
theorem lda : ∀ x0 x1 x2 x3 x4 x5, Statement (.lda x0 x1 x2 x3 x4 x5) := by
  intro x0 x1 x2 x3 x4 x5; refine of_one rfl ?_ ?_
  · intro h y; simp (disch := omega) [decodeWord, decodeFixed, decode1A, field_asWord, cat_hi, cat_lo, BitVec.extractLsb'_eq_self, h]
  · simp (disch := omega) [hasExtension, field_asWord, cat_hi, cat_lo, BitVec.extractLsb'_eq_self]
theorem ldaScope : ∀ x0 x1 x2 x3 x4 x5 x6, Statement (.ldaScope x0 x1 x2 x3 x4 x5 x6) := by
  intro x0 x1 x2 x3 x4 x5 x6; refine of_two rfl ?_ ?_
  · intro h; simp (disch := omega) [decodeWord, decodeFixed, decode1A, field_asWord, cat_hi, cat_lo, BitVec.extractLsb'_eq_self, h]
  · simp (disch := omega) [hasExtension, field_asWord, cat_hi, cat_lo, BitVec.extractLsb'_eq_self]
theorem stl : ∀ x0 x1 x2 x3 x4 x5, Statement (.stl x0 x1 x2 x3 x4 x5) := by
  intro x0 x1 x2 x3 x4 x5; refine of_one rfl ?_ ?_
  · intro h y; simp (disch := omega) [decodeWord, decodeFixed, decode1B, field_asWord, cat_hi, cat_lo, BitVec.extractLsb'_eq_self, h]
  · simp (disch := omega) [hasExtension, field_asWord, cat_hi, cat_lo, BitVec.extractLsb'_eq_self]
theorem stlScope : ∀ x0 x1 x2 x3 x4 x5 x6, Statement (.stlScope x0 x1 x2 x3 x4 x5 x6) := by
  intro x0 x1 x2 x3 x4 x5 x6; refine of_two rfl ?_ ?_
  · intro h; simp (disch := omega) [decodeWord, decodeFixed, decode1B, field_asWord, cat_hi, cat_lo, BitVec.extractLsb'_eq_self, h]
  · simp (disch := omega) [hasExtension, field_asWord, cat_hi, cat_lo, BitVec.extractLsb'_eq_self]
theorem ldmc : ∀ x0 x1 x2 x3 x4 x5, Statement (.ldmc x0 x1 x2 x3 x4 x5) := by
  intro x0 x1 x2 x3 x4 x5; refine of_two rfl ?_ ?_
  · intro h; simp (disch := omega) [decodeWord, decodeFixed, decode1C, field_asWord, cat_hi, cat_lo, BitVec.extractLsb'_eq_self, h]
  · simp (disch := omega) [hasExtension, field_asWord, cat_hi, cat_lo, BitVec.extractLsb'_eq_self]
theorem pref : ∀ x0 x1 x2 x3 x4, Statement (.pref x0 x1 x2 x3 x4) := by
  intro x0 x1 x2 x3 x4; refine of_one rfl ?_ ?_
  · intro h y; simp (disch := omega) [decodeWord, decodeFixed, decode1D, field_asWord, cat_hi, cat_lo, BitVec.extractLsb'_eq_self, h]
  · simp (disch := omega) [hasExtension, field_asWord, cat_hi, cat_lo, BitVec.extractLsb'_eq_self]
theorem prefOffset : ∀ x0 x1 x2 x3 x4 x5, Statement (.prefOffset x0 x1 x2 x3 x4 x5) := by
  intro x0 x1 x2 x3 x4 x5; refine of_two rfl ?_ ?_
  · intro h; simp (disch := omega) [decodeWord, decodeFixed, decode1D, field_asWord, cat_hi, cat_lo, BitVec.extractLsb'_eq_self, h]
  · simp (disch := omega) [hasExtension, field_asWord, cat_hi, cat_lo, BitVec.extractLsb'_eq_self]
theorem atom : ∀ x0 x1 x2 x3 x4, Statement (.atom x0 x1 x2 x3 x4) := by
  intro x0 x1 x2 x3 x4; refine of_one rfl ?_ ?_
  · intro h y; simp (disch := omega) [decodeWord, decodeFixed, decode1E, field_asWord, cat_hi, cat_lo, BitVec.extractLsb'_eq_self, h]
  · simp (disch := omega) [hasExtension, field_asWord, cat_hi, cat_lo, BitVec.extractLsb'_eq_self]
theorem atomExt : ∀ x0 x1 x2 x3 x4 x5 x6 x7 x8 x9, Statement (.atomExt x0 x1 x2 x3 x4 x5 x6 x7 x8 x9) := by
  intro x0 x1 x2 x3 x4 x5 x6 x7 x8 x9; refine of_two rfl ?_ ?_
  · intro h; simp (disch := omega) [decodeWord, decodeFixed, decode1E, field_asWord, cat_hi, cat_lo, BitVec.extractLsb'_eq_self, h]
  · simp (disch := omega) [hasExtension, field_asWord, cat_hi, cat_lo, BitVec.extractLsb'_eq_self]
theorem red : ∀ x0 x1 x2 x3 x4, Statement (.red x0 x1 x2 x3 x4) := by
  intro x0 x1 x2 x3 x4; refine of_one rfl ?_ ?_
  · intro h y; simp (disch := omega) [decodeWord, decodeFixed, decode1F, field_asWord, cat_hi, cat_lo, BitVec.extractLsb'_eq_self, h]
  · simp (disch := omega) [hasExtension, field_asWord, cat_hi, cat_lo, BitVec.extractLsb'_eq_self]
theorem redExt : ∀ x0 x1 x2 x3 x4 x5 x6 x7 x8, Statement (.redExt x0 x1 x2 x3 x4 x5 x6 x7 x8) := by
  intro x0 x1 x2 x3 x4 x5 x6 x7 x8; refine of_two rfl ?_ ?_
  · intro h; simp (disch := omega) [decodeWord, decodeFixed, decode1F, field_asWord, cat_hi, cat_lo, BitVec.extractLsb'_eq_self, h]
  · simp (disch := omega) [hasExtension, field_asWord, cat_hi, cat_lo, BitVec.extractLsb'_eq_self]
theorem atomk : ∀ x0 x1 x2 x3 x4 x5, Statement (.atomk x0 x1 x2 x3 x4 x5) := by
  intro x0 x1 x2 x3 x4 x5; refine of_one rfl ?_ ?_
  · intro h y; simp (disch := omega) [decodeWord, decodeFixed, decode20, field_asWord, cat_hi, cat_lo, BitVec.extractLsb'_eq_self, h]
  · simp (disch := omega) [hasExtension, field_asWord, cat_hi, cat_lo, BitVec.extractLsb'_eq_self]
theorem atomkExt : ∀ x0 x1 x2 x3 x4 x5 x6 x7, Statement (.atomkExt x0 x1 x2 x3 x4 x5 x6 x7) := by
  intro x0 x1 x2 x3 x4 x5 x6 x7; refine of_two rfl ?_ ?_
  · intro h; simp (disch := omega) [decodeWord, decodeFixed, decode20, field_asWord, cat_hi, cat_lo, BitVec.extractLsb'_eq_self, h]
  · simp (disch := omega) [hasExtension, field_asWord, cat_hi, cat_lo, BitVec.extractLsb'_eq_self]
theorem fence : ∀ x0 x1, Statement (.fence x0 x1) := by
  intro x0 x1; refine of_one rfl ?_ ?_
  · intro h y; simp (disch := omega) [decodeWord, decodeFixed, decode21, field_asWord, cat_hi, cat_lo, BitVec.extractLsb'_eq_self, h]
  · simp (disch := omega) [hasExtension, field_asWord, cat_hi, cat_lo, BitVec.extractLsb'_eq_self]
theorem discard : ∀ x0 x1, Statement (.discard x0 x1) := by
  intro x0 x1; refine of_one rfl ?_ ?_
  · intro h y; simp (disch := omega) [decodeWord, decodeFixed, decode21, field_asWord, cat_hi, cat_lo, BitVec.extractLsb'_eq_self, h]
  · simp (disch := omega) [hasExtension, field_asWord, cat_hi, cat_lo, BitVec.extractLsb'_eq_self]
theorem flushl : ∀ x0 x1, Statement (.flushl x0 x1) := by
  intro x0 x1; refine of_one rfl ?_ ?_
  · intro h y; simp (disch := omega) [decodeWord, decodeFixed, decode21, field_asWord, cat_hi, cat_lo, BitVec.extractLsb'_eq_self, h]
  · simp (disch := omega) [hasExtension, field_asWord, cat_hi, cat_lo, BitVec.extractLsb'_eq_self]
theorem invl : ∀ x0 x1 x2, Statement (.invl x0 x1 x2) := by
  intro x0 x1 x2; refine of_one rfl ?_ ?_
  · intro h y; simp (disch := omega) [decodeWord, decodeFixed, decode21, field_asWord, cat_hi, cat_lo, BitVec.extractLsb'_eq_self, h]
  · simp (disch := omega) [hasExtension, field_asWord, cat_hi, cat_lo, BitVec.extractLsb'_eq_self]
theorem ptest : ∀ x0 x1, Statement (.ptest x0 x1) := by
  intro x0 x1; refine of_one rfl ?_ ?_
  · intro h y; simp (disch := omega) [decodeWord, decodeFixed, decode21, field_asWord, cat_hi, cat_lo, BitVec.extractLsb'_eq_self, h]
  · simp (disch := omega) [hasExtension, field_asWord, cat_hi, cat_lo, BitVec.extractLsb'_eq_self]
theorem bari : ∀ x0 x1, Statement (.bari x0 x1) := by
  intro x0 x1; refine of_one rfl ?_ ?_
  · intro h y; simp (disch := omega) [decodeWord, decodeFixed, decode22, field_asWord, cat_hi, cat_lo, BitVec.extractLsb'_eq_self, h]
  · simp (disch := omega) [hasExtension, field_asWord, cat_hi, cat_lo, BitVec.extractLsb'_eq_self]
theorem bara : ∀ x0 x1, Statement (.bara x0 x1) := by
  intro x0 x1; refine of_one rfl ?_ ?_
  · intro h y; simp (disch := omega) [decodeWord, decodeFixed, decode22, field_asWord, cat_hi, cat_lo, BitVec.extractLsb'_eq_self, h]
  · simp (disch := omega) [hasExtension, field_asWord, cat_hi, cat_lo, BitVec.extractLsb'_eq_self]
theorem barw : ∀ x0, Statement (.barw x0) := by
  intro x0; refine of_one rfl ?_ ?_
  · intro h y; simp (disch := omega) [decodeWord, decodeFixed, decode22, field_asWord, cat_hi, cat_lo, BitVec.extractLsb'_eq_self, h]
  · simp (disch := omega) [hasExtension, field_asWord, cat_hi, cat_lo, BitVec.extractLsb'_eq_self]
theorem bar : ∀ x0 x1, Statement (.bar x0 x1) := by
  intro x0 x1; refine of_one rfl ?_ ?_
  · intro h y; simp (disch := omega) [decodeWord, decodeFixed, decode22, field_asWord, cat_hi, cat_lo, BitVec.extractLsb'_eq_self, h]
  · simp (disch := omega) [hasExtension, field_asWord, cat_hi, cat_lo, BitVec.extractLsb'_eq_self]
theorem waitge : ∀ x0 x1 x2 x3, Statement (.waitge x0 x1 x2 x3) := by
  intro x0 x1 x2 x3; refine of_one rfl ?_ ?_
  · intro h y; simp (disch := omega) [decodeWord, decodeFixed, decode23, field_asWord, cat_hi, cat_lo, BitVec.extractLsb'_eq_self, h]
  · simp (disch := omega) [hasExtension, field_asWord, cat_hi, cat_lo, BitVec.extractLsb'_eq_self]
theorem waitw : ∀ x0, Statement (.waitw x0) := by
  intro x0; refine of_one rfl ?_ ?_
  · intro h y; simp (disch := omega) [decodeWord, decodeFixed, decode24, field_asWord, cat_hi, cat_lo, BitVec.extractLsb'_eq_self, h]
  · simp (disch := omega) [hasExtension, field_asWord, cat_hi, cat_lo, BitVec.extractLsb'_eq_self]
theorem grow : ∀ x0 x1, Statement (.grow x0 x1) := by
  intro x0 x1; refine of_one rfl ?_ ?_
  · intro h y; simp (disch := omega) [decodeWord, decodeFixed, decode25, field_asWord, cat_hi, cat_lo, BitVec.extractLsb'_eq_self, h]
  · simp (disch := omega) [hasExtension, field_asWord, cat_hi, cat_lo, BitVec.extractLsb'_eq_self]
theorem shrink : ∀ x0, Statement (.shrink x0) := by
  intro x0; refine of_one rfl ?_ ?_
  · intro h y; simp (disch := omega) [decodeWord, decodeFixed, decode25, field_asWord, cat_hi, cat_lo, BitVec.extractLsb'_eq_self, h]
  · simp (disch := omega) [hasExtension, field_asWord, cat_hi, cat_lo, BitVec.extractLsb'_eq_self]
theorem kset : ∀ x0 x1 x2, Statement (.kset x0 x1 x2) := by
  intro x0 x1 x2; refine of_one rfl ?_ ?_
  · intro h y; simp (disch := omega) [decodeWord, decodeFixed, decode26, field_asWord, cat_hi, cat_lo, BitVec.extractLsb'_eq_self, h]
  · simp (disch := omega) [hasExtension, field_asWord, cat_hi, cat_lo, BitVec.extractLsb'_eq_self]
theorem mma : ∀ x0 x1 x2 x3 x4 x5 x6 x7 x8 x9, Statement (.mma x0 x1 x2 x3 x4 x5 x6 x7 x8 x9) := by
  intro x0 x1 x2 x3 x4 x5 x6 x7 x8 x9; refine of_two rfl ?_ ?_
  · intro h; simp (disch := omega) [decodeWord, decodeFixed, decode27, field_asWord, cat_hi, cat_lo, BitVec.extractLsb'_eq_self, h]
  · simp (disch := omega) [hasExtension, field_asWord, cat_hi, cat_lo, BitVec.extractLsb'_eq_self]
theorem mmaq : ∀ x0 x1 x2 x3 x4 x5 x6 x7 x8 x9, Statement (.mmaq x0 x1 x2 x3 x4 x5 x6 x7 x8 x9) := by
  intro x0 x1 x2 x3 x4 x5 x6 x7 x8 x9; refine of_two rfl ?_ ?_
  · intro h; simp (disch := omega) [decodeWord, decodeFixed, decode28, field_asWord, cat_hi, cat_lo, BitVec.extractLsb'_eq_self, h]
  · simp (disch := omega) [hasExtension, field_asWord, cat_hi, cat_lo, BitVec.extractLsb'_eq_self]
theorem opfence : Statement .opfence := by
  refine of_one rfl ?_ ?_
  · intro h y; simp (disch := omega) [decodeWord, decodeFixed, decode29, field_asWord, cat_hi, cat_lo, BitVec.extractLsb'_eq_self, h]
  · simp (disch := omega) [hasExtension, field_asWord, cat_hi, cat_lo, BitVec.extractLsb'_eq_self]
theorem mwait : ∀ x0, Statement (.mwait x0) := by
  intro x0; refine of_one rfl ?_ ?_
  · intro h y; simp (disch := omega) [decodeWord, decodeFixed, decode29, field_asWord, cat_hi, cat_lo, BitVec.extractLsb'_eq_self, h]
  · simp (disch := omega) [hasExtension, field_asWord, cat_hi, cat_lo, BitVec.extractLsb'_eq_self]
theorem mprogMat : ∀ x0 x1, Statement (.mprogMat x0 x1) := by
  intro x0 x1; refine of_one rfl ?_ ?_
  · intro h y; simp (disch := omega) [decodeWord, decodeFixed, decode29, field_asWord, cat_hi, cat_lo, BitVec.extractLsb'_eq_self, h]
  · simp (disch := omega) [hasExtension, field_asWord, cat_hi, cat_lo, BitVec.extractLsb'_eq_self]
theorem mprogCopy : ∀ x0, Statement (.mprogCopy x0) := by
  intro x0; refine of_one rfl ?_ ?_
  · intro h y; simp (disch := omega) [decodeWord, decodeFixed, decode29, field_asWord, cat_hi, cat_lo, BitVec.extractLsb'_eq_self, h]
  · simp (disch := omega) [hasExtension, field_asWord, cat_hi, cat_lo, BitVec.extractLsb'_eq_self]
theorem obres : ∀ x0 x1 x2 x3, Statement (.obres x0 x1 x2 x3) := by
  intro x0 x1 x2 x3; refine of_one rfl ?_ ?_
  · intro h y; simp (disch := omega) [decodeWord, decodeFixed, decode2A, field_asWord, cat_hi, cat_lo, BitVec.extractLsb'_eq_self, h]
  · simp (disch := omega) [hasExtension, field_asWord, cat_hi, cat_lo, BitVec.extractLsb'_eq_self]
theorem obrel : ∀ x0 x1 x2, Statement (.obrel x0 x1 x2) := by
  intro x0 x1 x2; refine of_one rfl ?_ ?_
  · intro h y; simp (disch := omega) [decodeWord, decodeFixed, decode2A, field_asWord, cat_hi, cat_lo, BitVec.extractLsb'_eq_self, h]
  · simp (disch := omega) [hasExtension, field_asWord, cat_hi, cat_lo, BitVec.extractLsb'_eq_self]
theorem obld : ∀ x0 x1 x2 x3 x4 x5, Statement (.obld x0 x1 x2 x3 x4 x5) := by
  intro x0 x1 x2 x3 x4 x5; refine of_two rfl ?_ ?_
  · intro h; simp (disch := omega) [decodeWord, decodeFixed, decode2A, field_asWord, cat_hi, cat_lo, BitVec.extractLsb'_eq_self, h]
  · simp (disch := omega) [hasExtension, field_asWord, cat_hi, cat_lo, BitVec.extractLsb'_eq_self]
theorem accz : ∀ x0 x1 x2 x3, Statement (.accz x0 x1 x2 x3) := by
  intro x0 x1 x2 x3; refine of_two rfl ?_ ?_
  · intro h; simp (disch := omega) [decodeWord, decodeFixed, decode2B, field_asWord, cat_hi, cat_lo, BitVec.extractLsb'_eq_self, h]
  · simp (disch := omega) [hasExtension, field_asWord, cat_hi, cat_lo, BitVec.extractLsb'_eq_self]
theorem accld : ∀ x0 x1 x2 x3 x4 x5 x6, Statement (.accld x0 x1 x2 x3 x4 x5 x6) := by
  intro x0 x1 x2 x3 x4 x5 x6; refine of_two rfl ?_ ?_
  · intro h; simp (disch := omega) [decodeWord, decodeFixed, decode2B, field_asWord, cat_hi, cat_lo, BitVec.extractLsb'_eq_self, h]
  · simp (disch := omega) [hasExtension, field_asWord, cat_hi, cat_lo, BitVec.extractLsb'_eq_self]
theorem accst : ∀ x0 x1 x2 x3 x4 x5 x6, Statement (.accst x0 x1 x2 x3 x4 x5 x6) := by
  intro x0 x1 x2 x3 x4 x5 x6; refine of_two rfl ?_ ?_
  · intro h; simp (disch := omega) [decodeWord, decodeFixed, decode2B, field_asWord, cat_hi, cat_lo, BitVec.extractLsb'_eq_self, h]
  · simp (disch := omega) [hasExtension, field_asWord, cat_hi, cat_lo, BitVec.extractLsb'_eq_self]
theorem accrd : ∀ x0 x1 x2 x3, Statement (.accrd x0 x1 x2 x3) := by
  intro x0 x1 x2 x3; refine of_one rfl ?_ ?_
  · intro h y; simp (disch := omega) [decodeWord, decodeFixed, decode2B, field_asWord, cat_hi, cat_lo, BitVec.extractLsb'_eq_self, h]
  · simp (disch := omega) [hasExtension, field_asWord, cat_hi, cat_lo, BitVec.extractLsb'_eq_self]
theorem achain : ∀ x0 x1 x2 x3, Statement (.achain x0 x1 x2 x3) := by
  intro x0 x1 x2 x3; refine of_one rfl ?_ ?_
  · intro h y; simp (disch := omega) [decodeWord, decodeFixed, decode2C, field_asWord, cat_hi, cat_lo, BitVec.extractLsb'_eq_self, h]
  · simp (disch := omega) [hasExtension, field_asWord, cat_hi, cat_lo, BitVec.extractLsb'_eq_self]
theorem asend : ∀ x0 x1 x2 x3, Statement (.asend x0 x1 x2 x3) := by
  intro x0 x1 x2 x3; refine of_one rfl ?_ ?_
  · intro h y; simp (disch := omega) [decodeWord, decodeFixed, decode2C, field_asWord, cat_hi, cat_lo, BitVec.extractLsb'_eq_self, h]
  · simp (disch := omega) [hasExtension, field_asWord, cat_hi, cat_lo, BitVec.extractLsb'_eq_self]
theorem await : ∀ x0 x1 x2, Statement (.await x0 x1 x2) := by
  intro x0 x1 x2; refine of_one rfl ?_ ?_
  · intro h y; simp (disch := omega) [decodeWord, decodeFixed, decode2C, field_asWord, cat_hi, cat_lo, BitVec.extractLsb'_eq_self, h]
  · simp (disch := omega) [hasExtension, field_asWord, cat_hi, cat_lo, BitVec.extractLsb'_eq_self]
theorem arel : ∀ x0 x1 x2 x3, Statement (.arel x0 x1 x2 x3) := by
  intro x0 x1 x2 x3; refine of_one rfl ?_ ?_
  · intro h y; simp (disch := omega) [decodeWord, decodeFixed, decode2C, field_asWord, cat_hi, cat_lo, BitVec.extractLsb'_eq_self, h]
  · simp (disch := omega) [hasExtension, field_asWord, cat_hi, cat_lo, BitVec.extractLsb'_eq_self]
theorem copy : ∀ x0 x1 x2 x3 x4 x5, Statement (.copy x0 x1 x2 x3 x4 x5) := by
  intro x0 x1 x2 x3 x4 x5; refine of_two rfl ?_ ?_
  · intro h; simp (disch := omega) [decodeWord, decodeFixed, decode2D, field_asWord, cat_hi, cat_lo, BitVec.extractLsb'_eq_self, h]
  · simp (disch := omega) [hasExtension, field_asWord, cat_hi, cat_lo, BitVec.extractLsb'_eq_self]
theorem copyg : ∀ x0 x1 x2 x3 x4 x5, Statement (.copyg x0 x1 x2 x3 x4 x5) := by
  intro x0 x1 x2 x3 x4 x5; refine of_two rfl ?_ ?_
  · intro h; simp (disch := omega) [decodeWord, decodeFixed, decode2D, field_asWord, cat_hi, cat_lo, BitVec.extractLsb'_eq_self, h]
  · simp (disch := omega) [hasExtension, field_asWord, cat_hi, cat_lo, BitVec.extractLsb'_eq_self]
theorem sealLayout : ∀ x0 x1 x2 x3, Statement (.sealLayout x0 x1 x2 x3) := by
  intro x0 x1 x2 x3; refine of_one rfl ?_ ?_
  · intro h y; simp (disch := omega) [decodeWord, decodeFixed, decode2E, field_asWord, cat_hi, cat_lo, BitVec.extractLsb'_eq_self, h]
  · simp (disch := omega) [hasExtension, field_asWord, cat_hi, cat_lo, BitVec.extractLsb'_eq_self]
theorem cgrp : ∀ x0 x1 x2 x3, Statement (.cgrp x0 x1 x2 x3) := by
  intro x0 x1 x2 x3; refine of_one rfl ?_ ?_
  · intro h y; simp (disch := omega) [decodeWord, decodeFixed, decode2F, field_asWord, cat_hi, cat_lo, BitVec.extractLsb'_eq_self, h]
  · simp (disch := omega) [hasExtension, field_asWord, cat_hi, cat_lo, BitVec.extractLsb'_eq_self]
theorem cgrpEnd : ∀ x0 x1 x2, Statement (.cgrpEnd x0 x1 x2) := by
  intro x0 x1 x2; refine of_one rfl ?_ ?_
  · intro h y; simp (disch := omega) [decodeWord, decodeFixed, decode2F, field_asWord, cat_hi, cat_lo, BitVec.extractLsb'_eq_self, h]
  · simp (disch := omega) [hasExtension, field_asWord, cat_hi, cat_lo, BitVec.extractLsb'_eq_self]
theorem cgath : ∀ x0 x1 x2 x3, Statement (.cgath x0 x1 x2 x3) := by
  intro x0 x1 x2 x3; refine of_one rfl ?_ ?_
  · intro h y; simp (disch := omega) [decodeWord, decodeFixed, decode2F, field_asWord, cat_hi, cat_lo, BitVec.extractLsb'_eq_self, h]
  · simp (disch := omega) [hasExtension, field_asWord, cat_hi, cat_lo, BitVec.extractLsb'_eq_self]
theorem crsc : ∀ x0 x1 x2 x3, Statement (.crsc x0 x1 x2 x3) := by
  intro x0 x1 x2 x3; refine of_one rfl ?_ ?_
  · intro h y; simp (disch := omega) [decodeWord, decodeFixed, decode2F, field_asWord, cat_hi, cat_lo, BitVec.extractLsb'_eq_self, h]
  · simp (disch := omega) [hasExtension, field_asWord, cat_hi, cat_lo, BitVec.extractLsb'_eq_self]
theorem cata : ∀ x0 x1 x2 x3, Statement (.cata x0 x1 x2 x3) := by
  intro x0 x1 x2 x3; refine of_one rfl ?_ ?_
  · intro h y; simp (disch := omega) [decodeWord, decodeFixed, decode2F, field_asWord, cat_hi, cat_lo, BitVec.extractLsb'_eq_self, h]
  · simp (disch := omega) [hasExtension, field_asWord, cat_hi, cat_lo, BitVec.extractLsb'_eq_self]
theorem cbar : ∀ x0 x1 x2, Statement (.cbar x0 x1 x2) := by
  intro x0 x1 x2; refine of_one rfl ?_ ?_
  · intro h y; simp (disch := omega) [decodeWord, decodeFixed, decode2F, field_asWord, cat_hi, cat_lo, BitVec.extractLsb'_eq_self, h]
  · simp (disch := omega) [hasExtension, field_asWord, cat_hi, cat_lo, BitVec.extractLsb'_eq_self]
theorem launch : ∀ x0 x1 x2 x3, Statement (.launch x0 x1 x2 x3) := by
  intro x0 x1 x2 x3; refine of_one rfl ?_ ?_
  · intro h y; simp (disch := omega) [decodeWord, decodeFixed, decode30, field_asWord, cat_hi, cat_lo, BitVec.extractLsb'_eq_self, h]
  · simp (disch := omega) [hasExtension, field_asWord, cat_hi, cat_lo, BitVec.extractLsb'_eq_self]
theorem qpush : ∀ x0 x1 x2 x3, Statement (.qpush x0 x1 x2 x3) := by
  intro x0 x1 x2 x3; refine of_one rfl ?_ ?_
  · intro h y; simp (disch := omega) [decodeWord, decodeFixed, decode30, field_asWord, cat_hi, cat_lo, BitVec.extractLsb'_eq_self, h]
  · simp (disch := omega) [hasExtension, field_asWord, cat_hi, cat_lo, BitVec.extractLsb'_eq_self]
theorem qpop : ∀ x0 x1 x2 x3 x4, Statement (.qpop x0 x1 x2 x3 x4) := by
  intro x0 x1 x2 x3 x4; refine of_two rfl ?_ ?_
  · intro h; simp (disch := omega) [decodeWord, decodeFixed, decode30, field_asWord, cat_hi, cat_lo, BitVec.extractLsb'_eq_self, h]
  · simp (disch := omega) [hasExtension, field_asWord, cat_hi, cat_lo, BitVec.extractLsb'_eq_self]
theorem qfree : ∀ x0 x1 x2, Statement (.qfree x0 x1 x2) := by
  intro x0 x1 x2; refine of_one rfl ?_ ?_
  · intro h y; simp (disch := omega) [decodeWord, decodeFixed, decode30, field_asWord, cat_hi, cat_lo, BitVec.extractLsb'_eq_self, h]
  · simp (disch := omega) [hasExtension, field_asWord, cat_hi, cat_lo, BitVec.extractLsb'_eq_self]
theorem gets : ∀ x0 x1, Statement (.gets x0 x1) := by
  intro x0 x1; refine of_one rfl ?_ ?_
  · intro h y; simp (disch := omega) [decodeWord, decodeFixed, decode31, field_asWord, cat_hi, cat_lo, BitVec.extractLsb'_eq_self, h]
  · simp (disch := omega) [hasExtension, field_asWord, cat_hi, cat_lo, BitVec.extractLsb'_eq_self]
theorem sets : ∀ x0 x1, Statement (.sets x0 x1) := by
  intro x0 x1; refine of_one rfl ?_ ?_
  · intro h y; simp (disch := omega) [decodeWord, decodeFixed, decode31, field_asWord, cat_hi, cat_lo, BitVec.extractLsb'_eq_self, h]
  · simp (disch := omega) [hasExtension, field_asWord, cat_hi, cat_lo, BitVec.extractLsb'_eq_self]
theorem trap : ∀ x0, Statement (.trap x0) := by
  intro x0; refine of_one rfl ?_ ?_
  · intro h y; simp (disch := omega) [decodeWord, decodeFixed, decode32, field_asWord, cat_hi, cat_lo, BitVec.extractLsb'_eq_self, h]
  · simp (disch := omega) [hasExtension, field_asWord, cat_hi, cat_lo, BitVec.extractLsb'_eq_self]
theorem syscall : ∀ x0, Statement (.syscall x0) := by
  intro x0; refine of_one rfl ?_ ?_
  · intro h y; simp (disch := omega) [decodeWord, decodeFixed, decode32, field_asWord, cat_hi, cat_lo, BitVec.extractLsb'_eq_self, h]
  · simp (disch := omega) [hasExtension, field_asWord, cat_hi, cat_lo, BitVec.extractLsb'_eq_self]
theorem eret : Statement .eret := by
  refine of_one rfl ?_ ?_
  · intro h y; simp (disch := omega) [decodeWord, decodeFixed, decode32, field_asWord, cat_hi, cat_lo, BitVec.extractLsb'_eq_self, h]
  · simp (disch := omega) [hasExtension, field_asWord, cat_hi, cat_lo, BitVec.extractLsb'_eq_self]
theorem halt : Statement .halt := by
  refine of_one rfl ?_ ?_
  · intro h y; simp (disch := omega) [decodeWord, decodeFixed, decode32, field_asWord, cat_hi, cat_lo, BitVec.extractLsb'_eq_self, h]
  · simp (disch := omega) [hasExtension, field_asWord, cat_hi, cat_lo, BitVec.extractLsb'_eq_self]
theorem idle : Statement .idle := by
  refine of_one rfl ?_ ?_
  · intro h y; simp (disch := omega) [decodeWord, decodeFixed, decode32, field_asWord, cat_hi, cat_lo, BitVec.extractLsb'_eq_self, h]
  · simp (disch := omega) [hasExtension, field_asWord, cat_hi, cat_lo, BitVec.extractLsb'_eq_self]
theorem tlbinv : ∀ x0 x1 x2, Statement (.tlbinv x0 x1 x2) := by
  intro x0 x1 x2; refine of_one rfl ?_ ?_
  · intro h y; simp (disch := omega) [decodeWord, decodeFixed, decode33, field_asWord, cat_hi, cat_lo, BitVec.extractLsb'_eq_self, h]
  · simp (disch := omega) [hasExtension, field_asWord, cat_hi, cat_lo, BitVec.extractLsb'_eq_self]
theorem ctxsv : ∀ x0 x1 x2, Statement (.ctxsv x0 x1 x2) := by
  intro x0 x1 x2; refine of_one rfl ?_ ?_
  · intro h y; simp (disch := omega) [decodeWord, decodeFixed, decode33, field_asWord, cat_hi, cat_lo, BitVec.extractLsb'_eq_self, h]
  · simp (disch := omega) [hasExtension, field_asWord, cat_hi, cat_lo, BitVec.extractLsb'_eq_self]
theorem ctxld : ∀ x0 x1, Statement (.ctxld x0 x1) := by
  intro x0 x1; refine of_one rfl ?_ ?_
  · intro h y; simp (disch := omega) [decodeWord, decodeFixed, decode33, field_asWord, cat_hi, cat_lo, BitVec.extractLsb'_eq_self, h]
  · simp (disch := omega) [hasExtension, field_asWord, cat_hi, cat_lo, BitVec.extractLsb'_eq_self]
theorem migrate : ∀ x0 x1, Statement (.migrate x0 x1) := by
  intro x0 x1; refine of_one rfl ?_ ?_
  · intro h y; simp (disch := omega) [decodeWord, decodeFixed, decode34, field_asWord, cat_hi, cat_lo, BitVec.extractLsb'_eq_self, h]
  · simp (disch := omega) [hasExtension, field_asWord, cat_hi, cat_lo, BitVec.extractLsb'_eq_self]
theorem unmig : Statement .unmig := by
  refine of_one rfl ?_ ?_
  · intro h y; simp (disch := omega) [decodeWord, decodeFixed, decode34, field_asWord, cat_hi, cat_lo, BitVec.extractLsb'_eq_self, h]
  · simp (disch := omega) [hasExtension, field_asWord, cat_hi, cat_lo, BitVec.extractLsb'_eq_self]
theorem wpset : ∀ x0, Statement (.wpset x0) := by
  intro x0; refine of_one rfl ?_ ?_
  · intro h y; simp (disch := omega) [decodeWord, decodeFixed, decode34, field_asWord, cat_hi, cat_lo, BitVec.extractLsb'_eq_self, h]
  · simp (disch := omega) [hasExtension, field_asWord, cat_hi, cat_lo, BitVec.extractLsb'_eq_self]
theorem trace : ∀ x0, Statement (.trace x0) := by
  intro x0; refine of_one rfl ?_ ?_
  · intro h y; simp (disch := omega) [decodeWord, decodeFixed, decode34, field_asWord, cat_hi, cat_lo, BitVec.extractLsb'_eq_self, h]
  · simp (disch := omega) [hasExtension, field_asWord, cat_hi, cat_lo, BitVec.extractLsb'_eq_self]
theorem rejoinTimeout : ∀ x0 x1, Statement (.rejoinTimeout x0 x1) := by
  intro x0 x1; exact of_none rfl
theorem sleepWake : ∀ x0, Statement (.sleepWake x0) := by
  intro x0; exact of_none rfl
theorem sleepuWake : ∀ x0, Statement (.sleepuWake x0) := by
  intro x0; exact of_none rfl
theorem barrierWave : ∀ x0, Statement (.barrierWave x0) := by
  intro x0; exact of_none rfl
theorem waitgeRead : ∀ x0, Statement (.waitgeRead x0) := by
  intro x0; exact of_none rfl
theorem growGrant : ∀ x0, Statement (.growGrant x0) := by
  intro x0; exact of_none rfl
theorem growDeadlockFail : ∀ x0, Statement (.growDeadlockFail x0) := by
  intro x0; exact of_none rfl
theorem mmaRoundIssue : ∀ x0 x1, Statement (.mmaRoundIssue x0 x1) := by
  intro x0 x1; exact of_none rfl
theorem matrixStep : ∀ x0, Statement (.matrixStep x0) := by
  intro x0; exact of_none rfl
theorem asendLand : ∀ x0, Statement (.asendLand x0) := by
  intro x0; exact of_none rfl
theorem copyComplete : ∀ x0, Statement (.copyComplete x0) := by
  intro x0; exact of_none rfl
theorem collectiveForm : ∀ x0 x1, Statement (.collectiveForm x0 x1) := by
  intro x0 x1; exact of_none rfl
theorem collectiveComplete : ∀ x0 x1 x2, Statement (.collectiveComplete x0 x1 x2) := by
  intro x0 x1 x2; exact of_none rfl
theorem qpushPublish : ∀ x0, Statement (.qpushPublish x0) := by
  intro x0; exact of_none rfl
theorem queueWaitWake : ∀ x0, Statement (.queueWaitWake x0) := by
  intro x0; exact of_none rfl
theorem loadReturn : ∀ x0, Statement (.loadReturn x0) := by
  intro x0; exact of_none rfl
theorem accessAck : ∀ x0, Statement (.accessAck x0) := by
  intro x0; exact of_none rfl
theorem mshrGrant : ∀ x0, Statement (.mshrGrant x0) := by
  intro x0; exact of_none rfl
theorem wcDrainTimeout : ∀ x0, Statement (.wcDrainTimeout x0) := by
  intro x0; exact of_none rfl
theorem rdcLeaseEnd : ∀ x0 x1, Statement (.rdcLeaseEnd x0 x1) := by
  intro x0 x1; exact of_none rfl
theorem ldmcMergeEnd : ∀ x0, Statement (.ldmcMergeEnd x0) := by
  intro x0; exact of_none rfl
theorem ldmcHoldEnd : ∀ x0, Statement (.ldmcHoldEnd x0) := by
  intro x0; exact of_none rfl
theorem ldmcDeliveryDone : ∀ x0, Statement (.ldmcDeliveryDone x0) := by
  intro x0; exact of_none rfl
theorem shutterClose : ∀ x0, Statement (.shutterClose x0) := by
  intro x0; exact of_none rfl
theorem groupReturn : ∀ x0, Statement (.groupReturn x0) := by
  intro x0; exact of_none rfl
theorem activeSetSwap : ∀ x0 x1, Statement (.activeSetSwap x0 x1) := by
  intro x0 x1; exact of_none rfl
theorem pendingPromote : ∀ x0 x1, Statement (.pendingPromote x0 x1) := by
  intro x0 x1; exact of_none rfl
theorem teamDispatch : ∀ x0, Statement (.teamDispatch x0) := by
  intro x0; exact of_none rfl
theorem teamRelease : ∀ x0, Statement (.teamRelease x0) := by
  intro x0; exact of_none rfl
theorem swapOut : ∀ x0, Statement (.swapOut x0) := by
  intro x0; exact of_none rfl
theorem teamWake : ∀ x0, Statement (.teamWake x0) := by
  intro x0; exact of_none rfl
theorem ctxnew : ∀ x0, Statement (.ctxnew x0) := by
  intro x0; exact of_none rfl
theorem ctxend : ∀ x0, Statement (.ctxend x0) := by
  intro x0; exact of_none rfl
theorem load : ∀ x0, Statement (.load x0) := by
  intro x0; exact of_none rfl
theorem recoveryLoad : ∀ x0, Statement (.recoveryLoad x0) := by
  intro x0; exact of_none rfl
theorem mtcload : ∀ x0, Statement (.mtcload x0) := by
  intro x0; exact of_none rfl
theorem maphost : ∀ x0, Statement (.maphost x0) := by
  intro x0; exact of_none rfl
theorem exportMem : ∀ x0, Statement (.exportMem x0) := by
  intro x0; exact of_none rfl
theorem hostLaunch : ∀ x0, Statement (.hostLaunch x0) := by
  intro x0; exact of_none rfl
theorem attest : ∀ x0, Statement (.attest x0) := by
  intro x0; exact of_none rfl
theorem ctxset : ∀ x0, Statement (.ctxset x0) := by
  intro x0; exact of_none rfl
theorem celloff : ∀ x0, Statement (.celloff x0) := by
  intro x0; exact of_none rfl
theorem cellon : ∀ x0, Statement (.cellon x0) := by
  intro x0; exact of_none rfl
theorem drain : ∀ x0, Statement (.drain x0) := by
  intro x0; exact of_none rfl
theorem undrain : ∀ x0, Statement (.undrain x0) := by
  intro x0; exact of_none rfl
theorem laneoff : ∀ x0, Statement (.laneoff x0) := by
  intro x0; exact of_none rfl
theorem serviceReserved : ∀ x0, Statement (.serviceReserved x0) := by
  intro x0; exact of_none rfl
theorem reservedRequest : ∀ x0, Statement (.reservedRequest x0) := by
  intro x0; exact of_none rfl
theorem mbIdent : ∀ x0, Statement (.mbIdent x0) := by
  intro x0; exact of_none rfl
theorem synread : ∀ x0, Statement (.synread x0) := by
  intro x0; exact of_none rfl
theorem scrub : ∀ x0, Statement (.scrub x0) := by
  intro x0; exact of_none rfl
theorem rowrepair : ∀ x0, Statement (.rowrepair x0) := by
  intro x0; exact of_none rfl
theorem seqload : ∀ x0, Statement (.seqload x0) := by
  intro x0; exact of_none rfl
theorem mbReset : ∀ x0, Statement (.mbReset x0) := by
  intro x0; exact of_none rfl
theorem mbReserved : ∀ x0, Statement (.mbReserved x0) := by
  intro x0; exact of_none rfl
theorem coldPowerOn : Statement .coldPowerOn := by
  exact of_none rfl
theorem linkWidthRaise : ∀ x0 x1, Statement (.linkWidthRaise x0 x1) := by
  intro x0 x1; exact of_none rfl
theorem linkWidthDone : ∀ x0 x1, Statement (.linkWidthDone x0 x1) := by
  intro x0 x1; exact of_none rfl
theorem ratioSelect : ∀ x0 x1 x2, Statement (.ratioSelect x0 x1 x2) := by
  intro x0 x1 x2; exact of_none rfl
theorem ratioChangeDone : ∀ x0, Statement (.ratioChangeDone x0) := by
  intro x0; exact of_none rfl
theorem preempt : ∀ x0, Statement (.preempt x0) := by
  intro x0; exact of_none rfl
theorem launchWatchdog : ∀ x0, Statement (.launchWatchdog x0) := by
  intro x0; exact of_none rfl
theorem uevictConversion : ∀ x0 x1 x2, Statement (.uevictConversion x0 x1 x2) := by
  intro x0 x1 x2; exact of_none rfl
theorem pageMigrate : ∀ x0 x1 x2, Statement (.pageMigrate x0 x1 x2) := by
  intro x0 x1 x2; exact of_none rfl
theorem faultResolved : ∀ x0 x1 x2, Statement (.faultResolved x0 x1 x2) := by
  intro x0 x1 x2; exact of_none rfl
theorem teamFaultService : ∀ x0 x1, Statement (.teamFaultService x0 x1) := by
  intro x0 x1; exact of_none rfl
theorem syscallReturn : ∀ x0 x1, Statement (.syscallReturn x0 x1) := by
  intro x0 x1; exact of_none rfl
theorem uquotaService : ∀ x0 x1 x2, Statement (.uquotaService x0 x1 x2) := by
  intro x0 x1 x2; exact of_none rfl
theorem hostStop : ∀ x0 x1 x2, Statement (.hostStop x0 x1 x2) := by
  intro x0 x1 x2; exact of_none rfl
theorem hostStep : ∀ x0 x1, Statement (.hostStep x0 x1) := by
  intro x0 x1; exact of_none rfl
theorem linkWidthShed : ∀ x0 x1, Statement (.linkWidthShed x0 x1) := by
  intro x0 x1; exact of_none rfl
theorem hostDoorbell : ∀ x0 x1 x2 x3, Statement (.hostDoorbell x0 x1 x2 x3) := by
  intro x0 x1 x2 x3; exact of_none rfl
theorem hostCxlRead : ∀ x0 x1, Statement (.hostCxlRead x0 x1) := by
  intro x0 x1; exact of_none rfl
theorem hostCxlWrite : ∀ x0 x1 x2, Statement (.hostCxlWrite x0 x1 x2) := by
  intro x0 x1 x2; exact of_none rfl
theorem tbiSyn : ∀ x0 x1 x2 x3 x4, Statement (.tbiSyn x0 x1 x2 x3 x4) := by
  intro x0 x1 x2 x3 x4; exact of_none rfl
theorem tbiCmp : ∀ x0 x1, Statement (.tbiCmp x0 x1) := by
  intro x0 x1; exact of_none rfl
theorem tbiNop : ∀ x0, Statement (.tbiNop x0) := by
  intro x0; exact of_none rfl
theorem tbiReservedOpcode : ∀ x0 x1, Statement (.tbiReservedOpcode x0 x1) := by
  intro x0 x1; exact of_none rfl
theorem quiesce : ∀ x0 x1, Statement (.quiesce x0 x1) := by
  intro x0 x1; exact of_none rfl
theorem linkReplay : ∀ x0 x1 x2, Statement (.linkReplay x0 x1 x2) := by
  intro x0 x1 x2; exact of_none rfl
theorem energyLowRead : ∀ x0 x1, Statement (.energyLowRead x0 x1) := by
  intro x0 x1; exact of_none rfl
theorem energyHighRead : ∀ x0 x1, Statement (.energyHighRead x0 x1) := by
  intro x0 x1; exact of_none rfl
theorem sysregWrite : ∀ x0 x1, Statement (.sysregWrite x0 x1) := by
  intro x0 x1; exact of_none rfl
theorem powerLoss : Statement .powerLoss := by
  exact of_none rfl

end Sys2Proof.Laws.Encoding
end

