-- ==== Sys2Proof/Tests/Slice0.lean ====
section
/-! SUPPORT. The author's own tests: ill-formed terms that WellFormed refuses, words written out from the encodings of the spec and
what they decode to, and for every statement states and operands that meet its hypotheses. -/

open Sys2Proof Sys2Proof.Machine

set_option maxRecDepth 100000

namespace Sys2Proof.Tests

/-! ## A small state: one team of one group of two threads on core 0, whose context maps 1 GiB onto itself -/

/-- Its context. -/
def labCtx : Ctx := { bootCtx 7#16 with num := 1, trapvec := 0x1000#64, emuvec := 0x2000#64, quota := 10, nextLaunch := 1 }

/-- Its kernel and launch. -/
def labKernel : Kernel := ⟨none, [0x6B#8], 0x1000#64, 3, 16, 1, false, 64, 16, 16, 4, 4, 128, 1⟩
def labLaunch : Launch := ⟨100, 1, 1, labKernel, 1, 1, 0#64, 0#64, 0, BitVec.allOnes 192, 0, 5000, false, [], none, none⟩

/-- Thread `n`, at the first word of a clause that holds the instruction, with some of its registers set. -/
def labThread (n : Nat) (i : Instr) (rs : List (VReg × Word)) : Thread :=
  { Thread.fresh ⟨8, 0, n⟩ 0x100#64 .running with
    clause := some ⟨BitVec.ofNat 32 (0xA707F800 + 0x100 * classOf i.major + i.len), encode i, false⟩
    v := rs.foldl (fun v r => v.set r.1.toNat ⟨r.2, false, 0#3⟩ r.1.isLt) (Vector.replicate 128 Reg.zero) }

def labGroup : Group := { Group.fresh ⟨8, 0⟩ 16 0 64 0#64 0x2000#64 0 with active := true }
def labTeam : Team := Team.fresh 8 1 100 0 16 16 [0] 3 false ⟨4096, 4096, 128, 128, 0x4000, 0, 4⟩

def lab (i : Instr) (rs : List (VReg × Word)) : State :=
  { State.reset with
    time := 5000
    mem := [(0x10000, 1#8), (0x10002, 2#8), (0x20000, 0x3F#8)]
    threads := [labThread 0 i rs, labThread 1 i rs]
    groups := [labGroup]
    teams := [labTeam]
    part := { Part.reset with bootst := 3#8, ctxs := [labCtx], launches := [labLaunch], frames := [(1, 1), (1, 2)] }
    cur := ⟨⟨8, 0⟩, [⟨8, 0, 0⟩]⟩
    nextId := 200 }

def t0 : TId := ⟨8, 0, 0⟩

def soloB (s : State) (t : TId) : Bool :=
  decide (s.cur = ⟨t.gid, [t]⟩) && (s.thread? t).isSome && (s.group? t.gid).isSome

theorem solo_of {s : State} {t : TId} (h : soloB s t = true) : Solo s t := by
  simp only [soloB, Bool.and_eq_true, decide_eq_true_eq] at h; exact ⟨h.1.1, h.1.2, h.2⟩

def clearB (s : State) (t : TId) (i : Instr) (eats : List VReg) (ps : List PReg) : Bool :=
  (beyond s t i).isNone && (matchHere s t (s.th t).wordAt.toNat i.word).isNone && ((s.th t).poisoned eats).isNone &&
    ((s.th t).poisonedP ps).isNone

theorem clear_of {s : State} {t : TId} {i : Instr} {eats : List VReg} {ps : List PReg} (h : clearB s t i eats ps = true) :
    Clear s t i eats ps := by
  simp only [clearB, Bool.and_eq_true, Option.isNone_iff_eq_none] at h; exact ⟨h.1.1.1, h.1.1.2, h.1.2, h.2⟩

def safeB (s : State) : Bool :=
  Memory.wf s.mem && decide (s.threads.map Thread.id).Nodup && decide (s.groups.map Group.id).Nodup &&
    decide (s.teams.map Team.key).Nodup && s.teams.all (fun x => decide (x.key < s.nextId)) &&
    s.groups.all (fun x => decide (x.id.team < s.nextId)) && s.threads.all (fun x => decide (x.id.team < s.nextId)) && decide (8 ≤ s.nextId)

theorem safe_of {s : State} (h : safeB s = true) : Safe s := by
  simp only [safeB, Bool.and_eq_true, decide_eq_true_eq, List.all_eq_true] at h
  obtain ⟨⟨⟨⟨⟨⟨⟨a, b⟩, c⟩, d⟩, e⟩, f⟩, g⟩, i⟩ := h
  exact ⟨a, ⟨b, c, d⟩, ⟨e, f, g⟩, i⟩

theorem settled_of {s : State} (h : safeB s = true) (l : s.part.l2 = []) : Settled s := by
  refine ⟨safe_of h, ?_, ?_, ?_, ?_, ?_⟩ <;> simp [l]

theorem solo_lab (i : Instr) (rs : List (VReg × Word)) : Solo (lab i rs) t0 := ⟨rfl, rfl, rfl⟩
theorem safe_lab (i : Instr) (rs : List (VReg × Word)) : Safe (lab i rs) := safe_of (by with_unfolding_all rfl)

def okB {ε α : Type} [DecidableEq α] (x : Except ε α) (y : α) : Bool := match x with
  | .ok a => decide (a = y)
  | .error _ => false
theorem ok_of {ε α : Type} [DecidableEq α] {x : Except ε α} {y : α} (h : okB x y = true) : x = .ok y := by
  cases x <;> simp_all [okB]
theorem okp_of {ε α β : Type} [DecidableEq α] {x : Except ε α × β} {y : α} (h : okB x.1 y = true) : x = (.ok y, x.2) :=
  Prod.ext (ok_of h) rfl
theorem okn_of {ε α β : Type} [DecidableEq α] {x : Except ε α × List β} {y : α} (h : (okB x.1 y && x.2.isEmpty) = true) : x = (.ok y, []) := by
  simp only [Bool.and_eq_true, List.isEmpty_iff] at h; exact Prod.ext (ok_of h.1) h.2
def errB {α : Type} (x : Except Nat α) (y : Nat) : Bool := match x with
  | .ok _ => false
  | .error a => a == y
theorem err_of {α : Type} {x : Except Nat α} {y : Nat} (h : errB x y = true) : x = .error y := by
  cases x <;> simp_all [errB]
/-- The value that a translation gives. -/
def okOf {ε α : Type} (d : α) (x : Except ε α) : α := match x with
  | .ok a => a
  | .error _ => d
def isOk {ε α : Type} (x : Except ε α) : Bool := match x with
  | .ok _ => true
  | .error _ => false
theorem ok_got {ε α : Type} (d : α) {x : Except ε α} (h : isOk x = true) : x = .ok (okOf d x) := by
  cases x <;> simp_all [isOk, okOf]
theorem okp_got {ε α β : Type} (d : α) {x : Except ε α × β} (h : isOk x.1 = true) : x = (.ok (okOf d x.1), x.2) :=
  Prod.ext (ok_got d h) rfl

/-- The lab's first thread changed. -/
def with0 (s : State) (f : Thread → Thread) : State := { s with threads := s.threads.modifyHead f }
def withG (s : State) (f : Group → Group) : State := { s with groups := s.groups.modifyHead f }
def withT (s : State) (f : Team → Team) : State := { s with teams := s.teams.modifyHead f }
def withP (s : State) (f : Part → Part) : State := { s with part := f s.part }

/-- The lab's first thread has a vector for its traps. -/
def vectorB (s : State) : Bool :=
  let s1 := prepared.run { s with sched := [] }
  (s1.ctxOf 8).any (fun c => c.trapvec == 0x1000#64) && !(s1.th t0).inh && (s1.th t0).clause.isNone
theorem vectored_of {s : State} (h : vectorB s = true) : Vectored (prepared.run { s with sched := [] }) t0 0x1000#64 := by
  simp only [vectorB, Bool.and_eq_true, Option.any_eq_true, beq_iff_eq, Bool.not_eq_true', Option.isNone_iff_eq_none] at h
  obtain ⟨⟨⟨c, a, b⟩, d⟩, e⟩ := h
  exact ⟨⟨c, a, b⟩, by decide, d, fun c k => by rw [e] at k; cases k⟩

/-! ## Ill-formed terms, one for each check of WellFormed -/

/-- Conditions that no encoding field meets otherwise: tables of conditions and conversions, counts that are at least 1. -/
theorem smoke_tables :
    (Instr.cmpi 0#3 5#7 6#7 10#5).wf = false ∧ (Instr.cmpf 0#3 5#7 6#7 14#5).wf = false ∧ (Instr.fcvt 4#7 5#7 20#5).wf = false ∧
    (Instr.ifp 0#1 0#3 0#4).wf = false ∧ (Instr.repeatN 0#3 0#2 0#4).wf = false ∧ (Instr.gets 4#7 17#8).wf = false ∧
    (Instr.sets 4#7 17#8).wf = false ∧ (Instr.obld 0#4 4#7 0#3 0#4 0#14 0#14).wf = false ∧ (Instr.accz 0#3 0#4 0#14 0#13).wf = false ∧
    (Instr.accz 0#3 0#4 8193#14 0#13).wf = false ∧ (Instr.accld 4#7 0#7 0#3 0#4 65#7 0#3 0#13).wf = false ∧
    (Instr.accld 4#7 0#7 0#3 0#4 64#7 3#3 0#13).wf = false ∧ (Instr.accst 4#7 0#7 0#3 0#4 0#7 0#3 0#13).wf = false ∧
    (Instr.accst 4#7 0#7 0#3 0#4 64#7 5#3 0#13).wf = false ∧ (Instr.copy 4#7 6#7 0#3 0#1 0#4 0#16).wf = false ∧
    (Instr.copyg 4#7 6#7 0#3 0#1 0#4 0#16).wf = false := by decide

/-- Pairs on odd registers. -/
theorem smoke_pairs :
    (Instr.lea 5#7 4#7 0#12).wf = false ∧ (Instr.lea 4#7 5#7 0#12).wf = false ∧ (Instr.matchLanes 5#7 4#7 4#7).wf = false ∧
    (Instr.brx 0#1 0#3 5#7).wf = false ∧ (Instr.ret 5#7).wf = false ∧ (Instr.sleepu 5#7).wf = false ∧
    (Instr.sleepuCounter 4#7 5#7).wf = false ∧ (Instr.ld 4#7 5#7 0#3 0#2 0#2 0#4).wf = false ∧ (Instr.ld 5#7 4#7 0#3 1#2 0#2 0#4).wf = false ∧
    (Instr.ldOffset 5#7 4#7 0#3 1#2 0#2 0#4 0#32).wf = false ∧ (Instr.st 5#7 4#7 0#3 1#2 0#2 0#4).wf = false ∧
    (Instr.stOffset 4#7 5#7 0#3 0#2 0#2 0#4 0#32).wf = false ∧ (Instr.lda 5#7 4#7 0#3 1#1 0#2 0#4).wf = false ∧
    (Instr.ldaScope 4#7 5#7 0#3 0#1 0#2 0#4 0#3).wf = false ∧ (Instr.stl 5#7 4#7 0#3 1#1 0#2 0#4).wf = false ∧
    (Instr.stlScope 5#7 4#7 0#3 1#1 0#2 0#4 0#3).wf = false ∧ (Instr.ldmc 5#7 4#7 0#3 0#4 0#12 0#7).wf = false ∧
    (Instr.pref 5#7 0#3 0#2 0#2 0#4).wf = false ∧ (Instr.prefOffset 5#7 0#3 0#2 0#2 0#4 0#32).wf = false ∧
    (Instr.atom 4#7 5#7 0#3 0#2 0#4).wf = false ∧ (Instr.red 4#7 5#7 0#3 0#2 0#4).wf = false ∧
    (Instr.atomk 5#7 4#7 0#3 0#2 0#2 0#4).wf = false ∧ (Instr.discard 4#7 5#7).wf = false ∧ (Instr.flushl 4#7 5#7).wf = false ∧
    (Instr.invl 4#7 5#7 0#1).wf = false ∧ (Instr.waitge 5#7 4#7 0#3 0#4).wf = false := by decide

/-- Pairs on odd registers, of the engines and the system. -/
theorem smoke_more_pairs :
    (Instr.obres 0#4 5#7 0#3 0#4).wf = false ∧ (Instr.obld 0#4 5#7 0#3 0#4 1#14 0#14).wf = false ∧
    (Instr.accld 5#7 0#7 0#3 0#4 1#7 0#3 0#13).wf = false ∧ (Instr.accst 5#7 0#7 0#3 0#4 1#7 0#3 0#13).wf = false ∧
    (Instr.achain 4#7 5#7 0#3 0#4).wf = false ∧ (Instr.copy 5#7 6#7 0#3 0#1 0#4 1#16).wf = false ∧
    (Instr.copyg 4#7 7#7 0#3 0#1 0#4 1#16).wf = false ∧ (Instr.sealLayout 5#7 6#7 0#3 0#4).wf = false ∧
    (Instr.cgrp 4#7 5#7 0#3 0#4).wf = false ∧ (Instr.cgath 4#7 5#7 0#3 0#4).wf = false ∧ (Instr.crsc 4#7 5#7 0#3 0#4).wf = false ∧
    (Instr.cata 4#7 5#7 0#3 0#4).wf = false ∧ (Instr.launch 5#7 4#7 0#3 0#4).wf = false ∧ (Instr.qpush 4#7 5#7 0#3 0#4).wf = false ∧
    (Instr.qpop 4#7 5#7 0#3 0#4 0#3).wf = false ∧ (Instr.qfree 5#7 0#3 0#4).wf = false ∧ (Instr.gets 5#7 7#8).wf = false ∧
    (Instr.sets 5#7 11#8).wf = false ∧ (Instr.ctxsv 5#7 4#7 0#3).wf = false ∧ (Instr.ctxld 5#7 0#3).wf = false ∧
    (Instr.wpset 5#7).wf = false ∧ (Instr.tlbinv 4#7 5#7 0#2).wf = false := by decide

/-- The extension words of the atomics, and the fields of TLBINV. -/
theorem smoke_operands :
    (Instr.atomExt 4#7 4#7 0#3 0#2 0#4 0#3 0#7 0#3 13#4 0#2).wf = false ∧ (Instr.atomExt 4#7 4#7 0#3 0#2 0#4 0#3 0#7 0#3 0#4 2#2).wf = false ∧
    (Instr.atomExt 5#7 4#7 0#3 0#2 0#4 0#3 0#7 0#3 0#4 1#2).wf = false ∧ (Instr.atomExt 4#7 4#7 0#3 0#2 0#4 0#3 0#7 0#3 10#4 1#2).wf = false ∧
    (Instr.atomExt 4#7 4#7 0#3 0#2 0#4 0#3 5#7 0#3 9#4 1#2).wf = false ∧ (Instr.atomExt 4#7 4#7 0#3 0#2 0#4 0#3 1#7 0#3 0#4 0#2).wf = false ∧
    (Instr.atomExt 4#7 4#7 0#3 0#2 0#4 0#3 0#7 5#3 0#4 0#2).wf = false ∧ (Instr.redExt 4#7 4#7 0#3 0#2 0#4 0#3 1#3 0#4 0#2).wf = false ∧
    (Instr.redExt 4#7 4#7 0#3 0#2 0#4 0#3 0#3 8#4 0#2).wf = false ∧ (Instr.redExt 4#7 4#7 0#3 0#2 0#4 0#3 0#3 13#4 0#2).wf = false ∧
    (Instr.redExt 4#7 4#7 0#3 0#2 0#4 0#3 0#3 0#4 2#2).wf = false ∧ (Instr.redExt 5#7 4#7 0#3 0#2 0#4 0#3 0#3 0#4 1#2).wf = false ∧
    (Instr.redExt 4#7 4#7 0#3 0#2 0#4 0#3 0#3 10#4 1#2).wf = false ∧ (Instr.atomkExt 4#7 4#7 0#3 0#2 0#2 0#4 0#3 5#3).wf = false ∧
    (Instr.tlbinv 0#7 4#7 1#2).wf = false ∧ (Instr.tlbinv 4#7 0#7 2#2).wf = false ∧ (Instr.tlbinv 0#7 4#7 3#2).wf = false := by decide

/-! ## Words written out from the encodings of the spec -/

/-- Words of major 0x01 by the fields of R377, R378, R394. -/
theorem test_decode_01 :
    decodeWord 0x0480A080#32 0#32 = .ok (.iadd 16 10 4) ∧
    decodeWord 0x0480A081#32 0#32 = .ok (.isub 16 10 4) ∧
    decodeWord 0x0480A082#32 0#32 = .ok (.imul 16 10 4) ∧
    decodeWord 0x0480A083#32 0#32 = .ok (.imulhS 16 10 4) ∧
    decodeWord 0x0480A084#32 0#32 = .ok (.imulhN 16 10 4) ∧
    decodeWord 0x0480A085#32 0#32 = .ok (.imad 16 10 4) ∧
    decodeWord 0x0480A086#32 0#32 = .ok (.iminS 16 10 4) ∧
    decodeWord 0x0480A087#32 0#32 = .ok (.iminN 16 10 4) ∧
    decodeWord 0x0480A088#32 0#32 = .ok (.imaxS 16 10 4) ∧
    decodeWord 0x0480A089#32 0#32 = .ok (.imaxN 16 10 4) ∧
    decodeWord 0x0480A00A#32 0#32 = .ok (.iabs 16 10) ∧
    decodeWord 0x0480A08B#32 0#32 = .ok (.isel 16 10 4) ∧
    decodeWord 0x0480A08C#32 0#32 = .ok (.iadd2 16 10 4) ∧
    decodeWord 0x0480A08D#32 0#32 = .ok (.isub2 16 10 4) ∧
    decodeWord 0x0480A08E#32 0#32 = .ok (.imin2S 16 10 4) ∧
    decodeWord 0x0480A08F#32 0#32 = .ok (.imin2N 16 10 4) ∧
    decodeWord 0x0480A090#32 0#32 = .ok (.imax2S 16 10 4) ∧
    decodeWord 0x0480A091#32 0#32 = .ok (.imax2N 16 10 4) ∧
    decodeWord 0x0480A092#32 0#32 = .ok (.maxd2 16 10 4) := by decide

/-- Words of major 0x02 by the fields of R322, R409, R448, R405, R423, R333, R410, R339, R335, R399. -/
theorem test_decode_02 :
    decodeWord 0x0880A080#32 0#32 = .ok (.and 16 10 4) ∧
    decodeWord 0x0880A081#32 0#32 = .ok (.or 16 10 4) ∧
    decodeWord 0x0880A082#32 0#32 = .ok (.xor 16 10 4) ∧
    decodeWord 0x0880A003#32 0#32 = .ok (.not 16 10) ∧
    decodeWord 0x0880A084#32 0#32 = .ok (.shl 16 10 4) ∧
    decodeWord 0x0880A085#32 0#32 = .ok (.shr 16 10 4) ∧
    decodeWord 0x0880A086#32 0#32 = .ok (.sar 16 10 4) ∧
    decodeWord 0x0880A087#32 0#32 = .ok (.rot 16 10 4) ∧
    decodeWord 0x0880A088#32 0#32 = .ok (.bfxS 16 10 4) ∧
    decodeWord 0x0880A089#32 0#32 = .ok (.bfxN 16 10 4) ∧
    decodeWord 0x0880A08A#32 0#32 = .ok (.bfi 16 10 4) ∧
    decodeWord 0x0880A00B#32 0#32 = .ok (.popc 16 10) ∧
    decodeWord 0x0880A00C#32 0#32 = .ok (.clz 16 10) ∧
    decodeWord 0x0880A00D#32 0#32 = .ok (.brev 16 10) ∧
    decodeWord 0x0880A00E#32 0#32 = .ok (.mov 16 10) ∧
    decodeWord 0x0829000F#32 0#32 = .ok (.movgToG 5 16) ∧
    decodeWord 0x0880502F#32 0#32 = .ok (.movgFromG 16 5) := by decide

/-- Words of major 0x03 by the fields of R377. -/
theorem test_decode_03 :
    decodeWord 0x0C80A83F#32 0#32 = .ok (.iaddi 16 10 2111) := by decide

/-- Words of major 0x04 by the fields of R322. -/
theorem test_decode_04 :
    decodeWord 0x1080A83F#32 0#32 = .ok (.andi 16 10 2111) := by decide

/-- Words of major 0x05 by the fields of R409. -/
theorem test_decode_05 :
    decodeWord 0x1480A83F#32 0#32 = .ok (.ori 16 10 2111) := by decide

/-- Words of major 0x06 by the fields of R448. -/
theorem test_decode_06 :
    decodeWord 0x1880A83F#32 0#32 = .ok (.xori 16 10 2111) := by decide

/-- Words of major 0x07 by the fields of R341. -/
theorem test_decode_07 :
    decodeWord 0x1C190142#32 0#32 = .ok (.cmpi 3 16 10 2) := by decide

/-- Words of major 0x08 by the fields of R58. -/
theorem test_decode_08 :
    decodeWord 0x2080083F#32 0#32 = .ok (.movi 16 2111) := by decide

/-- Words of major 0x09 by the fields of R392. -/
theorem test_decode_09 :
    decodeWord 0x2480A83F#32 0#32 = .ok (.lea 16 10 2111) := by decide

/-- Words of major 0x0A by the fields of R355, R356, R361, R127, R357. -/
theorem test_decode_0a :
    decodeWord 0x2880A080#32 0#32 = .ok (.fadd 16 10 4) ∧
    decodeWord 0x2880A081#32 0#32 = .ok (.fsub 16 10 4) ∧
    decodeWord 0x2880A082#32 0#32 = .ok (.fmul 16 10 4) ∧
    decodeWord 0x2880A083#32 0#32 = .ok (.ffma 16 10 4) ∧
    decodeWord 0x2880A084#32 0#32 = .ok (.fmin 16 10 4) ∧
    decodeWord 0x2880A085#32 0#32 = .ok (.fmax 16 10 4) ∧
    decodeWord 0x2880A086#32 0#32 = .ok (.fdot2 16 10 4) ∧
    decodeWord 0x2880A007#32 0#32 = .ok (.fkey 16 10) ∧
    decodeWord 0x2880A008#32 0#32 = .ok (.fclass 16 10) := by decide

/-- Words of major 0x0B by the fields of R359. -/
theorem test_decode_0b :
    decodeWord 0x2C80A002#32 0#32 = .ok (.fcvt 16 10 2) := by decide

/-- Words of major 0x0C by the fields of R358. -/
theorem test_decode_0c :
    decodeWord 0x3080A000#32 0#32 = .ok (.frcp 16 10) ∧
    decodeWord 0x3080A001#32 0#32 = .ok (.frsq 16 10) ∧
    decodeWord 0x3080A002#32 0#32 = .ok (.fsqrt 16 10) ∧
    decodeWord 0x3080A003#32 0#32 = .ok (.fexp2 16 10) ∧
    decodeWord 0x3080A004#32 0#32 = .ok (.flog2 16 10) ∧
    decodeWord 0x3080A005#32 0#32 = .ok (.fsin 16 10) ∧
    decodeWord 0x3080A006#32 0#32 = .ok (.fcos 16 10) := by decide

/-- Words of major 0x0D by the fields of R340. -/
theorem test_decode_0d :
    decodeWord 0x34190142#32 0#32 = .ok (.cmpf 3 16 10 2) := by decide

/-- Words of major 0x0E by the fields of R374. -/
theorem test_decode_0e :
    decodeWord 0x3880A080#32 0#32 = .ok (.hadd2F16 16 10 4) ∧
    decodeWord 0x3880A081#32 0#32 = .ok (.hadd2Bf16 16 10 4) ∧
    decodeWord 0x3880A082#32 0#32 = .ok (.hmul2F16 16 10 4) ∧
    decodeWord 0x3880A083#32 0#32 = .ok (.hmul2Bf16 16 10 4) ∧
    decodeWord 0x3880A084#32 0#32 = .ok (.hfma2F16 16 10 4) ∧
    decodeWord 0x3880A085#32 0#32 = .ok (.hfma2Bf16 16 10 4) ∧
    decodeWord 0x3880A086#32 0#32 = .ok (.hmin2F16 16 10 4) ∧
    decodeWord 0x3880A087#32 0#32 = .ok (.hmin2Bf16 16 10 4) ∧
    decodeWord 0x3880A088#32 0#32 = .ok (.hmax2F16 16 10 4) ∧
    decodeWord 0x3880A089#32 0#32 = .ok (.hmax2Bf16 16 10 4) := by decide

/-- Words of major 0x0F by the fields of R430, R444, R420, R424, R393, R351. -/
theorem test_decode_0f :
    decodeWord 0x3C80A080#32 0#32 = .ok (.shfl 16 10 4) ∧
    decodeWord 0x3C80A081#32 0#32 = .ok (.shflx 16 10 4) ∧
    decodeWord 0x3C80A082#32 0#32 = .ok (.shflu 16 10 4) ∧
    decodeWord 0x3C80A083#32 0#32 = .ok (.shfld 16 10 4) ∧
    decodeWord 0x3C190144#32 0#32 = .ok (.voteAny 3 16 10) ∧
    decodeWord 0x3C190145#32 0#32 = .ok (.voteAll 3 16 10) ∧
    decodeWord 0x3C80A086#32 0#32 = .ok (.voteBallot 16 10 4) ∧
    decodeWord 0x3C80A087#32 0#32 = .ok (.redgAdd 16 10 4) ∧
    decodeWord 0x3C80A088#32 0#32 = .ok (.redgMin 16 10 4) ∧
    decodeWord 0x3C80A089#32 0#32 = .ok (.redgMax 16 10 4) ∧
    decodeWord 0x3C80A08A#32 0#32 = .ok (.scangAdd 16 10 4) ∧
    decodeWord 0x3C80A08B#32 0#32 = .ok (.scangMax 16 10 4) ∧
    decodeWord 0x3C80A08C#32 0#32 = .ok (.matchLanes 16 10 4) ∧
    decodeWord 0x3C18020D#32 0#32 = .ok (.elect 3 16) := by decide

/-- Words of major 0x10 by the fields of R334. -/
theorem test_decode_10 :
    decodeWord 0x41FFFFF9#32 0#32 = .ok (.bra 3 1 4194297) := by decide

/-- Words of major 0x11 by the fields of R336. -/
theorem test_decode_11 :
    decodeWord 0x44590000#32 0#32 = .ok (.brx 1 3 16) := by decide

/-- Words of major 0x12 by the fields of R337. -/
theorem test_decode_12 :
    decodeWord 0x49FFFFF9#32 0#32 = .ok (.call 3 1 4194297) := by decide

/-- Words of major 0x13 by the fields of R422. -/
theorem test_decode_13 :
    decodeWord 0x4C010000#32 0#32 = .ok (.ret 16) := by decide

/-- Words of major 0x14 by the fields of R64. -/
theorem test_decode_14 :
    decodeWord 0x50580002#32 0#32 = .ok (.ifp 1 3 2) := by decide

/-- Words of major 0x15 by the fields of R67. -/
theorem test_decode_15 :
    decodeWord 0x54081002#32 0#32 = .ok (.repeatN 1 1 2) := by decide

/-- Words of major 0x16 by the fields of R352, R380, R437. -/
theorem test_decode_16 :
    decodeWord 0x58000001#32 0#32 = .ok (.enrol 1) ∧
    decodeWord 0x58000101#32 0#32 = .ok (.join 1) ∧
    decodeWord 0x58000201#32 0#32 = .ok (.strike 1) := by decide

/-- Words of major 0x17 by the fields of R404, R354, R449, R432, R433. -/
theorem test_decode_17 :
    decodeWord 0x5C000000#32 0#32 = .ok (.nop) ∧
    decodeWord 0x5C000100#32 0#32 = .ok (.exit) ∧
    decodeWord 0x5C000200#32 0#32 = .ok (.yield) ∧
    decodeWord 0x5C010300#32 0#32 = .ok (.sleep 16) ∧
    decodeWord 0x5C800400#32 0#32 = .ok (.sleepu 16) ∧
    decodeWord 0x5C80A401#32 0#32 = .ok (.sleepuCounter 16 10) := by decide

/-- Words of major 0x18 by the fields of R388. -/
theorem test_decode_18 :
    decodeWord 0x6080AAA9#32 0#32 = .ok (.ld 16 10 5 1 1 9) := by decide

/-- Words of major 0x19 by the fields of R434. -/
theorem test_decode_19 :
    decodeWord 0x6480AAA9#32 0#32 = .ok (.st 16 10 5 1 1 9) := by decide

/-- Words of major 0x1A by the fields of R390. -/
theorem test_decode_1a :
    decodeWord 0x6880AAA9#32 0#32 = .ok (.lda 16 10 5 1 1 9) := by decide

/-- Words of major 0x1B by the fields of R436. -/
theorem test_decode_1b :
    decodeWord 0x6C80AAA9#32 0#32 = .ok (.stl 16 10 5 1 1 9) := by decide

/-- Words of major 0x1D by the fields of R411. -/
theorem test_decode_1d :
    decodeWord 0x74010AA9#32 0#32 = .ok (.pref 16 5 1 1 9) := by decide

/-- Words of major 0x1E by the fields of R326. -/
theorem test_decode_1e :
    decodeWord 0x7880AA29#32 0#32 = .ok (.atom 16 10 5 1 9) := by decide

/-- Words of major 0x1F by the fields of R419. -/
theorem test_decode_1f :
    decodeWord 0x7C80AA29#32 0#32 = .ok (.red 16 10 5 1 9) := by decide

/-- Words of major 0x20 by the fields of R329. -/
theorem test_decode_20 :
    decodeWord 0x8080AAA9#32 0#32 = .ok (.atomk 16 10 5 1 1 9) := by decide

/-- Words of major 0x21 by the fields of R363, R349, R367, R412. -/
theorem test_decode_21 :
    decodeWord 0x84000009#32 0#32 = .ok (.fence 1 1) ∧
    decodeWord 0x8480A100#32 0#32 = .ok (.discard 16 10) ∧
    decodeWord 0x8480A200#32 0#32 = .ok (.flushl 16 10) ∧
    decodeWord 0x8480A301#32 0#32 = .ok (.invl 16 10 1) ∧
    decodeWord 0x84190400#32 0#32 = .ok (.ptest 3 16) := by decide

/-- Words of major 0x22 by the fields of R332, R311. -/
theorem test_decode_22 :
    decodeWord 0x88010002#32 0#32 = .ok (.bari 16 2) ∧
    decodeWord 0x88010102#32 0#32 = .ok (.bara 16 2) ∧
    decodeWord 0x88000202#32 0#32 = .ok (.barw 2) ∧
    decodeWord 0x88010302#32 0#32 = .ok (.bar 16 2) := by decide

/-- Words of major 0x23 by the fields of R230. -/
theorem test_decode_23 :
    decodeWord 0x8C80AA09#32 0#32 = .ok (.waitge 16 10 5 9) := by decide

/-- Words of major 0x24 by the fields of R446. -/
theorem test_decode_24 :
    decodeWord 0x90000021#32 0#32 = .ok (.waitw 33) := by decide

/-- Words of major 0x25 by the fields of R26. -/
theorem test_decode_25 :
    decodeWord 0x94180021#32 0#32 = .ok (.grow 3 33) ∧
    decodeWord 0x94000121#32 0#32 = .ok (.shrink 33) := by decide

/-- Words of major 0x26 by the fields of R187. -/
theorem test_decode_26 :
    decodeWord 0x98090003#32 0#32 = .ok (.kset 1 16 3) := by decide

/-- Words of major 0x29 by the fields of R199, R403, R402. -/
theorem test_decode_29 :
    decodeWord 0xA4000000#32 0#32 = .ok (.opfence) ∧
    decodeWord 0xA4000101#32 0#32 = .ok (.mwait 1) ∧
    decodeWord 0xA4800201#32 0#32 = .ok (.mprogMat 16 1) ∧
    decodeWord 0xA4800240#32 0#32 = .ok (.mprogCopy 16) := by decide

/-- Words of major 0x2A by the fields of R193. -/
theorem test_decode_2a :
    decodeWord 0xA8110A09#32 0#32 = .ok (.obres 2 16 5 9) ∧
    decodeWord 0xA8100A29#32 0#32 = .ok (.obrel 2 5 9) := by decide

/-- Words of major 0x2B by the fields of R196. -/
theorem test_decode_2b :
    decodeWord 0xAC80AA69#32 0#32 = .ok (.accrd 16 10 5 9) := by decide

/-- Words of major 0x2C by the fields of R204, R205, R206. -/
theorem test_decode_2c :
    decodeWord 0xB080AA09#32 0#32 = .ok (.achain 16 10 5 9) ∧
    decodeWord 0xB080AA29#32 0#32 = .ok (.asend 16 10 5 9) ∧
    decodeWord 0xB0800A49#32 0#32 = .ok (.await 16 5 9) ∧
    decodeWord 0xB0800B69#32 0#32 = .ok (.arel 16 5 1 9) := by decide

/-- Words of major 0x2E by the fields of R225. -/
theorem test_decode_2e :
    decodeWord 0xB880AA09#32 0#32 = .ok (.sealLayout 16 10 5 9) := by decide

/-- Words of major 0x2F by the fields of R220, R221, R344, R338. -/
theorem test_decode_2f :
    decodeWord 0xBC80AA09#32 0#32 = .ok (.cgrp 16 10 5 9) ∧
    decodeWord 0xBC800B09#32 0#32 = .ok (.cgrpEnd 16 5 9) ∧
    decodeWord 0xBC80AA29#32 0#32 = .ok (.cgath 16 10 5 9) ∧
    decodeWord 0xBC80AA49#32 0#32 = .ok (.crsc 16 10 5 9) ∧
    decodeWord 0xBC80AA69#32 0#32 = .ok (.cata 16 10 5 9) ∧
    decodeWord 0xBC800A89#32 0#32 = .ok (.cbar 16 5 9) := by decide

/-- Words of major 0x30 by the fields of R384, R414, R416. -/
theorem test_decode_30 :
    decodeWord 0xC080AA09#32 0#32 = .ok (.launch 16 10 5 9) ∧
    decodeWord 0xC080AA29#32 0#32 = .ok (.qpush 16 10 5 9) ∧
    decodeWord 0xC0010A69#32 0#32 = .ok (.qfree 16 5 9) := by decide

/-- Words of major 0x31 by the fields of R369, R427. -/
theorem test_decode_31 :
    decodeWord 0xC480000C#32 0#32 = .ok (.gets 16 12) ∧
    decodeWord 0xC401010C#32 0#32 = .ok (.sets 16 12) := by decide

/-- Words of major 0x32 by the fields of R442, R438, R238, R376. -/
theorem test_decode_32 :
    decodeWord 0xC8000021#32 0#32 = .ok (.trap 33) ∧
    decodeWord 0xC8000121#32 0#32 = .ok (.syscall 33) ∧
    decodeWord 0xC8000200#32 0#32 = .ok (.eret) ∧
    decodeWord 0xC8000300#32 0#32 = .ok (.halt) ∧
    decodeWord 0xC8000400#32 0#32 = .ok (.idle) := by decide

/-- Words of major 0x33 by the fields of R440, R346. -/
theorem test_decode_33 :
    decodeWord 0xCC800001#32 0#32 = .ok (.tlbinv 16 0 1) ∧
    decodeWord 0xCC80A103#32 0#32 = .ok (.ctxsv 16 10 3) ∧
    decodeWord 0xCC010203#32 0#32 = .ok (.ctxld 16 3) := by decide

/-- Words of major 0x34 by the fields of R252, R253, R248, R256. -/
theorem test_decode_34 :
    decodeWord 0xD000000B#32 0#32 = .ok (.migrate 1 3) ∧
    decodeWord 0xD0000100#32 0#32 = .ok (.unmig) ∧
    decodeWord 0xD0010200#32 0#32 = .ok (.wpset 16) ∧
    decodeWord 0xD0000301#32 0#32 = .ok (.trace 1) := by decide

/-- Words with an extension word: MOVI.X and the memory family (R352, R398, R341, R384, R402, R430, R343, R326, R418, R329). -/
theorem test_decode_extended_memory :
    decodeWord 0x20681000#32 0x00FF0000#32 = .ok (.moviX 13 0xFF0000) ∧
    decodeWord 0x6020A310#32 0x00000006#32 = .ok (.ldOffset 4 10 1 2 0 0 6) ∧
    decodeWord 0x6020A1B0#32 0xFFFFFFFF#32 = .ok (.ldOffset 4 10 0 3 1 0 0xFFFFFFFF) ∧
    decodeWord 0x6420A290#32 0x00000008#32 = .ok (.stOffset 4 10 1 1 0 0 8) ∧
    decodeWord 0x6420A190#32 0x00000003#32 = .ok (.stOffset 4 10 0 3 0 0 3) ∧
    decodeWord 0x6810C010#32 0x02000000#32 = .ok (.ldaScope 2 12 0 0 0 0 2) ∧
    decodeWord 0x6C20A090#32 0x07000000#32 = .ok (.stlScope 4 10 0 1 0 0 7) ∧
    decodeWord 0x6C08C010#32 0x02000000#32 = .ok (.stlScope 1 12 0 0 0 0 2) ∧
    decodeWord 0x70A0A610#32 0x0000803F#32 = .ok (.ldmc 20 10 3 0 0x100 63) ∧
    decodeWord 0x7400A030#32 0x00000100#32 = .ok (.prefOffset 10 0 0 1 0 0x100) ∧
    decodeWord 0x7830A210#32 0x02071900#32 = .ok (.atomExt 6 10 1 0 0 2 7 1 9 0) ∧
    decodeWord 0x7818C010#32 0x06002800#32 = .ok (.atomExt 3 12 0 0 0 6 0 2 8 0) ∧
    decodeWord 0x7C30C210#32 0x02002400#32 = .ok (.redExt 6 12 1 0 0 2 2 4 0) ∧
    decodeWord 0x8080A190#32 0x02001000#32 = .ok (.atomkExt 16 10 0 3 0 0 2 1) := by decide

/-- Words with an extension word: the matrix, copy and queue families (R354, R355, R371, R318, R319, R321, R334, R383). -/
theorem test_decode_extended_engines :
    decodeWord 0x9D023210#32 0x0F042040#32 = .ok (.mma 32 2 3 1 0 15 4 0 1 64) ∧
    decodeWord 0xA1023210#32 0x01040040#32 = .ok (.mmaq 32 2 3 1 0 1 4 0 0 64) ∧
    decodeWord 0xA8008250#32 0x01000000#32 = .ok (.obld 0 8 1 0 256 0) ∧
    decodeWord 0xAC000010#32 0x01000000#32 = .ok (.accz 0 0 256 0) ∧
    decodeWord 0xACE1F030#32 0x00402007#32 = .ok (.accld 28 31 0 0 64 1 7) ∧
    decodeWord 0xACE1F450#32 0x00402000#32 = .ok (.accst 28 31 2 0 64 1 0) ∧
    decodeWord 0xB543C410#32 0x00000001#32 = .ok (.copy 40 60 2 0 0 1) ∧
    decodeWord 0xB543C530#32 0x0000FFFF#32 = .ok (.copyg 40 60 2 1 0 0xFFFF) ∧
    decodeWord 0xC0A0C250#32 0x00000003#32 = .ok (.qpop 20 12 1 0 3) := by decide

/-- Words no instruction has: majors the map leaves unused, a reserved field in use, a function that is not listed, an odd pair. -/
theorem test_decode_refuses :
    decodeWord 0#32 0#32 = .error .major ∧ decodeWord 0xFFFFFFFF#32 0#32 = .error .major ∧ decodeWord 0x0480A08A#32 0#32 = .error .reserved ∧
    decodeWord 0x0480A093#32 0#32 = .error .function ∧ decodeWord 0x6020B310#32 6#32 = .error .operand := by decide

/-- The word of IADDI v1, v1, 5 (major 0x03 of R69), the first instruction after reset. -/
theorem test_first_step :
    (match step (State.reset.withFetchWord 32 0x0C081005) with
      | .next s => decide ((s.threads.headD (labThread 0 .nop [])).v[1].val = 5#32)
      | _ => false) = true := by decide



/-! ## Encoding and steps -/

theorem wit_DecodeOfEncode : ∃ i w ws, i.wf = true ∧ encode i = w :: ws :=
  ⟨.ldOffset 4#7 10#7 1#3 0#2 1#2 0#4 0xFFFFFFFC#32, _, _, by decide, rfl⟩
theorem wit_EncodeOfDecode : ∃ w x i, decodeWord w x = .ok i := ⟨0x5C000000#32, 0#32, .nop, by decide⟩

/-- A turn whose threads stand at a word of their clause. -/
def AtTurn (s s1 : State) (t : TId) (ts : List TId) (rest : List Turn) (c : Clause) (i : Instr) : Prop :=
  TurnOf s s1 (t :: ts) rest ∧ (s1.th t).clause = some c ∧ WordHolds (s1.th t) c i

/-- A thread stands at a REPEAT's target, and at a word that its false guard covers. -/
def inRepeat : State := with0 (lab (.iaddi 4#7 4#7 1#12) []) fun x => { x with rep := some ⟨1#3, 1, 2, 4⟩ }
def inVoid (i : Instr) : State := with0 (lab i []) fun x => { x with ifpN := 1, ifpG := false }
/-- Another group at the same word, its lanes beside those of the first. -/
def twoStands : State :=
  { lab (.iaddi 4#7 5#7 1#12) [] with
    threads := [labThread 0 (.iaddi 4#7 5#7 1#12) [], { labThread 0 (.iaddi 4#7 5#7 1#12) [] with id := ⟨8, 1, 0⟩ }]
    groups := [labGroup, { Group.fresh ⟨8, 1⟩ 16 16 64 0#64 0x2000#64 0 with active := true }] }

theorem wit_StepRunsDecoded :
    (∃ s s1 t ts rest c i, AtTurn s s1 t ts rest c i ∧ ts ≠ [] ∧ (∀ u ∈ ts, (s1.th t).sameStand (s1.th u) = true) ∧
      (∀ u ∈ t :: ts, (s1.th u).watch = none) ∧ (s1.th t).voided = false ∧
      ∃ s', exec i { s1 with cur := ⟨t.gid, t :: ts⟩ } = .next s' ∧ (s'.gr s'.cur.gid).hosted = none) ∧
    (∃ s s1 t rest c i, AtTurn s s1 t [] rest c i ∧ (s1.th t).watch = none ∧ (s1.th t).voided = false ∧ (s1.th t).rep.isSome = true) ∧
    (∃ s s1 t rest c i, AtTurn s s1 t [] rest c i ∧ (s1.th t).watch.isSome = true) ∧
    (∃ s s1 t rest c i, AtTurn s s1 t [] rest c i ∧ (s1.th t).watch = none ∧ (s1.th t).voided = true ∧ (s1.th t).rep = none ∧
      Unhosted s1 t ∧ i.crossLane = false) ∧
    (∃ s s1 t rest c i, AtTurn s s1 t [] rest c i ∧ (s1.th t).watch = none ∧ (s1.th t).voided = true ∧ (s1.th t).rep = none ∧
      Unhosted s1 t ∧ i.crossLane = true) ∧
    ∃ s s1 s' t u rest c d i j, AtTurn s s1 t [u] rest c i ∧ (s1.th t).sameStand (s1.th u) = false ∧ (s1.th t).watch = none ∧
      (s1.th t).voided = false ∧ exec i { s1 with cur := ⟨t.gid, [t]⟩ } = .next s' ∧ issuable s' [u] = true ∧ (s'.th u).clause = some d ∧
      (s'.th u).watch = none ∧ (s'.th u).voided = false ∧ WordHolds (s'.th u) d j :=
  ⟨⟨{ lab (.iaddi 4#7 5#7 1#12) [] with sched := [.issue [t0, ⟨8, 0, 1⟩]] }, _, t0, [⟨8, 0, 1⟩], [], _, .iaddi 4#7 5#7 1#12,
      ⟨⟨rfl, rfl, by decide⟩, rfl, .inl ⟨rfl, ok_of (by decide)⟩⟩, nofun, by decide, by decide, by decide, _, rfl, by decide⟩,
    ⟨{ inRepeat with sched := [.issue [t0]] }, _, t0, [], _, .iaddi 6#7 4#7 1#12,
      ⟨⟨rfl, rfl, by decide⟩, rfl, .inr ⟨_, rfl, ok_of (by decide)⟩⟩, rfl, by decide, rfl⟩,
    ⟨{ with0 (lab .nop []) fun x => { x with watch := some (0x3000#64, 0) } with sched := [.issue [t0]] }, _, t0, [], _, .nop,
      ⟨⟨rfl, rfl, by decide⟩, rfl, .inl ⟨rfl, ok_of (by decide)⟩⟩, by decide⟩,
    ⟨{ inVoid (.iadd 4#7 5#7 6#7) with sched := [.issue [t0]] }, _, t0, [], _, .iadd 4#7 5#7 6#7,
      ⟨⟨rfl, rfl, by decide⟩, rfl, .inl ⟨rfl, ok_of (by decide)⟩⟩, rfl, by decide, rfl, rfl, rfl⟩,
    ⟨{ inVoid (.elect 1#3 6#7) with sched := [.issue [t0]] }, _, t0, [], _, .elect 1#3 6#7,
      ⟨⟨rfl, rfl, by decide⟩, rfl, .inl ⟨rfl, ok_of (by decide)⟩⟩, rfl, by decide, rfl, rfl, rfl⟩,
    ⟨{ twoStands with sched := [.issue [t0, ⟨8, 1, 0⟩]] }, _, _, t0, ⟨8, 1, 0⟩, [], _, _, .iaddi 4#7 5#7 1#12, .iaddi 4#7 5#7 1#12,
      ⟨⟨rfl, rfl, by decide⟩, rfl, .inl ⟨rfl, ok_of (by decide)⟩⟩, by decide, rfl, by decide, rfl, by decide, rfl, rfl, by decide,
      .inl ⟨rfl, ok_of (by decide)⟩⟩⟩

/-- The thread stands at a clause in memory: its words, and where. -/
def atWords (pc : BitVec 64) (ws : List Word) : State :=
  let s := with0 (lab .nop []) fun x => { x with clause := none, pc := pc }
  { s with sched := [.issue [t0]], mem := Memory.setAll s.mem (cells 0x1000 (wordBytes ws)) }
def atClause : State := atWords 0x1000#64 [0xA7000801#32, 0x5C000000#32]

theorem header_of {s : State} (h : s.sched = [.issue [t0]]) (g : (let s1 := prepared.run { s with sched := [] }
    issuable s1 [t0] && (s1.th t0).watch.isNone && (s1.th t0).clause.isNone && decide ((s1.th t0).widx = 1) && (s1.th t0).resumeG.isNone &&
    decide ((s1.th t0).ifpN = 0) && (s1.th t0).ifpVoid.isNone && (s1.th t0).rep.isNone && decide ((s1.tm 8).gen ≠ 1)) = true) :
    AtHeader s (prepared.run { s with sched := [] }) t0 [] := by
  simp only [Bool.and_eq_true, Option.isNone_iff_eq_none, decide_eq_true_eq] at g
  obtain ⟨⟨⟨⟨⟨⟨⟨⟨a, b⟩, c⟩, d⟩, e⟩, f⟩, i⟩, j⟩, k⟩ := g
  exact ⟨⟨h, rfl, a⟩, b, c, d, ⟨e, f, i⟩, j, k⟩

theorem wit_StepEntersClause :
    (∃ (s s1 : State) (t : TId) (rest : List Turn) (h : Word) (ws : List Word) (us vs : List Upd) (i : Instr), AtHeader s s1 t rest ∧
      let s2 : State := { s1 with cur := ⟨t.gid, [t]⟩ }
      let c : Clause := ⟨h, mapWords (s1.tm t.team).gen false ws, false⟩
      (s1.th t).pc.toNat % 4 = 0 ∧ fetchWord s2 (agentOf s2 t) (s1.th t).pc = (.ok h, us) ∧ headerBad h = false ∧
      fetchWords s2 (agentOf s2 t) ((s1.th t).pc + 4#64) (field h 0 4).toNat = (.ok ws, vs) ∧
      checkItems (agentOf s2 t).user false (field h 8 3).toNat 0 (itemsOf (s1.tm t.team).gen false 1 ws) = none ∧
      decodeWord (c.word 1) (c.word 2) = .ok i) ∧
    (∃ (s s1 : State) (t : TId) (rest : List Turn) (h : Word) (us : List Upd) (vec : BitVec 64), AtHeader s s1 t rest ∧ Unhosted s1 t ∧
      (s1.th t).pc.toNat % 4 = 0 ∧ fetchWord { s1 with cur := ⟨t.gid, [t]⟩ } (agentOf { s1 with cur := ⟨t.gid, [t]⟩ } t) (s1.th t).pc = (.ok h, us) ∧
      headerBad h = true ∧ Vectored s1 t vec) ∧
    (∀ cause : Nat, (cause = 1 ∨ cause = 2 ∨ cause = 3) → ∃ (s s1 : State) (t : TId) (rest : List Turn) (h : Word) (ws : List Word)
      (us vs : List Upd) (w : Nat) (vec : BitVec 64), AtHeader s s1 t rest ∧ Unhosted s1 t ∧
      let s2 : State := { s1 with cur := ⟨t.gid, [t]⟩ }
      (s1.th t).pc.toNat % 4 = 0 ∧ fetchWord s2 (agentOf s2 t) (s1.th t).pc = (.ok h, us) ∧ headerBad h = false ∧
      fetchWords s2 (agentOf s2 t) ((s1.th t).pc + 4#64) (field h 0 4).toNat = (.ok ws, vs) ∧
      checkItems (agentOf s2 t).user false (field h 8 3).toNat 0 (itemsOf (s1.tm t.team).gen false 1 ws) = some (cause, w) ∧
      VectoredFor s1 t cause vec) ∧
    (∃ (s s1 : State) (t : TId) (rest : List Turn) (r : Nat) (vec : BitVec 64), AtHeader s s1 t rest ∧ Unhosted s1 t ∧
      (s1.th t).pc.toNat % 4 = 0 ∧ (fetchWord { s1 with cur := ⟨t.gid, [t]⟩ } (agentOf { s1 with cur := ⟨t.gid, [t]⟩ } t) (s1.th t).pc).1 = .error r ∧
      r = 4 ∧ (s1.th t).denied = false ∧ Vectored s1 t vec) ∧
    (∃ (s s1 : State) (t : TId) (rest : List Turn) (r : Nat) (vec : BitVec 64), AtHeader s s1 t rest ∧ Unhosted s1 t ∧
      (s1.th t).pc.toNat % 4 = 0 ∧ (fetchWord { s1 with cur := ⟨t.gid, [t]⟩ } (agentOf { s1 with cur := ⟨t.gid, [t]⟩ } t) (s1.th t).pc).1 = .error r ∧
      r ≠ 4 ∧ r ≠ 5 ∧ Vectored s1 t vec) ∧
    ∃ (s s1 : State) (t : TId) (rest : List Turn) (vec : BitVec 64), AtHeader s s1 t rest ∧ Unhosted s1 t ∧
      (s1.th t).pc.toNat % 4 ≠ 0 ∧ Vectored s1 t vec := by
  have v : ∀ s : State, vectorB s = true → Vectored (prepared.run { s with sched := [] }) t0 0x1000#64 := fun s h => vectored_of h
  refine ⟨⟨atClause, _, t0, [], 0xA7000801#32, [0x5C000000#32], _, _, .nop, header_of rfl (by decide),
      by decide, okp_of (by decide), by decide, okp_of (by decide), by decide, ok_of (by decide)⟩,
    ⟨atWords 0x1000#64 [0x5C000000#32], _, t0, [], 0x5C000000#32, _, _, header_of rfl (by decide), rfl, by decide, okp_of (by decide),
      by decide, v _ (by decide)⟩, ?_,
    ⟨atWords 0x8000000000#64 [], _, t0, [], _, _, header_of rfl (by decide), rfl, by decide, err_of (by decide), rfl, by decide,
      v _ (by decide)⟩,
    ⟨atWords 0x0100000000000000#64 [], _, t0, [], 1, _, header_of rfl (by decide), rfl, by decide, err_of (by decide), by decide, by decide,
      v _ (by decide)⟩,
    ⟨atWords 0x1002#64 [], _, t0, [], _, header_of rfl (by decide), rfl, by decide, v _ (by decide)⟩⟩
  rintro cause (rfl | rfl | rfl)
  · exact ⟨atWords 0x1000#64 [0xA7000801#32, 0x5C000001#32], _, t0, [], 0xA7000801#32, [0x5C000001#32], _, _, 1, 0x2000#64,
      header_of rfl (by decide), rfl, by decide, okp_of (by decide), by decide, okp_of (by decide), by decide, by decide, by decide, by decide,
      nofun⟩
  · exact ⟨atWords 0x1000#64 [0xA7000801#32, 0x5C000100#32], _, t0, [], 0xA7000801#32, [0x5C000100#32], _, _, 1, 0x1000#64,
      header_of rfl (by decide), rfl, by decide, okp_of (by decide), by decide, okp_of (by decide), by decide, v _ (by decide)⟩
  · exact ⟨atWords 0x1000#64 [0xA7000D01#32, 0xCC000000#32], _, t0, [], 0xA7000D01#32, [0xCC000000#32], _, _, 1, 0x1000#64,
      header_of rfl (by decide), rfl, by decide, okp_of (by decide), by decide, okp_of (by decide), by decide, v _ (by decide)⟩

theorem wit_StepTakesTurns : (∃ (s : State) (i : Instr) (rest : List Turn), s.sched = .event i :: rest) ∧
    ∃ (s : State) (rest : List Turn), s.sched = .tick :: rest :=
  ⟨⟨{ lab .nop [] with sched := [.event (.mshrGrant 0)] }, _, _, rfl⟩, ⟨{ lab .nop [] with sched := [.tick] }, _, rfl⟩⟩

theorem wit_StepKeepsSafe : ∃ s s', Safe s ∧ step s = .next s' ∧ (nextTurn s).1 ≠ .event .powerLoss :=
  ⟨{ lab .nop [] with sched := [.tick] }, _, safe_of (by decide), rfl, nofun⟩

/-! ## Register-only instructions and control -/

theorem wit_ResetSafe : ∃ s s', Safe s ∧ exec .powerLoss s = .next s' := ⟨State.reset, _, safe_of (by decide), rfl⟩

theorem wit_StepIsMonotone : ∃ s s', step s = .next s' ∧ (nextTurn s).1 ≠ .event .powerLoss :=
  let ⟨s, s', _, h, k⟩ := wit_StepKeepsSafe
  ⟨s, s', h, k⟩

theorem wit_IntegerResults : ∃ i e s t, intEffect i = some e ∧ Solo s t ∧ Clear s t i [] [] :=
  ⟨.iadd 4#7 5#7 63#7, _, lab (.iadd 4#7 5#7 63#7) [], t0, rfl, solo_lab _ _, clear_of (by decide)⟩
theorem wit_FormatResults : ∃ i e s t, fmtEffect i = some e ∧ Solo s t ∧ Clear s t i [] [] :=
  ⟨.fadd 4#7 5#7 63#7, _, lab (.fadd 4#7 5#7 63#7) [], t0, rfl, solo_lab _ _, clear_of (by decide)⟩
theorem wit_FormatOperands :
    (∃ x y : FVal, x.isNan = false ∧ y.isNan = false ∧ lessVal x y) ∧ (∃ a : Word, (unpack32 a).isNan = true) ∧
    (∃ a : Word, (unpack32 a).isNan = false ∧ lessVal (unpack32 a) (.fin false 0 0)) ∧
    (∃ a b : Nat, (fp16.unpack a).isNan = true ∧ (fp16.unpack b).isNan = false) ∧
    ∃ a b : Nat, belowVal (bf16.unpack a) (bf16.unpack b) :=
  ⟨⟨.inf true, .inf false, rfl, rfl, rfl, rfl⟩, ⟨0x7F800001#32, by decide⟩,
    ⟨0xFF800000#32, by decide, (show lessVal (.inf true) (.fin false 0 0) from rfl)⟩, ⟨0x7C01, 0x7C00, by decide, by decide⟩,
    ⟨0x8000, 0, .inr (by decide)⟩⟩
theorem wit_PredicateResults : ∃ i p f s t, compares i = some (p, f) ∧ Solo s t ∧ Clear s t i [] [] :=
  ⟨.cmpf 7#3 5#7 6#7 13#5, _, _, lab (.cmpf 7#3 5#7 6#7 13#5) [], t0, rfl, solo_lab _ _, clear_of (by decide)⟩
theorem wit_PredicatesComplete : ∃ i p f s t, predEffect i = some (p, f) ∧ Solo s t ∧ Clear s t i [] [] :=
  ⟨.cmpi 0#3 5#7 6#7 9#5, _, _, lab (.cmpi 0#3 5#7 6#7 9#5) [], t0, rfl, solo_lab _ _, clear_of (by decide)⟩
theorem wit_PredicateWords : (∃ w : Word, field w 26 6 = 0x07#6 ∧ field w 22 4 ≠ 0#4) ∧
    (∃ w : Word, field w 26 6 = 0x07#6 ∧ 10 ≤ (field w 0 5).toNat) ∧ (∃ w : Word, field w 26 6 = 0x0D#6 ∧ field w 22 4 ≠ 0#4) ∧
    ∃ w : Word, field w 26 6 = 0x0D#6 ∧ 14 ≤ (field w 0 5).toNat :=
  ⟨⟨0x1C400000#32, by decide⟩, ⟨0x1C00000A#32, by decide⟩, ⟨0x34400000#32, by decide⟩, ⟨0x3400000E#32, by decide⟩⟩
theorem wit_PairAndGroupMoves :
    (∃ d a imm s t, Solo s t ∧ Clear s t (.lea d a imm) [] []) ∧ (∃ g a s t, Solo s t ∧ Clear s t (.movgToG g a) [] []) ∧
      ∃ d g s t, Solo s t ∧ Clear s t (.movgFromG d g) [] [] :=
  ⟨⟨4#7, 62#7, 0x800#12, lab .nop [], t0, solo_lab _ _, clear_of (by decide)⟩,
    ⟨31#5, 63#7, lab .nop [], t0, solo_lab _ _, clear_of (by decide)⟩, ⟨63#7, 0#5, lab .nop [], t0, solo_lab _ _, clear_of (by decide)⟩⟩
theorem wit_RegisterOnlyFrame : ∃ i rs ps gs s t, registerWrites i = some (rs, ps, gs) ∧ Solo s t ∧ Clear s t i [] (predsEaten i) :=
  ⟨.call 1#3 0#1 5#22, _, _, _, lab .nop [], t0, rfl, solo_lab _ _, clear_of (by decide)⟩

theorem wit_BranchResults :
    (∃ p neg off s t, Solo s t ∧ Clear s t (.bra p neg off) [] [p] ∧ taken (s.th t) p neg) ∧
    (∃ p neg off s t, Solo s t ∧ Clear s t (.bra p neg off) [] [p] ∧ ¬ taken (s.th t) p neg) ∧
    (∃ p neg off c s t, Solo s t ∧ Clear s t (.call p neg off) [] [p] ∧ (s.th t).clause = some c ∧ c.implicit = false ∧ taken (s.th t) p neg) ∧
    (∃ p neg a s t, Solo s t ∧ Clear s t (.brx neg p a) [] [p] ∧ taken (s.th t) p neg ∧ (s.th t).poisoned [a, a + 1#7] = none ∧
      ((s.th t).val64 a).toNat < 2 ^ 56 ∧ ((s.th t).val64 a).toNat % 4 = 0) ∧
    (∃ a s t, Solo s t ∧ Clear s t (.ret a) [] [] ∧ (s.th t).poisoned [a, a + 1#7] = none ∧
      ((s.th t).val64 a).toNat < 2 ^ 56 ∧ ((s.th t).val64 a).toNat % 4 = 0) :=
  ⟨⟨0#3, 0#1, 0x3FFFFF#22, lab .nop [], t0, solo_lab _ _, clear_of (by decide), by unfold taken; decide⟩,
    ⟨0#3, 1#1, 0x3FFFFF#22, lab .nop [], t0, solo_lab _ _, clear_of (by decide), by unfold taken; decide⟩,
    ⟨1#3, 1#1, 1#22, _, lab .nop [], t0, solo_lab _ _, clear_of (by decide), rfl, rfl, by unfold taken; decide⟩,
    ⟨0#3, 0#1, 4#7, lab .nop [(4#7, 0xFFFFFFFC#32), (5#7, 0x00FFFFFF#32)], t0, solo_lab _ _, clear_of (by decide), by unfold taken; decide,
      by decide, by decide, by decide⟩,
    ⟨4#7, lab .nop [(4#7, 0x1000#32)], t0, solo_lab _ _, clear_of (by decide), by decide, by decide, by decide⟩⟩

/-- The thread stands at a REPEAT of an IADDI. -/
def atRepeat : State := with0 (lab .nop []) fun x =>
  { x with clause := some ⟨0xA7000802#32, encode (.repeatN 1#3 0#2 15#4) ++ encode (.iaddi 4#7 4#7 1#12), false⟩ }

theorem wit_GuardAndRepeat :
    (∃ f p c s t, Solo s t ∧ Clear s t (.ifp f p c) [] [p]) ∧
    (∃ sm sc c cl s t, Solo s t ∧ Clear s t (.repeatN sm sc c) [] [] ∧
    (s.th t).clause = some cl ∧ repeatBeyond s t sm (2 ^ sc.toNat) (c.toNat + 1) = none ∧
    matchHere s t (wordAddr (s.th t).pc cl.implicit ((s.th t).widx + 1)).toNat (cl.word ((s.th t).widx + 1)) = none) :=
  ⟨⟨1#1, 1#3, 1#4, lab .nop [], t0, solo_lab _ _, clear_of (by decide)⟩,
    ⟨1#3, 0#2, 15#4, _, atRepeat, t0, ⟨rfl, rfl, rfl⟩, clear_of (by decide), rfl, by decide, by decide⟩⟩

/-- A second group, pending and ready. -/
def twoGroups : State := { lab .yield [] with groups := [labGroup, { Group.fresh ⟨8, 1⟩ 16 16 64 0#64 0#64 0 with readyAt := some 0 }] }

theorem wit_PlainCompletions :
    (∃ s t, Solo s t ∧ Clear s t .nop [] []) ∧
    (∃ s t, Safe s ∧ Solo s t ∧ Clear s t .yield [] [] ∧ Unhosted s t ∧ s.isSup t.team = false ∧ (s.gr t.gid).active = true ∧
      ∃ g ∈ s.groups, PendingReady s t g) ∧
    (∃ kind scope s t, Solo s t ∧ Clear s t (.fence kind scope) [] []) ∧
    (∃ (mask : BitVec 8) (s : State) (t : TId), Solo s t ∧ Clear s t (.waitw mask) [] [] ∧
      ∀ n : Fin 8, mask.getLsbD n = true → (s.gr t.gid).wc[n] = 0#6) ∧
    (∃ (mask : BitVec 8) (s : State) (t : TId), Solo s t ∧ Clear s t (.waitw mask) [] [] ∧
      ∃ n : Fin 8, mask.getLsbD n = true ∧ (s.gr t.gid).wc[n] ≠ 0#6) :=
  ⟨⟨lab .nop [], t0, solo_lab _ _, clear_of (by decide)⟩,
    ⟨twoGroups, t0, safe_of (by decide), ⟨rfl, rfl, rfl⟩, clear_of (by decide), rfl, by decide, rfl, _, List.mem_cons_of_mem _ (.head _),
      rfl, rfl, rfl, rfl, by decide⟩,
    ⟨3#2, 6#3, lab .nop [], t0, solo_lab _ _, clear_of (by decide)⟩,
    ⟨0xFF#8, lab .nop [], t0, solo_lab _ _, clear_of (by decide), by decide⟩,
    ⟨0x80#8, withG (lab .nop []) fun g => { g with wc := g.wc.set 7 1#6 }, t0, ⟨rfl, rfl, rfl⟩, clear_of (by decide), ⟨7, by decide⟩⟩⟩

theorem vectored_lab (i : Instr) (rs : List (VReg × Word))
    (h : 1 ≤ (⟨BitVec.ofNat 32 (0xA707F800 + 0x100 * classOf i.major + i.len), encode i, false⟩ : Clause).count) :
    Vectored (lab i rs) t0 0x1000#64 :=
  ⟨⟨labCtx, rfl, rfl⟩, by decide, (show (0#32).getLsbD 31 = false by decide), fun c e => by cases e; exact h⟩

/-! ## Threads together -/

/-- The other thread waits at the same cross-lane instruction. -/
def metLab (i : Instr) (rs : List (VReg × Word)) : State :=
  { lab i rs with threads := [labThread 0 i rs, { labThread 1 i rs with run := .waiting .rendezvous }] }

theorem wit_CrossLane_outside : ∃ i s t, AtLanes s t i ∧ selected (s.gr t.gid) ((s.th t).val (laneSel i)) t.idx = false :=
  ⟨.redgAdd 4#7 5#7 6#7, lab (.redgAdd 4#7 5#7 6#7) [(6#7, 0x4200#32)], t0,
    ⟨.inl ⟨4#7, 5#7, 6#7, by simp⟩, safe_lab _ _, solo_lab _ _, clear_of (by decide), by decide, by decide, by decide, by decide, nofun⟩,
    by decide⟩
theorem wit_CrossLane_met : ∃ i s t, AtLanes s t i ∧ selected (s.gr t.gid) ((s.th t).val (laneSel i)) t.idx = true ∧
    ∀ u ∈ s.threads, u.id.gid = t.gid → u.id ≠ t → u.live = true → selected (s.gr t.gid) ((s.th t).val (laneSel i)) u.id.idx = true →
      metAt s (s.gr t.gid) (s.th t).wordAt u = true :=
  ⟨.shflu 4#7 5#7 6#7, metLab (.shflu 4#7 5#7 6#7) [(6#7, 0x1FF#32)], t0,
    ⟨.inl ⟨4#7, 5#7, 6#7, by simp⟩, safe_of (by decide), ⟨rfl, rfl, rfl⟩, clear_of (by decide), by decide, by decide, by decide, by decide,
      nofun⟩, by decide, by decide⟩
theorem wit_CrossLane_waits : ∃ i s t, AtLanes s t i ∧ selected (s.gr t.gid) ((s.th t).val (laneSel i)) t.idx = true ∧
    ∃ u ∈ s.threads, u.id.gid = t.gid ∧ u.id ≠ t ∧ u.live = true ∧ selected (s.gr t.gid) ((s.th t).val (laneSel i)) u.id.idx = true ∧
      metAt s (s.gr t.gid) (s.th t).wordAt u = false :=
  ⟨.elect 1#3 6#7, lab (.elect 1#3 6#7) [], t0,
    ⟨.inr (.inr ⟨1#3, 6#7, rfl⟩), safe_lab _ _, solo_lab _ _, clear_of (by decide), by decide, by decide, by decide, by decide, nofun⟩,
    by decide, _, List.mem_cons_of_mem _ (.head _), by decide⟩

/-- The lab with a rejoin mask 7 of enrolled and arrived threads. -/
def maskLab (e a : BitVec 64) (r : Run) : State :=
  let s := withG (lab .nop []) fun g => { g with jE := g.jE.set 7 e, jA := g.jA.set 7 a }
  { s with threads := [labThread 0 .nop [], { labThread 1 .nop [] with run := r }] }

/-- A thread runs at an instruction. -/
def Runs (i : Instr) (s : State) (t : TId) : Prop :=
  Safe s ∧ Solo s t ∧ Clear s t i [] [] ∧ t.idx < 64 ∧ (s.th t).run = .running

theorem wit_RejoinMasks :
    (∃ j s t, Runs (.enrol j) s t ∧ arrivedAt (s.gr t.gid) j t.idx = false) ∧
    (∃ j s t, Runs (.strike j) s t ∧ (∃ i < 64, i ≠ t.idx ∧ enrolled (s.gr t.gid) j i = true) ∧
      ∀ i < 64, i ≠ t.idx → enrolled (s.gr t.gid) j i = arrivedAt (s.gr t.gid) j i) ∧
    (∃ j s t, Runs (.strike j) s t ∧ ∃ i < 64, i ≠ t.idx ∧ enrolled (s.gr t.gid) j i ≠ arrivedAt (s.gr t.gid) j i) ∧
    (∃ j s t, Runs (.join j) s t ∧ enrolled (s.gr t.gid) j t.idx = false) ∧
    (∃ j s t, Runs (.join j) s t ∧ enrolled (s.gr t.gid) j t.idx = true ∧
      ∀ i < 64, enrolled (s.gr t.gid) j i = (arrivedAt (s.gr t.gid) j i || decide (i = t.idx))) ∧
    (∃ j s t, Runs (.join j) s t ∧ enrolled (s.gr t.gid) j t.idx = true ∧
      ∃ i < 64, enrolled (s.gr t.gid) j i ≠ (arrivedAt (s.gr t.gid) j i || decide (i = t.idx))) ∧
    (∃ (g : GId) (j : BitVec 3) (s : State), Safe s ∧ (s.group? g).isSome = true ∧
      (∃ x ∈ s.threads, x.id.gid = g ∧ ∃ n, x.run = .joined j n ∧ n + 1024 ≤ s.time) ∧ teamHere s g.team = true) ∧
    (∃ (g : GId) (j : BitVec 3) (s : State), Safe s ∧ (s.group? g).isSome = true ∧
      (∃ x ∈ s.threads, x.id.gid = g ∧ ∃ n, x.run = .joined j n ∧ n + 1024 ≤ s.time) ∧ teamHere s g.team = false) :=
  ⟨⟨7#3, maskLab 0#64 0#64 .running, t0, ⟨safe_of (by decide), ⟨rfl, rfl, rfl⟩, clear_of (by decide), by decide, rfl⟩, by decide⟩,
    ⟨7#3, maskLab 3#64 2#64 (.joined 7#3 4990), t0, ⟨safe_of (by decide), ⟨rfl, rfl, rfl⟩, clear_of (by decide), by decide, rfl⟩,
      ⟨1, by decide⟩, by decide⟩,
    ⟨7#3, maskLab 3#64 0#64 .running, t0, ⟨safe_of (by decide), ⟨rfl, rfl, rfl⟩, clear_of (by decide), by decide, rfl⟩, ⟨1, by decide⟩⟩,
    ⟨7#3, maskLab 2#64 0#64 .running, t0, ⟨safe_of (by decide), ⟨rfl, rfl, rfl⟩, clear_of (by decide), by decide, rfl⟩, by decide⟩,
    ⟨7#3, maskLab 3#64 2#64 (.joined 7#3 4990), t0, ⟨safe_of (by decide), ⟨rfl, rfl, rfl⟩, clear_of (by decide), by decide, rfl⟩,
      by decide, by decide⟩,
    ⟨7#3, maskLab 3#64 0#64 .running, t0, ⟨safe_of (by decide), ⟨rfl, rfl, rfl⟩, clear_of (by decide), by decide, rfl⟩, by decide,
      1, by decide⟩,
    ⟨⟨8, 0⟩, 7#3, maskLab 2#64 2#64 (.joined 7#3 3976), safe_of (by decide), rfl,
      ⟨_, List.mem_cons_of_mem _ (.head _), rfl, 3976, rfl, by decide⟩, by decide⟩,
    ⟨⟨8, 0⟩, 7#3, withT (maskLab 2#64 2#64 (.joined 7#3 3976)) fun x => { x with res := .saved }, safe_of (by decide), rfl,
      ⟨_, List.mem_cons_of_mem _ (.head _), rfl, 3976, rfl, by decide⟩, by decide⟩⟩

/-- A team of one thread alive, at EXIT, with barriers 3 and 4 of count 2. -/
def exitLab (b c : Barrier) (r : Run) : State :=
  withP (withT (maskLab 0#64 0#64 r) fun x => { x with bars := (x.bars.set 3 b).set 4 c }) fun p =>
    { p with clusters := p.clusters.set 0 { Cluster.reset with slope := 0#16 } }

theorem wit_ExitEnds :
    (∃ s t, Safe s ∧ Solo s t ∧ Clear s t .exit [] [] ∧ ∀ u ∈ s.threads, u.id.team = t.team → u.id ≠ t → u.live = false) ∧
    (∃ (s : State) (t : TId) (n m : BitVec 4), Safe s ∧ Solo s t ∧ Clear s t .exit [] [] ∧ (s.team? t.team).isSome = true ∧ Grouped s t.team ∧
      (let b := (s.tm t.team).bar n
       t ∈ b.memb ∧ t ∉ b.pend ∧ b.arr + b.dep + 1 < b.cnt) ∧
      let c := (s.tm t.team).bar m
      t ∈ c.memb ∧ t ∉ c.pend ∧ c.cnt ≠ 0 ∧ c.cnt ≤ c.arr + c.dep + 1 ∧
        ∃ x ∈ s.threads, x.id.team = t.team ∧ x.run = .barrier m ∧ WaveOpen s (clusterOf (s.gr x.id.gid).core)) ∧
    (∃ (s : State) (t : TId) (n : BitVec 4), Safe s ∧ Solo s t ∧ Clear s t .exit [] [] ∧ (s.team? t.team).isSome = true ∧ Grouped s t.team ∧
      t ∉ ((s.tm t.team).bar n).memb) ∧
    ∃ s t, Safe s ∧ Solo s t ∧ Clear s t .exit [] [] ∧ (∀ v ∈ s.threads, v.id.gid = t.gid → ∀ j n, v.run ≠ .joined j n) ∧
      ∃ u ∈ s.threads, u.id.gid = t.gid ∧ u.id ≠ t ∧ u.run = .waiting .rendezvous ∧
        selected (s.gr t.gid) (u.val (laneSel u.instr)) t.idx = true ∧
        ∀ v ∈ s.threads, v.id.gid = t.gid → v.id ≠ t → v.live = true →
          selected (s.gr t.gid) (u.val (laneSel u.instr)) v.id.idx = true → metAt s (s.gr t.gid) u.wordAt v = true :=
  ⟨⟨maskLab 0#64 0#64 .exited, t0, safe_of (by decide), ⟨rfl, rfl, rfl⟩, clear_of (by decide), by decide⟩,
    ⟨exitLab ⟨4, 1, 1, [], [t0]⟩ ⟨2, 1, 0, [⟨8, 0, 1⟩], [⟨8, 0, 1⟩, t0]⟩ (.barrier 4#4), t0, 3#4, 4#4, safe_of (by decide), ⟨rfl, rfl, rfl⟩,
      clear_of (by decide), rfl, ⟨by decide, by decide⟩, by decide, by decide, by decide, by decide, by decide, _,
      List.mem_cons_of_mem _ (.head _), rfl, rfl, by unfold WaveOpen; decide⟩,
    ⟨exitLab ⟨1, 1, 0, [], []⟩ Barrier.zero .exited, t0, 3#4, safe_of (by decide), ⟨rfl, rfl, rfl⟩, clear_of (by decide), rfl,
      ⟨by decide, by decide⟩, by decide⟩,
    ⟨metLab (.redgAdd 4#7 5#7 6#7) [(6#7, 0x1FF#32)], t0, safe_of (by decide), ⟨rfl, rfl, rfl⟩, clear_of (by decide), by
        intro v h _ j n; simp only [metLab, lab, List.mem_cons, List.not_mem_nil, or_false] at h; rcases h with rfl | rfl <;> nofun,
      _, List.mem_cons_of_mem _ (.head _), rfl, by decide, rfl, by decide, by decide⟩⟩

theorem wit_TimedWaits :
    (∃ a s t, Solo s t ∧ Clear s t (.sleep a) [] [] ∧ (s.th t).val a ≠ 0#32) ∧
    (∃ v s t, Solo s t ∧ Clear s t (.sleepu v) [] [] ∧ (s.th t).instr = .sleepu v ∧ ((s.th t).val64 v).toNat ≤ s.cycleOf t) ∧
    (∃ v s t, Solo s t ∧ Clear s t (.sleepu v) [] [] ∧ (s.th t).instr = .sleepu v ∧ s.cycleOf t < ((s.th t).val64 v).toNat) ∧
    (∃ v c pl us s t, Solo s t ∧ Clear s t (.sleepuCounter v c) (pairOf c) [] ∧ ((s.th t).val64 c).toNat % 8 = 0 ∧
      translate s (agentOf s t) .load ((s.th t).val64 c) 8 = (.ok pl, us) ∧ orderBars s (agentOf s t) pl = false ∧
      s.cycleOf t < ((s.th t).val64 v).toNat) ∧
    (∃ v c pl pm us vs s t, Solo s t ∧ Clear s t (.sleepuCounter v c) (pairOf c) [] ∧ (s.th t).instr = .sleepuCounter v c ∧
      ((s.th t).val64 c).toNat % 8 = 0 ∧ ((s.th t).val64 v).toNat ≤ s.cycleOf t ∧
      translate s (agentOf s t) .load ((s.th t).val64 c) 8 = (.ok pl, us) ∧
      translate (s.applyAll us) (agentOf s t) .load ((s.th t).val64 c) 8 = (.ok pm, vs) ∧
      orderBars s (agentOf s t) pl = false ∧ orderBars s (agentOf s t) pm = false ∧ (s.th t).wcBuf = none ∧
      ((s.th t).val64 (v + 2#7)).toNat ≤ leNat (readPlace ((s.applyAll us).applyAll vs) (agentOf s t) pm 8 1).1) ∧
    (∃ (d : Nat) (s : State) (t : TId), (s.thread? t).isSome = true ∧ (s.th t).run = .waiting (.sleep d) ∧ d ≤ s.time) ∧
    (∃ (d : Nat) (s : State) (t : TId), (s.thread? t).isSome = true ∧ (s.th t).run = .waiting (.sleepu d) ∧ d ≤ s.cycleOf t ∧
      ∃ v c pl us, (s.th t).instr = .sleepuCounter v c ∧ translate s (agentOf s t) .load ((s.th t).val64 c) 8 = (.ok pl, us) ∧
      teamHere s t.team = true ∧ orderBars s (agentOf s t) pl = false ∧ (s.th t).wcBuf = none ∧
      ((s.th t).val64 (v + 2#7)).toNat ≤ leNat (readPlace (s.applyAll us) (agentOf s t) pl 8 1).1) ∧
    (∃ v c pl pm us vs vec s t, Solo s t ∧ Clear s t (.sleepuCounter v c) (pairOf c) [] ∧ (s.th t).instr = .sleepuCounter v c ∧
      ((s.th t).val64 c).toNat % 8 = 0 ∧ ((s.th t).val64 v).toNat ≤ s.cycleOf t ∧
      translate s (agentOf s t) .load ((s.th t).val64 c) 8 = (.ok pl, us) ∧
      translate (s.applyAll us) (agentOf s t) .load ((s.th t).val64 c) 8 = (.ok pm, vs) ∧
      orderBars s (agentOf s t) pl = false ∧ orderBars s (agentOf s t) pm = false ∧ (s.th t).wcBuf = none ∧
      leNat (readPlace ((s.applyAll us).applyAll vs) (agentOf s t) pm 8 1).1 < ((s.th t).val64 (v + 2#7)).toNat ∧ Vectored s t vec) ∧
    (∃ (d : Nat) (s : State) (t : TId), (s.thread? t).isSome = true ∧ (s.th t).run = .waiting (.sleepu d) ∧ d ≤ s.cycleOf t ∧
      ∃ v c pl us vec, (s.th t).instr = .sleepuCounter v c ∧ translate s (agentOf s t) .load ((s.th t).val64 c) 8 = (.ok pl, us) ∧
      teamHere s t.team = true ∧ orderBars s (agentOf s t) pl = false ∧ (s.th t).wcBuf = none ∧
      leNat (readPlace (s.applyAll us) (agentOf s t) pl 8 1).1 < ((s.th t).val64 (v + 2#7)).toNat ∧ Vectored s t vec) ∧
    (∃ (d : Nat) (s : State) (t : TId), (s.thread? t).isSome = true ∧ (s.th t).run = .waiting (.sleepu d) ∧ teamHere s t.team = true ∧
      d ≤ s.cycleOf t ∧ ∀ v c, (s.th t).instr ≠ .sleepuCounter v c) ∧
    (∃ (d : Nat) (s : State) (t : TId), (s.thread? t).isSome = true ∧ (s.th t).run = .waiting (.sleepu d) ∧ teamHere s t.team = true ∧
      s.cycleOf t < d) :=
  ⟨⟨4#7, lab (.sleep 4#7) [(4#7, 1#32)], t0, solo_lab _ _, clear_of (by decide), by decide⟩,
    ⟨4#7, lab (.sleepu 4#7) [], t0, solo_lab _ _, clear_of (by decide), by decide, by decide⟩,
    ⟨4#7, lab (.sleepu 4#7) [(4#7, 1#32)], t0, solo_lab _ _, clear_of (by decide), by decide, by decide⟩,
    ⟨4#7, 10#7, _, _, lab (.sleepuCounter 4#7 10#7) [(4#7, 1#32), (10#7, 0x3000#32)], t0, solo_lab _ _, clear_of (by decide), by decide,
      okp_got (.tib 0) (by decide), by decide, by decide⟩,
    ⟨4#7, 10#7, _, _, _, _, lab (.sleepuCounter 4#7 10#7) [(10#7, 0x3000#32)], t0, solo_lab _ _, clear_of (by decide), by decide, by decide,
      by decide, okp_got (.tib 0) (by decide), okp_got (.tib 0) (by decide), by decide, by decide, rfl, by decide⟩,
    ⟨5000, with0 (lab .nop []) fun x => { x with run := .waiting (.sleep 5000) }, t0, rfl, rfl, by decide⟩,
    ⟨0, with0 (lab (.sleepuCounter 4#7 10#7) [(10#7, 0x3000#32)]) fun x => { x with run := .waiting (.sleepu 0) }, t0, rfl, rfl, by decide,
      4#7, 10#7, _, _, by decide, okp_got (.tib 0) (by decide), rfl, by decide, rfl, by decide⟩,
    ⟨4#7, 10#7, _, _, _, _, _, lab (.sleepuCounter 4#7 10#7) [(6#7, 1#32), (10#7, 0x3000#32)], t0, solo_lab _ _, clear_of (by decide), by decide,
      by decide, by decide, okp_got (.tib 0) (by decide), okp_got (.tib 0) (by decide), by decide, by decide, rfl, by decide,
      vectored_lab _ _ (by decide)⟩,
    ⟨0, with0 (lab (.sleepuCounter 4#7 10#7) [(6#7, 1#32), (10#7, 0x3000#32)]) fun x => { x with run := .waiting (.sleepu 0) }, t0, rfl, rfl,
      by decide, 4#7, 10#7, _, _, _, by decide, okp_got (.tib 0) (by decide), rfl, by decide, rfl, by decide,
      ⟨⟨labCtx, rfl, rfl⟩, by decide, by decide, fun c e => by cases e; decide⟩⟩,
    ⟨0, with0 (lab (.sleepu 4#7) []) fun x => { x with run := .waiting (.sleepu 0) }, t0, rfl, rfl, rfl, by decide, fun v c h => by
      have e : ((with0 (lab (.sleepu 4#7) []) fun x => { x with run := .waiting (.sleepu 0) }).th t0).instr = .sleepu 4#7 := by decide
      rw [e] at h; cases h⟩,
    ⟨50000, with0 (lab (.sleepu 4#7) []) fun x => { x with run := .waiting (.sleepu 50000) }, t0, rfl, rfl, rfl, by decide⟩⟩

/-! ## Named barriers, GROW and SHRINK -/

def barLab (b : Barrier) : State := withT (lab (.bar 4#7 3#4) [(4#7, 2#32)]) fun x => { x with bars := x.bars.set 3 b }

theorem grouped_of {s : State} {k : Nat}
    (h : (s.threads.all (fun x => x.id.team != k || (s.group? x.id.gid).isSome) &&
      s.groups.all fun g => g.id.team != k || (decide (g.core < 768) && decide (g.id.group < 512))) = true) : Grouped s k := by
  simp only [Bool.and_eq_true, List.all_eq_true, Bool.or_eq_true, bne_iff_ne, decide_eq_true_eq] at h
  exact ⟨fun x m e => (h.1 x m).resolve_left (fun n => n e), fun g m e => (h.2 g m).resolve_left (fun n => n e)⟩

/-- Hypotheses that the clauses of BAR and BARA share. -/
def AtBar (i : Instr) (a : VReg) (n : BitVec 4) (s : State) (t : TId) : Prop :=
  (i = .bara a n ∨ i = .bar a n) ∧ Safe s ∧ Solo s t ∧ Clear s t i [] [] ∧ (s.th t).run = .running ∧ (s.th t).arrived = false ∧
    (s.team? t.team).isSome = true ∧ Grouped s t.team ∧ n.toNat < (s.tm t.team).claim.barriers ∧
    1 ≤ ((s.th t).val a).toNat ∧ ((s.th t).val a).toNat ≤ 8192 ∧
    (((s.tm t.team).bar n).cnt = 0 ∨ ((s.tm t.team).bar n).cnt = ((s.th t).val a).toNat) ∧ t ∉ ((s.tm t.team).bar n).pend

theorem wit_BarrierArrivals :
    (∃ a n s t, Solo s t ∧ Clear s t (.bari a n) [] [] ∧ (s.team? t.team).isSome = true ∧
      n.toNat < (s.tm t.team).claim.barriers ∧ 1 ≤ ((s.th t).val a).toNat ∧ ((s.th t).val a).toNat ≤ 8192 ∧
      (((s.tm t.team).bar n).cnt = 0 ∨ ((s.tm t.team).bar n).cnt = ((s.th t).val a).toNat)) ∧
    (∃ i a n s t, AtBar i a n s t ∧ ((s.th t).val a).toNat ≤ ((s.tm t.team).bar n).arr + 1 + ((s.tm t.team).bar n).dep) ∧
    (∃ i a n s t, AtBar i a n s t ∧ ((s.tm t.team).bar n).arr + 1 + ((s.tm t.team).bar n).dep < ((s.th t).val a).toNat) ∧
    (∃ n s t, Safe s ∧ Solo s t ∧ Clear s t (.barw n) [] [] ∧ (s.th t).run = .running ∧ n.toNat < (s.tm t.team).claim.barriers ∧
      t ∈ ((s.tm t.team).bar n).pend) :=
  ⟨⟨4#7, 3#4, lab .nop [(4#7, 8192#32)], t0, solo_lab _ _, clear_of (by decide), rfl, by decide, by decide, by decide, .inl rfl⟩,
    ⟨.bar 4#7 3#4, 4#7, 3#4, barLab ⟨2, 1, 0, [⟨8, 0, 1⟩], [⟨8, 0, 1⟩]⟩, t0,
      ⟨.inr rfl, safe_of (by decide), ⟨rfl, rfl, rfl⟩, clear_of (by decide), rfl, rfl, rfl, grouped_of (by decide), by decide, by decide, by decide,
        .inr (by decide), by decide⟩, by decide⟩,
    ⟨.bara 4#7 3#4, 4#7, 3#4, barLab Barrier.zero, t0,
      ⟨.inl rfl, safe_of (by decide), ⟨rfl, rfl, rfl⟩, clear_of (by decide), rfl, rfl, rfl, grouped_of (by decide), by decide, by decide, by decide,
        .inl (by decide), by decide⟩, by decide⟩,
    ⟨3#4, barLab ⟨2, 1, 0, [t0], [t0]⟩, t0, safe_of (by decide), ⟨rfl, rfl, rfl⟩, clear_of (by decide), rfl, by decide, by decide⟩⟩

/-- Cluster 15 with three groups queued: what it releases at once, and what has left. -/
def waveLab (last : Option Nat) (slope : BitVec 16) : State :=
  withP (with0 (lab .nop []) fun x => { x with run := .wave }) fun p =>
    { p with clusters := p.clusters.set 15 { Cluster.reset with
      waves := [⟨slope, [t0]⟩, ⟨slope, []⟩, ⟨0#16, []⟩], lastWave := last, waveUsed := 1, slope := 0xFFFF#16 } }

theorem wit_BarrierWaves :
    (∃ c s, c < 16 ∧ Safe s ∧ (s.cluster c).waves ≠ [] ∧ ((s.cluster c).waves.flatMap Wave.ths).Nodup ∧
      (∀ w, (s.cluster c).lastWave = some w → w + 20 ≤ s.time) ∧ ∃ w ∈ (s.cluster c).waves, ∃ u ∈ w.ths, (s.th u).run = .wave) ∧
    (∃ c s w, c < 16 ∧ Safe s ∧ (s.cluster c).waves ≠ [] ∧ ((s.cluster c).waves.flatMap Wave.ths).Nodup ∧ (s.cluster c).lastWave = some s.time ∧
      w ∈ (s.cluster c).waves ∧ ¬ Fits (s.cluster c) w (s.cluster c).waveUsed) ∧
    (∃ c s, c < 16 ∧ Safe s ∧ (s.cluster c).waves ≠ [] ∧ ((s.cluster c).waves.flatMap Wave.ths).Nodup ∧
      ∃ w, (s.cluster c).lastWave = some w ∧ w < s.time ∧ s.time < w + 20) :=
  ⟨⟨15, waveLab (some 4980) 64#16, by decide, safe_of (by decide), by decide, by decide, by intro w h; cases h; decide, _, .head _, t0, by decide, rfl⟩,
    ⟨15, waveLab (some 5000) 1#16, _, by decide, safe_of (by decide), by decide, by decide, rfl, .head _, by unfold Fits; decide⟩,
    ⟨15, waveLab (some 4981) 64#16, by decide, safe_of (by decide), by decide, by decide, 4981, rfl, by decide, by decide⟩⟩

/-- How many groups a wave lets go by the numbers of R266: SLOPE 64 at the step of MID, 0.32 A, and SLOPE 1. -/
theorem test_wave_size : Cluster.reset.waveSize 64#16 = some 20 ∧ Cluster.reset.waveSize 1#16 = some 1 ∧ Cluster.reset.waveSize 0#16 = none := by decide

/-- 31 groups with 64 registers each beside the lab's one: no block is free; the requests of the lab's group. -/
def fullLab (rs : List Grow) (r : Run) : State :=
  let s := with0 (lab .nop []) fun x => { x with run := r }
  { s with threads := s.threads.take 1, groups := { labGroup with grows := rs } :: (List.range 31).map fun k => Group.fresh ⟨8, k + 1⟩ 16 0 64 0#64 0#64 0 }

theorem wit_Grow :
    (∃ p m s t, Safe s ∧ Solo s t ∧ Clear s t (.grow p m) [] [] ∧ (s.gr t.gid).grows = [] ∧ roundAlloc m.toNat ≤ 128 ∧
      roundAlloc m.toNat ≤ (s.gr t.gid).n) ∧
    (∃ p m s t, Safe s ∧ Solo s t ∧ Clear s t (.grow p m) [] [] ∧ (s.gr t.gid).grows = [] ∧ roundAlloc m.toNat ≤ 128 ∧
      (s.gr t.gid).n < roundAlloc m.toNat ∧ growGrantable s (s.gr t.gid) ⟨roundAlloc m.toNat, p, s.nextId, []⟩ = true) ∧
    (∃ p m s t, Safe s ∧ Solo s t ∧ Clear s t (.grow p m) [] [] ∧ (s.gr t.gid).grows = [] ∧ roundAlloc m.toNat ≤ 128 ∧
      (s.gr t.gid).n < roundAlloc m.toNat ∧ growGrantable s (s.gr t.gid) ⟨roundAlloc m.toNat, p, s.nextId, []⟩ = false) :=
  ⟨⟨1#3, 64#8, lab .nop [], t0, safe_lab _ _, solo_lab _ _, clear_of (by decide), rfl, by decide, by decide⟩,
    ⟨1#3, 128#8, lab .nop [], t0, safe_lab _ _, solo_lab _ _, clear_of (by decide), rfl, by decide, by decide, by decide⟩,
    ⟨1#3, 65#8, fullLab [] .running, t0, safe_of (by decide), ⟨rfl, rfl, rfl⟩, clear_of (by decide), rfl, by decide, by decide, by decide⟩⟩

theorem wit_GrowAndShrink :
    (∃ g r rs s, Safe s ∧ (s.group? g).isSome = true ∧ (s.gr g).grows = r :: rs ∧ (∀ q ∈ rs, q.order ≠ r.order) ∧ r.ths.Nodup ∧
      teamHere s g.team = true ∧ (s.gr g).n < r.m ∧ growGrantable s (s.gr g) r = true) ∧
    (∃ g r rs s, Safe s ∧ (s.group? g).isSome = true ∧ (s.gr g).grows = r :: rs ∧ (∀ q ∈ rs, q.order ≠ r.order) ∧ r.ths.Nodup ∧
      teamHere s g.team = true ∧ (s.gr g).n < r.m ∧ growGrantable s (s.gr g) r = false) ∧
    (∃ c g r s, Safe s ∧ growStuck s c = true ∧ g ∈ groupsOn s c ∧ r ∈ g.grows ∧ r.ths.Nodup ∧
      ∀ h ∈ groupsOn s c, ∀ q ∈ h.grows, (h.id, q) ≠ (g.id, r) → q.order < r.order) ∧
    (∃ m s t, Solo s t ∧ Clear s t (.shrink m) [] [] ∧ (∀ o ∈ s.part.ops, o.t.gid = t.gid → o.dlv = none) ∧ (s.gr t.gid).grows = []) ∧
    (∃ m s t, Solo s t ∧ Clear s t (.shrink m) [] [] ∧ (s.gr t.gid).grows ≠ [] ∧ max 8 (roundAlloc m.toNat) < (s.gr t.gid).n) :=
  ⟨⟨⟨8, 0⟩, ⟨128, 1#3, 5, [t0]⟩, [], withG (lab .nop []) fun g => { g with grows := [⟨128, 1#3, 5, [t0]⟩] }, safe_of (by decide), rfl, rfl,
      by decide, by decide, by decide, by decide, by decide⟩,
    ⟨⟨8, 0⟩, ⟨128, 1#3, 5, [t0]⟩, [], fullLab [⟨128, 1#3, 5, [t0]⟩] (.waiting .grow), safe_of (by decide), rfl, rfl,
      by decide, by decide, by decide, by decide, by decide⟩,
    ⟨0, { labGroup with grows := [⟨72, 1#3, 5, [t0]⟩] }, ⟨72, 1#3, 5, [t0]⟩, fullLab [⟨72, 1#3, 5, [t0]⟩] (.waiting .grow), safe_of (by decide),
      by decide, by decide, .head _, by decide, by decide⟩,
    ⟨0#8, lab .nop [], t0, solo_lab _ _, clear_of (by decide), by decide, rfl⟩,
    ⟨48#8, fullLab [⟨72, 1#3, 5, [⟨8, 0, 1⟩]⟩] .running, t0, ⟨rfl, rfl, rfl⟩, clear_of (by decide), by decide, by decide⟩⟩

/-! ## Memory -/

def reachesB (s : State) (t : TId) (k : AccessKind) (wc : BitVec 3) (va : BitVec 64) (n : Nat) (pl : Place) : Bool :=
  (s.gr t.gid).counter wc != 63#6 && va.toNat % n == 0 && okB (translate s (agentOf s t) k va n).1 pl &&
    !orderBars s (agentOf s t) pl &&
    ((s.th t).run.granted || (decide (0 < entriesFree s (s.gr t.gid).core) && !rejectedWaits s (s.gr t.gid).core))
theorem reaches_of {s : State} {t : TId} {k : AccessKind} {wc : BitVec 3} {va : BitVec 64} {n : Nat} {pl : Place}
    (h : reachesB s t k wc va n pl = true) : Reaches s t k wc va n pl := by
  simp only [reachesB, Bool.and_eq_true, Bool.or_eq_true, bne_iff_ne, beq_iff_eq, Bool.not_eq_true', decide_eq_true_eq] at h
  exact ⟨h.1.1.1.1, h.1.1.1.2, ok_of h.1.1.2, h.1.2, h.2⟩

/-- A byte of the lab's page, of its scratchpad claim, of its team information block. -/
def labPage (a : Nat) : Place := .page ⟨a, 0, 0, 0, a, true, 0x40000000⟩
def scr0 : List (VReg × Word) := [(11#7, 0x00FF0000#32)]

theorem wit_LoadResults :
    (∃ i f pl s t, loadForm i = some f ∧ Solo s t ∧ Clear s t i (pairOf f.a) [] ∧
      Reaches s t .load f.wc ((s.th t).val64 f.a + f.off.signExtend 64) f.n pl ∧ (s.th t).wcBuf = none ∧ (∃ p, pl = .page p) ∧
      Unhosted s t ∧ Settled s) ∧
    (∃ i f pl s t, loadForm i = some f ∧ Solo s t ∧ Clear s t i (pairOf f.a) [] ∧
      Reaches s t .load f.wc ((s.th t).val64 f.a + f.off.signExtend 64) f.n pl ∧ (s.th t).wcBuf = none ∧ ∃ c o, pl = .scr c o) ∧
    (∃ i f pl s t, loadForm i = some f ∧ Solo s t ∧ Clear s t i (pairOf f.a) [] ∧
      Reaches s t .load f.wc ((s.th t).val64 f.a + f.off.signExtend 64) f.n pl ∧ (s.th t).wcBuf = none ∧ ∃ o, pl = .tib o) :=
  ⟨⟨.ldOffset 4#7 10#7 7#3 1#2 0#2 0#4 0xFFFFFFF8#32, _, labPage 0x3FFFFFF8,
      lab (.ldOffset 4#7 10#7 7#3 1#2 0#2 0#4 0xFFFFFFF8#32) [(10#7, 0x40000000#32)], t0, rfl, solo_lab _ _, clear_of (by decide),
      reaches_of (by decide), rfl, ⟨_, rfl⟩, rfl, settled_of (by decide) rfl⟩,
    ⟨.ldaScope 4#7 10#7 0#3 1#1 3#2 0#4 3#3, _, .scr 0 8184,
      lab (.ldaScope 4#7 10#7 0#3 1#1 3#2 0#4 3#3) [(10#7, 4088#32), (11#7, 0x00FF0000#32)], t0, rfl, solo_lab _ _, clear_of (by decide),
      reaches_of (by decide), rfl, ⟨_, _, rfl⟩⟩,
    ⟨.ld 4#7 10#7 0#3 3#2 0#2 0#4, _, .tib 63, lab (.ld 4#7 10#7 0#3 3#2 0#2 0#4) [(10#7, 63#32), (11#7, 0x00FF0002#32)], t0, rfl,
      solo_lab _ _, clear_of (by decide), reaches_of (by decide), rfl, ⟨_, rfl⟩⟩⟩

theorem writable_page (s : State) (t : TId) (a cp : Nat) (h : physRange a ≠ .sys) : Writable s t (labPage a) cp :=
  ⟨h, fun _ => .inr (.inl rfl)⟩

/-- A page table whose leaf makes every page write-combining. -/
def combiningLab (i : Instr) (rs : List (VReg × Word)) : State :=
  { lab i rs with mem := [(0x10000, 1#8), (0x10002, 2#8), (0x20000, 0x3F#8), (0x20007, 0x40#8)] }

theorem wit_StoreResults :
    (∃ i f pl s t, storeForm i = some f ∧ Solo s t ∧ Clear s t i (pairOf f.a ++ loadRegs f.d f.n) [] ∧ Unhosted s t ∧
      Reaches s t .store f.wc ((s.th t).val64 f.a + f.off.signExtend 64) f.n pl ∧ (s.th t).wcBuf = none ∧ Settled s ∧ Writable s t pl f.cp ∧
      findMatch s t 1 ((s.th t).val64 f.a + f.off.signExtend 64).toNat f.n
        ((if f.n = 8 then ((s.th t).val64 f.d).toNat else ((s.th t).val f.d).toNat) % 256 ^ f.n) = none ∧ pl.combines = false) ∧
    (∃ i f p s t, storeForm i = some f ∧ Solo s t ∧ Clear s t i (pairOf f.a ++ loadRegs f.d f.n) [] ∧ Unhosted s t ∧
      Reaches s t .store f.wc ((s.th t).val64 f.a + f.off.signExtend 64) f.n (.page p) ∧ (s.th t).wcBuf = none ∧ Settled s ∧
      Writable s t (.page p) f.cp ∧ findMatch s t 1 ((s.th t).val64 f.a + f.off.signExtend 64).toNat f.n
        ((if f.n = 8 then ((s.th t).val64 f.d).toNat else ((s.th t).val f.d).toNat) % 256 ^ f.n) = none ∧
      p.mt = 1 ∧ (s.threads.filter fun y => y.wcBuf.isSome && (agentOf s y.id).issuer == (agentOf s t).issuer).length < 8) ∧
    (∃ i f b p s t, storeForm i = some f ∧ f.rel = true ∧ Solo s t ∧ Clear s t i (pairOf f.a ++ loadRegs f.d f.n) [] ∧ Unhosted s t ∧
      Reaches s t .store f.wc ((s.th t).val64 f.a + f.off.signExtend 64) f.n (.page p) ∧ (s.th t).wcBuf = some b ∧
      (∀ c ∈ b.bytes, c.1 / 128 = b.line) ∧ Settled s ∧ p.mt = 0 ∧ p.kind = 0 ∧ physRange p.pa ≠ .sys ∧ p.pa / 128 ≠ b.line ∧
      findMatch s t 1 ((s.th t).val64 f.a + f.off.signExtend 64).toNat f.n
        ((if f.n = 8 then ((s.th t).val64 f.d).toNat else ((s.th t).val f.d).toNat) % 256 ^ f.n) = none ∧
      ∀ x ∈ b.accs, findMatch s t 1 x.1.toNat x.2.1 x.2.2 = none) :=
  ⟨⟨.stl 4#7 10#7 0#3 1#1 0#2 0#4, _, labPage 0x3000, lab (.stl 4#7 10#7 0#3 1#1 0#2 0#4) [(4#7, 0xFFFFFFFF#32), (10#7, 0x3000#32)], t0, rfl,
      solo_lab _ _, clear_of (by decide), rfl, reaches_of (by decide), rfl, settled_of (by decide) rfl, writable_page _ _ _ _ (by decide),
      by decide, rfl⟩,
    ⟨.st 4#7 10#7 0#3 2#2 0#2 0#4, _, ⟨0x3002, 1, 0, 0, 0x3002, true, 0x40000000⟩, combiningLab (.st 4#7 10#7 0#3 2#2 0#2 0#4) [(10#7, 0x3002#32)], t0, rfl,
      ⟨rfl, rfl, rfl⟩, clear_of (by decide), rfl, reaches_of (by decide), rfl, settled_of (by decide) rfl,
      ⟨by decide, fun _ => .inr (.inl rfl)⟩, by decide, rfl, by decide⟩,
    ⟨.stl 4#7 10#7 0#3 1#1 0#2 0#4, _, ⟨5, [(640, 1#8)], 4900, [(640#64, 1, 1)]⟩, _,
      with0 (lab (.stl 4#7 10#7 0#3 1#1 0#2 0#4) [(4#7, 0xFFFFFFFF#32), (10#7, 0x3000#32)]) fun x =>
        { x with wcBuf := some ⟨5, [(640, 1#8)], 4900, [(640#64, 1, 1)]⟩ }, t0, rfl, rfl, ⟨rfl, rfl, rfl⟩, clear_of (by decide), rfl,
      reaches_of (pl := labPage 0x3000) (by decide), rfl, by decide, settled_of (by decide) rfl, rfl, rfl, by decide, by decide, by decide, by decide⟩⟩

/-- Hypotheses of AtomicResults. -/
def AtAtomic (i : Instr) (f : AtomForm) (pl : Place) (s : State) (t : TId) : Prop :=
  i.wf = true ∧ atomForm i = some f ∧ Solo s t ∧
    Clear s t i (pairOf f.a ++ (if f.op = 9 then loadRegs f.b f.n else []) ++ loadRegs f.d f.n) [] ∧ Unhosted s t ∧
    ((s.tm t.team).det = true → f.k ≠ .key → f.op < 10) ∧ sideCan f.k f.op pl f.cp.toNat = true ∧
    Reaches s t .atomic f.wc ((s.th t).val64 f.a) f.n pl ∧ (s.th t).wcBuf = none ∧ Settled s ∧ Writable s t pl f.cp.toNat ∧
    ∀ new, findMatch s t 2 ((s.th t).val64 f.a).toNat f.n new = none

theorem no_match {s : State} {t : TId} {k a n : Nat} (u : (s.gr t.gid).hosted = none) (h : (s.trip (s.gr t.gid).core).ctl.toNat % 4 = 0)
    (v : Nat) : findMatch s t k a n v = none := by
  unfold findMatch; simp [u, h]

theorem wit_AtomicResults :
    (∃ i f pl s t, AtAtomic i f pl s t ∧ f.k ≠ .red) ∧ (∃ i f pl s t, AtAtomic i f pl s t ∧ f.k = .red) :=
  ⟨⟨.atomExt 4#7 10#7 0#3 0#2 0#4 2#3 6#7 3#3 9#4 1#2, _, labPage 0x3000,
      lab (.atomExt 4#7 10#7 0#3 0#2 0#4 2#3 6#7 3#3 9#4 1#2) [(10#7, 0x3000#32)], t0,
      ⟨by decide, rfl, solo_lab _ _, clear_of (by decide), rfl, nofun, by decide, reaches_of (by decide), rfl, settled_of (by decide) rfl,
        writable_page _ _ _ _ (by decide), no_match rfl (by decide)⟩, nofun⟩,
    ⟨.red 4#7 10#7 0#3 0#2 0#4, _, .scr 0 4096, lab (.red 4#7 10#7 0#3 0#2 0#4) [(11#7, 0x00FF0000#32)], t0,
      ⟨by decide, rfl, solo_lab _ _, clear_of (by decide), rfl, nofun, by decide, reaches_of (by decide), rfl, settled_of (by decide) rfl,
        trivial, no_match rfl (by decide)⟩, rfl⟩⟩

def opLab (o : Op) : State := withP (lab .nop []) fun p => { p with ops := [o] }

theorem wit_AccessesComplete :
    (∃ (o : Op) (d : Delivery) (vs : List Word) (k : BitVec 3) (s : State), s.op? o.id = some o ∧ o.dlv = some d ∧ d.vals = some vs ∧
      o.job = .poisoned k ∧ (s.thread? o.t).isSome = true ∧ vs.length ≤ 128) ∧
    (∃ (o : Op) (d : Delivery) (vs : List Word) (s : State), s.op? o.id = some o ∧ o.dlv = some d ∧ d.vals = some vs ∧
      (∀ k, o.job ≠ .poisoned k) ∧ (s.thread? o.t).isSome = true ∧ vs.length ≤ 128 ∧ Unhosted s o.t) ∧
    (∃ (o : Op) (n : BitVec 3) (s : State), s.op? o.id = some o ∧ o.dlv = none ∧ o.wc = some n ∧ (s.group? o.t.gid).isSome = true ∧
      (∀ line, o.job = .combined line → ∀ b, (s.th o.t).wcBuf = some b → b.line ≠ line) ∧ (∀ pl v, o.job ≠ .status pl v) ∧
      o.isAcc = false ∧ s.counting ≠ some o.tok ∧ ∀ p ∈ s.part.ops, p.tok = o.tok → p.id = o.id) ∧
    (∃ (o : Op) (line : Nat) (b : WcBuffer) (s : State), s.op? o.id = some o ∧ o.job = .combined line ∧
      (s.th o.t).wcBuf = some b ∧ b.line = line) ∧
    (∃ (c k : Nat) (x : Thread) (s : State), Safe s ∧ x ∈ s.threads ∧ x.run = .waiting (.mshr false k) ∧ (s.gr x.id.gid).core = c ∧
      (∀ y ∈ s.threads, ∀ n, y.run = .waiting (.mshr false n) → (s.gr y.id.gid).core = c → y.id ≠ x.id → k < n) ∧ 0 < entriesFree s c) ∧
    (∃ (b : WcBuffer) (s : State) (t : TId), (s.th t).wcBuf = some b ∧ (s.thread? t).isSome = true ∧ b.since + 100 ≤ s.time ∧
      Unhosted s t ∧ s.l2Line? b.line = none ∧ Settled s ∧ ∀ c ∈ b.bytes, c.1 / 128 = b.line) ∧
    (∃ (b : WcBuffer) (s : State) (t : TId), (s.th t).wcBuf = some b ∧ (s.thread? t).isSome = true ∧ s.time < b.since + 100) :=
  ⟨⟨⟨150, 149, t0, some 1#3, some ⟨127#7, 2, some [1#32, 2#32], 0⟩, none, 0, .poisoned 2#3⟩, _, _, _,
      opLab ⟨150, 149, t0, some 1#3, some ⟨127#7, 2, some [1#32, 2#32], 0⟩, none, 0, .poisoned 2#3⟩, rfl, rfl, rfl, rfl, rfl, by decide⟩,
    ⟨⟨150, 149, t0, some 1#3, some ⟨127#7, 2, some [1#32, 2#32], 0⟩, none, 0, .load 0#64 24⟩, _, _,
      opLab ⟨150, 149, t0, some 1#3, some ⟨127#7, 2, some [1#32, 2#32], 0⟩, none, 0, .load 0#64 24⟩, rfl, rfl, rfl, nofun, rfl, by decide, rfl⟩,
    ⟨⟨150, 149, t0, some 1#3, none, none, 0, .access 0#64 25⟩, _, opLab ⟨150, 149, t0, some 1#3, none, none, 0, .access 0#64 25⟩, rfl, rfl, rfl,
      rfl, nofun, nofun, rfl, nofun, by decide⟩,
    ⟨⟨150, 149, t0, some 1#3, none, none, 0, .combined 5⟩, 5, _,
      with0 (opLab ⟨150, 149, t0, some 1#3, none, none, 0, .combined 5⟩) fun x => { x with wcBuf := some ⟨5, [], 0, []⟩ }, rfl, rfl, rfl, rfl⟩,
    ⟨0, 3, { labThread 0 .nop [] with run := .waiting (.mshr false 3) },
      { lab .nop [] with threads := [{ labThread 0 .nop [] with run := .waiting (.mshr false 3) },
          { labThread 1 .nop [] with run := .waiting (.mshr false 4) }] }, safe_of (by decide), .head _, rfl, rfl, by
        intro y h n e
        simp only [lab, List.mem_cons, List.not_mem_nil, or_false] at h
        rcases h with rfl | rfl
        · intro _ k; exact absurd rfl k
        · intro _ _; cases e; decide, by decide⟩,
    ⟨_, with0 (lab .nop []) fun x => { x with wcBuf := some ⟨5, [(640, 1#8)], 4900, []⟩ }, t0, rfl, rfl, by decide, rfl, by decide,
      settled_of (by decide) rfl, by decide⟩,
    ⟨_, with0 (lab .nop []) fun x => { x with wcBuf := some ⟨5, [(640, 1#8)], 4901, []⟩ }, t0, rfl, rfl, by decide⟩⟩

/-- A load, store or atomic issues, up to its address. -/
def AtAccess (i : Instr) (f : AccessForm) (s : State) (t : TId) : Prop :=
  i.wf = true ∧ accessForm i = some f ∧ Solo s t ∧ Clear s t i f.eats [] ∧ ¬ BarredAtomic s t i ∧ (s.gr t.gid).counter f.wc ≠ 63#6

theorem not_barred {s : State} {t : TId} {i : Instr} (h : (s.tm t.team).det = false) : ¬ BarredAtomic s t i :=
  fun ⟨_, _, d, _⟩ => by rw [h] at d; cases d

theorem wit_AccessFaults :
    (∀ k : AccessKind, k ∈ [.load, .store, .atomic] → ∃ i f vec s t, AtAccess i f s t ∧ f.k = k ∧
      ((s.th t).val64 f.a + f.off.signExtend 64).toNat % f.n ≠ 0 ∧ Vectored s t vec ∧ Unhosted s t) ∧
    (∀ k : AccessKind, k ∈ [.load, .store, .atomic] → ∃ i f s t, AtAccess i f s t ∧ f.k = k ∧
      ((s.th t).val64 f.a + f.off.signExtend 64).toNat % f.n = 0 ∧
      (translate s (agentOf s t) f.k ((s.th t).val64 f.a + f.off.signExtend 64) f.n).1 = .error 4 ∧ (s.th t).denied = false ∧ Unhosted s t) ∧
    (∃ i f s t, loadForm i = some f ∧ Solo s t ∧ Clear s t i (pairOf f.a) [] ∧ (s.gr t.gid).counter f.wc ≠ 63#6 ∧
      ((s.th t).val64 f.a + f.off.signExtend 64).toNat % f.n = 0 ∧
      (translate s (agentOf s t) .load ((s.th t).val64 f.a + f.off.signExtend 64) f.n).1 = .error 1 ∧
      1 ≤ freeRecord s t (loadRegs f.d f.n) ∧ freeRecord s t (loadRegs f.d f.n) ≤ 4) ∧
    (∀ k : AccessKind, k ∈ [.store, .atomic] → ∃ i f r vec s t, AtAccess i f s t ∧ f.k = k ∧
      ((s.th t).val64 f.a + f.off.signExtend 64).toNat % f.n = 0 ∧
      (translate s (agentOf s t) f.k ((s.th t).val64 f.a + f.off.signExtend 64) f.n).1 = .error r ∧
      ((r ≠ 4 ∧ r ≠ 5) ∨ (s.th t).denied = true) ∧ Vectored s t vec ∧ Unhosted s t) := by
  let ld : Instr := .ld 4#7 10#7 0#3 1#2 0#2 0#4
  let st : Instr := .st 4#7 10#7 0#3 1#2 0#2 0#4
  let at_ : Instr := .atom 4#7 10#7 0#3 0#2 0#4
  have go : ∀ (i : Instr) (rs : List (VReg × Word)) (f : AccessForm), i.wf = true → accessForm i = some f → clearB (lab i rs) t0 i f.eats [] = true →
      ((lab i rs).gr t0.gid).counter f.wc ≠ 63#6 → AtAccess i f (lab i rs) t0 :=
    fun i rs f a b c d => ⟨a, b, solo_lab _ _, clear_of c, not_barred rfl, d⟩
  refine ⟨?_, ?_, ⟨ld, _, lab ld [(11#7, 0x01000000#32)], t0, rfl, solo_lab _ _, clear_of (by decide), by decide, by decide, err_of (by decide),
    by decide⟩, ?_⟩ <;> intro k h <;> simp only [List.mem_cons, List.not_mem_nil, or_false] at h
  · rcases h with rfl | rfl | rfl
    · exact ⟨ld, _, _, lab ld [(10#7, 0x3004#32)], t0, go _ _ _ (by decide) rfl (by decide) (by decide), rfl, by decide, vectored_lab _ _ (by decide), rfl⟩
    · exact ⟨st, _, _, lab st [(10#7, 0x3004#32)], t0, go _ _ _ (by decide) rfl (by decide) (by decide), rfl, by decide, vectored_lab _ _ (by decide), rfl⟩
    · exact ⟨at_, _, _, lab at_ [(10#7, 0x3002#32)], t0, go _ _ _ (by decide) rfl (by decide) (by decide), rfl, by decide, vectored_lab _ _ (by decide), rfl⟩
  · rcases h with rfl | rfl | rfl
    · exact ⟨ld, _, lab ld [(10#7, 0x40000000#32)], t0, go _ _ _ (by decide) rfl (by decide) (by decide), rfl, by decide, err_of (by decide), rfl, rfl⟩
    · exact ⟨st, _, lab st [(10#7, 0x40000000#32)], t0, go _ _ _ (by decide) rfl (by decide) (by decide), rfl, by decide, err_of (by decide), rfl, rfl⟩
    · exact ⟨at_, _, lab at_ [(10#7, 0x40000000#32)], t0, go _ _ _ (by decide) rfl (by decide) (by decide), rfl, by decide, err_of (by decide), rfl, rfl⟩
  · rcases h with rfl | rfl
    · exact ⟨st, _, 2, _, lab st [(10#7, 4096#32), (11#7, 0x00FF0000#32)], t0, go _ _ _ (by decide) rfl (by decide) (by decide), rfl, by decide,
        err_of (by decide), .inl (by decide), vectored_lab _ _ (by decide), rfl⟩
    · exact ⟨at_, _, 1, _, lab at_ [(11#7, 0x01000000#32)], t0, go _ _ _ (by decide) rfl (by decide) (by decide), rfl, by decide,
        err_of (by decide), .inl (by decide), vectored_lab _ _ (by decide), rfl⟩

theorem wit_PrefetchResults : ∃ i a wc s t, (∃ ln cp la, i = .pref a wc ln cp la ∨ ∃ off, i = .prefOffset a wc ln cp la off) ∧ Solo s t ∧
    Clear s t i (pairOf a) [] ∧ (s.gr t.gid).counter wc ≠ 63#6 ∧ (∀ o ∈ s.part.ops, o.tok < s.nextId) ∧ Unhosted s t ∧ Settled s :=
  ⟨.pref 10#7 0#3 3#2 0#2 0#4, 10#7, 0#3, lab .nop [], t0, ⟨_, _, _, .inl rfl⟩, solo_lab _ _, clear_of (by decide), by decide, by decide, rfl,
    settled_of (by decide) rfl⟩

def rangeLab (i : Instr) : State := lab i [(4#7, 32#32), (10#7, 0x3FF0#32)]

theorem wit_RangeResults :
    (∃ i n a s t, (i = .discard n a ∨ i = .flushl n a ∨ ∃ l2, i = .invl n a l2) ∧ Solo s t ∧ Clear s t i [] [] ∧ (s.th t).val n = 0#32) ∧
    (∃ n a secs s t, Solo s t ∧ Clear s t (.discard n a) [] [] ∧ Unhosted s t ∧
      Settled s ∧ (s.th t).val n ≠ 0#32 ∧ (s.th t).poisoned (pairOf a ++ [n]) = none ∧ ((s.th t).val64 a).toNat % 16 = 0 ∧
      ((s.th t).val n).toNat % 16 = 0 ∧
      (rangeSectors (agentOf s t) .discard (((s.th t).val n).toNat / 16) ((s.th t).val64 a) s).1 = .ok secs ∧
      (∀ x ∈ secs, x.page.mt = 0 ∧ x.page.kind = 0) ∧ barredSector s t secs = none ∧ (s.th t).wcBuf = none ∧
      ∀ x ∈ secs, findMatch s t 1 x.va.toNat 16 0 = none) ∧
    (∃ n a secs s t, Solo s t ∧ Clear s t (.discard n a) [] [] ∧ Unhosted s t ∧
      Settled s ∧ (s.th t).val n ≠ 0#32 ∧ (s.th t).poisoned (pairOf a ++ [n]) = none ∧ ((s.th t).val64 a).toNat % 16 = 0 ∧
      ((s.th t).val n).toNat % 16 = 0 ∧
      (rangeSectors (agentOf s t) .discard (((s.th t).val n).toNat / 16) ((s.th t).val64 a) s).1 = .ok secs ∧ secs ≠ [] ∧
      (∀ x ∈ secs, x.page.mt = 0 ∧ (x.page.kind = 1 ∨ x.page.kind = 2)) ∧ barredSector s t secs = none ∧
      ∀ x ∈ secs, findMatch s t 1 x.va.toNat 16 0 = none) ∧
    (∃ n a secs s t, Solo s t ∧ Clear s t (.flushl n a) [] [] ∧ Unhosted s t ∧
      Settled s ∧ (s.th t).val n ≠ 0#32 ∧ (s.th t).poisoned (pairOf a ++ [n]) = none ∧ ((s.th t).val64 a).toNat % 16 = 0 ∧
      ((s.th t).val n).toNat % 16 = 0 ∧ (s.th t).wcBuf = none ∧
      (rangeSectors (agentOf s t) .flush (((s.th t).val n).toNat / 16) ((s.th t).val64 a) s).1 = .ok secs) ∧
    (∃ n a l2 secs c s t, Solo s t ∧ Clear s t (.invl n a l2) [] [] ∧
      Unhosted s t ∧ Settled s ∧ (s.th t).val n ≠ 0#32 ∧ (s.th t).poisoned (pairOf a ++ [n]) = none ∧ ((s.th t).val64 a).toNat % 16 = 0 ∧
      ((s.th t).val n).toNat % 16 = 0 ∧ (agentOf s t).core = some c ∧
      (rangeSectors (agentOf s t) .flush (((s.th t).val n).toNat / 16) ((s.th t).val64 a) s).1 = .ok secs) :=
  ⟨⟨.invl 4#7 10#7 1#1, _, _, lab .nop [], t0, .inr (.inr ⟨_, rfl⟩), solo_lab _ _, clear_of (by decide), rfl⟩,
    ⟨4#7, 10#7, _, rangeLab (.discard 4#7 10#7), t0, ⟨rfl, rfl, rfl⟩, clear_of (by decide), rfl, settled_of (by decide) rfl, by decide, by decide,
      by decide, by decide, ok_got [] (by decide), by decide, by decide, rfl, by decide⟩,
    ⟨4#7, 10#7, _, { rangeLab (.discard 4#7 10#7) with mem := [(0x10000, 1#8), (0x10002, 2#8), (0x20000, 0x3F#8), (0x20006, 8#8), (0x20007, 4#8)] }, t0,
      ⟨rfl, rfl, rfl⟩, clear_of (by decide), rfl, settled_of (by decide) rfl, by decide, by decide,
      by decide, by decide, ok_got [] (by decide), by decide, by decide, by decide, by decide⟩,
    ⟨4#7, 10#7, _, rangeLab (.flushl 4#7 10#7), t0, ⟨rfl, rfl, rfl⟩, clear_of (by decide), rfl, settled_of (by decide) rfl, by decide, by decide,
      by decide, by decide, rfl, ok_got [] (by decide)⟩,
    ⟨4#7, 10#7, 1#1, _, _, rangeLab (.invl 4#7 10#7 1#1), t0, ⟨rfl, rfl, rfl⟩, clear_of (by decide), rfl, settled_of (by decide) rfl, by decide,
      by decide, by decide, by decide, rfl, ok_got [] (by decide)⟩⟩

theorem wit_CounterWaits :
    (∃ d a wc la pl s t, Solo s t ∧
      Clear s t (.waitge d a wc la) (pairOf a) [] ∧ (s.gr t.gid).counter wc ≠ 63#6 ∧ ((s.th t).val64 a).toNat % 8 = 0 ∧
      (translate s (agentOf s t) .load ((s.th t).val64 a) 8).1 = .ok pl ∧ orderBars s (agentOf s t) pl = false) ∧
    (∃ (o : Op) (va target : BitVec 64) (pl : Place) (us : List Upd) (s : State), o.job = .waitge va target ∧
      (∀ p ∈ s.part.ops, p.t = o.t → (∃ v w, p.job = .waitge v w) → p = o) ∧ o ∈ s.part.ops ∧ (s.part.ops.map Op.id).Nodup ∧
      translate s (agentOf s o.t) .load va 8 = (.ok pl, us) ∧ teamHere s o.t.team = true ∧ (s.th o.t).wcBuf = none ∧ target.toNat ≤ leNat (readPlace s (agentOf s o.t) pl 8 1).1) ∧
    (∃ (o : Op) (va target : BitVec 64) (pl : Place) (us : List Upd) (s : State), o.job = .waitge va target ∧
      (∀ p ∈ s.part.ops, p.t = o.t → (∃ v w, p.job = .waitge v w) → p = o) ∧ o ∈ s.part.ops ∧ (s.part.ops.map Op.id).Nodup ∧
      translate s (agentOf s o.t) .load va 8 = (.ok pl, us) ∧ teamHere s o.t.team = true ∧ (s.th o.t).wcBuf = none ∧ leNat (readPlace s (agentOf s o.t) pl 8 1).1 < target.toNat) :=
  ⟨⟨4#7, 10#7, 0#3, 0#4, labPage 0x3008, lab (.waitge 4#7 10#7 0#3 0#4) [(10#7, 0x3008#32)], t0, solo_lab _ _, clear_of (by decide),
      by decide, by decide, ok_of (by decide), by decide⟩,
    ⟨⟨150, 149, t0, some 1#3, some ⟨0#7, 0, some [], 0⟩, none, 0, .waitge 0x3000#64 0#64⟩, _, _, labPage 0x3000, _,
      opLab ⟨150, 149, t0, some 1#3, some ⟨0#7, 0, some [], 0⟩, none, 0, .waitge 0x3000#64 0#64⟩, rfl, by simp [opLab, withP], .head _,
      by decide, okp_of (by decide), by decide, rfl, by decide⟩,
    ⟨⟨150, 149, t0, some 1#3, some ⟨0#7, 0, some [], 0⟩, none, 0, .waitge 0x3000#64 1#64⟩, _, _, labPage 0x3000, _,
      opLab ⟨150, 149, t0, some 1#3, some ⟨0#7, 0, some [], 0⟩, none, 0, .waitge 0x3000#64 1#64⟩, rfl, by simp [opLab, withP], .head _,
      by decide, okp_of (by decide), by decide, rfl, by decide⟩⟩

/-! ## Multicast, the matrix unit, the accumulate network -/

def knownB : Place → Bool
  | .scr _ _ => true
  | .tib off => decide (off + 16 ≤ 64)
  | .page p => decide (physRange p.pa ≠ .sys)
theorem known_of {pl : Place} (h : knownB pl = true) : Known pl := by
  cases pl with
  | scr _ _ => trivial
  | tib o => simpa [knownB, Known] using h
  | page p => simpa [knownB, Known] using h
/-- Places that no order record bars and whose bytes memory gives. -/
theorem free_of {s : State} {a : Agent} {ps : List (BitVec 64 × Place)} (h : ps.all (fun x => !orderBars s a x.2 && knownB x.2) = true) :
    ∀ x ∈ ps, orderBars s a x.2 = false ∧ Known x.2 := fun x m => by
  have := List.all_eq_true.mp h x m
  simp only [Bool.and_eq_true, Bool.not_eq_true'] at this
  exact ⟨this.1, known_of this.2⟩
theorem all_known {pls : List Place} (h : pls.all knownB = true) : ∀ p ∈ pls, Known p := fun p m => known_of (List.all_eq_true.mp h p m)
theorem atHome_of {pls : List Place} (h : pls.all (fun pl => match pl with
    | .page p => decide (pointOf p 1 ≠ 3)
    | _ => true) = true) : AtHome pls := fun p m => of_decide_eq_true (List.all_eq_true.mp h (.page p) m)
theorem calm_of {s : State} {t : TId} {row n : Nat} (w : s.part.windows = [])
    (h : (List.range n).all (fun r => !undefinedRow s t t.team (ciOf s t) (row + r)) = true) : Calm s t row n :=
  ⟨by simp [w], fun r k => by simpa using List.all_eq_true.mp h r (List.mem_range.mpr k)⟩

/-- A delivery under way to core 0's last line, and a record of its line. -/
def labDelivery : Op :=
  ⟨150, 149, t0, some 1#3, none, none, 0, .ldmc [140] [(97, List.replicate 128 1#8)] 524160 [0] (List.replicate 128 0#8) []⟩
def labRec (merging : Bool) (since : Nat) : McRec := ⟨140, 97, List.replicate 128 1#8, merging, since, 0xC0404440#32⟩
def recLab (m : McRec) : State := withP (opLab labDelivery) fun p => { p with mcs := [m] }

theorem wit_MulticastResults :
    (∃ (d a : VReg) (wc : BitVec 3) (la : BitVec 4) (doff : BitVec 12) (nl : BitVec 7) (xs : List SectorAt) (s : State) (t : TId),
      let i : Instr := .ldmc d a wc la doff nl
      Issues s t i (pairOf d ++ pairOf a) wc ∧ (s.th t).wcBuf = none ∧ badMaskBit s t ((s.th t).val64 d) = none ∧
      ((s.th t).val64 a).toNat % 128 = 0 ∧
      doff.toNat * 128 + (nl.toNat + 1) * 128 ≤ 524288 ∧ (ldmcLines (agentOf s t) (nl.toNat + 1) ((s.th t).val64 a) s).1 = .ok xs ∧
      barredLine s (agentOf s t) xs = none ∧ s.part.mcs = [] ∧ (xs.map fun x => x.page.pa / 128).Nodup ∧
      (∀ x ∈ xs, physRange x.page.pa ≠ .sys) ∧ (s.th t).val64 d ≠ 0#64) ∧
    (∃ (d a : VReg) (wc : BitVec 3) (la : BitVec 4) (doff : BitVec 12) (nl : BitVec 7) (xs : List SectorAt) (s : State) (t : TId),
      let i : Instr := .ldmc d a wc la doff nl
      Issues s t i (pairOf d ++ pairOf a) wc ∧ (s.th t).wcBuf = none ∧ badMaskBit s t ((s.th t).val64 d) = none ∧
      ((s.th t).val64 a).toNat % 128 = 0 ∧
      doff.toNat * 128 + (nl.toNat + 1) * 128 ≤ 524288 ∧ (ldmcLines (agentOf s t) (nl.toNat + 1) ((s.th t).val64 a) s).1 = .ok xs ∧
      s.part.mcs = [] ∧ (xs.map fun x => x.page.pa / 128).Nodup ∧
      (∀ x ∈ xs, physRange x.page.pa ≠ .sys) ∧ (s.th t).val64 d = 0#64) ∧
    (∃ (m : McRec) (s : State), m ∈ s.part.mcs ∧ (∀ x ∈ s.part.mcs, x.id = m.id → x = m) ∧
      16 * 2 ^ (m.ctl.toNat / 2 ^ 8 % 16) ≤ 10 * (s.time - m.since) ∧ 2 ^ (m.ctl.toNat / 2 ^ 4 % 16 + 8) ≤ 10 * (s.time - m.since)) ∧
    (∃ (m : McRec) (s : State), m ∈ s.part.mcs ∧ (∀ x ∈ s.part.mcs, x.id = m.id → x = m) ∧
      10 * (s.time - m.since) < 16 * 2 ^ (m.ctl.toNat / 2 ^ 8 % 16) ∧ 10 * (s.time - m.since) < 2 ^ (m.ctl.toNat / 2 ^ 4 % 16 + 8)) ∧
    (∃ (o : Op) (recs dests : List Nat) (lines : List (Nat × List Byte)) (dest : Nat) (was : List Byte) (s : State), Safe s ∧ s.op? o.id = some o ∧
      o.job = .ldmc recs lines dest dests was [] ∧ (∀ l ∈ lines, l.2.length = 128) ∧ dest + 128 * lines.length ≤ 524288 ∧
      was.length = lines.length * (dests.length * 128) ∧ (∀ m ∈ s.part.mcs, m.id ∈ recs → m.merging = false) ∧
      was = (landing dest dests lines.length).flatMap fun k => s.bytes k 128) ∧
    (∃ (o : Op) (recs dests : List Nat) (lines : List (Nat × List Byte)) (dest : Nat) (was : List Byte) (s : State), Safe s ∧ s.op? o.id = some o ∧
      o.job = .ldmc recs lines dest dests was [] ∧ (∀ l ∈ lines, l.2.length = 128) ∧ dest + 128 * lines.length ≤ 524288 ∧
      was.length = lines.length * (dests.length * 128) ∧ ∃ m ∈ s.part.mcs, m.id ∈ recs ∧ m.merging = true) :=
  ⟨⟨4#7, 10#7, 0#3, 0#4, 32#12, 1#7, _, lab (.ldmc 4#7 10#7 0#3 0#4 32#12 1#7) [(4#7, 3#32), (10#7, 0x3080#32)], t0,
      ⟨solo_lab _ _, clear_of (by decide), by decide⟩, rfl, by decide, by decide, by decide, ok_got [] (by decide), by decide, rfl, by decide,
      by decide, by decide⟩,
    ⟨4#7, 10#7, 0#3, 0#4, 32#12, 1#7, _, lab (.ldmc 4#7 10#7 0#3 0#4 32#12 1#7) [(10#7, 0x3080#32)], t0,
      ⟨solo_lab _ _, clear_of (by decide), by decide⟩, rfl, by decide, by decide, by decide, ok_got [] (by decide), rfl, by decide,
      by decide, by decide⟩,
    ⟨labRec true 4590, recLab (labRec true 4590), .head _, by decide, by decide, by decide⟩,
    ⟨labRec true 4975, recLab (labRec true 4975), .head _, by decide, by decide, by decide⟩,
    ⟨labDelivery, _, _, _, _, _, opLab labDelivery, safe_of (by decide), rfl, rfl, by decide, by decide, by decide, nofun, by decide⟩,
    ⟨labDelivery, _, _, _, _, _, recLab (labRec true 4990), safe_of (by decide), rfl, rfl, by decide, by decide, by decide, _, .head _, by decide,
      rfl⟩⟩

def labSig (n nk : Nat) : Sig :=
  ⟨⟨8, 0, n⟩, 4#7, 0#4, 0#13, 0#8, BitVec.ofNat 4 nk, 0#1, 0#1, false, 0#3, List.replicate (16 * (nk + 1)) 1#32, 150 + n⟩
/-- A team with operand record 0 and register 0 valid over the set of group 0. -/
def sigLab (record : BitVec 64) (sigs : List Sig) : State :=
  withT (lab .nop []) fun x => { x with k := x.k.set 0 ⟨true, !sigs.isEmpty, 0, sigs, 0#9⟩, ob := x.ob.set 0 record }

/-- Hypotheses of a signature. -/
def AtSign (q : Bool) (b : VReg) (nk : BitVec 4) (atile : BitVec 8) (crow : BitVec 13) (s : State) (t : TId) : Prop :=
  let i : Instr := if q then .mmaq b 0#3 0#4 0#3 0#4 nk atile 0#1 0#1 crow else .mma b 0#3 0#4 0#3 0#4 nk atile 0#1 0#1 crow
  let x := s.tm t.team
  let r := x.kreg 0#3
  Issues s t i (i.names (s.gr t.gid).w) 0#3 ∧ (s.team? t.team).isSome = true ∧ (∀ g ∈ r.sigs, g.t ≠ t) ∧ r.valid = true ∧
    (∃ n < 4, quarter x r.g0.toNat n = t.group) ∧ recNt (x.obRec 0#4) ≠ 0 ∧ (recFmt (x.obRec 0#4) = 4 ↔ q = true) ∧
    atile.toNat + nk.toNat + 1 ≤ recNt (x.obRec 0#4) ∧ crow.toNat + 64 ≤ x.claim.accRows ∧
    landedRow s t.team (ciOf s t) crow.toNat 64 = none ∧ (s.th t).wcBuf = none

theorem wit_SigningResults :
    (∃ (k : BitVec 3) (a : VReg) (p : PReg) (s : State) (t : TId), Solo s t ∧ Clear s t (.kset k a p) [] [] ∧
      (s.team? t.team).isSome = true ∧ ∀ j ∈ matrixJobs s, j.2.team ≠ t.team ∨ j.2.k ≠ k) ∧
    (∃ (k : BitVec 3) (a : VReg) (p : PReg) (s : State) (t : TId), Solo s t ∧ Clear s t (.kset k a p) [] [] ∧
      (s.team? t.team).isSome = true ∧ (∀ j ∈ matrixJobs s, j.2.team ≠ t.team ∨ j.2.k ≠ k) ∧ ((s.tm t.team).kreg k).isOpen = false ∧
      ((s.th t).val a).toNat % 512 + 3 * max 1 (s.tm t.team).cores.length < ((s.tm t.team).threads + (s.tm t.team).w - 1) / (s.tm t.team).w) ∧
    (∃ b nk atile crow s t, AtSign false b nk atile crow s t ∧
      ∀ u ∈ s.threads, u.id.team = t.team → u.live = true → (∃ n < 4, quarter (s.tm t.team) ((s.tm t.team).kreg 0#3).g0.toNat n = u.id.group) →
        u.id = t ∨ ∃ g ∈ ((s.tm t.team).kreg 0#3).sigs, g.t = u.id) ∧
    (∃ b nk atile crow s t, AtSign true b nk atile crow s t) :=
  ⟨⟨0#3, 4#7, 1#3, lab .nop [], t0, solo_lab _ _, clear_of (by decide), rfl, nofun⟩,
    ⟨0#3, 4#7, 1#3, withT (lab .nop []) fun x => { x with threads := 64 }, t0, ⟨rfl, rfl, rfl⟩, clear_of (by decide), rfl, nofun, by decide,
      by decide⟩,
    ⟨4#7, 0#4, 0#8, 64#13, sigLab 0x100#64 [labSig 1 0], t0,
      ⟨⟨⟨rfl, rfl, rfl⟩, clear_of (by decide), by decide⟩, rfl, by decide, rfl, ⟨0, by decide⟩, by decide, by decide, by decide, by decide, by decide, rfl⟩,
      by decide⟩,
    ⟨4#7, 0#4, 0#8, 64#13, sigLab 0x8000000000000100#64 [labSig 1 0], t0,
      ⟨⟨⟨rfl, rfl, rfl⟩, clear_of (by decide), by decide⟩, rfl, by decide, rfl, ⟨0, by decide⟩, by decide, by decide, by decide, by decide, by decide, rfl⟩⟩⟩

def labJob (nk : Nat) : MatrixJob := ⟨8, 0#3, 0, 0#4, 0x200#64, 0, 0, nk, false, false, 0, [labSig 0 nk, labSig 1 nk], 0⟩
def jobLab (nk : Nat) : State :=
  withP (sigLab 0x200#64 []) fun p => { p with ops := [⟨160, 159, t0, none, none, none, 0, .matrix (labJob nk)⟩] }

theorem wit_MatrixOperations :
    (∃ (team : Nat) (k : BitVec 3) (g : Sig) (s : State), (s.team? team).isSome = true ∧ roundFull s team ((s.tm team).kreg k) = true ∧
      g ∈ ((s.tm team).kreg k).sigs ∧
      (∀ h ∈ ((s.tm team).kreg k).sigs, h ≠ g → g.t.group < h.t.group ∨ (g.t.group = h.t.group ∧ g.t.idx < h.t.idx)) ∧
      roundFits ((s.tm team).obRec g.ob) g = true) ∧
    (∃ (team : Nat) (k : BitVec 3) (g : Sig) (s : State), (s.team? team).isSome = true ∧ roundFull s team ((s.tm team).kreg k) = true ∧
      g ∈ ((s.tm team).kreg k).sigs ∧
      (∀ h ∈ ((s.tm team).kreg k).sigs, h ≠ g → g.t.group < h.t.group ∨ (g.t.group = h.t.group ∧ g.t.idx < h.t.idx)) ∧
      roundFits ((s.tm team).obRec g.ob) g = false) ∧
    ∀ nk < 2, ∃ (op : Nat) (j : MatrixJob) (s : State), Safe s ∧ (op, j) ∈ matrixJobs s ∧
      (matrixJobs s).find? (fun i => i.1 == op) = some (op, j) ∧
      (matrixJobs s).find? (fun i => teamHere s i.2.team && coreAt s i.2.team i.2.ci == coreAt s j.team j.ci) = some (op, j) ∧
      teamHere s j.team = true ∧ Undisturbed s j ∧ coreAt s j.team j.ci < 768 ∧ (s.tm j.team).claim.accBase + j.crow + 64 ≤ 8192 ∧ j.nk = nk :=
  ⟨⟨8, 0#3, labSig 0 0, sigLab 0x100#64 [labSig 1 0, labSig 0 0], rfl, by decide, by decide, by decide, by decide⟩,
    ⟨8, 0#3, labSig 0 0, sigLab 0x0#64 [labSig 1 0, labSig 0 0], rfl, by decide, by decide, by decide, by decide⟩,
    fun nk _ => ⟨160, labJob nk, jobLab nk, safe_of (by with_unfolding_all rfl), .head _, rfl, rfl, rfl, nofun,
      (show (0 : Nat) < 768 by decide), (show 128 + 0 + 64 ≤ 8192 by decide), rfl⟩⟩

/-- A box of two rows of two 32-bit elements, the third out of bounds. -/
def labElem (a : Nat) : ElemPlaces := ⟨[labPage a, labPage (a + 1), labPage (a + 2), labPage (a + 3)], 0⟩
def labCopy (counter : Place) (row : Nat) (st : Bool) : CopyJob :=
  ⟨counter, 0xFFFF, 2, row, st, 3, 2, [some (labElem 0x5000), some (labElem 0x5004), none, some (labElem 0x5010)], [labPage 0x6000], none, []⟩
def copyOp (counter : Place) (row : Nat) (st : Bool) : Op := ⟨150, 149, t0, some 1#3, none, none, 0, .copy (labCopy counter row st)⟩

theorem wit_MatrixControl :
    (∃ s t, Solo s t ∧ Clear s t .opfence [] [] ∧ ∃ o ∈ s.part.ops, o.t = t ∧ ∃ c lo hi, o.job = .obld c lo hi) ∧
    (∃ s t, Solo s t ∧ Clear s t .opfence [] [] ∧
      ∀ o ∈ s.part.ops, o.t = t → (∀ m v, o.job ≠ .obres m v) ∧ (∀ c lo hi, o.job ≠ .obld c lo hi) ∧ ∀ j, o.job ≠ .accld j) ∧
    (∃ (k : BitVec 3) (s : State) (t : TId), Solo s t ∧ Clear s t (.mwait k) [] [] ∧ ∃ o ∈ s.part.ops, o.t = t ∧ o.job = .sign k) ∧
    (∃ (d : VReg) (k : BitVec 3) (s : State) (t : TId), Solo s t ∧ Clear s t (.mprogMat d k) [] []) ∧
    (∃ (d : VReg) (s : State) (t : TId), Solo s t ∧ Clear s t (.mprogCopy d) [] [] ∧
      ∃ (o : Op) (c : CopyJob) (pre post : List Op), s.part.ops = pre ++ o :: post ∧ o.t = t ∧ o.job = .copy c ∧
        ∀ p ∈ pre, p.t = t → ∀ e, p.job ≠ .copy e) ∧
    (∃ (m : BitVec 4) (v : BitVec 64) (wc : BitVec 3) (i : Instr) (s : State) (t : TId), Issues s t i [] wc ∧
      (s.team? t.team).isSome = true ∧ ((∃ a la, i = .obres m a wc la ∧ v = (s.th t).val64 a) ∧ recBad v = false ∧
        (recBase v + recLen v) * 4096 ≤ (s.tm t.team).claim.obSize) ∧ ∀ j ∈ matrixJobs s, j.2.team ≠ t.team ∨ j.2.ob ≠ m) ∧
    (∃ (m : BitVec 4) (v : BitVec 64) (wc : BitVec 3) (i : Instr) (s : State) (t : TId), Issues s t i [] wc ∧
      (s.team? t.team).isSome = true ∧ (∃ la, i = .obrel m wc la ∧ v = (s.tm t.team).obRec m &&& 0xFFFFFFFFFFFF00FF#64) ∧
      ∃ j ∈ matrixJobs s, j.2.team = t.team ∧ j.2.ob = m) :=
  ⟨⟨opLab ⟨150, 149, t0, some 1#3, none, none, 0, .obld 0 0 32⟩, t0, ⟨rfl, rfl, rfl⟩, clear_of (by decide), _, .head _, rfl, _, _, _, rfl⟩,
    ⟨lab .nop [], t0, solo_lab _ _, clear_of (by decide), nofun⟩,
    ⟨7#3, opLab ⟨150, 149, t0, some 1#3, none, none, 0, .sign 7#3⟩, t0, ⟨rfl, rfl, rfl⟩, clear_of (by decide), _, .head _, rfl, rfl⟩,
    ⟨4#7, 7#3, lab .nop [], t0, solo_lab _ _, clear_of (by decide)⟩,
    ⟨4#7, opLab (copyOp (labPage 0x7008) 1 false), t0, ⟨rfl, rfl, rfl⟩, clear_of (by decide), _, _, [], [], rfl, rfl, rfl, nofun⟩,
    ⟨15#4, _, 0#3, .obres 15#4 10#7 0#3 0#4, lab .nop [(10#7, 0x100#32), (11#7, 0x40000#32)], t0, ⟨solo_lab _ _, clear_of (by decide), by decide⟩,
      rfl, ⟨⟨10#7, 0#4, rfl, rfl⟩, by decide, by decide⟩, nofun⟩,
    ⟨0#4, _, 0#3, .obrel 0#4 0#3 0#4, jobLab 0, t0, ⟨⟨rfl, rfl, rfl⟩, clear_of (by decide), by decide⟩, rfl, ⟨0#4, rfl, rfl⟩, _, .head _, rfl, rfl⟩⟩

theorem onCore_lab (i : Instr) (rs : List (VReg × Word)) (row n : Nat) (h : row + n ≤ 128) (l : landedRow (lab i rs) 8 0 row n = none) :
    OnCore (lab i rs) t0 row n := ⟨(show (0 : Nat) < 768 by decide), h, (show 128 + 128 ≤ 8192 by decide), l⟩

theorem wit_Obld : ∃ (ob : BitVec 4) (a : VReg) (wc : BitVec 3) (la : BitVec 4) (n doff : BitVec 14) (ps : List (BitVec 64 × Place))
    (s : State) (t : TId),
    Safe s ∧ Issues s t (.obld ob a wc la n doff) (pairOf a) wc ∧ recNt ((s.tm t.team).obRec ob) ≠ 0 ∧
    doff.toNat * 16 + n.toNat * 16 ≤ recLen ((s.tm t.team).obRec ob) * 4096 ∧ ((s.th t).val64 a).toNat % 16 = 0 ∧
    (piecePlaces (commandAgent s t) .load 16 (sectorsFrom ((s.th t).val64 a) (n.toNat * 16)) s).1 = .ok ps ∧
    (∀ x ∈ ps, orderBars s (commandAgent s t) x.2 = false ∧ Known x.2) ∧ Unhosted s t ∧ (s.th t).wcBuf = none ∧ Settled s ∧
    (∀ x < n.toNat * 16, obldUnder s t.team (ciOf s t) (recBase ((s.tm t.team).obRec ob) * 4096 + doff.toNat * 16 + x) = false) ∧
    AtHome (ps.map Prod.snd) ∧ s.part.windows = [] :=
  ⟨0#4, 10#7, 0#3, 0#4, 2#14, 1022#14, _, withT (lab .nop [(10#7, 0x3000#32)]) fun x => { x with ob := x.ob.set 0 0x0004000000000100#64 }, t0,
    safe_of (by decide), ⟨⟨rfl, rfl, rfl⟩, clear_of (by decide), by decide⟩, by decide, by decide, by decide, ok_got [] (by decide),
    free_of (by decide), rfl, rfl, settled_of (by decide) rfl, by decide, atHome_of (by decide), rfl⟩

theorem wit_RowCommands :
    (∃ (wc : BitVec 3) (la : BitVec 4) (n : BitVec 14) (row : BitVec 13) (s : State) (t : TId),
      Safe s ∧ Issues s t (.accz wc la n row) [] wc ∧ OnCore s t row.toNat n.toNat ∧ Calm s t row.toNat n.toNat ∧ Unhosted s t) ∧
    (∃ (a st : VReg) (wc : BitVec 3) (la : BitVec 4) (n : BitVec 7) (fmt : BitVec 3) (row : BitVec 13) (ps : List (BitVec 64 × Place))
      (s : State) (t : TId), Issues s t (.accld a st wc la n fmt row) (pairOf a ++ [st]) wc ∧ (Instr.accld a st wc la n fmt row).wf = true ∧
      OnCore s t row.toNat n.toNat ∧ Unhosted s t ∧ (s.th t).wcBuf = none ∧ ((s.th t).val64 a).toNat % 16 = 0 ∧ ((s.th t).val st).toNat % 16 = 0 ∧
      (piecePlaces (commandAgent s t) .load 16
        ((List.range n.toNat).flatMap fun r => sectorsFrom (memRowAt ((s.th t).val64 a) ((s.th t).val st) r) (memRow fmt.toNat)) s).1 = .ok ps ∧
      (∀ x ∈ ps, orderBars s (commandAgent s t) x.2 = false ∧ Known x.2) ∧ Settled s ∧ AtHome (ps.map Prod.snd)) ∧
    (∃ (a st : VReg) (wc : BitVec 3) (la : BitVec 4) (n : BitVec 7) (fmt : BitVec 3) (row : BitVec 13) (ps : List (BitVec 64 × Place))
      (s : State) (t : TId), Issues s t (.accst a st wc la n fmt row) (pairOf a ++ [st]) wc ∧ (Instr.accst a st wc la n fmt row).wf = true ∧
      OnCore s t row.toNat n.toNat ∧ Unhosted s t ∧ (s.th t).wcBuf = none ∧ ((s.th t).val64 a).toNat % 16 = 0 ∧ ((s.th t).val st).toNat % 16 = 0 ∧
      (piecePlaces (commandAgent s t) .store 16
        ((List.range n.toNat).flatMap fun r => sectorsFrom (memRowAt ((s.th t).val64 a) ((s.th t).val st) r) (memRow fmt.toNat)) s).1 = .ok ps ∧
      (∀ x ∈ ps, orderBars s (commandAgent s t) x.2 = false) ∧ engineBlocked s (commandAgent s t) (ps.map Prod.snd) = none ∧
      Calm s t row.toNat n.toNat) ∧
    (∃ (d a : VReg) (wc : BitVec 3) (la : BitVec 4) (s : State) (t : TId), Issues s t (.accrd d a wc la) [] wc ∧
      badRow s t.team (ciOf s t) (((s.th t).val a).toNat % 2 ^ 19 / 64) 1 = none ∧
      Calm s t (((s.th t).val a).toNat % 2 ^ 19 / 64) 1) :=
  ⟨⟨0#3, 0#4, 2#14, 126#13, lab .nop [], t0, safe_lab _ _, ⟨solo_lab _ _, clear_of (by decide), by decide⟩,
      onCore_lab _ _ _ _ (by decide) (by decide), calm_of rfl (by decide), rfl⟩,
    ⟨10#7, 12#7, 0#3, 0#4, 2#7, 2#3, 126#13, _, lab .nop [(10#7, 0x3000#32), (12#7, 0xFFFFFF80#32)], t0,
      ⟨solo_lab _ _, clear_of (by decide), by decide⟩, by decide, onCore_lab _ _ _ _ (by decide) (by decide), rfl, rfl, by decide,
      by decide, ok_got [] (by decide), free_of (by decide), settled_of (by decide) rfl, atHome_of (by decide)⟩,
    ⟨10#7, 12#7, 0#3, 0#4, 1#7, 3#3, 127#13, [(0x3000#64, labPage 0x3000), (0x3010#64, labPage 0x3010), (0x3020#64, labPage 0x3020),
        (0x3030#64, labPage 0x3030)], lab .nop [(10#7, 0x3000#32)], t0,
      ⟨solo_lab _ _, clear_of (by decide), by decide⟩, by decide, onCore_lab _ _ _ _ (by decide) (by decide), rfl, rfl,
      by decide, by decide, ok_of (by decide), by decide, by decide, calm_of rfl (by decide)⟩,
    ⟨4#7, 5#7, 0#3, 0#4, lab .nop [(5#7, 8191#32)], t0, ⟨solo_lab _ _, clear_of (by decide), by decide⟩, by decide, calm_of rfl (by decide)⟩⟩

/-- An accumulator command under way: one row, its memory at 0x3000. -/
def labAcc (fmt k n : Nat) : AccJob :=
  ⟨(List.range k).map fun i => labPage (0x3000 + 16 * i), 0, 1, fmt, 0#32, List.replicate n 0#8, [], []⟩
def accOp (j : Job) : Op := ⟨150, 149, t0, some 1#3, none, none, 0, j⟩

theorem wit_RowMoves :
    (∃ (o : Op) (j : AccJob) (s : State), s.op? o.id = some o ∧ o.job = .accld j ∧ accAway s o = false ∧
      coreAt s o.t.team (ciOf s o.t) < 768 ∧ (s.tm o.t.team).claim.accBase + j.row + j.n ≤ 8192 ∧ j.places.length * 16 = j.n * memRow j.fmt ∧
      j.was = sectorBytes s o.t (j.places.map fun p => (0#64, p)) ∧ j.rows = [] ∧ Calm s o.t j.row j.n ∧ AtHome j.places) ∧
    (∃ (o : Op) (j : AccJob) (s : State), s.op? o.id = some o ∧ o.job = .accst j ∧ accAway s o = false ∧ accBlocked s o = none ∧ Settled s ∧
      j.fmt < 5 ∧ j.places.length * 16 = j.n * memRow j.fmt ∧
      j.was = ((List.range j.n).map fun r => rowWords s o.t.team (ciOf s o.t) (j.row + r)).flatMap bytesOf ∧
      (∀ pl ∈ j.places, ∃ p, pl = .page p ∧ p.mt = 0 ∧ p.kind = 0 ∧ p.pa % 16 = 0 ∧ physRange p.pa ≠ .sys) ∧ (j.places.map placeKey).Nodup ∧
      j.rivals = [] ∧ Calm s o.t j.row j.n) :=
  ⟨⟨accOp (.accld (labAcc 2 8 128)), _, opLab (accOp (.accld (labAcc 2 8 128))), rfl, rfl, by decide, (show (0 : Nat) < 768 by decide),
      (show 128 + 0 + 1 ≤ 8192 by decide), by decide, by decide, rfl, calm_of rfl (by decide), atHome_of (by decide)⟩,
    ⟨accOp (.accst (labAcc 3 4 256)), labAcc 3 4 256, opLab (accOp (.accst (labAcc 3 4 256))), rfl, rfl, by decide, by decide,
      settled_of (by decide) rfl, by decide, by decide, by decide, by
        intro pl h
        simp only [labAcc, List.mem_map, List.mem_range] at h
        obtain ⟨i, k, rfl⟩ := h
        exact ⟨_, rfl, rfl, rfl, by simp only; omega, by have : i = 0 ∨ i = 1 ∨ i = 2 ∨ i = 3 := by omega
                                                         rcases this with rfl | rfl | rfl | rfl <;> decide⟩, by decide, rfl, calm_of rfl (by decide)⟩⟩

/-- A chain of a team on cores 0 and 1: its receiver on core 1, its one sender core 0. -/
def labChain (sent added : List Nat) : Chain := ⟨1, 0, 0#8, false, false, 1, 0, 1, [0], 8, 1, [], [some 0], sent, added, added, false⟩
def chainLab (c : Chain) (ops : List Op) : State :=
  withP (withT (lab .nop [(4#7, 0x80000000#32), (5#7, 0x10005#32)]) fun x => { x with cores := [0, 1] }) fun p => { p with chains := [c], ops := ops }

theorem wit_Achain :
    (∃ (d a : VReg) (wc : BitVec 3) (la : BitVec 4) (ps : List (BitVec 64 × Place)) (s : State) (t : TId),
      Issues s t (.achain d a wc la) (pairOf a) wc ∧ (s.th t).wcBuf = none ∧ Settled s ∧ ((s.th t).val64 a).toNat % 32 = 0 ∧
      (piecePlaces (commandAgent s t) .load 16 (sectorsFrom ((s.th t).val64 a) 32) s).1 = .ok ps ∧
      (∀ x ∈ ps, orderBars s (commandAgent s t) x.2 = false ∧ Known x.2) ∧ chainStatus s t (sectorBytes s t ps) = .error 1) ∧
    (∃ (d a : VReg) (wc : BitVec 3) (la : BitVec 4) (ps : List (BitVec 64 × Place)) (s : State) (t : TId),
      Issues s t (.achain d a wc la) (pairOf a) wc ∧ (s.th t).wcBuf = none ∧ Settled s ∧ ((s.th t).val64 a).toNat % 32 = 0 ∧
      (piecePlaces (commandAgent s t) .load 16 (sectorsFrom ((s.th t).val64 a) 32) s).1 = .ok ps ∧
      (∀ x ∈ ps, orderBars s (commandAgent s t) x.2 = false ∧ Known x.2) ∧ (match chainStatus s t (sectorBytes s t ps) with
        | .ok _ => true
        | .error _ => false) = true) :=
  ⟨⟨4#7, 10#7, 0#3, 0#4, [(0x3000#64, labPage 0x3000), (0x3010#64, labPage 0x3010)], lab .nop [(10#7, 0x3000#32)], t0,
      ⟨solo_lab _ _, clear_of (by decide), by decide⟩, rfl, settled_of (by decide) rfl, by decide, ok_of (by decide), free_of (by decide),
      err_of (by decide)⟩,
    ⟨4#7, 10#7, 0#3, 0#4, [(0x3000#64, labPage 0x3000), (0x3010#64, labPage 0x3010)],
      let s := lab .nop [(10#7, 0x3000#32)]
      { s with mem := Memory.setAll s.mem (cells 0x3000 ([1#8, 0#8, 1#8, 1#8, 0#8, 0#8, 1#8, 0#8] ++ List.replicate 8 0#8 ++ 1#8 ::
        List.replicate 14 0xFF#8 ++ [0#8])) }, t0,
      ⟨⟨rfl, rfl, rfl⟩, clear_of (by decide), by decide⟩, rfl, settled_of (by decide) rfl, by decide, ok_of (by decide), free_of (by decide), by decide⟩⟩

theorem wit_ChainResults :
    (∃ (h r : VReg) (wc : BitVec 3) (la : BitVec 4) (c : Chain) (s : State) (t : TId),
      let w := (s.th t).val r
      let rank := w.toNat / 2 ^ 16 % 16
      let row := w.toNat % 2 ^ 13
      Issues s t (.asend h r wc la) [h, r] wc ∧ (s.th t).wcBuf = none ∧ Names s t ((s.th t).val h) c ∧ chainDown s c = false ∧ rank ≠ 0 ∧
      w &&& 0xFFF0E000#32 = 0#32 ∧ badRow s t.team (ciOf s t) row c.nr = none ∧ rank ≤ c.senders.length ∧ rank ∉ c.sent ∧
      (∀ b, c.bound.find? (fun b => b.1 == rank) = some b → b.2.1 = t.team ∧ b.2.2 = ciOf s t) ∧
      (c.bound.find? (fun b => b.1 == rank) = none → rankCore s c rank = coreAt s t.team (ciOf s t)) ∧
      Calm s t row c.nr) ∧
    (∃ (o : Op) (rank : Nat) (rows : List (List Word)) (c : Chain) (s : State), Safe s ∧ s.op? o.id = some o ∧
      o.job = .asend c.ctx c.num rank rows ∧ s.chain? c.ctx c.num = some c ∧
      (∀ d ∈ s.part.chains, d.ctx = c.ctx → d.num = c.num → d = c) ∧ o.dlv = none ∧
      rows.length = c.nr ∧ (∀ ws ∈ rows, ws.length = 64) ∧ 1 ≤ rank ∧ rank ≤ c.senders.length ∧ c.senders.length ≤ 15 ∧ rank ∉ c.added ∧
      NoneDue c ∧ c.awaited = false ∧ coreAt s c.team c.ci < 768 ∧
      (s.tm c.team).claim.accBase + c.lrow + c.senders.length * c.nr ≤ 8192 ∧ (s.tm c.team).claim.accBase + c.trow + c.nr ≤ 8192 ∧
      rangesMeet c.trow c.nr c.lrow (c.senders.length * c.nr) = false ∧ s.part.windows = []) ∧
    (∃ (h : VReg) (wc : BitVec 3) (i : Instr) (fin : Option Bool) (c : Chain) (s : State) (t : TId), Issues s t i [] wc ∧
      Names s t ((s.th t).val h) c ∧ c.team = t.team ∧ chainDown s c = false ∧ NoneDue c ∧
      (∃ la, (i = .await h wc la ∧ fin = none) ∨ ∃ e, i = .arel h wc e la ∧ fin = some (e == 1#1)) ∧
      (∀ o ∈ s.part.ops, o.tok < s.nextId ∧ o.job ≠ .await c.ctx c.num ∧ o.job ≠ .arel c.ctx c.num true ∧ o.job ≠ .arel c.ctx c.num false) ∧
      c.added.length ≠ c.senders.length) ∧
    (∃ (h : VReg) (wc : BitVec 3) (i : Instr) (fin : Option Bool) (c : Chain) (s : State) (t : TId), Issues s t i [] wc ∧
      Names s t ((s.th t).val h) c ∧ c.team = t.team ∧ chainDown s c = false ∧ NoneDue c ∧
      (∃ la, (i = .await h wc la ∧ fin = none) ∨ ∃ e, i = .arel h wc e la ∧ fin = some (e == 1#1)) ∧
      (∀ o ∈ s.part.ops, o.tok < s.nextId ∧ o.job ≠ .await c.ctx c.num ∧ o.job ≠ .arel c.ctx c.num true ∧ o.job ≠ .arel c.ctx c.num false) ∧
      c.added.length = c.senders.length) :=
  ⟨⟨4#7, 5#7, 0#3, 0#4, labChain [] [], chainLab (labChain [] []) [], t0, ⟨⟨rfl, rfl, rfl⟩, clear_of (by decide), by decide⟩, rfl,
      ⟨by decide, by decide⟩, by decide, by decide, by decide, by decide, by decide, nofun, nofun, by decide, calm_of rfl (by decide)⟩,
    ⟨⟨150, 149, t0, some 1#3, none, none, 0, .asend 1 0 1 [List.replicate 64 1#32]⟩, 1, _, labChain [1] [],
      chainLab (labChain [1] []) [⟨150, 149, t0, some 1#3, none, none, 0, .asend 1 0 1 [List.replicate 64 1#32]⟩], safe_of (by decide), rfl, rfl,
      by decide, by decide, rfl, rfl, by decide, by decide, by decide, by decide, nofun, nofun, rfl, by decide, by decide, by decide, by decide, rfl⟩,
    ⟨4#7, 0#3, .await 4#7 0#3 0#4, none, labChain [1] [], chainLab (labChain [1] []) [], t0, ⟨⟨rfl, rfl, rfl⟩, clear_of (by decide), by decide⟩,
      ⟨by decide, by decide⟩, rfl, by decide, nofun, ⟨_, .inl ⟨rfl, rfl⟩⟩, nofun, by decide⟩,
    ⟨4#7, 0#3, .arel 4#7 0#3 1#1 0#4, some true, labChain [1] [1], chainLab (labChain [1] [1]) [], t0,
      ⟨⟨rfl, rfl, rfl⟩, clear_of (by decide), by decide⟩, ⟨by decide, by decide⟩, rfl, by decide, fun _ h => h, ⟨0#4, .inr ⟨1#1, rfl, rfl⟩⟩, nofun,
      by decide⟩⟩

/-! ## The tile streamer and collectives -/

/-- A layout record: rank 1, elements of 32 bits from 0x5000, four of them 4 bytes apart, a box of two. -/
def labRecord : List Byte :=
  [1#8, 0#8, 1#8, 3#8] ++ leBytes 4 0 ++ leBytes 8 0x5000 ++ [4, 1, 1, 1, 1, 0].flatMap (leBytes 4) ++ [4, 0, 0, 0, 0].flatMap (leBytes 8) ++
    [2, 1, 1, 1, 1, 0].flatMap (leBytes 2)


/-- The same record with a second dimension of four, 16 bytes apart, and a box of two by two. -/
def labRecord2 : List Byte :=
  [1#8, 0#8, 2#8, 3#8] ++ leBytes 4 0 ++ leBytes 8 0x5000 ++ [4, 4, 1, 1, 1, 0].flatMap (leBytes 4) ++
    [4, 16, 0, 0, 0].flatMap (leBytes 8) ++ [2, 2, 1, 1, 1, 0].flatMap (leBytes 2)

/-- The lab with bytes at 0x3000, and with translations of every issuer of core 0 cached. -/
def memLab (i : Instr) (rs : List (VReg × Word)) (bs : List Byte) : State :=
  let s := lab i rs
  { s with mem := Memory.setAll s.mem (cells 0x3000 bs) }
def copyRegs : List (VReg × Word) := [(4#7, 0x3000#32), (6#7, 0x6000#32), (8#7, 0x7008#32), (10#7, 3#32), (15#7, 0x3060#32)]

/-- A decidable form of CopySees. -/
theorem copySees_of {s : State} {t : TId} {c : VReg} {gather st : Bool} {ps xs ts bs : List (BitVec 64 × Place)} {cp : Place}
    (aligned : copyMisaligned (copyArgs (s.th t) c gather) = none) :
    let a := engineOf s t
    let g := copyArgs (s.th t) c gather
    let r := ps.flatMap fun x => placeBytes s a x.2 16
    let l := layoutOf r
    let q0 := piecePlaces a .load 16 (sectorsFrom g.record 96) s
    let s1 := s.applyAll (q0.2 ++ usedPlaces s a (ps.map Prod.snd))
    let q1 := piecePlaces a .load 4 ((g.list.map fun x => steppedFrom x 4 (l.boxes.getD 1 0)).getD []) s1
    let s2 := s1.applyAll (q1.2 ++ usedPlaces s1 a (xs.map Prod.snd))
    let es := boxElems l g.coords (g.list.map fun _ => xs.map fun x => signedOf 4 (leNat (placeBytes s a x.2 4)))
    let q2 := piecePlaces a (if st then .store else .load) 1
      (es.flatMap fun e => ((e.map fun x => steppedFrom (BitVec.ofInt 64 x.1) 1 l.bytes).getD [])) s2
    let s3 := s2.applyAll q2.2
    let q3 := pieceList a (if st then .load else .store) (bufPieces g.buf (l.count * l.bits / 8)) s3
    okB q0.1 ps = true → layoutSealed r = true → layoutValid r = true → (gather = true → 2 ≤ l.rank) → okB q1.1 xs = true →
    rangeBad l es g.buf.toNat = none → okB q2.1 ts = true → okB q3.1 bs = true →
    okB (translate (s3.applyAll q3.2) a .atomic g.count 8).1 cp = true → sideCan .atom 0 cp 0 = true →
    ((ps ++ xs).all fun x => !orderBars s a x.2 && knownB x.2) = true → (∀ x ∈ ts ++ bs, orderBars s a x.2 = false) → orderBars s a cp = false → CopySees s t c gather st l es ts bs cp := by
  intro a g r l q0 s1 q1 s2 es q2 s3 q3 h0 hs hv hr h1 hg h2 h3 h4 hc hq ho hp
  exact ⟨aligned, ⟨ps, xs, _, _, _, _, _, okp_of h0, rfl, hs, hv, hr, okp_of h1, rfl, hg, okp_of h2, okp_of h3, okp_of h4, free_of hq⟩, hc, ho, hp⟩

/-- The places of the pieces of `n` bytes from an address of the lab. -/
def labPieces (n : Nat) (vas : List Nat) : List (BitVec 64 × Place) := vas.map fun a => (BitVec.ofNat 64 a, labPage (a / n * n))
def recordPlaces : List (BitVec 64 × Place) := labPieces 1 [0x3000, 0x3010, 0x3020, 0x3030, 0x3040, 0x3050]

theorem wit_CopyLoad : ∃ c q wc st la inc gather l es ts bs cp s t,
    let i : Instr := if gather then .copyg c q wc st la inc else .copy c q wc st la inc
    Issues s t i (copyReads c gather) wc ∧ (s.th t).wcBuf = none ∧ Settled s ∧ CopySees s t c gather (st == 1#1) l es ts bs cp ∧ Unhosted s t ∧
      st = 0#1 ∧ none ∈ es :=
  ⟨4#7, 20#7, 0#3, 0#1, 0#4, 1#16, false, _, _, labPieces 1 [0x500C, 0x500D, 0x500E, 0x500F], labPieces 1 [0x6000], labPage 0x7008,
    memLab (.copy 4#7 20#7 0#3 0#1 0#4 1#16) copyRegs (labRecord ++ [244#8, 166#8, 164#8, 61#8]), t0,
    ⟨⟨rfl, rfl, rfl⟩, clear_of (by decide), by decide⟩, rfl, settled_of (by decide) rfl,
    copySees_of (ps := recordPlaces) (xs := []) (by decide) (by decide) (by decide) (by decide) nofun (by decide) (by decide)
      (by decide) (by decide) (by decide) (by decide) (by decide) (by decide) (by decide),
    rfl, rfl, by decide⟩

theorem wit_CopyStore : ∃ c q wc st la inc gather l es ts bs cp s t,
    let i : Instr := if gather then .copyg c q wc st la inc else .copy c q wc st la inc
    Issues s t i (copyReads c gather) wc ∧ (s.th t).wcBuf = none ∧ Settled s ∧ CopySees s t c gather (st == 1#1) l es ts bs cp ∧ st = 1#1 ∧
      gather = true ∧ ts ≠ [] :=
  ⟨4#7, 20#7, 0#3, 1#1, 0#4, 1#16, true, _, _,
    labPieces 1 [0x500C, 0x500D, 0x500E, 0x500F], labPieces 1 [0x6000], labPage 0x7008,
    memLab (.copyg 4#7 20#7 0#3 1#1 0#4 1#16) copyRegs (labRecord2 ++ [136#8, 114#8, 248#8, 220#8] ++ leBytes 4 0 ++
      leBytes 4 0xFFFFFFFF), t0,
    ⟨⟨rfl, rfl, rfl⟩, clear_of (by decide), by decide⟩, rfl, settled_of (by decide) rfl,
    copySees_of (ps := recordPlaces) (xs := labPieces 1 [0x3060, 0x3064]) (by decide) (by decide) (by decide) (by decide) (by decide) (by decide)
      (by decide) (by decide) (by decide) (by decide) (by decide) (by decide) (by decide) (by decide),
    rfl, rfl, by decide⟩

def plainB : Place → Bool
  | .scr _ _ => true
  | .tib _ => false
  | .page p => p.mt == 0 && p.kind == 0 && physRange p.pa != .sys
theorem plain_of {pl : Place} (h : plainB pl = true) : Plain pl := by
  cases pl <;> simp_all [plainB, Plain]

theorem moves_of {o : Op} {c : CopyJob} {s : State} (op : s.op? o.id = some o) (job : o.job = .copy c) (here : teamHere s o.t.team = true)
    (left : c.row < c.rows) (placed : ∀ p ∈ c.places, p.away = false)
    (free : engineBlocked s (engineOf s o.t) ((c.pieces c.row (List.replicate c.per 0)).map BoxPiece.place) = none)
    (plain : ((c.pieces c.row (List.replicate c.per 0)).all fun x => plainB x.place) = true)
    (apart : ((c.pieces c.row (List.replicate c.per 0)).flatMap BoxPiece.halves).Nodup)
    (fresh : ∀ x ∈ c.pieces c.row (List.replicate c.per 0), ∀ h ∈ x.halves, h ∉ (c.written c.row ++ c.rivals).map halfKey)
    (alone : c.vals = none) (even : c.esize ≠ 0 ∨ c.per % 2 = 0) (inside : (c.row + 1) * c.per ≤ c.elems.length) : RowMoves s o c :=
  ⟨op, job, here, left, placed, free, fun x h => plain_of (List.all_eq_true.mp plain x h), apart, fresh, alone, even, inside⟩

theorem wit_CopyRow :
    (∃ (o : Op) (c : CopyJob) (s : State), Settled s ∧ RowMoves s o c ∧ c.st = false ∧ c.row = 1) ∧
    (∃ (o : Op) (c : CopyJob) (s : State), Settled s ∧ RowMoves s o c ∧ c.st = true ∧ ∃ k e, k < c.per ∧
      c.elems[c.row * c.per + k]? = some (some e) ∧ e.places.length = elemBytes c.esize ∧ e.nibble < 2) :=
  ⟨⟨copyOp (labPage 0x7008) 1 false, _, opLab (copyOp (labPage 0x7008) 1 false), settled_of (by decide) rfl,
      moves_of rfl rfl rfl (by decide) (by decide) (by decide) (by decide) (by decide) (by decide) rfl (by decide) (by decide), rfl, rfl⟩,
    ⟨copyOp (labPage 0x7008) 1 true, _, opLab (copyOp (labPage 0x7008) 1 true), settled_of (by decide) rfl,
      moves_of rfl rfl rfl (by decide) (by decide) (by decide) (by decide) (by decide) (by decide) rfl (by decide) (by decide), rfl,
      1, _, by decide, rfl, by decide, by decide⟩⟩

theorem wit_CopyComplete :
    (∃ (o : Op) (c : CopyJob) (s : State), s.op? o.id = some o ∧ o.job = .copy c ∧ teamHere s o.t.team = true ∧ c.rows ≤ c.row ∧
      c.counter.away = false ∧ placeKey c.counter % 8 = 0 ∧ Writable s o.t c.counter 0 ∧ Settled s) ∧
    (∃ (o : Op) (c : CopyJob) (k ci off : Nat) (s : State), s.op? o.id = some o ∧ o.job = .copy c ∧ teamHere s o.t.team = true ∧
      c.rows ≤ c.row ∧ c.counter = .scr (awayCore k ci) off ∧ ci < 4 ∧ (s.team? k).isSome = true) ∧
    (∃ (o : Op) (c : CopyJob) (s : State), s.op? o.id = some o ∧ o.job = .copy c ∧ teamWorks s o.t.team = false) :=
  ⟨⟨copyOp (labPage 0x7008) 2 false, _, opLab (copyOp (labPage 0x7008) 2 false), rfl, rfl, rfl, by decide, rfl, by decide,
      writable_page _ _ _ _ (by decide), settled_of (by decide) rfl⟩,
    ⟨copyOp (.scr (awayCore 9 0) 16) 2 false, _, 9, 0, 16,
      let s := opLab (copyOp (.scr (awayCore 9 0) 16) 2 false)
      { s with teams := s.teams ++ [{ labTeam with key := 9, res := .saved }] }, rfl, rfl, rfl, by decide, rfl, by decide, rfl⟩,
    ⟨copyOp (labPage 0x7008) 2 false, _, withT (opLab (copyOp (labPage 0x7008) 2 false)) fun x => { x with res := .preempted }, rfl, rfl,
      by decide⟩⟩

theorem wit_Seal : ∃ (d r : VReg) (wc : BitVec 3) (la : BitVec 4) (ps ds : List (BitVec 64 × Place)) (us vs : List Upd) (s : State) (t : TId),
    Issues s t (.sealLayout d r wc la) (pairOf d ++ pairOf r) wc ∧ Unhosted s t ∧ (s.th t).wcBuf = none ∧ Settled s ∧
    ((s.th t).val64 d).toNat % 32 = 0 ∧ ((s.th t).val64 r).toNat % 32 = 0 ∧
    pagePlaces (engineOf s t) .load (steppedFrom ((s.th t).val64 r) 4 23) s = (.ok ps, us) ∧
    layoutValid (ps.flatMap fun x => placeBytes s (engineOf s t) x.2 4) = true ∧
    pagePlaces (engineOf s t) .store (steppedFrom ((s.th t).val64 d) 4 24) (s.applyAll (us ++ usedPlaces s (engineOf s t) (ps.map Prod.snd))) = (.ok ds, vs) ∧
    (∀ x ∈ ps ++ ds, orderBars s (engineOf s t) x.2 = false) ∧ (∀ x ∈ ps, Known x.2) ∧ engineBlocked s (engineOf s t) (ds.map Prod.snd) = none ∧
    (∀ x ∈ ds, Plain x.2) ∧ Apart 4 (ds.map Prod.snd) :=
  ⟨4#7, 6#7, 0#3, 0#4, labPieces 1 ((List.range 23).map fun i => 0x3000 + 4 * i), labPieces 1 ((List.range 24).map fun i => 0x6000 + 4 * i), _, _,
    memLab (.sealLayout 4#7 6#7 0#3 0#4) [(4#7, 0x6000#32), (6#7, 0x3000#32)] labRecord, t0, ⟨⟨rfl, rfl, rfl⟩, clear_of (by decide), by decide⟩,
    rfl, rfl, settled_of (by decide) rfl, by decide, by decide, okp_of (by decide), by decide, okp_of (by decide), by decide,
    fun x h => known_of (List.all_eq_true.mp (show (labPieces 1 ((List.range 23).map fun i => 0x3000 + 4 * i)).all (fun x => knownB x.2) = true by decide) x h),
    by decide, by intro x h; simp only [labPieces, List.mem_map] at h; obtain ⟨a, ⟨i, hi, rfl⟩, rfl⟩ := h; rw [List.mem_range] at hi; exact ⟨rfl, rfl, by simp only [Nat.div_one, Nat.mul_one]; interval_cases i <;> decide⟩,
    by unfold Apart; decide⟩

/-! Groups of the lab's context: members are the lab's two threads. -/

def labColl (num nm : Nat) (members : List (Nat × TId)) (ops : List CollOp) : CollGroup :=
  ⟨1, num, 0#8, 0x55#64, nm, [], members, decide (members.length = nm), false, 0, ops⟩
/-- The lab at a collective instruction whose descriptor holds these fields. -/
def collLab (f : List (Nat × Nat)) (colls : List CollGroup) : State :=
  let s := lab .nop [(4#7, 0x80000000#32), (10#7, 0x3000#32)]
  { s with mem := Memory.setAll s.mem (f.flatMap fun x => cells (0x3000 + x.1) (leBytes 4 x.2))
           part := { s.part with colls := colls, tlb := [⟨0, 7#16, 2, 0, 0x3F#64⟩] } }
def descPlaces : List (BitVec 64 × Place) := [(0x3000#64, labPage 0x3000), (0x3010#64, labPage 0x3010)]

/-- What the clauses of CGRP share, with the descriptor's fields `nm` and `rank`. -/
def AtCgrp (s : State) (nm rank key : Nat) : Prop :=
  Issues s t0 (.cgrp 5#7 10#7 0#3 0#4) (pairOf 10#7) 0#3 ∧ (s.th t0).wcBuf = none ∧ Settled s ∧ ((s.th t0).val64 10#7).toNat % 32 = 0 ∧
    (piecePlaces (commandAgent s t0) .load 16 (sectorsFrom ((s.th t0).val64 10#7) 32) s).1 = .ok descPlaces ∧
    (∀ x ∈ descPlaces, orderBars s (commandAgent s t0) x.2 = false ∧ Known x.2) ∧
    let bs := sectorBytes s t0 descPlaces
    fieldAt bs 16 8 = 0 ∧ fieldAt bs 12 4 = 0 ∧ fieldAt bs 24 8 = 0 ∧ fieldAt bs 8 2 = nm ∧ fieldAt bs 10 2 = rank ∧ fieldAt bs 0 8 = key
theorem atCgrp_of {s : State} {nm rank key : Nat}
    (h : (soloB s t0 && clearB s t0 (.cgrp 5#7 10#7 0#3 0#4) (pairOf 10#7) [] && (s.gr t0.gid).counter 0#3 != 63#6 &&
      (s.th t0).wcBuf.isNone && safeB s && s.part.l2.isEmpty && ((s.th t0).val64 10#7).toNat % 32 == 0 &&
      okB (piecePlaces (commandAgent s t0) .load 16 (sectorsFrom ((s.th t0).val64 10#7) 32) s).1 descPlaces &&
      descPlaces.all (fun x => !orderBars s (commandAgent s t0) x.2 && knownB x.2) &&
      (let bs := sectorBytes s t0 descPlaces
       decide (fieldAt bs 16 8 = 0 ∧ fieldAt bs 12 4 = 0 ∧ fieldAt bs 24 8 = 0 ∧ fieldAt bs 8 2 = nm ∧ fieldAt bs 10 2 = rank ∧
        fieldAt bs 0 8 = key))) = true) : AtCgrp s nm rank key := by
  have f := h
  simp only [Bool.and_eq_true] at f
  replace f := f.1.2
  simp only [Bool.and_eq_true, bne_iff_ne, beq_iff_eq, decide_eq_true_eq, Option.isNone_iff_eq_none, List.isEmpty_iff] at h
  obtain ⟨⟨⟨⟨⟨⟨⟨⟨⟨a, b⟩, c⟩, w⟩, u⟩, v⟩, d⟩, e⟩, -⟩, g⟩ := h
  exact ⟨⟨solo_of a, clear_of b, c⟩, w, settled_of u v, d, ok_of e, free_of f, g⟩

theorem wit_CollectiveGroups :
    (∃ s, Issues s t0 (.cgrp 5#7 10#7 0#3 0#4) (pairOf 10#7) 0#3 ∧ (s.th t0).wcBuf = none ∧ Settled s ∧
      fieldAt (sectorBytes s t0 descPlaces) 12 4 ≠ 0 ∧ (∀ x ∈ descPlaces, orderBars s (commandAgent s t0) x.2 = false ∧ Known x.2) ∧
      (piecePlaces (commandAgent s t0) .load 16 (sectorsFrom ((s.th t0).val64 10#7) 32) s).1 = .ok descPlaces) ∧
    (∃ s, AtCgrp s 4097 0 0x55) ∧
    (∃ s, AtCgrp s 4096 4095 0x55 ∧ (∀ g ∈ s.part.colls, g.ctx = ctxNum s t0.team → g.key ≠ 0x55#64) ∧ ∃ n < 256, s.coll? (ctxNum s t0.team) n = none) ∧
    (∃ s, AtCgrp s 2 1 0x56 ∧ (∀ g ∈ s.part.colls, g.ctx = ctxNum s t0.team → g.key ≠ 0x56#64) ∧ ∀ n < 256, s.coll? (ctxNum s t0.team) n ≠ none) ∧
    (∃ s g, AtCgrp s 2 1 0x55 ∧ s.part.colls.find? (fun g => g.ctx == ctxNum s t0.team && g.key == 0x55#64) = some g ∧ g.num < 256 ∧
      (∀ e ∈ s.part.colls, e.ctx = ctxNum s t0.team → e.num = g.num → e = g) ∧ (g.nm ≠ 2 ∨ ∃ m ∈ g.members, m.1 = 1)) ∧
    (∃ s g, AtCgrp s 2 1 0x55 ∧ s.part.colls.find? (fun g => g.ctx == ctxNum s t0.team && g.key == 0x55#64) = some g ∧ g.num < 256 ∧
      (∀ e ∈ s.part.colls, e.ctx = ctxNum s t0.team → e.num = g.num → e = g) ∧ g.nm = 2 ∧ (∀ m ∈ g.members, m.1 ≠ 1) ∧
      g.members.length + 1 = 2) ∧
    (∃ s g, Issues s t0 (.cgrpEnd 4#7 0#3 0#4) [] 0#3 ∧ groupOfHandle s t0 ((s.th t0).val 4#7) = some g ∧
      ∀ o ∈ g.ops, ∀ pl, o.statAt = some pl → Plain pl ∧ pl.away = false) :=
  ⟨⟨collLab [(12, 1)] [], ⟨⟨rfl, rfl, rfl⟩, clear_of (by decide), by decide⟩, rfl, settled_of (by decide) rfl, by decide, free_of (by decide), ok_of (by decide)⟩,
    ⟨collLab [(0, 0x55), (8, 4097)] [], atCgrp_of (by decide)⟩,
    ⟨collLab [(0, 0x55), (8, 0x0FFF1000)] [], atCgrp_of (by decide), nofun, 255, by decide⟩,
    ⟨collLab [(0, 0x56), (8, 0x10002)] ((List.range 256).map fun n => labColl n 2 [] []), atCgrp_of (by decide),
      by intro g h; simp only [collLab, List.mem_map] at h; obtain ⟨n, -, rfl⟩ := h; intro _; simp [labColl], by decide⟩,
    ⟨collLab [(0, 0x55), (8, 0x10002)] [labColl 255 2 [(1, ⟨8, 0, 1⟩)] []], _, atCgrp_of (by decide), rfl, by decide, by decide, .inr (by decide)⟩,
    ⟨collLab [(0, 0x55), (8, 0x10002)] [labColl 255 2 [(0, ⟨8, 0, 1⟩)] []], _, atCgrp_of (by decide), rfl, by decide, by decide, rfl, by decide,
      rfl⟩,
    ⟨collLab [] [labColl 0 2 [(0, t0)] []], _, ⟨⟨rfl, rfl, rfl⟩, clear_of (by decide), by decide⟩, rfl, nofun⟩⟩

theorem wit_MemberOperations :
    (∃ (i : Instr) (kind : Nat) (h a : VReg) (wc : BitVec 3) (g : CollGroup) (ps ss ds : List (BitVec 64 × Place)) (pl : Place)
      (us vs ws xs : List Upd) (s : State) (t : TId),
      let va := (s.th t).val64 a
      let c := commandAgent s t
      let bs := sectorBytes s t ps
      let bytes := fieldAt bs 16 4
      let s1 := s.applyAll (us ++ usedPlaces s c (ps.map Prod.snd))
      memberForm i = some (kind, h, a, wc) ∧ Issues s t i (pairOf a) wc ∧ (s.th t).wcBuf = none ∧
      Settled s ∧ va.toNat % 32 = 0 ∧ JoinsGroup s t ((s.th t).val h) g ∧ g.broken = false ∧
      piecePlaces c .load 16 (sectorsFrom va 32) s = (.ok ps, us) ∧ translate s1 c .store (va + 28#64) 4 = (.ok pl, vs) ∧
      bytes % 16 = 0 ∧ 16 ≤ bytes ∧ bytes ≤ 2 ^ 30 ∧ fieldAt bs 21 7 = 0 ∧ (kind = 1 → byteAt bs 20 ≤ 5) ∧
      fieldAt bs 0 8 % 16 = 0 ∧ fieldAt bs 8 8 % 16 = 0 ∧
      memberPlaces c .load (sectorsFrom (BitVec.ofNat 64 (fieldAt bs 0 8)) (if kind = 0 then bytes else g.nm * bytes))
        (s1.applyAll vs) = (.ok ss, ws) ∧
      memberPlaces c .store (sectorsFrom (BitVec.ofNat 64 (fieldAt bs 8 8)) (if kind = 1 then bytes else g.nm * bytes))
        ((s1.applyAll vs).applyAll ws) = (.ok ds, xs) ∧
      (∀ x ∈ ps ++ ss ++ ds, orderBars s c x.2 = false) ∧ ∀ x ∈ ps ++ ss, Known x.2) ∧
    (∃ (h : VReg) (wc : BitVec 3) (la : BitVec 4) (g : CollGroup) (s : State) (t : TId), Issues s t (.cbar h wc la) [] wc ∧
      JoinsGroup s t ((s.th t).val h) g ∧ g.broken = false ∧ (s.th t).wcBuf = none) :=
  ⟨⟨.crsc 4#7 10#7 0#3 0#4, 1, 4#7, 10#7, 0#3, _, descPlaces, labPieces 1 [0x5000, 0x5010], labPieces 1 [0x6000], labPage 0x301C, _, _, _, _,
      collLab [(0, 0x5000), (8, 0x6000), (16, 16), (20, 5)] [labColl 0 2 [(0, t0), (1, ⟨8, 0, 1⟩)] []], t0, rfl,
      ⟨⟨rfl, rfl, rfl⟩, clear_of (by decide), by decide⟩, rfl, settled_of (by decide) rfl, by decide, ⟨rfl, by decide⟩, rfl, okp_of (by decide), okp_of (by decide),
      by decide, by decide, by decide, by decide, by decide, by decide, by decide, okp_of (by decide), okp_of (by decide), by decide,
      fun x h => known_of (List.all_eq_true.mp (show (descPlaces ++ labPieces 1 [0x5000, 0x5010]).all (fun x => knownB x.2) = true by decide) x h)⟩,
    ⟨4#7, 0#3, 0#4, _, collLab [] [labColl 0 2 [(0, t0)] []], t0, ⟨⟨rfl, rfl, rfl⟩, clear_of (by decide), by decide⟩, ⟨rfl, by decide⟩, rfl,
      rfl⟩⟩

/-- An operation of rank `r`: CGATH of 16 bytes each. -/
def labCollOp (r : Nat) : CollOp :=
  ⟨r, 0, 0, List.replicate 16 1#8, BitVec.ofNat 64 (0x5000 + 0x10 * r), BitVec.ofNat 64 (0x6000 + 0x100 * r), 16, 0, false,
    BitVec.ofNat 64 (0x3000 + 0x20 * r), 150 + r, ⟨8, 0, r⟩, [labPage (0x5000 + 0x10 * r)],
    [labPage (0x6000 + 0x100 * r), labPage (0x6010 + 0x100 * r)], some (labPage (0x301C + 0x20 * r))⟩
def doneLab : State := collLab [] [labColl 0 2 [(0, t0), (1, ⟨8, 0, 1⟩)] [labCollOp 0, labCollOp 1]]

theorem wit_CollectiveCompletion :
    (∃ (g : CollGroup) (s : State), s.coll? g.ctx g.num = some g ∧ g.nm ≤ g.members.length ∧
      ∃ q, (∃ o ∈ g.ops, o.seq = q) ∧ allArrived { g with formed := true } q = true) ∧
    (∃ (g : CollGroup) (kind bytes op : Nat) (s : State), s.coll? g.ctx g.num = some g ∧
      let ops := g.ops.filter fun o => o.seq == g.done
      allArrived g g.done = true ∧ resultAway s ops = false ∧ resultBlocked s ops = none ∧ Settled s ∧
      (∀ o ∈ ops, o.bad = false ∧ o.kind = kind ∧ o.bytes = bytes ∧ o.op = op ∧ o.data.length = srcBytes kind g.nm bytes) ∧
      kind ≤ 3 ∧ bytes % 16 = 0 ∧ (∀ o ∈ ops, o.dstAt.length * 16 = dstBytes kind g.nm bytes) ∧
      (∀ o ∈ ops, ∀ pl, o.statAt = some pl → Plain pl ∧ placeKey pl % 4 = 0 ∧
        ∀ p ∈ ops, ∀ x ∈ p.dstAt, placeKey pl + 4 ≤ placeKey x ∨ placeKey x + 16 ≤ placeKey pl) ∧
      (∀ o ∈ ops, ∀ x ∈ o.dstAt, ∀ y ∈ o.srcAt, touches x 16 y 16 = false) ∧
      (ops.map CollOp.rank).Nodup ∧ (∀ o ∈ ops, ∀ x ∈ o.dstAt, Plain x ∧ placeKey x % 16 = 0) ∧ Apart 16 (ops.flatMap CollOp.dstAt)) ∧
    (∃ (o : Op) (pl : Place) (v : Nat) (s : State), s.op? o.id = some o ∧ o.job = .status pl v ∧ placeKey pl % 4 = 0 ∧ Plain pl ∧
      pl.away = false ∧ Settled s) ∧
    (∃ (g : CollGroup) (q : Nat) (s : State), s.coll? g.ctx g.num = some g ∧ allArrived g q = true ∧
      (g.done ≠ q ∨ resultAway s (g.ops.filter fun o => o.seq == q) = true)) :=
  ⟨⟨labColl 0 2 [(0, t0), (1, ⟨8, 0, 1⟩)] [labCollOp 0, labCollOp 1], doneLab, rfl, by decide, 0, ⟨labCollOp 0, by decide, rfl⟩, by decide⟩,
    ⟨labColl 0 2 [(0, t0), (1, ⟨8, 0, 1⟩)] [labCollOp 0, labCollOp 1], 0, 16, 0, doneLab, rfl, by decide, by decide, by decide,
      settled_of (by decide) rfl, by decide, by decide, by decide, by decide,
      by intro o h pl e
         have : o = labCollOp 0 ∨ o = labCollOp 1 := by
           rw [show (List.filter _ _) = [labCollOp 0, labCollOp 1] from rfl] at h; simpa using h
         rcases this with rfl | rfl <;> cases e <;> exact ⟨⟨rfl, rfl, by decide⟩, by decide, by decide⟩,
      by decide, by decide,
      by intro o h x m
         have : o = labCollOp 0 ∨ o = labCollOp 1 := by
           rw [show (List.filter _ _) = [labCollOp 0, labCollOp 1] from rfl] at h; simpa using h
         rcases this with rfl | rfl <;> simp [labCollOp] at m <;> rcases m with rfl | rfl <;> exact ⟨⟨rfl, rfl, by decide⟩, by decide⟩,
      by unfold Apart; decide⟩,
    ⟨⟨150, 149, t0, some 0#3, none, none, 0, .status (labPage 0x301C) 0⟩, labPage 0x301C, 0,
      opLab ⟨150, 149, t0, some 0#3, none, none, 0, .status (labPage 0x301C) 0⟩, rfl, rfl, by decide, ⟨rfl, rfl, by decide⟩, rfl,
      settled_of (by decide) rfl⟩,
    ⟨{ labColl 0 2 [(0, t0), (1, ⟨8, 0, 1⟩)] [labCollOp 0, labCollOp 1] with done := 1 }, 0,
      collLab [] [{ labColl 0 2 [(0, t0), (1, ⟨8, 0, 1⟩)] [labCollOp 0, labCollOp 1] with done := 1 }], rfl, by decide, .inl (by decide)⟩⟩

theorem wit_BlocksExchanged : ∃ (ops : List CollOp) (nm bytes _op r : Nat) (data : Nat → List Byte), r < nm ∧ nm ≤ 4096 ∧ 0 < bytes ∧
    bytes % 4 = 0 ∧ (∀ m < nm, (ops.find? fun o => o.rank == m).map CollOp.data = some (data m)) ∧ ∀ m < nm, (data m).length = bytes :=
  ⟨[labCollOp 0, labCollOp 1], 2, 16, 0, 1, fun _ => List.replicate 16 1#8, by decide, by decide, by decide, by decide, by decide, by decide⟩
theorem wit_CollectiveValues : ∃ (ops : List CollOp) (nm bytes r : Nat) (data : Nat → List Byte), r < nm ∧ nm ≤ 4096 ∧ 0 < bytes ∧
    bytes % 4 = 0 ∧ (∀ m < nm, (ops.find? fun o => o.rank == m).map CollOp.data = some (data m)) ∧ ∀ m < nm, (data m).length = nm * bytes :=
  ⟨[0, 1].map fun r => { labCollOp r with data := List.replicate 32 1#8 }, 2, 16, 1, fun _ => List.replicate 32 1#8,
    by decide, by decide, by decide, by decide, by decide, by decide⟩

/-! ## Launches and queues -/

/-- A kernel registered at 0x8000, and the lab at a LAUNCH whose record at 0x3000 holds these fields. -/
def regKernel : Kernel := { labKernel with addr := some 0x8000#64 }
def launchLab (f : List (Nat × Nat)) (k : Kernel) (ls : List Launch) : State :=
  let s := lab .nop [(10#7, 0x3000#32)]
  { s with mem := Memory.setAll s.mem (f.flatMap fun x => cells (0x3000 + x.1) (leBytes 4 x.2))
           part := { s.part with ctxs := [{ labCtx with kernels := [k] }], launches := ls } }

/-- What the clauses of LAUNCH share. -/
def AtLaunch (s : State) (c : Ctx) (teams done : Nat) (kern : Option Kernel) : Prop :=
  Issues s t0 (.launch 4#7 10#7 0#3 0#4) (pairOf 10#7) 0#3 ∧ (s.th t0).wcBuf = none ∧ Settled s ∧ ((s.th t0).val64 10#7).toNat % 32 = 0 ∧ s.ctxOf t0.team = some c ∧
    (piecePlaces (commandAgent s t0) .load 16 (sectorsFrom ((s.th t0).val64 10#7) 32) s).1 = .ok descPlaces ∧
    (∀ x ∈ descPlaces, orderBars s (commandAgent s t0) x.2 = false ∧ Known x.2) ∧ fieldAt (sectorBytes s t0 descPlaces) 8 8 = teams ∧
    fieldAt (sectorBytes s t0 descPlaces) 24 8 = done ∧ c.kernelAt (BitVec.ofNat 64 (fieldAt (sectorBytes s t0 descPlaces) 0 8)) = kern

theorem full_launches (n : Nat) : ((List.replicate n labLaunch).filter fun l => l.ctx == labCtx.num && l.fin.isNone).length = n := by
  rw [List.filter_replicate]; simp [labLaunch, labCtx]

theorem wit_LaunchResults :
    (∃ s c k, AtLaunch s c (2 ^ 31 + 1) 0 k) ∧ (∃ s c k, AtLaunch s c 1 4 k) ∧ (∃ s c, AtLaunch s c (2 ^ 31) 0 none) ∧
    (∃ s c k, AtLaunch s c 1 0 (some k) ∧ k.gen ≠ c.gen) ∧
    (∃ s c k, AtLaunch s c 1 0 (some k) ∧ k.gen = c.gen ∧ (k.fitsEmpty = false ∨ places s (partOf s t0.team c) k.cores 0 = [])) ∧
    (∃ s c k, AtLaunch s c 1 0 (some k) ∧ k.gen = c.gen ∧ k.fitsEmpty = true ∧ places s (partOf s t0.team c) k.cores 0 ≠ [] ∧
      4096 ≤ (s.part.launches.filter fun l => l.ctx == c.num && l.fin.isNone).length) ∧
    (∃ s c k, AtLaunch s c 0 8 (some k) ∧ k.gen = c.gen ∧ k.fitsEmpty = true ∧ places s (partOf s t0.team c) k.cores 0 ≠ [] ∧
      (s.part.launches.filter fun l => l.ctx == c.num && l.fin.isNone).length < 4096) :=
  ⟨⟨launchLab [(8, 0x80000001)] regKernel [labLaunch], _, _, ⟨⟨rfl, rfl, rfl⟩, clear_of (by decide), by decide⟩, rfl, settled_of (by decide) rfl, by decide, rfl, ok_of (by decide),
      free_of (by decide), by decide, by decide, rfl⟩,
    ⟨launchLab [(8, 1), (24, 4)] regKernel [labLaunch], _, _, ⟨⟨rfl, rfl, rfl⟩, clear_of (by decide), by decide⟩, rfl, settled_of (by decide) rfl, by decide, rfl, ok_of (by decide),
      free_of (by decide), by decide, by decide, rfl⟩,
    ⟨launchLab [(0, 0x8080), (8, 0x80000000)] regKernel [labLaunch], _, ⟨⟨rfl, rfl, rfl⟩, clear_of (by decide), by decide⟩, rfl, settled_of (by decide) rfl, by decide, rfl,
      ok_of (by decide), free_of (by decide), by decide, by decide, by decide⟩,
    ⟨launchLab [(0, 0x8000), (8, 1)] { regKernel with gen := 2 } [labLaunch], _, { regKernel with gen := 2 },
      ⟨⟨⟨rfl, rfl, rfl⟩, clear_of (by decide), by decide⟩, rfl, settled_of (by decide) rfl, by decide, rfl, ok_of (by decide),
        free_of (by decide), by decide, by decide, by decide⟩, by decide⟩,
    ⟨launchLab [(0, 0x8000), (8, 1)] { regKernel with scratchK := 513 } [labLaunch], _, { regKernel with scratchK := 513 },
      ⟨⟨⟨rfl, rfl, rfl⟩, clear_of (by decide), by decide⟩, rfl, settled_of (by decide) rfl, by decide, rfl, ok_of (by decide),
        free_of (by decide), by decide, by decide, by decide⟩, rfl,
      .inl (by decide)⟩,
    ⟨launchLab [(0, 0x8000), (8, 1)] regKernel (List.replicate 4096 labLaunch), _, regKernel,
      ⟨⟨⟨rfl, rfl, rfl⟩, clear_of (by decide), by decide⟩, rfl, settled_of (by decide) rfl, by decide, rfl, ok_of (by decide),
        free_of (by decide), by decide, by decide, by decide⟩, rfl,
      by decide, by decide, le_of_eq (full_launches 4096).symm⟩,
    ⟨launchLab [(0, 0x8000), (24, 8)] regKernel [labLaunch], _, regKernel,
      ⟨⟨⟨rfl, rfl, rfl⟩, clear_of (by decide), by decide⟩, rfl, settled_of (by decide) rfl, by decide, rfl, ok_of (by decide),
        free_of (by decide), by decide, by decide, by decide⟩, rfl,
      by decide, by decide, by decide⟩⟩

theorem some_got {α : Type} {x : Option α} (h : x.isSome = true) : x = some (x.get h) := by simp

def dispatchLab : State := withP (lab .nop []) fun p => { p with launches := [{ labLaunch with teams := 2 }] }

theorem wit_DispatchPlaces : ∃ (l : Launch) (p : Nat) (f : Fit) (s : State), s.launch? l.key = some l ∧ l.next < l.teams ∧ FreshName s ∧
    (∀ x ∈ s.teams, x.launch = l.key → x.sup = none → swappedAwake s x = false) ∧
    (∀ m ∈ s.part.launches, m.key < l.key → m.next < m.teams → placeNew s m = none) ∧ placeNew s l = some (p, f) :=
  ⟨{ labLaunch with teams := 2 }, 0, ⟨0, 0, 0x4000, [0]⟩, dispatchLab, rfl, by decide, (safe_of (s := dispatchLab) (by decide)).fresh, by decide, by decide, by decide⟩


def endLab (l : Launch) (ops : List Op) : State :=
  let s := maskLab 0#64 0#64 .exited
  { with0 s (fun x => { x with run := .exited }) with
    part := { s.part with launches := [l], ops := ops, tlb := [⟨4001, 7#16, 2, 0, 0x3F#64⟩] } }

theorem wit_LaunchEnds :
    (∃ (x : Team) (s : State), s.team? x.key = some x ∧ x.sup = none ∧ (∀ y ∈ s.threads, y.id.team = x.key → y.live = false) ∧
      releaseHeld s x.key = false ∧ (∀ o ∈ s.part.ops, o.works x.key = false) ∧
      (∀ g ∈ s.part.colls, ∀ m ∈ g.members, m.2.team ≠ x.key) ∧
      ∀ l, s.launch? x.launch = some l → l.next ≠ l.teams ∨ ∃ y ∈ s.teams, y.key ≠ x.key ∧ y.sup = none ∧ y.launch = x.launch) ∧
    (∃ (x : Team) (l : Launch) (c : Ctx) (p : Page) (s : State), s.team? x.key = some x ∧ x.sup = none ∧
      (∀ y ∈ s.threads, y.id.team = x.key → y.live = false) ∧ releaseHeld s x.key = false ∧ (∀ o ∈ s.part.ops, o.works x.key = false) ∧
      (∀ y ∈ s.threads, y.wcBuf = none) ∧ s.launch? x.launch = some l ∧ l.next = l.teams ∧ pushesDue s l.key = false ∧
      (∀ y ∈ s.teams, y.key ≠ x.key → y.sup = none → y.launch ≠ x.launch) ∧ l.done ≠ 0#64 ∧ l.done.toNat < 0xFF000000000000 ∧
      l.done.toNat % 8 = 0 ∧ l.host = 0 ∧ s.ctx? l.ctx = some c ∧ pageFor s c hostIssuer true false .atomic l.done.toNat 8 = (.ok p, []) ∧
      Plain (.page p) ∧ l.kern.det = false ∧ s.part.colls = [] ∧ Settled s) ∧
    (∃ (x : Team) (s : State), s.team? x.key = some x ∧ x.sup = none ∧ (∀ y ∈ s.threads, y.id.team = x.key → y.live = false) ∧
      releaseHeld s x.key = true ∧ x.res ≠ .retired) ∧
    (∃ (x : Team) (s : State), s.team? x.key = some x ∧ x.sup = none ∧ (∀ y ∈ s.threads, y.id.team = x.key → y.live = false) ∧
      releaseHeld s x.key = false ∧ ∃ o ∈ s.part.ops, o.works x.key = true) ∧
    (∃ (l : Launch) (s : State), s.launch? l.key = some l ∧ l.fin = none ∧ l.progress + Config.watchdog ≤ s.time ∧ l.stalled = false) ∧
    (∃ (l : Launch) (s : State), s.launch? l.key = some l ∧ l.fin = none ∧ s.time < l.progress + Config.watchdog) :=
  ⟨⟨labTeam, endLab { labLaunch with teams := 2 } [], rfl, rfl, by decide, by decide, nofun, nofun, by intro l h; cases h; exact .inl (by decide)⟩,
    ⟨labTeam, { labLaunch with done := 0x4008#64 }, labCtx, ⟨0x4008, 0, 0, 0, 0x4008, true, 0x40000000⟩, endLab { labLaunch with done := 0x4008#64 } [], rfl, rfl,
      by decide, by decide, nofun, by decide, rfl, rfl, by decide, by decide, by decide, by decide, by decide, rfl, rfl, okn_of (by decide), ⟨rfl, rfl, by decide⟩, rfl, rfl,
      settled_of (by decide) rfl⟩,
    ⟨labTeam, endLab labLaunch [labDelivery], rfl, rfl, by decide, by decide, by decide⟩,
    ⟨labTeam, endLab labLaunch [copyOp (labPage 0x7008) 2 false], rfl, rfl, by decide, by decide, _, .head _, by decide⟩,
    ⟨labLaunch, { lab .nop [] with time := 5000 + Config.watchdog }, rfl, rfl, Nat.le_refl _, rfl⟩,
    ⟨{ labLaunch with progress := 5001 }, withP (lab .nop []) fun p => { p with launches := [{ labLaunch with progress := 5001 }] }, rfl, rfl,
      Nat.lt_of_lt_of_le (by decide : 5000 < 5001) (Nat.le_add_right _ _)⟩⟩

/-- A queue of four slots of 16 bytes at 0x5000, its descriptor at 0x3000. -/
def queueLab (i : Instr) (head tail free full : Nat) (qs : List QueueRec) (ops : List Op) : State :=
  let s := lab i [(4#7, 0x3000#32), (6#7, 0x4000#32)]
  { s with mem := Memory.setAll s.mem ([(0, 0x5000), (8, 16), (12, 4), (16, head), (24, tail), (32, free), (40, full)].flatMap
             fun x => cells (0x3000 + x.1) (leBytes 4 x.2))
           part := { s.part with queues := qs, ops := ops } }
def labWords (a n : Nat) : List (BitVec 64 × Place) := labPieces 1 ((List.range n).map fun i => a + 4 * i)
theorem plain_words {a n : Nat} (h : a + 4 * n ≤ 2 ^ 36) : ∀ x ∈ labWords a n, Plain x.2 := by
  intro x m; simp only [labWords, labPieces, List.mem_map, List.mem_range] at m; obtain ⟨b, ⟨i, hi, rfl⟩, rfl⟩ := m
  refine ⟨rfl, rfl, ?_⟩
  simp only [Nat.div_one, Nat.mul_one, physRange]
  rw [if_pos (by omega)]; nofun

theorem queueSeen_of {s : State} {t : TId} {va : BitVec 64} {ps : List (BitVec 64 × Place)} {q : QDesc}
    (h : (decide (va.toNat % 64 = 0) && okB (pagePlaces (commandAgent s t) .atomic (wordsFrom va 64) s).1 ps &&
      decide (q = qdescOf (wordBytesAt s (commandAgent s t) ps)) && q.ok && ps.all (fun x => !orderBars s (commandAgent s t) x.2) &&
      (engineBlocked s (commandAgent s t) (ps.map Prod.snd)).isNone) = true)
    (p : ∀ x ∈ ps, Plain x.2) (a : Apart 4 (ps.map Prod.snd)) :
    QueueSeen s t va ps (pagePlaces (commandAgent s t) .atomic (wordsFrom va 64) s).2 q := by
  simp only [Bool.and_eq_true, decide_eq_true_eq, List.all_eq_true, Bool.not_eq_true', Option.isNone_iff_eq_none] at h
  obtain ⟨⟨⟨⟨⟨h1, h2⟩, h3⟩, h4⟩, h5⟩, h6⟩ := h
  exact ⟨h1, okp_of h2, h3, h4, h5, h6, p, a⟩

/-- What the clauses of QPUSH share. -/
def AtPush (s : State) (t : TId) (d : QDesc) : Prop :=
  let c := commandAgent s t
  let ps := labWords 0x3000 16
  let src := labWords 0x4000 4
  let us := (pagePlaces c .atomic (wordsFrom ((s.th t).val64 4#7) 64) s).2
  let s1 := s.applyAll (us ++ usedPlaces s c (ps.map Prod.snd))
  ∃ dst vs ws, Issues s t (.qpush 4#7 6#7 0#3 0#4) (pairOf 4#7 ++ pairOf 6#7) 0#3 ∧ Unhosted s t ∧ Settled s ∧ (s.th t).wcBuf = none ∧
    QueueSeen s t ((s.th t).val64 4#7) ps us d ∧ ((s.th t).val64 6#7).toNat % 16 = 0 ∧
    pagePlaces c .load (wordsFrom ((s.th t).val64 6#7) d.slotSz) s1 = (.ok src, vs) ∧
    pagePlaces c .store (wordsFrom (d.slotAt d.head) d.slotSz) (s1.applyAll vs) = (.ok dst, ws) ∧
    (∀ x ∈ src ++ dst, orderBars s c x.2 = false) ∧ engineBlocked s c ((dst ++ ps).map Prod.snd) = none ∧ (∀ x ∈ dst, Plain x.2) ∧
    Apart 4 ((dst ++ ps).map Prod.snd) ∧
    (∀ x ∈ src, Plain x.2 ∧ ∀ y ∈ ps, placeKey x.2 + 4 ≤ placeKey y.2 ∨ placeKey y.2 + 4 ≤ placeKey x.2) ∧ d.head + 1 < 2 ^ 64

/-- What the clauses of QPOP share. -/
def AtPop (s : State) (t : TId) (d : QDesc) : Prop :=
  let c := commandAgent s t
  let us := (pagePlaces c .atomic (wordsFrom ((s.th t).val64 4#7) 64) s).2
  ∃ slot vs, Issues s t (.qpop 8#7 4#7 0#3 0#4 1#3) (pairOf 4#7) 0#3 ∧ Unhosted s t ∧ Settled s ∧ (s.th t).wcBuf = none ∧
    QueueSeen s t ((s.th t).val64 4#7) (labWords 0x3000 16) us d ∧
    pagePlaces c .load (wordsFrom (d.slotAt d.tail) d.slotSz) (s.applyAll (us ++ usedPlaces s c ((labWords 0x3000 16).map Prod.snd))) = (.ok slot, vs) ∧
    (∀ x ∈ slot, orderBars s c x.2 = false) ∧ d.tail + 1 < 2 ^ 64

theorem wit_QueueResults :
    (∃ s t d, AtPush s t d ∧ d.free ≠ 0) ∧ (∃ s t d, AtPush s t d ∧ d.free = 0) ∧ (∃ s t d, AtPop s t d ∧ d.full ≠ 0) ∧
    (∃ s t d, AtPop s t d ∧ d.full = 0 ∧ producerLive s (ctxNum s t.team) ((s.th t).val64 4#7) = false) ∧
    (∃ s t d, AtPop s t d ∧ d.full = 0 ∧ producerLive s (ctxNum s t.team) ((s.th t).val64 4#7) = true) ∧
    (∃ s t ps us d, Issues s t (.qfree 4#7 0#3 0#4) (pairOf 4#7) 0#3 ∧ Unhosted s t ∧ Settled s ∧ (s.th t).wcBuf = none ∧
      QueueSeen s t ((s.th t).val64 4#7) ps us d) :=
  ⟨⟨queueLab .nop 3 0 1 3 [] [], t0, ⟨0x5000, 16, 4, 3, 0, 1, 3, 0⟩, ⟨labWords 0x5030 4, _, _, ⟨⟨rfl, rfl, rfl⟩, clear_of (by decide), by decide⟩, rfl,
      settled_of (by decide) rfl, rfl, queueSeen_of (by decide) (plain_words (by decide)) (by unfold Apart; decide), by decide, okp_of (by decide),
      okp_of (by decide), by decide, by decide, plain_words (by decide), by unfold Apart; decide,
      fun x m => ⟨plain_words (by decide) x m, by revert x; decide⟩, by decide⟩, by decide⟩,
    ⟨queueLab .nop 4 0 0 4 [] [], t0, ⟨0x5000, 16, 4, 4, 0, 0, 4, 0⟩, ⟨labWords 0x5000 4, _, _, ⟨⟨rfl, rfl, rfl⟩, clear_of (by decide), by decide⟩, rfl,
      settled_of (by decide) rfl, rfl, queueSeen_of (by decide) (plain_words (by decide)) (by unfold Apart; decide), by decide, okp_of (by decide),
      okp_of (by decide), by decide, by decide, plain_words (by decide), by unfold Apart; decide,
      fun x m => ⟨plain_words (by decide) x m, by revert x; decide⟩, by decide⟩, rfl⟩,
    ⟨queueLab .nop 4 3 3 1 [] [], t0, ⟨0x5000, 16, 4, 4, 3, 3, 1, 0⟩, ⟨labWords 0x5030 4, _, ⟨⟨rfl, rfl, rfl⟩, clear_of (by decide), by decide⟩, rfl,
      settled_of (by decide) rfl, rfl, queueSeen_of (by decide) (plain_words (by decide)) (by unfold Apart; decide), okp_of (by decide), by decide,
      by decide⟩, by decide⟩,
    ⟨queueLab .nop 4 4 4 0 [] [], t0, ⟨0x5000, 16, 4, 4, 4, 4, 0, 0⟩, ⟨labWords 0x5000 4, _, ⟨⟨rfl, rfl, rfl⟩, clear_of (by decide), by decide⟩, rfl,
      settled_of (by decide) rfl, rfl, queueSeen_of (by decide) (plain_words (by decide)) (by unfold Apart; decide), okp_of (by decide), by decide,
      by decide⟩, rfl, by decide⟩,
    ⟨queueLab .nop 4 4 4 0 [⟨1, 0x3000#64, [100], [], []⟩] [], t0, ⟨0x5000, 16, 4, 4, 4, 4, 0, 0⟩,
      ⟨labWords 0x5000 4, _, ⟨⟨rfl, rfl, rfl⟩, clear_of (by decide), by decide⟩, rfl,
      settled_of (by decide) rfl, rfl, queueSeen_of (by decide) (plain_words (by decide)) (by unfold Apart; decide), okp_of (by decide), by decide,
      by decide⟩, rfl, by decide⟩,
    ⟨queueLab .nop 4 4 4 0 [] [], t0, labWords 0x3000 16, _, ⟨0x5000, 16, 4, 4, 4, 4, 0, 0⟩, ⟨⟨rfl, rfl, rfl⟩, clear_of (by decide), by decide⟩, rfl,
      settled_of (by decide) rfl, rfl, queueSeen_of (by decide) (plain_words (by decide)) (by unfold Apart; decide)⟩⟩

def pushOp : Op := ⟨150, 149, t0, some 0#3, none, none, 0, .qpush 0x3000#64 3 1 100 [labPage 0x3028, labPage 0x302C]⟩
/-- A push of the queue's first record is due; the descriptor names a consumer. -/
def publishLab : State :=
  let s := queueLab .nop 1 0 3 0 [⟨1, 0x3000#64, [100], [], [150]⟩] [pushOp]
  { s with mem := Memory.setAll s.mem (cells 0x3030 (leBytes 8 0x8000)), part := { s.part with ctxs := [{ labCtx with kernels := [regKernel] }], tlb := [⟨linkIssuer, 7#16, 2, 0, 0x3F#64⟩] } }

theorem wit_QueueEvents :
    (∃ (o : Op) (va : BitVec 64) (slot launch : Nat) (ps : List (BitVec 64 × Place)) (us : List Upd) (d : QDesc) (c : Ctx) (k : Kernel) (p : Page)
      (s : State),
      s.op? o.id = some o ∧ o.job = .qpush va slot (ctxNum s o.t.team) launch (((ps.map Prod.snd).drop 10).take 2) ∧ o.dlv = none ∧ teamHere s o.t.team = true ∧ Settled s ∧
      (s.queue (ctxNum s o.t.team) va).due.head? = some o.id ∧ QueueSeen s o.t va ps us d ∧ d.full + 1 < 2 ^ 64 ∧ d.full = 0 ∧
      s.ctx? (ctxNum s o.t.team) = some c ∧ c.kernelAt (BitVec.ofNat 64 d.consumer) = some k ∧ d.consumer ≠ 0 ∧
      pageFor s c linkIssuer false true .load va.toNat 64 = (.ok p, []) ∧ (∀ n (h : n < ps.length), placeKey ps[n].2 = p.pa + 4 * n) ∧
      (∀ l ∈ s.part.launches, l.ctx = ctxNum s o.t.team → l.kern.addr = some (BitVec.ofNat 64 d.consumer) → l.fin.isSome = true) ∧
      startStatus s c (some k) ⟨0, va, 0#64, 0, ((s.launch? launch).map Launch.part).getD c.part, some va⟩ = 0) ∧
    (∃ (s : State) (t : TId), (s.thread? t).isSome = true ∧ (s.th t).run = .waiting .queue ∧ queueReady s (s.th t) = true) ∧
    (∃ (s : State) (t : TId), (s.thread? t).isSome = true ∧ (s.th t).run = .waiting .queue ∧ queueReady s (s.th t) = false) :=
  ⟨⟨pushOp, 0x3000#64, 3, 100, labWords 0x3000 16, _, ⟨0x5000, 16, 4, 1, 0, 3, 0, 0x8000⟩, _, regKernel, ⟨0x3000, 0, 0, 0, 0x3000, true, 0x40000000⟩, publishLab,
      rfl, rfl, rfl, rfl,
      settled_of (by decide) rfl, by decide, queueSeen_of (by decide) (plain_words (by decide)) (by unfold Apart; decide), by decide, rfl, rfl, by decide,
      by decide, okn_of (by decide), by decide, by decide, by decide⟩,
    ⟨with0 (queueLab (.qpush 4#7 6#7 0#3 0#4) 3 0 1 3 [] []) fun x => { x with run := .waiting .queue }, t0, rfl, rfl, by decide⟩,
    ⟨with0 (queueLab (.qpush 4#7 6#7 0#3 0#4) 4 0 0 4 [] []) fun x => { x with run := .waiting .queue }, t0, rfl, rfl, by decide⟩⟩

/-! ## System instructions -/

theorem wit_SpecialRegisters :
    (∃ (d : VReg) (sel : BitVec 8) (s : State) (t : TId), Solo s t ∧ Clear s t (.gets d sel) [] [] ∧ sel.toNat ≤ 16) ∧
    (∃ (a : VReg) (sel : BitVec 8) (s : State) (t : TId), Solo s t ∧ Clear s t (.sets a sel) (if special64 sel then pairOf a else [a]) [] ∧
      sel.toNat ≤ 16 ∧ setsPriv (s.isSup t.team) sel.toNat = false ∧ Unhosted s t) ∧
    (∃ (a : VReg) (sel : BitVec 8) (s : State) (t : TId), Solo s t ∧ Clear s t (.sets a sel) (if special64 sel then pairOf a else [a]) [] ∧
      sel.toNat ≤ 16 ∧ setsPriv (s.isSup t.team) sel.toNat = false ∧ (s.tm t.team).sup = some 0 ∧ s.homeCluster t < 16) ∧
    (∃ (a : VReg) (sel : BitVec 8) (vec : BitVec 64) (s : State) (t : TId), Solo s t ∧
      Clear s t (.sets a sel) (if special64 sel then pairOf a else [a]) [] ∧ Vectored s t vec ∧
      (sel = 7#8 ∨ sel = 10#8 ∨ sel = 15#8 ∨ sel = 16#8) ∧ s.isSup t.team = false) :=
  ⟨⟨4#7, 16#8, lab .nop [], t0, solo_lab _ _, clear_of (by decide), by decide⟩,
    ⟨4#7, 14#8, lab .nop [], t0, solo_lab _ _, clear_of (by decide), by decide, by decide, rfl⟩,
    ⟨4#7, 10#8, { State.reset with cur := ⟨⟨0, 0⟩, [⟨0, 0, 0⟩]⟩ }, ⟨0, 0, 0⟩, ⟨rfl, rfl, rfl⟩, clear_of (by decide), by decide, by decide, rfl,
      by decide⟩,
    ⟨4#7, 16#8, _, lab .nop [], t0, solo_lab _ _, clear_of (by decide), vectored_lab _ _ (by decide), by decide, by decide⟩⟩

def trapLab : State := with0 (lab .nop []) fun x => { x with clause := some ⟨0xA7000802#32, encode (.trap 255#8) ++ [0x5C000000#32], false⟩ }

theorem wit_TrapsAndReturns :
    (∃ (n : BitVec 8) (vec : BitVec 64) (c : Clause) (s : State) (t : TId), Solo s t ∧ Clear s t (.trap n) [] [] ∧ Vectored s t vec ∧
      (s.th t).clause = some c ∧ (s.th t).widx < c.count) ∧
    (∃ (n : BitVec 8) (vec : BitVec 64) (c : Clause) (s : State) (t : TId), Solo s t ∧ Clear s t (.trap n) [] [] ∧ Vectored s t vec ∧
      (s.th t).clause = some c ∧ c.count = (s.th t).widx) ∧
    (∃ s t, Solo s t ∧ Clear s t .eret [] [] ∧ (s.th t).inh = true) ∧
    (∃ s t, Solo s t ∧ Clear s t .eret [] [] ∧ (s.th t).inh = false ∧ (s.gr t.gid).emuvec ≠ 0#64 ∧
      ∀ c, (s.th t).clause = some c → (s.th t).widx ≤ c.count) ∧
    (∃ (n : BitVec 8) (s : State) (t : TId), Solo s t ∧ Clear s t (.syscall n) [] []) ∧
    (∃ (n : BitVec 8) (s : State) (t : TId), (s.thread? t).isSome = true ∧ (s.th t).run = .syscall n) ∧
    (∃ s t, Solo s t ∧ Clear s t .halt [] []) ∧
    (∃ s t, Solo s t ∧ Clear s t .idle [] [] ∧ s.part.reports ≠ []) ∧ (∃ s t, Solo s t ∧ Clear s t .idle [] [] ∧ s.part.reports = []) :=
  ⟨⟨255#8, _, _, trapLab, t0, ⟨rfl, rfl, rfl⟩, clear_of (by decide),
      ⟨⟨labCtx, rfl, rfl⟩, by decide, by decide, fun c e => by cases e; decide⟩, rfl, by decide⟩,
    ⟨255#8, _, _, lab (.trap 255#8) [], t0, solo_lab _ _, clear_of (by decide), vectored_lab _ _ (by decide), rfl, by decide⟩,
    ⟨with0 (lab .nop []) fun x => { x with tcause := 0xE0001006#32 }, t0, ⟨rfl, rfl, rfl⟩, clear_of (by decide), by decide⟩,
    ⟨lab .eret [], t0, solo_lab _ _, clear_of (by decide), by decide, by decide, fun c e => by cases e; decide⟩,
    ⟨0#8, lab .nop [], t0, solo_lab _ _, clear_of (by decide)⟩, ⟨0#8, with0 (lab .nop []) fun x => { x with run := .syscall 0#8 }, t0, rfl, rfl⟩,
    ⟨lab .nop [], t0, solo_lab _ _, clear_of (by decide)⟩,
    ⟨withP (lab .nop []) fun p => { p with reports := [.doorbell] }, t0, ⟨rfl, rfl, rfl⟩, clear_of (by decide), nofun⟩,
    ⟨lab .nop [], t0, solo_lab _ _, clear_of (by decide), rfl⟩⟩

def labTeam9 (res : Residence) : Team :=
  { Team.fresh 9 1 100 1 16 16 [1] 3 false ⟨4096, 0, 0, 0, 0, 0, 0⟩ with res := res, scr := [(0, 4095, 7#8)] }
/-- A second team of the launch, number 1, on core 1, whose thread stands at a clause header. -/
def twoTeams (res : Residence) (r : Run) : State :=
  let s := lab .nop [(4#7, 1#32), (5#7, 1#32), (10#7, 0x3000#32)]
  { s with teams := s.teams ++ [labTeam9 res]
           groups := s.groups ++ [Group.fresh ⟨9, 0⟩ 16 0 64 0#64 0#64 1]
           threads := s.threads ++ [Thread.fresh ⟨9, 0, 0⟩ 0x1000#64 r]
           part := { s.part with saves := [⟨1, 0x3000#64, 0, 9⟩] } }

theorem wit_TranslationsAndSaves :
    (∃ (n a : VReg) (k : BitVec 2) (s : State) (t : TId), Solo s t ∧
      Clear s t (.tlbinv n a k) (if k = 0#2 then n :: pairOf a else if k = 1#2 then [n] else []) [] ∧
      inFlight s k (((s.th t).val n).setWidth 16) ((s.th t).val64 a).toNat = false) ∧
    (∃ (n a : VReg) (k : BitVec 2) (s : State) (t : TId), Solo s t ∧
      Clear s t (.tlbinv n a k) (if k = 0#2 then n :: pairOf a else if k = 1#2 then [n] else []) [] ∧
      inFlight s k (((s.th t).val n).setWidth 16) ((s.th t).val64 a).toNat = true) ∧
    (∃ (v a : VReg) (p : PReg) (c : Ctx) (y : Team) (ps : List (BitVec 64 × Place)) (us : List Upd) (s : State) (t : TId), Solo s t ∧
      Clear s t (.ctxsv v a p) (pairOf a) [] ∧ Settled s ∧ (s.th t).run = .running ∧
      ((s.th t).val64 a).toNat % 256 = 0 ∧ s.ctxOf t.team = some c ∧
      teamNamed s c.num ((s.th t).val v) ((s.th t).val (v + 1#7)) = some y ∧ y.key ≠ t.team ∧ y.res = .resident ∧ y.stopping = false ∧
      (∃ x ∈ s.threads, x.id.team = y.key ∧ x.live = true) ∧
      piecePlaces (agentOf s t) .store 1 (steppedFrom ((s.th t).val64 a) 1 (saveSize s t)) s = (.ok ps, us) ∧
      engineBlocked s (agentOf s t) (ps.map Prod.snd) = none ∧ teamQuiet s y.key = true ∧ (∀ x ∈ ps, Plain x.2) ∧ Apart 1 (ps.map Prod.snd)) ∧
    (∃ (a : VReg) (p : PReg) (x : Team) (q : Nat) (f : Fit) (ps : List (BitVec 64 × Place)) (us : List Upd) (s : State) (t : TId), Solo s t ∧
      Clear s t (.ctxld a p) (pairOf a) [] ∧ Safe s ∧ ((s.th t).val64 a).toNat % 256 = 0 ∧
      piecePlaces (agentOf s t) .load 1 (steppedFrom ((s.th t).val64 a) 1 (saveSize s t)) s = (.ok ps, us) ∧
      areaAt s (ctxNum s t.team) ((s.th t).val64 a) (ps.map fun x => placeByte s (agentOf s t) x.2) = some x ∧
      placeOld s x = some (q, f) ∧ (q + 1) * x.cores.length ≤ 768 ∧ (x.scr.map fun b => (b.1, b.2.1)).Nodup ∧
      ∃ b ∈ x.scr, b.1 < x.cores.length ∧ b.2.1 < x.claim.scrSize) :=
  ⟨⟨4#7, 10#7, 0#2, lab .nop [(4#7, 7#32), (10#7, 0x3000#32)], t0, solo_lab _ _, clear_of (by decide), by decide⟩,
    ⟨4#7, 10#7, 3#2, opLab (copyOp (labPage 0x7008) 1 false), t0, ⟨rfl, rfl, rfl⟩, clear_of (by decide), by decide⟩,
    ⟨4#7, 10#7, 1#3, _, _, _, _, twoTeams .resident .running, t0, ⟨rfl, rfl, rfl⟩, clear_of (by decide), settled_of (by decide) rfl, rfl, by decide,
      rfl, some_got (by decide), by decide, by decide, by decide, by decide, okp_got [] (by decide), by decide, by decide, nofun, .nil⟩,
    ⟨10#7, 1#3, _, _, _, _, _, twoTeams .saved .running, t0, ⟨rfl, rfl, rfl⟩, clear_of (by decide), safe_of (by decide), by decide,
      okp_got [] (by decide), some_got (by decide), some_got (by decide), by decide, by decide, by decide⟩⟩

/-! ## The active set, and teams away from their place -/

/-- The lab's group and `n` more on its core, all with a running thread. -/
def manyGroups (n : Nat) (act : Bool) (since : Option Nat) (r : Run) : State :=
  let s := lab .nop []
  { s with groups := { labGroup with active := act, readyAt := since } :: (List.range n).map fun k =>
             { Group.fresh ⟨8, k + 1⟩ 16 0 64 0#64 0#64 0 with active := !act, readyAt := some 0 }
           threads := { labThread 0 .nop [] with run := r } :: (List.range n).map fun k => { labThread 0 .nop [] with id := ⟨8, k + 1, 0⟩ }
           part := { s.part with clusters := s.part.clusters.set 0 { Cluster.reset with half := 8192 } } }

theorem wit_ActiveSet :
    (∃ (core : Nat) (g : GId) (h : Group) (s : State), Safe s ∧ (s.group? g).isSome = true ∧ (s.gr g).active = true ∧
      (s.gr g).core = core ∧ s.isSup g.team = false ∧ givesWay (s.applyAll (markReady s)) g = true ∧
      oldestPending (s.applyAll (markReady s)) core = some h) ∧
    (∃ (g : GId) (s : State), (s.gr g).active = true ∧ givesWay (s.applyAll (markReady s)) g = false) ∧
    (∃ (g : GId) (s : State), ∀ x ∈ s.threads, x.id.gid = g → x.live = true → ∃ j n, x.run = .joined j n ∨ x.run = .barrier n) ∧
    (∃ (g : GId) (s : State), ∀ x ∈ s.threads, x.id.gid = g → x.live = false) ∧
    (∃ (core : Nat) (g : GId) (s : State), Safe s ∧ (s.group? g).isSome = true ∧ (s.gr g).active = false ∧ (s.gr g).hosted = none ∧
      (s.gr g).core = core ∧ s.isSup g.team = false ∧ groupReady s g = true ∧ activeOn s core < 8) ∧
    (∃ (core : Nat) (g : GId) (s : State), Safe s ∧ (s.group? g).isSome = true ∧ (s.gr g).active = false ∧ (s.gr g).hosted = none ∧
      (s.gr g).core = core ∧ s.isSup g.team = false ∧ groupReady s g = true ∧ 8 ≤ activeOn s core ∧
      ∃ h n, longestActive s core = some h ∧ (s.gr g).readyAt = some n ∧ n + 4096 ≤ s.cycle core) ∧
    (∃ (core : Nat) (g : GId) (s : State), Safe s ∧ (s.group? g).isSome = true ∧ (s.gr g).active = false ∧ (s.gr g).hosted = none ∧
      (s.gr g).core = core ∧ s.isSup g.team = false ∧ groupReady s g = true ∧ 8 ≤ activeOn s core ∧
      ∀ n, (s.gr g).readyAt = some n → s.cycle core < n + 4096) :=
  ⟨⟨0, ⟨8, 0⟩, _, manyGroups 1 true none (.waiting .queue), safe_of (by decide), rfl, rfl, rfl, rfl, by decide, some_got (by decide)⟩,
    ⟨⟨8, 0⟩, lab .nop [], rfl, by decide⟩,
    ⟨⟨8, 0⟩, with0 { lab .nop [] with threads := [labThread 0 .nop []] } fun x => { x with run := .barrier 15#4 }, fun x m _ _ => ⟨0#3, 15, .inr (by revert x; decide)⟩⟩,
    ⟨⟨8, 0⟩, with0 { lab .nop [] with threads := [labThread 0 .nop []] } fun x => { x with run := .exited }, by decide⟩,
    ⟨0, ⟨8, 0⟩, manyGroups 7 false (some 0) .running, safe_of (by decide), rfl, rfl, rfl, rfl, rfl, by decide, by decide⟩,
    ⟨0, ⟨8, 0⟩, manyGroups 8 false (some 0) .running, safe_of (by decide), rfl, rfl, rfl, rfl, rfl, by decide, by decide, _, 0,
      some_got (by decide), rfl, by decide⟩,
    ⟨0, ⟨8, 0⟩, manyGroups 8 false (some 1) .running, safe_of (by decide), rfl, rfl, rfl, rfl, rfl, by decide, by decide,
      by intro n h; cases h; decide⟩⟩

/-- The lab's team waiting at a barrier since a TIME. -/
def waitLab (since : Nat) (res : Residence) : State :=
  let s := lab .nop []
  { s with threads := s.threads.map fun x => { x with run := .barrier 0#4 }, teams := [{ labTeam with waitAt := some (since, 256), waitStamp := 1, res := res }] }

theorem wit_ResidenceResults :
    (∃ (k : Nat) (s : State), (s.team? k).isSome = true ∧ waitedOut s (s.tm k) = true ∧ (s.tm k).sup = none ∧ (s.tm k).res = .resident ∧
      teamWaits s k = true ∧ teamQuiet s k = true ∧ s.part.ops = [] ∧ ∀ y ∈ s.threads, y.id.team = k → y.wcBuf = none) ∧
    (∃ (k : Nat) (s : State), waitedOut s (s.tm k) = false) ∧ (∃ (k : Nat) (s : State), (s.teamThreads k).any Thread.live = false) ∧
    (∃ (k : Nat) (s : State), (s.team? k).isSome = true ∧ (s.tm k).sup = none ∧ (s.tm k).res = .resident ∧
      (s.teamThreads k).any Thread.live = true ∧ teamQuiet s k = true) ∧
    (∃ (k : Nat) (s : State), (s.team? k).isSome = true ∧ (s.tm k).sup = none ∧ (s.tm k).res = .resident ∧
      (s.teamThreads k).any Thread.live = true ∧ teamQuiet s k = false) ∧
    (∃ (k c i : Nat) (s : State), (s.team? k).isSome = true ∧ (s.tm k).sup = none ∧ (s.tm k).res = .faulted c i ∧ (s.tm k).off = false ∧
      (s.teamThreads k).any Thread.live = true ∧ teamQuiet s k = true) ∧
    (∃ (x : Team) (p : Nat) (f : Fit) (s : State), s.team? x.key = some x ∧ x.res = .preempted ∧ placeOld s x = some (p, f)) ∧
    (∃ (x : Team) (p : Nat) (f : Fit) (s : State), s.team? x.key = some x ∧ swappedAwake s x = true ∧ placeOld s x = some (p, f)) ∧
    (∃ (x : Team) (s : State), s.team? x.key = some x ∧ x.res = .swapped ∧ awake s x.key = false) :=
  ⟨⟨8, waitLab 4744 .resident, rfl, by decide, rfl, rfl, by decide, by decide, rfl, by decide⟩, ⟨8, waitLab 4745 .resident, by decide⟩,
    ⟨8, with0 { lab .nop [] with threads := [labThread 0 .nop []] } fun x => { x with run := .exited }, by decide⟩,
    ⟨8, waitLab 4745 .resident, rfl, rfl, rfl, by decide, by decide⟩, ⟨8, lab .nop [], rfl, rfl, rfl, by decide, by decide⟩,
    ⟨8, 4, 0, waitLab 4745 (.faulted 4 0), rfl, rfl, rfl, rfl, by decide, by decide⟩,
    ⟨labTeam9 .preempted, _, _, twoTeams .preempted .running, rfl, rfl, some_got (by decide)⟩,
    ⟨labTeam9 .swapped, _, _, twoTeams .swapped .running, rfl, by decide, some_got (by decide)⟩,
    ⟨labTeam9 .swapped, twoTeams .swapped (.waiting .queue), rfl, rfl, by decide⟩⟩

/-! ## The microscope cores -/

def host0 : Hosting := ⟨1#5, 1#1⟩
def hostedLab (stop : Bool) (r : Run) : State :=
  let s := withG (with0 (lab .nop []) fun x => { x with run := r }) fun g => { g with hosted := some host0, active := false }
  { s with threads := s.threads.take 1
           part := { s.part with micros := s.part.micros.set 1 { Micro.reset with slots := Micro.reset.slots.set 1 ⟨some ⟨8, 0⟩, 0#10, 0#9, stop, false, none⟩ } } }
/-- Every slot of cluster 0 taken. -/
def fullSlots (s : State) : State := withP s fun p =>
  let m : Micro := { Micro.reset with slots := Vector.replicate 2 ⟨some ⟨7, 0⟩, 0#10, 0#9, false, false, none⟩ }
  { p with micros := (p.micros.set 0 m).set 1 m }

theorem wit_Migrate :
    (∃ (pav : BitVec 1) (p : PReg) (s : State) (t : TId), Solo s t ∧ Clear s t (.migrate pav p) [] [] ∧ s.dbg t.team = true ∧
      (s.gr t.gid).hosted.isSome = true) ∧
    (∃ (pav : BitVec 1) (p : PReg) (s : State) (t : TId), Solo s t ∧ Clear s t (.migrate pav p) [] [] ∧ s.dbg t.team = true ∧
      (s.gr t.gid).hosted = none ∧ (s.gr t.gid).shutter = none ∧ s.isSup t.team = false ∧ slotOffered s (clusterOf (s.gr t.gid).core) = true) ∧
    (∃ (pav : BitVec 1) (p : PReg) (s : State) (t : TId), Solo s t ∧ Clear s t (.migrate pav p) [] [] ∧ s.dbg t.team = true ∧
      (s.gr t.gid).hosted = none ∧ (s.gr t.gid).shutter = none ∧ s.isSup t.team = false ∧ slotOffered s (clusterOf (s.gr t.gid).core) = false) ∧
    (∃ (i : Instr) (pav : BitVec 1) (p : PReg) (vec : BitVec 64) (s : State) (t : TId), Solo s t ∧
      (i = .migrate pav p ∧ Clear s t i [] []) ∧ s.dbg t.team = false ∧ Vectored s t vec) ∧
    (∃ (i : Instr) (a : VReg) (vec : BitVec 64) (s : State) (t : TId), Solo s t ∧
      (i = .wpset a ∧ Clear s t i (pairOf a) []) ∧ s.dbg t.team = false ∧ Vectored s t vec) ∧
    (∃ s t, Solo s t ∧ Clear s t .unmig [] [] ∧ (s.gr t.gid).hosted.isSome = true ∧ (s.gr t.gid).homing = false) :=
  let noDbg := withP (lab .nop []) fun p => { p with ctxs := [{ labCtx with dbg := false }] }
  have v : Vectored noDbg t0 0x1000#64 := ⟨⟨_, rfl, rfl⟩, by decide, by decide, fun c e => by cases e; decide⟩
  ⟨⟨0#1, 1#3, hostedLab false .running, t0, ⟨rfl, rfl, rfl⟩, clear_of (by decide), by decide, rfl⟩,
    ⟨1#1, 1#3, lab .nop [], t0, solo_lab _ _, clear_of (by decide), by decide, rfl, rfl, rfl, by decide⟩,
    ⟨1#1, 1#3, fullSlots (lab .nop []), t0, ⟨rfl, rfl, rfl⟩, clear_of (by decide), by decide, rfl, rfl, rfl, by decide⟩,
    ⟨_, 0#1, 1#3, _, noDbg, t0, ⟨rfl, rfl, rfl⟩, ⟨rfl, clear_of (by decide)⟩, by decide, v⟩,
    ⟨_, 10#7, _, noDbg, t0, ⟨rfl, rfl, rfl⟩, ⟨rfl, clear_of (by decide)⟩, by decide, v⟩,
    ⟨hostedLab false .running, t0, ⟨rfl, rfl, rfl⟩, clear_of (by decide), rfl, rfl⟩⟩

def closeLab (r : Run) : State := { withG (with0 (lab .nop []) fun x => { x with run := r }) fun g => { g with shutter := some true } with
  threads := [{ labThread 0 .nop [] with run := r }] }

theorem wit_MicroscopeResults :
    (∃ (g : GId) (pav : Bool) (s : State), (s.group? g).isSome = true ∧ (s.tm g.team).res = .resident ∧ s.isSup g.team = false ∧
      (s.gr g).hosted = none ∧ (s.gr g).shutter = some pav ∧ (s.tm g.team).stopping = true) ∧
    (∃ (g : GId) (pav : Bool) (s : State), (s.group? g).isSome = true ∧ (s.tm g.team).res = .resident ∧ s.isSup g.team = false ∧
      (s.gr g).hosted = none ∧ (s.gr g).shutter = some pav ∧ groupQuiet s g = false) ∧
    (∃ (g : GId) (pav : Bool) (s : State), (s.group? g).isSome = true ∧ (s.tm g.team).res = .resident ∧ s.isSup g.team = false ∧
      (s.gr g).hosted = none ∧ (s.gr g).shutter = some pav ∧ (s.tm g.team).stopping = false ∧ groupQuiet s g = true ∧
      freeSlot s (clusterOf (s.gr g).core) = none) ∧
    (∃ (g : GId) (pav : Bool) (s : State), (s.group? g).isSome = true ∧ (s.tm g.team).res = .resident ∧ s.isSup g.team = false ∧
      (s.gr g).hosted = none ∧ (s.gr g).shutter = some pav ∧ (s.tm g.team).stopping = false ∧ groupQuiet s g = true ∧
      (freeSlot s (clusterOf (s.gr g).core)).isSome = true) ∧
    (∃ (g : GId) (h : Hosting) (s : State), (s.group? g).isSome = true ∧ (s.gr g).hosted = some h ∧
      ((s.micro h.m).slot h.slot.toNat).stop = true) ∧
    (∃ (g : GId) (h : Hosting) (s : State), (s.group? g).isSome = true ∧ (s.gr g).hosted = some h ∧ teamStops s g.team = true) ∧
    (∃ (g : GId) (h : Hosting) (s : State), (s.group? g).isSome = true ∧ (s.gr g).hosted = some h ∧
      ((s.micro h.m).slot h.slot.toNat).stop = false ∧ teamStops s g.team = false ∧ groupQuiet s g = true) ∧
    (∃ (a : VReg) (ps : List (BitVec 64 × Place)) (us : List Upd) (s : State) (t : TId), Solo s t ∧ Clear s t (.wpset a) (pairOf a) [] ∧
      s.dbg t.team = true ∧ ((s.th t).val64 a).toNat % 32 = 0 ∧
      piecePlaces (agentOf s t) .load 16 (sectorsFrom ((s.th t).val64 a) 32) s = (.ok ps, us) ∧ (s.th t).wcBuf = none ∧ Settled s ∧
      (∀ x ∈ ps, orderBars s (agentOf s t) x.2 = false ∧ Known x.2) ∧
      (let bs := ps.flatMap fun x => placeBytes s (agentOf s t) x.2 16
       tripBad (fieldAt bs 0 8) (fieldAt bs 8 8) (fieldAt bs 24 4) (fieldAt bs 28 4) = false) ∧ s.isSup t.team = false ∧
      (s.gr t.gid).core < 768) ∧
    (∃ (op : BitVec 2) (s : State) (t : TId), Solo s t ∧ Clear s t (.trace op) [] [] ∧ (s.gr t.gid).hosted = some host0) ∧
    (∃ (m : Nat) (slot : BitVec 1) (s : State), m < 32 ∧ ((s.micro m).slot slot.toNat).stop = true ∧
      ∃ g, ((s.micro m).slot slot.toNat).gid = some g ∧ ∃ x ∈ s.threads, x.id.gid = g) :=
  ⟨⟨⟨8, 0⟩, true, withT (closeLab .exited) fun x => { x with stopping := true }, rfl, rfl, rfl, rfl, rfl, rfl⟩,
    ⟨⟨8, 0⟩, true, closeLab .running, rfl, rfl, rfl, rfl, rfl, by decide⟩,
    ⟨⟨8, 0⟩, true, fullSlots (closeLab .exited), rfl, rfl, rfl, rfl, rfl, rfl, by decide, by decide⟩,
    ⟨⟨8, 0⟩, true, closeLab .exited, rfl, rfl, rfl, rfl, rfl, rfl, by decide, by decide⟩,
    ⟨⟨8, 0⟩, host0, hostedLab true .exited, rfl, rfl, by decide⟩,
    ⟨⟨8, 0⟩, host0, withT (hostedLab false .exited) fun x => { x with stopping := true }, rfl, rfl, by decide⟩,
    ⟨⟨8, 0⟩, host0, hostedLab false .exited, rfl, rfl, by decide, by decide, by decide⟩,
    ⟨10#7, _, _, lab (.wpset 10#7) [(10#7, 0x3000#32)], t0, solo_lab _ _, clear_of (by decide), by decide, by decide, okp_got [] (by decide),
      rfl, settled_of (by decide) rfl, free_of (by decide), by decide, by decide, by decide⟩,
    ⟨3#2, hostedLab false .running, t0, ⟨rfl, rfl, rfl⟩, clear_of (by decide), rfl⟩,
    ⟨1, 1#1, hostedLab true .running, by decide, by decide, ⟨8, 0⟩, by decide, _, .head _, rfl⟩⟩

/-! ## Power, boot, mailboxes -/

def clusterLab (f : Cluster → Cluster) : State := withP (lab .nop []) fun p => { p with clusters := p.clusters.set 15 (f Cluster.reset) }
def linkLab (f : Link → Link) : State :=
  withP (lab .nop []) fun p => { p with dies := p.dies.set 3 { Die.reset with links := Die.reset.links.set 5 (f Link.reset) } }

theorem wit_Clusters :
    (∃ (s : State) (rest : List Turn) (c : Nat), s.sched = .tick :: rest ∧ c < 16 ∧ (s.cluster c).target = none ∧ (s.cluster c).dropped = none ∧
      (s.cluster c).cur = 2#2) ∧
    (∃ (s : State) (rest : List Turn) (c : Nat) (r : BitVec 2), s.sched = .tick :: rest ∧ c < 16 ∧ (s.cluster c).target = some r ∧
      (s.cluster c).dropped = none ∧ r = 0#2) ∧
    (∃ (c : Nat) (s : State), c < 16 ∧ s.time < (s.cluster c).since + 2000) ∧
    (∃ (c : Nat) (s : State), c < 16 ∧ (s.cluster c).since + 2000 ≤ s.time ∧ (s.cluster c).auto = false) ∧
    (∃ (c : Nat) (r : BitVec 2) (s : State), c < 16 ∧ (s.cluster c).since + 2000 ≤ s.time ∧ (s.cluster c).auto = true ∧
      (s.cluster c).ceil ≠ 3#2 ∧ (s.cluster c).issued = 0 ∧ r ≠ 0#2) ∧
    (∃ (c : Nat) (s : State), c < 16 ∧ (s.cluster c).since + 2000 ≤ s.time ∧ (s.cluster c).auto = true ∧ (s.cluster c).ceil ≠ 3#2 ∧
      (s.cluster c).issued = 0) ∧
    (∃ (c : Nat) (r : BitVec 2) (s : State), c < 16 ∧ (s.cluster c).since + 2000 ≤ s.time ∧ (s.cluster c).auto = true ∧
      (s.cluster c).ceil ≠ 3#2 ∧ (s.cluster c).pcap = 0#8 ∧ 0 < (s.cluster c).issued ∧ periodSlots s c ≤ 2 * (s.cluster c).issued ∧
      r = (s.cluster c).ceil) ∧
    (∃ (c : Nat) (r : BitVec 2) (s : State), c < 16 ∧ (s.cluster c).since + 2000 ≤ s.time ∧ (s.cluster c).auto = true ∧
      (s.cluster c).ceil ≠ 3#2 ∧ (s.cluster c).pcap = 0#8 ∧ 0 < (s.cluster c).issued ∧ periodSlots s c ≤ 2 * (s.cluster c).issued ∧
      r.toNat < (s.cluster c).ceil.toNat) ∧
    (∃ (c : Nat) (r : BitVec 2) (s : State), c < 16 ∧ (s.cluster c).target = some r) :=
  ⟨⟨{ clusterLab (fun k => { k with cur := 2#2 }) with sched := [.tick] }, [], 15, rfl, by decide, rfl, rfl, rfl⟩,
    ⟨{ clusterLab (fun k => { k with target := some 0#2 }) with sched := [.tick] }, [], 15, 0#2, rfl, by decide, rfl, rfl, rfl⟩,
    ⟨15, clusterLab fun k => { k with since := 3001 }, by decide, by decide⟩,
    ⟨15, clusterLab fun k => { k with since := 3000, auto := false }, by decide, by decide, rfl⟩,
    ⟨15, 1#2, clusterLab fun k => { k with since := 3000 }, by decide, by decide, rfl, by decide, rfl, by decide⟩,
    ⟨15, clusterLab fun k => { k with since := 3000 }, by decide, by decide, rfl, by decide, rfl⟩,
    ⟨15, 2#2, clusterLab fun k => { k with since := 3000, issued := 1 }, by decide, by decide, rfl, by decide, rfl, by decide, by decide, rfl⟩,
    ⟨15, 1#2, clusterLab fun k => { k with since := 3000, issued := 1 }, by decide, by decide, rfl, by decide, rfl, by decide, by decide, by decide⟩,
    ⟨15, 1#2, clusterLab fun k => { k with target := some 1#2 }, by decide, rfl⟩⟩

theorem wit_PowerResults :
    (∃ (d : BitVec 2) (l : BitVec 3) (s : State), l.toNat < 6 ∧ (s.link d l).shed = true ∧ (s.link d l).minw.toNat < (s.link d l).width.toNat ∧
      (s.link d l).down = false ∧ (s.link d l).target = none) ∧
    (∃ (d : BitVec 2) (l : BitVec 3) (s : State), l.toNat < 6 ∧ (s.link d l).shed = true ∧ (s.link d l).lanesOff = [] ∧
      (s.link d l).width.toNat < 2 ∧ (s.link d l).minw.toNat ≤ (s.link d l).width.toNat + 1 ∧ (s.link d l).down = false ∧
      (s.link d l).target = none) ∧
    (∃ (d : BitVec 2) (l : BitVec 3) (w : BitVec 2) (s : State), l.toNat < 6 ∧ (s.link d l).target = some w ∧ (s.link d l).shed = true ∧
      (s.link d l).lanesOff = [] ∧ (s.link d l).minw.toNat ≤ w.toNat ∧ w.toNat ≤ 2) ∧
    (∃ (d : BitVec 2) (l : BitVec 3) (lane : Nat) (s : State), l.toNat < 6 ∧ lane < 16 ∧ (s.link d l).down = false) ∧
    (∃ (d i : Nat) (s : State), d < 4 ∧ i < 2 ∧ (s.position (2 * d + i)).mbcmd.getLsbD 31 = false) ∧
    (∃ (d i : Nat) (s : State), d < 4 ∧ i < 2 ∧ (s.position (2 * d + i)).mbcmd.getLsbD 31 = true) :=
  ⟨⟨3#2, 5#3, linkLab id, by decide, rfl, by decide, rfl, rfl⟩,
    ⟨3#2, 5#3, linkLab fun l => { l with width := 1#2, minw := 2#2 }, by decide, rfl, rfl, by decide, by decide, rfl, rfl⟩,
    ⟨3#2, 5#3, 1#2, linkLab fun l => { l with target := some 1#2, minw := 1#2 }, by decide, rfl, rfl, rfl, by decide, by decide⟩,
    ⟨3#2, 5#3, 15, linkLab id, by decide, by decide, rfl⟩, ⟨3, 1, lab .nop [], by decide, by decide, by decide⟩,
    ⟨3, 1, withP (lab .nop []) fun p => { p with pos := p.pos.set 7 { Position.reset with mbcmd := 0x80000001#32 } }, by decide, by decide, by decide⟩⟩

/-- Position 7 asked for a command. -/
def askLab (code : Nat) (f : Position → Position) : State :=
  withP (lab .nop []) fun p => { p with pos := p.pos.set 7 (f { Position.reset with mbcmd := BitVec.ofNat 32 (0x80000000 + code), mbarg := 0x3000#64 }) }
theorem asked (code : Nat) (f : Position → Position)
    (h : decide ((f { Position.reset with mbcmd := BitVec.ofNat 32 (0x80000000 + code), mbarg := 0x3000#64 }).mbcmd.getLsbD 31 = true ∧
      mailboxEvent 7 ((f { Position.reset with mbcmd := BitVec.ofNat 32 (0x80000000 + code), mbarg := 0x3000#64 }).mbcmd.toNat % 256) =
        mailboxEvent 7 code) = true) : Asked (askLab code f) 7 code := by
  unfold Asked; exact of_decide_eq_true h

def labAccess : Op := ⟨150, 149, t0, some 1#3, none, some 96, 0, .access 0x3000#64 2⟩

theorem wit_PositionResults :
    (∃ s : State, s.part.bootst = 0#8) ∧ (∃ s : State, s.part.bootst ≠ 0#8) ∧
    (∃ s, Asked s 7 1 ∧ bufferOk s 7 = true ∧ Settled s) ∧ (∃ s, Asked s 7 1 ∧ bufferOk s 7 = false) ∧
    (∃ s, Asked s 7 2 ∧ bufferOk s 7 = true ∧ Settled s) ∧ (∃ s, Asked s 7 3) ∧
    (∃ s, Asked s 7 4 ∧ s.quiesced 7 = true ∧ bufferOk s 7 = true) ∧ (∃ s, Asked s 7 4 ∧ s.quiesced 7 = false) ∧
    (∃ s, Asked s 7 5 ∧ s.quiesced 7 = true ∧ bufferOk s 7 = true) ∧
    (∃ s, Asked s 7 6 ∧ s.quiesced 7 = true ∧ Safe s ∧ (s.position 7).kind = 1#8) ∧
    (∃ s, Asked s 7 6 ∧ s.quiesced 7 = true ∧ (s.position 7).kind ≠ 1#8) ∧ (∃ s, Asked s 7 0) ∧
    (∃ (i : Nat) (cls : BitVec 8) (off : BitVec 64) (z : Syndrome) (s : State),
      ((s.position i).syn.find? fun z => z.cls == cls && z.offset == off) = some z) ∧
    (∃ (i : Nat) (cls : BitVec 8) (off : BitVec 64) (s : State), (∀ z ∈ (s.position i).syn, z.cls ≠ cls ∨ z.offset ≠ off) ∧
      (s.position i).syn.length < 64) ∧
    (∃ (p : BitVec 3) (o : Op) (va : BitVec 64) (major l : Nat) (s : State), s.op? o.id = some o ∧ o.job = .load va major ∧
      o.line = some l ∧ linePosition l = some p.toNat ∧ ∃ d, o.dlv = some d ∧ (s.thread? o.t).isSome = true) ∧
    (∃ (p : BitVec 3) (o : Op) (va : BitVec 64) (major l : Nat) (s : State), s.op? o.id = some o ∧ o.job = .access va major ∧
      o.line = some l ∧ linePosition l = some p.toNat) ∧
    (∃ (p : BitVec 3) (o : Op) (va : BitVec 64) (major l : Nat) (s : State), s.op? o.id = some o ∧ o.job = .access va major ∧
      o.line = some l ∧ linePosition l ≠ some p.toNat) :=
  ⟨⟨State.reset, rfl⟩, ⟨lab .nop [], by decide⟩, ⟨askLab 1 id, asked _ _ (by decide), by decide, settled_of (by decide) rfl⟩,
    ⟨askLab 1 fun p => { p with mbarg := 0x8000000000#64 }, asked _ _ (by decide), by decide⟩,
    ⟨askLab 2 id, asked _ _ (by decide), by decide, settled_of (by decide) rfl⟩, ⟨askLab 3 id, asked _ _ (by decide)⟩,
    ⟨askLab 4 fun p => { p with quiesce := true }, asked _ _ (by decide), by decide, by decide⟩, ⟨askLab 4 id, asked _ _ (by decide), by decide⟩,
    ⟨askLab 5 fun p => { p with quiesce := true }, asked _ _ (by decide), by decide, by decide⟩,
    ⟨askLab 6 fun p => { p with quiesce := true }, asked _ _ (by decide), by decide, safe_of (by decide), by decide⟩,
    ⟨askLab 6 fun p => { p with quiesce := true, kind := 2#8 }, asked _ _ (by decide), by decide, by decide⟩,
    ⟨askLab 0 fun p => { p with mbcmd := 0x800000FF#32 }, asked _ _ (by decide)⟩,
    ⟨7, 1#8, 0#64, ⟨1#8, 1#8, 1#32, 0#64, 0#64, 0#64⟩, askLab 1 fun p => { p with syn := [⟨1#8, 1#8, 1#32, 0#64, 0#64, 0#64⟩] }, by decide⟩,
    ⟨7, 2#8, 0#64, askLab 1 fun p => { p with syn := List.replicate 63 ⟨1#8, 1#8, 1#32, 0#64, 0#64, 0#64⟩ }, by decide, by decide⟩,
    ⟨0#3, ⟨150, 149, t0, some 1#3, some ⟨4#7, 1, some [1#32], 0⟩, some 96, 0, .load 0x3000#64 2⟩, 0x3000#64, 2, 96,
      opLab ⟨150, 149, t0, some 1#3, some ⟨4#7, 1, some [1#32], 0⟩, some 96, 0, .load 0x3000#64 2⟩, rfl, rfl, rfl, by decide, _, rfl, rfl⟩,
    ⟨0#3, labAccess, 0x3000#64, 2, 96, opLab labAccess, rfl, rfl, rfl, by decide⟩,
    ⟨7#3, labAccess, 0x3000#64, 2, 96, opLab labAccess, rfl, rfl, rfl, by decide⟩⟩

/-! ## Page tables, the host, the resident kernel -/

theorem get_outside {m : List Host.Cell} {a : Nat} (h : ∀ c ∈ m, c.1 ≠ a) : Memory.get m a = 0#8 := by
  induction m with
  | nil => rfl
  | cons c m ih =>
    simp only [Memory.get, if_neg (h c (.head _))]
    exact ih fun d k => h d (.tail _ k)

theorem homeBytes_outside {s : State} (l2 : s.part.l2 = []) : ∀ (n a : Nat), (∀ c ∈ s.mem, c.1 < a ∨ a + n ≤ c.1) →
    homeBytes s a n = List.replicate n 0#8
  | 0, _, _ => rfl
  | n + 1, a, h => by
    have z : homeByte s a = 0#8 := by
      simp only [homeByte, State.l2Line?, l2, List.find?_nil, Option.bind_none, State.byte]
      exact get_outside fun c m => by have := h c m; omega
    simp only [homeBytes, z, List.replicate_succ]
    rw [homeBytes_outside l2 n (a + 1) fun c m => by have := h c m; omega]

/-- A table whose first entry alone may be in use. -/
theorem tableEntries_first {s : State} {base level : Nat} (l2 : s.part.l2 = []) (h : ∀ c ∈ s.mem, c.1 < base + 8 ∨ base + 65536 ≤ c.1) :
    tableEntries s base level =
      (if pteBit (leNat (homeBytes s (base + 0) 8)) 0 then [(0, leNat (homeBytes s (base + 0) 8))] else []) := by
  have size : ∃ n ≤ 8191, (if 2 ≤ level then 8192 else if level = 1 then 512 else 32) = n + 1 := by
    split
    · exact ⟨8191, by omega, rfl⟩
    · split
      · exact ⟨511, by omega, rfl⟩
      · exact ⟨31, by omega, rfl⟩
  obtain ⟨n, hn, e⟩ := size
  have rest : (List.range n).filterMap ((fun i => let e := leNat (homeBytes s (base + 8 * i) 8)
      if pteBit e 0 then some (i, e) else none) ∘ Nat.succ) = [] := by
    rw [List.filterMap_eq_nil_iff]
    intro i m
    rw [List.mem_range] at m
    have z := homeBytes_outside l2 8 (base + 8 * (i + 1)) fun c k => by have := h c k; omega
    simp only [Function.comp, Nat.succ_eq_add_one, z]
    rfl
  simp only [tableEntries, e, List.range_succ_eq_map, List.filterMap_cons, List.filterMap_map, rest, Nat.mul_zero]
  split <;> simp_all

/-- The lab with tables of four levels, whose one leaf of 64 KiB maps the context's first page; bit 58 makes it unbacked. -/
def labTables (last : Byte) : List Host.Cell :=
  [(0x10000, 1#8), (0x10002, 2#8), (0x20000, 1#8), (0x20002, 3#8), (0x30000, 1#8), (0x30002, 4#8), (0x40000, 0x3F#8), (0x40007, last)]
def leafLab (last : Byte) : State := { lab .nop [] with mem := labTables last }

theorem get_append {r : List Host.Cell} {a : Nat} (h : ∀ c ∈ r, c.1 ≠ a) : ∀ m : List Host.Cell, Memory.get (m ++ r) a = Memory.get m a
  | [] => get_outside h
  | c :: m => by simp only [List.cons_append, Memory.get, get_append h m]

theorem leaves_lab {s : State} {last : Byte} {r : List Host.Cell} (m : s.mem = labTables last ++ r) (hr : ∀ c ∈ r, 0x50000 ≤ c.1) (l2 : s.part.l2 = []) (va n : Nat) :
    labCtx.leavesIn s va n = ([⟨0, 0x40000, 0, 0x3F + 2 ^ 56 * last.toNat⟩] : List PtEntry).filter
      fun e => e.leaf && decide (e.va < va + n) && decide (va < e.va + pageSize e.level) := by
  have b : ∀ a < 0x50000, homeByte s a = Memory.get (labTables last) a := fun a h => by
    simp only [homeByte, State.l2Line?, l2, List.find?_nil, Option.bind_none, State.byte, m]
    exact get_append (fun c k => by have := hr c k; omega) _
  have bs : ∀ a < 0x4FFF0, homeBytes s a 8 = [a, a + 1, a + 2, a + 3, a + 4, a + 5, a + 6, a + 7].map (Memory.get (labTables last)) := fun a h => by
    simp only [homeBytes, List.map_cons, List.map_nil]
    rw [b _ (by omega), b _ (by omega), b _ (by omega), b _ (by omega), b _ (by omega), b _ (by omega), b _ (by omega), b _ (by omega)]
  have out : ∀ base ∈ [0x10000, 0x20000, 0x30000, 0x40000], ∀ c ∈ s.mem, c.1 < base + 8 ∨ base + 65536 ≤ c.1 := by
    intro base mb c k
    rw [m, List.mem_append] at k
    rcases k with k | k
    · simp only [labTables, List.mem_cons, List.not_mem_nil, or_false] at k mb
      rcases k with rfl | rfl | rfl | rfl | rfl | rfl | rfl | rfl <;> rcases mb with rfl | rfl | rfl | rfl <;> simp
    · have := hr c k
      simp only [List.mem_cons, List.not_mem_nil, or_false] at mb
      omega
  have t3 := tableEntries_first (s := s) (base := 0x10000) (level := 3) l2 (out _ (by simp))
  have t2 := tableEntries_first (s := s) (base := 0x20000) (level := 2) l2 (out _ (by simp))
  have t1 := tableEntries_first (s := s) (base := 0x30000) (level := 1) l2 (out _ (by simp))
  have t0 := tableEntries_first (s := s) (base := 0x40000) (level := 0) l2 (out _ (by simp))
  rw [bs _ (by omega)] at t3 t2 t1 t0
  have e3 : tableEntries s 0x10000 3 = [(0, 0x20001)] := by rw [t3]; simp [labTables, Memory.get, leNat, pteBit]
  have e2 : tableEntries s 0x20000 2 = [(0, 0x30001)] := by rw [t2]; simp [labTables, Memory.get, leNat, pteBit]
  have e1 : tableEntries s 0x30000 1 = [(0, 0x40001)] := by rw [t1]; simp [labTables, Memory.get, leNat, pteBit]
  have e0 : tableEntries s 0x40000 0 = [(0, 0x3F + 2 ^ 56 * last.toNat)] := by
    rw [t0]
    have v : leNat ([0x40000 + 0, 0x40000 + 0 + 1, 0x40000 + 0 + 2, 0x40000 + 0 + 3, 0x40000 + 0 + 4, 0x40000 + 0 + 5, 0x40000 + 0 + 6,
        0x40000 + 0 + 7].map (Memory.get (labTables last))) = 0x3F + 2 ^ 56 * last.toNat := by
      simp [labTables, Memory.get, leNat]; omega
    rw [v, if_pos]
    simp only [pteBit, beq_iff_eq, pow_zero, Nat.div_one]
    omega
  simp only [Ctx.leavesIn, Ctx.entries, show labCtx.ptbase = 0x10000 from rfl]
  simp only [entriesFrom, e3, List.flatMap_cons, List.flatMap_nil, List.append_nil, show pteBit 0x20001 1 = false from by decide,
    show pteNext 0x20001 = 0x20000 from by decide, e2, show pteBit 0x30001 1 = false from by decide, show pteNext 0x30001 = 0x30000 from by decide, e1,
    show pteBit 0x40001 1 = false from by decide, show pteNext 0x40001 = 0x40000 from by decide, e0, List.map_cons, List.map_nil, Bool.false_eq_true,
    if_false]
  simp [PtEntry.leaf, show pteBit 131073 1 = false from by decide, show pteBit 196609 1 = false from by decide,
    show pteBit 262145 1 = false from by decide]


/-- The entry 0 of a ring of 16 entries at host address 0 holds a request; a name "k" stands at host address 64. -/
def ringCells (op ctx : Nat) (args : List Nat) : List Host.Cell :=
  (((leBytes 2 op ++ leBytes 2 ctx ++ leBytes 4 0 ++ args.flatMap (leBytes 8) ++ List.replicate (56 - 8 * args.length) 0#8 ++ [0x6B#8]).zipIdx).filter
    fun x => x.1 != 0#8).map fun x => (0x400000000000 + x.2, x.1)
def hostLab (op ctx : Nat) (args : List Nat) : State :=
  let s := leafLab 0x10#8
  { s with mem := labTables 0x10#8 ++ ringCells op ctx args
           part := { s.part with ringlen := 16#32, doorbell := 1#32, ctxs := [{ labCtx with kernels := [regKernel] }] } }
/-- The context of the host's requests. -/
def hostCtx : Ctx := { labCtx with kernels := [regKernel] }

theorem host_leaves (s : State) (va n : Nat) : hostCtx.leavesIn s va n = labCtx.leavesIn s va n := rfl

theorem wit_HostRequests :
    (∃ (ws : List (Nat × Byte)) (s : State), Safe s ∧ (ws.map Prod.fst).Nodup) ∧
    (∃ s, Safe s ∧ nextRequest s = some (.ctxnew 0) ∧ (entryArg s 0 0 = 0 ∨ 3 < entryArg s 0 0)) ∧
    (∃ s n f, Safe s ∧ nextRequest s = some (.ctxnew 0) ∧ 1 ≤ entryArg s 0 0 ∧ entryArg s 0 0 ≤ 3 ∧
      BitVec.ofNat 192 (entryArg s 0 3 + 2 ^ 64 * entryArg s 0 4 + 2 ^ 128 * entryArg s 0 5) ≠ 0#192 ∧
      BitVec.ofNat 192 (entryArg s 0 3 + 2 ^ 64 * entryArg s 0 4 + 2 ^ 128 * entryArg s 0 5) &&& ~~~s.part.cellPresent = 0#192 ∧
      freeCtx s = some n ∧ freeFrame s = some f) ∧
    (∃ s, Safe s ∧ nextRequest s = some (.attest 0) ∧ entryArg s 0 0 + 32 ≤ 2 ^ 46 ∧ entryArg s 0 1 + 228 ≤ 2 ^ 46 ∧
      (entryArg s 0 1 + 228 ≤ entryAt s 0 ∨ entryAt s 0 + 64 ≤ entryArg s 0 1)) ∧
    (∃ s, Safe s ∧ nextRequest s = some (.recoveryLoad 0) ∧ entryArg s 0 1 < 178) ∧
    (∃ s, Safe s ∧ nextRequest s = some (.recoveryLoad 0) ∧ 178 ≤ entryArg s 0 1 ∧ entryArg s 0 1 ≤ 2 ^ 24 ∧
      entryArg s 0 0 + entryArg s 0 1 ≤ 2 ^ 46) ∧
    (∃ s, Safe s ∧ nextRequest s = some (.celloff 0) ∧ 192 ≤ entryArg s 0 1) ∧
    (∃ s, Safe s ∧ nextRequest s = some (.celloff 0) ∧ s.part.cellPresent.getLsbD (entryArg s 0 1) = true ∧ lastCell s (entryArg s 0 1) = false ∧
      teamsOnCell s (entryArg s 0 1) = []) ∧
    (∃ s x, Safe s ∧ nextRequest s = some (.celloff 0) ∧ s.part.cellPresent.getLsbD (entryArg s 0 1) = true ∧ lastCell s (entryArg s 0 1) = false ∧
      x ∈ teamsOnCell s (entryArg s 0 1) ∧ ∀ y ∈ teamsOnCell s (entryArg s 0 1), teamQuiet s y.key = false) ∧
    (∃ s, Safe s ∧ nextRequest s = some (.cellon 0) ∧ s.part.cellPresent.getLsbD (entryArg s 0 1) = true) ∧
    (∃ s, Safe s ∧ nextRequest s = some (.drain 0) ∧ entryArg s 0 1 < 8 ∧ framesOn s (entryArg s 0 1) = []) ∧
    (∃ s, Safe s ∧ nextRequest s = some (.undrain 0) ∧ entryArg s 0 1 < 8) ∧
    (∃ s, Safe s ∧ nextRequest s = some (.laneoff 0) ∧ entryArg s 0 1 % 256 < 16 ∧ entryArg s 0 1 / 2 ^ 8 % 256 < 6 ∧
      entryArg s 0 1 / 2 ^ 16 < 4) ∧
    (∃ s, Safe s ∧ nextRequest s = some (.serviceReserved 0)) ∧ (∃ s, Safe s ∧ nextRequest s = some (.reservedRequest 0)) ∧
    (∃ s, Safe s ∧ nextRequest s = some (.hostLaunch 0) ∧ s.ctx? (entryCtx s 0) = none) :=
  ⟨⟨[(0, 1#8), (2 ^ 46 - 1, 1#8)], lab .nop [], safe_lab _ _, by decide⟩, ⟨hostLab 1 0 [4], safe_of (by decide), by decide, by decide⟩,
    ⟨hostLab 1 0 [3, 1, 5, 1, 0, 0x8000000000000000], _, _, safe_of (by decide), by decide, by decide, by decide, by decide, by decide, some_got (by decide),
      some_got (by decide)⟩,
    ⟨hostLab 8 0 [0x1000, 64], safe_of (by decide), by decide, by decide, by decide, by decide⟩,
    ⟨withP (hostLab 3 0 [0, 177]) fun p => { p with bootst := 0x80#8 }, safe_of (by decide), by decide, by decide⟩,
    ⟨withP (hostLab 3 0 [0, 178]) fun p => { p with bootst := 0x80#8 }, safe_of (by decide), by decide, by decide, by decide, by decide⟩,
    ⟨hostLab 9 0 [1, 192], safe_of (by decide), by decide, by decide⟩,
    ⟨hostLab 9 0 [1, 191], safe_of (by decide), by decide, by decide, by decide, by decide⟩,
    ⟨hostLab 9 0 [1, 0], labTeam, safe_of (by decide), by decide, by decide, by decide, by decide, by decide⟩,
    ⟨hostLab 9 0 [2, 191], safe_of (by decide), by decide, by decide⟩, 
    ⟨withP (hostLab 9 0 [3, 7]) fun p => { p with ctxs := [] }, safe_of (by decide), by decide, by decide, by decide⟩,
    ⟨hostLab 9 0 [4, 7], safe_of (by decide), by decide, by decide⟩, ⟨hostLab 9 0 [5, 0x3050F], safe_of (by decide), by decide, by decide, by decide, by decide⟩,
    ⟨hostLab 9 0 [6], safe_of (by decide), by decide⟩, ⟨hostLab 11 0 [], safe_of (by decide), by decide⟩,
    ⟨hostLab 7 2 [], safe_of (by decide), by decide, by decide⟩⟩

theorem wit_HostRequestResults :
    (∃ s, Safe s ∧ s.ctx? (entryCtx s 0) = some hostCtx ∧ nextRequest s = some (.ctxend 0) ∧
      ∀ l ∈ s.part.launches, l.ctx = hostCtx.num → l.done = 0#64) ∧
    (∃ s, Safe s ∧ s.ctx? (entryCtx s 0) = some hostCtx ∧ nextRequest s = some (.ctxset 0) ∧ entryArg s 0 0 = 3 ∧ 0x100 ≤ entryArg s 0 1 ∧
      entryArg s 0 1 ≤ 0xFFFFFFFF) ∧
    (∃ s, Safe s ∧ s.ctx? (entryCtx s 0) = some hostCtx ∧ nextRequest s = some (.load 0) ∧ entryArg s 0 0 + entryArg s 0 1 ≤ 2 ^ 46) ∧
    (∃ s, Safe s ∧ s.ctx? (entryCtx s 0) = some hostCtx ∧ nextRequest s = some (.mtcload 0) ∧ entryArg s 0 0 + entryArg s 0 1 ≤ 2 ^ 46) ∧
    (∃ s, Safe s ∧ s.ctx? (entryCtx s 0) = some hostCtx ∧ nextRequest s = some (.maphost 0) ∧ mapRefused hostCtx 0 s = true) ∧
    (∃ s us, Safe s ∧ s.ctx? (entryCtx s 0) = some hostCtx ∧ nextRequest s = some (.maphost 0) ∧ mapRefused hostCtx 0 s = false ∧
      mapPages hostCtx (entryArg s 0 2) (fun i => leafPte (entryArg s 0 3 / 4) ((hostBase + entryArg s 0 0) / 65536 + i) false false
        (homeOfCtx hostCtx) (entryArg s 0 3 % 4)) (List.range (entryArg s 0 1 / 65536)) s = some us ∧ entryArg s 0 1 ≠ 0) ∧
    (∃ s, Safe s ∧ s.ctx? (entryCtx s 0) = some hostCtx ∧ nextRequest s = some (.exportMem 0) ∧ 7 < entryArg s 0 2) ∧
    (∃ s, Safe s ∧ s.ctx? (entryCtx s 0) = some hostCtx ∧ nextRequest s = some (.exportMem 0) ∧
      ¬ (entryArg s 0 0 % 2 ^ 28 ≠ 0 ∨ entryArg s 0 1 % 2 ^ 28 ≠ 0 ∨ entryArg s 0 1 = 0 ∨ 0xFF000000000000 < entryArg s 0 0 + entryArg s 0 1 ∨
        7 < entryArg s 0 2 ∨ ∃ x ∈ hostCtx.leavesIn s (entryArg s 0 0) (entryArg s 0 1), x.barsExport = true)) ∧
    (∃ s, Safe s ∧ s.ctx? (entryCtx s 0) = some hostCtx ∧ nextRequest s = some (.hostLaunch 0) ∧ entryArg s 0 4 % 8 = 0 ∧
      startStatus s hostCtx ((launchName s (entryArg s 0 0)).bind fun name => (hostCtx.kernels.filter fun k => k.name == name).getLast?)
        ⟨entryArg s 0 1, BitVec.ofNat 64 (entryArg s 0 2), BitVec.ofNat 64 (entryArg s 0 3), entryArg s 0 4, hostCtx.part, none⟩ = 0) ∧
    (∃ (dec : BitVec 3) (off va : Nat) (c : Ctx) (p : Page) (s : State), exportedAt s dec.toNat (off / 8 * 8) = some (c, va) ∧ Settled s ∧
      pageFor s c hostIssuer true false .store va 8 = (.ok p, []) ∧ Plain (.page p) ∧ va % 8 = 0) ∧
    (∃ (dec : BitVec 3) (off va : Nat) (c : Ctx) (r : Nat) (us : List Upd) (s : State), exportedAt s dec.toNat (off / 128 * 128) = some (c, va) ∧
      pageFor s c hostIssuer true false .load va 128 = (.error r, us)) ∧
    (∃ (dec : BitVec 3) (off va : Nat) (c : Ctx) (p : Page) (us : List Upd) (s : State), exportedAt s dec.toNat (off / 128 * 128) = some (c, va) ∧
      pageFor s c hostIssuer true false .load va 128 = (.ok p, us)) :=
  ⟨⟨hostLab 2 1 [], safe_of (by decide), rfl, by decide, by decide⟩, ⟨hostLab 10 1 [3, 0x100], safe_of (by decide), rfl, by decide, by decide, by decide, by decide⟩,
    ⟨hostLab 3 1 [0, 64], safe_of (by decide), rfl, by decide, by decide⟩, ⟨hostLab 4 1 [0, 64], safe_of (by decide), rfl, by decide, by decide⟩,
    ⟨hostLab 5 1 [1], safe_of (by decide), rfl, by decide, by decide⟩,
    ⟨hostLab 5 1 [0x10000, 0x10000, 0x10000, 3], _, safe_of (by decide), rfl, by decide, by
        simp only [mapRefused]
        rw [host_leaves, leaves_lab (s := hostLab 5 1 [0x10000, 0x10000, 0x10000, 3]) (last := 0x10#8) rfl (by decide) rfl]; decide,
      some_got (by decide), by decide⟩,
    ⟨hostLab 6 1 [0, 0x10000000, 8], safe_of (by decide), rfl, by decide, by decide⟩,
    ⟨hostLab 6 1 [0, 0x10000000, 7], safe_of (by decide), rfl, by decide, by
        rw [host_leaves, leaves_lab (s := hostLab 6 1 [0, 0x10000000, 7]) (last := 0x10#8) rfl (by decide) rfl]; decide⟩,
    ⟨hostLab 7 1 [64, 1, 0, 0, 8], safe_of (by decide), rfl, by decide, by decide, by decide⟩,
    ⟨7#3, 0x10000007, 0x10000000, _, ⟨0x10000000, 0, 0, 0, 0x10000000, true, 0x40000000⟩,
      withP (lab .nop []) fun p => { p with ctxs := [{ labCtx with exports := [(7, 0#64, 0x20000000)] }], tlb := [⟨4001, 7#16, 2, 0, 0x3F#64⟩] }, rfl,
      settled_of (by decide) rfl, okn_of (by decide), ⟨rfl, rfl, by decide⟩, by decide⟩,
    ⟨7#3, 0, 0x40000000, _, 4, _, withP (lab .nop []) fun p => { p with ctxs := [{ labCtx with exports := [(7, 0x40000000#64, 0x10000000)] }] }, rfl,
      Prod.ext (err_of (by decide)) rfl⟩,
    ⟨7#3, 0x10000007, 0x10000000, _, ⟨0x10000000, 0, 0, 0, 0x10000000, true, 0x40000000⟩, _,
      withP (lab .nop []) fun p => { p with ctxs := [{ labCtx with exports := [(7, 0#64, 0x20000000)] }], tlb := [⟨4001, 7#16, 2, 0, 0x3F#64⟩] }, rfl,
      okp_of (by decide)⟩⟩

theorem leaf_lab (last : Byte) : labCtx.leafAt (leafLab last) 0 = some ⟨0, 0x40000, 0, 0x3F + 2 ^ 56 * last.toNat⟩ := by
  rw [Ctx.leafAt, leaves_lab (s := leafLab last) (last := last) (r := []) (List.append_nil _).symm nofun rfl]
  have h : (PtEntry.mk 0 0x40000 0 (0x3F + 2 ^ 56 * last.toNat)).leaf = true := by
    simp only [PtEntry.leaf, pteBit, beq_iff_eq, pow_one]; omega
  simp [pageSize]
  exact h

def offeredLab (va : BitVec 64) : State := with0 (leafLab 0x10#8) fun x => { x with run := .offered va 5#4 }

theorem wit_KernelResults :
    (∃ (ctx va frame : Nat) (c : Ctx) (x : PtEntry) (s : State), s.ctx? ctx = some c ∧ c.leafAt s va = some x ∧ pteBit x.bits 58 = true ∧
      frame % x.frames = 0 ∧ (∀ i < x.frames, frameFree s (frame + i) = true) ∧ Settled s) ∧
    (∃ (ctx va frame : Nat) (c : Ctx) (x : PtEntry) (s : State), s.ctx? ctx = some c ∧ c.leafAt s va = some x ∧ pteBit x.bits 58 = true ∧
      (frame % x.frames ≠ 0 ∨ ∃ i < x.frames, frameFree s (frame + i) = false)) ∧
    (∃ (ctx : Nat) (c : Ctx) (s : State), s.ctx? ctx = some c) ∧
    (∃ (ctx va : Nat) (home : BitVec 2) (c : Ctx) (x : PtEntry) (s : State), s.ctx? ctx = some c ∧ c.leafAt s va = some x ∧ x.home ≠ home.toNat ∧
      stuckLines s home.toNat x = [] ∧ Settled s ∧ x.bits < 2 ^ 64) ∧
    (∃ (t : TId) (pte va : BitVec 64) (reason : BitVec 4) (c : Ctx) (x : PtEntry) (s : State), (s.thread? t).isSome = true ∧
      (s.th t).run = .offered va reason ∧ s.ctxOf t.team = some c ∧ c.leafAt s va.toNat = some x ∧
      frameFree s (pteFrame pte.toNat / 65536) = false ∧ Settled s) ∧
    (∃ (x : Team) (l : Launch) (cause tid : Nat) (s : State), s.team? x.key = some x ∧ x.res = .faulted cause tid ∧ s.launch? x.launch = some l ∧
      x.sup = none ∧ x.off = true ∧ l.done = 0#64) ∧
    (∃ (x : Team) (cause tid : Nat) (s : State), s.team? x.key = some x ∧ x.res = .faulted cause tid ∧ x.sup = none ∧ x.off = false) ∧
    (∃ (x : Team) (cause tid : Nat) (s : State), s.team? x.key = some x ∧ x.res = .faulted cause tid ∧ x.sup.isSome = true) ∧
    (∃ (x : Team) (cause tid p : Nat) (f : Fit) (s : State), s.team? x.key = some x ∧ x.res = .faulted cause tid ∧ x.sup = none ∧ x.off = true ∧
      placeOld s x = some (p, f)) :=
  ⟨⟨1, 0, 0, labCtx, _, leafLab 4#8, rfl, leaf_lab _, by decide, by decide, by decide, settled_of (by decide) rfl⟩,
    ⟨1, 0, 1, labCtx, _, leafLab 4#8, rfl, leaf_lab _, by decide, .inr ⟨0, by decide, by decide⟩⟩, ⟨1, labCtx, leafLab 4#8, rfl⟩,
    ⟨1, 0, 3#2, labCtx, _, leafLab 0x10#8, rfl, leaf_lab _, by decide, by decide, settled_of (by decide) rfl, by decide⟩,
    ⟨t0, 0x1003F#64, 0#64, 5#4, labCtx, _, offeredLab 0#64, rfl, rfl, rfl, (show labCtx.leafAt (leafLab 0x10#8) 0 = _ from leaf_lab _), by decide,
      settled_of (by decide) rfl⟩,
    ⟨{ labTeam with res := .faulted 4 0, off := true }, labLaunch, 4, 0, withT (lab .nop []) fun x => { x with res := .faulted 4 0, off := true },
      rfl, rfl, rfl, rfl, rfl, rfl⟩,
    ⟨{ labTeam with res := .faulted 4 0 }, 4, 0, withT (lab .nop []) fun x => { x with res := .faulted 4 0 }, rfl, rfl, rfl, rfl⟩,
    ⟨{ labTeam with res := .faulted 4 0, sup := some 0 }, 4, 0, withT (lab .nop []) fun x => { x with res := .faulted 4 0, sup := some 0 }, rfl, rfl,
      rfl⟩,
    ⟨{ labTeam9 (.faulted 4 0) with off := true }, 4, 0, _, _,
      (let s := twoTeams (.faulted 4 0) .running; { s with teams := [labTeam, { labTeam9 (.faulted 4 0) with off := true }] }), rfl, rfl, rfl, rfl,
      some_got (by decide)⟩⟩

/-! ## The causes before an instruction's own effect, and issue groups -/

/-- The lab with the trip register of its core. -/
def tripLab (i : Instr) (r : Trip) : State :=
  let s := lab i [(4#7, 0x55#32), (10#7, 0x3000#32)]
  { s with part := { s.part with trips := s.part.trips.set 0 r } }
theorem vectored_in {s : State} (h : (s.ctxOf t0.team).any (fun c => c.trapvec == 0x1000#64) = true)
    (e : (!(s.th t0).inh && (s.th t0).clause.all fun c => decide ((s.th t0).widx ≤ c.count)) = true) : Vectored s t0 0x1000#64 := by
  simp only [Option.any_eq_true, beq_iff_eq, Bool.and_eq_true, Bool.not_eq_true'] at h e
  obtain ⟨c, a, b⟩ := h
  exact ⟨⟨c, a, b⟩, by decide, e.1, fun c k => by have := e.2; rw [k] at this; simpa using this⟩

theorem wit_TrapCauses :
    (∃ (i : Instr) (s : State) (t : TId) (r : Nat), StatedForm i ∧ CounterFree s t i ∧ Solo s t ∧
      matchHere s t (s.th t).wordAt.toNat i.word = none ∧ beyond s t i = some r ∧
      (∀ c, (s.th t).clause = some c → (s.th t).widx ≤ c.count) ∧ (s.th t).inh = false ∧ (s.gr t.gid).emuvec ≠ 0#64) ∧
    (∃ (i : Instr) (s : State) (t : TId) (r : Nat), StatedForm i ∧ CounterFree s t i ∧ Solo s t ∧
      matchHere s t (s.th t).wordAt.toNat i.word = none ∧ beyond s t i = some r ∧
      (∀ c, (s.th t).clause = some c → (s.th t).widx ≤ c.count) ∧ (s.th t).inh = true ∧ (s.team? t.team).isSome = true) ∧
    (∃ (i : Instr) (vec : BitVec 64) (k : BitVec 3) (s : State) (t : TId), i.wf = true ∧ StatedForm i ∧ CounterFree s t i ∧ Solo s t ∧
      matchHere s t (s.th t).wordAt.toNat i.word = none ∧ beyond s t i = none ∧ (s.th t).poisoned (regsEaten i) = some k ∧
      Vectored s t vec ∧ 1 ≤ k.toNat ∧ k.toNat ≤ 4) ∧
    (∃ (i : Instr) (p : PReg) (vec : BitVec 64) (s : State) (t : TId), (predsEaten i = [p] ∨ ∃ neg a, i = .brx neg p a) ∧ Solo s t ∧
      matchHere s t (s.th t).wordAt.toNat i.word = none ∧ beyond s t i = none ∧ ((s.th t).pred p).poison = true ∧ Vectored s t vec) ∧
    (∃ (i : Instr) (a : VReg) (vec : BitVec 64) (k : BitVec 3) (s : State) (t : TId), i = .ret a ∧ Solo s t ∧
      Clear s t i [] (match i with
        | .brx _ p _ => [p]
        | _ => []) ∧ (s.th t).poisoned [a, a + 1#7] = some k ∧ Vectored s t vec) ∧
    (∃ (i : Instr) (vec : BitVec 64) (act : Nat) (s : State) (t : TId), StatedForm i ∧ CounterFree s t i ∧ Solo s t ∧
      (s.th t).noMatch = false ∧ (s.th t).rep = none ∧ TripMatches s t 3 (s.th t).wordAt.toNat 4 i.word.toNat act ∧ Vectored s t vec ∧ act = 0) ∧
    (∃ (i : Instr) (vec : BitVec 64) (act : Nat) (s : State) (t : TId), StatedForm i ∧ CounterFree s t i ∧ Solo s t ∧
      (s.th t).noMatch = false ∧ (s.th t).rep = none ∧ TripMatches s t 3 (s.th t).wordAt.toNat 4 i.word.toNat act ∧ Vectored s t vec ∧
      1 ≤ act ∧ act ≤ 2 ∧ (s.gr t.gid).shutter = none ∧ slotOffered s (clusterOf (s.gr t.gid).core) = false) ∧
    (∃ (i : Instr) (vec : BitVec 64) (act : Nat) (s : State) (t : TId), StatedForm i ∧ CounterFree s t i ∧ Solo s t ∧
      (s.th t).noMatch = false ∧ (s.th t).rep = none ∧ TripMatches s t 3 (s.th t).wordAt.toNat 4 i.word.toNat act ∧ Vectored s t vec ∧
      1 ≤ act ∧ act ≤ 2 ∧ (s.gr t.gid).shutter = none ∧ slotOffered s (clusterOf (s.gr t.gid).core) = true ∧ i = .nop) ∧
    (∃ (i : Instr) (f : StoreForm) (pl : Place) (vec : BitVec 64) (s : State) (t : TId), storeForm i = some f ∧ Solo s t ∧
      Clear s t i (pairOf f.a ++ loadRegs f.d f.n) [] ∧
      Reaches s t .store f.wc ((s.th t).val64 f.a + f.off.signExtend 64) f.n pl ∧ (s.th t).wcBuf = none ∧ Settled s ∧ Writable s t pl f.cp ∧
      pl.combines = false ∧
      TripMatches s t 1 ((s.th t).val64 f.a + f.off.signExtend 64).toNat f.n
        ((if f.n = 8 then ((s.th t).val64 f.d).toNat else ((s.th t).val f.d).toNat) % 256 ^ f.n) 0 ∧ Vectored s t vec) ∧
    (∃ (p : PReg) (m : BitVec 8) (vec : BitVec 64) (s : State) (t : TId), Solo s t ∧ Clear s t (.grow p m) [] [] ∧ 128 < m.toNat ∧
      Vectored s t vec) :=
  ⟨⟨.iadd 4#7 5#7 64#7, lab (.iadd 4#7 5#7 64#7) [], t0, 64, .inl rfl, nofun, solo_lab _ _, by decide, by decide, fun c e => by cases e; decide,
      by decide, by decide⟩,
    ⟨.iadd 4#7 5#7 64#7, with0 (lab (.iadd 4#7 5#7 64#7) []) fun x => { x with tcause := 0x80000000#32 }, t0, 64, .inl rfl, nofun, ⟨rfl, rfl, rfl⟩,
      by decide, by decide, fun c e => by cases e; decide, by decide, by decide⟩,
    ⟨.sets 11#7 9#8, 0x1000#64, 4#3, with0 (lab (.sets 11#7 9#8) []) fun x => { x with v := x.v.set 11 ⟨0#32, true, 4#3⟩ }, t0, rfl,
      .inr (.inr (.inr (.inr (.inr (.inr (.inr ⟨_, _, rfl⟩)))))), nofun, ⟨rfl, rfl, rfl⟩, by decide, by decide, by decide,
      vectored_in (by decide) (by decide), by decide, by decide⟩,
    ⟨.bra 1#3 0#1 4#22, 1#3, 0x1000#64, with0 (lab (.bra 1#3 0#1 4#22) []) fun x => { x with p := x.p.set 1 ⟨false, true, 1#3⟩ }, t0, .inl rfl,
      ⟨rfl, rfl, rfl⟩, by decide, by decide, by decide, vectored_in (by decide) (by decide)⟩,
    ⟨.ret 10#7, 10#7, 0x1000#64, 0#3, with0 (lab (.ret 10#7) []) fun x => { x with v := x.v.set 11 ⟨0#32, true, 0#3⟩ }, t0, rfl, ⟨rfl, rfl, rfl⟩,
      clear_of (by decide), by decide, vectored_in (by decide) (by decide)⟩,
    ⟨.iadd 4#7 5#7 6#7, 0x1000#64, 0, tripLab (.iadd 4#7 5#7 6#7) ⟨0x104#64, 0x104#64, 0#64, 3#32, 7#16⟩, t0, .inl rfl, nofun, ⟨rfl, rfl, rfl⟩, rfl, rfl,
      ⟨rfl, rfl, ⟨_, rfl, rfl⟩, by decide, by decide, by decide, by decide, .inl (by decide), by decide⟩, vectored_in (by decide) (by decide), rfl⟩,
    ⟨.iadd 4#7 5#7 6#7, 0x1000#64, 2, fullSlots (tripLab (.iadd 4#7 5#7 6#7) ⟨0x100#64, 0x104#64, 0#64, 0x10B#32, 7#16⟩), t0, .inl rfl, nofun,
      ⟨rfl, rfl, rfl⟩, rfl, rfl, ⟨rfl, rfl, ⟨_, rfl, rfl⟩, by decide, by decide, by decide, by decide, .inl (by decide), by decide⟩,
      vectored_in (by decide) (by decide), by decide, by decide, rfl, by decide⟩,
    ⟨.nop, 0x1000#64, 1, tripLab .nop ⟨0#64, 0x2000#64, 0#64, 0x107#32, 7#16⟩, t0, .inr (.inr (.inr (.inr (.inl rfl)))), nofun, ⟨rfl, rfl, rfl⟩, rfl, rfl,
      ⟨rfl, rfl, ⟨_, rfl, rfl⟩, by decide, by decide, by decide, by decide, .inl (by decide), by decide⟩, vectored_in (by decide) (by decide),
      by decide, by decide, rfl, by decide, rfl⟩,
    ⟨.st 4#7 10#7 0#3 2#2 0#2 0#4, _, labPage 0x3000, 0x1000#64, tripLab (.st 4#7 10#7 0#3 2#2 0#2 0#4) ⟨0x3000#64, 0x3000#64, 0x55#64, 0x91#32, 7#16⟩, t0, rfl,
      ⟨rfl, rfl, rfl⟩, clear_of (by decide), reaches_of (by decide), rfl, settled_of (by decide) rfl, writable_page _ _ _ _ (by decide), rfl,
      ⟨rfl, rfl, ⟨_, rfl, rfl⟩, by decide, by decide, by decide, by decide, .inr (by decide), by decide⟩, vectored_in (by decide) (by decide)⟩,
    ⟨1#3, 129#8, 0x1000#64, lab (.grow 1#3 129#8) [], t0, solo_lab _ _, clear_of (by decide), by decide, vectored_in (by decide) (by decide)⟩⟩

theorem wit_GroupsActAlone : ∃ (i : Instr) (e : AluEffect) (s : State), (intEffect i = some e ∨ fmtEffect i = some e) ∧ Safe s ∧ s.cur.ths.Nodup ∧
    (∀ t ∈ s.cur.ths, t.gid = s.cur.gid ∧ (s.thread? t).isSome = true ∧ Clear s t i [] []) ∧ (s.group? s.cur.gid).isSome = true ∧
    (s.gr s.cur.gid).hosted = none ∧ s.cur.ths.length = 2 :=
  ⟨.imad 4#7 5#7 6#7, _, { lab (.imad 4#7 5#7 6#7) [] with cur := ⟨⟨8, 0⟩, [t0, ⟨8, 0, 1⟩]⟩ }, .inl rfl, safe_of (by decide), by decide,
    by intro t h
       rcases List.mem_cons.1 h with rfl | h
       · exact ⟨rfl, rfl, clear_of (by decide)⟩
       · cases List.mem_singleton.1 h; exact ⟨rfl, rfl, clear_of (by decide)⟩,
    rfl, rfl, rfl⟩

end Sys2Proof.Tests
end

section
/-! SUPPORT. Steps: what every effect keeps, every step keeps. -/

namespace Sys2Proof.Machine

/-- Every meaning but the loss of power is an effect. -/
theorem exec_effect (i : Instr) (s : State) (h : i ≠ .powerLoss) : ∃ e : Eff, exec i s = .next (e.run s) := by
  cases i with
  | powerLoss => exact absurd rfl h
  | _ => exact ⟨_, rfl⟩

/-- At reset the supervisor cores' teams alone exist, each with a name of its own below 8 (R209). -/
theorem reset_named : NamesDistinct State.reset ∧ (∀ x ∈ State.reset.teams, x.key < 8) ∧
    (∀ x ∈ State.reset.groups, x.id.team < 8) ∧ ∀ x ∈ State.reset.threads, x.id.team < 8 :=
  ⟨⟨by decide, by decide, by decide⟩, by decide⟩

/-- A state that shows the same bytes, threads, groups, teams and next name is as safe. -/
theorem safe_congr {a b : State} (h : Safe a) (hm : b.mem = a.mem) (hx : b.threads = a.threads) (hg : b.groups = a.groups)
    (ht : b.teams = a.teams) (hn : b.nextId = a.nextId) : Safe b where
  mem := by rw [hm]; exact h.mem
  names := ⟨by rw [hx]; exact h.names.threads, by rw [hg]; exact h.names.groups, by rw [ht]; exact h.names.teams⟩
  fresh := ⟨by rw [ht, hn]; exact h.fresh.teams, by rw [hg, hn]; exact h.fresh.groups, by rw [hx, hn]; exact h.fresh.threads⟩
  given := by rw [hn]; exact h.given

/-- The part without power has the supervisor cores' names, which are given. -/
theorem losePower_safe {s : State} (h : Safe s) : Safe s.losePower := by
  obtain ⟨hnames, ht, hg, hx⟩ := reset_named
  exact {
    mem := Memory.wf_keepFlash h.mem
    names := ⟨hnames.threads, hnames.groups, hnames.teams⟩
    fresh := ⟨fun x m => Nat.lt_of_lt_of_le (ht x m) h.given, fun x m => Nat.lt_of_lt_of_le (hg x m) h.given,
      fun x m => Nat.lt_of_lt_of_le (hx x m) h.given⟩
    given := h.given }

/-- Every instruction and event keeps a state safe. -/
theorem exec_safe {i : Instr} {s s' : State} (h : Safe s) (he : exec i s = .next s') : Safe s' := by
  by_cases hp : i = .powerLoss
  · subst hp
    cases he
    exact losePower_safe (run_safe (.upds _) s h)
  · obtain ⟨e, hr⟩ := exec_effect i s hp
    rw [hr] at he
    cases he
    exact run_safe e s h

/-- The state that the front of an issue group leaves. -/
def Front.state : Front → State
  | .done s => s
  | .exec _ s => s

theorem frontAt_safe (t : TId) {s : State} (h : Safe s) : Safe (frontAt t s).state := by
  unfold frontAt
  dsimp only
  split
  · exact run_safe _ s h
  · exact h

theorem frontEnter_safe (t : TId) {s : State} (h : Safe s) : Safe (frontEnter t s).state := by
  have hf : Safe (s.applyAll (fetchClause s t (s.th t).pc).2) := run_safe (.upds _) s h
  unfold frontEnter
  dsimp only
  split
  · exact run_safe _ _ hf
  · exact run_safe _ _ hf
  · split
    · exact run_safe _ _ hf
    · split
      · exact run_safe _ _ (run_safe _ _ hf)
      · exact frontAt_safe t (run_safe _ _ hf)

theorem front_safe (ths : List TId) {s : State} (h : Safe s) : Safe (front ths s).state := by
  cases ths with
  | nil => exact h
  | cons t ts =>
    have hc : Safe { s with cur := ⟨t.gid, t :: ts⟩ } := safe_congr h rfl rfl rfl rfl rfl
    unfold front
    dsimp only
    split
    · exact run_safe _ _ hc
    · split
      · exact frontEnter_safe t hc
      · exact frontAt_safe t hc

theorem stepParts_safe : ∀ (ps : List (List TId)) {s s' : State}, Safe s → stepParts ps s = .next s' → Safe s'
  | [], s, s', h, hs => by cases hs; exact h
  | ths :: rest, s, s', h, hs => by
    have hfront := front_safe ths h
    unfold stepParts at hs
    split at hs
    · split at hs
      next s1 hn =>
        refine stepParts_safe rest ?_ hs
        split at hn
        next s2 hd =>
          cases hn
          rw [hd] at hfront
          exact hfront
        next i s2 hd =>
          rw [hd] at hfront
          exact exec_safe hfront hn
      next hn => exact absurd hs (hn s')
    · exact stepParts_safe rest h hs

theorem ended_safe {s s1 s' : State} {ths : List TId} (h : Safe s1) (he : ended s ths (.next s1) = .next s') : Safe s' := by
  cases he
  exact run_safe (.upds _) _ (run_safe _ _ h)

theorem stepIssue_safe {ths : List TId} {s s' : State} (h : Safe s) (hs : stepIssue ths s = .next s') : Safe s' := by
  have hp : Safe (prepared.run s) := run_safe _ _ h
  unfold stepIssue at hs
  dsimp only at hs
  split at hs
  · cases ho : stepParts (partsOf (prepared.run s) ths.length ths) (prepared.run s) with
    | next s1 => rw [ho] at hs; exact ended_safe (stepParts_safe _ hp ho) hs
    | fault r => rw [ho] at hs; cases hs
    | refused r => rw [ho] at hs; cases hs
  · cases hs

theorem stepTurn_safe {turn : Turn} {s s' : State} (h : Safe s) (hs : stepTurn turn s = .next s') : Safe s' := by
  cases turn with
  | issue ths => exact stepIssue_safe h hs
  | event i => exact exec_safe h hs
  | tick =>
    obtain rfl : tickEff.run s = s' := Host.Outcome.next.inj hs
    exact run_safe tickEff s h

/-- A state in which at most the schedule, the events owed and the policy's counts differ. -/
def SameButTurn (a b : State) : Prop :=
  b = { a with sched := b.sched, events := b.events, since := b.since, evTurn := b.evTurn }

/-- What a turn finds is the state before it, but for what chooses turns. -/
theorem nextTurn_state (s : State) : SameButTurn s (nextTurn s).2 := by
  have issueTurn : SameButTurn s
      (match (if s.since < 6 then nextIssue (prepared.run { s with evTurn := true }) else none) with
        | some ths => ((.issue ths, { s with evTurn := true, since := s.since + 1 }) : Turn × State)
        | none => (.tick, { s with evTurn := true, since := 0 })).2 := by split <;> rfl
  have owes : ∀ (o : Option (Turn × State)) (d : Turn × State), (∀ x, o = some x → SameButTurn s x.2) → SameButTurn s d.2 →
      SameButTurn s (o.getD d).2 := by
    intro o d ho hd
    cases o with
    | none => exact hd
    | some x => exact ho x rfl
  unfold nextTurn
  split
  · rfl
  · split
    · rfl
    · dsimp only
      split
      · refine owes _ _ (fun x hx => ?_) issueTurn
        have due : ∀ x, (dueEvent s).map (fun e => ((.event e, { s with evTurn := false }) : Turn × State)) = some x →
            SameButTurn s x.2 := by
          intro x hx
          obtain ⟨e, _, rfl⟩ := Option.map_eq_some_iff.mp hx
          rfl
        have owed : ∀ x, (match s.events with
            | e :: es => some ((.event e, { s with events := es, evTurn := false }) : Turn × State)
            | [] => none) = some x → SameButTurn s x.2 := by
          intro x hx
          split at hx <;> cases hx
          rfl
        split at hx <;> rcases Option.or_eq_some_iff.mp hx with h | ⟨_, h⟩
        · exact due x h
        · exact owed x h
        · exact owed x h
        · exact due x h
      · exact issueTurn

/-- Settles O7: a turn runs effects, which keep a state safe, and the loss of power, which leaves the given names. -/
theorem stepKeepsSafe : Obligations.StepKeepsSafe := by
  intro s s' h hs
  have hf := nextTurn_state s
  have h' : Safe (nextTurn s).2 := by rw [hf]; exact safe_congr h rfl rfl rfl rfl rfl
  exact stepTurn_safe h' hs

end Sys2Proof.Machine
end

section
/-! SUPPORT. What moving on and the writes of registers leave of groups: all but a group's place in the active set; and what a trace
record leaves. -/

namespace Sys2Proof.Machine

/-! ## Groups -/

/-- A group, but for its place in the active set (R17). -/
def Group.butPlace (x : Group) : Group := { x with active := false, activeAt := 0, readyAt := none }

/-- Two states show the same groups, but for their places in the active sets. -/
def SameGroups (a b : State) : Prop := b.groups.map Group.butPlace = a.groups.map Group.butPlace

theorem SameGroups.refl (a : State) : SameGroups a a := rfl
theorem SameGroups.trans {a b c : State} (h : SameGroups a b) (g : SameGroups b c) : SameGroups a c := Eq.trans g h
theorem SameGroups.of_groups {a b : State} (h : b.groups = a.groups) : SameGroups a b := by unfold SameGroups; rw [h]

theorem butPlace_id (x : Group) : x.butPlace.id = x.id := rfl

theorem SameGroups.find {a b : State} (h : SameGroups a b) (g : GId) :
    (b.group? g).map Group.butPlace = (a.group? g).map Group.butPlace := by
  have key : ∀ s : State, (s.group? g).map Group.butPlace = (s.groups.map Group.butPlace).find? fun x => x.id == g :=
    fun s => (find_map_eq Group.id g Group.butPlace butPlace_id s.groups).symm
  rw [key, key, h]

theorem SameGroups.isSome {a b : State} (h : SameGroups a b) (g : GId) : (b.group? g).isSome = (a.group? g).isSome := by
  have := congrArg Option.isSome (h.find g)
  simpa using this

theorem SameGroups.gr {a b : State} (h : SameGroups a b) (g : GId) : (b.gr g).butPlace = (a.gr g).butPlace := by
  have key : ∀ s : State, (s.gr g).butPlace = ((s.group? g).map Group.butPlace).getD (Group.fresh g 16 0 0 0#64 0#64 0).butPlace := by
    intro s
    unfold State.gr
    cases s.group? g <;> rfl
  rw [key, key, h.find]

/-- What a field of a group that is not about its place shows. -/
theorem SameGroups.field {a b : State} (h : SameGroups a b) (g : GId) {α : Type} (f : Group → α) (hf : ∀ x, f x.butPlace = f x) :
    f (b.gr g) = f (a.gr g) := by rw [← hf, h.gr, hf]

theorem SameGroups.hosted {a b : State} (h : SameGroups a b) (g : GId) : (b.gr g).hosted = (a.gr g).hosted :=
  h.field g Group.hosted fun _ => rfl

/-- A change of a group's place in the active set. -/
theorem SameGroups.ofPlace (s : State) (g : GId) (f : Group → Group) (hf : ∀ x, (f x).butPlace = x.butPlace) :
    SameGroups s ((Upd.group g f).apply s) := by
  unfold SameGroups
  rw [apply_group_groups, List.map_map]
  refine List.map_congr_left fun x _ => ?_
  unfold Function.comp mapGroup
  split
  · exact congrArg (fun y : Group => { y with id := x.id }) (hf x)
  · rfl

theorem swapActive_sameGroups (s a : State) (g : GId) : SameGroups a (a.applyAll (swapActive s g)) := by
  unfold swapActive
  split
  · exact SameGroups.refl a
  · rw [applyAll_cons, applyAll_cons, applyAll_nil]
    refine SameGroups.trans (SameGroups.ofPlace a _ _ ?_) (SameGroups.ofPlace _ _ _ ?_)
    all_goals exact fun _ => rfl

theorem yieldPlace_sameGroups (s a : State) (t : TId) (y : Bool) : SameGroups a (a.applyAll (yieldPlace s t y)) := by
  unfold yieldPlace
  split
  · exact swapActive_sameGroups s a _
  · exact SameGroups.refl a

theorem done_sameGroups (s : State) (t : TId) (len : Nat) : SameGroups s ((Eff.done t len).run s) := by
  simp only [Eff.done, run_act]
  rw [applyAll_append]
  refine SameGroups.trans (SameGroups.of_groups ?_) (yieldPlace_sameGroups _ _ _ _)
  rw [applyAll_append, (applyAll_spares _ _ (progress_spares s t.team)).2.1]
  rfl

/-- A change of groups shows in no field that it keeps. -/
theorem gr_apply_group_field (s : State) (g k : GId) (F : Group → Group) {α : Type} (f : Group → α)
    (hf : ∀ x : Group, f { F x with id := x.id } = f x) : f (((Upd.group g F).apply s).gr k) = f (s.gr k) := by
  by_cases hk : k = g
  · subst hk
    unfold State.gr
    rw [group?_apply_group]
    cases hx : s.group? k with
    | none => rfl
    | some x =>
      have hid := group?_id hx
      simpa [mapGroup, hid] using hf x
  · rw [gr_apply_group_ne s F hk]

/-! ## Threads -/

theorem withId_self {y : Thread} {t : TId} (h : y.id = t) : { y with id := t } = y := by subst h; rfl

/-- A change of a thread that exists, which keeps its name. -/
theorem th_apply_thread_keep {s : State} {t : TId} {f : Thread → Thread} (h : (s.thread? t).isSome = true)
    (hf : (f (s.th t)).id = t) : ((Upd.thread t f).apply s).th t = f (s.th t) :=
  (th_apply_thread_self f h).trans (withId_self hf)

/-- An update of a thread, made to the list. -/
theorem mem_apply_thread {s : State} {t : TId} {f : Thread → Thread} {x : Thread} (h : x ∈ ((Upd.thread t f).apply s).threads) :
    (x ∈ s.threads ∧ x.id ≠ t) ∨ ∃ y ∈ s.threads, y.id = t ∧ x = { f y with id := t } := by
  obtain ⟨y, hy, rfl⟩ := List.mem_map.mp h
  unfold mapThread
  split
  next e => exact .inr ⟨y, hy, e, by rw [← e]⟩
  next e => exact .inl ⟨hy, e⟩

theorem done_threads (s : State) (t : TId) (len : Nat) : ((Eff.done t len).run s).threads =
    s.threads.map (mapThread t fun x => (x.step len).issued s.stamp (s.cycleOf t)) := by
  simp only [Eff.done, run_act]
  rw [applyAll_append, yieldPlace_threads, applyAll_append, (applyAll_spares _ _ (progress_spares s t.team)).1]
  rfl

/-! ## Where threads stand -/

/-- Two threads stand at the same word, in the same execution of a REPEAT and with the same count of an IFP. -/
structure Stands (x y : Thread) : Prop where
  pc : y.pc = x.pc
  widx : y.widx = x.widx
  clause : y.clause = x.clause
  rep : y.rep = x.rep
  ifpN : y.ifpN = x.ifpN

theorem Stands.refl (x : Thread) : Stands x x := ⟨rfl, rfl, rfl, rfl, rfl⟩
theorem Stands.trans {x y z : Thread} (h : Stands x y) (g : Stands y z) : Stands x z :=
  ⟨g.pc.trans h.pc, g.widx.trans h.widx, g.clause.trans h.clause, g.rep.trans h.rep, g.ifpN.trans h.ifpN⟩

/-- Where a thread goes on depends on where it stands alone. -/
theorem Stands.step {x y : Thread} (h : Stands x y) (len : Nat) : Stands (x.step len) (y.step len) := by
  obtain ⟨h1, h2, h3, h4, h5⟩ := h
  simp only [Thread.step, Thread.step.move, Thread.goTo, h1, h2, h3, h4, h5]
  repeat' split
  all_goals exact ⟨rfl, rfl, rfl, rfl, rfl⟩

/-- A thread moves on from where it stood, whatever else of it has changed before. -/
theorem MovesOn.of_stands {s a b : State} {t : TId} {len : Nat} (h : Stands (s.th t) (a.th t)) (hm : MovesOn a b t len) :
    MovesOn s b t len := by
  obtain ⟨h1, h2, h3, h4, h5⟩ := h.step len
  obtain ⟨m1, m2, m3, m4, m5, m6⟩ := hm
  exact ⟨m1.trans h1, m2.trans h2, m3.trans h3, m4.trans h4, m5.trans h5, m6⟩

/-- What a state shows of threads alone tells that a thread moves on. -/
theorem MovesOn.of_th {s a b : State} {t : TId} {len : Nat} (h : b.th t = a.th t) (hm : MovesOn s a t len) : MovesOn s b t len := by
  unfold MovesOn
  rw [h]
  exact hm

/-! ## Trace records -/

/-- An instruction with its trace record, TRACE apart: the record changes a debug block and the microscope cores alone. -/
theorem traced_debug (s : State) (t : TId) {i : Instr} (hi : ∀ op, i ≠ .trace op) (body : Eff) :
    (traced t i body).run s = body.run s ∨
      ∃ h, (s.gr t.gid).hosted = some h ∧ SameButDebug h.m (body.run s) ((traced t i body).run s) := by
  cases hh : (s.gr t.gid).hosted with
  | none => left; simp [traced, hh]
  | some h =>
    have key : (traced t i body).run s =
        (Eff.read fun s' => if (s'.th t).run.heldBack then .nothing else traceRecord s t i false).run (body.run s) := by
      simp only [traced, run_read, hh, Option.isNone_some, Bool.false_eq_true, if_false]
      cases i <;> first | exact absurd rfl (hi _) | rfl
    rw [key, run_read]
    split
    · exact .inl rfl
    · rcases traceRecord_debug s (body.run s) t i false with he | ⟨g, hg, hd⟩
      · exact .inl he
      · exact .inr ⟨g, hh.symm.trans hg, hd⟩

theorem traced_names (s : State) (t : TId) {i : Instr} (hi : ∀ op, i ≠ .trace op) (body : Eff) :
    ((traced t i body).run s).threads = (body.run s).threads ∧ ((traced t i body).run s).groups = (body.run s).groups ∧
      ((traced t i body).run s).teams = (body.run s).teams := by
  rcases traced_debug s t hi body with he | ⟨_, _, hd⟩
  · rw [he]; exact ⟨rfl, rfl, rfl⟩
  · exact ⟨hd.threads, hd.groups, hd.teams⟩

theorem traced_unhosted {s : State} {t : TId} (h : (s.gr t.gid).hosted = none) (i : Instr) (body : Eff) :
    (traced t i body).run s = body.run s := by simp [traced, h]

theorem traceRecord_unhosted {s : State} {t : TId} (h : (s.gr t.gid).hosted = none) (i : Instr) (v : Bool) (a : State) :
    (traceRecord s t i v).run a = a := by simp [traceRecord, h]

end Sys2Proof.Machine
end

section
/-! SUPPORT. The turn of an issue group: its parts, its front, what ends it; and the words that a false guard makes void. -/

open Sys2Proof Sys2Proof.Machine

namespace Sys2Proof.Machine

/-! ## A turn -/

theorem step_turnOf {s s1 : State} {ths : List TId} {rest : List Turn} (h : TurnOf s s1 ths rest) :
    step s = ended s1 ths (stepParts (partsOf s1 ths.length ths) s1) := by
  have hn : nextTurn s = (.issue ths, { s with sched := rest }) := by simp only [nextTurn, h.sched]
  unfold step
  rw [hn]
  simp only [stepTurn, stepIssue]
  rw [← h.found, if_pos h.group]

/-- Threads that stand alike are one part. -/
theorem partsOf_alike {s : State} {t : TId} {ts : List TId} (h : ∀ u ∈ ts, (s.th t).sameStand (s.th u) = true) :
    partsOf s (t :: ts).length (t :: ts) = [t :: ts] := by
  have h1 : ts.filter (fun u => (s.th t).sameStand (s.th u)) = ts := List.filter_eq_self.mpr h
  have h2 : ts.filter (fun u => !(s.th t).sameStand (s.th u)) = [] :=
    List.filter_eq_nil_iff.mpr fun u hu => by simp [h u hu]
  simp only [List.length_cons, partsOf, h1, h2]
  cases ts.length <;> rfl

/-- Two threads that stand differently are two parts. -/
theorem partsOf_pair {s : State} {t u : TId} (h : (s.th t).sameStand (s.th u) = false) :
    partsOf s [t, u].length [t, u] = [[t], [u]] := by simp [partsOf, h]

theorem stepParts_cons {s : State} {ths : List TId} (rest : List (List TId)) (h : issuable s ths = true) :
    stepParts (ths :: rest) s = match (match front ths s with
        | .done s' => .next s'
        | .exec i s' => exec i s' : Host.Outcome State Fault Refusal) with
      | .next s' => stepParts rest s'
      | r => r := by rw [stepParts]; exact if_pos h

/-- One part alone: the step is what its front leaves. -/
theorem stepParts_one {s : State} {ths : List TId} (h : issuable s ths = true) :
    stepParts [ths] s = match front ths s with
      | .done s' => .next s'
      | .exec i s' => exec i s' := by
  rw [stepParts_cons _ h]
  cases front ths s with
  | done s' => rfl
  | exec i s' => dsimp only; cases exec i s' <;> rfl

theorem issuable_head {s : State} {t : TId} {ts : List TId} (h : issuable s (t :: ts) = true) :
    (s.thread? t).isSome = true ∧ eligible s (s.th t) = true ∧ together s (s.th t) (s.th t) = true := by
  simp only [issuable, List.all_cons, Bool.and_eq_true] at h
  exact ⟨h.1.1.1.1.1.1, h.1.1.1.1.1.2, h.1.1.1.1.2⟩

/-- Its first thread is an issue group. -/
theorem issuable_first {s : State} {t : TId} {ts : List TId} (h : issuable s (t :: ts) = true) : issuable s [t] = true := by
  obtain ⟨h1, h2, h3⟩ := issuable_head h
  simp [issuable, h1, h2, h3]

/-- A group that no microscope core hosts, and that issues, exists. -/
theorem group_of_issuable {s : State} {t : TId} {ts : List TId} (h : issuable s (t :: ts) = true) (hh : Unhosted s t) :
    (s.group? t.gid).isSome = true := by
  obtain ⟨_, he, _⟩ := issuable_head h
  simp only [eligible, th_id, show (s.gr t.gid).hosted = none from hh, Option.isSome_none, Bool.or_false, Bool.and_eq_true] at he
  cases hg : s.group? t.gid with
  | some g => rfl
  | none => simp [State.gr, hg, Group.fresh] at he

/-! ## The front -/

theorem front_cons {s : State} {t : TId} {ts : List TId} {c : Clause} (hw : ∀ u ∈ t :: ts, (s.th u).watch = none)
    (hc : (s.th t).clause = some c) : front (t :: ts) s = frontAt t { s with cur := ⟨t.gid, t :: ts⟩ } := by
  have h1 : ((t :: ts).any fun u => (s.th u).watch.isSome) = false := by
    rw [List.any_eq_false]
    intro u hu
    simp [hw u hu]
  have h2 : (s.th t).clause.isNone = false := by simp [hc]
  exact (if_neg (Bool.not_eq_true _ ▸ h1)).trans (if_neg (Bool.not_eq_true _ ▸ h2))

theorem front_watch {s : State} {t : TId} {ts : List TId} (hw : ∃ u ∈ t :: ts, (s.th u).watch.isSome = true) :
    front (t :: ts) s = .done ((perThread takeWatch).run { s with cur := ⟨t.gid, t :: ts⟩ }) := by
  exact if_pos (List.any_eq_true.mpr hw)

/-- The instruction of a word is the one a thread stands at. -/
theorem instr_of_wordHolds {x : Thread} {c : Clause} {i : Instr} (hc : x.clause = some c) (h : WordHolds x c i) : x.instr = i := by
  simp only [Thread.instr, hc, Clause.instrAt]
  rcases h with ⟨hr, hd⟩ | ⟨r, hr, hd⟩ <;> simp only [hr, hd]

theorem frontAt_exec {s : State} {t : TId} {c : Clause} {i : Instr} (hc : (s.th t).clause = some c) (hv : (s.th t).voided = false)
    (h : WordHolds (s.th t) c i) : frontAt t s = .exec i s := by
  simp only [frontAt, hv, Bool.false_eq_true, if_false, instr_of_wordHolds hc h]

/-! ## What ends a turn -/

/-- The turn of a group that no microscope core hosts ends with the count of its cycle. -/
theorem ended_unhosted {s s' : State} {ths : List TId} (h : (s'.gr s'.cur.gid).hosted = none) :
    ended s ths (.next s') = .next (s'.applyAll (countIssue s s' ths)) := by
  simp [ended, hostedEnd, h]

theorem countIssue_part (s s' : State) (ths : List TId) (a : State) : ∃ p, a.applyAll (countIssue s s' ths) = { a with part := p } := by
  unfold countIssue
  split
  · exact ⟨a.part, rfl⟩
  · exact ⟨_, rfl⟩

end Sys2Proof.Machine
end

section
/-! SUPPORT. Rendezvous: what the results of the threads that leave one change (R22). -/

open Sys2Proof Sys2Proof.Machine

namespace Sys2Proof.Machine

/-! ## Effects that keep a relation -/

/-- A list of effects keeps what each of them keeps. -/
theorem each_rel {α : Type} (R : State → State → Prop) (hr : ∀ s, R s s) (ht : ∀ a b c, R a b → R b c → R a c) (f : α → Eff) :
    ∀ (l : List α) (s : State), (∀ x ∈ l, ∀ a, R a ((f x).run a)) → R s ((Eff.each f l).run s)
  | [], s, _ => hr s
  | x :: l, s, h => ht _ _ _ (h x List.mem_cons_self s)
    (each_rel R hr ht f l ((f x).run s) fun y hy a => h y (List.mem_cons_of_mem _ hy) a)

/-- A list of updates keeps what each of them keeps. -/
theorem updates_rel (R : State → State → Prop) (hr : ∀ s, R s s) (ht : ∀ a b c, R a b → R b c → R a c) :
    ∀ (us : List Upd) (s : State), (∀ u ∈ us, ∀ a, R a (u.apply a)) → R s (s.applyAll us)
  | [], s, _ => hr s
  | u :: us, s, h => ht _ _ _ (h u List.mem_cons_self s)
    (updates_rel R hr ht us (u.apply s) fun v hv a => h v (List.mem_cons_of_mem _ hv) a)

/-! ## Other threads, and groups -/

/-- Between two states at most thread `t` differs, and the places of groups in the active sets; the part apart. -/
structure OthersKept (t : TId) (a b : State) : Prop where
  threads : ∀ u, u ≠ t → b.th u = a.th u
  ids : b.threads.map Thread.id = a.threads.map Thread.id
  groups : SameGroups a b
  teams : b.teams = a.teams

theorem OthersKept.refl (t : TId) (a : State) : OthersKept t a a := ⟨fun _ _ => rfl, rfl, SameGroups.refl a, rfl⟩
theorem OthersKept.trans {t : TId} {a b c : State} (h : OthersKept t a b) (g : OthersKept t b c) : OthersKept t a c :=
  ⟨fun u hu => (g.threads u hu).trans (h.threads u hu), g.ids.trans h.ids, h.groups.trans g.groups, g.teams.trans h.teams⟩

theorem OthersKept.of_same {t : TId} {a b : State} (ht : b.threads = a.threads) (hg : b.groups = a.groups) (hk : b.teams = a.teams) :
    OthersKept t a b := ⟨fun u _ => th_of_threads ht u, by rw [ht], SameGroups.of_groups hg, hk⟩

/-- A state that shows names shows which threads there are. -/
theorem isSome_of_ids {a b : State} (h : b.threads.map Thread.id = a.threads.map Thread.id) (u : TId) :
    (b.thread? u).isSome = (a.thread? u).isSome := by
  have key : ∀ s : State, (s.thread? u).isSome = true ↔ u ∈ s.threads.map Thread.id := by
    intro s
    unfold State.thread?
    rw [List.find?_isSome, List.mem_map]
    exact ⟨fun ⟨x, hx, e⟩ => ⟨x, hx, by simpa using e⟩, fun ⟨x, hx, e⟩ => ⟨x, hx, by simpa using e⟩⟩
  rw [Bool.eq_iff_iff, key, key, h]

theorem mapThread_ids (s : State) (t : TId) (f : Thread → Thread) :
    ((Upd.thread t f).apply s).threads.map Thread.id = s.threads.map Thread.id :=
  map_name Thread.id _ (mapThread_id t f) s.threads

theorem OthersKept.thread (a : State) (t : TId) (f : Thread → Thread) : OthersKept t a ((Upd.thread t f).apply a) :=
  ⟨fun _ hu => th_apply_thread_ne a f hu, mapThread_ids a t f, SameGroups.refl a, rfl⟩

/-- An update of no thread, group or team. -/
theorem OthersKept.spares {us : List Upd} (a : State) (t : TId) (h : us.all Upd.spares = true) : OthersKept t a (a.applyAll us) :=
  .of_same (applyAll_spares us a h).1 (applyAll_spares us a h).2.1 (applyAll_spares us a h).2.2

theorem OthersKept.yield (s a : State) (t u : TId) (y : Bool) : OthersKept t a (a.applyAll (yieldPlace s u y)) :=
  ⟨fun v _ => th_of_threads (yieldPlace_threads s a u y) v, by rw [yieldPlace_threads], yieldPlace_sameGroups s a u y,
    yieldPlace_teams s a u y⟩

theorem OthersKept.done (s : State) (t : TId) (len : Nat) : OthersKept t s ((Eff.done t len).run s) :=
  ⟨fun _ hu => done_th_ne s len hu, by rw [done_threads]; exact mapThread_ids s t _, done_sameGroups s t len, done_teams s t len⟩

theorem OthersKept.putReg (s a : State) (t : TId) (r : VReg) (y : Reg) : OthersKept t a (a.applyAll (putReg s t r y)) := by
  unfold Machine.putReg
  rw [applyAll_cons]
  exact (OthersKept.thread a t _).trans (.spares _ t (by rw [List.all_append, historyV_spares, touchB_spares]; rfl))

/-- A trace record changes no thread, group or team. -/
theorem OthersKept.traceRecord (s a : State) (t u : TId) (i : Instr) (v : Bool) :
    OthersKept u a ((traceRecord s t i v).run a) := by
  rcases traceRecord_debug s a t i v with he | ⟨_, _, hd⟩
  · rw [he]; exact OthersKept.refl u a
  · exact .of_same hd.threads hd.groups hd.teams

/-- An instruction with its trace record keeps the other threads that its effect keeps. -/
theorem OthersKept.traced {t : TId} {i : Instr} {body : Eff} (hb : ∀ a, OthersKept t a (body.run a)) (s : State) :
    OthersKept t s ((traced t i body).run s) := by
  simp only [Machine.traced, run_read]
  split
  · exact hb s
  · split
    · split
      · exact hb s
      · exact (OthersKept.traceRecord s s t t _ false).trans (hb _)
    · rw [run_seq, run_read]
      refine (hb s).trans ?_
      split
      · exact OthersKept.refl t _
      · exact OthersKept.traceRecord s _ t t _ false

/-! ## Results of a rendezvous -/

theorem LaneResult.write_keeps (r : LaneResult) (t : TId) (s : State) : OthersKept t s ((r.write t).run s) := by
  simp only [LaneResult.write, run_act]
  rw [applyAll_append]
  have hregs : ∀ (l : List (VReg × Reg)) (a : State), OthersKept t a (a.applyAll (l.flatMap fun x => putReg s t x.1 x.2)) := by
    intro l
    induction l with
    | nil => exact OthersKept.refl t
    | cons x l ih =>
      intro a
      rw [List.flatMap_cons, applyAll_append]
      exact (OthersKept.putReg s a t _ _).trans (ih _)
  refine (hregs r.regs s).trans (updates_rel (OthersKept t) (OthersKept.refl t) (fun _ _ _ => OthersKept.trans) _ _ fun u hu a => ?_)
  obtain ⟨x, _, rfl⟩ := List.mem_map.mp hu
  exact OthersKept.thread a t _

/-- A thread that leaves a rendezvous changes no other thread. -/
theorem takeResult_keeps (s : State) (x : Thread) (a : State) : OthersKept x.id a ((takeResult s x).run a) :=
  OthersKept.traced (fun b => (LaneResult.write_keeps _ x.id b).trans (OthersKept.done _ x.id 1)) a

/-- The threads that leave change none but themselves. -/
theorem each_takeResult_keeps (s : State) {t : TId} {l : List Thread} (h : ∀ x ∈ l, x.id ≠ t) (a : State) :
    ((Eff.each (takeResult s) l).run a).th t = a.th t ∧ SameGroups a ((Eff.each (takeResult s) l).run a) := by
  refine each_rel (fun a b => b.th t = a.th t ∧ SameGroups a b) (fun a => ⟨rfl, SameGroups.refl a⟩)
    (fun _ _ _ h g => ⟨g.1.trans h.1, h.2.trans g.2⟩) _ l a fun x hx b => ?_
  have := takeResult_keeps s x b
  exact ⟨this.threads t (Ne.symm (h x hx)), this.groups⟩

/-- Effects for threads of distinct names that each act on their own thread alone: each acts as it would alone. -/
theorem each_own {α : Type} {name : α → TId} {f : α → Eff} (hf : ∀ x a, OthersKept (name x) a ((f x).run a)) (l : List α) (a : State)
    (hnd : (l.map name).Nodup) (x : α) (hx : x ∈ l) : ∃ b,
      (∀ u, (b.thread? u).isSome = (a.thread? u).isSome) ∧ SameGroups a b ∧ b.th (name x) = a.th (name x) ∧
      ((Eff.each f l).run a).th (name x) = ((f x).run b).th (name x) := by
  induction l generalizing a with
  | nil => cases hx
  | cons y l ih =>
    rw [List.map_cons, List.nodup_cons] at hnd
    obtain ⟨hnot, hnd⟩ := hnd
    rw [run_each_cons]
    rcases List.mem_cons.mp hx with rfl | hx
    · refine ⟨a, fun _ => rfl, SameGroups.refl a, rfl, ?_⟩
      refine each_rel (fun a b => b.th (name x) = a.th (name x)) (fun _ => rfl) (fun _ _ _ h g => g.trans h) f l _ fun z hz b => ?_
      exact (hf z b).threads _ fun e => hnot (e ▸ List.mem_map_of_mem hz)
    · have hne : name x ≠ name y := fun e => hnot (e ▸ List.mem_map_of_mem hx)
      have hy := hf y a
      obtain ⟨b, h1, h2, h3, h4⟩ := ih ((f y).run a) hnd hx
      exact ⟨b, fun u => (h1 u).trans (isSome_of_ids hy.ids u), hy.groups.trans h2, h3.trans (hy.threads _ hne), h4⟩

/-- The rendezvous that resolve leave a thread that waits at none, and what their groups hold but arrivals and the passing of others. -/
theorem settleLanes_keeps (g : GId) {t : TId} {s : State} (h : ∀ x ∈ s.threads, x.id = t → x.run ≠ .waiting .rendezvous) :
    ((settleLanes g).run s).th t = s.th t ∧ (∀ k, (((settleLanes g).run s).gr k).hosted = (s.gr k).hosted) ∧
      ∀ k, (((settleLanes g).run s).gr k).passed = (s.gr k).passed := by
  simp only [settleLanes, run_read, run_seq, run_upds, applyAll_cons, applyAll_nil]
  have hgo : ∀ x ∈ (s.threadsOf g).filter (resolves s), x.id ≠ t := by
    intro x hx hid
    obtain ⟨hm, hr⟩ := List.mem_filter.mp hx
    refine h x (mem_threadsOf.mp hm).1 hid ?_
    simp only [resolves, Bool.and_eq_true, beq_iff_eq] at hr
    exact hr.1
  obtain ⟨ht, hg⟩ := each_takeResult_keeps s hgo s
  refine ⟨by rw [apply_group_th]; exact ht, ?_, ?_⟩
  · exact fun k => (gr_apply_group_field _ _ k _ Group.hosted (by exact fun _ => rfl)).trans (hg.hosted k)
  · exact fun k => (gr_apply_group_field _ _ k _ Group.passed (by exact fun _ => rfl)).trans (hg.field k Group.passed fun _ => rfl)

end Sys2Proof.Machine
end

section
/-! SUPPORT. The turn of an issue group runs the instruction at its word, and passes a void word (R15, R48, R64, R65). -/

open Sys2Proof Sys2Proof.Machine

namespace Sys2Proof.Machine

/-- What passing a void word leaves in its group: a cross-lane instruction is noted as passed (R65). -/
theorem passLane_frame (s : State) (t : TId) : ((passLane t).run s).threads = s.threads ∧ ((passLane t).run s).mem = s.mem ∧
    (∀ g, (((passLane t).run s).gr g).hosted = (s.gr g).hosted) ∧
    ∀ g, (((passLane t).run s).group? g).isSome = (s.group? g).isSome :=
  ⟨rfl, rfl, fun g => gr_apply_group_field s t.gid g _ Group.hosted (by exact fun _ => rfl),
    fun g => isSome_group?_apply_group s t.gid g _⟩

theorem passLane_passed {s : State} {t : TId} (h : (s.group? t.gid).isSome = true) :
    ∃ a ∈ (((passLane t).run s).gr t.gid).passed, a.addr = (s.th t).wordAt ∧ a.idx = t.idx := by
  refine ⟨⟨(s.th t).wordAt, t.idx, Reg.zero⟩, ?_, rfl, rfl⟩
  simp only [passLane, run_act, applyAll_cons, applyAll_nil]
  rw [gr_apply_group_self _ h]
  exact List.mem_cons_self

theorem shrinks_part (t : TId) : ∀ (n : Nat) (s : State), ∃ p, s.applyAll (List.replicate n (shrinkWindows t)) = { s with part := p }
  | 0, s => ⟨s.part, rfl⟩
  | n + 1, s => by
    obtain ⟨p, hp⟩ := shrinks_part t n ((shrinkWindows t).apply s)
    exact ⟨p, by rw [List.replicate_succ, applyAll_cons, hp]; rfl⟩

/-- The state before a thread moves past a void word: a cross-lane instruction is noted as passed. -/
def noted (i : Instr) (t : TId) (s : State) : State := if i.crossLane then (passLane t).run s else s

theorem noted_frame (i : Instr) (t : TId) (s : State) : (noted i t s).threads = s.threads ∧ (noted i t s).mem = s.mem ∧
    (∀ g, ((noted i t s).gr g).hosted = (s.gr g).hosted) ∧ ∀ g, ((noted i t s).group? g).isSome = (s.group? g).isSome := by
  unfold noted
  split
  · exact passLane_frame s t
  · exact ⟨rfl, rfl, fun _ => rfl, fun _ => rfl⟩

/-- A void word, and the target of a void REPEAT with it, is passed (R64, R67). -/
theorem passVoid_run {s : State} {t : TId} {c : Clause} (i : Instr) (hh : Unhosted s t) (hc : (s.th t).clause = some c) :
    ∃ p, (passVoid i t).run s = { (Eff.done t (voidLen (s.th t) c i)).run (noted i t s) with part := p } := by
  have hpass : ∀ e : Eff, (Eff.seq (if i.crossLane then passLane t else .nothing) e).run s = e.run (noted i t s) := by
    intro e
    unfold noted
    cases i.crossLane <;> rfl
  simp only [passVoid, run_read, hpass, run_seq, traceRecord_unhosted (show (s.gr t.gid).hosted = none from hh), hc]
  split
  next sm sc n =>
    have hl : voidLen (s.th t) c (.repeatN sm sc n) = 1 + (c.instrAt ((s.th t).widx + 1) none).len := rfl
    rw [hl, run_seq, run_upds]
    exact shrinks_part t _ _
  next hne =>
    have hl : voidLen (s.th t) c i = i.len := by
      unfold voidLen
      split
      · exact absurd rfl (hne _ _ _)
      · rfl
    exact ⟨_, by rw [hl]⟩

theorem noted_passed {i : Instr} {s : State} {t : TId} (h : (s.group? t.gid).isSome = true) (hc : i.crossLane = true) :
    ∃ a ∈ ((noted i t s).gr t.gid).passed, a.addr = (s.th t).wordAt ∧ a.idx = t.idx := by
  rw [noted, if_pos hc]
  exact passLane_passed h

/-- A thread of a group that issues alone passes a void word: it moves on, and the rendezvous that this resolves are over. -/
theorem frontAt_void {s : State} {t : TId} {c : Clause} {i : Instr} (hcur : s.cur = ⟨t.gid, [t]⟩)
    (hc : (s.th t).clause = some c) (hv : (s.th t).voided = true) (hd : decodeWord (c.word (s.th t).widx) (c.word ((s.th t).widx + 1)) = .ok i) :
    frontAt t s = .done ((if i.crossLane then settleLanes t.gid else .nothing).run ((passVoid i t).run s)) := by
  have hi : (s.th t).instr = i := by
    have hr : (s.th t).rep = none := by
      simp only [Thread.voided, Bool.and_eq_true, Option.isNone_iff_eq_none] at hv
      exact hv.2
    exact instr_of_wordHolds hc (.inl ⟨hr, hd⟩)
  simp only [frontAt, hv, if_true, hi, run_seq, run_perThread, hcur, run_each_cons, run_each_nil]

/-- What a void word leaves of a thread whose group no microscope core hosts, before the rendezvous that this resolves are over. -/
theorem passVoid_frame {s : State} {t : TId} {c : Clause} (i : Instr) (hh : Unhosted s t) (he : (s.thread? t).isSome = true)
    (hc : (s.th t).clause = some c) :
    let a := (passVoid i t).run s
    MovesOn s a t (voidLen (s.th t) c i) ∧ (a.th t).v = (s.th t).v ∧ (a.th t).p = (s.th t).p ∧
      (∀ x ∈ a.threads, x.id = t → x.run = .running) ∧ (∀ u, u ≠ t → a.th u = s.th u) ∧ a.mem = s.mem ∧ (a.gr t.gid).hosted = none ∧
      (a.gr t.gid).passed = ((noted i t s).gr t.gid).passed ∧ a.cur = s.cur := by
  obtain ⟨hthreads, hmem, hhosted, _⟩ := noted_frame i t s
  have hth : ∀ u, (noted i t s).th u = s.th u := th_of_threads hthreads
  have he' : ((noted i t s).thread? t).isSome = true := by unfold State.thread?; rw [hthreads]; exact he
  obtain ⟨p, hp⟩ := passVoid_run i hh hc
  have hself := done_th_self (voidLen (s.th t) c i) he'
  have hmoves := done_movesOn (voidLen (s.th t) c i) he'
  have hothers : ∀ u, u ≠ t → _ := fun u hu => done_th_ne (noted i t s) (voidLen (s.th t) c i) hu
  have hlist := done_threads (noted i t s) t (voidLen (s.th t) c i)
  have hbytes := done_mem (noted i t s) t (voidLen (s.th t) c i)
  have hgroups := done_sameGroups (noted i t s) t (voidLen (s.th t) c i)
  rw [hth] at hself
  simp only [MovesOn, hth] at hmoves
  have hrun : ∀ x ∈ ((Eff.done t (voidLen (s.th t) c i)).run (noted i t s)).threads, x.id = t → x.run = .running := by
    intro x hx hid
    rw [hlist] at hx
    rcases mem_apply_thread (s := noted i t s) hx with ⟨_, hne⟩ | ⟨y, _, _, rfl⟩
    · exact absurd hid hne
    · rfl
  have hcur : ((passVoid i t).run s).cur = s.cur := run_cur _ s
  generalize (Eff.done t (voidLen (s.th t) c i)).run (noted i t s) = d at *
  intro a
  have ha : a = { d with part := p } := hp
  refine ⟨?_, ?_, ?_, ?_, ?_, ?_, ?_, ?_, hcur⟩ <;> rw [ha]
  · exact hmoves
  · exact (congrArg Thread.v hself).trans (step_v _ _)
  · exact (congrArg Thread.p hself).trans (step_p _ _)
  · exact hrun
  · exact fun u hu => (hothers u hu).trans (hth u)
  · exact hbytes.trans hmem
  · exact (hgroups.hosted t.gid).trans ((hhosted t.gid).trans hh)
  · exact hgroups.field t.gid Group.passed fun _ => rfl

/-- A thread of a group that no microscope core hosts, alone in its turn, at a void word. -/
theorem step_void {s s1 : State} {t : TId} {rest : List Turn} {c : Clause} {i : Instr} (ht : TurnOf s s1 [t] rest)
    (hc : (s1.th t).clause = some c) (hw : (s1.th t).watch = none) (hv : (s1.th t).voided = true)
    (hd : decodeWord (c.word (s1.th t).widx) (c.word ((s1.th t).widx + 1)) = .ok i) (hh : Unhosted s1 t) :
    ∃ s', step s = .next s' ∧ MovesOn s1 s' t (voidLen (s1.th t) c i) ∧ (∀ r, (s'.th t).reg r = (s1.th t).reg r) ∧
      (∀ p, (s'.th t).pred p = (s1.th t).pred p) ∧
      (i.crossLane = false → s'.mem = s1.mem ∧ ∀ u, u ≠ t → s'.th u = s1.th u) ∧
      (i.crossLane = true → ∃ a ∈ (s'.gr t.gid).passed, a.addr = (s1.th t).wordAt ∧ a.idx = t.idx) := by
  have hgroup := group_of_issuable ht.group hh
  obtain ⟨hmoves, hregs, hpreds, hruns, hothers, hmem, hhosted, hpassed, hcur⟩ :=
    passVoid_frame (s := { s1 with cur := ⟨t.gid, [t]⟩ }) i hh (issuable_head ht.group).1 hc
  have hfront := (front_cons (by simpa using hw) hc).trans (frontAt_void (s := { s1 with cur := ⟨t.gid, [t]⟩ }) rfl hc hv hd)
  generalize (passVoid i t).run { s1 with cur := ⟨t.gid, [t]⟩ } = a at *
  have hsettled := settleLanes_keeps t.gid fun x hx hid h => by rw [hruns x hx hid] at h; cases h
  -- the state after the rendezvous, where the turn is over
  have hb : ∃ b, (if i.crossLane then settleLanes t.gid else .nothing).run a = b ∧ b.th t = a.th t ∧
      (b.gr t.gid).hosted = none ∧ b.cur = a.cur ∧ (b.gr t.gid).passed = (a.gr t.gid).passed ∧ (i.crossLane = false → b = a) := by
    cases i.crossLane with
    | true =>
      exact ⟨_, rfl, hsettled.1, (hsettled.2.1 t.gid).trans hhosted, run_cur _ a, hsettled.2.2 t.gid, nofun⟩
    | false => exact ⟨a, rfl, rfl, hhosted, rfl, rfl, fun _ => rfl⟩
  obtain ⟨b, hbrun, hbth, hbhosted, hbcur, hbpassed, hbplain⟩ := hb
  have hstep : step s = .next (b.applyAll (countIssue s1 b [t])) := by
    have hfin : (b.gr b.cur.gid).hosted = none := by rw [hbcur, hcur]; exact hbhosted
    rw [step_turnOf ht, show partsOf s1 [t].length [t] = [[t]] from partsOf_alike (by simp), stepParts_one ht.group, hfront, hbrun]
    exact ended_unhosted hfin
  obtain ⟨p, hp⟩ := countIssue_part s1 b [t] b
  rw [hp] at hstep
  have hth : (State.th { b with part := p } t) = a.th t := hbth
  refine ⟨_, hstep, ?_, fun r => ?_, fun q => ?_, fun hx => ?_, fun hx => ?_⟩
  · unfold MovesOn; rw [hth]; exact hmoves
  · rw [hth]; simp only [Thread.reg, hregs]; rfl
  · rw [hth]; simp only [Thread.pred, hpreds]; rfl
  · rw [hbplain hx]; exact ⟨hmem, hothers⟩
  · obtain ⟨x, hxm, hx⟩ := noted_passed (i := i) (s := { s1 with cur := ⟨t.gid, [t]⟩ }) hgroup hx
    exact ⟨x, hbpassed ▸ hpassed ▸ hxm, hx⟩

/-! ## Words that execute -/

/-- The threads of one stand run the instruction at their word. -/
theorem step_exec {s s1 : State} {t : TId} {ts : List TId} {rest : List Turn} {c : Clause} {i : Instr} (ht : TurnOf s s1 (t :: ts) rest)
    (hs : ∀ u ∈ ts, (s1.th t).sameStand (s1.th u) = true) (hc : (s1.th t).clause = some c)
    (hw : ∀ u ∈ t :: ts, (s1.th u).watch = none) (hv : (s1.th t).voided = false) (hi : WordHolds (s1.th t) c i) :
    step s = ended s1 (t :: ts) (exec i { s1 with cur := ⟨t.gid, t :: ts⟩ }) := by
  rw [step_turnOf ht, partsOf_alike hs, stepParts_one ht.group, front_cons hw hc,
    frontAt_exec (s := { s1 with cur := ⟨t.gid, t :: ts⟩ }) hc hv hi]

/-- A WATCH of a store that a drain has performed is taken before the instruction (R234). -/
theorem step_watch {s s1 : State} {t : TId} {ts : List TId} {rest : List Turn} (ht : TurnOf s s1 (t :: ts) rest)
    (hs : ∀ u ∈ ts, (s1.th t).sameStand (s1.th u) = true) (hw : ∃ u ∈ t :: ts, (s1.th u).watch.isSome = true) :
    step s = ended s1 (t :: ts) (.next ((perThread takeWatch).run { s1 with cur := ⟨t.gid, t :: ts⟩ })) := by
  rw [step_turnOf ht, partsOf_alike hs, stepParts_one ht.group, front_watch hw]

/-- Two threads of different stands run their instructions one after the other. -/
theorem step_two {s s1 s' : State} {t u : TId} {rest : List Turn} {c d : Clause} {i j : Instr} (ht : TurnOf s s1 [t, u] rest)
    (hne : (s1.th t).sameStand (s1.th u) = false) (hc : (s1.th t).clause = some c) (hw : (s1.th t).watch = none)
    (hv : (s1.th t).voided = false) (hi : WordHolds (s1.th t) c i) (he : exec i { s1 with cur := ⟨t.gid, [t]⟩ } = .next s')
    (hu : issuable s' [u] = true) (hd : (s'.th u).clause = some d) (hwu : (s'.th u).watch = none) (hvu : (s'.th u).voided = false)
    (hj : WordHolds (s'.th u) d j) : step s = ended s1 [t, u] (exec j { s' with cur := ⟨u.gid, [u]⟩ }) := by
  have h1 := (front_cons (by simpa using hw) hc).trans (frontAt_exec (s := { s1 with cur := ⟨t.gid, [t]⟩ }) hc hv hi)
  have h2 := (front_cons (by simpa using hwu) hd).trans (frontAt_exec (s := { s' with cur := ⟨u.gid, [u]⟩ }) hd hvu hj)
  rw [step_turnOf ht, partsOf_pair hne, stepParts_cons _ (issuable_first ht.group), h1]
  dsimp only
  rw [he]
  dsimp only
  rw [stepParts_one hu, h2]

/-- Settles O4: by the parts of the issue group, one that stands alike, one void, and two. -/
theorem stepRunsDecoded : Obligations.StepRunsDecoded := by
  refine ⟨?_, ?_, ?_⟩
  · intro s s1 t ts rest c i ht hs hc s2
    refine ⟨fun hw hv hi => ?_, fun hw => step_watch ht hs hw⟩
    have hstep := step_exec ht hs hc hw hv hi
    refine ⟨hstep, fun s' he hh => ?_⟩
    rw [hstep, show exec i { s1 with cur := ⟨t.gid, t :: ts⟩ } = .next s' from he]
    exact ended_unhosted hh
  · intro s s1 t rest c i ht hc hw hv hd hh
    exact step_void ht hc hw hv hd hh
  · intro s s1 s' t u rest c d i j ht hne hc hw hv hi he hu hd hwu hvu hj
    exact step_two ht hne hc hw hv hi he hu hd hwu hvu hj

end Sys2Proof.Machine
end

section
/-! SUPPORT. The integer and logic functions of words, by the numbers that the words stand for. -/

namespace Sys2Proof.Machine

theorem add_ofNat (a b : Word) : a + b = BitVec.ofNat 32 (a.toNat + b.toNat) := by
  apply BitVec.eq_of_toNat_eq; simp

theorem sub_ofInt (a b : Word) : a - b = BitVec.ofInt 32 (a.toInt - b.toInt) := by
  apply BitVec.eq_of_toInt_eq; simp [BitVec.toInt_sub]

theorem mul_ofNat (a b : Word) : a * b = BitVec.ofNat 32 (a.toNat * b.toNat) := by
  apply BitVec.eq_of_toNat_eq; simp [BitVec.toNat_mul]

theorem mulAdd_ofNat (a b d : Word) : a * b + d = BitVec.ofNat 32 (a.toNat * b.toNat + d.toNat) := by
  apply BitVec.eq_of_toNat_eq; simp [BitVec.toNat_mul]

theorem mulHighN_ofNat (a b : Word) : mulHighN a b = BitVec.ofNat 32 (a.toNat * b.toNat / 2 ^ 32) := by
  have ha : a.toNat < 2 ^ 32 := a.isLt
  have hb : b.toNat < 2 ^ 32 := b.isLt
  have hab : a.toNat * b.toNat < 2 ^ 64 := by
    calc a.toNat * b.toNat < 2 ^ 32 * 2 ^ 32 := Nat.mul_lt_mul'' ha hb
      _ = 2 ^ 64 := by norm_num
  apply BitVec.eq_of_toNat_eq
  simp only [mulHighN, BitVec.extractLsb'_toNat, BitVec.toNat_mul, BitVec.toNat_setWidth, BitVec.toNat_ofNat, Nat.shiftRight_eq_div_pow]
  rw [Nat.mod_eq_of_lt (show a.toNat < 2 ^ 64 by omega), Nat.mod_eq_of_lt (show b.toNat < 2 ^ 64 by omega), Nat.mod_eq_of_lt hab]

theorem mulHighS_ofInt (a b : Word) : mulHighS a b = BitVec.ofInt 32 (a.toInt * b.toInt / 2 ^ 32) := by
  have h1 := BitVec.le_two_mul_toInt (x := a)
  have h2 := BitVec.two_mul_toInt_lt (x := a)
  have h3 := BitVec.le_two_mul_toInt (x := b)
  have h4 := BitVec.two_mul_toInt_lt (x := b)
  have hprod : (a.signExtend 64 * b.signExtend 64).toInt = a.toInt * b.toInt := by
    rw [BitVec.toInt_mul, BitVec.toInt_signExtend_of_le (by decide), BitVec.toInt_signExtend_of_le (by decide)]
    have hl : -(2 ^ 62) ≤ a.toInt * b.toInt := by nlinarith
    have hu : a.toInt * b.toInt ≤ 2 ^ 62 := by nlinarith
    exact Int.bmod_eq_of_le (by omega) (by omega)
  have key : mulHighS a b = ((a.signExtend 64 * b.signExtend 64).sshiftRight 32).setWidth 32 := by
    ext i hi
    have hlt : 32 + i < 64 := by omega
    have hnot : ¬ 64 ≤ i := by omega
    simp [mulHighS, BitVec.getLsbD_sshiftRight, hlt, hnot]
  rw [key, BitVec.sshiftRight, hprod, Int.shiftRight_eq_div_pow]
  apply BitVec.eq_of_toNat_eq
  rw [BitVec.toNat_setWidth, BitVec.toNat_ofInt, BitVec.toNat_ofInt]
  norm_num
  omega

theorem minS_ofInt (a b : Word) : minS a b = BitVec.ofInt 32 (min a.toInt b.toInt) := by
  unfold minS
  simp only [BitVec.slt, decide_eq_true_eq]
  split
  · rw [min_eq_right (by omega), BitVec.ofInt_toInt]
  · rw [min_eq_left (by omega), BitVec.ofInt_toInt]

theorem maxS_ofInt (a b : Word) : maxS a b = BitVec.ofInt 32 (max a.toInt b.toInt) := by
  unfold maxS
  simp only [BitVec.slt, decide_eq_true_eq]
  split
  · rw [max_eq_right (by omega), BitVec.ofInt_toInt]
  · rw [max_eq_left (by omega), BitVec.ofInt_toInt]

theorem minN_ofNat (a b : Word) : minN a b = BitVec.ofNat 32 (min a.toNat b.toNat) := by
  unfold minN
  simp only [BitVec.ult, decide_eq_true_eq]
  split
  · rw [min_eq_right (by omega), BitVec.ofNat_toNat, BitVec.setWidth_eq]
  · rw [min_eq_left (by omega), BitVec.ofNat_toNat, BitVec.setWidth_eq]

theorem maxN_ofNat (a b : Word) : maxN a b = BitVec.ofNat 32 (max a.toNat b.toNat) := by
  unfold maxN
  simp only [BitVec.ult, decide_eq_true_eq]
  split
  · rw [max_eq_right (by omega), BitVec.ofNat_toNat, BitVec.setWidth_eq]
  · rw [max_eq_left (by omega), BitVec.ofNat_toNat, BitVec.setWidth_eq]

theorem absW_natAbs (a : Word) : absW a = BitVec.ofNat 32 a.toInt.natAbs := by
  apply BitVec.eq_of_toNat_eq
  unfold absW
  have ha : a.toNat < 2 ^ 32 := a.isLt
  split
  next h =>
    rw [BitVec.toInt_eq_msb_cond, if_pos h]
    simp only [BitVec.toNat_sub, BitVec.toNat_ofNat]
    have := BitVec.msb_eq_true_iff_two_mul_ge.mp h
    omega
  next h =>
    rw [BitVec.toInt_eq_msb_cond, if_neg h]
    simp

theorem selW_ite (a b d : Word) : selW a b d = if d ≠ 0#32 then a else b := by
  unfold selW; split <;> simp_all

theorem addImm_ofInt (a : Word) (imm : BitVec 12) : a + imm32 imm = BitVec.ofInt 32 (a.toInt + imm.toInt) := by
  apply BitVec.eq_of_toInt_eq
  simp only [imm32, BitVec.toInt_add, BitVec.toInt_ofInt]
  rw [BitVec.toInt_signExtend_of_le (by decide)]

theorem imm32_ofInt (imm : BitVec 12) : imm32 imm = BitVec.ofInt 32 imm.toInt := rfl

theorem shl_ofNat (a b : Word) : a <<< shiftOf b = BitVec.ofNat 32 (a.toNat * 2 ^ (b.toNat % 32)) := by
  apply BitVec.eq_of_toNat_eq
  simp [shiftOf, BitVec.toNat_shiftLeft, Nat.shiftLeft_eq]

theorem shr_ofNat (a b : Word) : a >>> shiftOf b = BitVec.ofNat 32 (a.toNat / 2 ^ (b.toNat % 32)) := by
  apply BitVec.eq_of_toNat_eq
  have : a.toNat / 2 ^ (b.toNat % 32) < 2 ^ 32 := Nat.lt_of_le_of_lt (Nat.div_le_self _ _) a.isLt
  simp only [shiftOf, BitVec.toNat_ushiftRight, Nat.shiftRight_eq_div_pow, BitVec.toNat_ofNat, Nat.mod_eq_of_lt this]

theorem sar_ofInt (a b : Word) : a.sshiftRight (shiftOf b) = BitVec.ofInt 32 (a.toInt / 2 ^ (b.toNat % 32)) := by
  unfold shiftOf BitVec.sshiftRight
  rw [Int.shiftRight_eq_div_pow]
  norm_cast

/-- R410: the bits that are counted. -/
theorem countOnes_length (x : Word) : ∀ n, countOnes x n = ((List.range n).filter x.getLsbD).length
  | 0 => rfl
  | n + 1 => by
    rw [List.range_succ, List.filter_append, List.length_append, ← countOnes_length x n]
    cases h : x.getLsbD n <;> simp [countOnes, h, Nat.add_comm]

/-- R339: the zeros above the highest one. -/
theorem leadingZeros_eq (x : Word) : ∀ n, x.toNat < 2 ^ n → leadingZeros x n = if x = 0#32 then n else n - 1 - x.toNat.log2
  | 0, h => by
    have : x = 0#32 := BitVec.eq_of_toNat_eq (by simpa using h)
    simp [leadingZeros, this]
  | n + 1, h => by
    by_cases hb : x.toNat < 2 ^ n
    · have hbit : x.getLsbD n = false := Nat.testBit_lt_two_pow hb
      rw [leadingZeros, hbit, leadingZeros_eq x n hb]
      by_cases hx : x = 0#32
      · simp [hx, Nat.add_comm]
      · have : x.toNat.log2 < n := (Nat.log2_lt fun e => hx (BitVec.eq_of_toNat_eq e)).mpr hb
        simp only [hx, if_false, Bool.false_eq_true]
        omega
    · have hlog : x.toNat.log2 = n := (Nat.log2_eq_iff (by have := Nat.two_pow_pos n; omega)).mpr ⟨by omega, h⟩
      have hbit : x.getLsbD n = true := by
        have := Nat.testBit_log2 (n := x.toNat) (by have := Nat.two_pow_pos n; omega)
        rwa [hlog] at this
      have hx : x ≠ 0#32 := by rintro rfl; exact hb (Nat.two_pow_pos n)
      simp [leadingZeros, hbit, hx, hlog]

end Sys2Proof.Machine
end

section
/-! SUPPORT. Arithmetic instructions of an issue group (R15): the effect on one thread, and what it leaves for the next. -/

open Sys2Proof Sys2Proof.Machine

namespace Sys2Proof.Machine

/-! ## The value -/

theorem run_alu_congr {i : Instr} {d : VReg} {srcs : List VReg} {f g : Thread → Group → Word} {s : State} (h : ∀ x y, f x y = g x y) :
    Machine.run (alu i d srcs f) s = Machine.run (alu i d srcs g) s := by
  rw [show f = g from funext fun x => funext (h x)]

/-- An integer or logic instruction is one write of the value that its rule gives. -/
theorem exec_intEffect {i : Instr} {e : AluEffect} (h : intEffect i = some e) (s : State) :
    exec i s = Machine.run (alu i e.d e.srcs e.val) s := by
  cases i with
  | iadd d a b => cases h; exact run_alu_congr fun _ _ => add_ofNat _ _
  | isub d a b => cases h; exact run_alu_congr fun _ _ => sub_ofInt _ _
  | imul d a b => cases h; exact run_alu_congr fun _ _ => mul_ofNat _ _
  | imulhS d a b => cases h; exact run_alu_congr fun _ _ => mulHighS_ofInt _ _
  | imulhN d a b => cases h; exact run_alu_congr fun _ _ => mulHighN_ofNat _ _
  | imad d a b => cases h; exact run_alu_congr fun _ _ => mulAdd_ofNat _ _ _
  | iminS d a b => cases h; exact run_alu_congr fun _ _ => minS_ofInt _ _
  | iminN d a b => cases h; exact run_alu_congr fun _ _ => minN_ofNat _ _
  | imaxS d a b => cases h; exact run_alu_congr fun _ _ => maxS_ofInt _ _
  | imaxN d a b => cases h; exact run_alu_congr fun _ _ => maxN_ofNat _ _
  | iabs d a => cases h; exact run_alu_congr fun _ _ => absW_natAbs _
  | isel d a b => cases h; exact run_alu_congr fun _ _ => selW_ite _ _ _
  | iaddi d a imm => cases h; exact run_alu_congr fun _ _ => addImm_ofInt _ _
  | shl d a b => cases h; exact run_alu_congr fun _ _ => shl_ofNat _ _
  | shr d a b => cases h; exact run_alu_congr fun _ _ => shr_ofNat _ _
  | sar d a b => cases h; exact run_alu_congr fun _ _ => sar_ofInt _ _
  | popc d a => cases h; exact run_alu_congr fun _ _ => congrArg (BitVec.ofNat 32) (countOnes_length _ _)
  | clz d a => cases h; exact run_alu_congr fun _ _ => congrArg (BitVec.ofNat 32) (leadingZeros_eq _ 32 (BitVec.isLt _))
  | _ => cases h <;> rfl

/-- A packed, bit-field or floating-point instruction is one write of the value that its function gives. -/
theorem exec_fmtEffect {i : Instr} {e : AluEffect} (h : fmtEffect i = some e) (s : State) :
    exec i s = Machine.run (alu i e.d e.srcs e.val) s := by
  cases i <;> cases h <;> rfl

theorem exec_alu {i : Instr} {e : AluEffect} (h : intEffect i = some e ∨ fmtEffect i = some e) (s : State) :
    exec i s = Machine.run (alu i e.d e.srcs e.val) s := h.elim (exec_intEffect · s) (exec_fmtEffect · s)

/-- A group of which NARMODE alone is told. -/
def narmodeOnly (n : Word) : Group := { Group.fresh ⟨0, 0⟩ 16 0 0 0#64 0#64 0 with narmode := n }

/-- Of its group an arithmetic instruction reads NARMODE alone. -/
theorem aluEffect_narmode {i : Instr} {e : AluEffect} (h : intEffect i = some e ∨ fmtEffect i = some e) (x : Thread) (g : Group) :
    e.val x g = e.val x (narmodeOnly g.narmode) := by
  rcases h with h | h <;> cases i <;> cases h <;> rfl

theorem result_eq_resultOf (x : Thread) (srcs : List VReg) (w : Word) : x.result srcs w = resultOf x srcs w := by
  unfold Thread.result resultOf
  rw [poisoned_eq_find]
  cases srcs.find? fun r => (x.reg r).poison <;> rfl

/-! ## What one thread leaves for the next -/

/-- A part in which at most operations, launches and operand windows differ. -/
def CalmPart (p q : Part) : Prop := q = { p with ops := q.ops, launches := q.launches, windows := q.windows }

theorem CalmPart.trans {p q r : Part} (h : CalmPart p q) (g : CalmPart q r) : CalmPart p r := by
  unfold CalmPart at *
  rw [g, h]

/-- Between two states nothing has changed on which an instruction-address match or the allocation of another thread depends. -/
structure Calm (a b : State) : Prop where
  teams : b.teams = a.teams
  groups : SameGroups a b
  part : CalmPart a.part b.part

theorem Calm.refl (a : State) : Calm a a := ⟨rfl, SameGroups.refl a, rfl⟩
theorem Calm.trans {a b c : State} (h : Calm a b) (g : Calm b c) : Calm a c :=
  ⟨g.teams.trans h.teams, h.groups.trans g.groups, h.part.trans g.part⟩

theorem calm_progress (s a : State) (k : Nat) : Calm a (a.applyAll (progress s k)) := by
  unfold progress
  split
  · exact ⟨rfl, SameGroups.refl a, rfl⟩
  · exact Calm.refl a

theorem yieldPlace_part (s a : State) (t : TId) (y : Bool) : (a.applyAll (yieldPlace s t y)).part = a.part := by
  unfold yieldPlace
  split
  · exact swapActive_part s a _
  · rfl

theorem calm_done (s : State) (t : TId) (len : Nat) : Calm s ((Eff.done t len).run s) := by
  refine ⟨done_teams s t len, done_sameGroups s t len, ?_⟩
  simp only [Eff.done, run_act]
  rw [applyAll_append, yieldPlace_part, applyAll_append]
  refine CalmPart.trans ?_ (calm_progress s _ t.team).part
  rfl

theorem calm_putReg {s a : State} {t : TId} (h : Unhosted s t) (r : VReg) (y : Reg) : Calm a (a.applyAll (putReg s t r y)) := by
  unfold putReg touchB
  rw [historyV_unhosted h, List.nil_append]
  split <;> exact ⟨rfl, SameGroups.refl a, rfl⟩

theorem Calm.tm {a b : State} (h : Calm a b) (k : Nat) : b.tm k = a.tm k := tm_of_teams h.teams k

theorem Calm.ctxOf {a b : State} (h : Calm a b) (k : Nat) : b.ctxOf k = a.ctxOf k := by
  unfold State.ctxOf State.ctx?
  rw [h.tm, h.part]

/-- A thread of a group that no microscope core hosts meets the same matches. -/
theorem Calm.findMatch {a b : State} (h : Calm a b) {t : TId} (hh : Unhosted a t) (kind addr n v : Nat) :
    Machine.findMatch b t kind addr n v = Machine.findMatch a t kind addr n v := by
  have h1 : (a.gr t.gid).hosted = none := hh
  have h2 : (b.gr t.gid).hosted = none := (h.groups.hosted t.gid).trans h1
  have hsup : b.isSup t.team = a.isSup t.team := by unfold State.isSup; rw [h.tm]
  have hcore : (b.gr t.gid).core = (a.gr t.gid).core := h.groups.field t.gid Group.core fun _ => rfl
  have htrip : ∀ c, b.trip c = a.trip c := fun c => by unfold State.trip; rw [h.part]
  simp only [Machine.findMatch, h1, h2, hsup, h.ctxOf, hcore, htrip]

/-- A thread whose instruction nothing keeps from its effect is as free afterwards. -/
theorem Calm.clear {a b : State} (h : Calm a b) {t : TId} (hh : Unhosted a t) (ht : b.th t = a.th t) {i : Instr} {eats : List VReg}
    {ps : List PReg} (hc : Clear a t i eats ps) : Clear b t i eats ps where
  names := by
    have hw : (b.gr t.gid).w = (a.gr t.gid).w := h.groups.field t.gid Group.w fun _ => rfl
    have hn : (b.gr t.gid).n = (a.gr t.gid).n := h.groups.field t.gid Group.n fun _ => rfl
    have := hc.names
    simpa only [beyond, hw, hn] using this
  watch := by
    have := hc.watch
    simpa only [matchHere, ht, h.findMatch hh] using this
  regs := by rw [ht]; exact hc.regs
  preds := by rw [ht]; exact hc.preds

/-! ## One thread's write -/

/-- What an arithmetic instruction does to its thread. -/
def aluBody (d : VReg) (srcs : List VReg) (f : Thread → Group → Word) (len : Nat) (t : TId) : Eff :=
  .seq (.act fun s => putReg s t d ((s.th t).result srcs (f (s.th t) (s.gr t.gid)))) (.done t len)

section
variable {s : State} {t : TId} (d : VReg) (srcs : List VReg) (f : Thread → Group → Word) (len : Nat)

theorem aluBody_self (h : (s.thread? t).isSome = true) :
    (((aluBody d srcs f len t).run s).th t).reg d = resultOf (s.th t) srcs (f (s.th t) (s.gr t.gid)) ∧
      MovesOn s ((aluBody d srcs f len t).run s) t len ∧
        ∀ r, r ≠ d → (((aluBody d srcs f len t).run s).th t).reg r = (s.th t).reg r := by
  have he : ((s.applyAll (putReg s t d ((s.th t).result srcs (f (s.th t) (s.gr t.gid))))).thread? t).isSome = true :=
    (putReg_isSome s s t t d _).trans h
  have hdone := done_th_self len he
  rw [putReg_th_self d _ h] at hdone
  have hv : ∀ r, (((aluBody d srcs f len t).run s).th t).reg r =
      ((s.th t).setReg d ((s.th t).result srcs (f (s.th t) (s.gr t.gid)))).reg r := by
    intro r
    have := congrArg Thread.v hdone
    simp only [step_v] at this
    simp only [aluBody, run_seq, run_act, Thread.reg, this]
  refine ⟨?_, ?_, fun r hr => (hv r).trans (reg_setReg_ne _ _ hr)⟩
  · rw [hv, reg_setReg_self, result_eq_resultOf]
  · refine MovesOn.of_stands (a := s.applyAll (putReg s t d _)) ?_ (done_movesOn len he)
    rw [putReg_th_self d _ h]
    exact ⟨rfl, rfl, rfl, rfl, rfl⟩

theorem aluBody_others {u : TId} (hu : u ≠ t) : ((aluBody d srcs f len t).run s).th u = s.th u :=
  (done_th_ne _ len hu).trans (putReg_th_ne _ _ _ _ hu)

theorem aluBody_calm (h : Unhosted s t) : Calm s ((aluBody d srcs f len t).run s) := (calm_putReg h _ _).trans (calm_done _ t len)

theorem aluBody_mem (h : Unhosted s t) : ((aluBody d srcs f len t).run s).mem = s.mem := by
  refine (done_mem _ t len).trans ?_
  rw [run_act]
  unfold putReg
  rw [historyV_unhosted h, List.nil_append, applyAll_cons, applyAll_sparesBytes _ _ (touchB_sparesBytes _ _ _ _ _)]
  rfl

theorem aluBody_isSome (u : TId) : (((aluBody d srcs f len t).run s).thread? u).isSome = (s.thread? u).isSome := by
  simp only [aluBody, run_seq, run_act]
  unfold State.thread?
  rw [done_threads]
  exact (isSome_thread?_apply_thread _ t u _).trans (putReg_isSome s s t u d _)

end

/-! ## The threads of an issue group -/

/-- What the threads of a group do one after the other, each does as it would alone. -/
theorem each_alu {i : Instr} {e : AluEffect} (hval : ∀ x g, e.val x g = e.val x (narmodeOnly g.narmode)) (g : GId) :
    ∀ (l : List TId) (s : State), l.Nodup → (s.gr g).hosted = none →
      (∀ t ∈ l, t.gid = g ∧ (s.thread? t).isSome = true ∧ Clear s t i [] []) →
      let s' := (Eff.each (issueThread i [] [] (aluBody e.d e.srcs e.val i.len)) l).run s
      (∀ t ∈ l, (s'.th t).reg e.d = resultOf (s.th t) e.srcs (e.val (s.th t) (s.gr t.gid)) ∧ MovesOn s s' t i.len ∧
        ∀ r, r ≠ e.d → (s'.th t).reg r = (s.th t).reg r) ∧ (∀ u, u ∉ l → s'.th u = s.th u) ∧ s'.mem = s.mem
  | [], s, _, _, _ => ⟨by simp, fun _ _ => rfl, rfl⟩
  | t :: l, s, hnd, hh, hl => by
    obtain ⟨hnot, hnd'⟩ := List.nodup_cons.mp hnd
    obtain ⟨hg, he, hc⟩ := hl t List.mem_cons_self
    have hun : Unhosted s t := by unfold Unhosted; rw [hg]; exact hh
    have hself := aluBody_self (s := s) (t := t) e.d e.srcs e.val i.len he
    have hothers := fun u (hu : u ≠ t) => aluBody_others (s := s) e.d e.srcs e.val i.len hu
    have hcalm := aluBody_calm e.d e.srcs e.val i.len hun
    have hmem := aluBody_mem e.d e.srcs e.val i.len hun
    have hsome := aluBody_isSome (s := s) (t := t) e.d e.srcs e.val i.len
    simp only [run_each_cons, issueThread_clear hc hun]
    generalize (aluBody e.d e.srcs e.val i.len t).run s = a at *
    have hne : ∀ u ∈ l, u ≠ t := fun u hu e => hnot (e ▸ hu)
    have hl' : ∀ u ∈ l, u.gid = g ∧ (a.thread? u).isSome = true ∧ Clear a u i [] [] := by
      intro u hu
      obtain ⟨hug, hue, huc⟩ := hl u (List.mem_cons_of_mem _ hu)
      have huh : Unhosted s u := by unfold Unhosted; rw [hug]; exact hh
      exact ⟨hug, (hsome u).trans hue, hcalm.clear huh (hothers u (hne u hu)) huc⟩
    obtain ⟨ih1, ih2, ih3⟩ := each_alu hval g l a hnd' ((hcalm.groups.hosted g).trans hh) hl'
    refine ⟨fun u hu => ?_, fun u hu => ?_, ih3.trans hmem⟩
    · rcases List.mem_cons.mp hu with rfl | hu
      · have hth := ih2 u hnot
        rw [hth]
        exact ⟨hself.1, hself.2.1.of_th hth, hself.2.2⟩
      · obtain ⟨h1, h2, h3⟩ := ih1 u hu
        have hth := hothers u (hne u hu)
        have hnar : (a.gr u.gid).narmode = (s.gr u.gid).narmode := hcalm.groups.field _ Group.narmode fun _ => rfl
        rw [hth] at h1 h3
        rw [hval, hnar, ← hval] at h1
        exact ⟨h1, h2.of_stands (by rw [hth]; exact Stands.refl _), h3⟩
    · obtain ⟨hut, hul⟩ := not_or.mp (fun h => hu (List.mem_cons.mpr h))
      exact (ih2 u hul).trans (hothers u hut)

/-- Settles O60: by induction on the threads of the group, each of which leaves the next as free as it was. -/
theorem groupsActAlone : Obligations.GroupsActAlone := by
  intro i e s h _ hnd hths _ hh
  exact ⟨_, exec_alu h s, each_alu (aluEffect_narmode h) s.cur.gid s.cur.ths s hnd hh hths⟩

end Sys2Proof.Machine
end

section
/-! SUPPORT. Taking a trap (R237): what the register writes that are made before it leave, and where its thread stands. -/

open Sys2Proof Sys2Proof.Machine

namespace Sys2Proof.Machine

/-! ## The issue of one thread -/

/-- What an issue by one thread shows is its own effect's, but for a debug block and the microscope cores. -/
theorem issue_solo_shown {s : State} {t : TId} {i : Instr} {eats : List VReg} {ps : List PReg} (hs : Solo s t)
    (h : Clear s t i eats ps) (hi : ∀ op, i ≠ .trace op) (body : TId → Eff) :
    ∃ mem micros, (issue i eats ps body).run s =
      { (body t).run s with mem := mem, part := { ((body t).run s).part with micros := micros } } ∧
      (Unhosted s t → mem = ((body t).run s).mem) := by
  rcases issue_solo_debug hs h hi body with he | ⟨g, hg, hd⟩
  · exact ⟨_, _, he, fun _ => rfl⟩
  · exact ⟨_, _, hd.eq, fun hu => by rw [show (s.gr t.gid).hosted = none from hu] at hg; cases hg⟩

/-! ## Outstanding register writes -/

/-- Between two states at most the v registers of thread `t` differ, and operations, launches, windows and bytes. -/
structure OnlyRegs (t : TId) (a b : State) : Prop where
  self : ∃ v, b.th t = { a.th t with v := v }
  some : (b.thread? t).isSome = (a.thread? t).isSome
  others : ∀ u, u ≠ t → b.th u = a.th u
  groups : b.groups = a.groups
  teams : b.teams = a.teams
  part : CalmPart a.part b.part

theorem OnlyRegs.refl (t : TId) (a : State) : OnlyRegs t a a := ⟨⟨_, rfl⟩, rfl, fun _ _ => rfl, rfl, rfl, rfl⟩
theorem OnlyRegs.trans {t : TId} {a b c : State} (h : OnlyRegs t a b) (g : OnlyRegs t b c) : OnlyRegs t a c := by
  obtain ⟨v, hv⟩ := h.self
  obtain ⟨w, hw⟩ := g.self
  exact ⟨⟨w, by rw [hw, hv]⟩, g.some.trans h.some, fun u hu => (g.others u hu).trans (h.others u hu), g.groups.trans h.groups,
    g.teams.trans h.teams, h.part.trans g.part⟩

/-- An update of no thread, group or team. -/
theorem OnlyRegs.of_spares (t : TId) {us : List Upd} (a : State) (h : us.all Upd.spares = true)
    (hp : CalmPart a.part (a.applyAll us).part) : OnlyRegs t a (a.applyAll us) := by
  obtain ⟨h1, h2, h3⟩ := applyAll_spares us a h
  exact ⟨⟨(a.th t).v, by rw [th_of_threads h1]⟩, by unfold State.thread?; rw [h1], fun u _ => th_of_threads h1 u, h2, h3, hp⟩

theorem historyV_part (s : State) (t : TId) : ∀ (ws : List Word) (r : VReg) (a : State), (a.applyAll (historyV s t r ws)).part = a.part
  | [], _, _ => rfl
  | w :: ws, r, a => by
    unfold historyV
    split
    · rfl
    · rw [applyAll_cons, historyV_part s t ws, pushHistory, apply_store_part]

theorem touchB_calm (s a : State) (t : TId) (r : VReg) (n b : Nat) : CalmPart a.part (a.applyAll (touchB s t r n b)).part := by
  unfold touchB
  split <;> rfl

/-- A change of a thread's v registers, with its histories and the notes of its open windows. -/
theorem OnlyRegs.write (s a : State) (t : TId) (f : Thread → Thread) (hf : ∀ x, ∃ v, f x = { x with v := v }) (r : VReg) (ws : List Word)
    (n b : Nat) : OnlyRegs t a (a.applyAll (.thread t f :: (historyV s t r ws ++ touchB s t r n b))) := by
  have h1 : OnlyRegs t a ((Upd.thread t f).apply a) := by
    refine ⟨?_, isSome_thread?_apply_thread a t t f, fun u hu => th_apply_thread_ne a f hu, rfl, rfl, rfl⟩
    by_cases he : (a.thread? t).isSome = true
    · obtain ⟨v, hv⟩ := hf (a.th t)
      exact ⟨v, by rw [th_apply_thread_keep he (by rw [hv]; exact th_id), hv]⟩
    · have hn : a.thread? t = none := Option.not_isSome_iff_eq_none.mp he
      refine ⟨(a.th t).v, ?_⟩
      unfold State.th
      rw [thread?_apply_thread, hn]
      rfl
  have h2 := OnlyRegs.of_spares t ((Upd.thread t f).apply a) (us := historyV s t r ws ++ touchB s t r n b)
    (by rw [List.all_append, historyV_spares, touchB_spares]; rfl)
    (by rw [applyAll_append]
        have := touchB_calm s (((Upd.thread t f).apply a).applyAll (historyV s t r ws)) t r n b
        rwa [historyV_part] at this)
  exact h1.trans h2

theorem setRegs_v (x : Thread) : ∀ (ws : List Word) (r : VReg), ∃ v, x.setRegs r ws = { x with v := v }
  | [], _ => ⟨_, rfl⟩
  | w :: ws, r => by
    obtain ⟨v, hv⟩ := setRegs_v (x.setReg r ⟨w, false, 0#3⟩) ws (r + 1#7)
    exact ⟨v, by rw [Thread.setRegs, hv]; rfl⟩

theorem poisonRegs_v (r : VReg) (idx : BitVec 3) : ∀ (l : List Nat) (x : Thread),
    ∃ v, l.foldl (fun x i => x.setReg (r + BitVec.ofNat 7 i) ⟨0#32, true, idx⟩) x = { x with v := v }
  | [], _ => ⟨_, rfl⟩
  | i :: l, x => by
    obtain ⟨v, hv⟩ := poisonRegs_v r idx l (x.setReg (r + BitVec.ofNat 7 i) ⟨0#32, true, idx⟩)
    exact ⟨v, by rw [List.foldl_cons, hv]; rfl⟩

/-- The register write of an operation of a thread. -/
theorem OnlyRegs.opWrite (s a : State) (o : Op) : OnlyRegs o.t a (a.applyAll (o.write s)) := by
  unfold Op.write
  split
  · split
    · split
      · exact OnlyRegs.write s a o.t _ (fun x => poisonRegs_v _ _ _ x) _ _ _ _
      · exact OnlyRegs.write s a o.t _ (fun x => setRegs_v x _ _) _ _ _ _
    · exact OnlyRegs.refl _ _
  · exact OnlyRegs.refl _ _

/-- The register writes that are made before a trap change the thread's registers alone. -/
theorem closeWindows_onlyRegs (s : State) (t : TId) : OnlyRegs t s ((closeWindows t).run s) := by
  simp only [closeWindows, run_act]
  rw [applyAll_append]
  have writes : ∀ (l : List Op) (a : State), OnlyRegs t a (a.applyAll (l.flatMap fun o => if o.t = t then o.write s else [])) := by
    intro l
    induction l with
    | nil => exact OnlyRegs.refl t
    | cons o l ih =>
      intro a
      rw [List.flatMap_cons, applyAll_append]
      refine OnlyRegs.trans ?_ (ih _)
      split
      next h => exact h ▸ OnlyRegs.opWrite s a o
      next => exact OnlyRegs.refl t a
  exact (writes _ s).trans ⟨⟨_, rfl⟩, rfl, fun _ _ => rfl, rfl, rfl, rfl⟩

theorem OnlyRegs.ctxOf {t : TId} {a b : State} (h : OnlyRegs t a b) (k : Nat) : b.ctxOf k = a.ctxOf k := by
  unfold State.ctxOf State.ctx?
  rw [tm_of_teams h.teams, h.part]

/-! ## The trap -/

/-- The vector of a trap of a cause (R237). -/
def VectorOf (s : State) (t : TId) (code : Nat) (vec : BitVec 64) : Prop :=
  if code = cIllegal then (s.gr t.gid).emuvec = vec else ∃ c, s.ctxOf t.team = some c ∧ c.trapvec = vec

/-- A thread that has taken a trap at the word at which it stands (R237). -/
def Thread.trapped (x : Thread) (vec : BitVec 64) (code : Nat) (val : BitVec 64) (reason stamp last : Nat) : Thread :=
  { x.goTo vec with
    tpc := x.pc &&& 0x00FFFFFFFFFFFFFF#64, tval := val,
    tcause := tcauseOf true (decide (0 < x.ifpN)) (decide (0 < x.ifpN) && x.ifpG) reason x.widx code,
    run := .running, stamp := stamp, last := last, noMatch := false, denied := false, arrived := false, vetted := false, stay := [] }

/-- A thread whose trap of a cause goes to a vector takes it, after the register writes that are due. -/
theorem takeTrap_run {s : State} {t : TId} {code : Nat} {vec : BitVec 64} (val : BitVec 64) (reason : Nat) (hinh : (s.th t).inh = false)
    (hvec : vec ≠ 0#64) (hto : VectorOf s t code vec) (hin : ∀ c, (s.th t).clause = some c → (s.th t).widx ≤ c.count) :
    let a := (closeWindows t).run s
    (takeTrap t code val reason (s.th t).widx).run s =
      a.applyAll (.thread t (fun x => { x.goTo vec with
        tpc := (a.th t).pc &&& 0x00FFFFFFFFFFFFFF#64, tval := val,
        tcause := tcauseOf true (decide (0 < (a.th t).ifpN)) (decide (0 < (a.th t).ifpN) && x.ifpG) reason (a.th t).widx code,
        run := .running, stamp := a.stamp, last := a.cycleOf t, noMatch := false, denied := false, arrived := false, vetted := false,
        stay := [] }) :: .stamped :: progress a t.team) := by
  have hc := closeWindows_onlyRegs s t
  obtain ⟨v, hv⟩ := hc.self
  have hgr : ((closeWindows t).run s).gr t.gid = s.gr t.gid := gr_of_groups hc.groups t.gid
  have hctx := hc.ctxOf t.team
  simp only [takeTrap, run_seq, run_read]
  generalize (closeWindows t).run s = a at *
  have hinh' : (a.th t).inh = false := by rw [hv]; exact hinh
  have hclause : (a.th t).clause = (s.th t).clause := by rw [hv]
  have hwidx : (a.th t).widx = (s.th t).widx := by rw [hv]
  have hvecs : (code = cIllegal ∧ (s.gr t.gid).emuvec = vec) ∨ (code ≠ cIllegal ∧ ∃ c, s.ctxOf t.team = some c ∧ c.trapvec = vec) := by
    unfold VectorOf at hto
    split at hto
    · exact .inl ⟨‹_›, hto⟩
    · exact .inr ⟨‹_›, hto⟩
  cases hcl : (s.th t).clause with
  | none =>
    rcases hvecs with ⟨hcode, hemu⟩ | ⟨hcode, c, hctxs, htrap⟩
    · simp [hinh', hclause, hcl, hwidx, hcode, hgr, hemu, hvec]
    · simp [hinh', hclause, hcl, hwidx, hcode, hctx, hctxs, htrap, hvec]
  | some d =>
    have hnot : ¬ d.count < (s.th t).widx := Nat.not_lt.mpr (hin d hcl)
    rcases hvecs with ⟨hcode, hemu⟩ | ⟨hcode, c, hctxs, htrap⟩
    · simp [hinh', hclause, hcl, hwidx, hcode, hgr, hemu, hvec, hnot]
    · simp [hinh', hclause, hcl, hwidx, hcode, hctx, hctxs, htrap, hvec, hnot]

/-- What taking a trap leaves of its thread (R237). -/
theorem takeTrap_th {s : State} {t : TId} {code : Nat} {vec : BitVec 64} (val : BitVec 64) (reason : Nat)
    (he : (s.thread? t).isSome = true) (hinh : (s.th t).inh = false) (hvec : vec ≠ 0#64) (hto : VectorOf s t code vec)
    (hin : ∀ c, (s.th t).clause = some c → (s.th t).widx ≤ c.count) :
    ∃ v stamp last, ((takeTrap t code val reason (s.th t).widx).run s).th t =
      { (s.th t).trapped vec code val reason stamp last with v := v } := by
  have hc := closeWindows_onlyRegs s t
  obtain ⟨v, hv⟩ := hc.self
  have he' := hc.some.trans he
  rw [takeTrap_run val reason hinh hvec hto hin]
  generalize (closeWindows t).run s = a at *
  refine ⟨v, a.stamp, a.cycleOf t, ?_⟩
  rw [applyAll_cons, th_applyAll_spares _ t (by rw [List.all_cons, progress_spares]; rfl), th_apply_thread_keep he' (by exact th_id), hv]
  rfl

/-- What a state shows of a thread alone tells that it has trapped. -/
theorem Trapped.of_th {s a b : State} {t : TId} {vec val : BitVec 64} {code reason : Nat} (h : b.th t = a.th t)
    (ht : Trapped s a t vec code val reason) : Trapped s b t vec code val reason :=
  ⟨by unfold JumpsTo; rw [h]; exact ht.stand, by rw [h]; exact ht.tpc, by rw [h]; exact ht.tval, by rw [h]; exact ht.tcause⟩

/-- A trap that goes to a vector is the trap of R237. -/
theorem takeTrap_trapped {s : State} {t : TId} {code : Nat} {vec : BitVec 64} (val : BitVec 64) (reason : Nat)
    (he : (s.thread? t).isSome = true) (hinh : (s.th t).inh = false) (hvec : vec ≠ 0#64) (hto : VectorOf s t code vec)
    (hin : ∀ c, (s.th t).clause = some c → (s.th t).widx ≤ c.count) :
    Trapped s ((takeTrap t code val reason (s.th t).widx).run s) t vec code val reason := by
  obtain ⟨v, n, m, h⟩ := takeTrap_th val reason he hinh hvec hto hin
  exact ⟨by unfold JumpsTo; rw [h]; exact ⟨rfl, rfl, rfl, rfl, rfl, rfl⟩, by rw [h]; rfl, by rw [h]; rfl, by rw [h]; rfl⟩

/-- A cause other than ILLEGAL goes to the context's vector. -/
theorem takeTrap_vectored {s : State} {t : TId} {code : Nat} {vec : BitVec 64} (val : BitVec 64) (reason : Nat)
    (he : (s.thread? t).isSome = true) (hv : Vectored s t vec) (hcode : code ≠ cIllegal) :
    Trapped s ((takeTrap t code val reason (s.th t).widx).run s) t vec code val reason :=
  takeTrap_trapped val reason he hv.level hv.some (by rw [VectorOf, if_neg hcode]; exact hv.ctx) hv.inside

/-- ILLEGAL goes to the group's EMUVEC. -/
theorem illegal_trapped {s : State} {t : TId} (n : Nat) (he : (s.thread? t).isSome = true) (hinh : (s.th t).inh = false)
    (hvec : (s.gr t.gid).emuvec ≠ 0#64) (hin : ∀ c, (s.th t).clause = some c → (s.th t).widx ≤ c.count) :
    Trapped s ((illegal t n).run s) t (s.gr t.gid).emuvec 1 (BitVec.ofNat 64 n) 0 :=
  takeTrap_trapped _ 0 he hinh hvec (by rw [VectorOf, if_pos rfl]) hin

end Sys2Proof.Machine
end

section
/-! SUPPORT. GETS and SETS (R369, R370, R426, R427). -/

open Sys2Proof Sys2Proof.Machine

namespace Sys2Proof.Machine

/-! ## Consecutive registers -/

/-- Registers that a write of consecutive ones does not name are left. -/
theorem reg_setRegs_ne : ∀ (ws : List Word) (x : Thread) (r q : VReg), (∀ k < ws.length, q ≠ r + BitVec.ofNat 7 k) →
    (x.setRegs r ws).reg q = x.reg q
  | [], _, _, _, _ => rfl
  | w :: ws, x, r, q, h => by
    have h0 : q ≠ r := by simpa using h 0 (by simp)
    rw [Thread.setRegs, reg_setRegs_ne ws _ (r + 1#7) q fun k hk => ?_, reg_setReg_ne _ _ h0]
    have := h (k + 1) (by simpa using hk)
    rwa [BitVec.ofNat_add, BitVec.add_comm (BitVec.ofNat 7 k), ← BitVec.add_assoc] at this

/-- A register of consecutive ones takes its value, clean. -/
theorem reg_setRegs_get (ws : List Word) : ∀ (x : Thread) (r : VReg) (k : Nat) (h : k < ws.length), ws.length ≤ 128 →
    (x.setRegs r ws).reg (r + BitVec.ofNat 7 k) = ⟨ws[k], false, 0#3⟩ := by
  induction ws with
  | nil => exact fun _ _ _ h => absurd h (Nat.not_lt_zero _)
  | cons w ws ih =>
    intro x r k h hl
    rw [List.length_cons] at h hl
    cases k with
    | zero =>
      rw [Thread.setRegs, show r + BitVec.ofNat 7 0 = r from BitVec.add_zero r, reg_setRegs_ne ws _ (r + 1#7) r fun k hk e => ?_, reg_setReg_self,
        List.getElem_cons_zero]
      have := congrArg BitVec.toNat e
      simp only [BitVec.toNat_add, BitVec.toNat_ofNat] at this
      omega
    | succ k =>
      have hr : r + BitVec.ofNat 7 (k + 1) = r + 1#7 + BitVec.ofNat 7 k := by
        rw [BitVec.ofNat_add, BitVec.add_comm (BitVec.ofNat 7 k), ← BitVec.add_assoc]
      rw [Thread.setRegs, hr, ih _ (r + 1#7) k (by omega) (by omega), List.getElem_cons_succ]

theorem putRegs_isSome (s a : State) (t : TId) (r : VReg) (ws : List Word) :
    ((a.applyAll (putRegs s t r ws)).thread? t).isSome = (a.thread? t).isSome :=
  (OnlyRegs.write s a t _ (fun x => setRegs_v x ws r) r ws ws.length s.nextId).some

/-! ## GETS -/

theorem specialValue_length (s : State) (t : TId) (sel : Nat) : (specialValue s t sel).length ≤ 2 := by
  unfold specialValue
  split <;> simp

/-- The fields of RATIO (R262). -/
theorem ratioWord_fields : ∀ (ceil cur : BitVec 2) (therm moving : Bool),
    let w : Word := 0#26 ++ ceil ++ BitVec.ofBool therm ++ BitVec.ofBool moving ++ cur
    w.extractLsb' 0 2 = cur ∧ (w.getLsbD 2 = true ↔ moving = true) ∧ w.getLsbD 3 = therm ∧ w.extractLsb' 4 2 = ceil := by decide

/-- The value that GETS returns is the special register's. -/
theorem specialValue_reads (s : State) (t : TId) {sel : Nat} (h : sel ≤ 16) : specialReads s t sel (specialValue s t sel) := by
  refine ⟨fun hs => ?_, ?_⟩
  · refine ⟨?_, ?_, ?_, ?_, ?_, ?_, ?_, ?_⟩ <;> rintro rfl
    case refine_5 => intro l hl; simp [specialValue, identity, hs, hl]
    case refine_8 =>
      intro c hc
      have hsup : (s.tm t.team).sup = none := Option.isSome_eq_false_iff.mp hs |> Option.isNone_iff_eq_none.mp
      simp [specialValue, hsup, hc]
    all_goals simp [specialValue, identity, hs, State.tid]
  · refine ⟨?_, ?_, ?_, ?_, ?_, ?_, ?_, ?_, ?_⟩ <;> rintro rfl
    case refine_9 =>
      exact ⟨_, rfl, ratioWord_fields _ _ _ _⟩
    all_goals rfl

/-- What GETS does to its thread. -/
def getsBody (d : VReg) (sel : BitVec 8) (t : TId) : Eff :=
  .seq (.act fun s => putRegs s t d (specialValue s t sel.toNat)) <|
    .seq (.act fun s => if s.isSup t.team ∧ sel.toNat < 7 then [.drawn 1] else []) (.done t 1)

/-- Threads do not show the free values that are drawn. -/
theorem drawn_threads (s : State) (c : Prop) [Decidable c] (n : Nat) : (s.applyAll (if c then [.drawn n] else [])).threads = s.threads := by
  split <;> rfl

theorem getsBody_self {s : State} {t : TId} (d : VReg) (sel : BitVec 8) (h : (s.thread? t).isSome = true) :
    MovesOn s ((getsBody d sel t).run s) t 1 ∧
      ∀ r, (((getsBody d sel t).run s).th t).reg r = ((s.th t).setRegs d (specialValue s t sel.toNat)).reg r := by
  obtain ⟨v, hv⟩ := setRegs_v (s.th t) (specialValue s t sel.toNat) d
  have hw : (s.applyAll (putRegs s t d (specialValue s t sel.toNat))).th t = (s.th t).setRegs d (specialValue s t sel.toNat) := by
    rw [putRegs, putRegsOf_th_self d _ _ h]
    exact withId_self (by rw [hv]; exact th_id)
  have he := (putRegs_isSome s s t d (specialValue s t sel.toNat)).trans h
  simp only [getsBody, run_seq, run_act]
  generalize s.applyAll (putRegs s t d (specialValue s t sel.toNat)) = a at *
  have hd := drawn_threads a (a.isSup t.team = true ∧ sel.toNat < 7) 1
  generalize a.applyAll (if a.isSup t.team = true ∧ sel.toNat < 7 then [.drawn 1] else []) = b at *
  have hb : b.th t = (s.th t).setRegs d (specialValue s t sel.toNat) := (th_of_threads hd t).trans hw
  have he' : (b.thread? t).isSome = true := by unfold State.thread?; rw [hd]; exact he
  refine ⟨(done_movesOn 1 he').of_stands (by rw [hb, hv]; exact ⟨rfl, rfl, rfl, rfl, rfl⟩), fun r => ?_⟩
  rw [done_th_self 1 he', hb]
  simp only [Thread.reg, step_v]

/-- GETS writes the value, clean, and leaves the other registers. -/
theorem gets_result {d : VReg} {sel : BitVec 8} {s : State} {t : TId} (hs : Solo s t) (hc : Clear s t (.gets d sel) [] []) :
    ∃ s', exec (.gets d sel) s = .next s' ∧ MovesOn s s' t 1 ∧
      (∀ k (h : k < (specialValue s t sel.toNat).length), (s'.th t).reg (d + BitVec.ofNat 7 k) = ⟨(specialValue s t sel.toNat)[k], false, 0#3⟩) ∧
      (∀ r, (∀ k < (specialValue s t sel.toNat).length, r ≠ d + BitVec.ofNat 7 k) → (s'.th t).reg r = (s.th t).reg r) := by
  have hth := th_of_threads (issue_solo_threads hs hc nofun (getsBody d sel)).1 t
  obtain ⟨hmoves, hregs⟩ := getsBody_self d sel hs.thread
  have hlen := specialValue_length s t sel.toNat
  refine ⟨_, rfl, hmoves.of_th hth, fun k h => ?_, fun r h => ?_⟩
  · exact (congrArg (fun x => Thread.reg x _) hth).trans ((hregs _).trans (reg_setRegs_get _ _ d k h (by omega)))
  · exact (congrArg (fun x => Thread.reg x _) hth).trans ((hregs r).trans (reg_setRegs_ne _ _ d r h))

/-! ## SETS -/

/-- What SETS does to its thread. -/
def setsBody (a : VReg) (sel : BitVec 8) (t : TId) : Eff := .read fun s =>
  let x := s.th t
  if setsPriv (s.isSup t.team) sel.toNat then trap t cPriv (BitVec.ofNat 64 x.widx)
  else .seq (.act fun s => setsWrite s t sel.toNat (x.val a) (x.val (a + 1#7))) (.done t 1)

/-- SETS of a register that is not the thread's to write raises PRIV. -/
theorem sets_priv {a : VReg} {sel : BitVec 8} {vec : BitVec 64} {s : State} {t : TId} {eats : List VReg} (hs : Solo s t)
    (hc : Clear s t (.sets a sel) eats []) (heats : eats = if special64 sel then pairOf a else [a]) (hv : Vectored s t vec)
    (hp : setsPriv (s.isSup t.team) sel.toNat = true) :
    ∃ s', exec (.sets a sel) s = .next s' ∧ Trapped s s' t vec 3 (BitVec.ofNat 64 (s.th t).widx) 0 := by
  subst heats
  have hth := th_of_threads (issue_solo_threads hs hc nofun (setsBody a sel)).1 t
  refine ⟨_, rfl, Trapped.of_th hth ?_⟩
  simp only [setsBody, run_read, hp, if_true, trap]
  exact takeTrap_vectored _ 0 hs.thread hv (by decide)

theorem setsPriv_of {sup : Bool} {sel : BitVec 8}
    (h : sel.toNat < 7 ∨ sel = 8#8 ∨ ((sel = 7#8 ∨ sel = 10#8 ∨ sel = 15#8 ∨ sel = 16#8) ∧ sup = false)) :
    setsPriv sup sel.toNat = true := by
  unfold setsPriv
  rcases h with h | rfl | ⟨rfl | rfl | rfl | rfl, rfl⟩
  · simp [h]
  all_goals rfl

/-- What the write of SETS leaves, before the thread moves on: the register's writable bits, and all others as they were (R427). -/
structure SetsLeaves (s b : State) (t : TId) (a : VReg) (sel : BitVec 8) : Prop where
  stands : Stands (s.th t) (b.th t)
  found : (b.thread? t).isSome = true
  regs : ∀ r, (b.th t).reg r = (s.th t).reg r
  mem : b.mem = s.mem
  hosted : (b.gr t.gid).hosted = (s.gr t.gid).hosted
  narmode : (b.gr t.gid).narmode = if sel = 9#8 then (s.th t).val a &&& 0x00077777#32 else (s.gr t.gid).narmode
  emuvec : (b.gr t.gid).emuvec = if sel = 11#8 then (s.th t).val64 a else (s.gr t.gid).emuvec
  tcause : (b.th t).tcause = if sel = 12#8 then ((s.th t).tcause &&& 0x9F0F0FE0#32) ||| ((s.th t).val a &&& 0x60F0F01F#32)
    else (s.th t).tcause
  tpc : (b.th t).tpc = if sel = 13#8 then (s.th t).val64 a &&& 0x00FFFFFFFFFFFFFF#64 else (s.th t).tpc
  tval : (b.th t).tval = if sel = 14#8 then (s.th t).val64 a else (s.th t).tval
  slope : s.homeCluster t < 16 → (b.cluster (s.homeCluster t)).slope =
    if sel = 15#8 then ((s.th t).val a).setWidth 16 else (s.cluster (s.homeCluster t)).slope
  asid : ∀ n, (s.tm t.team).sup = some n → n < 8 → b.part.supAsid.toList.getD n 0#16 =
    if sel = 10#8 then ((s.th t).val a).setWidth 16 else s.part.supAsid.toList.getD n 0#16

theorem getD_updAt_self {α : Type} {n : Nat} (v : Vector α n) {i : Nat} (f : α → α) (d : α) (h : i < n) :
    (updAt v i f).toList.getD i d = f (v.toList.getD i d) := by
  simp [updAt, h, List.getD]

theorem setsWrite_leaves {s : State} {t : TId} (a : VReg) (sel : BitVec 8) (hs : Solo s t) :
    SetsLeaves s (s.applyAll (setsWrite s t sel.toNat ((s.th t).val a) ((s.th t).val (a + 1#7)))) t a sel := by
  by_cases h9 : sel = 9#8
  · subst h9
    show SetsLeaves s ((Upd.group t.gid fun g => { g with narmode := (s.th t).val a &&& 0x00077777#32 }).apply s) t a 9#8
    constructor
    case slope => exact fun _ => rfl
    all_goals simp [gr_apply_group_self _ hs.group, hs.thread, Stands.refl]
  by_cases h11 : sel = 11#8
  · subst h11
    show SetsLeaves s ((Upd.group t.gid fun g => { g with emuvec := (s.th t).val64 a }).apply s) t a 11#8
    constructor
    case slope => exact fun _ => rfl
    all_goals simp [gr_apply_group_self _ hs.group, hs.thread, Stands.refl]
  by_cases h12 : sel = 12#8
  · subst h12
    show SetsLeaves s ((Upd.thread t fun x => { x with tcause := (x.tcause &&& 0x9F0F0FE0#32) ||| ((s.th t).val a &&& 0x60F0F01F#32) }).apply s) t a 12#8
    constructor
    case slope => exact fun _ => rfl
    case stands => rw [th_apply_thread_self _ hs.thread]; exact ⟨rfl, rfl, rfl, rfl, rfl⟩
    case regs => intro r; rw [th_apply_thread_self _ hs.thread]; rfl
    all_goals simp [th_apply_thread_self _ hs.thread, isSome_thread?_apply_thread, hs.thread]
  by_cases h13 : sel = 13#8
  · subst h13
    show SetsLeaves s ((Upd.thread t fun x => { x with tpc := (s.th t).val64 a &&& 0x00FFFFFFFFFFFFFF#64 }).apply s) t a 13#8
    constructor
    case slope => exact fun _ => rfl
    case stands => rw [th_apply_thread_self _ hs.thread]; exact ⟨rfl, rfl, rfl, rfl, rfl⟩
    case regs => intro r; rw [th_apply_thread_self _ hs.thread]; rfl
    all_goals simp [th_apply_thread_self _ hs.thread, isSome_thread?_apply_thread, hs.thread]
  by_cases h14 : sel = 14#8
  · subst h14
    show SetsLeaves s ((Upd.thread t fun x => { x with tval := (s.th t).val64 a }).apply s) t a 14#8
    constructor
    case slope => exact fun _ => rfl
    case stands => rw [th_apply_thread_self _ hs.thread]; exact ⟨rfl, rfl, rfl, rfl, rfl⟩
    case regs => intro r; rw [th_apply_thread_self _ hs.thread]; rfl
    all_goals simp [th_apply_thread_self _ hs.thread, isSome_thread?_apply_thread, hs.thread]
  by_cases h15 : sel = 15#8
  · subst h15
    show SetsLeaves s ((Upd.cluster (s.homeCluster t) fun c => { c with slope := ((s.th t).val a).setWidth 16 }).apply s) t a 15#8
    refine ⟨Stands.refl _, hs.thread, fun _ => rfl, rfl, rfl, rfl, rfl, rfl, rfl, rfl, fun hlt => ?_, fun _ _ _ => rfl⟩
    have := getD_updAt_self s.part.clusters (fun c => { c with slope := ((s.th t).val a).setWidth 16 }) Cluster.reset hlt
    exact congrArg Cluster.slope this
  by_cases h10 : sel = 10#8
  · subst h10
    cases hsup : (s.tm t.team).sup with
    | none =>
      have hw : setsWrite s t (10#8).toNat ((s.th t).val a) ((s.th t).val (a + 1#7)) = [] := by
        simp only [setsWrite, BitVec.toNat_ofNat, Nat.reducePow, Nat.reduceMod, hsup]
      rw [hw]
      refine ⟨Stands.refl _, hs.thread, fun _ => rfl, rfl, rfl, rfl, rfl, rfl, rfl, rfl, fun _ => rfl, fun n hn => ?_⟩
      rw [hsup] at hn
      cases hn
    | some m =>
      have hw : setsWrite s t (10#8).toNat ((s.th t).val a) ((s.th t).val (a + 1#7)) =
          [.part fun p => { p with supAsid := updAt p.supAsid m fun _ => ((s.th t).val a).setWidth 16 }] := by
        simp only [setsWrite, BitVec.toNat_ofNat, Nat.reducePow, Nat.reduceMod, hsup]
      rw [hw]
      refine ⟨Stands.refl _, hs.thread, fun _ => rfl, rfl, rfl, rfl, rfl, rfl, rfl, rfl, fun _ => rfl, fun n hn hlt => ?_⟩
      rw [hsup] at hn
      cases hn
      exact getD_updAt_self s.part.supAsid _ 0#16 hlt
  have hw : setsWrite s t sel.toNat ((s.th t).val a) ((s.th t).val (a + 1#7)) = [] := by
    simp only [BitVec.toNat_eq, BitVec.toNat_ofNat, Nat.reducePow, Nat.reduceMod] at h9 h10 h11 h12 h13 h14 h15
    unfold setsWrite
    split <;> first | contradiction | rfl
  rw [hw]
  constructor <;> simp [h9, h10, h11, h12, h13, h14, h15, hs.thread, Stands.refl]

/-- SETS writes the writable bits of a register, and keeps all others. -/
theorem sets_result {a : VReg} {sel : BitVec 8} {s : State} {t : TId} {eats : List VReg} (hs : Solo s t)
    (hc : Clear s t (.sets a sel) eats []) (heats : eats = if special64 sel then pairOf a else [a])
    (hp : setsPriv (s.isSup t.team) sel.toNat = false) :
    ∃ s', exec (.sets a sel) s = .next s' ∧ MovesOn s s' t 1 ∧ (Unhosted s t → s'.mem = s.mem) ∧ (∀ r, (s'.th t).reg r = (s.th t).reg r) ∧
      (s'.gr t.gid).narmode = (if sel = 9#8 then (s.th t).val a &&& 0x00077777#32 else (s.gr t.gid).narmode) ∧
      (s'.gr t.gid).emuvec = (if sel = 11#8 then (s.th t).val64 a else (s.gr t.gid).emuvec) ∧
      (s'.th t).tcause = (if sel = 12#8 then ((s.th t).tcause &&& 0x9F0F0FE0#32) ||| ((s.th t).val a &&& 0x60F0F01F#32) else (s.th t).tcause) ∧
      (s'.th t).tpc = (if sel = 13#8 then (s.th t).val64 a &&& 0x00FFFFFFFFFFFFFF#64 else (s.th t).tpc) ∧
      (s'.th t).tval = (if sel = 14#8 then (s.th t).val64 a else (s.th t).tval) ∧
      (s.homeCluster t < 16 → (s'.cluster (s.homeCluster t)).slope =
        if sel = 15#8 then ((s.th t).val a).setWidth 16 else (s.cluster (s.homeCluster t)).slope) ∧
      (∀ n, (s.tm t.team).sup = some n → n < 8 → s'.part.supAsid.toList.getD n 0#16 =
        if sel = 10#8 then ((s.th t).val a).setWidth 16 else s.part.supAsid.toList.getD n 0#16) := by
  subst heats
  have hb := setsWrite_leaves a sel hs
  have hbody : (setsBody a sel t).run s =
      (Eff.done t 1).run (s.applyAll (setsWrite s t sel.toNat ((s.th t).val a) ((s.th t).val (a + 1#7)))) := by
    simp only [setsBody, run_read, hp, Bool.false_eq_true, if_false, run_seq, run_act]
  obtain ⟨mem, micros, hshown, hmem⟩ := issue_solo_shown hs hc nofun (setsBody a sel)
  rw [hbody] at hshown hmem
  generalize s.applyAll (setsWrite s t sel.toNat ((s.th t).val a) ((s.th t).val (a + 1#7))) = b at *
  have hframe := RegisterFrame.done (rs := []) (ps := []) (gs := []) 1 hb.found
  have hmoves := (done_movesOn 1 hb.found).of_stands hb.stands
  have hbytes := done_mem b t 1
  generalize (Eff.done t 1).run b = d at *
  obtain ⟨hown, _, hgroup, _, _, hpart, _, _⟩ := hframe
  have hclusters : d.part.clusters = b.part.clusters := by rw [hpart.rest]
  have hasid : d.part.supAsid = b.part.supAsid := by rw [hpart.rest]
  refine ⟨_, congrArg Host.Outcome.next hshown, hmoves, fun hu => (hmem hu).trans (hbytes.trans hb.mem),
    fun r => (hown.regs r (by simp)).trans (hb.regs r), hgroup.narmode.trans hb.narmode, hgroup.emuvec.trans hb.emuvec,
    hown.tcause.trans hb.tcause, hown.tpc.trans hb.tpc, hown.tval.trans hb.tval, fun hlt => ?_, fun n hn hlt => ?_⟩
  · rw [← hb.slope hlt]
    simp only [State.cluster, hclusters]
  · rw [← hb.asid n hn hlt]
    simp only [hasid]

/-- Settles O50: by what GETS and SETS write, and PRIV where the register is not the thread's. -/
theorem specialRegisters : Obligations.SpecialRegisters := by
  refine ⟨fun d sel s t hs hc hle => ?_, fun a sel s t hs hc _ hp => sets_result hs hc rfl hp, fun a sel vec s t hs hc hv hsel =>
    sets_priv hs hc rfl hv (setsPriv_of hsel)⟩
  obtain ⟨s', he, hmoves, hregs, hothers⟩ := gets_result hs hc
  exact ⟨s', _, he, hmoves, specialValue_reads s t hle, hregs, hothers⟩

end Sys2Proof.Machine
end

section
/-! SUPPORT. Rejoin masks (R21): what the release of a mask does to its threads, and what the test of all eight leaves of the others. -/

open Sys2Proof Sys2Proof.Machine

namespace Sys2Proof.Machine

/-! ## Vectors -/

theorem getD_updAt_ne {α : Type} {n : Nat} (v : Vector α n) {i j : Nat} (f : α → α) (d : α) (h : i ≠ j) :
    (updAt v i f).toList.getD j d = v.toList.getD j d := by
  unfold updAt
  split
  · simp [List.getD, h]
  · rfl

theorem getElem_eq_getD {α : Type} {n : Nat} (v : Vector α n) {i : Nat} (h : i < n) (d : α) : v[i] = v.toList.getD i d := by
  simp [List.getD, h]

/-! ## Leaving a wait -/

theorem leave_others (t : TId) (len : Nat) (a : State) : OthersKept t a ((Eff.leave t len).run a) := by
  simp only [Eff.leave, run_act]
  rw [applyAll_append, applyAll_append, applyAll_cons]
  refine (OthersKept.thread a t _).trans (.trans (.trans (.spares _ t rfl) (.spares _ t ?_)) (.yield a _ t t _))
  split <;> rfl

theorem leave_th {s : State} {t : TId} (len : Nat) (h : (s.thread? t).isSome = true) :
    ∃ stamp last, ((Eff.leave t len).run s).th t = { ((s.th t).step len).issued stamp last with id := t } := by
  simp only [Eff.leave, run_act]
  rw [applyAll_append, applyAll_append, applyAll_cons, th_of_threads (yieldPlace_threads _ _ _ _),
    th_of_threads (applyAll_spares _ _ (by split <;> rfl)).1, th_of_threads (applyAll_spares _ _ rfl).1, th_apply_thread_self _ h]
  exact ⟨_, _, rfl⟩

theorem leave_movesOn {s : State} {t : TId} (len : Nat) (h : (s.thread? t).isSome = true) :
    MovesOn s ((Eff.leave t len).run s) t len := by
  obtain ⟨st, la, e⟩ := leave_th len h
  unfold MovesOn
  rw [e]
  exact ⟨rfl, rfl, rfl, rfl, rfl, rfl⟩

/-! ## One mask -/

def maskE (s : State) (g : GId) (j : Nat) : BitVec 64 := (s.gr g).jE.toList.getD j 0#64
def maskA (s : State) (g : GId) (j : Nat) : BitVec 64 := (s.gr g).jA.toList.getD j 0#64

/-- Is a thread parked at mask `j`? -/
def Parked (x : Thread) (j : Nat) : Prop := ∃ k n, x.run = .joined k n ∧ k.toNat = j

/-- Is a mask to be released: all its enrolled threads have arrived, one at least? -/
abbrev MaskFull (s : State) (g : GId) (j : Nat) : Prop := maskE s g j = maskA s g j ∧ maskE s g j ≠ 0#64

/-- A mask is as it was, and its parked threads are. -/
structure MaskKept (g : GId) (j : Nat) (a b : State) : Prop where
  enrolled : maskE b g j = maskE a g j
  arrived : maskA b g j = maskA a g j
  parked : ∀ u, u.gid = g → Parked (a.th u) j → b.th u = a.th u

/-- A mask is clear, and its parked threads move on. -/
structure MaskReleased (g : GId) (j : Nat) (a b : State) : Prop where
  enrolled : maskE b g j = 0#64
  arrived : maskA b g j = 0#64
  parked : ∀ u, u.gid = g → (a.thread? u).isSome = true → Parked (a.th u) j → MovesOn a b u 1

/-- Threads that are parked at no mask are as they were. -/
structure UnparkedKept (a b : State) : Prop where
  threads : ∀ u, (∀ j, ¬ Parked (a.th u) j) → b.th u = a.th u
  some : ∀ u, (b.thread? u).isSome = (a.thread? u).isSome
  groups : ∀ g, (b.group? g).isSome = (a.group? g).isSome
  teams : b.teams = a.teams

theorem UnparkedKept.refl (a : State) : UnparkedKept a a := ⟨fun _ _ => rfl, fun _ => rfl, fun _ => rfl, rfl⟩
theorem UnparkedKept.trans {a b c : State} (h : UnparkedKept a b) (k : UnparkedKept b c) : UnparkedKept a c :=
  ⟨fun u hu => (k.threads u (by rw [h.threads u hu]; exact hu)).trans (h.threads u hu), fun u => (k.some u).trans (h.some u),
    fun g => (k.groups g).trans (h.groups g), k.teams.trans h.teams⟩

theorem parked_unique {x : Thread} {i j : Nat} (h : Parked x i) (k : Parked x j) : i = j := by
  obtain ⟨a, m, ha, hi⟩ := h
  obtain ⟨b, n, hb, hj⟩ := k
  rw [ha] at hb
  cases hb
  exact hi.symm.trans hj

theorem isSome_thread_of_mem {s : State} {x : Thread} (h : x ∈ s.threads) : (s.thread? x.id).isSome = true :=
  List.find?_isSome.mpr ⟨x, h, by simp⟩

theorem mem_threadsOf_gid {s : State} {g : GId} {x : Thread} : x ∈ s.threadsOf g ↔ x ∈ s.threads ∧ x.id.gid = g := by
  rw [mem_threadsOf]
  cases g
  simp [TId.gid]

/-- The threads of a group that are parked at a mask. -/
def parkedAt (s : State) (g : GId) (j : Nat) : List Thread := (s.threadsOf g).filter fun x => match x.run with
  | .joined k _ => k.toNat == j
  | _ => false

theorem mem_parkedAt {s : State} {g : GId} {j : Nat} {x : Thread} :
    x ∈ parkedAt s g j ↔ (x ∈ s.threads ∧ x.id.gid = g) ∧ Parked x j := by
  unfold parkedAt Parked
  rw [List.mem_filter]
  refine and_congr mem_threadsOf_gid ?_
  cases x.run <;> simp

/-- The masks of a group, with mask `j` clear. -/
def Group.unmask (x : Group) (j : Nat) : Group := { x with jE := updAt x.jE j fun _ => 0#64, jA := updAt x.jA j fun _ => 0#64 }

theorem run_releaseMask (g : GId) (j : Nat) (a : State) : (releaseMask g j).run a =
    (Eff.each (fun x => .leave x.id 1) (parkedAt a g j)).run ((Upd.group g fun x => x.unmask j).apply a) := rfl

theorem leaves_groups (l : List Thread) (a : State) :
    SameGroups a ((Eff.each (fun x => .leave x.id 1) l).run a) ∧ ((Eff.each (fun x => .leave x.id 1) l).run a).teams = a.teams ∧
      ∀ u, (((Eff.each (fun x => .leave x.id 1) l).run a).thread? u).isSome = (a.thread? u).isSome := by
  refine each_rel (fun a b => SameGroups a b ∧ b.teams = a.teams ∧ ∀ u, (b.thread? u).isSome = (a.thread? u).isSome)
    (fun a => ⟨SameGroups.refl a, rfl, fun _ => rfl⟩)
    (fun _ _ _ h k => ⟨h.1.trans k.1, k.2.1.trans h.2.1, fun u => (k.2.2 u).trans (h.2.2 u)⟩) _ l a fun x _ b => ?_
  have := leave_others x.id 1 b
  exact ⟨this.groups, this.teams, isSome_of_ids this.ids⟩

/-- The release of a mask touches no thread that is not parked at it. -/
theorem releaseMask_th {g : GId} {j : Nat} {a : State} (hn : NamesDistinct a) {u : TId} (h : ¬ (u.gid = g ∧ Parked (a.th u) j)) :
    ((releaseMask g j).run a).th u = a.th u := by
  rw [run_releaseMask]
  refine each_rel (fun c d => d.th u = c.th u) (fun _ => rfl) (fun _ _ _ h k => k.trans h) _ (parkedAt a g j) _ fun x hx b => ?_
  obtain ⟨⟨hm, hg⟩, hp⟩ := mem_parkedAt.mp hx
  refine (leave_others x.id 1 b).threads u fun e => h ?_
  rw [e, th_of_mem hn hm]
  exact ⟨hg, hp⟩

theorem releaseMask_mask (g : GId) (j k : Nat) (a : State) :
    maskE ((releaseMask g j).run a) g k = maskE ((Upd.group g fun x => x.unmask j).apply a) g k ∧
    maskA ((releaseMask g j).run a) g k = maskA ((Upd.group g fun x => x.unmask j).apply a) g k := by
  rw [run_releaseMask]
  have hg := (leaves_groups (parkedAt a g j) ((Upd.group g fun x => x.unmask j).apply a)).1
  exact ⟨congrArg (·.toList.getD k 0#64) (hg.field g Group.jE fun _ => rfl), congrArg (·.toList.getD k 0#64) (hg.field g Group.jA fun _ => rfl)⟩

theorem nodup_filter_ids {s : State} (hn : NamesDistinct s) (p : Thread → Bool) (g : GId) :
    (((s.threadsOf g).filter p).map Thread.id).Nodup :=
  ((List.filter_sublist.trans (by unfold State.threadsOf; exact List.filter_sublist)).map Thread.id).nodup hn.threads

/-- The release of a mask, which is one of the eight. -/
theorem releaseMask_released {g : GId} {j : Nat} {a : State} (hn : NamesDistinct a) (hg : (a.group? g).isSome = true) (hj : j < 8) :
    MaskReleased g j a ((releaseMask g j).run a) := by
  obtain ⟨hE, hA⟩ := releaseMask_mask g j j a
  refine ⟨?_, ?_, fun u hu hs hp => ?_⟩
  · rw [hE, maskE, gr_apply_group_self _ hg]
    exact getD_updAt_self _ _ _ hj
  · rw [hA, maskA, gr_apply_group_self _ hg]
    exact getD_updAt_self _ _ _ hj
  · have hm := mem_of_thread? hs
    obtain ⟨b, hb, _, hth, hrun⟩ := each_own (name := Thread.id) (f := fun x => Eff.leave x.id 1) (fun x a => leave_others x.id 1 a)
      (parkedAt a g j) ((Upd.group g fun x => x.unmask j).apply a) (nodup_filter_ids hn _ g) (a.th u)
      (mem_parkedAt.mpr ⟨⟨hm, by rw [th_id]; exact hu⟩, hp⟩)
    rw [th_id] at hth hrun
    rw [run_releaseMask]
    refine MovesOn.of_th hrun (MovesOn.of_stands ?_ (leave_movesOn 1 ((hb u).trans hs)))
    rw [hth]
    exact Stands.refl _

theorem releaseMask_kept {g : GId} {j k : Nat} {a : State} (hn : NamesDistinct a) (h : j ≠ k) :
    MaskKept g k a ((releaseMask g j).run a) := by
  obtain ⟨hE, hA⟩ := releaseMask_mask g j k a
  refine ⟨?_, ?_, fun u _ hp => releaseMask_th hn fun ⟨_, hq⟩ => h (parked_unique hq hp)⟩
  · rw [hE]
    exact gr_apply_group_field a g g _ (fun x => x.jE.toList.getD k 0#64) fun x => getD_updAt_ne _ _ _ h
  · rw [hA]
    exact gr_apply_group_field a g g _ (fun x => x.jA.toList.getD k 0#64) fun x => getD_updAt_ne _ _ _ h

theorem releaseMask_unparked (g : GId) (j : Nat) {a : State} (hn : NamesDistinct a) : UnparkedKept a ((releaseMask g j).run a) := by
  refine ⟨fun u hu => releaseMask_th hn fun h => hu j h.2, ?_, ?_, ?_⟩
  all_goals rw [run_releaseMask]
  · exact (leaves_groups _ _).2.2
  · exact fun k => ((leaves_groups _ _).1.isSome k).trans (isSome_group?_apply_group a g k _)
  · exact (leaves_groups _ _).2.1

/-! ## All masks of a group -/

theorem MaskKept.refl (g : GId) (j : Nat) (a : State) : MaskKept g j a a := ⟨rfl, rfl, fun _ _ _ => rfl⟩
theorem MaskKept.trans {g : GId} {j : Nat} {a b c : State} (h : MaskKept g j a b) (k : MaskKept g j b c) : MaskKept g j a c :=
  ⟨k.enrolled.trans h.enrolled, k.arrived.trans h.arrived,
    fun u hg hu => (k.parked u hg (by rw [h.parked u hg hu]; exact hu)).trans (h.parked u hg hu)⟩

theorem MaskKept.full {g : GId} {j : Nat} {a b : State} (h : MaskKept g j a b) : MaskFull b g j ↔ MaskFull a g j := by
  unfold MaskFull
  rw [h.enrolled, h.arrived]

/-- A mask that is released is not touched again, nor are the threads that it has let go. -/
theorem MaskReleased.trans {g : GId} {j : Nat} {a b c : State} (h : MaskReleased g j a b) (k : MaskKept g j b c) (u : UnparkedKept b c) :
    MaskReleased g j a c := by
  refine ⟨k.enrolled.trans h.enrolled, k.arrived.trans h.arrived, fun v hg hs hp => ?_⟩
  have hm := h.parked v hg hs hp
  exact hm.of_th (u.threads v fun i ⟨_, _, hr, _⟩ => by obtain ⟨_, _, _, _, _, hrun⟩ := hm; rw [hrun] at hr; cases hr)

theorem MaskKept.released {g : GId} {j : Nat} {a b c : State} (h : MaskKept g j a b) (hs : ∀ u, (b.thread? u).isSome = (a.thread? u).isSome)
    (k : MaskReleased g j b c) : MaskReleased g j a c := by
  refine ⟨k.enrolled, k.arrived, fun v hg hv hp => ?_⟩
  have hth := h.parked v hg hp
  refine MovesOn.of_stands (by rw [hth]; exact Stands.refl _) (k.parked v hg ((hs v).trans hv) (by rw [hth]; exact hp))

/-- The test of one mask. -/
def settleMask (g : GId) (j : Nat) : Eff := .read fun s => if MaskFull s g j then releaseMask g j else .nothing

/-- What the tests of distinct masks do: each one that is tested and full is released, the others are kept. -/
theorem settleEach {g : GId} (js : List Nat) (hjs : js.Nodup) (hlt : ∀ j ∈ js, j < 8) (a : State) (hn : NamesDistinct a)
    (hg : (a.group? g).isSome = true) :
    UnparkedKept a ((Eff.each (settleMask g) js).run a) ∧
    (∀ j ∈ js, MaskFull a g j → MaskReleased g j a ((Eff.each (settleMask g) js).run a)) ∧
    ∀ j, (j ∉ js ∨ ¬ MaskFull a g j) → MaskKept g j a ((Eff.each (settleMask g) js).run a) := by
  induction js generalizing a with
  | nil => exact ⟨UnparkedKept.refl a, fun _ h => absurd h List.not_mem_nil, fun j _ => MaskKept.refl g j a⟩
  | cons i js ih =>
    rw [List.nodup_cons] at hjs
    obtain ⟨hnot, hjs⟩ := hjs
    have head : UnparkedKept a ((settleMask g i).run a) ∧ (MaskFull a g i → MaskReleased g i a ((settleMask g i).run a)) ∧
        ∀ j, (i ≠ j ∨ ¬ MaskFull a g j) → MaskKept g j a ((settleMask g i).run a) := by
      by_cases hf : MaskFull a g i
      · have hrun : (settleMask g i).run a = (releaseMask g i).run a := by rw [settleMask, run_read, if_pos hf]
        rw [hrun]
        refine ⟨releaseMask_unparked g i hn, fun _ => releaseMask_released hn hg (hlt i List.mem_cons_self), fun j hj => ?_⟩
        exact releaseMask_kept hn fun e => hj.elim (fun h => h e) fun h => h (e ▸ hf)
      · have hrun : (settleMask g i).run a = a := by rw [settleMask, run_read, if_neg hf, run_nothing]
        rw [hrun]
        exact ⟨UnparkedKept.refl a, fun h => absurd h hf, fun j _ => MaskKept.refl g j a⟩
    obtain ⟨hu, hrel, hkept⟩ := head
    obtain ⟨tu, trel, tkept⟩ := ih hjs (fun j hj => hlt j (List.mem_cons_of_mem _ hj)) ((settleMask g i).run a) (run_names _ _ hn)
      ((hu.groups g).trans hg)
    rw [run_each_cons]
    refine ⟨hu.trans tu, fun j hj hf => ?_, fun j hj => ?_⟩
    · rcases List.mem_cons.mp hj with rfl | hj
      · exact (hrel hf).trans (tkept j (.inl hnot)) tu
      · have hk := hkept j (.inl fun e => hnot (e ▸ hj))
        exact hk.released hu.some (trel j hj (hk.full.mpr hf))
    · have hi : i ≠ j ∨ ¬ MaskFull a g j := hj.imp_left fun h e => h (e ▸ List.mem_cons_self)
      have hk := hkept j hi
      exact hk.trans (tkept j (hj.imp (fun h hm => h (List.mem_cons_of_mem _ hm)) fun h => fun hf => h (hk.full.mp hf)))

/-- R21: what the test of the masks of a group does. -/
theorem settleMasks_spec {g : GId} {a : State} (hn : NamesDistinct a) (hg : (a.group? g).isSome = true) :
    UnparkedKept a ((settleMasks g).run a) ∧
    ∀ j < 8, (MaskFull a g j → MaskReleased g j a ((settleMasks g).run a)) ∧
      (¬ MaskFull a g j → MaskKept g j a ((settleMasks g).run a)) := by
  have hrun : (settleMasks g).run a = (Eff.each (settleMask g) (List.range 8)).run a := rfl
  rw [hrun]
  obtain ⟨hu, hrel, hkept⟩ := settleEach (g := g) (List.range 8) List.nodup_range (fun j hj => List.mem_range.mp hj) a hn hg
  exact ⟨hu, fun j hj => ⟨hrel j (List.mem_range.mpr hj), fun h => hkept j (.inr h)⟩⟩

end Sys2Proof.Machine
end

section
/-! SUPPORT. Instructions after which the masks and the rendezvous of a group are settled, and ENROL, STRIKE, JOIN and the timed release
(R21). -/

open Sys2Proof Sys2Proof.Machine

namespace Sys2Proof.Machine

/-! ## Settling -/

theorem settleLanes_th {g : GId} {a : State} (hn : NamesDistinct a) {u : TId} (h : (a.th u).run ≠ .waiting .rendezvous) :
    ((settleLanes g).run a).th u = a.th u :=
  (settleLanes_keeps g fun x hx e => by rw [← th_of_mem hn hx, e]; exact h).1

/-- What settled rendezvous leave of a group: all but its place, the values left behind and the other places passed. -/
theorem settleLanes_field (g k : GId) (a : State) {α : Type} (f : Group → α) (hp : ∀ x, f x.butPlace = f x)
    (hf : ∀ (x : Group) l m, f { x with arrivals := l, elsewhere := m } = f x) : f (((settleLanes g).run a).gr k) = f (a.gr k) := by
  simp only [settleLanes, run_read, run_seq, run_upds, applyAll_cons, applyAll_nil]
  refine (gr_apply_group_field _ _ k _ f (by exact fun x => hf x _ _)).trans (SameGroups.field ?_ k f hp)
  exact each_rel SameGroups SameGroups.refl (fun _ _ _ => SameGroups.trans) _ _ a fun x _ b => (takeResult_keeps a x b).groups

theorem settleLanes_maskE (g : GId) (k : GId) (j : Nat) (a : State) : maskE ((settleLanes g).run a) k j = maskE a k j :=
  settleLanes_field g k a (fun x => x.jE.toList.getD j 0#64) (fun _ => rfl) fun _ _ _ => rfl
theorem settleLanes_maskA (g : GId) (k : GId) (j : Nat) (a : State) : maskA ((settleLanes g).run a) k j = maskA a k j :=
  settleLanes_field g k a (fun x => x.jA.toList.getD j 0#64) (fun _ => rfl) fun _ _ _ => rfl

theorem MaskKept.lanes {g : GId} {j : Nat} {a b : State} (hn : NamesDistinct b) (h : MaskKept g j a b) :
    MaskKept g j a ((settleLanes g).run b) := by
  refine h.trans ⟨settleLanes_maskE g g j b, settleLanes_maskA g g j b, fun u _ hp => settleLanes_th hn ?_⟩
  obtain ⟨_, _, hr, _⟩ := hp
  rw [hr]
  exact fun e => by cases e

theorem MaskReleased.lanes {g : GId} {j : Nat} {a b : State} (hn : NamesDistinct b) (h : MaskReleased g j a b) :
    MaskReleased g j a ((settleLanes g).run b) := by
  refine ⟨(settleLanes_maskE g g j b).trans h.enrolled, (settleLanes_maskA g g j b).trans h.arrived, fun u hg hs hp => ?_⟩
  have hm := h.parked u hg hs hp
  refine hm.of_th (settleLanes_th hn ?_)
  obtain ⟨_, _, _, _, _, hr⟩ := hm
  rw [hr]
  exact fun e => by cases e

/-- What follows an instruction after which its group is settled. -/
structure LanesSettled (g : GId) (b s' : State) : Prop where
  threads : ∀ u, (∀ j, ¬ Parked (b.th u) j) → (b.th u).run ≠ .waiting .rendezvous → s'.th u = b.th u
  full : ∀ j < 8, MaskFull b g j → MaskReleased g j b s'
  kept : ∀ j < 8, ¬ MaskFull b g j → MaskKept g j b s'

theorem lanesSettled_of {g : GId} {b : State} (hn : NamesDistinct b) (hg : (b.group? g).isSome = true) :
    LanesSettled g b ((settleLanes g).run ((settleMasks g).run b)) := by
  obtain ⟨hu, hm⟩ := settleMasks_spec hn hg
  have hn' := run_names (settleMasks g) b hn
  refine ⟨fun u hp hr => ?_, fun j hj hf => ((hm j hj).1 hf).lanes hn', fun j hj hf => ((hm j hj).2 hf).lanes hn'⟩
  have hth := hu.threads u hp
  rw [settleLanes_th hn' (by rw [hth]; exact hr), hth]

/-- A running thread is kept. -/
theorem LanesSettled.running {g : GId} {b s' : State} (h : LanesSettled g b s') {u : TId} (hu : (b.th u).run = .running) : s'.th u = b.th u :=
  h.threads u (fun _ ⟨_, _, e, _⟩ => by rw [hu] at e; cases e) (by rw [hu]; exact fun e => by cases e)

theorem LanesSettled.movesOn {g : GId} {s b s' : State} (h : LanesSettled g b s') {u : TId} {len : Nat} (hm : MovesOn s b u len) :
    MovesOn s s' u len := by
  refine hm.of_th (h.running ?_)
  obtain ⟨_, _, _, _, _, hr⟩ := hm
  exact hr

/-- An instruction of one thread, and the settling after it: what its effect `c` shows of threads and groups is settled. -/
theorem settling_issue {s : State} {t : TId} {i : Instr} (hs : Solo s t) (hsafe : Safe s) (hc : Clear s t i [] []) (hi : ∀ op, i ≠ .trace op)
    (body : TId → Eff) (hg : (((body t).run s).group? t.gid).isSome = true) :
    ∃ b, LanesSettled t.gid b ((settling (issue i [] [] body)).run s) ∧ b.threads = ((body t).run s).threads ∧
      b.groups = ((body t).run s).groups := by
  obtain ⟨ht, hgr, _⟩ := issue_solo_threads hs hc hi body
  refine ⟨(issue i [] [] body).run s, ?_, ht, hgr⟩
  have : (settling (issue i [] [] body)).run s =
      (settleLanes t.gid).run ((settleMasks t.gid).run ((issue i [] [] body).run s)) := by
    simp only [settling, run_read, run_seq, hs.cur]
  rw [this]
  exact lanesSettled_of (run_names _ _ hsafe.names) (by rwa [State.group?, hgr])

/-! ## Bits of masks -/

theorem enrolled_eq (s : State) (g : GId) (j : BitVec 3) (i : Nat) : enrolled (s.gr g) j i = (maskE s g j.toNat).getLsbD i := by
  unfold enrolled maskE
  rw [getElem_eq_getD _ j.isLt 0#64]
theorem arrivedAt_eq (s : State) (g : GId) (j : BitVec 3) (i : Nat) : arrivedAt (s.gr g) j i = (maskA s g j.toNat).getLsbD i := by
  unfold arrivedAt maskA
  rw [getElem_eq_getD _ j.isLt 0#64]

theorem getLsbD_bitAt {i k : Nat} (h : k < 64) : (bitAt i).getLsbD k = decide (k = i) := by
  rw [bitAt, BitVec.getLsbD_ofNat, Nat.testBit_two_pow]
  simp [h, eq_comm]

theorem ne_zero_of_bit {x : BitVec 64} {i : Nat} (h : x.getLsbD i = true) : x ≠ 0#64 := by
  rintro rfl
  simp at h

theorem zero_of_no_bit {x : BitVec 64} (h : ∀ i < 64, x.getLsbD i = false) : x = 0#64 :=
  BitVec.eq_of_getLsbD_eq fun i hi => by simpa using h i hi

theorem maskFull_of_bits {s : State} {g : GId} {j i : Nat} (hi : (maskE s g j).getLsbD i = true)
    (h : ∀ k < 64, (maskE s g j).getLsbD k = (maskA s g j).getLsbD k) : MaskFull s g j :=
  ⟨BitVec.eq_of_getLsbD_eq h, ne_zero_of_bit hi⟩

theorem not_maskFull_of_bit {s : State} {g : GId} {j i : Nat} (h : (maskE s g j).getLsbD i ≠ (maskA s g j).getLsbD i) : ¬ MaskFull s g j :=
  fun hf => h (by rw [hf.1])

/-- A mask that is released, as the statement says it. -/
theorem MaskReleased.releasedMask {g : GId} {j : BitVec 3} {s b s' : State} (h : MaskReleased g j.toNat b s')
    (hp : ∀ x ∈ s.threads, x.id.gid = g → Parked x j.toNat → (b.thread? x.id).isSome = true ∧ b.th x.id = x) (hn : NamesDistinct s) :
    ReleasedMask s s' g j := by
  refine ⟨fun i _ => ⟨by rw [enrolled_eq, h.enrolled]; simp, by rw [arrivedAt_eq, h.arrived]; simp⟩, fun x hx hg ⟨n, hr⟩ => ?_⟩
  have hpk : Parked x j.toNat := ⟨j, n, hr, rfl⟩
  obtain ⟨hsome, hth⟩ := hp x hx hg hpk
  refine MovesOn.of_stands ?_ (h.parked x.id hg hsome (by rw [hth]; exact hpk))
  rw [hth, th_of_mem hn hx]
  exact Stands.refl x

end Sys2Proof.Machine
end

section
/-! ENROL, STRIKE, JOIN and the timed release: O20. -/

open Sys2Proof Sys2Proof.Machine

namespace Sys2Proof.Machine

/-! ## Masks through updates -/

theorem SameGroups.maskE {a b : State} (h : SameGroups a b) (g : GId) (j : Nat) : maskE b g j = maskE a g j :=
  h.field g (fun x => x.jE.toList.getD j 0#64) fun _ => rfl
theorem SameGroups.maskA {a b : State} (h : SameGroups a b) (g : GId) (j : Nat) : maskA b g j = maskA a g j :=
  h.field g (fun x => x.jA.toList.getD j 0#64) fun _ => rfl

theorem maskE_apply_group {s : State} {g : GId} (hg : (s.group? g).isSome = true) (f : Group → Group) (j : Nat) :
    maskE ((Upd.group g f).apply s) g j = (f (s.gr g)).jE.toList.getD j 0#64 := by
  rw [maskE, gr_apply_group_self f hg]
theorem maskA_apply_group {s : State} {g : GId} (hg : (s.group? g).isSome = true) (f : Group → Group) (j : Nat) :
    maskA ((Upd.group g f).apply s) g j = (f (s.gr g)).jA.toList.getD j 0#64 := by
  rw [maskA, gr_apply_group_self f hg]

/-- A change of the masks of a group, then the thread moves on: what is settled after it. -/
theorem settling_group_done {s : State} {t : TId} {i : Instr} (hs : Solo s t) (hsafe : Safe s) (hc : Clear s t i [] [])
    (hi : ∀ op, i ≠ .trace op) (f : TId → Group → Group)
    (he : exec i s = Machine.run (settling (issue i [] [] fun t => .seq (.upds [.group t.gid (f t)]) (.done t 1))) s) :
    ∃ s' b, exec i s = .next s' ∧ LanesSettled t.gid b s' ∧ MovesOn s b t 1 ∧ (∀ u, u ≠ t → b.th u = s.th u) ∧ (∀ u, (b.thread? u).isSome = (s.thread? u).isSome) ∧
      (∀ j, maskE b t.gid j = (f t (s.gr t.gid)).jE.toList.getD j 0#64) ∧ ∀ j, maskA b t.gid j = (f t (s.gr t.gid)).jA.toList.getD j 0#64 := by
  have hd := OthersKept.done ((Upd.group t.gid (f t)).apply s) t 1
  have hsame := hd.groups
  obtain ⟨b, hb, ht, hg⟩ := settling_issue hs hsafe hc hi (fun t => .seq (.upds [.group t.gid (f t)]) (.done t 1)) (by
    exact (hsame.isSome t.gid).trans ((isSome_group?_apply_group s _ _ _).trans hs.group))
  have hth : ∀ u, b.th u = ((Eff.done t 1).run ((Upd.group t.gid (f t)).apply s)).th u := fun u => th_of_threads ht u
  have hgr := SameGroups.of_groups (a := (Eff.done t 1).run ((Upd.group t.gid (f t)).apply s)) hg
  refine ⟨_, b, he, hb, ?_, fun u hu => (hth u).trans (hd.threads u hu), fun u => ?_, fun j => ?_, fun j => ?_⟩
  · exact (done_movesOn (s := (Upd.group t.gid (f t)).apply s) 1 hs.thread).of_th (hth t)
  · exact (isSome_of_ids (by rw [ht]; exact hd.ids) u)
  · rw [(hsame.trans hgr).maskE, maskE_apply_group hs.group]
  · rw [(hsame.trans hgr).maskA, maskA_apply_group hs.group]

/-- What a mask that is released after one thread has acted did to the threads parked at it. -/
theorem releasedMask_of_solo {s b s' : State} {t : TId} {j : BitVec 3} (hsafe : Safe s) (hr : (s.th t).run = .running)
    (ho : ∀ u, u ≠ t → b.th u = s.th u) (hsome : ∀ u, (b.thread? u).isSome = (s.thread? u).isSome)
    (h : MaskReleased t.gid j.toNat b s') : ReleasedMask s s' t.gid j := by
  refine h.releasedMask (fun x hx _ hp => ?_) hsafe.names
  have hne : x.id ≠ t := by
    intro e
    obtain ⟨_, _, hj, _⟩ := hp
    rw [← e, th_of_mem hsafe.names hx, hj] at hr
    cases hr
  refine ⟨(hsome _).trans (isSome_thread_of_mem hx), (ho _ hne).trans (th_of_mem hsafe.names hx)⟩

/-! ## The instructions -/

theorem enrol_masks (j : BitVec 3) (s : State) (t : TId) (hsafe : Safe s) (hs : Solo s t) (hc : Clear s t (.enrol j) [] [])
    (hidx : t.idx < 64) : ∃ s', exec (.enrol j) s = .next s' ∧ MovesOn s s' t 1 ∧
      (arrivedAt (s.gr t.gid) j t.idx = false →
        ∀ i < 64, (enrolled (s'.gr t.gid) j i = true ↔ i = t.idx ∨ enrolled (s.gr t.gid) j i = true) ∧
          arrivedAt (s'.gr t.gid) j i = arrivedAt (s.gr t.gid) j i) := by
  obtain ⟨s', b, he, hb, hm, _, _, hE, hA⟩ := settling_group_done hs hsafe hc (by rintro op ⟨⟩)
    (fun t g => { g with jE := updAt g.jE j.toNat (· ||| bitAt t.idx) }) rfl
  refine ⟨s', he, hb.movesOn hm, fun hna => ?_⟩
  have hE : maskE b t.gid j.toNat = maskE s t.gid j.toNat ||| bitAt t.idx := (hE j.toNat).trans (getD_updAt_self _ _ _ j.isLt)
  have hA : maskA b t.gid j.toNat = maskA s t.gid j.toNat := hA j.toNat
  rw [arrivedAt_eq] at hna
  have hk := hb.kept j.toNat j.isLt (not_maskFull_of_bit (i := t.idx) (by
    rw [hE, hA, hna, BitVec.getLsbD_or, getLsbD_bitAt hidx]; simp))
  intro i hi
  rw [enrolled_eq, enrolled_eq, arrivedAt_eq, arrivedAt_eq]
  refine ⟨?_, congrArg (·.getLsbD i) (hk.arrived.trans hA)⟩
  have hEs := hk.enrolled.trans hE
  refine (Bool.eq_iff_iff.mp (congrArg (·.getLsbD i) hEs)).trans ?_
  rw [BitVec.getLsbD_or, getLsbD_bitAt hi]
  simp [or_comm]

theorem strike_masks (j : BitVec 3) (s : State) (t : TId) (hsafe : Safe s) (hs : Solo s t) (hc : Clear s t (.strike j) [] [])
    (hidx : t.idx < 64) (hr : (s.th t).run = .running) :
    ∃ s', exec (.strike j) s = .next s' ∧ MovesOn s s' t 1 ∧ enrolled (s'.gr t.gid) j t.idx = false ∧
      arrivedAt (s'.gr t.gid) j t.idx = false ∧
      ((∃ i < 64, i ≠ t.idx ∧ enrolled (s.gr t.gid) j i = true) →
        (∀ i < 64, i ≠ t.idx → enrolled (s.gr t.gid) j i = arrivedAt (s.gr t.gid) j i) → ReleasedMask s s' t.gid j) ∧
      ((∃ i < 64, i ≠ t.idx ∧ enrolled (s.gr t.gid) j i ≠ arrivedAt (s.gr t.gid) j i) →
        ∀ i < 64, i ≠ t.idx → enrolled (s'.gr t.gid) j i = enrolled (s.gr t.gid) j i ∧
          arrivedAt (s'.gr t.gid) j i = arrivedAt (s.gr t.gid) j i) := by
  obtain ⟨s', b, he, hb, hm, ho, hsome, hE, hA⟩ := settling_group_done hs hsafe hc (by rintro op ⟨⟩)
    (fun t g => g.strike j.toNat t.idx) rfl
  have hEj : maskE b t.gid j.toNat = maskE s t.gid j.toNat &&& ~~~bitAt t.idx := (hE j.toNat).trans (getD_updAt_self _ _ _ j.isLt)
  have hAj : maskA b t.gid j.toNat = maskA s t.gid j.toNat &&& ~~~bitAt t.idx := (hA j.toNat).trans (getD_updAt_self _ _ _ j.isLt)
  have bit : ∀ (x : BitVec 64), ∀ i < 64, (x &&& ~~~bitAt t.idx).getLsbD i = (x.getLsbD i && !decide (i = t.idx)) := by
    intro x i hi
    rw [BitVec.getLsbD_and, BitVec.getLsbD_not, getLsbD_bitAt hi]
    simp [hi]
  refine ⟨s', he, hb.movesOn hm, ?_⟩
  simp only [enrolled_eq, arrivedAt_eq]
  by_cases hf : MaskFull b t.gid j.toNat
  · have hrel := hb.full j.toNat j.isLt hf
    refine ⟨by rw [hrel.enrolled]; simp, by rw [hrel.arrived]; simp, fun _ _ => releasedMask_of_solo hsafe hr ho hsome hrel, ?_⟩
    rintro ⟨i, hi, hne, hdiff⟩
    have hfe := congrArg (·.getLsbD i) (hEj.symm.trans (hf.1.trans hAj))
    simp only [bit _ i hi, hne, decide_false, Bool.not_false, Bool.and_true] at hfe
    exact absurd hfe hdiff
  · have hk := hb.kept j.toNat j.isLt hf
    have hEs := hk.enrolled.trans hEj
    have hAs := hk.arrived.trans hAj
    refine ⟨by rw [hEs, bit _ _ hidx]; simp, by rw [hAs, bit _ _ hidx]; simp, ?_, ?_⟩
    · rintro ⟨i, hi, hne, he⟩ hall
      refine absurd (maskFull_of_bits (i := i) ?_ fun k hk => ?_) hf
      · rw [hEj, bit _ i hi, he]
        simp [hne]
      · rw [hEj, hAj, bit _ k hk, bit _ k hk]
        by_cases hkt : k = t.idx
        · simp [hkt]
        · rw [hall k hk hkt]
    · intro _ i hi hne
      rw [hEs, hAs, bit _ i hi, bit _ i hi]
      simp [hne]

/-! ### JOIN -/

theorem park_th_self {s : State} {t : TId} (f : Thread → Thread) (h : (s.thread? t).isSome = true) :
    ((Eff.park t f).run s).th t = { f (s.th t) with stamp := s.stamp, last := s.cycleOf t, id := t } := by
  simp only [Eff.park, run_act]
  rw [applyAll_append, applyAll_cons, th_of_threads (applyAll_spares _ _ (progress_spares s t.team)).1,
    th_of_threads (applyAll_spares _ _ rfl).1, th_apply_thread_self _ h]

theorem park_others (t : TId) (f : Thread → Thread) (a : State) : OthersKept t a ((Eff.park t f).run a) := by
  simp only [Eff.park, run_act]
  rw [applyAll_append, applyAll_cons]
  exact (OthersKept.thread a t _).trans (.trans (.spares _ t rfl) (.spares _ t (progress_spares a t.team)))

/-- What JOIN does for a thread. -/
def joinBody (j : BitVec 3) (t : TId) : Eff := .read fun s =>
  if (maskE s t.gid j.toNat).getLsbD t.idx then
    .seq (.upds [.group t.gid fun g => { g with jA := updAt g.jA j.toNat (· ||| bitAt t.idx) }, .event (.rejoinTimeout t.gid j)])
      (.park t fun x => { x with run := .joined j s.time })
  else .done t 1

theorem exec_join (j : BitVec 3) (s : State) : exec (.join j) s = .next ((settling (issue (.join j) [] [] (joinBody j))).run s) := rfl

/-- JOIN of an enrolled thread, before its group is settled. -/
theorem joinBody_enrolled {s : State} {t : TId} {j : BitVec 3} (hs : Solo s t) (he : (maskE s t.gid j.toNat).getLsbD t.idx = true) :
    let c := (joinBody j t).run s
    (∀ u, u ≠ t → c.th u = s.th u) ∧ c.threads.map Thread.id = s.threads.map Thread.id ∧ Stands (s.th t) (c.th t) ∧
      (c.th t).run = .joined j s.time ∧ (c.group? t.gid).isSome = true ∧ maskE c t.gid j.toNat = maskE s t.gid j.toNat ∧
      maskA c t.gid j.toNat = maskA s t.gid j.toNat ||| bitAt t.idx := by
  intro c
  have hc : c = (Eff.park t fun x => { x with run := .joined j s.time }).run
      (s.applyAll [.group t.gid fun g => { g with jA := updAt g.jA j.toNat (· ||| bitAt t.idx) }, .event (.rejoinTimeout t.gid j)]) := by
    simp only [c, joinBody, run_read, he, if_true, run_seq, run_upds]
  have hp := park_others t (fun x => { x with run := .joined j s.time })
    (s.applyAll [.group t.gid fun g => { g with jA := updAt g.jA j.toNat (· ||| bitAt t.idx) }, .event (.rejoinTimeout t.gid j)])
  have hself := park_th_self (s := s.applyAll [.group t.gid fun g => { g with jA := updAt g.jA j.toNat (· ||| bitAt t.idx) },
    .event (.rejoinTimeout t.gid j)]) (t := t) (fun x => { x with run := .joined j s.time }) hs.thread
  rw [← hc] at hp hself
  refine ⟨hp.threads, hp.ids, ?_, ?_, ?_, ?_, ?_⟩
  · rw [hself]; exact ⟨rfl, rfl, rfl, rfl, rfl⟩
  · rw [hself]
  · exact (hp.groups.isSome t.gid).trans ((isSome_group?_apply_group s _ _ _).trans hs.group)
  · exact (hp.groups.maskE _ _).trans (maskE_apply_group hs.group _ _)
  · exact (hp.groups.maskA _ _).trans ((maskA_apply_group hs.group _ _).trans (getD_updAt_self _ _ _ j.isLt))

theorem join_masks (j : BitVec 3) (s : State) (t : TId) (hsafe : Safe s) (hs : Solo s t) (hc : Clear s t (.join j) [] [])
    (hidx : t.idx < 64) (hr : (s.th t).run = .running) :
    ∃ s', exec (.join j) s = .next s' ∧
      (enrolled (s.gr t.gid) j t.idx = false → MovesOn s s' t 1) ∧
      (enrolled (s.gr t.gid) j t.idx = true →
        (∀ i < 64, enrolled (s.gr t.gid) j i = (arrivedAt (s.gr t.gid) j i || decide (i = t.idx))) →
        MovesOn s s' t 1 ∧ ReleasedMask s s' t.gid j) ∧
      (enrolled (s.gr t.gid) j t.idx = true →
        (∃ i < 64, enrolled (s.gr t.gid) j i ≠ (arrivedAt (s.gr t.gid) j i || decide (i = t.idx))) →
        (s'.th t).run = .joined j s.time ∧ (s'.th t).widx = (s.th t).widx ∧ arrivedAt (s'.gr t.gid) j t.idx = true) := by
  refine ⟨_, exec_join j s, ?_⟩
  simp only [enrolled_eq, arrivedAt_eq]
  cases he : (maskE s t.gid j.toNat).getLsbD t.idx with
  | false =>
    have hbody : (joinBody j t).run s = (Eff.done t 1).run s := by simp only [joinBody, run_read, he]; rfl
    obtain ⟨b, hb, ht, _⟩ := settling_issue hs hsafe hc (by rintro op ⟨⟩) (joinBody j) (by
      rw [hbody]; exact ((done_sameGroups s t 1).isSome _).trans hs.group)
    refine ⟨fun _ => hb.movesOn ((done_movesOn 1 hs.thread).of_th ?_), nofun, nofun⟩
    rw [th_of_threads ht, hbody]
  | true =>
    obtain ⟨hoth, hids, hst, hrun, hgs, hE, hA⟩ := joinBody_enrolled hs he
    obtain ⟨b, hb, ht, hg⟩ := settling_issue hs hsafe hc (by rintro op ⟨⟩) (joinBody j) hgs
    have hth : ∀ u, b.th u = ((joinBody j t).run s).th u := fun u => th_of_threads ht u
    have hgr := SameGroups.of_groups hg
    have hE : maskE b t.gid j.toNat = maskE s t.gid j.toNat := (hgr.maskE _ _).trans hE
    have hA : maskA b t.gid j.toNat = maskA s t.gid j.toNat ||| bitAt t.idx := (hgr.maskA _ _).trans hA
    have hsome : ∀ u, (b.thread? u).isSome = (s.thread? u).isSome := isSome_of_ids (by rw [ht]; exact hids)
    have hpark : Parked (b.th t) j.toNat := ⟨j, s.time, by rw [hth]; exact hrun, rfl⟩
    have bit : ∀ i < 64, (maskA b t.gid j.toNat).getLsbD i = ((maskA s t.gid j.toNat).getLsbD i || decide (i = t.idx)) := by
      intro i hi
      rw [hA, BitVec.getLsbD_or, getLsbD_bitAt hi]
    refine ⟨nofun, fun _ hall => ?_, fun _ ⟨i, hi, hne⟩ => ?_⟩
    · have hf : MaskFull b t.gid j.toNat := maskFull_of_bits (i := t.idx) (by rw [hE]; exact he) fun k hk => by
        rw [hE, bit k hk]; exact hall k hk
      have hrel := hb.full j.toNat j.isLt hf
      refine ⟨MovesOn.of_stands ?_ (hrel.parked t rfl ((hsome t).trans hs.thread) hpark),
        releasedMask_of_solo hsafe hr (fun u hu => (hth u).trans (hoth u hu)) hsome hrel⟩
      rw [hth]; exact hst
    · have hk := hb.kept j.toNat j.isLt (not_maskFull_of_bit (i := i) (by rw [hE, bit i hi]; exact hne))
      have hself := (hk.parked t rfl hpark).trans (hth t)
      exact ⟨by rw [hself]; exact hrun, by rw [hself]; exact hst.widx, by rw [hk.arrived, bit _ hidx]; simp⟩

/-! ### The timed release -/

/-- R21: the park times of the threads of a group that are parked at a mask. -/
def parkTimes (s : State) (g : GId) (j : BitVec 3) : List Nat := (s.threadsOf g).filterMap fun x => match x.run with
  | .joined k n => if k = j then some n else none
  | _ => none

theorem mem_parkTimes {s : State} {x : Thread} {j : BitVec 3} {n : Nat} (hx : x ∈ s.threads) (hr : x.run = .joined j n) :
    n ∈ parkTimes s x.id.gid j :=
  List.mem_filterMap.mpr ⟨x, mem_threadsOf_gid.mpr ⟨hx, rfl⟩, by simp [hr]⟩

theorem exec_rejoinTimeout (g : GId) (j : BitVec 3) (s : State) : exec (.rejoinTimeout g j) s =
    .next ((if (parkTimes s g j).isEmpty then Eff.nothing
      else if teamHere s g.team && (parkTimes s g j).any fun n => decide (n + 1024 ≤ s.time) then
        .seq (releaseMask g j.toNat) (settleLanes g)
      else .upds [.event (.rejoinTimeout g j)]).run s) := rfl

theorem rejoinTimeout_masks (g : GId) (j : BitVec 3) (s : State) (hsafe : Safe s) (hg : (s.group? g).isSome = true)
    (hx : ∃ x ∈ s.threads, x.id.gid = g ∧ ∃ n, x.run = .joined j n ∧ n + 1024 ≤ s.time) :
    ∃ s', exec (.rejoinTimeout g j) s = .next s' ∧
      (teamHere s g.team = true → ReleasedMask s s' g j) ∧
      (teamHere s g.team = false → s'.threads = s.threads ∧ s'.groups = s.groups ∧ Instr.rejoinTimeout g j ∈ s'.events) := by
  refine ⟨_, exec_rejoinTimeout g j s, ?_⟩
  obtain ⟨x, hx, rfl, n, hr, hn⟩ := hx
  have hmem := mem_parkTimes hx hr
  have hne : (parkTimes s x.id.gid j).isEmpty = false := by
    rw [List.isEmpty_eq_false_iff]
    exact List.ne_nil_of_mem hmem
  have hany : ((parkTimes s x.id.gid j).any fun n => decide (n + 1024 ≤ s.time)) = true :=
    List.any_eq_true.mpr ⟨n, hmem, by simpa using hn⟩
  cases hh : teamHere s x.id.gid.team with
  | true =>
    refine ⟨fun _ => ?_, nofun⟩
    simp only [hne, hany, Bool.and_self, if_true, Bool.false_eq_true, if_false, run_seq]
    have hrel := (releaseMask_released hsafe.names hg j.isLt).lanes (run_names _ _ hsafe.names)
    exact hrel.releasedMask (fun y hy _ _ => ⟨isSome_thread_of_mem hy, th_of_mem hsafe.names hy⟩) hsafe.names
  | false =>
    refine ⟨nofun, fun _ => ?_⟩
    simp only [hne, Bool.false_and, Bool.false_eq_true, if_false, run_upds, applyAll_cons, applyAll_nil]
    exact ⟨rfl, rfl, by simp⟩

/-- Settles O20, from what the settling of a group does to each mask. -/
theorem rejoinMasks : Obligations.RejoinMasks :=
  ⟨fun j s t hsafe hs hc hidx _ => enrol_masks j s t hsafe hs hc hidx, strike_masks, join_masks, rejoinTimeout_masks⟩

end Sys2Proof.Machine
end

section
/-! EXIT: O21. The statement does not ask that the thread runs, and says of a barrier that completes that every thread that stood parked
at it leaves: a thread of a current issue group that is itself noted as parked there is ended by its EXIT instead. -/

open Sys2Proof Sys2Proof.Machine

namespace Sys2Proof.Machine

/-- The thread of the counterexample. -/
def exitTid : TId := ⟨8, 0, 0⟩

/-- A team of one thread, a member of barrier 0 that the thread's departure completes; the thread is noted as parked there. -/
def exitParked : State :=
  { State.reset with
    threads := [Thread.fresh exitTid 0#64 (.barrier 0#4)]
    groups := [Group.fresh exitTid.gid 16 0 128 0#64 0#64 0]
    teams := [{ Team.fresh 8 0 0 0 1 16 [0] 3 false { Claim.none with barriers := 1 } with
      bars := (Vector.replicate 16 Barrier.zero).set 0 ⟨1, 0, 0, [], [exitTid]⟩ }]
    cur := ⟨exitTid.gid, [exitTid]⟩
    nextId := 9 }

theorem exitParked_safe : Safe exitParked where
  mem := rfl
  names := ⟨by decide, by decide, by decide⟩
  fresh := ⟨by decide, by decide, by decide⟩
  given := by decide

theorem exitParked_solo : Solo exitParked exitTid := ⟨rfl, rfl, rfl⟩

theorem exitParked_clear : Clear exitParked exitTid .exit [] [] := ⟨rfl, rfl, rfl, rfl⟩

theorem exitParked_grouped : Grouped exitParked 8 := by
  constructor
  · intro x hx _
    obtain rfl : x = _ := List.mem_singleton.mp hx
    rfl
  · intro g hg _
    obtain rfl : g = _ := List.mem_singleton.mp hg
    decide

/-- Refutes O21: where the thread that exits is noted as parked at the barrier whose phase its departure completes, it is exited, and neither
in a wave nor moving on. -/
theorem not_exitEnds : ¬ Obligations.ExitEnds := by
  intro h
  obtain ⟨s', _, hrun, _, _, hbar, _⟩ := h exitParked exitTid exitParked_safe exitParked_solo exitParked_clear
  have hends := (hbar rfl exitParked_grouped 0#4).2.1 (by decide) (by decide) (by decide) (by decide)
  obtain ⟨_, _, _, hleave⟩ := hends
  have hwave := (hleave _ List.mem_cons_self rfl rfl).1
  rcases hwave with ⟨hw, _⟩ | ⟨_, _, _, _, _, hr⟩
  · exact absurd (hrun.symm.trans hw) (by decide)
  · exact absurd (hrun.symm.trans hr) (by decide)

end Sys2Proof.Machine
end

section
/-! GROW, SHRINK and the events of GROW (R25 to R28, R372, R373): O25. -/

open Sys2Proof Sys2Proof.Machine

namespace Sys2Proof.Machine

/-! ## A thread goes on with its predicate -/

theorem isSome_of_run {s : State} {t : TId} (h : (s.th t).run ≠ .vacant) : (s.thread? t).isSome = true := by
  cases hx : s.thread? t with
  | some x => rfl
  | none => exact absurd (by rw [State.th, hx]; rfl) h

/-- A thread's predicate is written, and it moves on. -/
def goWith (t : TId) (p : PReg) (v : Bool) : Eff := .seq (.upds [putPred t p ⟨v, false, 0#3⟩]) (.done t 1)

theorem setPred_stands (x : Thread) (p : PReg) (y : Pred) : Stands x (x.setPred p y) ∧ (x.setPred p y).v = x.v ∧ (x.setPred p y).id = x.id := by
  unfold Thread.setPred
  split <;> exact ⟨⟨rfl, rfl, rfl, rfl, rfl⟩, rfl, rfl⟩

theorem goWith_others (t : TId) (p : PReg) (v : Bool) (a : State) : OthersKept t a ((goWith t p v).run a) :=
  (OthersKept.thread a t _).trans (OthersKept.done _ t 1)

theorem goWith_self {s : State} {t : TId} (p : PReg) (v : Bool) (h : (s.thread? t).isSome = true) :
    MovesOn s ((goWith t p v).run s) t 1 ∧ (p ≠ 0#3 → (((goWith t p v).run s).th t).pred p = ⟨v, false, 0#3⟩) ∧
      ∀ r, (((goWith t p v).run s).th t).reg r = (s.th t).reg r := by
  have hrun : (goWith t p v).run s = (Eff.done t 1).run ((putPred t p ⟨v, false, 0#3⟩).apply s) := rfl
  have hsome : (((putPred t p ⟨v, false, 0#3⟩).apply s).thread? t).isSome = true := by
    unfold Machine.putPred
    rw [isSome_thread?_apply_thread]; exact h
  obtain ⟨hst, hv, hid⟩ := setPred_stands (s.th t) p ⟨v, false, 0#3⟩
  have hth : ((putPred t p ⟨v, false, 0#3⟩).apply s).th t = (s.th t).setPred p ⟨v, false, 0#3⟩ :=
    th_apply_thread_keep h (hid.trans th_id)
  rw [hrun]
  refine ⟨MovesOn.of_stands (by rw [hth]; exact hst) (done_movesOn 1 hsome), fun hp => ?_, fun r => ?_⟩
  · rw [done_th_self 1 hsome, hth]
    have hpred : ∀ x : Thread, x.pred p = (if p = 0#3 then ⟨true, false, 0#3⟩ else x.p[p.toNat]'p.isLt) := fun _ => rfl
    rw [hpred]
    simp only [step_p]
    rw [← hpred, pred_setPred_self _ _ hp]
  · rw [done_th_self 1 hsome, hth]
    unfold Thread.reg
    simp only [step_v, hv]

/-- What an issue by one thread shows of threads, groups, teams and owed events is its own effect's. -/
theorem issue_solo_events {s : State} {t : TId} {i : Instr} {eats : List VReg} {ps : List PReg} (hs : Solo s t)
    (h : Clear s t i eats ps) (hi : ∀ op, i ≠ .trace op) (body : TId → Eff) :
    ∃ s', (issue i eats ps body).run s = s' ∧ s'.threads = ((body t).run s).threads ∧ s'.groups = ((body t).run s).groups ∧
      s'.teams = ((body t).run s).teams ∧ s'.events = ((body t).run s).events := by
  obtain ⟨mem, micros, hrun, _⟩ := issue_solo_shown hs h hi body
  exact ⟨_, hrun, rfl, rfl, rfl, rfl⟩

/-! ## The new registers -/

/-- The registers from `n` up to `m` of a thread read zero. -/
def Thread.zeroed (n m : Nat) (y : Thread) : Thread := { y with v := y.v.mapIdx fun i r => if n ≤ i ∧ i < m then Reg.zero else r }

theorem grantRegs_eq (g : GId) (n m : Nat) (s : State) : grantRegs g n m s =
    .group g (fun x => { x with n := m }) :: (s.threadsOf g).map fun x => .thread x.id (Thread.zeroed n m) := rfl

/-- Threads that change by one change each. -/
theorem th_applyAll_threads {f : Thread → Thread} (u : TId) : ∀ (l : List Thread) (a : State), (l.map Thread.id).Nodup →
    (u ∉ l.map Thread.id → (a.applyAll (l.map fun x => Upd.thread x.id f)).th u = a.th u) ∧
    (u ∈ l.map Thread.id → (a.thread? u).isSome = true →
      (a.applyAll (l.map fun x => Upd.thread x.id f)).th u = { f (a.th u) with id := u })
  | [], _, _ => ⟨fun _ => rfl, fun h => absurd h List.not_mem_nil⟩
  | x :: l, a, hnd => by
    rw [List.map_cons, List.nodup_cons] at hnd
    obtain ⟨hx, hnd⟩ := hnd
    obtain ⟨h1, h2⟩ := th_applyAll_threads u l ((Upd.thread x.id f).apply a) hnd
    rw [List.map_cons, List.map_cons, applyAll_cons, List.mem_cons]
    refine ⟨fun hu => ?_, fun hu hs => ?_⟩
    · rw [not_or] at hu
      exact (h1 hu.2).trans (th_apply_thread_ne a f hu.1)
    · rcases hu with rfl | hu
      · exact (h1 hx).trans (th_apply_thread_self f hs)
      · have hne : u ≠ x.id := fun e => hx (e ▸ hu)
        rw [h2 hu (by rw [isSome_thread?_apply_thread]; exact hs), th_apply_thread_ne a f hne]

/-- What a grant leaves of the threads, and gives to those of its group. -/
theorem grantRegs_spec {s : State} (hn : NamesDistinct s) (g : GId) (n m : Nat) (hg : (s.group? g).isSome = true) :
    let a := s.applyAll (grantRegs g n m s)
    (∀ u, Stands (s.th u) (a.th u) ∧ (a.th u).run = (s.th u).run) ∧ (∀ u, (a.thread? u).isSome = (s.thread? u).isSome) ∧
      (a.group? g).isSome = true ∧ a.gr g = { s.gr g with n := m } ∧
      ∀ t, t.gid = g → (s.thread? t).isSome = true → ∀ r : VReg, n ≤ r.toNat → r.toNat < m → (a.th t).reg r = Reg.zero := by
  intro a
  have hnd : ((s.threadsOf g).map Thread.id).Nodup := by
    unfold State.threadsOf
    exact (List.filter_sublist.map Thread.id).nodup hn.threads
  have ha : a = ((Upd.group g fun x => { x with n := m }).apply s).applyAll ((s.threadsOf g).map fun x => .thread x.id (Thread.zeroed n m)) := by
    simp only [a, grantRegs_eq, applyAll_cons]
  have hth := fun u => th_applyAll_threads (f := Thread.zeroed n m) u (s.threadsOf g) ((Upd.group g fun x => { x with n := m }).apply s) hnd
  have hids : ∀ (l : List Thread) (b : State), SameGroups b (b.applyAll (l.map fun x => .thread x.id (Thread.zeroed n m))) ∧
      (b.applyAll (l.map fun x => .thread x.id (Thread.zeroed n m))).threads.map Thread.id = b.threads.map Thread.id ∧
      (b.applyAll (l.map fun x => .thread x.id (Thread.zeroed n m))).groups = b.groups := by
    intro l
    induction l with
    | nil => exact fun b => ⟨SameGroups.refl b, rfl, rfl⟩
    | cons x l ih =>
      intro b
      rw [List.map_cons, applyAll_cons]
      obtain ⟨h1, h2, h3⟩ := ih ((Upd.thread x.id (Thread.zeroed n m)).apply b)
      exact ⟨h1, h2.trans (mapThread_ids b x.id _), h3⟩
  obtain ⟨-, hi, hgr⟩ := hids (s.threadsOf g) ((Upd.group g fun x => { x with n := m }).apply s)
  rw [← ha] at hi hgr
  refine ⟨fun u => ?_, isSome_of_ids hi, ?_, ?_, fun t htg hs r hnr hrm => ?_⟩
  · rw [ha]
    by_cases hu : u ∈ (s.threadsOf g).map Thread.id
    · obtain ⟨x, hx, rfl⟩ := List.mem_map.mp hu
      rw [(hth x.id).2 hu (isSome_thread_of_mem (mem_threadsOf.mp hx).1)]
      exact ⟨⟨rfl, rfl, rfl, rfl, rfl⟩, rfl⟩
    · rw [(hth u).1 hu]
      exact ⟨Stands.refl _, rfl⟩
  · unfold State.group?
    rw [hgr]
    exact (isSome_group?_apply_group s g g _).trans hg
  · exact (gr_of_groups hgr g).trans ((gr_apply_group_self _ hg).trans (by
      have : (s.gr g).id = g := by
        obtain ⟨x, hx⟩ := Option.isSome_iff_exists.mp hg
        rw [State.gr, hx]; exact group?_id hx
      rw [← this]; simp only [this]))
  · have hmem : t ∈ (s.threadsOf g).map Thread.id :=
      List.mem_map.mpr ⟨s.th t, mem_threadsOf_gid.mpr ⟨mem_of_thread? hs, by rw [th_id]; exact htg⟩, th_id⟩
    rw [ha, (hth t).2 hmem hs]
    simp [Thread.reg, Thread.zeroed, hnr, hrm]

/-! ## GROW -/

/-- What GROW does for a thread. -/
def growBody (p : PReg) (m : BitVec 8) (order : Nat) (t : TId) : Eff :=
  if 128 < roundAlloc m.toNat then trap t cGrowfail (m.setWidth 64) else growOne p (roundAlloc m.toNat) order t

theorem exec_grow (p : PReg) (m : BitVec 8) (s : State) : exec (.grow p m) s =
    .next ((issue (.grow p m) [] [] (growBody p m s.nextId)).run ((Upd.named 1).apply s)) := rfl

/-- GROW of a group without requests. -/
theorem run_growBody {s : State} {t : TId} {p : PReg} {m : BitVec 8} {order : Nat} (hg : (s.gr t.gid).grows = [])
    (hm : roundAlloc m.toNat ≤ 128) : (growBody p m order t).run s =
      if roundAlloc m.toNat ≤ (s.gr t.gid).n then (goWith t p true).run s
      else if growGrantable s (s.gr t.gid) ⟨roundAlloc m.toNat, p, order, []⟩ then
        (goWith t p true).run (s.applyAll (grantRegs t.gid (s.gr t.gid).n (roundAlloc m.toNat) s))
      else (Eff.upds [.group t.gid fun x => { x with grows := joinGrow x.grows ⟨roundAlloc m.toNat, p, order, [t]⟩ },
        .event (.growGrant t.gid)]).run ((Eff.wait t .grow).run s) := by
  rw [growBody, if_neg (Nat.not_lt.mpr hm), growOne, run_read]
  simp only [hg, List.isEmpty_nil, Bool.not_true, Bool.false_eq_true, if_false]
  split
  · rfl
  · split <;> rfl

theorem grow_results (p : PReg) (m : BitVec 8) (s : State) (t : TId) (hsafe : Safe s) (hs : Solo s t) (hc : Clear s t (.grow p m) [] [])
    (hg : (s.gr t.gid).grows = []) (hm : roundAlloc m.toNat ≤ 128) :
    let g := s.gr t.gid
    ∃ s', exec (.grow p m) s = .next s' ∧
      (roundAlloc m.toNat ≤ g.n → MovesOn s s' t 1 ∧ (s'.gr t.gid).n = g.n ∧ (p ≠ 0#3 → (s'.th t).pred p = ⟨true, false, 0#3⟩)) ∧
      (g.n < roundAlloc m.toNat → growGrantable s g ⟨roundAlloc m.toNat, p, s.nextId, []⟩ = true →
        MovesOn s s' t 1 ∧ (s'.gr t.gid).n = roundAlloc m.toNat ∧ (p ≠ 0#3 → (s'.th t).pred p = ⟨true, false, 0#3⟩) ∧
        ∀ r : VReg, g.n ≤ r.toNat → r.toNat < roundAlloc m.toNat → (s'.th t).reg r = Reg.zero) ∧
      (g.n < roundAlloc m.toNat → growGrantable s g ⟨roundAlloc m.toNat, p, s.nextId, []⟩ = false →
        HeldAt s s' t .grow ∧ (s'.gr t.gid).grows = [⟨roundAlloc m.toNat, p, s.nextId, [t]⟩] ∧ Instr.growGrant t.gid ∈ s'.events) := by
  intro g
  have hs1 : Solo ((Upd.named 1).apply s) t := ⟨hs.cur, hs.thread, hs.group⟩
  have hc1 : Clear ((Upd.named 1).apply s) t (.grow p m) [] [] := ⟨hc.names, hc.watch, hc.regs, hc.preds⟩
  obtain ⟨s', hrun, hthr, hgrs, _, hev⟩ := issue_solo_events hs1 hc1 (by rintro op ⟨⟩) (growBody p m s.nextId)
  have hbody := run_growBody (s := (Upd.named 1).apply s) (t := t) (p := p) (m := m) (order := s.nextId) hg hm
  have hn1 : NamesDistinct ((Upd.named 1).apply s) := apply_names s _ hsafe.names
  have hst1 : Stands (s.th t) (((Upd.named 1).apply s).th t) := Stands.refl _
  have hself : ((Eff.wait t .grow).run ((Upd.named 1).apply s)).th t = { s.th t with run := .waiting .grow } :=
    th_apply_thread_keep hs1.thread th_id
  have hgrant : ∀ r, growGrantable ((Upd.named 1).apply s) (((Upd.named 1).apply s).gr t.gid) r = growGrantable s g r := fun _ => rfl
  rw [hgrant] at hbody
  have hgn : (((Upd.named 1).apply s).gr t.gid).n = g.n := rfl
  have hg1 : (((Upd.named 1).apply s).gr t.gid).grows = [] := hg
  rw [hgn] at hbody
  refine ⟨s', (exec_grow p m s).trans (congrArg _ hrun), ?_⟩
  generalize (Upd.named 1).apply s = a at *
  have hth : s'.th t = ((growBody p m s.nextId t).run a).th t := th_of_threads hthr t
  have hgr : s'.gr t.gid = ((growBody p m s.nextId t).run a).gr t.gid := gr_of_groups hgrs t.gid
  rw [hth, hgr, hev, hbody]
  refine ⟨fun hle => ?_, fun hlt hgt => ?_, fun hlt hgt => ?_⟩
  · simp only [if_pos hle] at hbody ⊢
    obtain ⟨hgo, hpred, _⟩ := goWith_self p true hs1.thread
    refine ⟨(MovesOn.of_stands hst1 hgo).of_th (by rw [hth, hbody]), ?_, hpred⟩
    rw [(goWith_others t p true _).groups.field t.gid Group.n fun _ => rfl, hgn]
  · simp only [if_neg (Nat.not_le.mpr hlt), if_pos hgt] at hbody ⊢
    obtain ⟨hst, hsome, _, hgrn, hzero⟩ := grantRegs_spec hn1 t.gid g.n (roundAlloc m.toNat) hs1.group
    obtain ⟨hgo, hpred, hreg⟩ := goWith_self p true ((hsome t).trans hs1.thread)
    refine ⟨(MovesOn.of_stands (hst1.trans (hst t).1) hgo).of_th (by rw [hth, hbody]), ?_, hpred, fun r hnr hrm =>
      (hreg r).trans (hzero t rfl hs1.thread r hnr hrm)⟩
    rw [(goWith_others t p true _).groups.field t.gid Group.n fun _ => rfl, hgrn]
  · have hno : ¬ growGrantable s g ⟨roundAlloc m.toNat, p, s.nextId, []⟩ = true := by rw [hgt]; exact Bool.false_ne_true
    simp only [if_neg (Nat.not_le.mpr hlt), if_neg hno] at hbody ⊢
    have hself' : s'.th t = { s.th t with run := .waiting .grow } := by rw [hth, hbody]; exact hself
    refine ⟨⟨by rw [hself'], by rw [hself'], by rw [hself'], by rw [hself']⟩, ?_, ?_⟩
    · have := gr_apply_group_self (s := (Eff.wait t .grow).run a)
        (fun x => { x with grows := joinGrow x.grows ⟨roundAlloc m.toNat, p, s.nextId, [t]⟩ }) hs1.group
      refine (congrArg Group.grows this).trans ?_
      exact congrArg (joinGrow · _) hg1
    · exact List.mem_append_right _ (List.mem_singleton.mpr rfl)

/-! ## The end of a request -/

/-- A group without a request. -/
def Group.dropGrow (r : Grow) (x : Group) : Group := { x with grows := x.grows.filter fun q => q.order != r.order }

/-- A thread of a request that is over goes on. -/
def endGrowWait (r : Grow) (v : Bool) (t : TId) : Eff := .read fun s => if (s.th t).run = .waiting .grow then goWith t r.p v else .nothing

theorem run_endGrow (g : GId) (r : Grow) (v : Bool) (s : State) : (endGrow g r v).run s =
    (Eff.each (endGrowWait r v) r.ths).run ((Upd.group g (Group.dropGrow r)).apply s) := rfl

/-- A request ends: its threads go on with the predicate, and it is gone from its group; the allocation is untouched. -/
theorem endGrow_spec {s : State} {g : GId} {r : Grow} (v : Bool) (hg : (s.group? g).isSome = true) (hnd : r.ths.Nodup) :
    GrowEnds s ((endGrow g r v).run s) r v ∧ (((endGrow g r v).run s).gr g).n = (s.gr g).n ∧
      (((endGrow g r v).run s).gr g).grows = (s.gr g).grows.filter fun q => q.order != r.order := by
  rw [run_endGrow]
  have hown : ∀ (u : TId) (a : State), OthersKept u a ((endGrowWait r v u).run a) := by
    intro u a
    rw [endGrowWait, run_read]
    split
    · exact goWith_others u r.p v a
    · exact OthersKept.refl u a
  have hsame := each_rel SameGroups SameGroups.refl (fun _ _ _ => SameGroups.trans) (endGrowWait r v) r.ths
    ((Upd.group g (Group.dropGrow r)).apply s) fun u _ a => (hown u a).groups
  have hgr := gr_apply_group_self (Group.dropGrow r) hg
  refine ⟨fun u hu hrun => ?_, ?_, ?_⟩
  · obtain ⟨b, hsome, _, hth, heq⟩ := each_own (name := id) hown r.ths ((Upd.group g (Group.dropGrow r)).apply s) (by rwa [List.map_id]) u hu
    have hb : b.th u = s.th u := hth
    have hex : (b.thread? u).isSome = true := (hsome u).trans
      (isSome_of_run (s := s) (t := u) (by rw [hrun]; exact fun e => by cases e))
    rw [id_eq, endGrowWait, run_read, if_pos (by rw [hb]; exact hrun)] at heq
    obtain ⟨hgo, hpred, _⟩ := goWith_self r.p v hex
    exact ⟨(MovesOn.of_stands (by rw [hb]; exact Stands.refl _) hgo).of_th heq, fun hp => by rw [heq]; exact hpred hp⟩
  · rw [hsame.field g Group.n fun _ => rfl, hgr]; rfl
  · rw [hsame.field g Group.grows fun _ => rfl, hgr]; rfl

/-- GROW_GRANT is owed while requests wait. -/
def moreGrants (g : GId) : Eff := .act fun s => if (s.gr g).grows.isEmpty then [] else [.event (.growGrant g)]

/-- What GROW_GRANT does. -/
theorem exec_growGrant (g : GId) (s : State) {r : Grow} {rs : List Grow} (hg : (s.gr g).grows = r :: rs) :
    exec (.growGrant g) s = .next ((if teamHere s g.team then
      if r.m ≤ (s.gr g).n then .seq (endGrow g r true) (moreGrants g)
      else if growGrantable s (s.gr g) r then .seq (.act (grantRegs g (s.gr g).n r.m)) (.seq (endGrow g r true) (moreGrants g))
      else moreGrants g
    else .nothing).run s) := by
  have : exec (.growGrant g) s = execGrowGrant g s := rfl
  rw [this, execGrowGrant, run_next, run_read]
  cases teamHere s g.team
  · rfl
  · simp only [if_true, hg, moreGrants]

theorem run_moreGrants (g : GId) (s : State) : ∃ b, (moreGrants g).run s = b ∧
    b.threads = s.threads ∧ b.groups = s.groups ∧ ((s.gr g).grows ≠ [] → Instr.growGrant g ∈ b.events) := by
  refine ⟨_, rfl, ?_⟩
  rw [moreGrants, run_act]
  cases h : (s.gr g).grows with
  | nil => exact ⟨rfl, rfl, fun e => absurd rfl e⟩
  | cons q qs => exact ⟨rfl, rfl, fun _ => List.mem_append_right _ (List.mem_singleton.mpr rfl)⟩

theorem GrowEnds.of_threads {s b s' : State} {r : Grow} {v : Bool} (h : GrowEnds s b r v) (ht : s'.threads = b.threads) :
    GrowEnds s s' r v := fun u hu hr =>
  ⟨(h u hu hr).1.of_th (th_of_threads ht u), fun hp => by rw [th_of_threads ht u]; exact (h u hu hr).2 hp⟩

theorem growGrant_results (g : GId) (r : Grow) (rs : List Grow) (s : State) (hsafe : Safe s) (hex : (s.group? g).isSome = true)
    (hg : (s.gr g).grows = r :: rs) (hord : ∀ q ∈ rs, q.order ≠ r.order) (hnd : r.ths.Nodup) :
    ∃ s', exec (.growGrant g) s = .next s' ∧ (teamHere s g.team = false → s' = s) ∧
      (teamHere s g.team = true → (s.gr g).n < r.m → growGrantable s (s.gr g) r = true → (s'.gr g).n = r.m ∧ (s'.gr g).grows = rs ∧ GrowEnds s s' r true) ∧
      (teamHere s g.team = true → (s.gr g).n < r.m → growGrantable s (s.gr g) r = false → s'.threads = s.threads ∧ s'.groups = s.groups ∧
        Instr.growGrant g ∈ s'.events) := by
  refine ⟨_, exec_growGrant g s hg, fun hh => ?_, fun hh hlt hgt => ?_, fun hh hlt hgt => ?_⟩
  · rw [if_neg (by rw [hh]; exact Bool.false_ne_true), run_nothing]
  · simp only [if_pos hh, if_neg (Nat.not_le.mpr hlt), if_pos hgt, run_seq, run_act]
    obtain ⟨hst, _, hexa, hgr, _⟩ := grantRegs_spec hsafe.names g (s.gr g).n r.m hex
    obtain ⟨hends, hn, hgrows⟩ := endGrow_spec (r := r) true hexa hnd
    obtain ⟨b, hb, hbt, hbg, _⟩ := run_moreGrants g ((endGrow g r true).run (s.applyAll (grantRegs g (s.gr g).n r.m s)))
    rw [hb, gr_of_groups hbg, hn, hgrows, hgr]
    refine ⟨rfl, ?_, GrowEnds.of_threads (fun u hu hrun => ?_) hbt⟩
    · show (s.gr g).grows.filter _ = rs
      rw [hg, List.filter_cons_of_neg (by simp), List.filter_eq_self]
      exact fun q hq => by simpa using hord q hq
    · obtain ⟨hmv, hp⟩ := hends u hu ((hst u).2.trans hrun)
      exact ⟨MovesOn.of_stands (hst u).1 hmv, hp⟩
  · simp only [if_pos hh, if_neg (Nat.not_le.mpr hlt), if_neg (show ¬ growGrantable s (s.gr g) r = true by rw [hgt]; exact Bool.false_ne_true)]
    obtain ⟨b, hb, hbt, hbg, hev⟩ := run_moreGrants g s
    rw [hb]
    exact ⟨hbt, hbg, hev (by rw [hg]; exact List.cons_ne_nil _ _)⟩

/-! ## The failure of a stuck core -/

/-- Of two requests, the younger. -/
def youngerGrow (b : Option (GId × Grow)) (x : GId × Grow) : Option (GId × Grow) := match b with
  | none => some x
  | some y => if y.2.order < x.2.order then some x else some y

theorem foldl_youngerGrow {x : GId × Grow} : ∀ (l : List (GId × Grow)) (b : Option (GId × Grow)),
    (∀ y ∈ l, y ≠ x → y.2.order < x.2.order) → (∀ y, b = some y → y ≠ x → y.2.order < x.2.order) → (x ∈ l ∨ b = some x) →
    l.foldl youngerGrow b = some x
  | [], b, _, _, hx => hx.resolve_left List.not_mem_nil
  | y :: l, b, hl, hb, hx => by
    have hy := hl y List.mem_cons_self
    have hnext : ∀ z, youngerGrow b y = some z → z ≠ x → z.2.order < x.2.order := by
      intro z hz hne
      unfold youngerGrow at hz
      split at hz
      · cases hz; exact hy hne
      next w =>
        split at hz
        · cases hz; exact hy hne
        · cases hz; exact hb _ rfl hne
    refine foldl_youngerGrow l (youngerGrow b y) (fun z hz => hl z (List.mem_cons_of_mem _ hz)) hnext ?_
    by_cases hyx : y = x
    · subst hyx
      right
      unfold youngerGrow
      split
      · rfl
      next w =>
        split
        next => rfl
        next hno =>
          by_cases hw : w = y
          · rw [hw]
          · exact absurd (hb w rfl hw) hno
    · rcases hx with hx | hx
      · exact .inl ((List.mem_cons.mp hx).resolve_left fun e => hyx e.symm)
      · right
        rw [hx]
        show (if x.2.order < y.2.order then some y else some x) = some x
        rw [if_neg (Nat.not_lt.mpr (Nat.le_of_lt (hy hyx)))]

theorem exec_growDeadlockFail (c : Nat) (s : State) (h : growStuck s c = true) : exec (.growDeadlockFail c) s =
    .next ((match ((groupsOn s c).flatMap fun (g : Group) => g.grows.map fun r => (g.id, r)).foldl youngerGrow none with
      | none => Eff.nothing
      | some x => endGrow x.1 x.2 false).run s) := by
  have : exec (.growDeadlockFail c) s = execGrowDeadlockFail c s := rfl
  rw [this, execGrowDeadlockFail, run_next, run_read, h]
  rfl

theorem growDeadlockFail_results (c : Nat) (g : Group) (r : Grow) (s : State) (_ : Safe s) (hst : growStuck s c = true)
    (hg : g ∈ groupsOn s c) (hr : r ∈ g.grows) (hnd : r.ths.Nodup)
    (hy : ∀ h ∈ groupsOn s c, ∀ q ∈ h.grows, (h.id, q) ≠ (g.id, r) → q.order < r.order) :
    ∃ s', exec (.growDeadlockFail c) s = .next s' ∧ (s'.gr g.id).n = (s.gr g.id).n ∧ r ∉ (s'.gr g.id).grows ∧ GrowEnds s s' r false := by
  have hfold : ((groupsOn s c).flatMap fun g => g.grows.map fun r => (g.id, r)).foldl youngerGrow none = some (g.id, r) := by
    refine foldl_youngerGrow _ none (fun y hmem hne => ?_) (fun _ e => by cases e) (.inl ?_)
    · obtain ⟨h, hh, hin⟩ := List.mem_flatMap.mp hmem
      obtain ⟨q, hq, rfl⟩ := List.mem_map.mp hin
      exact hy h hh q hq hne
    · exact List.mem_flatMap.mpr ⟨g, hg, List.mem_map.mpr ⟨r, hr, rfl⟩⟩
  refine ⟨_, exec_growDeadlockFail c s hst, ?_⟩
  rw [hfold]
  have hmem : g ∈ s.groups := (List.mem_filter.mp hg).1
  have hex : (s.group? g.id).isSome = true := List.find?_isSome.mpr ⟨g, hmem, by simp⟩
  obtain ⟨hends, hn, hgrows⟩ := endGrow_spec (r := r) false hex hnd
  exact ⟨hn, by rw [hgrows]; simp, hends⟩

/-! ## SHRINK -/

/-- What SHRINK does for a thread. -/
def shrinkBody (m : BitVec 8) (t : TId) : Eff := .read fun s =>
  if (s.gr t.gid).n ≤ max 8 (roundAlloc m.toNat) then .done t 1
  else if shrinkHeld s t.gid then .wait t .windows
  else .seq (.upds [.group t.gid fun x => { x with n := max 8 (roundAlloc m.toNat) }]) (.done t 1)

theorem exec_shrink (m : BitVec 8) (s : State) : exec (.shrink m) s = .next ((issue (.shrink m) [] [] (shrinkBody m)).run s) := rfl

theorem done_reg {s : State} {t : TId} (len : Nat) (h : (s.thread? t).isSome = true) (r : VReg) :
    (((Eff.done t len).run s).th t).reg r = (s.th t).reg r := by
  rw [done_th_self len h]
  unfold Thread.reg
  simp only [step_v]

theorem shrink_goes (m : BitVec 8) (s : State) (t : TId) (hs : Solo s t) (hc : Clear s t (.shrink m) [] [])
    (hops : ∀ o ∈ s.part.ops, o.t.gid = t.gid → o.dlv = none) (hg : (s.gr t.gid).grows = []) :
    ∃ s', exec (.shrink m) s = .next s' ∧ MovesOn s s' t 1 ∧
      (s'.gr t.gid).n = min (s.gr t.gid).n (max 8 (roundAlloc m.toNat)) ∧ ∀ r, (s'.th t).reg r = (s.th t).reg r := by
  obtain ⟨s', hrun, hthr, hgrs, _, _⟩ := issue_solo_events hs hc (by rintro op ⟨⟩) (shrinkBody m)
  refine ⟨s', (exec_shrink m s).trans (congrArg _ hrun), ?_⟩
  have hth := th_of_threads hthr t
  rw [gr_of_groups hgrs t.gid, hth]
  have hheld : shrinkHeld s t.gid = false := by
    unfold shrinkHeld
    rw [hg]
    simp only [List.isEmpty_nil, Bool.not_true, Bool.false_or, List.any_eq_false]
    intro o ho
    by_cases he : o.t.gid = t.gid
    · simp [hops o ho he]
    · simp [he]
  have hbody : (shrinkBody m t).run s = if (s.gr t.gid).n ≤ max 8 (roundAlloc m.toNat) then (Eff.done t 1).run s
      else (Eff.done t 1).run ((Upd.group t.gid fun x => { x with n := max 8 (roundAlloc m.toNat) }).apply s) := by
    rw [shrinkBody, run_read, hheld]
    split <;> rfl
  by_cases hle : (s.gr t.gid).n ≤ max 8 (roundAlloc m.toNat)
  · rw [if_pos hle] at hbody
    rw [hbody] at hth ⊢
    refine ⟨(done_movesOn 1 hs.thread).of_th hth, ?_, done_reg 1 hs.thread⟩
    rw [(done_sameGroups s t 1).field t.gid Group.n fun _ => rfl, Nat.min_eq_left hle]
  · rw [if_neg hle] at hbody
    have hgr := gr_apply_group_self (fun x => { x with n := max 8 (roundAlloc m.toNat) }) hs.group
    have hst : Stands (s.th t) (((Upd.group t.gid fun x => { x with n := max 8 (roundAlloc m.toNat) }).apply s).th t) := Stands.refl _
    have hex : (((Upd.group t.gid fun x => { x with n := max 8 (roundAlloc m.toNat) }).apply s).thread? t).isSome = true := hs.thread
    have hreg : ∀ r, (((Upd.group t.gid fun x => { x with n := max 8 (roundAlloc m.toNat) }).apply s).th t).reg r = (s.th t).reg r :=
      fun _ => rfl
    rw [hbody] at hth ⊢
    generalize (Upd.group t.gid fun x => { x with n := max 8 (roundAlloc m.toNat) }).apply s = a at *
    refine ⟨(MovesOn.of_stands hst (done_movesOn 1 hex)).of_th hth, ?_, fun r => (done_reg 1 hex r).trans (hreg r)⟩
    rw [(done_sameGroups a t 1).field t.gid Group.n fun _ => rfl, hgr]
    exact (Nat.min_eq_right (Nat.le_of_lt (Nat.not_le.mp hle))).symm

theorem shrink_held (m : BitVec 8) (s : State) (t : TId) (hs : Solo s t) (hc : Clear s t (.shrink m) [] [])
    (hg : (s.gr t.gid).grows ≠ []) (hlt : max 8 (roundAlloc m.toNat) < (s.gr t.gid).n) :
    ∃ s', exec (.shrink m) s = .next s' ∧ HeldAt s s' t .windows ∧ (s'.gr t.gid).n = (s.gr t.gid).n := by
  obtain ⟨s', hrun, hthr, hgrs, _, _⟩ := issue_solo_events hs hc (by rintro op ⟨⟩) (shrinkBody m)
  have hheld : shrinkHeld s t.gid = true := by
    unfold shrinkHeld
    cases h : (s.gr t.gid).grows with
    | nil => exact absurd h hg
    | cons q qs => rfl
  have hbody : (shrinkBody m t).run s = (Eff.wait t .windows).run s := by
    rw [shrinkBody, run_read, if_neg (Nat.not_le.mpr hlt), if_pos hheld]
  have hself : s'.th t = { s.th t with run := .waiting .windows } := by
    rw [th_of_threads hthr t, hbody]
    exact th_apply_thread_keep hs.thread th_id
  refine ⟨s', (exec_shrink m s).trans (congrArg _ hrun), ⟨by rw [hself], by rw [hself], by rw [hself], by rw [hself]⟩, ?_⟩
  rw [gr_of_groups hgrs t.gid, hbody]
  rfl

/-- Settles O25, by the cases of each instruction and event. -/
theorem growAndShrink : Obligations.GrowAndShrink :=
  ⟨grow_results, growGrant_results, growDeadlockFail_results, shrink_goes, shrink_held⟩

end Sys2Proof.Machine
end

section
/-! TEAM_DISPATCH (R31, R383 to R385): O46. -/

open Sys2Proof Sys2Proof.Machine

namespace Sys2Proof.Machine

/-! ## Joining lists of new names -/

/-- A name is borne by what bore it before, or else by the first new element of that name. -/
theorem find_joinNew {α β : Type} [DecidableEq β] (name : α → β) (n : β) (ys : List α) (xs : List α) :
    (joinNew name xs ys).find? (fun x => name x == n) = (xs.find? fun x => name x == n).or (ys.find? fun x => name x == n) := by
  induction ys generalizing xs with
  | nil => simp [joinNew]
  | cons y ys ih =>
    rw [joinNew, ih, List.find?_cons]
    by_cases hy : name y = n
    · subst hy
      by_cases hx : xs.any fun x => name x == name y
      · rw [if_pos hx]
        obtain ⟨z, hz⟩ := Option.isSome_iff_exists.mp (List.find?_isSome.mpr (List.any_eq_true.mp hx))
        simp [hz]
      · rw [if_neg hx]
        have hnone : xs.find? (fun x => name x == name y) = none :=
          List.find?_eq_none.mpr fun z hz e => hx (List.any_eq_true.mpr ⟨z, hz, e⟩)
        simp [List.find?_append, hnone]
    · have hne : (name y == n) = false := by simpa using hy
      rw [hne]
      by_cases hx : xs.any fun x => name x == name y
      · rw [if_pos hx]
      · rw [if_neg hx, List.find?_append, List.find?_cons, hne]
        simp

/-! ## A new team -/

/-- A team that is added under a new name, with its groups and threads. -/
theorem addTeam_shows {s : State} (hf : FreshName s) (x : Team) (gs : List Group) (ths : List Thread) (hk : x.key = s.nextId) :
    let a := (Upd.addTeam x gs ths).apply s
    a.team? s.nextId = some x ∧
      (∀ y ∈ ths, y.id.team = s.nextId → (ths.map Thread.id).Nodup → a.th y.id = y) ∧
      ∀ g ∈ gs, g.id.team = s.nextId → (gs.map Group.id).Nodup → a.gr g.id = g := by
  intro a
  refine ⟨?_, fun y hy hyk hnd => ?_, fun g hg hgk hnd => ?_⟩
  · have : s.teams.find? (fun y => y.key == s.nextId) = none :=
      List.find?_eq_none.mpr fun y hy e => absurd (hf.teams y hy) (by rw [beq_iff_eq.mp e]; exact Nat.lt_irrefl _)
    unfold State.team?
    rw [apply_addTeam_teams, find_joinNew Team.key, this]
    simp [hk]
  · have : s.threads.find? (fun z => z.id == y.id) = none :=
      List.find?_eq_none.mpr fun z hz e => absurd (hf.threads z hz) (by rw [beq_iff_eq.mp e, hyk]; exact Nat.lt_irrefl _)
    unfold State.th State.thread?
    rw [apply_addTeam_threads, find_joinNew Thread.id, this, find_of_mem Thread.id
      (((List.filter_sublist).map Thread.id).nodup hnd) (List.mem_filter.mpr ⟨hy, by rw [hyk, hk]; simp⟩)]
    rfl
  · have : s.groups.find? (fun z => z.id == g.id) = none :=
      List.find?_eq_none.mpr fun z hz e => absurd (hf.groups z hz) (by rw [beq_iff_eq.mp e, hgk]; exact Nat.lt_irrefl _)
    unfold State.gr State.group?
    rw [apply_addTeam_groups, find_joinNew Group.id, this, find_of_mem Group.id
      (((List.filter_sublist).map Group.id).nodup hnd) (List.mem_filter.mpr ⟨hg, by rw [hgk, hk]; simp⟩)]
    rfl

/-! ## The team of a launch -/

/-- R385: a thread of a new team. -/
def newThread (s : State) (k : Kernel) (i : Nat) : Thread :=
  { Thread.fresh ⟨s.nextId, i / k.w, i % k.w⟩ k.entry .running with stamp := s.stamp }

/-- R385: a group of a new team. -/
def newGroup (s : State) (l : Launch) (p g base : Nat) : Group :=
  { Group.fresh ⟨s.nextId, g⟩ l.kern.w base l.kern.regs l.args (match s.ctx? l.ctx with
      | some c => c.emuvec
      | none => 0#64) ((placeCores l.kern.cores p).getD (g % l.kern.cores) 0) with
    active := decide (activeOn s ((placeCores l.kern.cores p).getD (g % l.kern.cores) 0) + g / l.kern.cores < 8)
    activeAt := s.cycle ((placeCores l.kern.cores p).getD (g % l.kern.cores) 0) }

/-- R385: a new team. -/
def newTeam (s : State) (l : Launch) (p : Nat) (f : Fit) : Team :=
  Team.fresh s.nextId l.ctx l.key l.next l.kern.teamT l.kern.w (placeCores l.kern.cores p) l.kern.gen l.kern.det
    { l.kern.claim with scrBase := f.scr, accBase := f.acc, obBase := f.ob }

theorem addNew_eq (s : State) (l : Launch) (p : Nat) (f : Fit) : addNew s l p f =
    [.addTeam (newTeam s l p f) (f.bases.mapIdx (newGroup s l p)) ((List.range l.kern.teamT).map (newThread s l.kern)),
      .launch l.key (fun l => { l with next := l.next + 1, scan := p + 1 }), .stamped, freshCopies (placeCores l.kern.cores p)] := rfl

theorem newThreads_nodup (s : State) (k : Kernel) (n : Nat) : (((List.range n).map (newThread s k)).map Thread.id).Nodup := by
  rw [List.map_map]
  refine List.Nodup.map (fun i j h => ?_) List.nodup_range
  have hid : (⟨s.nextId, i / k.w, i % k.w⟩ : TId) = ⟨s.nextId, j / k.w, j % k.w⟩ := h
  rw [TId.mk.injEq] at hid
  rw [← Nat.div_add_mod i k.w, ← Nat.div_add_mod j k.w, hid.2.1, hid.2.2]

theorem newGroups_nodup (s : State) (l : Launch) (p : Nat) (bases : List Nat) :
    ((bases.mapIdx (newGroup s l p)).map Group.id).Nodup := by
  refine List.pairwise_iff_getElem.mpr fun i j hi hj hij e => ?_
  rw [List.getElem_map, List.getElem_map, List.getElem_mapIdx, List.getElem_mapIdx] at e
  have hid : (⟨s.nextId, i⟩ : GId) = ⟨s.nextId, j⟩ := e
  rw [GId.mk.injEq] at hid
  exact absurd hid.2 (Nat.ne_of_lt hij)

/-- ARGS in g0 and g1 of a new group. -/
theorem newGroup_args (s : State) (l : Launch) (p g base : Nat) :
    ((newGroup s l p g base).reg 1#5).val ++ ((newGroup s l p g base).reg 0#5).val = l.args := by
  show (l.args >>> 32).setWidth 32 ++ l.args.setWidth 32 = l.args
  refine BitVec.eq_of_getLsbD_eq fun i hi => ?_
  rw [BitVec.getLsbD_append]
  by_cases h : i < 32
  · simp [h]
  · simp [h, show i - 32 < 32 by omega, show 32 + (i - 32) = i by omega]

theorem newGroup_reg (s : State) (l : Launch) (p g base : Nat) (r : GReg) (h : 2 ≤ r.toNat) : (newGroup s l p g base).reg r = Reg.zero := by
  show (((Vector.replicate 32 Reg.zero).set 0 ⟨l.args.setWidth 32, false, 0#3⟩).set 1 ⟨(l.args >>> 32).setWidth 32, false, 0#3⟩)[r.toNat]'r.isLt = _
  rw [Vector.getElem_set_ne _ _ (by omega), Vector.getElem_set_ne _ _ (by omega), Vector.getElem_replicate]

/-! ## The dispatch -/

/-- A dispatch that finds a place for the next team of its launch. -/
theorem exec_teamDispatch {l : Launch} {p : Nat} {f : Fit} {s : State} (hl : s.launch? l.key = some l) (hlt : l.next < l.teams)
    (haw : ∀ x ∈ s.teams, x.launch = l.key → x.sup = none → swappedAwake s x = false)
    (hold : ∀ m ∈ s.part.launches, m.key < l.key → m.next < m.teams → placeNew s m = none) (hp : placeNew s l = some (p, f)) :
    exec (.teamDispatch l.key) s = .next ((s.applyAll (addNew s l p f)).applyAll
      (if l.next + 1 < l.teams then [.event (.teamDispatch l.key)] else [])) := by
  have : exec (.teamDispatch l.key) s = execTeamDispatch l.key s := rfl
  have h1 : s.teams.any (fun x => x.launch == l.key && x.sup.isNone && swappedAwake s x) = false := by
    rw [List.any_eq_false]
    intro x hx
    by_cases h : x.launch = l.key ∧ x.sup = none
    · simp [haw x hx h.1 h.2]
    · simp only [Bool.and_eq_true, beq_iff_eq, Option.isNone_iff_eq_none, not_and]
      exact fun a => absurd a h
  have h2 : s.part.launches.any (fun m => decide (m.key < l.key) && decide (m.next < m.teams) && (placeNew s m).isSome) = false := by
    rw [List.any_eq_false]
    intro m hm
    by_cases h : m.key < l.key ∧ m.next < m.teams
    · simp [hold m hm h.1 h.2]
    · simp only [Bool.and_eq_true, decide_eq_true_eq, not_and]
      exact fun a => absurd a h
  rw [this, execTeamDispatch, run_next, run_read, hl]
  simp only [if_neg (Nat.not_le.mpr hlt), h1, h2, hp, Bool.false_eq_true, if_false, run_seq, run_act]
  split <;> rfl

/-- What a dispatch shows: the new team, its threads and groups, the launch and what it owes. -/
theorem dispatched {l : Launch} {p : Nat} {f : Fit} {s : State} (hf : FreshName s) (hl : s.launch? l.key = some l) (us : List Upd)
    (hu : us = [] ∨ us = [.event (.teamDispatch l.key)]) :
    ∃ s', (s.applyAll (addNew s l p f)).applyAll us = s' ∧ s'.team? s.nextId = some (newTeam s l p f) ∧
      (∀ j < l.kern.teamT, s'.th ⟨s.nextId, j / l.kern.w, j % l.kern.w⟩ = newThread s l.kern j) ∧
      (∀ j (h : j < f.bases.length), s'.gr ⟨s.nextId, j⟩ = newGroup s l p j f.bases[j]) ∧
      (s'.launch? l.key).map Launch.next = some (l.next + 1) ∧ (us ≠ [] → Instr.teamDispatch l.key ∈ s'.events) := by
  obtain ⟨hteam, hths, hgrs⟩ := addTeam_shows hf (newTeam s l p f) (f.bases.mapIdx (newGroup s l p))
    ((List.range l.kern.teamT).map (newThread s l.kern)) rfl
  have hspare : (us.all Upd.spares) = true := by rcases hu with rfl | rfl <;> rfl
  have hs' := applyAll_spares us (s.applyAll (addNew s l p f)) hspare
  have ha : s.applyAll (addNew s l p f) = ((Upd.addTeam (newTeam s l p f) (f.bases.mapIdx (newGroup s l p))
      ((List.range l.kern.teamT).map (newThread s l.kern))).apply s).applyAll
        [.launch l.key (fun l => { l with next := l.next + 1, scan := p + 1 }), .stamped, freshCopies (placeCores l.kern.cores p)] := by
    rw [addNew_eq, applyAll_cons]
  have hb := applyAll_spares [.launch l.key (fun l => { l with next := l.next + 1, scan := p + 1 }), .stamped,
    freshCopies (placeCores l.kern.cores p)] ((Upd.addTeam (newTeam s l p f) (f.bases.mapIdx (newGroup s l p))
      ((List.range l.kern.teamT).map (newThread s l.kern))).apply s) rfl
  rw [← ha] at hb
  obtain ⟨hbt, hbg, hbk⟩ := hb
  obtain ⟨hst, hsg, hsk⟩ := hs'
  refine ⟨_, rfl, ?_, fun j hj => ?_, fun j hj => ?_, ?_, fun hne => ?_⟩
  · unfold State.team? at hteam ⊢
    rw [hsk, hbk]
    exact hteam
  · rw [th_of_threads hst, th_of_threads hbt]
    exact hths (newThread s l.kern j) (List.mem_map.mpr ⟨j, List.mem_range.mpr hj, rfl⟩) rfl (newThreads_nodup s l.kern _)
  · rw [gr_of_groups hsg, gr_of_groups hbg]
    exact hgrs (newGroup s l p j f.bases[j]) (List.mem_iff_getElem.mpr ⟨j, by simpa using hj, by simp⟩) rfl (newGroups_nodup s l p _)
  · have hlaunch : (s.applyAll (addNew s l p f)).launch? l.key =
        (s.launch? l.key).map fun m => if m.key = l.key then { m with next := m.next + 1, scan := p + 1 } else m := by
      rw [ha]
      exact find_map_eq Launch.key l.key (fun m => if m.key = l.key then { m with next := m.next + 1, scan := p + 1 } else m)
        (fun m => by split <;> rfl) s.part.launches
    have : ((s.applyAll (addNew s l p f)).applyAll us).launch? l.key = (s.applyAll (addNew s l p f)).launch? l.key := by
      rcases hu with rfl | rfl <;> rfl
    rw [this, hlaunch, hl]
    simp
  · obtain rfl := hu.resolve_left hne
    exact List.mem_append_right _ (List.mem_singleton.mpr rfl)

/-- Settles O46: the new team stands at its launch's entry as it is made. -/
theorem dispatchPlaces : Obligations.DispatchPlaces := by
  intro l p f s hl hlt hf haw hold hp
  obtain ⟨s', hs', hteam, hths, hgrs, hnext, hev⟩ := dispatched (p := p) (f := f) hf hl
    (if l.next + 1 < l.teams then [.event (.teamDispatch l.key)] else []) (by split <;> simp)
  refine ⟨s', newTeam s l p f, (exec_teamDispatch hl hlt haw hold hp).trans (congrArg _ hs'), hteam, rfl, rfl, rfl, rfl, rfl, rfl, rfl,
    fun r => ?_, fun m => ?_, fun j hj => ?_, fun j hj => ?_, hnext, fun h => hev (by rw [if_pos h]; exact List.cons_ne_nil _ _)⟩
  · exact Vector.getElem_replicate _
  · exact Vector.getElem_replicate _
  · rw [hths j hj]
    refine ⟨rfl, rfl, rfl, rfl, fun r => Vector.getElem_replicate _, fun q hq => ?_, rfl, rfl, rfl⟩
    have hne : (0 : Nat) ≠ q.toNat := fun e => hq (BitVec.eq_of_toNat_eq e.symm)
    show (if q = 0#3 then (⟨true, false, 0#3⟩ : Pred) else
      ((Vector.replicate 8 Pred.zero).set 0 ⟨true, false, 0#3⟩)[q.toNat]'q.isLt) = ⟨false, false, 0#3⟩
    rw [if_neg hq, Vector.getElem_set_ne _ _ hne, Vector.getElem_replicate]
    rfl
  · rw [hgrs j hj]
    refine ⟨rfl, rfl, by simp [hj]; rfl, newGroup_args s l p j _, newGroup_reg s l p j _, fun m => Vector.getElem_replicate _, rfl,
      fun c hc => ?_, fun b b' _ => ?_⟩
    · show (match s.ctx? l.ctx with
        | some c => c.emuvec
        | none => 0#64) = c.emuvec
      rw [hc]
    · show ((Vector.replicate 8 (0#64))[b.toNat]'b.isLt).getLsbD b' = false
      rw [Vector.getElem_replicate]
      simp

end Sys2Proof.Machine
end

section
/-! The causes before an instruction's effect: O59. The statement gives the faulted team the fault of the instruction, though a team that
stands faulted already keeps the first of its causes. -/

open Sys2Proof Sys2Proof.Machine

namespace Sys2Proof.Machine

/-- A team that an earlier fault, of cause 2 and thread 5, stopped; its one thread has no emulation vector. -/
def faultedTeam : State :=
  { State.reset with
    threads := [Thread.fresh exitTid 0#64 .running]
    groups := [Group.fresh exitTid.gid 16 0 64 0#64 0#64 0]
    teams := [{ Team.fresh 8 0 0 0 1 16 [0] 3 false Claim.none with res := .faulted 2 5 }]
    cur := ⟨exitTid.gid, [exitTid]⟩
    nextId := 9 }

theorem faultedTeam_solo : Solo faultedTeam exitTid := ⟨rfl, rfl, rfl⟩

/-- The fault of a team that has faulted does not replace the first one. -/
theorem faultedTeam_keeps_cause {s' : State} (h : exec (.ret 100#7) faultedTeam = .next s') :
    (s'.team? exitTid.team).map Team.res = some (.faulted 2 5) := by
  have hr : (match exec (.ret 100#7) faultedTeam with
    | .next a => (a.team? exitTid.team).map Team.res
    | _ => none) = some (.faulted 2 5) := by decide
  rwa [h] at hr

/-- Refutes O59: a RET of a register beyond the allocation, with no vector set, leaves the cause of a team that faulted before as it was. -/
theorem not_trapCauses : ¬ Obligations.TrapCauses := by
  rintro ⟨hbeyond, -⟩
  obtain ⟨s', hrun, -, hfault⟩ := hbeyond (.ret 100#7) faultedTeam exitTid 100 (.inr (.inr (.inr (.inr (.inr (.inr (.inl ⟨_, rfl⟩)))))))
    nofun faultedTeam_solo (by decide) (by decide) (by decide)
  have hres := (hfault (.inr rfl) rfl).1
  exact absurd ((faultedTeam_keeps_cause hrun).symm.trans hres) (by decide)

end Sys2Proof.Machine
end

section
/-! COPY_COMPLETE: O40. The statement has no memory change where the add goes to a saved state, though a COPY's completion may deliver a
register value, which a hosted thread's core notes in its debug block in memory. -/

open Sys2Proof Sys2Proof.Machine

namespace Sys2Proof.Machine

/-- A COPY all of whose rows are done, with a counter in the saved scratchpad of team 8. -/
def savedCounterCopy : CopyJob := ⟨.scr (awayCore 8 0) 0, 1, 0, 0, false, 0, 1, [], [], none, []⟩

/-- Its operation, which also delivers a word to a register of its thread. -/
def deliveringCopy : Op := ⟨1, 1, exitTid, none, some ⟨0#7, 1, some [1#32], 0⟩, none, 0, .copy savedCounterCopy⟩

/-- The operation's thread is hosted by a microscope core. -/
def hostedCopy : State :=
  { State.reset with
    threads := [Thread.fresh exitTid 0#64 .running]
    groups := [{ Group.fresh exitTid.gid 16 0 64 0#64 0#64 0 with hosted := some ⟨0#5, 0#1⟩ }]
    teams := [Team.fresh 8 0 0 0 1 16 [0] 3 false Claim.none]
    part := { State.reset.part with ops := [deliveringCopy] }
    nextId := 9 }

/-- The delivery of the completion is noted in the debug block of the hosting core. -/
theorem hostedCopy_mem {s' : State} (h : exec (.copyComplete 1) hostedCopy = .next s') : s'.mem ≠ [] := by
  have hm : (match exec (.copyComplete 1) hostedCopy with
    | .next a => a.mem
    | _ => []) ≠ [] := by decide
  rwa [h] at hm

/-- Refutes O40: the completion of a COPY that adds to a saved scratchpad changes memory where it delivers to a hosted thread. -/
theorem not_streamerResults : ¬ Obligations.StreamerResults := by
  rintro ⟨-, -, -, hsaved, -⟩
  obtain ⟨s', hrun, -, hmem, -⟩ := hsaved deliveringCopy savedCounterCopy 8 0 0 hostedCopy rfl rfl rfl (le_refl 0) rfl
    (by decide) rfl
  exact hostedCopy_mem hrun hmem

end Sys2Proof.Machine
end

section
/-! QPUSH: O48. The statement has the slot read back as the record whatever the BASE of the queue; a BASE that is not a multiple of 4
makes words of a slot that cross a 32-byte sector, and of such a word only the part in its own sector is stored. -/

open Sys2Proof Sys2Proof.Machine

namespace Sys2Proof.Machine

/-- The thread that pushes, its queue descriptor at 0x3000 and its record at 0x4000. -/
def pushTid : TId := ⟨8, 0, 0⟩

/-- Its context, which maps addresses onto themselves. -/
def pushCtx : Ctx := { bootCtx 7#16 with num := 1, nextLaunch := 1 }

/-- Its registers: the addresses of the descriptor and of the record. -/
def pushRegs : Vector Reg 128 :=
  ((Vector.replicate 128 Reg.zero).set 4 ⟨0x3000#32, false, 0#3⟩).set 6 ⟨0x4000#32, false, 0#3⟩

/-- The bytes of a queue of four slots of 16 bytes at 0x500E, one of them free, and of a record 1, 2, …, 16. -/
def pushCells : List (Nat × Byte) :=
  ([(0, 0x500E), (8, 16), (12, 4), (32, 1)].flatMap fun x => cells (0x3000 + x.1) (leBytes 4 x.2)) ++
    cells 0x4000 ((List.range 16).map fun i => BitVec.ofNat 8 (i + 1))

def pushState : State :=
  { State.reset with
    mem := Memory.setAll [(0x10000, 1#8), (0x10002, 2#8), (0x20000, 0x3F#8)] pushCells
    threads := [{ Thread.fresh pushTid 0#64 .running with v := pushRegs }]
    groups := [{ Group.fresh pushTid.gid 16 0 64 0#64 0#64 0 with active := true }]
    teams := [Team.fresh 8 1 100 0 16 16 [0] 3 false Claim.none]
    part := { Part.reset with ctxs := [pushCtx] }
    cur := ⟨pushTid.gid, [pushTid]⟩
    nextId := 9 }

/-- The page place of an address of the context. -/
def pushPlace (a : Nat) : Place := .page ⟨a, 0, 0, 0, a, true, 0x40000000⟩

/-- The places of `n` words from an address. -/
def pushWords (a n : Nat) : List (BitVec 64 × Place) :=
  (List.range n).map fun i => (BitVec.ofNat 64 (a + 4 * i), pushPlace (a + 4 * i))

/-- The queue as its descriptor says. -/
def pushQueue : QDesc := ⟨0x500E, 16, 4, 0, 0, 1, 0, 0⟩

/-- The first component of a translation, where it is a success. -/
theorem translated_of {ε α β : Type} {x : Except ε α × β} {y : α} (h : x.1.toOption = some y) : x = (.ok y, x.2) := by
  obtain ⟨x1, x2⟩ := x
  cases x1 with
  | error e => simp [Except.toOption] at h
  | ok a => simp_all [Except.toOption]

theorem pushWords_plain {a n : Nat} (h : a + 4 * n ≤ 2 ^ 36) : ∀ x ∈ pushWords a n, Plain x.2 := by
  intro x hx
  obtain ⟨i, hi, rfl⟩ := List.mem_map.mp hx
  rw [List.mem_range] at hi
  have hddr : physRange (a + 4 * i) ≠ .sys := by
    unfold physRange
    rw [if_pos (by omega)]
    nofun
  exact ⟨rfl, rfl, hddr⟩

theorem pushState_safe : Safe pushState where
  mem := by decide
  names := ⟨by decide, by decide, by decide⟩
  fresh := ⟨by decide, by decide, by decide⟩
  given := by decide

theorem pushState_settled : Settled pushState := by
  refine ⟨pushState_safe, ?_, ?_, ?_, ?_, ?_⟩ <;> simp [pushState, Part.reset]

theorem pushState_issues : Issues pushState pushTid (.qpush 4#7 6#7 0#3 0#4) (pairOf 4#7 ++ pairOf 6#7) 0#3 :=
  ⟨⟨rfl, rfl, rfl⟩, ⟨by decide, by decide, by decide, by decide⟩, by decide⟩

/-- What translating the descriptor's words notes. -/
def pushDescUpds : List Upd := (pagePlaces (commandAgent pushState pushTid) .atomic (wordsFrom 0x3000#64 64) pushState).2

theorem pushState_queue :
    QueueSeen pushState pushTid ((pushState.th pushTid).val64 4#7) (pushWords 0x3000 16) pushDescUpds pushQueue where
  aligned := by decide
  places := translated_of (by decide)
  desc := by decide
  ok := by decide
  order := by decide
  free := by decide
  plain := pushWords_plain (by decide)
  apart := by unfold Apart; decide

/-- The push stores of the slot's first word its part before the sector's end alone. -/
theorem pushState_slot {s' : State} (h : exec (.qpush 4#7 6#7 0#3 0#4) pushState = .next s') :
    wordBytesAt s' (commandAgent pushState pushTid) (pushWords 0x500E 4) ≠
      wordBytesAt pushState (commandAgent pushState pushTid) (pushWords 0x4000 4) := by
  have hm : (match exec (.qpush 4#7 6#7 0#3 0#4) pushState with
    | .next a => wordBytesAt a (commandAgent pushState pushTid) (pushWords 0x500E 4)
    | _ => wordBytesAt pushState (commandAgent pushState pushTid) (pushWords 0x4000 4)) ≠
      wordBytesAt pushState (commandAgent pushState pushTid) (pushWords 0x4000 4) := by decide
  rwa [h] at hm

/-- Refutes O48: a push into a slot whose words cross a sector does not copy the record whole. -/
theorem not_queueResults : ¬ Obligations.QueueResults := by
  rintro ⟨hpush, -⟩
  obtain ⟨s', hrun, hgot, -⟩ := hpush 4#7 6#7 0#3 0#4 (pushWords 0x3000 16) (pushWords 0x4000 4) (pushWords 0x500E 4) pushDescUpds _ _ pushQueue
    pushState pushTid pushState_issues rfl pushState_settled rfl pushState_queue (by decide) (translated_of (by decide))
    (translated_of (by decide)) (by decide) (by decide) (pushWords_plain (by decide)) (by unfold Apart; decide)
    (fun x hx => ⟨pushWords_plain (by decide) x hx, by revert x; decide⟩) (by decide)
  obtain ⟨-, -, -, -, hslot⟩ := hgot (by decide)
  exact pushState_slot hrun hslot

end Sys2Proof.Machine
end

section
/-! SWAP_OUT: O53. The statement has the saved scratchpad hold the bytes that stood in the claim before, whatever the claim; a claim whose
bytes are those of an accumulator row that an open operand window has spoilt is saved with the free values that the row takes. -/

open Sys2Proof Sys2Proof.Machine

namespace Sys2Proof.Machine

/-! ## What a list of stores leaves -/

/-- A byte after the stores does not depend on what it was, if they name it. -/
theorem Memory.get_setAll_congr : ∀ (ws : List (Nat × Byte)) {m m' : List Host.Cell} (a : Nat), Memory.wf m = true → Memory.wf m' = true →
    (Memory.get m a = Memory.get m' a ∨ ∃ w ∈ ws, w.1 = a) → Memory.get (Memory.setAll m ws) a = Memory.get (Memory.setAll m' ws) a
  | [], m, m', a, _, _, h => by simpa [Memory.setAll] using h
  | (b, v) :: ws, m, m', a, hm, hm', h => by
    refine Memory.get_setAll_congr ws a (Memory.wf_set b v hm) (Memory.wf_set b v hm') ?_
    by_cases hab : b = a
    · subst hab
      exact .inl ((Memory.get_set_self b v hm).trans (Memory.get_set_self b v hm').symm)
    · rw [Memory.get_set_ne m b a v hab, Memory.get_set_ne m' b a v hab]
      simpa [hab] using h

theorem Memory.le_of_mem {lo a : Nat} {v : Byte} : ∀ {m : List Host.Cell}, Memory.wfFrom lo m = true → (a, v) ∈ m → lo ≤ a
  | (b, x) :: m, hwf, h => by
    simp only [Memory.wfFrom, Bool.and_eq_true, decide_eq_true_eq] at hwf
    rcases List.mem_cons.mp h with heq | hmem
    · cases heq
      exact hwf.1.1
    · have := Memory.le_of_mem hwf.2 hmem
      omega

/-- A listed cell is the one that is read. -/
theorem Memory.get_of_mem {lo a : Nat} {v : Byte} : ∀ {m : List Host.Cell}, Memory.wfFrom lo m = true → (a, v) ∈ m → Memory.get m a = v
  | (b, x) :: m, hwf, h => by
    simp only [Memory.wfFrom, Bool.and_eq_true, decide_eq_true_eq] at hwf
    rcases List.mem_cons.mp h with heq | hmem
    · cases heq
      simp [Memory.get]
    · have hlt := Memory.le_of_mem hwf.2 hmem
      rw [Memory.get, if_neg (by omega)]
      exact Memory.get_of_mem hwf.2 hmem

/-! ## The counterexample -/

/-- The claim of one scratchpad byte, at the key of the first byte of the first accumulator row. -/
def rowClaim : Claim := { Claim.none with scrSize := 1, scrBase := 2 ^ 56 }

/-- A window of the team on accumulator row 0, whose operation is complete; its thread has written a B register. -/
def spoiltWindow : Window := ⟨exitTid, 0#3, 0#3, 0, 0, 0, 0, 0#7, 1, 5, [], [0]⟩

/-- A team that has waited at a barrier for its threshold, and whose scratchpad holds `b`. -/
def waitedTeam (b : Byte) : State :=
  { State.reset with
    mem := [(2 ^ 57, b)]
    threads := [Thread.fresh exitTid 0#64 (.barrier 0#4)]
    groups := [Group.fresh exitTid.gid 16 0 64 0#64 0#64 0]
    teams := [{ Team.fresh 8 0 0 0 1 16 [0] 3 false rowClaim with waitAt := some (0, 0), waitStamp := 1 }]
    part := { State.reset.part with windows := [spoiltWindow] }
    nextId := 9 }

/-- What follows the first step of an effect. -/
def Eff.rest : Eff → Eff
  | .seq _ e => e
  | e => e

/-- The last step of a save: the team gives up its place, and its claim's bytes are kept. -/
def saveEnd (k : Nat) (res : Residence) : Eff := (saveTeam k res).rest.rest.rest.rest.rest.rest

/-- The drain of the team's buffers and the end of its delivery windows. -/
def saveDrains (k : Nat) : Eff :=
  .read fun s => .each (fun x => .seq (.act fun s => drainBuffer s x.id) (closeWindows x.id)) (s.teamThreads k)

theorem saveTeam_run (k : Nat) (res : Residence) (s : State) : (saveTeam k res).run s = (saveEnd k res).run ((completeForSave k).run
    ((landSends k).run ((leaveWaves k).run ((saveDrains k).run ((holdWaits k).run (spoilRows.run s)))))) := by
  simp only [saveEnd, saveTeam, saveDrains, Eff.rest, Eff.run]

/-- The stores of the spoilt row's free values. -/
def rowCells : List (Nat × Byte) :=
  (List.range 64).flatMap fun r => cells (rowKey (waitedTeam 0#8) 8 0 (0 + r))
    (bytesOf ((List.range 64).map fun j => (waitedTeam 0#8).freeWord (4096 * 0 + 64 * r + j)))

/-- The state once the spoilt row has taken its values, with a memory. -/
def rowTaken (m : List Host.Cell) : State :=
  { waitedTeam 0#8 with
    mem := m
    free := (waitedTeam 0#8).free + 4096
    part := { (waitedTeam 0#8).part with windows := [{ spoiltWindow with acts := [], wrote := [] }] } }

theorem freeCRows_waitedTeam (b : Byte) : freeCRows (waitedTeam b) [spoiltWindow] = [.stores rowCells, .drawn 4096] := rfl

theorem spoilRows_waitedTeam (b : Byte) : spoilRows.run (waitedTeam b) = rowTaken (Memory.setAll [(2 ^ 57, b)] rowCells) := by
  have hany : (waitedTeam b).part.windows.any (Window.spoiltDone (waitedTeam b)) = true := rfl
  have hall : (waitedTeam b).part.windows.filter (Window.spoiltDone (waitedTeam b)) = [spoiltWindow] := rfl
  simp only [spoilRows, Eff.run, hany, if_true, hall, freeCRows_waitedTeam]
  generalize rowCells = ws
  rfl

/-- That state once the waves of the team have left. -/
def wavesLeft (m : List Host.Cell) : State := (leaveWaves 8).run (rowTaken m)

/-- The save of the team: its steps before the last change no memory after the spoilt row has its values. -/
theorem saveTeam_waitedTeam (b : Byte) : (saveTeam 8 .swapped).run (waitedTeam b) =
    (saveEnd 8 .swapped).run (wavesLeft (Memory.setAll [(2 ^ 57, b)] rowCells)) := by
  have hholds (m : List Host.Cell) : (holdWaits 8).run (rowTaken m) = rowTaken m := rfl
  have hdrains (m : List Host.Cell) : (saveDrains 8).run (rowTaken m) = rowTaken m := rfl
  have hsends (m : List Host.Cell) : (landSends 8).run (wavesLeft m) = wavesLeft m := rfl
  have hops (m : List Host.Cell) : (completeForSave 8).run (wavesLeft m) = wavesLeft m := rfl
  rw [saveTeam_run, spoilRows_waitedTeam, hholds, hdrains, ← wavesLeft, hsends, hops]

theorem saveEnd_scr (m : List Host.Cell) : (((saveEnd 8 .swapped).run (wavesLeft m)).tm 8).scr =
    claimCells (wavesLeft m) ((wavesLeft m).tm 8) (fun c => scrKey c ((wavesLeft m).tm 8).claim.scrBase) ((wavesLeft m).tm 8).claim.scrSize := rfl

theorem execSwapOut_of_due {k : Nat} {s : State} (h : (waitedOut s (s.tm k) && (s.tm k).sup.isNone && (s.tm k).res == .resident &&
    teamWaits s k && teamQuiet s k) = true) : exec (.swapOut k) s =
    .next (((saveTeam k .swapped).run s).applyAll [.event (.teamWake k), .report (.timeout k)]) := by
  show execSwapOut k s = _
  simp only [execSwapOut, run, Eff.run, h, if_true, Eff.upds]

theorem waitedTeam_due (b : Byte) : (waitedOut (waitedTeam b) ((waitedTeam b).tm 8) && ((waitedTeam b).tm 8).sup.isNone &&
    ((waitedTeam b).tm 8).res == .resident && teamWaits (waitedTeam b) 8 && teamQuiet (waitedTeam b) 8) = true := rfl

/-- What the save keeps of the scratchpad is the byte that the spoilt row has taken. -/
theorem scr_swapOut_waitedTeam {b v : Byte} {s' : State} (h : exec (.swapOut 8) (waitedTeam b) = .next s') (hv : (0, 0, v) ∈ (s'.tm 8).scr)
    (hb : b ≠ 0#8) : v = Memory.get (Memory.setAll [(2 ^ 57, b)] rowCells) (2 ^ 57) := by
  rw [execSwapOut_of_due (waitedTeam_due b), saveTeam_waitedTeam] at h
  injection h with h
  have hwf : Memory.wf (Memory.setAll [((2 ^ 57 : Nat), b)] rowCells) = true :=
    Memory.wf_setAll _ (by simp [Memory.wf, Memory.wfFrom, hb])
  generalize Memory.setAll [((2 ^ 57 : Nat), b)] rowCells = m at h hwf ⊢
  have hscr : (s'.tm 8).scr = (((saveEnd 8 .swapped).run (wavesLeft m)).tm 8).scr := by rw [← h]; rfl
  rw [hscr, saveEnd_scr, claimCells] at hv
  obtain ⟨c, hc, hin⟩ := List.mem_flatMap.mp hv
  have hcores : ((wavesLeft m).tm 8).cores = [0] := rfl
  have hclaim : ((wavesLeft m).tm 8).claim = rowClaim := rfl
  have hmem : (wavesLeft m).mem = m := rfl
  rw [hcores, List.zipIdx_singleton, List.mem_singleton] at hc
  subst hc
  obtain ⟨⟨o, w⟩, hd, heq⟩ := List.mem_map.mp hin
  obtain ⟨rfl, rfl⟩ : o = 0 ∧ w = v := by simpa using heq
  obtain ⟨⟨a, x⟩, ha, hsome⟩ := List.mem_filterMap.mp hd
  rw [hmem] at ha
  rw [hclaim] at hsome
  change (if 2 ^ 57 ≤ a ∧ a < 2 ^ 57 + 1 then some (a - 2 ^ 57, x) else none) = some (0, w) at hsome
  simp only [Option.ite_none_right_eq_some, Option.some.injEq, Prod.mk.injEq] at hsome
  obtain ⟨hrange, -, rfl⟩ := hsome
  obtain rfl : a = 2 ^ 57 := by omega
  exact (Memory.get_of_mem hwf ha).symm

/-- The value that the spoilt row takes is one for both bytes. -/
theorem rowTaken_value (b b' : Byte) (hb : b ≠ 0#8) (hb' : b' ≠ 0#8) : Memory.get (Memory.setAll [(2 ^ 57, b)] rowCells) (2 ^ 57) =
    Memory.get (Memory.setAll [(2 ^ 57, b')] rowCells) (2 ^ 57) := by
  refine Memory.get_setAll_congr rowCells _ (by simp [Memory.wf, Memory.wfFrom, hb]) (by simp [Memory.wf, Memory.wfFrom, hb']) (.inr ?_)
  have hkey : rowKey (waitedTeam 0#8) 8 0 (0 + 0) = 2 ^ 57 := rfl
  refine ⟨(2 ^ 57, ?_), List.mem_flatMap.mpr ⟨0, List.mem_range.mpr (by decide), ?_⟩, rfl⟩
  rotate_left
  · rw [hkey]
    exact List.mem_cons_self

theorem waitedTeam_byte (b : Byte) : (waitedTeam b).byte (scrKey 0 (2 ^ 56 + 0)) = b := by
  have hkey : scrKey 0 (2 ^ 56 + 0) = 2 ^ 57 := rfl
  have hmem : (waitedTeam b).mem = [(2 ^ 57, b)] := rfl
  rw [hkey, State.byte, hmem, Memory.get, if_pos rfl]

/-- Refutes O53: of two values of a claim's byte that a spoilt accumulator row covers, at most one is the value that is saved. -/
theorem not_residenceResults : ¬ Obligations.ResidenceResults := by
  rintro ⟨-, -, -, -, hswap, -⟩
  have hsaved (b : Byte) (hb : b ≠ 0#8) : b = Memory.get (Memory.setAll [(2 ^ 57, b)] rowCells) (2 ^ 57) := by
    obtain ⟨s', hrun, -, -, hscr⟩ := hswap 8 (waitedTeam b) rfl rfl rfl rfl rfl rfl
    have hin := hscr rfl (by intro y hy _; obtain rfl := List.mem_singleton.mp hy; rfl) 0 0 Nat.one_pos Nat.one_pos
    have hbyte : (waitedTeam b).byte (scrKey (((waitedTeam b).tm 8).cores.getD 0 0) (((waitedTeam b).tm 8).claim.scrBase + 0)) = b :=
      waitedTeam_byte b
    rw [hbyte] at hin
    exact scr_swapOut_waitedTeam hrun (hin hb) hb
  have h12 := (hsaved 1#8 (by decide)).trans ((rowTaken_value 1#8 2#8 (by decide) (by decide)).trans (hsaved 2#8 (by decide)).symm)
  exact absurd h12 (by decide)

end Sys2Proof.Machine
end

section
/-! The cross-lane instructions: O19. A thread held in a barrier arrival counts as met (R22); which word a running thread stands at is what
its fetch reads. Code that stands in HOST0 of a debug block changes as the group's threads come to their resume points, so the arrival of
the last thread can itself make another one, which was held, run on. -/

open Sys2Proof Sys2Proof.Machine

namespace Sys2Proof.Machine

/-- The thread of the other lane, at code in HOST0. -/
def laneTid : TId := ⟨8, 0, 1⟩

/-- HOST0 of microscope core 0 shows the group, which must stop. While not all its threads are at resume points, the word is that of
`BARA v1, 0` of decode generation 1; when they are, it is that of another major. -/
def hostSlot : Slot := ⟨some exitTid.gid, 512#10, 17#9, true, false, none⟩

/-- One thread at `ELECT p1, v5`; the other, at HOST0, held in its arrival at barrier 0, where its arrival is pending. -/
def hostCode : State :=
  { State.reset with
    threads := [{ Thread.fresh exitTid 0x100#64 .running with clause := some ⟨0xA7000001#32, encode (.elect 1#3 5#7), false⟩ },
      { Thread.fresh laneTid 0x10#64 .running with v := (Vector.replicate 128 Reg.zero).set 1 ⟨1#32, false, 0#3⟩ }]
    groups := [{ Group.fresh exitTid.gid 16 0 64 0#64 0#64 0 with shutter := some false }]
    teams := [{ Team.fresh 8 1 100 0 16 16 [0] 1 false { Claim.none with barriers := 1 } with
      bars := (Vector.replicate 16 Barrier.zero).set 0 ⟨1, 0, 0, [laneTid], []⟩ }]
    part := { State.reset.part with
      ctxs := [{ bootCtx 7#16 with num := 1 }]
      tlb := [⟨0, 7#16, 2, 0, 0x21000000003F#64⟩]
      micros := State.reset.part.micros.set 0 { Micro.reset with slots := Micro.reset.slots.set 0 hostSlot } }
    cur := ⟨exitTid.gid, [exitTid]⟩
    nextId := 9 }

theorem hostCode_safe : Safe hostCode where
  mem := rfl
  names := ⟨by decide, by decide, by decide⟩
  fresh := ⟨by decide, by decide, by decide⟩
  given := by decide

theorem hostCode_atLanes : AtLanes hostCode exitTid (.elect 1#3 5#7) where
  form := .inr (.inr ⟨_, _, rfl⟩)
  safe := hostCode_safe
  solo := ⟨rfl, rfl, rfl⟩
  clear := ⟨by decide, by decide, rfl, rfl⟩
  word := by decide
  width := by decide
  lane := by decide
  selector := by decide
  ballot := nofun

/-- Before the arrival, the other thread is held at its pending arrival. -/
theorem hostCode_met : metAt hostCode (hostCode.gr exitTid.gid) (hostCode.th exitTid).wordAt (hostCode.th laneTid) = true := by decide

/-- The arrival completes the group's resume points; HOST0 is another word then, and the rendezvous waits. -/
theorem hostCode_waits {s' : State} (h : exec (.elect 1#3 5#7) hostCode = .next s') : (s'.th exitTid).run = .waiting .rendezvous := by
  have hrun : (match exec (.elect 1#3 5#7) hostCode with
    | .next a => (a.th exitTid).run
    | _ => .exited) = .waiting .rendezvous := by decide
  rwa [h] at hrun

/-- Refutes O19: a thread that all others of its mask have met waits, where its own arrival makes one of them, which was held in a barrier
arrival, run on. -/
theorem not_crossLaneResults : ¬ Obligations.CrossLaneResults := by
  rintro ⟨-, hmeets, -⟩
  obtain ⟨s', hrun, ⟨-, -, -, -, -, hmoved⟩, -⟩ := hmeets (.elect 1#3 5#7) hostCode exitTid hostCode_atLanes (by decide) (by
    intro u hu _ hne _ _
    obtain rfl | rfl : u = _ ∨ u = _ := by simpa [hostCode] using hu
    · exact absurd rfl hne
    · exact hostCode_met)
  exact absurd ((hostCode_waits hrun).symm.trans hmoved) (by decide)

end Sys2Proof.Machine
end

section
/-! The home L2 and what a write to a cacheable page does to the bytes that the homes hold (R135, R152, R153): lines that leave take their
dirty sectors to their frames, a new line holds nothing, a write lies over its sector. -/

open Sys2Proof Sys2Proof.Machine

namespace Sys2Proof.Machine

/-! ## Bytes -/

@[simp] theorem bytes_length (s : State) : ∀ (n a : Nat), (s.bytes a n).length = n
  | 0, _ => rfl
  | n + 1, a => by simp [State.bytes, bytes_length s n (a + 1)]

theorem getD_bytes (s : State) : ∀ (n a i : Nat), i < n → (s.bytes a n).getD i 0#8 = s.byte (a + i)
  | n + 1, a, 0, _ => rfl
  | n + 1, a, i + 1, h => by
    rw [State.bytes, List.getD_cons_succ, getD_bytes s n (a + 1) i (by omega), Nat.add_assoc, Nat.add_comm 1]

theorem bytes_congr {s s' : State} : ∀ (n a : Nat), (∀ i < n, s'.byte (a + i) = s.byte (a + i)) → s'.bytes a n = s.bytes a n
  | 0, _, _ => rfl
  | n + 1, a, h => by
    have hhead : s'.byte a = s.byte a := h 0 (Nat.succ_pos n)
    have htail : s'.bytes (a + 1) n = s.bytes (a + 1) n := bytes_congr n (a + 1) fun i hi => by
      have := h (i + 1) (by omega)
      rwa [← Nat.add_assoc, Nat.add_right_comm] at this
    rw [State.bytes, State.bytes, hhead, htail]

/-- A byte after a store. -/
theorem byte_store {s : State} (hw : Memory.wf s.mem = true) (a : Nat) (bs : List Byte) (k : Nat) :
    ((Upd.store a bs).apply s).byte k = if a ≤ k ∧ k < a + bs.length then bs.getD (k - a) 0#8 else s.byte k := by
  split
  · next h =>
    have hk := byte_apply_store_self s a bs (k - a) hw (by omega)
    rw [Nat.add_sub_cancel' h.1] at hk
    rw [hk, List.getD_eq_getElem?_getD, List.getElem?_eq_getElem (by omega), Option.getD_some]
  · exact byte_apply_store s a bs k (by omega)

/-- Bytes laid over a sector's. -/
theorem overlay_length {old bs : List Byte} {off : Nat} (h : off + bs.length ≤ old.length) : (overlay old off bs).length = old.length := by
  simp only [overlay, List.length_append, List.length_take, List.length_drop]
  omega

theorem getD_overlay {old bs : List Byte} {off : Nat} (h : off + bs.length ≤ old.length) (j : Nat) :
    (overlay old off bs).getD j 0#8 = if off ≤ j ∧ j < off + bs.length then bs.getD (j - off) 0#8 else old.getD j 0#8 := by
  simp only [overlay, List.getD_eq_getElem?_getD, List.getElem?_append, List.length_append, List.length_take, List.getElem?_take,
    List.getElem?_drop]
  grind

/-! ## Homes that are in order -/

/-- The homes hold what they should: one line of each number, one sector of each number in a line, of 16 bytes; a clean one holds its
frame's. -/
structure Homes (s : State) : Prop where
  wf : Memory.wf s.mem = true
  lines : (s.part.l2.map L2Line.line).Nodup
  sectors : ∀ l ∈ s.part.l2, (l.secs.map Sector.i).Nodup
  sixteen : ∀ l ∈ s.part.l2, ∀ x ∈ l.secs, x.i < 8 ∧ x.data.length = 16
  clean : ∀ l ∈ s.part.l2, ∀ x ∈ l.secs, x.dirty = false → x.data = s.bytes (l.line * 128 + x.i * 16) 16

/-- `s'` has homes in order, that hold the same bytes but `bs` from `a` on. -/
structure Rewrites (s s' : State) (a : Nat) (bs : List Byte) : Prop where
  homes : Homes s'
  bytes : ∀ k, homeByte s' k = if a ≤ k ∧ k < a + bs.length then bs.getD (k - a) 0#8 else homeByte s k

/-- `s'` has homes in order that hold the same bytes. -/
abbrev SameHomes (s s' : State) : Prop := Rewrites s s' 0 []

theorem SameHomes.of_bytes {s s' : State} (h : Homes s') (hb : ∀ k, homeByte s' k = homeByte s k) : SameHomes s s' :=
  ⟨h, fun k => by rw [hb, if_neg (by simp)]⟩

theorem SameHomes.byte {s s' : State} (h : SameHomes s s') (k : Nat) : homeByte s' k = homeByte s k := by
  rw [h.bytes, if_neg (by simp)]

theorem Rewrites.after {s b s' : State} {a : Nat} {bs : List Byte} (h : SameHomes s b) (g : Rewrites b s' a bs) : Rewrites s s' a bs :=
  ⟨g.homes, fun k => by rw [g.bytes, h.byte]⟩

theorem Rewrites.before {s b s' : State} {a : Nat} {bs : List Byte} (h : Rewrites s b a bs) (g : SameHomes b s') : Rewrites s s' a bs :=
  ⟨g.homes, fun k => by rw [g.byte, h.bytes]⟩

/-- The sector of a byte, where its home holds it. -/
def sectorOf (s : State) (k : Nat) : Option Sector := (s.l2Line? (k / 128)).bind fun l => l.sec? (k / 16 % 8)

theorem homeByte_of_sector {s : State} {k : Nat} {x : Sector} (h : sectorOf s k = some x) : homeByte s k = x.data.getD (k % 16) 0#8 := by
  unfold homeByte
  rw [← sectorOf, h]

theorem homeByte_of_frame {s : State} {k : Nat} (h : sectorOf s k = none) : homeByte s k = s.byte k := by
  unfold homeByte
  rw [← sectorOf, h]

theorem homeByte_congr {s s' : State} {k : Nat} (hs : sectorOf s' k = sectorOf s k) (hb : sectorOf s k = none → s'.byte k = s.byte k) :
    homeByte s' k = homeByte s k := by
  cases h : sectorOf s k with
  | none => rw [homeByte_of_frame h, homeByte_of_frame (hs.trans h), hb h]
  | some x => rw [homeByte_of_sector h, homeByte_of_sector (hs.trans h)]

/-- The same lines, but for what is noted of their use. -/
theorem SameHomes.of_map {s s' : State} (h : Homes s) (hm : s'.mem = s.mem) {g : L2Line → L2Line} (hl : s'.part.l2 = s.part.l2.map g)
    (hg : ∀ l, (g l).line = l.line ∧ (g l).secs = l.secs) : SameHomes s s' := by
  have hbyte (k : Nat) : s'.byte k = s.byte k := by rw [State.byte, State.byte, hm]
  have hfind (n : Nat) : s'.l2Line? n = (s.l2Line? n).map g := by
    have hp : ((fun l : L2Line => l.line == n) ∘ g) = fun l => l.line == n := funext fun l => by simp [(hg l).1]
    rw [State.l2Line?, State.l2Line?, hl, List.find?_map, hp]
  refine .of_bytes ⟨by rw [hm]; exact h.wf, ?_, ?_, ?_, ?_⟩ fun k => homeByte_congr ?_ fun _ => hbyte k
  · have hline : L2Line.line ∘ g = L2Line.line := funext fun l => (hg l).1
    rw [hl, List.map_map, hline]
    exact h.lines
  · rw [hl, List.forall_mem_map]
    exact fun l hmem => (hg l).2 ▸ h.sectors l hmem
  · rw [hl, List.forall_mem_map]
    exact fun l hmem => (hg l).2 ▸ h.sixteen l hmem
  · rw [hl, List.forall_mem_map]
    intro l hmem
    rw [(hg l).1, (hg l).2]
    intro x hx hd
    rw [h.clean l hmem x hx hd, bytes_congr 16 _ fun i _ => hbyte _]
  · rw [sectorOf, sectorOf, hfind]
    cases s.l2Line? (k / 128) with
    | none => rfl
    | some l => exact congrArg (fun xs => xs.find? fun x => x.i == k / 16 % 8) (hg l).2

theorem SameHomes.of_eq {s s' : State} (h : Homes s) (hm : s'.mem = s.mem) (hl : s'.part.l2 = s.part.l2) : SameHomes s s' :=
  .of_map h hm (g := id) (by rw [hl, List.map_id]) fun _ => ⟨rfl, rfl⟩

/-! ## A line leaves, a line comes -/

/-- A list of dirty sectors written back to their frames. -/
theorem byte_writeBack : ∀ (xs : List Sector) {s : State} (line : Nat), Memory.wf s.mem = true → (xs.map Sector.i).Nodup →
    (∀ x ∈ xs, x.data.length = 16) → ∀ k,
    let s' := s.applyAll (xs.filterMap fun x => if x.dirty then some (Upd.store (line * 128 + x.i * 16) x.data) else none)
    (∀ x ∈ xs, x.dirty = true → line * 128 + x.i * 16 ≤ k → k < line * 128 + x.i * 16 + 16 →
      s'.byte k = x.data.getD (k - (line * 128 + x.i * 16)) 0#8) ∧
    ((∀ x ∈ xs, x.dirty = true → ¬ (line * 128 + x.i * 16 ≤ k ∧ k < line * 128 + x.i * 16 + 16)) → s'.byte k = s.byte k)
  | [], s, line, _, _, _, k => ⟨nofun, fun _ => rfl⟩
  | y :: ys, s, line, hw, hn, hlen, k => by
    obtain ⟨hy, hn⟩ := List.nodup_cons.mp hn
    have hlen' := fun x hx => hlen x (List.mem_cons_of_mem y hx)
    cases hd : y.dirty with
    | false =>
      have ih := byte_writeBack ys (s := s) line hw hn hlen' k
      simp only [List.filterMap_cons, hd, Bool.false_eq_true, if_false, List.mem_cons, forall_eq_or_imp, false_imp_iff, true_and] at ih ⊢
      exact ih
    | true =>
      have hbyte := byte_store (s := s) hw (line * 128 + y.i * 16) y.data k
      rw [hlen y List.mem_cons_self] at hbyte
      have ih := byte_writeBack ys (s := (Upd.store (line * 128 + y.i * 16) y.data).apply s) line (apply_mem_wf _ _ hw) hn hlen' k
      simp only [List.filterMap_cons, hd, if_true, applyAll_cons, List.mem_cons, forall_eq_or_imp, true_imp_iff] at ih ⊢
      obtain ⟨ihin, ihout⟩ := ih
      refine ⟨⟨fun h1 h2 => ?_, ihin⟩, fun h => ?_⟩
      · rw [ihout, hbyte, if_pos ⟨h1, h2⟩]
        intro x hx _ hk
        have hne : x.i ≠ y.i := fun heq => hy (heq ▸ List.mem_map_of_mem hx)
        omega
      · rw [ihout h.2, hbyte, if_neg h.1]

theorem applyAll_writeBack_part (l : L2Line) (s : State) : (s.applyAll l.writeBack).part = s.part := by
  have hstores : ∀ (us : List Upd) (s : State), (∀ u ∈ us, ∃ a bs, u = .store a bs) → (s.applyAll us).part = s.part := by
    intro us
    induction us with
    | nil => exact fun _ _ => rfl
    | cons u us ih =>
      intro s h
      obtain ⟨a, bs, rfl⟩ := h u List.mem_cons_self
      exact ih _ fun u hu => h u (List.mem_cons_of_mem _ hu)
  refine hstores _ s fun u hu => ?_
  obtain ⟨x, _, hx⟩ := List.mem_filterMap.mp hu
  split at hx
  · exact ⟨_, _, (Option.some.inj hx).symm⟩
  · cases hx

theorem l2Line?_of_mem {s : State} (h : Homes s) {l : L2Line} (hl : l ∈ s.part.l2) : s.l2Line? l.line = some l :=
  find_of_mem (name := L2Line.line) h.lines hl

theorem mem_of_l2Line? {s : State} {n : Nat} {l : L2Line} (h : s.l2Line? n = some l) : l ∈ s.part.l2 ∧ l.line = n :=
  ⟨List.mem_of_find?_eq_some h, by simpa using List.find?_some h⟩

theorem mem_of_sec? {l : L2Line} {i : Nat} {x : Sector} (h : l.sec? i = some x) : x ∈ l.secs ∧ x.i = i :=
  ⟨List.mem_of_find?_eq_some h, by simpa using List.find?_some h⟩

theorem evict_l2 (s : State) (v : L2Line) :
    (s.applyAll (v.writeBack ++ [dropLine v.line])).part.l2 = s.part.l2.filter fun l => l.line != v.line := by
  rw [applyAll_append, ← applyAll_writeBack_part v s]
  rfl

/-- A line that leaves takes its dirty sectors to their frames. -/
theorem SameHomes.evict {s : State} (h : Homes s) {v : L2Line} (hv : v ∈ s.part.l2) :
    SameHomes s (s.applyAll (v.writeBack ++ [dropLine v.line])) := by
  have hback := byte_writeBack v.secs (s := s) v.line h.wf (h.sectors v hv) fun x hx => (h.sixteen v hv x hx).2
  have hwf := applyAll_mem_wf v.writeBack s h.wf
  have hl2 := evict_l2 s v
  rw [applyAll_append] at hl2 ⊢
  change ∀ k, (∀ x ∈ v.secs, _ → _ → _ → (s.applyAll v.writeBack).byte k = _) ∧ (_ → (s.applyAll v.writeBack).byte k = _) at hback
  generalize s.applyAll v.writeBack = b at hback hwf hl2
  have hmem : ∀ k, (b.applyAll [dropLine v.line]).byte k = b.byte k := fun _ => rfl
  replace hwf : Memory.wf (b.applyAll [dropLine v.line]).mem = true := hwf
  generalize b.applyAll [dropLine v.line] = s' at hl2 hmem hwf
  have hout {k : Nat} (hk : k / 128 ≠ v.line) : s'.byte k = s.byte k := by
    rw [hmem]
    refine (hback k).2 fun x hx _ hin => hk ?_
    have := (h.sixteen v hv x hx).1
    omega
  have hfind (n : Nat) : s'.l2Line? n = if n = v.line then none else s.l2Line? n := by
    simp only [State.l2Line?, hl2, List.find?_filter]
    split
    · next hn => simp [hn]
    · next hn =>
      congr 1
      funext l
      by_cases hl : l.line = n <;> simp [hl, hn]
  refine .of_bytes ⟨hwf, ?_, ?_, ?_, ?_⟩ fun k => ?_
  · exact hl2 ▸ h.lines.sublist (List.filter_sublist.map _)
  · exact fun l hl => h.sectors l (List.mem_filter.mp (hl2 ▸ hl)).1
  · exact fun l hl => h.sixteen l (List.mem_filter.mp (hl2 ▸ hl)).1
  · intro l hl x hx hd
    obtain ⟨hl, hne⟩ := List.mem_filter.mp (hl2 ▸ hl)
    have hi := (h.sixteen l hl x hx).1
    rw [h.clean l hl x hx hd, bytes_congr 16 _ fun i hi => hout ?_]
    have : l.line ≠ v.line := by simpa using hne
    omega
  · by_cases hk : k / 128 = v.line
    · have hnone : sectorOf s' k = none := by rw [sectorOf, hfind, if_pos hk]; rfl
      rw [homeByte_of_frame hnone, hmem]
      have hsec : sectorOf s k = v.sec? (k / 16 % 8) := by rw [sectorOf, hk, l2Line?_of_mem h hv]; rfl
      cases hx : v.sec? (k / 16 % 8) with
      | none =>
        rw [homeByte_of_frame (hsec.trans hx)]
        refine (hback k).2 fun x hmem _ hin => List.find?_eq_none.mp hx x hmem ?_
        have := (h.sixteen v hv x hmem).1
        simp only [beq_iff_eq]
        omega
      | some x =>
        obtain ⟨hmem, hi⟩ := mem_of_sec? hx
        have hoff : k - (v.line * 128 + x.i * 16) = k % 16 := by omega
        rw [homeByte_of_sector (hsec.trans hx), ← hoff]
        cases hd : x.dirty with
        | true => exact (hback k).1 x hmem hd (by omega) (by omega)
        | false =>
          rw [h.clean v hv x hmem hd, getD_bytes s 16 _ _ (by omega), Nat.add_sub_cancel' (by omega)]
          refine (hback k).2 fun y hy hyd hin => ?_
          have heq : y = x := List.inj_on_of_nodup_map (h.sectors v hv) hy hmem (by omega)
          rw [heq, hd] at hyd
          cases hyd
    · exact homeByte_congr (by rw [sectorOf, sectorOf, hfind, if_neg hk]) fun _ => hout hk

theorem newLine_l2 (s0 s : State) (p : Page) (ctx : Nat) : ((newLine s0 p ctx).apply s).part.l2 =
    ⟨p.pa / 128, p.home, [], p.kind, p.va / 128 * 128, ctx, s0.stamp, false⟩ :: s.part.l2 := rfl

/-- A new line holds nothing. -/
theorem SameHomes.newLine {s : State} (h : Homes s) (s0 : State) (p : Page) (ctx : Nat) (hno : s.l2Line? (p.pa / 128) = none) :
    SameHomes s ((newLine s0 p ctx).apply s) := by
  have hl2 := newLine_l2 s0 s p ctx
  have hbyte : ∀ k, ((Machine.newLine s0 p ctx).apply s).byte k = s.byte k := fun _ => rfl
  have hwf : Memory.wf ((Machine.newLine s0 p ctx).apply s).mem = true := h.wf
  generalize (Machine.newLine s0 p ctx).apply s = s' at hl2 hbyte hwf
  refine .of_bytes ⟨hwf, ?_, ?_, ?_, ?_⟩ fun k => homeByte_congr ?_ fun _ => hbyte k
  · rw [hl2, List.map_cons, List.nodup_cons]
    refine ⟨fun hmem => ?_, h.lines⟩
    obtain ⟨l, hl, hline⟩ := List.mem_map.mp hmem
    exact List.find?_eq_none.mp hno l hl (by simpa using hline)
  · rw [hl2, List.forall_mem_cons]
    exact ⟨List.nodup_nil, h.sectors⟩
  · rw [hl2, List.forall_mem_cons]
    exact ⟨nofun, h.sixteen⟩
  · rw [hl2, List.forall_mem_cons]
    exact ⟨nofun, fun l hl x hx hd => by rw [h.clean l hl x hx hd, bytes_congr 16 _ fun i _ => hbyte _]⟩
  · by_cases hk : p.pa / 128 = k / 128
    · rw [sectorOf, sectorOf, ← hk, hno, State.l2Line?, hl2, List.find?_cons_of_pos (by simp)]
      rfl
    · rw [sectorOf, sectorOf, State.l2Line?, hl2, List.find?_cons_of_neg (by simpa using hk), ← State.l2Line?]

/-! ## A write -/

/-- A write to a frame whose line no home holds. -/
theorem Rewrites.store {s : State} (h : Homes s) (pa : Nat) (bs : List Byte) (hno : s.l2Line? (pa / 128) = none)
    (hin : pa % 16 + bs.length ≤ 16) : Rewrites s ((Upd.store pa bs).apply s) pa bs := by
  have hbyte := byte_store (s := s) h.wf pa bs
  have hl2 : ((Upd.store pa bs).apply s).part.l2 = s.part.l2 := rfl
  have hwf := apply_mem_wf s (.store pa bs) h.wf
  generalize (Upd.store pa bs).apply s = s' at hbyte hl2 hwf
  have hsec (k : Nat) : sectorOf s' k = sectorOf s k := by rw [sectorOf, sectorOf, State.l2Line?, State.l2Line?, hl2]
  refine ⟨⟨hwf, hl2 ▸ h.lines, hl2 ▸ h.sectors, hl2 ▸ h.sixteen, ?_⟩, fun k => ?_⟩
  · rw [hl2]
    intro l hl x hx hd
    have hi := (h.sixteen l hl x hx).1
    have hne : l.line ≠ pa / 128 := fun heq => List.find?_eq_none.mp hno l hl (by simpa using heq)
    rw [h.clean l hl x hx hd, bytes_congr 16 _ fun i hi => ?_]
    rw [hbyte, if_neg (by omega)]
  · split
    · next hk =>
      have hline : k / 128 = pa / 128 := by omega
      rw [homeByte_of_frame (by rw [hsec, sectorOf, hline, hno]; rfl), hbyte, if_pos hk]
    · next hk => exact homeByte_congr (hsec k) fun _ => by rw [hbyte, if_neg hk]

/-- What a line becomes by a write of `bs` at `pa`: its sector, or the frame's bytes `base` where it has none, with the bytes laid over. -/
def L2Line.wrote (l : L2Line) (pa stamp : Nat) (base bs : List Byte) : L2Line :=
  { l with secs := ⟨pa / 16 % 8, overlay (((l.sec? (pa / 16 % 8)).map Sector.data).getD base) (pa % 16) bs, true⟩ ::
             l.secs.filter (fun x => x.i != pa / 16 % 8), stamp := stamp, written := true }

theorem writeSector_l2 (s0 s : State) (pa : Nat) (bs : List Byte) : ((writeSector s0 pa bs).apply s).part.l2 =
    s.part.l2.map fun l => if l.line = pa / 128 then l.wrote pa s0.stamp (s0.bytes (pa / 16 * 16) 16) bs else l := by
  refine List.map_congr_left fun l _ => ?_
  split
  · simp only [L2Line.wrote]
    cases l.sec? (pa / 16 % 8) <;> rfl
  · rfl

theorem L2Line.wrote_sec?_self (l : L2Line) (pa stamp : Nat) (base bs : List Byte) : (l.wrote pa stamp base bs).sec? (pa / 16 % 8) =
    some ⟨pa / 16 % 8, overlay (((l.sec? (pa / 16 % 8)).map Sector.data).getD base) (pa % 16) bs, true⟩ := by
  rw [L2Line.sec?, L2Line.wrote, List.find?_cons_of_pos (by simp)]

theorem L2Line.wrote_sec?_ne (l : L2Line) (pa stamp : Nat) (base bs : List Byte) {i : Nat} (hi : i ≠ pa / 16 % 8) :
    (l.wrote pa stamp base bs).sec? i = l.sec? i := by
  rw [L2Line.sec?, L2Line.wrote, List.find?_cons_of_neg (by simpa using Ne.symm hi), List.find?_filter, L2Line.sec?]
  congr 1
  funext x
  by_cases hx : x.i = i <;> simp [hx, hi]

/-- A write within one sector of a line that the home holds. -/
theorem Rewrites.writeSector {s : State} (h : Homes s) (s0 : State) (pa : Nat) (bs : List Byte) (hline : (s.l2Line? (pa / 128)).isSome = true)
    (hbase : sectorOf s pa = none → s0.bytes (pa / 16 * 16) 16 = s.bytes (pa / 16 * 16) 16) (hin : pa % 16 + bs.length ≤ 16) :
    Rewrites s ((writeSector s0 pa bs).apply s) pa bs := by
  obtain ⟨l0, hl0⟩ := Option.isSome_iff_exists.mp hline
  obtain ⟨hmem0, hline0⟩ := mem_of_l2Line? hl0
  have hl2 := writeSector_l2 s0 s pa bs
  have hbyte : ∀ k, ((Machine.writeSector s0 pa bs).apply s).byte k = s.byte k := fun _ => rfl
  have hwf : Memory.wf ((Machine.writeSector s0 pa bs).apply s).mem = true := h.wf
  generalize (Machine.writeSector s0 pa bs).apply s = s' at hl2 hbyte hwf
  generalize hbaseEq : s0.bytes (pa / 16 * 16) 16 = base at hl2 hbase
  have hlen : base.length = 16 := by rw [← hbaseEq, bytes_length]
  have hfind (n : Nat) : s'.l2Line? n = (s.l2Line? n).map fun l => if l.line = pa / 128 then l.wrote pa s0.stamp base bs else l := by
    rw [State.l2Line?, State.l2Line?, hl2, List.find?_map]
    congr 2
    funext l
    simp only [Function.comp]
    split <;> rfl
  have holdLen : ∀ l ∈ s.part.l2, (((l.sec? (pa / 16 % 8)).map Sector.data).getD base).length = 16 := by
    intro l hl
    cases hx : l.sec? (pa / 16 % 8) with
    | none => exact hlen
    | some x => exact (h.sixteen l hl x (mem_of_sec? hx).1).2
  refine ⟨⟨hwf, ?_, ?_, ?_, ?_⟩, fun k => ?_⟩
  · have hlines : L2Line.line ∘ (fun l => if l.line = pa / 128 then l.wrote pa s0.stamp base bs else l) = L2Line.line := by
      funext l
      simp only [Function.comp]
      split <;> rfl
    rw [hl2, List.map_map, hlines]
    exact h.lines
  · rw [hl2, List.forall_mem_map]
    intro l hl
    split
    · refine List.nodup_cons.mpr ⟨fun hmem => ?_, (h.sectors l hl).sublist (List.filter_sublist.map _)⟩
      obtain ⟨x, hx, hxi⟩ := List.mem_map.mp hmem
      simp [hxi] at hx
    · exact h.sectors l hl
  · rw [hl2, List.forall_mem_map]
    intro l hl
    split
    · refine List.forall_mem_cons.mpr ⟨⟨Nat.mod_lt _ (by decide), ?_⟩, fun x hx => h.sixteen l hl x (List.mem_filter.mp hx).1⟩
      rw [overlay_length (by rw [holdLen l hl]; exact hin), holdLen l hl]
    · exact h.sixteen l hl
  · rw [hl2, List.forall_mem_map]
    intro l hl
    have hkept : ∀ x ∈ l.secs, x.dirty = false → x.data = s'.bytes (l.line * 128 + x.i * 16) 16 := fun x hx hd => by
      rw [h.clean l hl x hx hd, bytes_congr 16 _ fun i _ => hbyte _]
    split
    · exact List.forall_mem_cons.mpr ⟨nofun, fun x hx hd => hkept x (List.mem_filter.mp hx).1 hd⟩
    · exact hkept
  · by_cases hk : k / 16 = pa / 16
    · have hkl : k / 128 = pa / 128 := by omega
      have hki : k / 16 % 8 = pa / 16 % 8 := by omega
      have hsec' : sectorOf s' k = some ⟨pa / 16 % 8, overlay (((l0.sec? (pa / 16 % 8)).map Sector.data).getD base) (pa % 16) bs, true⟩ := by
        rw [sectorOf, hfind, hkl, hl0, hki, Option.map_some, if_pos hline0]
        exact l0.wrote_sec?_self pa s0.stamp base bs
      have hsec : sectorOf s k = l0.sec? (pa / 16 % 8) := by rw [sectorOf, hkl, hl0, hki]; rfl
      have hold : (((l0.sec? (pa / 16 % 8)).map Sector.data).getD base).getD (k % 16) 0#8 = homeByte s k := by
        cases hx : l0.sec? (pa / 16 % 8) with
        | none =>
          have hpa : sectorOf s pa = none := by rw [sectorOf, hl0]; exact hx
          rw [homeByte_of_frame (hsec.trans hx), Option.map_none, Option.getD_none, hbase hpa, getD_bytes s 16 _ _ (Nat.mod_lt _ (by decide))]
          congr 1
          omega
        | some x => rw [homeByte_of_sector (hsec.trans hx)]; rfl
      rw [homeByte_of_sector hsec', getD_overlay (by rw [holdLen l0 hmem0]; exact hin), hold]
      have hrange : (pa % 16 ≤ k % 16 ∧ k % 16 < pa % 16 + bs.length) ↔ (pa ≤ k ∧ k < pa + bs.length) := by omega
      have hoff : pa ≤ k → k % 16 - pa % 16 = k - pa := by omega
      simp only [hrange]
      split
      · next hr => rw [hoff hr.1]
      · rfl
    · rw [if_neg (by omega)]
      refine homeByte_congr ?_ fun _ => hbyte k
      rw [sectorOf, sectorOf, hfind]
      cases hl : s.l2Line? (k / 128) with
      | none => rfl
      | some l =>
        simp only [Option.map_some, Option.bind_some]
        split
        · next hline =>
          have := (mem_of_l2Line? hl).2
          exact l.wrote_sec?_ne pa s0.stamp base bs (by omega)
        · rfl

/-! ## What a write leaves as it is -/

/-- `s'` is `s` but for the bytes that stand in memory and in caches, what is kept of lines, and events owed. -/
def SameButHomes (s s' : State) : Prop :=
  s' = { s with
    mem := s'.mem
    events := s'.events
    part := { s.part with
      l2 := s'.part.l2
      l1 := s'.part.l1
      rdc := s'.part.rdc
      hots := s'.part.hots
      redirects := s'.part.redirects
      mcs := s'.part.mcs
      hostHeld := s'.part.hostHeld
      orders := s'.part.orders } }

theorem SameButHomes.refl (s : State) : SameButHomes s s := rfl

theorem SameButHomes.trans {a b c : State} (h : SameButHomes a b) (g : SameButHomes b c) : SameButHomes a c := by
  rw [SameButHomes] at h g ⊢
  rw [g, h]

/-- An update of the homes alone. -/
def HomeUpd (u : Upd) : Prop := ∀ s, SameButHomes s (u.apply s)

theorem SameButHomes.applyAll : ∀ {us : List Upd} (s : State), (∀ u ∈ us, HomeUpd u) → SameButHomes s (s.applyAll us)
  | [], s, _ => .refl s
  | u :: _, s, h => (h u List.mem_cons_self s).trans (SameButHomes.applyAll _ fun v hv => h v (List.mem_cons_of_mem u hv))

theorem homeUpd_beforeWrite (line : Nat) : HomeUpd (beforeWrite line) := fun _ => rfl
theorem homeUpd_store (a : Nat) (bs : List Byte) : HomeUpd (.store a bs) := fun _ => rfl
theorem homeUpd_dropLine (line : Nat) : HomeUpd (dropLine line) := fun _ => rfl
theorem homeUpd_newLine (s : State) (p : Page) (ctx : Nat) : HomeUpd (newLine s p ctx) := fun _ => rfl
theorem homeUpd_writeSector (s : State) (pa : Nat) (bs : List Byte) : HomeUpd (writeSector s pa bs) := fun _ => rfl

theorem homeUpd_writeBack (l : L2Line) : ∀ u ∈ l.writeBack, HomeUpd u := by
  intro u hu
  obtain ⟨x, _, hx⟩ := List.mem_filterMap.mp hu
  split at hx
  · exact Option.some.inj hx ▸ homeUpd_store _ _
  · cases hx

/-- An update of copies, records and events alone. -/
def CopyUpd (u : Upd) : Prop := ∀ s, SameButHomes s (u.apply s) ∧ (u.apply s).mem = s.mem ∧ (u.apply s).part.l2 = s.part.l2

theorem copyUpd_copiesAfterWrite (s : State) (a : Agent) (cp pa : Nat) (bs : List Byte) : ∀ u ∈ copiesAfterWrite s a cp pa bs, CopyUpd u := by
  intro u hu
  rcases List.mem_append.mp hu with hu | hu
  · rcases List.mem_append.mp hu with hu | hu
    · split at hu
      · cases hu
      · exact List.mem_singleton.mp hu ▸ fun _ => ⟨rfl, rfl, rfl⟩
    · exact List.mem_singleton.mp hu ▸ fun _ => ⟨rfl, rfl, rfl⟩
  · obtain ⟨x, _, rfl⟩ := List.mem_map.mp hu
    exact fun _ => ⟨rfl, rfl, rfl⟩

theorem copyUpd_orderAfterWrite (s : State) (a : Agent) (pa : Nat) : ∀ u ∈ orderAfterWrite s a pa, CopyUpd u := by
  intro u hu
  simp only [orderAfterWrite] at hu
  split at hu
  · exact List.mem_singleton.mp hu ▸ fun _ => ⟨rfl, rfl, rfl⟩
  · cases hu

theorem SameHomes.copies : ∀ {us : List Upd} {s : State}, Homes s → (∀ u ∈ us, CopyUpd u) → SameHomes s (s.applyAll us)
  | [], s, h, _ => .of_eq h rfl rfl
  | u :: us, s, h, hu => by
    obtain ⟨_, hm, hl⟩ := hu u List.mem_cons_self s
    have hhead : SameHomes s (u.apply s) := .of_eq h hm hl
    exact hhead.before (SameHomes.copies hhead.homes fun v hv => hu v (List.mem_cons_of_mem u hv))

theorem SameHomes.beforeWrite {s : State} (h : Homes s) (line : Nat) : SameHomes s ((beforeWrite line).apply s) :=
  .of_map h rfl (g := fun l => if l.line = line then { l with written := true } else l) rfl fun l => by split <;> exact ⟨rfl, rfl⟩

theorem beforeWrite_l2 (s : State) (line : Nat) : ((Machine.beforeWrite line).apply s).part.l2 =
    s.part.l2.map fun l => if l.line = line then { l with written := true } else l := rfl

/-! ## A write to a cacheable page -/

theorem mem_of_oldest : ∀ {ls : List L2Line} {v : L2Line}, oldest ls = some v → v ∈ ls
  | l :: ls, v, h => by
    rw [oldest] at h
    cases ho : oldest ls with
    | none =>
      rw [ho] at h
      exact Option.some.inj h ▸ List.mem_cons_self
    | some m =>
      rw [ho] at h
      simp only at h
      split at h
      · exact Option.some.inj h ▸ List.mem_cons_of_mem l (mem_of_oldest ho)
      · exact Option.some.inj h ▸ List.mem_cons_self

/-- Room for a new line: nothing leaves, or a line of its set. -/
theorem makeRoom_eq {s : State} {die line : Nat} {us : List Upd} (h : makeRoom s die line = some us) :
    us = [] ∨ ∃ v ∈ s.part.l2, us = v.writeBack ++ [dropLine v.line] := by
  simp only [makeRoom] at h
  split at h
  · exact .inl (Option.some.inj h).symm
  · obtain ⟨v, hv, rfl⟩ := Option.map_eq_some_iff.mp h
    exact .inr ⟨v, (List.mem_filter.mp (List.mem_filter.mp (mem_of_oldest hv)).1).1, rfl⟩

theorem allocate_cacheable {s : State} {p : Page} (ctx : Nat) (hk : p.kind = 0) : allocate s p ctx =
    .ok (if (s.l2Line? (p.pa / 128)).isSome then some [] else (makeRoom s p.home (p.pa / 128)).map fun us => us ++ [newLine s p ctx]) := by
  simp only [allocate, hk, if_true]
  split <;> rfl

/-- Two states whose homes hold the same bytes hold a sector's frame alike where no home holds the sector. -/
theorem SameHomes.frame {s b : State} (h : SameHomes s b) {pa : Nat} (hs : sectorOf s pa = none) (hb : sectorOf b pa = none) :
    s.bytes (pa / 16 * 16) 16 = b.bytes (pa / 16 * 16) 16 := by
  refine bytes_congr 16 _ fun i hi => ?_
  have hsec (a : State) : sectorOf a (pa / 16 * 16 + i) = sectorOf a pa := by
    have h1 : (pa / 16 * 16 + i) / 16 = pa / 16 := by omega
    have h2 : (pa / 16 * 16 + i) / 128 = pa / 128 := by omega
    rw [sectorOf, sectorOf, h1, h2]
  rw [← homeByte_of_frame ((hsec s).trans hs), ← homeByte_of_frame ((hsec b).trans hb), h.byte]

/-- The end of a write, once the home holds the line: the sector, then the copies. -/
theorem Rewrites.landed {s b : State} (h : SameHomes s b) (a : Agent) (pa : Nat) (bs : List Byte) (hline : (b.l2Line? (pa / 128)).isSome = true)
    (hbase : sectorOf b pa = none → s.bytes (pa / 16 * 16) 16 = b.bytes (pa / 16 * 16) 16) (hin : pa % 16 + bs.length ≤ 16) :
    Rewrites s (((Machine.writeSector s pa bs).apply b).applyAll (copiesAfterWrite s a 0 pa bs ++ orderAfterWrite s a pa)) pa bs := by
  refine .after h (.before (.writeSector h.homes s pa bs hline hbase hin) (.copies ?_ ?_))
  · exact (Rewrites.writeSector h.homes s pa bs hline hbase hin).homes
  · exact List.forall_mem_append.mpr ⟨copyUpd_copiesAfterWrite s a 0 pa bs, copyUpd_orderAfterWrite s a pa⟩

/-- The room that a new line takes, and the new line. -/
theorem SameHomes.allocated {s b : State} (h : SameHomes s b) (s0 : State) {p : Page} (ctx : Nat) {room : List Upd}
    (hroom : room = [] ∨ ∃ v ∈ b.part.l2, room = v.writeBack ++ [dropLine v.line]) (hno : b.l2Line? (p.pa / 128) = none) :
    SameHomes s (b.applyAll (room ++ [Machine.newLine s0 p ctx])) := by
  rw [applyAll_append]
  rcases hroom with rfl | ⟨v, hv, rfl⟩
  · exact h.before (.newLine h.homes s0 p ctx hno)
  · have hev := SameHomes.evict h.homes hv
    refine h.before (hev.before (.newLine hev.homes s0 p ctx ?_))
    rw [State.l2Line?, evict_l2]
    exact List.find?_eq_none.mpr fun l hl => List.find?_eq_none.mp hno l (List.mem_filter.mp hl).1

/-- What a write to a cacheable page does between the note of the write and the copies: the sector of a line that the home holds, or has
taken in, or the frame. -/
inductive TakenIn (s : State) (p : Page) (ctx : Nat) (bs : List Byte) : List Upd → Prop where
  | held (h : (s.l2Line? (p.pa / 128)).isSome = true) : TakenIn s p ctx bs [writeSector s p.pa bs]
  | frame (h : s.l2Line? (p.pa / 128) = none) : TakenIn s p ctx bs [.store p.pa bs]
  | comes {room : List Upd} (h : s.l2Line? (p.pa / 128) = none) (hroom : makeRoom s p.home (p.pa / 128) = some room) :
      TakenIn s p ctx bs (room ++ [newLine s p ctx] ++ [writeSector s p.pa bs])

/-- What a write leaves to do once the bytes stand. -/
def copiesAndOrder (s : State) (a : Agent) (pa : Nat) (bs : List Byte) : List Upd := copiesAfterWrite s a 0 pa bs ++ orderAfterWrite s a pa

theorem copyUpd_copiesAndOrder (s : State) (a : Agent) (pa : Nat) (bs : List Byte) : ∀ u ∈ copiesAndOrder s a pa bs, CopyUpd u :=
  List.forall_mem_append.mpr ⟨copyUpd_copiesAfterWrite s a 0 pa bs, copyUpd_orderAfterWrite s a pa⟩

/-- A write within a sector of a page that is cacheable and neither pinned nor unbacked. -/
theorem writePlace_takenIn (s : State) (a : Agent) {p : Page} (hmt : p.mt = 0) (hk : p.kind = 0) (bs : List Byte) :
    ∃ us, TakenIn s p a.ctx bs us ∧
      writePlace s a (.page p) bs 0 = .ok (beforeWrite (p.pa / 128) :: (us ++ copiesAndOrder s a p.pa bs)) := by
  have hpoint : pointOf p 0 = 0 := by simp [pointOf, hmt]
  simp only [writePlace, hpoint, allocate_cacheable a.ctx hk, OfNat.zero_ne_ofNat, if_false]
  by_cases hline : (s.l2Line? (p.pa / 128)).isSome = true
  · rw [if_pos hline]
    exact ⟨_, .held hline, by simp [copiesAndOrder]⟩
  · have hno : s.l2Line? (p.pa / 128) = none := by simpa using hline
    rw [if_neg hline]
    cases hroom : makeRoom s p.home (p.pa / 128) with
    | none => exact ⟨_, .frame hno, by simp [copiesAndOrder]⟩
    | some room => exact ⟨_, .comes hno hroom, by simp [copiesAndOrder]⟩

theorem TakenIn.homeUpd {s : State} {p : Page} {ctx : Nat} {bs : List Byte} {us : List Upd} (h : TakenIn s p ctx bs us) :
    ∀ u ∈ us, HomeUpd u := by
  cases h with
  | held _ => exact List.forall_mem_singleton.mpr (homeUpd_writeSector s _ _)
  | frame _ => exact List.forall_mem_singleton.mpr (homeUpd_store _ _)
  | comes _ hroom =>
    simp only [List.forall_mem_append, List.forall_mem_singleton]
    refine ⟨⟨?_, homeUpd_newLine _ _ _⟩, homeUpd_writeSector s _ _⟩
    rcases makeRoom_eq hroom with rfl | ⟨v, _, rfl⟩
    · exact List.forall_mem_nil _
    · exact List.forall_mem_append.mpr ⟨homeUpd_writeBack v, List.forall_mem_singleton.mpr (homeUpd_dropLine _)⟩

/-- The write changes the homes alone. -/
theorem TakenIn.sameButHomes {s : State} {p : Page} {ctx : Nat} {bs : List Byte} {us : List Upd} (h : TakenIn s p ctx bs us) (a : Agent) :
    SameButHomes s (s.applyAll (beforeWrite (p.pa / 128) :: (us ++ copiesAndOrder s a p.pa bs))) :=
  .applyAll s (List.forall_mem_cons.mpr ⟨homeUpd_beforeWrite _, List.forall_mem_append.mpr ⟨h.homeUpd, fun u hu b =>
    (copyUpd_copiesAndOrder s a p.pa bs u hu b).1⟩⟩)

theorem beforeWrite_l2Line? (s : State) (line n : Nat) : ((beforeWrite line).apply s).l2Line? n =
    (s.l2Line? n).map fun l => if l.line = line then { l with written := true } else l := by
  rw [State.l2Line?, State.l2Line?, beforeWrite_l2, List.find?_map]
  congr 2
  funext l
  simp only [Function.comp]
  split <;> rfl

/-- A line that leaves for a new one is there still once the write is noted. -/
theorem makeRoom_beforeWrite {s : State} {die line : Nat} {room : List Upd} (hno : s.l2Line? line = none)
    (h : makeRoom s die line = some room) :
    room = [] ∨ ∃ v ∈ ((beforeWrite line).apply s).part.l2, room = v.writeBack ++ [dropLine v.line] := by
  rcases makeRoom_eq h with rfl | ⟨v, hv, rfl⟩
  · exact .inl rfl
  · have hne : v.line ≠ line := fun heq => List.find?_eq_none.mp hno v hv (by simpa using heq)
    exact .inr ⟨v, List.mem_map.mpr ⟨v, hv, if_neg hne⟩, rfl⟩

theorem newLine_isSome (s0 b : State) (p : Page) (ctx : Nat) (room : List Upd) :
    ((b.applyAll (room ++ [newLine s0 p ctx])).l2Line? (p.pa / 128)).isSome = true := by
  rw [applyAll_append, applyAll_cons, applyAll_nil, State.l2Line?, newLine_l2, List.find?_cons_of_pos (by simp)]
  rfl

theorem TakenIn.rewrites {s : State} {p : Page} {ctx : Nat} {bs : List Byte} {us : List Upd} (h : TakenIn s p ctx bs us) (hs : Homes s)
    (a : Agent) (hin : p.pa % 16 + bs.length ≤ 16) :
    Rewrites s (s.applyAll (beforeWrite (p.pa / 128) :: (us ++ copiesAndOrder s a p.pa bs))) p.pa bs := by
  have hbefore := SameHomes.beforeWrite hs (p.pa / 128)
  have hfind := beforeWrite_l2Line? s (p.pa / 128) (p.pa / 128)
  rw [applyAll_cons, applyAll_append]
  cases h with
  | held hline =>
    exact .landed hbefore a p.pa bs (by rw [hfind, Option.isSome_map, hline]) (fun _ => bytes_congr 16 _ fun _ _ => rfl) hin
  | frame hno =>
    have hstore := Rewrites.store hbefore.homes p.pa bs (by rw [hfind, hno]; rfl) hin
    exact .after hbefore (hstore.before (.copies hstore.homes (copyUpd_copiesAndOrder s a p.pa bs)))
  | comes hno hroom =>
    have halloc := hbefore.allocated s ctx (makeRoom_beforeWrite hno hroom) (by rw [hfind, hno]; rfl)
    rw [applyAll_append]
    exact .landed halloc a p.pa bs (newLine_isSome s _ p ctx _) (fun hn => halloc.frame (by rw [sectorOf, hno]; rfl) hn) hin

theorem writePlace_page {s : State} (h : Homes s) (a : Agent) {p : Page} (hmt : p.mt = 0) (hk : p.kind = 0) {bs : List Byte}
    (hin : p.pa % 16 + bs.length ≤ 16) :
    ∃ us, writePlace s a (.page p) bs 0 = .ok us ∧ Rewrites s (s.applyAll us) p.pa bs ∧ SameButHomes s (s.applyAll us) := by
  obtain ⟨us, hus, hw⟩ := writePlace_takenIn s a hmt hk bs
  exact ⟨_, hw, hus.rewrites h a hin, hus.sameButHomes a⟩

end Sys2Proof.Machine
end

section
/-! Words of cacheable pages: where an access's addresses stand, what a word there reads, and what a write of a word changes. -/

open Sys2Proof Sys2Proof.Machine

namespace Sys2Proof.Machine

/-! ## Places of page addresses -/

/-- The page of an access keeps the offset of its address. -/
theorem pageBut_offset {bar : Page → Bool} {stay : List TlbEntry} {s : State} {c : Ctx} {issuer : Nat} {user vetted : Bool} {k : AccessKind}
    {va n : Nat} {p : Page} {us : List Upd} (h : pageBut bar stay s c issuer user vetted k va n = (.ok p, us)) : p.pa % 2 ^ 16 = va % 2 ^ 16 := by
  have hjudge {x : Nat × Nat} {us us' : List Upd} (hj : pageBut.judge bar s user vetted k va n x us = (.ok p, us')) :
      p.pa % 2 ^ 16 = va % 2 ^ 16 := by
    obtain ⟨l, pte⟩ := x
    simp only [pageBut.judge] at hj
    split at hj
    · cases hj
    · split at hj
      · cases hj
      · split at hj
        · cases hj
        · obtain rfl := Except.ok.inj (Prod.mk.inj hj).1
          simp only [pageAt, pteFrame, pageSize]
          split
          · omega
          · split <;> omega
  simp only [pageBut] at h
  split at h
  · exact hjudge h
  · split at h
    · cases h
    · exact hjudge h

/-- An address outside the local range translates to a page, at its offset. -/
theorem translate_page {s : State} {a : Agent} {k : AccessKind} {va : BitVec 64} {n : Nat} {pl : Place} {us : List Upd}
    (h : translate s a k va n = (.ok pl, us)) (hva : ¬ (0xFF000000000000 ≤ va.toNat ∧ va.toNat < 2 ^ 56)) :
    ∃ p, pl = .page p ∧ p.pa % 2 ^ 16 = va.toNat % 2 ^ 16 := by
  simp only [translate, translateBut] at h
  split at h
  · cases h
  · rw [if_neg (by omega)] at h
    split at h
    · cases h
    · split at h
      · cases h
      · next hp =>
        obtain rfl := Except.ok.inj (Prod.mk.inj h).1
        exact ⟨_, rfl, pageBut_offset hp⟩

theorem piecePlaces_pages {a : Agent} {k : AccessKind} {n : Nat} : ∀ {vas : List (BitVec 64)} {s : State} {ps : List (BitVec 64 × Place)}
    {us : List Upd}, piecePlaces a k n vas s = (.ok ps, us) →
    (∀ va ∈ vas, ¬ (0xFF000000000000 ≤ va.toNat ∧ va.toNat < 2 ^ 56)) →
    ps.map Prod.fst = vas ∧ ∀ x ∈ ps, ∃ p, x.2 = .page p ∧ p.pa % 2 ^ 16 = x.1.toNat % 2 ^ 16
  | [], s, ps, us, h, _ => by
    obtain rfl := Except.ok.inj (Prod.mk.inj h).1
    exact ⟨rfl, nofun⟩
  | va :: vas, s, ps, us, h, hva => by
    simp only [piecePlaces] at h
    split at h
    · next pl vs ht =>
      cases hr : (piecePlaces a k n vas (s.applyAll vs)).1 with
      | error e => simp [hr, Except.map] at h
      | ok qs =>
        simp only [hr, Except.map, Prod.mk.injEq, Except.ok.injEq] at h
        obtain ⟨rfl, -⟩ := h
        obtain ⟨hfst, hpages⟩ := piecePlaces_pages (Prod.ext hr rfl) fun x hx => hva x (List.mem_cons_of_mem va hx)
        exact ⟨by rw [List.map_cons, hfst], List.forall_mem_cons.mpr ⟨translate_page ht (hva va List.mem_cons_self), hpages⟩⟩
    · cases h

/-- The places of page addresses: one for each, on a page, at its offset. -/
theorem pagePlaces_pages {a : Agent} {k : AccessKind} {vas : List (BitVec 64)} {s : State} {ps : List (BitVec 64 × Place)} {us : List Upd}
    (h : pagePlaces a k vas s = (.ok ps, us)) :
    ps.map Prod.fst = vas ∧ ∀ x ∈ ps, ∃ p, x.2 = .page p ∧ p.pa % 2 ^ 16 = x.1.toNat % 2 ^ 16 := by
  simp only [pagePlaces] at h
  split at h
  · cases h
  · next hno =>
    cases hl : firstLocal vas with
    | some va => exact (hno _ _ _ h hl).elim
    | none =>
      have hva : ∀ va ∈ vas, ¬ (0xFF000000000000 ≤ va.toNat ∧ va.toNat < 2 ^ 56) := by
        intro va hmem
        simpa using List.find?_eq_none.mp hl va hmem
      have hall : (vas.takeWhile fun va => !(decide (0xFF000000000000 ≤ va.toNat) && decide (va.toNat < 2 ^ 56))) = vas :=
        List.takeWhile_eq_self_iff.mpr fun va hmem => by
          have := hva va hmem
          simp only [Bool.not_eq_true', Bool.and_eq_false_imp, decide_eq_true_eq, decide_eq_false_iff_not]
          omega
      rw [hall] at h
      exact piecePlaces_pages h hva

/-! ## Bytes at the places of words -/

theorem physRange_eq_sys {pa : Nat} : physRange pa = .sys ↔ 0x200000000000 ≤ pa ∧ pa < 0x400000000000 := by
  unfold physRange
  split
  · exact iff_of_false nofun (by omega)
  · split
    · split
      · exact iff_of_false nofun (by omega)
      · exact iff_of_false nofun (by omega)
    · split
      · next h => exact iff_of_true rfl h
      · next h => exact iff_of_false (by split <;> [nofun; (split <;> nofun)]) h

/-- A word of memory does not reach into system register space. -/
theorem physRange_add {pa i : Nat} (hpa : pa % 4 = 0) (hi : i < 4) (h : physRange pa ≠ .sys) : physRange (pa + i) ≠ .sys := by
  rw [Ne, physRange_eq_sys] at h ⊢
  omega

/-- The bytes of an aligned word of a plain page are those of its home. -/
theorem placeBytes_page {s : State} (a : Agent) {p : Page} (hp : Plain (.page p)) (hpa : p.pa % 4 = 0) :
    placeBytes s a (.page p) 4 = (List.range 4).map fun i => homeByte s (p.pa + i) := by
  refine List.map_congr_left fun i hi => ?_
  have hsys := physRange_add hpa (List.mem_range.mp hi) hp.2.2
  simp only [Place.plus, placeByte]

theorem placeBytes_length (s : State) (a : Agent) (pl : Place) (n : Nat) : (placeBytes s a pl n).length = n := by
  simp [placeBytes]

/-- A field of whole words is the number of their bytes. -/
theorem fieldAt_wordBytesAt (s : State) (a : Agent) (ps : List (BitVec 64 × Place)) (i j : Nat) :
    fieldAt (wordBytesAt s a ps) (4 * i) (4 * j) = leNat (wordBytesAt s a ((ps.drop i).take j)) := by
  have hdrop : ∀ (qs : List (BitVec 64 × Place)) (i : Nat), (wordBytesAt s a qs).drop (4 * i) = wordBytesAt s a (qs.drop i) := by
    intro qs
    induction qs with
    | nil => intro i; simp [wordBytesAt]
    | cons q qs ih =>
      intro i
      cases i with
      | zero => rfl
      | succ i =>
        have hlen := placeBytes_length s a q.2 4
        rw [List.drop_succ_cons, ← ih i, wordBytesAt, List.flatMap_cons, List.drop_append, hlen, List.drop_eq_nil_of_le (by omega),
          List.nil_append, show 4 * (i + 1) - 4 = 4 * i by omega]
        rfl
  have htake : ∀ (qs : List (BitVec 64 × Place)) (j : Nat), (wordBytesAt s a qs).take (4 * j) = wordBytesAt s a (qs.take j) := by
    intro qs
    induction qs with
    | nil => intro j; simp [wordBytesAt]
    | cons q qs ih =>
      intro j
      cases j with
      | zero => rfl
      | succ j =>
        have hlen := placeBytes_length s a q.2 4
        rw [List.take_succ_cons, wordBytesAt, wordBytesAt, List.flatMap_cons, List.flatMap_cons, ← wordBytesAt, ← wordBytesAt, ← ih j,
          List.take_append, hlen, List.take_of_length_le (by omega), show 4 * (j + 1) - 4 = 4 * j by omega]
  rw [fieldAt, hdrop, htake]

/-! ## A word is written -/

/-- A write of a word on a plain page. -/
theorem writeAt_page {s : State} (h : Homes s) (a : Agent) {p : Page} (hp : Plain (.page p)) (hpa : p.pa % 4 = 0) {bs : List Byte}
    (hbs : bs.length = 4) : Rewrites s ((writeAt a (.page p, bs)).run s) p.pa bs ∧ SameButHomes s ((writeAt a (.page p, bs)).run s) := by
  obtain ⟨us, hok, hbytes, hsame⟩ := writePlace_page h a hp.1 hp.2.1 (bs := bs) (by omega)
  simp only [writeAt, run_act, hok]
  exact ⟨hbytes, hsame⟩

/-- The word reads back. -/
theorem Rewrites.word {s s' : State} {p : Page} {bs : List Byte} (h : Rewrites s s' p.pa bs) (a : Agent) (hp : Plain (.page p))
    (hpa : p.pa % 4 = 0) (hbs : bs.length = 4) : placeBytes s' a (.page p) 4 = bs := by
  rw [placeBytes_page a hp hpa]
  refine List.ext_getElem (by simp [hbs]) fun i hi hi' => ?_
  rw [List.getElem_map, List.getElem_range, h.bytes, if_pos (by omega), Nat.add_sub_cancel_left, List.getD_eq_getElem?_getD,
    List.getElem?_eq_getElem hi', Option.getD_some]

/-- A word apart from it stays. -/
theorem Rewrites.other {s s' : State} {p q : Page} {bs : List Byte} (h : Rewrites s s' p.pa bs) (a : Agent) (hq : Plain (.page q))
    (hqa : q.pa % 4 = 0) (hbs : bs.length = 4) (hapart : q.pa + 4 ≤ p.pa ∨ p.pa + 4 ≤ q.pa) :
    placeBytes s' a (.page q) 4 = placeBytes s a (.page q) 4 := by
  rw [placeBytes_page a hq hqa, placeBytes_page a hq hqa]
  refine List.map_congr_left fun i hi => ?_
  have := List.mem_range.mp hi
  rw [h.bytes, if_neg (by omega)]

end Sys2Proof.Machine
end

section
/-! The events of queues: O49. A publication writes the two words of FULL, on the pages of the descriptor; what follows it changes neither
memory nor lines; the launch of the consumer joins the others and stays. -/

open Sys2Proof Sys2Proof.Machine

namespace Sys2Proof.Machine

/-! ## Numbers of bytes -/

theorem leNat_append : ∀ (xs ys : List Byte), leNat (xs ++ ys) = leNat xs + 256 ^ xs.length * leNat ys
  | [], ys => by simp [leNat]
  | x :: xs, ys => by
    simp only [List.cons_append, leNat, leNat_append xs ys, List.length_cons, Nat.pow_succ]
    ring

theorem leNat_leBytes : ∀ (n v : Nat), leNat (leBytes n v) = v % 256 ^ n
  | 0, v => by simp [leBytes, leNat, Nat.mod_one]
  | n + 1, v => by
    rw [leBytes, leNat, leNat_leBytes n (v / 256), BitVec.toNat_ofNat, pow_succ' 256 n, Nat.mod_mul]

/-- A number of 64 bits in two words. -/
theorem leNat_words {v : Nat} (hv : v < 2 ^ 64) : leNat (leBytes 4 v ++ leBytes 4 (v / 2 ^ 32)) = v := by
  rw [leNat_append, leNat_leBytes, leNat_leBytes, leBytes_length]
  omega

/-! ## A descriptor after its FULL is written -/

/-- The words of a queue descriptor, as an instruction of a thread finds them. -/
theorem QueueSeen.words {s : State} {t : TId} {va : BitVec 64} {ps : List (BitVec 64 × Place)} {us : List Upd} {q : QDesc}
    (h : QueueSeen s t va ps us q) : ps.length = 16 ∧ ∀ x ∈ ps, ∃ p, x.2 = .page p ∧ Plain (.page p) ∧ p.pa % 4 = 0 := by
  obtain ⟨hfst, hpages⟩ := pagePlaces_pages h.places
  refine ⟨by rw [← List.length_map (f := Prod.fst), hfst]; simp [wordsFrom, steppedFrom], fun x hx => ?_⟩
  obtain ⟨p, hp, hoff⟩ := hpages x hx
  refine ⟨p, hp, hp ▸ h.plain x hx, ?_⟩
  have hmem : x.1 ∈ wordsFrom va 64 := hfst ▸ List.mem_map_of_mem hx
  obtain ⟨i, hi, hva⟩ := List.mem_map.mp hmem
  have hal := h.aligned
  have hi := List.mem_range.mp hi
  rw [← hva, BitVec.toNat_add, BitVec.toNat_ofNat] at hoff
  omega

/-- A field of a descriptor whose words stay. -/
theorem fieldAt_kept {s s' : State} {a : Agent} {ps : List (BitVec 64 × Place)} (i j : Nat)
    (h : ∀ x ∈ (ps.drop i).take j, placeBytes s' a x.2 4 = placeBytes s a x.2 4) :
    fieldAt (wordBytesAt s' a ps) (4 * i) (4 * j) = fieldAt (wordBytesAt s a ps) (4 * i) (4 * j) := by
  rw [fieldAt_wordBytesAt, fieldAt_wordBytesAt, wordBytesAt, wordBytesAt]
  exact congrArg leNat (List.flatMap_congr h)

/-- A descriptor all of whose words but those of FULL stay. -/
theorem qdescOf_full {s s' : State} {a : Agent} {ps : List (BitVec 64 × Place)} {v : Nat}
    (hlow : ∀ x ∈ ps.take 10, placeBytes s' a x.2 4 = placeBytes s a x.2 4)
    (hhigh : ∀ x ∈ ps.drop 12, placeBytes s' a x.2 4 = placeBytes s a x.2 4)
    (hfull : leNat (wordBytesAt s' a ((ps.drop 10).take 2)) = v) :
    qdescOf (wordBytesAt s' a ps) = { qdescOf (wordBytesAt s a ps) with full := v } := by
  have hl (i j : Nat) (hij : i + j ≤ 10) := fieldAt_kept (s := s) (s' := s') (a := a) (ps := ps) i j fun x hx => hlow x (by
    rw [List.take_drop] at hx
    exact List.take_subset_take_left ps hij (List.mem_of_mem_drop hx))
  have hh := fieldAt_kept (s := s) (s' := s') (a := a) (ps := ps) 12 2 fun x hx => hhigh x (List.mem_of_mem_take hx)
  have hf := fieldAt_wordBytesAt s' a ps 10 2
  rw [hfull] at hf
  simp only [qdescOf, QDesc.mk.injEq]
  exact ⟨hl 0 2 (by decide), hl 2 1 (by decide), hl 3 1 (by decide), hl 4 2 (by decide), hl 6 2 (by decide), hl 8 2 (by decide), hf, hh⟩

/-- A range of bytes, word by word. -/
theorem wordBytesAt_eq_homeBytes (s : State) (a : Agent) : ∀ (ps : List (BitVec 64 × Place)) (pa : Nat),
    (∀ x ∈ ps, ∃ p, x.2 = .page p ∧ Plain (.page p) ∧ p.pa % 4 = 0) → (∀ n (h : n < ps.length), placeKey ps[n].2 = pa + 4 * n) →
    wordBytesAt s a ps = homeBytes s pa (4 * ps.length)
  | [], _, _, _ => rfl
  | x :: ps, pa, hpages, hkeys => by
    obtain ⟨p, hp, hplain, hpa⟩ := hpages x List.mem_cons_self
    have hkey : p.pa = pa := by
      have := hkeys 0 (Nat.succ_pos _)
      rwa [List.getElem_cons_zero, hp] at this
    have htail : wordBytesAt s a ps = homeBytes s (pa + 4) (4 * ps.length) :=
      wordBytesAt_eq_homeBytes s a ps (pa + 4) (fun y hy => hpages y (List.mem_cons_of_mem x hy)) fun n hn => by
        have := hkeys (n + 1) (Nat.succ_lt_succ hn)
        rw [List.getElem_cons_succ] at this
        omega
    rw [wordBytesAt, List.flatMap_cons, ← wordBytesAt, htail, hp, placeBytes_page a hplain hpa, hkey, List.length_cons,
      show 4 * (ps.length + 1) = 4 * ps.length + 4 by omega]
    rfl

/-! ## A cached translation -/

/-- A translation that was cached is found again, where the part has not changed in what it reads. -/
theorem pageFor_of_cached {s b : State} {c : Ctx} {issuer : Nat} {user vetted : Bool} {k : AccessKind} {va n : Nat} {p : Page}
    (htlb : b.part.tlb = s.part.tlb) (hpresent : ∀ pa, present b pa = present s pa) (hbad : b.part.bad = s.part.bad)
    (h : pageFor s c issuer user vetted k va n = (.ok p, [])) : pageFor b c issuer user vetted k va n = (.ok p, []) := by
  have hcached : cachedPte b issuer c.asid va = cachedPte s issuer c.asid va := by rw [cachedPte, cachedPte, htlb]
  have herr (pa : Nat) : readsError b k pa n = readsError s k pa n := by
    simp only [readsError, State.uncorrectable, hbad]
  have hjudge (x : Nat × Nat) (us : List Upd) : pageBut.judge (fun _ => false) b user vetted k va n x us =
      pageBut.judge (fun _ => false) s user vetted k va n x us := by
    simp only [pageBut.judge, hpresent, herr]
  cases hx : cachedPte s issuer c.asid va with
  | some x =>
    have hleaf (a : State) (ha : cachedPte a issuer c.asid va = some x) : leafFor a c issuer va = (.ok x, []) := by rw [leafFor, ha]
    simp only [pageFor, pageBut, keptLeaf, List.find?_nil, Option.map_none, hleaf s hx, hleaf b (hcached.trans hx), hjudge] at h ⊢
    exact h
  | none =>
    have hadds (x : Nat × Nat) (u : Upd) : pageBut.judge (fun _ => false) s user vetted k va n x [u] ≠ (.ok p, []) := by
      simp only [pageBut.judge]
      split
      · nofun
      · split
        · nofun
        · split <;> nofun
    simp only [pageFor, pageBut, keptLeaf, List.find?_nil, Option.map_none, leafFor, hx] at h
    split at h
    · cases h
    · next heq =>
      split at heq
      · cases heq
      · obtain ⟨-, rfl⟩ := Prod.mk.inj heq
        exact (hadds _ _ h).elim

/-! ## After the write -/

/-- What follows a publication: memory, lines and queues stay, no operation comes, a launch keeps what it was started with. -/
structure Follows (a b : State) : Prop where
  mem : b.mem = a.mem
  lines : b.part.l2 = a.part.l2
  queues : b.part.queues = a.part.queues
  ops : ∀ o ∈ b.part.ops, o ∈ a.part.ops
  launches : ∀ l ∈ a.part.launches, ∃ m ∈ b.part.launches,
    m.ctx = l.ctx ∧ m.queue = l.queue ∧ m.args = l.args ∧ m.done = l.done ∧ m.kern = l.kern

theorem Follows.of_eq {a b : State} (hm : b.mem = a.mem) (hl : b.part.l2 = a.part.l2) (hq : b.part.queues = a.part.queues)
    (ho : b.part.ops = a.part.ops) (hs : b.part.launches = a.part.launches) : Follows a b :=
  ⟨hm, hl, hq, fun _ h => ho ▸ h, fun l h => ⟨l, hs ▸ h, rfl, rfl, rfl, rfl, rfl⟩⟩

theorem Follows.trans {a b c : State} (h : Follows a b) (g : Follows b c) : Follows a c := by
  refine ⟨g.mem.trans h.mem, g.lines.trans h.lines, g.queues.trans h.queues, fun o ho => h.ops o (g.ops o ho), fun l hl => ?_⟩
  obtain ⟨m, hm, m1, m2, m3, m4, m5⟩ := h.launches l hl
  obtain ⟨n, hn, n1, n2, n3, n4, n5⟩ := g.launches m hm
  exact ⟨n, hn, n1.trans m1, n2.trans m2, n3.trans m3, n4.trans m4, n5.trans m5⟩

/-- An update that may follow a publication. -/
def FollowUpd (u : Upd) : Prop := ∀ s, Follows s (u.apply s)

theorem Follows.applyAll : ∀ {us : List Upd} (s : State), (∀ u ∈ us, FollowUpd u) → Follows s (s.applyAll us)
  | [], _, _ => .of_eq rfl rfl rfl rfl rfl
  | u :: _, s, h => (h u List.mem_cons_self s).trans (Follows.applyAll _ fun v hv => h v (List.mem_cons_of_mem u hv))

/-- A launch makes progress. -/
theorem followUpd_progressed (key : Nat) (v : Nat) :
    FollowUpd (.launch key fun l => { l with progress := v, stalled := false }) := fun s =>
  ⟨rfl, rfl, rfl, fun _ h => h, fun l hl => ⟨_, List.mem_map_of_mem hl, by split <;> exact ⟨rfl, rfl, rfl, rfl, rfl⟩⟩⟩

theorem followUpd_event (i : Instr) : FollowUpd (.event i) := fun _ => .of_eq rfl rfl rfl rfl rfl
theorem followUpd_group (g : GId) (f : Group → Group) : FollowUpd (.group g f) := fun _ => .of_eq rfl rfl rfl rfl rfl
theorem followUpd_dropOp (id : Nat) : FollowUpd (.dropOp id) := fun _ =>
  ⟨rfl, rfl, rfl, fun _ h => (List.mem_filter.mp h).1, fun l hl => ⟨l, hl, rfl, rfl, rfl, rfl, rfl⟩⟩

theorem followUpd_progress (s : State) (k : Nat) : ∀ u ∈ progress s k, FollowUpd u := by
  intro u hu
  simp only [progress] at hu
  split at hu
  · exact List.mem_singleton.mp hu ▸ followUpd_progressed _ _
  · cases hu

theorem followUpd_queueMoved (s : State) (ctx : Nat) (va : BitVec 64) : ∀ u ∈ queueMoved s ctx va, FollowUpd u := by
  intro u hu
  obtain ⟨l, _, rfl⟩ := List.mem_map.mp hu
  exact followUpd_progressed _ _

theorem followUpd_settle (s : State) (o : Op) : ∀ u ∈ o.settle s, FollowUpd u := by
  intro u hu
  simp only [Op.settle] at hu
  split at hu
  · split at hu
    · cases hu
    · exact List.mem_singleton.mp hu ▸ followUpd_group _ _
  · cases hu

/-- An operation without a register write completes. -/
theorem completeOp_follows {s : State} {o : Op} (hop : s.op? o.id = some o) (hdlv : o.dlv = none) :
    Follows s ((completeOp o.id).run s) ∧ ((completeOp o.id).run s).op? o.id = none := by
  simp only [completeOp, run_act, hop, Op.write, hdlv, List.nil_append, applyAll_append, applyAll_cons, applyAll_nil]
  have h1 := Follows.applyAll s (followUpd_settle s o)
  generalize s.applyAll (o.settle s) = b at h1 ⊢
  have h2 := followUpd_dropOp o.id b
  have hno : ∀ p ∈ ((Upd.dropOp o.id).apply b).part.ops, p.id ≠ o.id := fun p hp => by simpa using (List.mem_filter.mp hp).2
  generalize (Upd.dropOp o.id).apply b = c at h2 hno ⊢
  have h3 := Follows.applyAll c (followUpd_progress s o.t.team)
  generalize c.applyAll (progress s o.t.team) = d at h3 ⊢
  have h4 : Follows d (d.applyAll (if o.line.isSome && s.threads.any (fun x => x.run.rejected && (s.gr x.id.gid).core == o.core) then
      [.event (.mshrGrant o.core)] else [])) := by
    refine .applyAll d fun u hu => ?_
    split at hu
    · exact List.mem_singleton.mp hu ▸ followUpd_event _
    · cases hu
  refine ⟨h1.trans (h2.trans (h3.trans h4)), List.find?_eq_none.mpr fun p hp => ?_⟩
  simpa using hno p (h3.ops p (h4.ops p hp))

/-! ## The consumer starts -/

theorem startLaunch_follows (s : State) (c : Ctx) (k : Option Kernel) (r : StartArgs) :
    Follows s (s.applyAll (startLaunch s c k r).2.2) ∧ (s.applyAll (startLaunch s c k r).2.2).part.ops = s.part.ops := by
  simp only [startLaunch]
  split
  · exact ⟨⟨rfl, rfl, rfl, fun _ h => h, fun l hl => ⟨l, List.mem_append_left _ hl, rfl, rfl, rfl, rfl, rfl⟩⟩, rfl⟩
  · exact ⟨.of_eq rfl rfl rfl rfl rfl, rfl⟩

theorem startConsumer_follows (ctx launch : Nat) (va : BitVec 64) (q : QDesc) (s : State) :
    Follows s ((startConsumer ctx launch va q).run s) ∧ ((startConsumer ctx launch va q).run s).part.ops = s.part.ops := by
  simp only [startConsumer, run_act]
  split
  · exact ⟨.of_eq rfl rfl rfl rfl rfl, rfl⟩
  · split
    · exact ⟨.of_eq rfl rfl rfl rfl rfl, rfl⟩
    · exact startLaunch_follows s _ _ _

/-- A queue that was empty starts its consumer, when that has no live launch and may start. -/
theorem startConsumer_starts {s : State} {ctx launch : Nat} {va : BitVec 64} {q : QDesc} {c : Ctx} {k : Kernel} (hfull : q.full = 0)
    (hcons : q.consumer ≠ 0) (hidle : ∀ l ∈ s.part.launches, l.ctx = ctx → l.kern.addr = some (BitVec.ofNat 64 q.consumer) → l.fin.isSome = true)
    (hctx : s.ctx? ctx = some c) (hk : c.kernelAt (BitVec.ofNat 64 q.consumer) = some k)
    (hstart : startStatus s c (some k) ⟨0, va, 0#64, 0, ((s.launch? launch).map Launch.part).getD c.part, some va⟩ = 0) :
    ∃ l ∈ ((startConsumer ctx launch va q).run s).part.launches,
      l.ctx = c.num ∧ l.queue = some va ∧ l.args = va ∧ l.done = 0#64 ∧ l.kern = k := by
  have hnone : (s.part.launches.any fun l => l.ctx == ctx && l.kern.addr == some (BitVec.ofNat 64 q.consumer) && l.fin.isNone) = false := by
    rw [List.any_eq_false]
    intro l hl hlive
    simp only [Bool.and_eq_true, beq_iff_eq, Option.isNone_iff_eq_none] at hlive
    obtain ⟨⟨hlc, hla⟩, hlf⟩ := hlive
    simpa [hlf] using hidle l hl hlc hla
  have hrun (part : BitVec 192) (hp : startStatus s c (some k) ⟨0, va, 0#64, 0, part, some va⟩ = 0) :
      ∃ l ∈ (s.applyAll (startLaunch s c (some k) ⟨0, va, 0#64, 0, part, some va⟩).2.2).part.launches,
        l.ctx = c.num ∧ l.queue = some va ∧ l.args = va ∧ l.done = 0#64 ∧ l.kern = k := by
    simp only [startLaunch, hp]
    exact ⟨_, List.mem_append_right _ List.mem_cons_self, rfl, rfl, rfl, rfl, rfl⟩
  simp only [startConsumer, run_act, hfull, hcons, hnone, hctx, hk, ne_eq, not_true_eq_false, false_or, Bool.false_eq_true, if_false]
  cases hl : s.launch? launch with
  | none =>
    rw [hl] at hstart
    exact hrun c.part hstart
  | some l =>
    rw [hl] at hstart
    exact hrun l.part hstart

end Sys2Proof.Machine
end

section
/-! QPUSH_PUBLISH and QUEUE_WAIT_WAKE: O49. -/

open Sys2Proof Sys2Proof.Machine

namespace Sys2Proof.Machine

theorem Homes.of_settled {s : State} (h : Settled s) : Homes s := ⟨h.safe.mem, h.lines, h.sectors, h.sixteen, h.clean⟩

theorem commandAgent_ctx (s : State) (t : TId) : { commandAgent s t with ctx := ctxNum s t.team } = commandAgent s t := by
  have hctx : (agentOf s t).ctx = ctxNum s t.team := by
    simp only [agentOf]
    split
    · rfl
    · split <;> rfl
  rw [← hctx]
  rfl

/-- The start of the consumer after a publication on a queue whose FULL was `n`. -/
def consumerStart (ctx launch : Nat) (va : BitVec 64) (n : Nat) : Eff := .read fun s => match descAt s ctx va with
  | some q => startConsumer ctx launch va { q with full := n }
  | none => .nothing

theorem consumerStart_follows (ctx launch : Nat) (va : BitVec 64) (n : Nat) (s : State) :
    Follows s ((consumerStart ctx launch va n).run s) ∧ ((consumerStart ctx launch va n).run s).part.ops = s.part.ops := by
  simp only [consumerStart, run_read]
  cases descAt s ctx va with
  | none => exact ⟨.of_eq rfl rfl rfl rfl rfl, rfl⟩
  | some q => exact startConsumer_follows ctx launch va _ s

/-- A publication of a push whose turn it is. -/
theorem publish_run {s : State} {o : Op} {va : BitVec 64} {slot launch : Nat} {full : List Place} (later : Eff)
    (hop : s.op? o.id = some o) (hjob : o.job = .qpush va slot (ctxNum s o.t.team) launch full) (hhere : teamHere s o.t.team = true)
    (hdue : (s.queue (ctxNum s o.t.team) va).due.head? = some o.id) (hfree : engineBlocked s (commandAgent s o.t) full = none) {n : Nat}
    (hn : leNat (full.flatMap fun pl => placeBytes s (commandAgent s o.t) pl 4) = n) :
    (publish o.id later).run s =
      (Eff.seq (.each (writeAt (commandAgent s o.t)) (full.zip [leBytes 4 (n + 1), leBytes 4 ((n + 1) / 2 ^ 32)])) <|
        .seq (freshAfterAll o.t full) <|
        .seq (.act fun b => [Upd.queue b (ctxNum s o.t.team) va fun r => { r with due := r.due.drop 1 }]) <|
        .seq (consumerStart (ctxNum s o.t.team) launch va n) <|
        .seq (completeOp o.id) (.act fun b => queueMoved b (ctxNum s o.t.team) va)).run s := by
  have hteam : ((s.team? o.t.team).any fun x => !(x.here || x.res == .retired)) = false := by
    obtain ⟨x, hx, hxh⟩ := Option.any_eq_true _ _ |>.mp hhere
    rw [hx, Option.any_some, hxh]
    rfl
  have hagent := commandAgent_ctx s o.t
  simp only [publish, run_read, hop, Option.map_some, hjob, hteam, hdue, bne_self_eq_false, Bool.or_self, Bool.false_eq_true, if_false]
  rw [hagent]
  simp only [hfree, hn]
  rfl

/-- The two words of FULL are written: the descriptor is as it was but for its FULL. -/
theorem full_written {s : State} {t : TId} {va : BitVec 64} {ps : List (BitVec 64 × Place)} {us : List Upd} {d : QDesc} (hs : Homes s)
    (hseen : QueueSeen s t va ps us d) {v : Nat} (hv : v < 2 ^ 64) :
    ∃ b, (Eff.each (writeAt (commandAgent s t)) ((((ps.map Prod.snd).drop 10).take 2).zip [leBytes 4 v, leBytes 4 (v / 2 ^ 32)])).run s = b ∧
      Homes b ∧ SameButHomes s b ∧ qdescOf (wordBytesAt b (commandAgent s t) ps) = { d with full := v } := by
  obtain ⟨hlen, hpages⟩ := hseen.words
  obtain ⟨x, y, hxy⟩ : ∃ x y, (ps.drop 10).take 2 = [x, y] := List.length_eq_two.mp (by rw [List.length_take, List.length_drop, hlen]; rfl)
  have hsplit : ps = ps.take 10 ++ ([x, y] ++ ps.drop 12) := by
    rw [← hxy, ← List.drop_drop (i := 2) (j := 10), List.take_append_drop, List.take_append_drop]
  have hmem : ∀ z ∈ [x, y], z ∈ ps := fun z hz => by
    rw [hsplit]
    exact List.mem_append_right _ (List.mem_append_left _ hz)
  obtain ⟨p, hp, hpl, hpa⟩ := hpages x (hmem x List.mem_cons_self)
  obtain ⟨q, hq, hql, hqa⟩ := hpages y (hmem y (List.mem_cons_of_mem x List.mem_cons_self))
  have hapart : Apart 4 ((ps.take 10).map Prod.snd ++ ([.page p, .page q] ++ (ps.drop 12).map Prod.snd)) := by
    have := hseen.apart
    rw [hsplit, List.map_append, List.map_append] at this
    simpa only [List.map_cons, List.map_nil, hp, hq] using this
  rw [← List.map_drop, ← List.map_take, hxy]
  simp only [List.map_cons, List.map_nil, hp, hq, List.zip_cons_cons, List.zip_nil_left, run_each_cons, run_each_nil]
  obtain ⟨h1, k1⟩ := writeAt_page hs (commandAgent s t) hpl hpa (leBytes_length 4 v)
  generalize (writeAt (commandAgent s t) (.page p, leBytes 4 v)).run s = b1 at h1 k1 ⊢
  obtain ⟨h2, k2⟩ := writeAt_page h1.homes (commandAgent s t) hql hqa (leBytes_length 4 (v / 2 ^ 32))
  generalize (writeAt (commandAgent s t) (.page q, leBytes 4 (v / 2 ^ 32))).run b1 = b at h2 k2
  have hkept : ∀ z ∈ ps, (placeKey z.2 + 4 ≤ p.pa ∨ p.pa + 4 ≤ placeKey z.2) → (placeKey z.2 + 4 ≤ q.pa ∨ q.pa + 4 ≤ placeKey z.2) →
      placeBytes b (commandAgent s t) z.2 4 = placeBytes s (commandAgent s t) z.2 4 := by
    intro z hz hzp hzq
    obtain ⟨r, hr, hrl, hra⟩ := hpages z hz
    rw [hr] at hzp hzq ⊢
    rw [h2.other _ hrl hra (leBytes_length _ _) hzq, h1.other _ hrl hra (leBytes_length _ _) hzp]
  obtain ⟨-, hmid, hlow⟩ := List.pairwise_append.mp hapart
  obtain ⟨hfirst, hrest⟩ := List.pairwise_cons.mp hmid
  obtain ⟨hsecond, -⟩ := List.pairwise_cons.mp hrest
  refine ⟨b, rfl, h2.homes, k1.trans k2, ?_⟩
  rw [hseen.desc]
  refine qdescOf_full (fun z hz => hkept z (List.mem_of_mem_take hz) ?_ ?_) (fun z hz => hkept z (List.mem_of_mem_drop hz) ?_ ?_) ?_
  · exact hlow z.2 (List.mem_map_of_mem hz) _ List.mem_cons_self
  · exact hlow z.2 (List.mem_map_of_mem hz) _ (List.mem_cons_of_mem _ List.mem_cons_self)
  · exact (hfirst z.2 (List.mem_cons_of_mem _ (List.mem_map_of_mem hz))).symm
  · exact (hsecond z.2 (List.mem_map_of_mem hz)).symm
  · have hpfull : placeBytes b (commandAgent s t) (.page p) 4 = leBytes 4 v := by
      rw [h2.other _ hpl hpa (leBytes_length _ _) (hfirst _ List.mem_cons_self), h1.word _ hpl hpa (leBytes_length _ _)]
    have hqfull : placeBytes b (commandAgent s t) (.page q) 4 = leBytes 4 (v / 2 ^ 32) := h2.word _ hql hqa (leBytes_length _ _)
    rw [hxy, wordBytesAt, List.flatMap_cons, List.flatMap_cons, List.flatMap_nil, List.append_nil, hp, hq, hpfull, hqfull, leNat_words hv]

/-- An engine's writes to plain pages wait for nothing. -/
theorem engineBlocked_plain {s : State} {a : Agent} {pls : List Place} (h : ∀ pl ∈ pls, Plain pl) : engineBlocked s a pls = none := by
  simp only [engineBlocked]
  split
  · rfl
  · next hsome =>
    refine absurd ?_ hsome
    rw [List.filterMap_eq_nil_iff.mpr]
    · rfl
    · intro pl hpl
      cases pl with
      | page p =>
        have hk : p.kind = 0 := (h _ hpl).2.1
        simp [hk]
      | scr core off => rfl
      | tib off => rfl

theorem freshAfterAll_plain {t : TId} {pls : List Place} (h : ∀ pl ∈ pls, Plain pl) : freshAfterAll t pls = .nothing := by
  have hno : pls.any Place.strong = false := by
    refine List.any_eq_false.mpr fun pl hpl => ?_
    cases pl with
    | page p =>
      have hmt : p.mt = 0 := (h _ hpl).1
      simp [Place.strong, hmt]
    | scr core off => simp [Place.strong]
    | tib off => simp [Place.strong]
  simp [freshAfterAll, hno]

/-- What a queue's record is after an update. -/
theorem queue_updated (s : State) (ctx : Nat) (va : BitVec 64) (f : QueueRec → QueueRec)
    (hf : ∀ r, (f r).ctx = r.ctx ∧ (f r).addr = r.addr) : ((Upd.queue s ctx va f).apply s).queue ctx va = f (s.queue ctx va) := by
  have hname : (s.queue ctx va).ctx = ctx ∧ (s.queue ctx va).addr = va := by
    cases hq : s.part.queues.find? fun q => q.ctx == ctx && q.addr == va with
    | none => simp [State.queue, hq]
    | some q => simpa [State.queue, hq] using List.find?_some hq
  have hfound : (f (s.queue ctx va)).ctx == ctx && (f (s.queue ctx va)).addr == va := by simp [hf, hname]
  have hqs : ((Upd.queue s ctx va f).apply s).part.queues =
    f (s.queue ctx va) :: s.part.queues.filter fun q => !(q.ctx == ctx && q.addr == va) := rfl
  rw [State.queue, hqs, List.find?_cons_of_pos (by exact hfound)]
  rfl

/-- QUEUE_WAIT_WAKE of a thread that waits for its queue. -/
theorem queueWaitWake_shows (s : State) (t : TId) (ht : (s.thread? t).isSome = true) (hrun : (s.th t).run = .waiting .queue) :
    ∃ s', exec (.queueWaitWake t) s = .next s' ∧
      (queueReady s (s.th t) = true → (s'.th t).run = .running ∧ (s'.th t).pc = (s.th t).pc ∧ (s'.th t).widx = (s.th t).widx) ∧
      (queueReady s (s.th t) = false → s'.threads = s.threads ∧ Instr.queueWaitWake t ∈ s'.events) := by
  refine ⟨_, rfl, fun hready => ?_, fun hready => ?_⟩
  · simp only [run_act, hrun, hready, if_true, applyAll_cons, applyAll_nil]
    rw [th_apply_thread_self _ ht]
    exact ⟨rfl, rfl, rfl⟩
  · simp only [run_act, hrun, hready, Bool.false_eq_true, if_false, applyAll_cons, applyAll_nil]
    exact ⟨rfl, List.mem_append_right _ List.mem_cons_self⟩

/-- The bytes of words on plain pages are those of the homes alone. -/
theorem wordBytesAt_congr {s s' : State} {a : Agent} {ps : List (BitVec 64 × Place)} (hm : s'.mem = s.mem) (hl : s'.part.l2 = s.part.l2)
    (hpages : ∀ x ∈ ps, ∃ p, x.2 = .page p ∧ Plain (.page p) ∧ p.pa % 4 = 0) : wordBytesAt s' a ps = wordBytesAt s a ps := by
  have hbyte (k : Nat) : homeByte s' k = homeByte s k := by
    simp only [homeByte, State.l2Line?, State.byte, hm, hl]
  refine List.flatMap_congr fun x hx => ?_
  obtain ⟨p, hp, hpl, hpa⟩ := hpages x hx
  rw [hp, placeBytes_page a hpl hpa, placeBytes_page a hpl hpa]
  exact List.map_congr_left fun i _ => hbyte _

/-- What a start reads of the part stays. -/
structure StartsAlike (s b : State) : Prop where
  ctxs : b.part.ctxs = s.part.ctxs
  launches : b.part.launches = s.part.launches
  tlb : b.part.tlb = s.part.tlb
  pos : b.part.pos = s.part.pos
  bad : b.part.bad = s.part.bad
  cells : b.part.cellPresent = s.part.cellPresent
  off : b.part.cellOff = s.part.cellOff

theorem SameButHomes.startsAlike {s b : State} (h : SameButHomes s b) : StartsAlike s b :=
  ⟨congrArg (fun x => x.part.ctxs) h, congrArg (fun x => x.part.launches) h, congrArg (fun x => x.part.tlb) h,
    congrArg (fun x => x.part.pos) h, congrArg (fun x => x.part.bad) h, congrArg (fun x => x.part.cellPresent) h,
    congrArg (fun x => x.part.cellOff) h⟩

theorem StartsAlike.startStatus {s b : State} (h : StartsAlike s b) (c : Ctx) (k : Option Kernel) (r : StartArgs) :
    startStatus b c k r = startStatus s c k r := by
  have hplaces (part : BitVec 192) (n scan : Nat) : places b part n scan = places s part n scan := by
    simp only [places, cellOpen, h.cells, h.off]
  simp only [Machine.startStatus, hplaces, h.launches]

/-- A translation that was cached is found again, where the part has kept its TLBs, positions and errors. -/
theorem pageFor_of_parts {s b : State} (htlb : b.part.tlb = s.part.tlb) (hpos : b.part.pos = s.part.pos) (hbad : b.part.bad = s.part.bad)
    {c : Ctx} {issuer : Nat} {user vetted : Bool} {k : AccessKind} {va n : Nat} {p : Page}
    (hp : pageFor s c issuer user vetted k va n = (.ok p, [])) : pageFor b c issuer user vetted k va n = (.ok p, []) := by
  refine pageFor_of_cached htlb (fun pa => ?_) hbad hp
  have hposition (i : Nat) : b.position i = s.position i := by rw [State.position, State.position, hpos]
  unfold present
  cases physRange pa <;> simp only [hposition]

/-- The consumer of a queue whose FULL was zero starts, where `b` holds the descriptor and starts as `s` does. -/
theorem consumerStart_starts {s b : State} (h : StartsAlike s b) {ctx launch : Nat} {va : BitVec 64} {d : QDesc} {c : Ctx} {k : Kernel} {p : Page}
    (hfull : d.full = 0) (hdesc : (qdescOf (homeBytes b p.pa 64)).consumer = d.consumer) (hctx : s.ctx? ctx = some c)
    (hk : c.kernelAt (BitVec.ofNat 64 d.consumer) = some k) (hcons : d.consumer ≠ 0)
    (hpage : pageFor s c linkIssuer false true .load va.toNat 64 = (.ok p, []))
    (hidle : ∀ l ∈ s.part.launches, l.ctx = ctx → l.kern.addr = some (BitVec.ofNat 64 d.consumer) → l.fin.isSome = true)
    (hstart : Machine.startStatus s c (some k) ⟨0, va, 0#64, 0, ((s.launch? launch).map Launch.part).getD c.part, some va⟩ = 0) :
    ∃ l ∈ ((consumerStart ctx launch va d.full).run b).part.launches,
      l.ctx = c.num ∧ l.queue = some va ∧ l.args = va ∧ l.done = 0#64 ∧ l.kern = k := by
  have hctxB : b.ctx? ctx = some c := by rw [← hctx, State.ctx?, State.ctx?, h.ctxs]
  have hlaunch : b.launch? launch = s.launch? launch := by rw [State.launch?, State.launch?, h.launches]
  have hat : descAt b ctx va = some (qdescOf (homeBytes b p.pa 64)) := by
    simp only [descAt, hctxB]
    rw [pageFor_of_parts h.tlb h.pos h.bad hpage]
  generalize qdescOf (homeBytes b p.pa 64) = q at hat hdesc
  simp only [consumerStart, run_read, hat]
  refine startConsumer_starts hfull (hdesc ▸ hcons) ?_ hctxB (hdesc ▸ hk) ?_
  · rw [h.launches]
    simpa only [hdesc] using hidle
  · rw [h.startStatus, hlaunch]
    exact hstart

/-- Settles O49: the words of FULL are written and nothing after them changes memory or lines; the launch of the consumer, where it is due,
joins the launches and stays among them. -/
theorem queueEvents : Obligations.QueueEvents := by
  refine ⟨?_, fun s t ht hrun => queueWaitWake_shows s t ht hrun⟩
  intro o va slot launch ps us d s hop hjob hdlv hhere hset hdue hseen hmax
  obtain ⟨hlen, hpages⟩ := hseen.words
  have hplain : ∀ pl ∈ ((ps.map Prod.snd).drop 10).take 2, Plain pl := by
    intro pl hpl
    obtain ⟨x, hx, rfl⟩ := List.mem_map.mp (List.mem_of_mem_drop (List.mem_of_mem_take hpl))
    exact hseen.plain x hx
  have hn : leNat ((((ps.map Prod.snd).drop 10).take 2).flatMap fun pl => placeBytes s (commandAgent s o.t) pl 4) = d.full := by
    have hfull : d.full = fieldAt (wordBytesAt s (commandAgent s o.t) ps) (4 * 10) (4 * 2) := by rw [hseen.desc]; rfl
    rw [hfull, fieldAt_wordBytesAt, ← List.map_drop, ← List.map_take, List.flatMap_map]
    rfl
  have hrun := publish_run (.upds [.event (.qpushPublish o.id)]) hop hjob hhere hdue (engineBlocked_plain hplain) hn
  have hexec : exec (.qpushPublish o.id) s = .next ((publish o.id (.upds [.event (.qpushPublish o.id)])).run s) := rfl
  rw [hexec, hrun, freshAfterAll_plain hplain]
  simp only [run_seq, run_nothing, run_act, applyAll_cons, applyAll_nil]
  obtain ⟨b, hb, -, hsame, hdesc⟩ := full_written (.of_settled hset) hseen hmax
  rw [hb]
  have hqueue := queue_updated b (ctxNum s o.t.team) va (fun r => { r with due := r.due.drop 1 }) fun _ => ⟨rfl, rfl⟩
  have hqueueB : b.queue (ctxNum s o.t.team) va = s.queue (ctxNum s o.t.team) va := by
    have hqs : b.part.queues = s.part.queues := congrArg (fun x => x.part.queues) hsame
    rw [State.queue, State.queue, hqs]
  have hopB : b.part.ops = s.part.ops := congrArg (fun x => x.part.ops) hsame
  have hstarts : StartsAlike s ((Upd.queue b (ctxNum s o.t.team) va fun r => { r with due := r.due.drop 1 }).apply b) :=
    ⟨hsame.startsAlike.ctxs, hsame.startsAlike.launches, hsame.startsAlike.tlb, hsame.startsAlike.pos, hsame.startsAlike.bad,
      hsame.startsAlike.cells, hsame.startsAlike.off⟩
  have hwords := wordBytesAt_congr (s := b) (a := commandAgent s o.t)
    (s' := (Upd.queue b (ctxNum s o.t.team) va fun r => { r with due := r.due.drop 1 }).apply b) rfl rfl hpages
  have hopC : ((Upd.queue b (ctxNum s o.t.team) va fun r => { r with due := r.due.drop 1 }).apply b).part.ops = s.part.ops := hopB
  generalize (Upd.queue b (ctxNum s o.t.team) va fun r => { r with due := r.due.drop 1 }).apply b = c at hqueue hstarts hwords hopC ⊢
  have hlaunched := @consumerStart_starts s c hstarts (ctxNum s o.t.team) launch va d
  obtain ⟨hstart, hopD⟩ := consumerStart_follows (ctxNum s o.t.team) launch va d.full c
  generalize (consumerStart (ctxNum s o.t.team) launch va d.full).run c = e at hlaunched hstart hopD ⊢
  have hopE : e.op? o.id = some o := by rw [State.op?, hopD, hopC, ← State.op?, hop]
  obtain ⟨hdone, hnone⟩ := completeOp_follows hopE hdlv
  generalize (completeOp o.id).run e = f at hdone hnone ⊢
  have hmoved := Follows.applyAll f (followUpd_queueMoved f (ctxNum s o.t.team) va)
  generalize f.applyAll (queueMoved f (ctxNum s o.t.team) va) = s' at hmoved ⊢
  have hafter := hdone.trans hmoved
  have hall := hstart.trans hafter
  refine ⟨s', rfl, ?_, ?_, ?_, ?_⟩
  · exact List.find?_eq_none.mpr fun x hx => List.find?_eq_none.mp hnone x (hmoved.ops x hx)
  · rw [wordBytesAt_congr hall.mem hall.lines hpages, hwords, hdesc]
  · rw [State.queue, hall.queues, ← State.queue, hqueue, hqueueB]
  · intro hfull ct k p hctx hk hcons hpage hkeys hidle hst
    have hbytes : homeBytes c p.pa 64 = wordBytesAt c (commandAgent s o.t) ps := by
      rw [wordBytesAt_eq_homeBytes c _ ps p.pa hpages hkeys, hlen]
    obtain ⟨l, hl, h1, h2, h3, h4, h5⟩ := hlaunched hfull (by rw [hbytes, hwords, hdesc]) hctx hk hcons hpage hidle hst
    obtain ⟨m, hm, m1, m2, m3, m4, m5⟩ := hafter.launches l hl
    exact ⟨m, hm, m1.trans h1, m2.trans h2, m3.trans h3, m4.trans h4, m5.trans h5⟩

end Sys2Proof.Machine
end

section
/-! What the retirement of a team does before its claim is free (R44): buffers are written, rows land, chains end. Operations and sectors
only leave; a launch shows progress at most; what translations, contexts and collective groups say stays. -/

open Sys2Proof Sys2Proof.Machine

namespace Sys2Proof.Machine

/-- A launch but for what the watchdog follows. -/
def Launch.rest (l : Launch) : Launch := { l with progress := 0, stalled := false }

/-- From `a` to `b` operations and sectors only leave, launches at most show progress, and teams, groups and translations stay. -/
structure Fades (a b : State) : Prop where
  teams : b.teams = a.teams
  colls : b.part.colls = a.part.colls
  tlb : b.part.tlb = a.part.tlb
  ctxs : b.part.ctxs = a.part.ctxs
  pos : b.part.pos = a.part.pos
  bad : b.part.bad = a.part.bad
  ops : ∀ o ∈ b.part.ops, o ∈ a.part.ops
  launches : b.part.launches.map Launch.rest = a.part.launches.map Launch.rest
  sectors : ∀ l ∈ b.part.l2, ∃ m ∈ a.part.l2, ∀ x ∈ l.secs, x ∈ m.secs

theorem sectors_refl (ls : List L2Line) : ∀ l ∈ ls, ∃ m ∈ ls, ∀ x ∈ l.secs, x ∈ m.secs := fun l hl => ⟨l, hl, fun _ hx => hx⟩

theorem Fades.refl (a : State) : Fades a a := ⟨rfl, rfl, rfl, rfl, rfl, rfl, fun _ h => h, rfl, sectors_refl _⟩

theorem Fades.trans {a b c : State} (h : Fades a b) (g : Fades b c) : Fades a c where
  teams := g.teams.trans h.teams
  colls := g.colls.trans h.colls
  tlb := g.tlb.trans h.tlb
  ctxs := g.ctxs.trans h.ctxs
  pos := g.pos.trans h.pos
  bad := g.bad.trans h.bad
  ops := fun o ho => h.ops o (g.ops o ho)
  launches := g.launches.trans h.launches
  sectors := fun l hl => by
    obtain ⟨m, hm, hlm⟩ := g.sectors l hl
    obtain ⟨n, hn, hmn⟩ := h.sectors m hm
    exact ⟨n, hn, fun x hx => hmn x (hlm x hx)⟩

/-- An update under which operations and sectors only leave. -/
def FadeUpd (u : Upd) : Prop := ∀ s, Fades s (u.apply s)

theorem Fades.applyAll {us : List Upd} (s : State) (h : ∀ u ∈ us, FadeUpd u) : Fades s (s.applyAll us) :=
  updates_rel Fades .refl (fun _ _ _ => .trans) us s fun u hu a => h u hu a

/-- An effect under which operations and sectors only leave. -/
def FadeEff (e : Eff) : Prop := ∀ s, Fades s (e.run s)

theorem FadeEff.seq {e f : Eff} (he : FadeEff e) (hf : FadeEff f) : FadeEff (.seq e f) := fun s => (he s).trans (hf _)
theorem FadeEff.nothing : FadeEff .nothing := .refl
theorem FadeEff.act {f : State → List Upd} (h : ∀ s, ∀ u ∈ f s, FadeUpd u) : FadeEff (.act f) := fun s => .applyAll s (h s)
theorem FadeEff.upds {us : List Upd} (h : ∀ u ∈ us, FadeUpd u) : FadeEff (.upds us) := fun s => .applyAll s h
theorem FadeEff.read {f : State → Eff} (h : ∀ s, FadeEff (f s)) : FadeEff (.read f) := fun s => h s s
theorem FadeEff.each {α : Type} {f : α → Eff} {l : List α} (h : ∀ x ∈ l, FadeEff (f x)) : FadeEff (.each f l) := fun s =>
  each_rel Fades .refl (fun _ _ _ => .trans) f l s fun x hx a => h x hx a
theorem FadeEff.ite {c : Prop} [Decidable c] {e f : Eff} (he : FadeEff e) (hf : FadeEff f) : FadeEff (if c then e else f) := by
  split
  · exact he
  · exact hf

/-! ## Updates -/

/-- An update of none of the lists in question. -/
theorem FadeUpd.of_lists {u : Upd} (h : ∀ s, (u.apply s).teams = s.teams ∧ (u.apply s).part.colls = s.part.colls ∧
    (u.apply s).part.tlb = s.part.tlb ∧ (u.apply s).part.ctxs = s.part.ctxs ∧ (u.apply s).part.pos = s.part.pos ∧
    (u.apply s).part.bad = s.part.bad ∧ (u.apply s).part.ops = s.part.ops ∧ (u.apply s).part.launches = s.part.launches ∧
    (u.apply s).part.l2 = s.part.l2) : FadeUpd u := fun s => by
  obtain ⟨h1, h2, h3, h4, h5, h6, h7, h8, h9⟩ := h s
  exact ⟨h1, h2, h3, h4, h5, h6, fun o ho => h7 ▸ ho, by rw [h8], h9 ▸ sectors_refl _⟩

theorem fadeUpd_thread (t : TId) (f : Thread → Thread) : FadeUpd (.thread t f) := .of_lists fun _ => ⟨rfl, rfl, rfl, rfl, rfl, rfl, rfl, rfl, rfl⟩
theorem fadeUpd_group (g : GId) (f : Group → Group) : FadeUpd (.group g f) := .of_lists fun _ => ⟨rfl, rfl, rfl, rfl, rfl, rfl, rfl, rfl, rfl⟩
theorem fadeUpd_store (a : Nat) (bs : List Byte) : FadeUpd (.store a bs) := .of_lists fun _ => ⟨rfl, rfl, rfl, rfl, rfl, rfl, rfl, rfl, rfl⟩
theorem fadeUpd_stores (cs : List (Nat × Byte)) : FadeUpd (.stores cs) := .of_lists fun _ => ⟨rfl, rfl, rfl, rfl, rfl, rfl, rfl, rfl, rfl⟩
theorem fadeUpd_event (i : Instr) : FadeUpd (.event i) := .of_lists fun _ => ⟨rfl, rfl, rfl, rfl, rfl, rfl, rfl, rfl, rfl⟩
theorem fadeUpd_drawn (n : Nat) : FadeUpd (.drawn n) := .of_lists fun _ => ⟨rfl, rfl, rfl, rfl, rfl, rfl, rfl, rfl, rfl⟩
theorem fadeUpd_micro (m : Nat) (f : Micro → Micro) : FadeUpd (.micro m f) := .of_lists fun _ => ⟨rfl, rfl, rfl, rfl, rfl, rfl, rfl, rfl, rfl⟩
theorem fadeUpd_tripOnce (core : Nat) : FadeUpd (tripOnce core) := .of_lists fun _ => ⟨rfl, rfl, rfl, rfl, rfl, rfl, rfl, rfl, rfl⟩
theorem fadeUpd_windows (f : List Window → List Window) : FadeUpd (.part fun p => { p with windows := f p.windows }) :=
  .of_lists fun _ => ⟨rfl, rfl, rfl, rfl, rfl, rfl, rfl, rfl, rfl⟩
theorem fadeUpd_chains (f : List Chain → List Chain) : FadeUpd (.part fun p => { p with chains := f p.chains }) :=
  .of_lists fun _ => ⟨rfl, rfl, rfl, rfl, rfl, rfl, rfl, rfl, rfl⟩
theorem fadeUpd_copies (f g : Part → List Copy) : FadeUpd (.part fun p => { p with l1 := f p, rdc := g p }) :=
  .of_lists fun _ => ⟨rfl, rfl, rfl, rfl, rfl, rfl, rfl, rfl, rfl⟩

theorem fadeUpd_dropOp (id : Nat) : FadeUpd (.dropOp id) := fun _ =>
  ⟨rfl, rfl, rfl, rfl, rfl, rfl, fun _ h => (List.mem_filter.mp h).1, rfl, sectors_refl _⟩

theorem fadeUpd_progressed (key v : Nat) : FadeUpd (.launch key fun l => { l with progress := v, stalled := false }) := fun s => by
  refine ⟨rfl, rfl, rfl, rfl, rfl, rfl, fun _ h => h, ?_, sectors_refl _⟩
  refine (List.map_map ..).trans (List.map_congr_left fun l _ => ?_)
  simp only [Function.comp]
  split <;> rfl

/-! ## Lists of updates -/

/-- A list without updates, but for one on a condition. -/
theorem forall_mem_ite {α : Type} {P : α → Prop} {c : Prop} [Decidable c] {us vs : List α} (hu : ∀ u ∈ us, P u) (hv : ∀ u ∈ vs, P u) :
    ∀ u ∈ (if c then us else vs), P u := by
  split
  · exact hu
  · exact hv

theorem fadeUpd_progress (s : State) (k : Nat) : ∀ u ∈ progress s k, FadeUpd u := by
  simp only [progress]
  split
  · exact List.forall_mem_singleton.mpr (fadeUpd_progressed _ _)
  · exact List.forall_mem_nil _

theorem fadeUpd_settle (s : State) (o : Op) : ∀ u ∈ o.settle s, FadeUpd u := by
  simp only [Op.settle]
  split
  · exact forall_mem_ite (List.forall_mem_nil _) (List.forall_mem_singleton.mpr (fadeUpd_group _ _))
  · exact List.forall_mem_nil _

theorem fadeUpd_historyV (s : State) (t : TId) : ∀ (ws : List Word) (r : VReg), ∀ u ∈ historyV s t r ws, FadeUpd u
  | [], _ => List.forall_mem_nil _
  | w :: ws, r => by
    rw [historyV]
    split
    · exact List.forall_mem_nil _
    · exact List.forall_mem_cons.mpr ⟨fadeUpd_store _ _, fadeUpd_historyV s t ws _⟩

theorem fadeUpd_touchB (s : State) (t : TId) (r : VReg) (n b : Nat) : ∀ u ∈ touchB s t r n b, FadeUpd u := by
  simp only [touchB]
  exact forall_mem_ite (List.forall_mem_singleton.mpr (fadeUpd_windows _)) (List.forall_mem_nil _)

theorem fadeUpd_write (s : State) (o : Op) : ∀ u ∈ o.write s, FadeUpd u := by
  have written (f : Thread → Thread) (r : VReg) (ws : List Word) (n : Nat) :
      ∀ u ∈ Upd.thread o.t f :: (historyV s o.t r ws ++ touchB s o.t r n o.id), FadeUpd u :=
    List.forall_mem_cons.mpr ⟨fadeUpd_thread _ _, List.forall_mem_append.mpr ⟨fadeUpd_historyV s _ _ _, fadeUpd_touchB s _ _ _ _⟩⟩
  simp only [Op.write]
  split
  · split
    · split
      · exact written _ _ _ _
      · exact written _ _ _ _
    · exact List.forall_mem_nil _
  · exact List.forall_mem_nil _

theorem completeOp_fades (id : Nat) : FadeEff (completeOp id) := .act fun s => by
  split
  · exact List.forall_mem_nil _
  · simp only [List.forall_mem_append, List.forall_mem_singleton]
    exact ⟨⟨⟨⟨fadeUpd_write s _, fadeUpd_settle s _⟩, fadeUpd_dropOp _⟩, fadeUpd_progress s _⟩,
      forall_mem_ite (List.forall_mem_singleton.mpr (fadeUpd_event _)) (List.forall_mem_nil _)⟩

theorem fadeUpd_acquire (s : State) (t : TId) : ∀ u ∈ acquire s t, FadeUpd u := by
  simp only [acquire]
  split
  · exact List.forall_mem_singleton.mpr (fadeUpd_copies _ _)
  · exact List.forall_mem_nil _

/-! ## Rows and chains -/

theorem fadeUpd_freeCRows (s : State) (ws : List Window) : ∀ u ∈ freeCRows s ws, FadeUpd u := by
  intro u hu
  obtain ⟨⟨w, i⟩, _, hu⟩ := List.mem_flatMap.mp hu
  rcases List.mem_pair.mp hu with rfl | rfl
  · exact fadeUpd_stores _
  · exact fadeUpd_drawn _

theorem spoilRows_fades : FadeEff spoilRows := .act fun s =>
  forall_mem_ite (List.forall_mem_append.mpr ⟨fadeUpd_freeCRows s _, List.forall_mem_singleton.mpr (fadeUpd_windows _)⟩) (List.forall_mem_nil _)

theorem fadeUpd_chain (ctx num : Nat) (f : Chain → Chain) : FadeUpd (.chain ctx num f) := fadeUpd_chains _
theorem fadeUpd_dropChain (ctx num : Nat) : FadeUpd (dropChain ctx num) := fadeUpd_chains _

theorem addRank_fades (ctx num rank : Nat) : FadeEff (addRank ctx num rank) := .seq spoilRows_fades <| .read fun s => by
  split
  · exact .nothing
  · exact .seq (.upds (List.forall_mem_singleton.mpr (fadeUpd_windows _))) <|
      .seq (.each fun r _ => .act fun s => List.forall_mem_singleton.mpr (fadeUpd_store _ _)) <|
      .seq spoilRows_fades (.upds (List.forall_mem_singleton.mpr (fadeUpd_chain _ _ _)))

theorem addLanded_fades (ctx num : Nat) : FadeEff (addLanded ctx num) := .each fun i _ => .read fun s => by
  split
  · exact .nothing
  · exact .ite (addRank_fades _ _ _) .nothing

theorem endWait_fades (o : Op) : FadeEff (endWait o) := .seq (.act fun s => fadeUpd_acquire s o.t) (completeOp_fades o.id)

theorem endRound_fades (ctx num : Nat) : FadeEff (endRound ctx num) := .read fun s => by
  refine .seq (.each fun o _ => .ite (endWait_fades o) .nothing) ?_
  split
  · exact .nothing
  · exact .ite (.seq (endWait_fades _) (.seq (.upds (List.forall_mem_singleton.mpr (fadeUpd_dropChain _ _))) (.each fun o _ => endWait_fades o)))
      (.seq (endWait_fades _) (.upds (List.forall_mem_singleton.mpr (fadeUpd_chain _ _ _))))

theorem advanceChain_fades (ctx num : Nat) : FadeEff (advanceChain ctx num) := .seq (addLanded_fades ctx num) <| .read fun s => by
  split
  · exact .nothing
  · exact .ite (endRound_fades _ _) .nothing

theorem landSend_fades (op ctx num rank : Nat) (rows : List (List Word)) : FadeEff (landSend op ctx num rank rows) := .read fun s => by
  split
  · exact completeOp_fades op
  · refine .seq (.upds fun u hu => ?_) <| .seq (.upds (List.forall_mem_singleton.mpr (fadeUpd_chain _ _ _))) <|
      .seq (completeOp_fades op) (advanceChain_fades ctx num)
    obtain ⟨i, _, rfl⟩ := List.mem_mapIdx.mp hu
    exact fadeUpd_store _ _

theorem landSends_fades (k : Nat) : FadeEff (landSends k) := .read fun s => .each fun o _ => by
  split
  · refine .read fun s => ?_
    split
    · exact .ite (landSend_fades _ _ _ _ _) .nothing
    · exact .nothing
  · exact .nothing

theorem endChains_fades (k : Nat) : FadeEff (endChains k) := .read fun _ => .each fun _ _ => .read fun _ =>
  .seq (.each fun _ _ => .ite (completeOp_fades _) .nothing) (.upds (List.forall_mem_singleton.mpr (fadeUpd_dropChain _ _)))

/-! ## Combining buffers -/

theorem fadeUpd_beforeWrite (line : Nat) : FadeUpd (beforeWrite line) := fun s => by
  refine ⟨rfl, rfl, rfl, rfl, rfl, rfl, fun _ h => h, rfl, ?_⟩
  rw [beforeWrite_l2, List.forall_mem_map]
  exact fun l hl => ⟨l, hl, by split <;> exact fun _ hx => hx⟩

theorem fadeUpd_cleanLine (s : State) (line : Nat) (secs : List Nat) : ∀ u ∈ cleanLine s line secs, FadeUpd u := by
  simp only [cleanLine]
  split
  · exact List.forall_mem_nil _
  · refine List.forall_mem_append.mpr ⟨fun u hu => ?_, forall_mem_ite ?_ ?_⟩
    · obtain ⟨x, _, rfl⟩ := List.mem_map.mp hu
      exact fadeUpd_store _ _
    · refine List.forall_mem_singleton.mpr fun a => ⟨rfl, rfl, rfl, rfl, rfl, rfl, fun _ h => h, rfl, fun l hl => ?_⟩
      exact ⟨l, (List.mem_filter.mp hl).1, fun _ hx => hx⟩
    · refine List.forall_mem_singleton.mpr fun a => ⟨rfl, rfl, rfl, rfl, rfl, rfl, fun _ h => h, rfl, ?_⟩
      refine List.forall_mem_map.mpr fun l hl => ⟨l, hl, ?_⟩
      split
      · exact fun x hx => (List.mem_filter.mp hx).1
      · exact fun _ hx => hx

theorem fadeUpd_copiesAfterWrite (s : State) (a : Agent) (cp pa : Nat) (bs : List Byte) : ∀ u ∈ copiesAfterWrite s a cp pa bs, FadeUpd u := by
  simp only [copiesAfterWrite, List.forall_mem_append, List.forall_mem_singleton]
  refine ⟨⟨?_, fadeUpd_copies Part.l1 _⟩, fun u hu => ?_⟩
  · split
    · exact List.forall_mem_nil _
    · exact List.forall_mem_singleton.mpr (fadeUpd_copies _ Part.rdc)
  · obtain ⟨x, _, rfl⟩ := List.mem_map.mp hu
    exact fadeUpd_event _

theorem fadeUpd_watchOnce (s : State) (m i : Nat) : ∀ u ∈ watchOnce s m i, FadeUpd u := by
  simp only [watchOnce]
  exact forall_mem_ite (List.forall_mem_singleton.mpr (fadeUpd_store _ _)) (List.forall_mem_nil _)

theorem fadeUpd_matchFired (s : State) (t : TId) (m : Match) : ∀ u ∈ (matchFired s t m).2, FadeUpd u := by
  cases m with
  | trip core act =>
    have once : ∀ u ∈ [tripOnce core], FadeUpd u := List.forall_mem_singleton.mpr (fadeUpd_tripOnce core)
    simp only [matchFired]
    split
    · exact once
    · split
      · exact once
      · split
        · exact once
        · exact List.forall_mem_cons.mpr ⟨fadeUpd_tripOnce core,
            List.forall_mem_cons.mpr ⟨fadeUpd_group _ _, List.forall_mem_singleton.mpr (fadeUpd_event _)⟩⟩
  | watch m h traps stops =>
    simp only [matchFired]
    refine List.forall_mem_append.mpr ⟨fun u hu => ?_, ?_⟩
    · obtain ⟨i, _, hu⟩ := List.mem_flatMap.mp hu
      exact fadeUpd_watchOnce s m i u hu
    · split
      · exact List.forall_mem_nil _
      · exact List.forall_mem_singleton.mpr (fadeUpd_micro _ _)

theorem fadeUpd_drainMatches (t : TId) : ∀ (xs : List (BitVec 64 × Nat × Nat)) (s : State), ∀ u ∈ drainMatches t xs s, FadeUpd u
  | [], _ => List.forall_mem_nil _
  | (va, n, v) :: xs, s => by
    rw [drainMatches]
    refine List.forall_mem_append.mpr ⟨?_, fadeUpd_drainMatches t xs _⟩
    split
    · exact List.forall_mem_nil _
    · refine List.forall_mem_append.mpr ⟨fadeUpd_matchFired s t _, ?_⟩
      split
      · exact List.forall_mem_singleton.mpr (fadeUpd_thread _ _)
      · exact List.forall_mem_nil _

theorem fadeUpd_drainBuffer (s : State) (t : TId) : ∀ u ∈ drainBuffer s t, FadeUpd u := by
  simp only [drainBuffer]
  split
  · exact List.forall_mem_nil _
  · simp only [List.forall_mem_append]
    refine ⟨⟨⟨⟨⟨List.forall_mem_singleton.mpr (fadeUpd_beforeWrite _), fadeUpd_cleanLine s _ _⟩,
      List.forall_mem_cons.mpr ⟨fadeUpd_stores _, List.forall_mem_singleton.mpr (fadeUpd_thread _ _)⟩⟩, forall_mem_ite ?_ (List.forall_mem_nil _)⟩,
      fun u hu => ?_⟩, fadeUpd_drainMatches t _ _⟩
    · intro u hu
      obtain ⟨c, _, rfl⟩ := Option.map_eq_some_iff.mp (Option.mem_toList.mp hu)
      exact fadeUpd_copies _ Part.rdc
    · obtain ⟨i, _, hu⟩ := List.mem_flatMap.mp hu
      exact fadeUpd_copiesAfterWrite s _ _ _ _ u hu

end Sys2Proof.Machine
end

section
/-! The release of a team: O47. The word DONE is written after rows and histories may have been, so that its bytes are read back where the
homes are known to hold no more than sectors of 16 bytes. -/

open Sys2Proof Sys2Proof.Machine

namespace Sys2Proof.Machine

/-! ## Bytes written, read back -/

/-- The sectors that the homes hold have 16 bytes. -/
def Wide (s : State) : Prop := ∀ l ∈ s.part.l2, ∀ x ∈ l.secs, x.data.length = 16

theorem Wide.of_sectors {a b : State} (h : Wide a) (hs : ∀ l ∈ b.part.l2, ∃ m ∈ a.part.l2, ∀ x ∈ l.secs, x ∈ m.secs) : Wide b := by
  intro l hl x hx
  obtain ⟨m, hm, hlm⟩ := hs l hl
  exact h m hm x (hlm x hx)

theorem homeByte_writeSector {s : State} (h : Wide s) (s0 : State) (pa : Nat) (bs : List Byte) (hline : (s.l2Line? (pa / 128)).isSome = true)
    (hin : pa % 16 + bs.length ≤ 16) {k : Nat} (hk : pa ≤ k ∧ k < pa + bs.length) :
    homeByte ((writeSector s0 pa bs).apply s) k = bs.getD (k - pa) 0#8 := by
  obtain ⟨l, hl⟩ := Option.isSome_iff_exists.mp hline
  obtain ⟨hmem, hnum⟩ := mem_of_l2Line? hl
  have hl2 := writeSector_l2 s0 s pa bs
  generalize (writeSector s0 pa bs).apply s = s' at hl2 ⊢
  generalize hbase : s0.bytes (pa / 16 * 16) 16 = base at hl2
  have hfind : s'.l2Line? (pa / 128) = some (l.wrote pa s0.stamp base bs) := by
    have hp : ((fun m : L2Line => m.line == pa / 128) ∘ fun m => if m.line = pa / 128 then m.wrote pa s0.stamp base bs else m) =
        fun m => m.line == pa / 128 := by
      funext m
      simp only [Function.comp]
      split <;> rfl
    rw [State.l2Line?, hl2, List.find?_map, hp, ← State.l2Line?, hl, Option.map_some, if_pos hnum]
  have hold : (((l.sec? (pa / 16 % 8)).map Sector.data).getD base).length = 16 := by
    cases hx : l.sec? (pa / 16 % 8) with
    | none => rw [Option.map_none, Option.getD_none, ← hbase, bytes_length]
    | some x => exact h l hmem x (mem_of_sec? hx).1
  have hkl : k / 128 = pa / 128 := by omega
  have hki : k / 16 % 8 = pa / 16 % 8 := by omega
  have hsec : sectorOf s' k = some ⟨pa / 16 % 8, overlay (((l.sec? (pa / 16 % 8)).map Sector.data).getD base) (pa % 16) bs, true⟩ := by
    rw [sectorOf, hkl, hfind, hki]
    exact l.wrote_sec?_self pa s0.stamp base bs
  have hoff : k % 16 - pa % 16 = k - pa := by omega
  rw [homeByte_of_sector hsec, getD_overlay (by rw [hold]; exact hin), if_pos (by omega), hoff]

/-- Copies and records leave the bytes at home. -/
theorem homeByte_copies {us : List Upd} (s : State) (h : ∀ u ∈ us, CopyUpd u) (k : Nat) : homeByte (s.applyAll us) k = homeByte s k := by
  obtain ⟨hm, hl⟩ := updates_rel (fun a b => b.mem = a.mem ∧ b.part.l2 = a.part.l2) (fun _ => ⟨rfl, rfl⟩)
    (fun _ _ _ h g => ⟨g.1.trans h.1, g.2.trans h.2⟩) us s fun u hu a => (h u hu a).2
  simp only [homeByte, State.l2Line?, State.byte, hm, hl]

/-- Room for a new line keeps the sectors' width. -/
theorem Wide.allocated {s : State} (h : Wide s) (s0 : State) (p : Page) (ctx : Nat) {room : List Upd}
    (hroom : room = [] ∨ ∃ v ∈ s.part.l2, room = v.writeBack ++ [dropLine v.line]) : Wide (s.applyAll (room ++ [newLine s0 p ctx])) := by
  have hbefore : Wide (s.applyAll room) := by
    rcases hroom with rfl | ⟨v, _, rfl⟩
    · exact h
    · refine h.of_sectors fun l hl => ⟨l, ?_, fun _ hx => hx⟩
      rw [evict_l2] at hl
      exact (List.mem_filter.mp hl).1
  rw [applyAll_append, applyAll_cons, applyAll_nil]
  unfold Wide
  rw [newLine_l2]
  exact List.forall_mem_cons.mpr ⟨List.forall_mem_nil _, hbefore⟩

theorem TakenIn.shows {s : State} {p : Page} {ctx : Nat} {bs : List Byte} {us : List Upd} (h : TakenIn s p ctx bs us)
    (hwf : Memory.wf s.mem = true) (hwide : Wide s) (a : Agent) (hin : p.pa % 16 + bs.length ≤ 16) {k : Nat}
    (hk : p.pa ≤ k ∧ k < p.pa + bs.length) :
    homeByte (s.applyAll (beforeWrite (p.pa / 128) :: (us ++ copiesAndOrder s a p.pa bs))) k = bs.getD (k - p.pa) 0#8 := by
  have hfind := beforeWrite_l2Line? s (p.pa / 128) (p.pa / 128)
  have hb : Wide ((beforeWrite (p.pa / 128)).apply s) := hwide.of_sectors (fadeUpd_beforeWrite _ s).sectors
  have hbwf : Memory.wf ((beforeWrite (p.pa / 128)).apply s).mem = true := hwf
  rw [applyAll_cons, applyAll_append, homeByte_copies _ (copyUpd_copiesAndOrder s a p.pa bs)]
  cases h with
  | held hline => exact homeByte_writeSector hb s p.pa bs (by rw [hfind, Option.isSome_map, hline]) hin hk
  | frame hno =>
    rw [applyAll_cons, applyAll_nil]
    have hline : k / 128 = p.pa / 128 := by omega
    have hnone : sectorOf ((Upd.store p.pa bs).apply ((beforeWrite (p.pa / 128)).apply s)) k = none := by
      rw [sectorOf, hline]
      change (((beforeWrite (p.pa / 128)).apply s).l2Line? (p.pa / 128)).bind _ = none
      rw [hfind, hno]
      rfl
    rw [homeByte_of_frame hnone, byte_store hbwf, if_pos hk]
  | comes hno hroom =>
    rw [applyAll_append]
    exact homeByte_writeSector (hb.allocated s p ctx (makeRoom_beforeWrite hno hroom)) s p.pa bs (newLine_isSome s _ p ctx _) hin hk

end Sys2Proof.Machine
end

section

/-! A team retires, and leaves: O47. -/

open Sys2Proof Sys2Proof.Machine

namespace Sys2Proof.Machine

/-- What a launch asks of its teams. -/
def Team.bond (x : Team) : Nat × Option Nat × Nat := (x.key, x.sup, x.launch)

/-- From `a` to `b` a team retires, or has retired: no command is left that was not, launches at most show progress, translations stay. -/
structure Retires (a b : State) : Prop where
  teams : b.teams.map Team.bond = a.teams.map Team.bond
  tlb : b.part.tlb = a.part.tlb
  ctxs : b.part.ctxs = a.part.ctxs
  pos : b.part.pos = a.part.pos
  bad : b.part.bad = a.part.bad
  works : ∀ j, b.part.ops.any (Op.works j) = true → a.part.ops.any (Op.works j) = true
  pushes : ∀ l, pushesDue b l = true → pushesDue a l = true
  launches : b.part.launches.map Launch.rest = a.part.launches.map Launch.rest
  sectors : ∀ l ∈ b.part.l2, ∃ m ∈ a.part.l2, ∀ x ∈ l.secs, x ∈ m.secs

theorem Retires.refl (a : State) : Retires a a := ⟨rfl, rfl, rfl, rfl, rfl, fun _ h => h, fun _ h => h, rfl, sectors_refl _⟩

theorem any_of_subset {α : Type} {p : α → Bool} {xs ys : List α} (h : ∀ x ∈ xs, x ∈ ys) (hp : xs.any p = true) : ys.any p = true := by
  obtain ⟨x, hx, hpx⟩ := List.any_eq_true.mp hp
  exact List.any_eq_true.mpr ⟨x, h x hx, hpx⟩

theorem Fades.retires {a b : State} (h : Fades a b) : Retires a b where
  teams := congrArg (List.map Team.bond) h.teams
  tlb := h.tlb
  ctxs := h.ctxs
  pos := h.pos
  bad := h.bad
  works := fun _ hj => any_of_subset h.ops hj
  pushes := fun _ hl => any_of_subset h.ops hl
  launches := h.launches
  sectors := h.sectors

theorem Retires.trans {a b c : State} (h : Retires a b) (g : Retires b c) : Retires a c where
  teams := g.teams.trans h.teams
  tlb := g.tlb.trans h.tlb
  ctxs := g.ctxs.trans h.ctxs
  pos := g.pos.trans h.pos
  bad := g.bad.trans h.bad
  works := fun j hj => h.works j (g.works j hj)
  pushes := fun l hl => h.pushes l (g.pushes l hl)
  launches := g.launches.trans h.launches
  sectors := fun l hl => by
    obtain ⟨m, hm, hlm⟩ := g.sectors l hl
    obtain ⟨n, hn, hmn⟩ := h.sectors m hm
    exact ⟨n, hn, fun x hx => hmn x (hlm x hx)⟩

theorem works_mapPlaces (j : Nat) (f : Place → Place) (o : Op) : Op.works j { o with job := o.job.mapPlaces f } = o.works j := by
  simp only [Op.works]
  cases o.job <;> rfl

/-- Is an operation a push of a launch still to be published (R414)? -/
def Op.pushes (l : Nat) (o : Op) : Bool := match o.job with
  | .qpush _ _ _ m _ => m == l
  | _ => false

theorem pushesDue_eq (s : State) (l : Nat) : pushesDue s l = s.part.ops.any (Op.pushes l) := rfl

theorem pushes_mapPlaces (l : Nat) (f : Place → Place) (o : Op) : Op.pushes l { o with job := o.job.mapPlaces f } = o.pushes l := by
  simp only [Op.pushes]
  cases o.job <;> rfl

/-- Operations of which some leave, and others lose their register write and have their places changed, have no property of their job that
none had. -/
theorem any_left {p : Op → Bool} {f : Place → Place} {q : Op → Bool} {k : Nat} (hmap : ∀ o, p { o with job := o.job.mapPlaces f } = p o)
    (hdlv : ∀ o, p { o with dlv := none } = p o) {ops : List Op}
    (h : (((ops.filter q).map fun o => if o.t.team = k then { o with dlv := none } else o).map
      fun o => { o with job := o.job.mapPlaces f }).any p = true) : ops.any p = true := by
  rw [List.any_map, List.any_map] at h
  obtain ⟨o, ho, hp⟩ := List.any_eq_true.mp h
  refine List.any_eq_true.mpr ⟨o, (List.mem_filter.mp ho).1, ?_⟩
  simp only [Function.comp, hmap] at hp
  split at hp
  · exact hdlv o ▸ hp
  · exact hp

/-- A team that has retired is told as such. -/
def Left (k : Nat) (s : State) : Prop := ∀ y, s.team? k = some y → y.res = .retired

/-- The last act of a retirement frees the claim. -/
theorem retireTeam_eq (k : Nat) : ∃ f : State → List Upd,
    retireTeam k = .seq (.read fun s => .each (fun x => .act fun s => drainBuffer s x.id) (s.teamThreads k))
      (.seq spoilRows (.seq (landSends k) (.seq (endChains k) (.seq (retireMember k) (.act f))))) ∧
    ∀ s, Retires s (s.applyAll (f s)) ∧ Left k (s.applyAll (f s)) := by
  refine ⟨_, rfl, fun s => ?_⟩
  rw [applyAll_append]
  have hmicro : ∀ u ∈ (s.teamGroups k).flatMap (fun g => match g.hosted with
      | some h => [Upd.micro h.m fun m => { m with slots := updAt m.slots h.slot.toNat fun _ => Slot.reset }]
      | none => []), FadeUpd u := by
    intro u hu
    obtain ⟨g, _, hu⟩ := List.mem_flatMap.mp hu
    split at hu
    · exact List.mem_singleton.mp hu ▸ fadeUpd_micro _ _
    · cases hu
  have hfree := (Fades.applyAll s hmicro).retires
  generalize s.applyAll ((s.teamGroups k).flatMap _) = b at hfree ⊢
  refine ⟨hfree.trans ⟨?_, rfl, rfl, rfl, rfl, fun j hj => ?_, fun l hl => ?_, rfl, sectors_refl _⟩, fun y hy => ?_⟩
  · refine (List.map_map ..).trans (List.map_congr_left fun x _ => ?_)
    simp only [Function.comp, mapTeam]
    split <;> rfl
  · exact any_left (works_mapPlaces j _) (fun _ => rfl) hj
  · exact any_left (pushes_mapPlaces l _) (fun _ => rfl) hl
  · obtain ⟨x, _, rfl⟩ := List.mem_map.mp (List.mem_of_find?_eq_some hy)
    have hkey : (mapTeam k (fun x => { x with res := .retired }) x).key = k := by simpa using List.find?_some hy
    have hk : x.key = k := by
      simp only [mapTeam] at hkey
      split at hkey <;> exact hkey
    rw [mapTeam, if_pos hk]

/-- A team that is in no collective group ends none. -/
theorem retireMember_run {k : Nat} {s : State} (h : ∀ g ∈ s.part.colls, ∀ m ∈ g.members, m.2.team ≠ k) : (retireMember k).run s = s := by
  have hnone : (s.part.colls.filter fun g => g.members.any fun m => m.2.team == k) = [] := by
    refine List.filter_eq_nil_iff.mpr fun g hg hany => ?_
    obtain ⟨m, hm, hk⟩ := List.any_eq_true.mp hany
    exact h g hg m hm (by simpa using hk)
  simp only [retireMember, run_read, hnone]
  rfl

theorem retireTeam_left (k : Nat) (s : State) : Left k ((retireTeam k).run s) := by
  obtain ⟨f, heq, hf⟩ := retireTeam_eq k
  rw [heq]
  exact (hf _).2

theorem retireTeam_retires {k : Nat} {s : State} (h : ∀ g ∈ s.part.colls, ∀ m ∈ g.members, m.2.team ≠ k) :
    Retires s ((retireTeam k).run s) := by
  obtain ⟨f, heq, hf⟩ := retireTeam_eq k
  have hdrain : FadeEff (.read fun s => .each (fun x => .act fun s => drainBuffer s x.id) (s.teamThreads k)) :=
    .read fun s => .each fun x _ => .act fun s => fadeUpd_drainBuffer s x.id
  have hpre := ((hdrain.seq spoilRows_fades).seq (landSends_fades k)).seq (endChains_fades k) s
  rw [heq]
  simp only [run_seq, run_act] at hpre ⊢
  rw [retireMember_run (by rw [hpre.colls]; exact h)]
  exact hpre.retires.trans (hf _).1

/-- The release of a team whose threads have all exited. -/
theorem release_run {x : Team} {s : State} (hx : s.team? x.key = some x) (hsup : x.sup = none)
    (hdead : ∀ y ∈ s.threads, y.id.team = x.key → y.live = false) :
    let later : Eff := .upds [.event (.teamRelease x.key)]
    exec (.teamRelease x.key) s = .next (if x.res = .retired then (Eff.seq (finishWork x.key) (leaveLaunch x.key x later)).run s
      else if releaseHeld s x.key then later.run s
      else (Eff.seq (finishWork x.key) (.seq (retireTeam x.key) (leaveLaunch x.key x later))).run s) := by
  have hlive : (s.teamThreads x.key).any Thread.live = false := by
    refine List.any_eq_false.mpr fun y hy => ?_
    obtain ⟨hy, hk⟩ := List.mem_filter.mp hy
    rw [hdead y hy (by simpa using hk)]
    decide
  have hexec : exec (.teamRelease x.key) s = execTeamRelease x.key s := rfl
  rw [hexec]
  simp only [execTeamRelease, Machine.run, run_read, hx, hsup, hlive, Option.isSome_none, Bool.or_self, Bool.false_eq_true, if_false]
  split
  · rfl
  · split <;> rfl

theorem finishWork_run {k : Nat} {s : State} (h : ∀ o ∈ s.part.ops, o.works k = false) : (finishWork k).run s = s := by
  have hnone : s.part.ops.filter (Op.works k) = [] := List.filter_eq_nil_iff.mpr fun o ho => by rw [h o ho]; decide
  simp only [finishWork, run_read, hnone]
  rfl

/-- A team without commands or collective groups has retired when it leaves its launch. -/
theorem release_leaves {x : Team} {s : State} (hx : s.team? x.key = some x) (hsup : x.sup = none)
    (hdead : ∀ y ∈ s.threads, y.id.team = x.key → y.live = false) (hheld : releaseHeld s x.key = false)
    (hworks : ∀ o ∈ s.part.ops, o.works x.key = false) (hcolls : ∀ g ∈ s.part.colls, ∀ m ∈ g.members, m.2.team ≠ x.key) :
    ∃ b, Retires s b ∧ (Memory.wf s.mem = true → Memory.wf b.mem = true) ∧
      exec (.teamRelease x.key) s = .next ((leaveLaunch x.key x (.upds [.event (.teamRelease x.key)])).run b) := by
  have hrun := release_run hx hsup hdead
  simp only [run_seq, finishWork_run hworks, hheld, Bool.false_eq_true, if_false] at hrun
  split at hrun
  · exact ⟨s, .refl s, id, hrun⟩
  · exact ⟨_, retireTeam_retires hcolls, run_mem_wf _ s, hrun⟩

/-- Does another launched team of a launch stay? -/
def othersStay (s : State) (k launch : Nat) : Bool := s.teams.any fun y => y.key != k && y.sup.isNone && y.launch == launch

theorem othersStay_of_bond {a b : State} (h : b.teams.map Team.bond = a.teams.map Team.bond) (k launch : Nat) :
    othersStay b k launch = othersStay a k launch := by
  have key (s : State) : othersStay s k launch = (s.teams.map Team.bond).any fun y => y.1 != k && y.2.1.isNone && y.2.2 == launch := by
    rw [List.any_map]
    rfl
  rw [key, key, h]

theorem Retires.launch? {a b : State} (h : Retires a b) (key : Nat) : (b.launch? key).map Launch.rest = (a.launch? key).map Launch.rest := by
  have look (s : State) : (s.launch? key).map Launch.rest = (s.part.launches.map Launch.rest).find? fun l => l.key == key := by
    rw [List.find?_map]
    rfl
  rw [look, look, h.launches]

/-- What of a launch does not follow its progress. -/
theorem Retires.launch_some {a b : State} (h : Retires a b) {key : Nat} {l : Launch} (hl : b.launch? key = some l) :
    ∃ m, a.launch? key = some m ∧ l = { m with progress := l.progress, stalled := l.stalled } := by
  have hmap := h.launch? key
  rw [hl, Option.map_some] at hmap
  obtain ⟨m, hm, hr⟩ := Option.map_eq_some_iff.mp hmap.symm
  refine ⟨m, hm, ?_⟩
  calc l = { l.rest with progress := l.progress, stalled := l.stalled } := rfl
    _ = { m with progress := l.progress, stalled := l.stalled } := by rw [← hr]; rfl

theorem dropTeam_gone (k : Nat) (b : State) : let s := (Upd.dropTeam k).apply b
    s.team? k = none ∧ (∀ y ∈ s.threads, y.id.team ≠ k) ∧ ∀ g ∈ s.groups, g.id.team ≠ k := by
  refine ⟨List.find?_eq_none.mpr fun y hy => ?_, fun y hy => ?_, fun g hg => ?_⟩
  · simpa using (List.mem_filter.mp hy).2
  · simpa using (List.mem_filter.mp hy).2
  · simpa using (List.mem_filter.mp hg).2

/-- A retired team without commands that is not the last of its launch leaves the part. -/
theorem leaveLaunch_drops {k : Nat} {x : Team} {later : Eff} {b : State} (hworks : b.part.ops.any (Op.works k) = false)
    (hmore : ∀ l, b.launch? x.launch = some l → l.next ≠ l.teams ∨ othersStay b k x.launch = true) :
    (leaveLaunch k x later).run b = (Upd.dropTeam k).apply b := by
  simp only [leaveLaunch, run_read, hworks, Bool.false_eq_true, if_false]
  cases hl : b.launch? x.launch with
  | none => rfl
  | some l =>
    have hlast : (l.next == l.teams && !othersStay b k x.launch) = false := by
      rcases hmore l hl with h | h
      · rw [beq_eq_false_iff_ne.mpr h, Bool.false_and]
      · rw [h, Bool.not_true, Bool.and_false]
    rw [othersStay] at hlast
    simp only [hlast, Bool.not_false, if_true]
    rfl

theorem Retires.no_works {a b : State} (h : Retires a b) {k : Nat} (ha : ∀ o ∈ a.part.ops, o.works k = false) :
    b.part.ops.any (Op.works k) = false := by
  refine Bool.eq_false_iff.mpr fun hb => ?_
  obtain ⟨o, ho, hw⟩ := List.any_eq_true.mp (h.works k hb)
  rw [ha o ho] at hw
  cases hw

/-- R44: the release of a team that is not the last of its launch takes it off the part. -/
theorem release_drops {x : Team} {s : State} (hx : s.team? x.key = some x) (hsup : x.sup = none)
    (hdead : ∀ y ∈ s.threads, y.id.team = x.key → y.live = false) (hheld : releaseHeld s x.key = false)
    (hworks : ∀ o ∈ s.part.ops, o.works x.key = false) (hcolls : ∀ g ∈ s.part.colls, ∀ m ∈ g.members, m.2.team ≠ x.key)
    (hmore : ∀ l, s.launch? x.launch = some l → l.next ≠ l.teams ∨ ∃ y ∈ s.teams, y.key ≠ x.key ∧ y.sup = none ∧ y.launch = x.launch) :
    ∃ s', exec (.teamRelease x.key) s = .next s' ∧ s'.team? x.key = none ∧ (∀ y ∈ s'.threads, y.id.team ≠ x.key) ∧
      (∀ g ∈ s'.groups, g.id.team ≠ x.key) ∧ (s'.launch? x.launch).isSome = (s.launch? x.launch).isSome := by
  obtain ⟨b, hb, -, hrun⟩ := release_leaves hx hsup hdead hheld hworks hcolls
  have hmoreB : ∀ l, b.launch? x.launch = some l → l.next ≠ l.teams ∨ othersStay b x.key x.launch = true := by
    intro l hl
    obtain ⟨m, hm, hr⟩ := hb.launch_some hl
    rw [hr, othersStay_of_bond hb.teams]
    refine (hmore m hm).imp_right fun ⟨y, hy, hk, hs, hl⟩ => List.any_eq_true.mpr ⟨y, hy, ?_⟩
    simp [hk, hs, hl]
  rw [leaveLaunch_drops (hb.no_works hworks) hmoreB] at hrun
  obtain ⟨hteam, hthreads, hgroups⟩ := dropTeam_gone x.key b
  refine ⟨_, hrun, hteam, hthreads, hgroups, ?_⟩
  have hsame := congrArg Option.isSome (hb.launch? x.launch)
  rw [Option.isSome_map, Option.isSome_map] at hsame
  exact hsame

/-! ## The last release of a launch -/

/-- A retired team without commands that is the last of a launch ends it, once its pushes are published. -/
theorem leaveLaunch_closes {k : Nat} {x : Team} {later : Eff} {b : State} {l : Launch} (hworks : b.part.ops.any (Op.works k) = false)
    (hl : b.launch? x.launch = some l) (hnext : l.next = l.teams) (hlast : othersStay b k x.launch = false)
    (hpushes : pushesDue b l.key = false) :
    (leaveLaunch k x later).run b = (closeLaunch l (doneValue 1 0 0)).run ((Upd.dropTeam k).apply b) := by
  rw [othersStay] at hlast
  simp only [leaveLaunch, run_read, hworks, hl, hnext, hlast, hpushes, Bool.false_eq_true, if_false, beq_self_eq_true, Bool.not_false,
    Bool.and_self, Bool.not_true]
  rfl

/-- R386: DONE is written where its page is in place. -/
theorem writeDone_writes {b : State} {l : Launch} {c : Ctx} {p : Page} {v : Nat} (hzero : l.done ≠ 0#64)
    (hlow : l.done.toNat < 0xFF000000000000) (hctx : b.ctx? l.ctx = some c)
    (hpage : pageFor b c hostIssuer true false .atomic l.done.toNat 8 = (.ok p, [])) (hplain : Plain (.page p)) (hdet : l.kern.det = false) :
    writeDone b l v = ctxWrite b l.ctx p.home p (leBytes 8 v) := by
  have hcan : sideCan .atom 8 (.page p) 0 = true := by simp [sideCan, pointOf, hplain.1]
  simp only [writeDone, hctx, hpage, hcan, hdet, hzero, if_false, Bool.false_and, Bool.not_true, Bool.or_self, Bool.false_eq_true,
    List.nil_append]
  rw [if_neg (by omega), if_neg (by omega)]
  cases ctxWrite b l.ctx p.home p (leBytes 8 v) <;> rfl

theorem homeBytes_eq {s : State} : ∀ {bs : List Byte} {pa : Nat}, (∀ k, pa ≤ k ∧ k < pa + bs.length → homeByte s k = bs.getD (k - pa) 0#8) →
    homeBytes s pa bs.length = bs
  | [], _, _ => rfl
  | y :: ys, pa, h => by
    have hhead : homeByte s pa = y := by
      have := h pa ⟨Nat.le_refl _, Nat.lt_add_of_pos_right (Nat.succ_pos _)⟩
      rwa [Nat.sub_self] at this
    have htail : homeBytes s (pa + 1) ys.length = ys := homeBytes_eq fun k hk => by
      have := h k ⟨by omega, by rw [List.length_cons]; omega⟩
      rwa [show k - pa = k - (pa + 1) + 1 by omega, List.getD_cons_succ] at this
    rw [List.length_cons, homeBytes, hhead, htail]

/-- The agent of the part that writes for a context at a die. -/
def ctxAgent (ctx die : Nat) : Agent := ⟨0, none, die, linkIssuer, false, false, linkIssuer, ctx, false, []⟩

theorem ctxWrite_eq (s : State) (ctx die : Nat) (p : Page) (bs : List Byte) :
    ctxWrite s ctx die p bs = writePlace s (ctxAgent ctx die) (.page p) bs 0 := rfl

/-- A launch that is over writes its word, and is no more. -/
theorem closeLaunch_shows {b : State} {l : Launch} {c : Ctx} {p : Page} {v : Nat} (hwf : Memory.wf b.mem = true) (hwide : Wide b)
    (hzero : l.done ≠ 0#64) (hlow : l.done.toNat < 0xFF000000000000) (height : l.done.toNat % 8 = 0) (hhost : l.host = 0)
    (hctx : b.ctx? l.ctx = some c) (hpage : pageFor b c hostIssuer true false .atomic l.done.toNat 8 = (.ok p, []))
    (hplain : Plain (.page p)) (hdet : l.kern.det = false) :
    let s' := (closeLaunch l v).run b
    s'.teams = b.teams ∧ s'.launch? l.key = none ∧ homeBytes s' p.pa 8 = leBytes 8 v := by
  have hoff := pageBut_offset hpage
  have hin : p.pa % 16 + (leBytes 8 v).length ≤ 16 := by rw [leBytes_length]; omega
  obtain ⟨us, hus, hw⟩ := writePlace_takenIn b (ctxAgent l.ctx p.home) hplain.1 hplain.2.1
    (leBytes 8 v)
  have hshows := @TakenIn.shows _ _ _ _ _ hus hwf hwide (ctxAgent l.ctx p.home) hin
  have hsame := hus.sameButHomes (ctxAgent l.ctx p.home)
  have hdone := writeDone_writes (v := v) hzero hlow hctx hpage hplain hdet
  rw [ctxWrite_eq, hw] at hdone
  simp only [closeLaunch, run_read, hdone, run_seq, run_upds, hhost, true_or, if_true, applyAll_nil]
  generalize b.applyAll (beforeWrite (p.pa / 128) :: _) = a at hshows hsame
  have hteams : a.teams = b.teams := congrArg (fun x => x.teams) hsame
  refine ⟨hteams, List.find?_eq_none.mpr fun m hm => ?_, ?_⟩
  · simpa using (List.mem_filter.mp hm).2
  · have := homeBytes_eq (s := a) (bs := leBytes 8 v) fun k hk => hshows hk
    rw [leBytes_length] at this
    exact this

/-- R386: the release of the last team of a launch ends the launch and writes END 1 to its completion word. -/
theorem release_closes {x : Team} {l : Launch} {c : Ctx} {p : Page} {s : State} (hx : s.team? x.key = some x) (hsup : x.sup = none)
    (hdead : ∀ y ∈ s.threads, y.id.team = x.key → y.live = false) (hheld : releaseHeld s x.key = false)
    (hworks : ∀ o ∈ s.part.ops, o.works x.key = false) (hl : s.launch? x.launch = some l) (hnext : l.next = l.teams)
    (hpushes : pushesDue s l.key = false) (hlast : ∀ y ∈ s.teams, y.key ≠ x.key → y.sup = none → y.launch ≠ x.launch)
    (hzero : l.done ≠ 0#64) (hlow : l.done.toNat < 0xFF000000000000) (height : l.done.toNat % 8 = 0) (hhost : l.host = 0)
    (hctx : s.ctx? l.ctx = some c) (hpage : pageFor s c hostIssuer true false .atomic l.done.toNat 8 = (.ok p, []))
    (hplain : Plain (.page p)) (hdet : l.kern.det = false) (hcolls : s.part.colls = []) (hset : Settled s) :
    ∃ s', exec (.teamRelease x.key) s = .next s' ∧ s'.team? x.key = none ∧ s'.launch? l.key = none ∧ homeBytes s' p.pa 8 = leBytes 8 1 := by
  obtain ⟨b, hb, hwf, hrun⟩ := release_leaves hx hsup hdead hheld hworks (by rw [hcolls]; exact List.forall_mem_nil _)
  obtain ⟨m, hm⟩ := Option.isSome_iff_exists.mp (show (b.launch? x.launch).isSome = true by
    rw [← Option.isSome_map (f := Launch.rest), hb.launch? x.launch, hl]
    rfl)
  obtain ⟨l', hl', hml⟩ := hb.launch_some hm
  obtain rfl : l = l' := Option.some.inj (hl.symm.trans hl')
  have hlastB : othersStay b x.key x.launch = false := by
    rw [othersStay_of_bond hb.teams]
    refine List.any_eq_false.mpr fun y hy hstays => ?_
    simp only [Bool.and_eq_true, bne_iff_ne, Option.isNone_iff_eq_none, beq_iff_eq] at hstays
    obtain ⟨⟨hk, hs⟩, hlaunch⟩ := hstays
    exact hlast y hy hk hs hlaunch
  have hpushesB : pushesDue b l.key = false := Bool.eq_false_iff.mpr fun h => by
    rw [hb.pushes l.key h] at hpushes
    cases hpushes
  have hctxB : b.ctx? l.ctx = some c := by rw [← hctx, State.ctx?, State.ctx?, hb.ctxs]
  have hwide : Wide b := Wide.of_sectors (fun l hl x hx => (hset.sixteen l hl x hx).2) hb.sectors
  have hpageB := pageFor_of_parts hb.tlb hb.pos hb.bad hpage
  have hone : doneValue 1 0 0 = 1 := rfl
  rw [leaveLaunch_closes (hb.no_works hworks) hm (by rw [hml]; exact hnext) hlastB (by rw [hml]; exact hpushesB), hone] at hrun
  have hpart : ((Upd.dropTeam x.key).apply b).part = b.part := rfl
  have hpageD : pageFor ((Upd.dropTeam x.key).apply b) c hostIssuer true false .atomic l.done.toNat 8 = (.ok p, []) :=
    pageFor_of_parts (congrArg Part.tlb hpart) (congrArg Part.pos hpart) (congrArg Part.bad hpart) hpageB
  have hclose := @closeLaunch_shows ((Upd.dropTeam x.key).apply b) m c p 1 (hwf hset.safe.mem) hwide
  rw [hml] at hclose hrun
  obtain ⟨hteams, hgone, hbytes⟩ := hclose hzero hlow height hhost hctxB hpageD hplain hdet
  refine ⟨_, hrun, ?_, hgone, hbytes⟩
  rw [State.team?, hteams]
  exact (dropTeam_gone x.key b).1

end Sys2Proof.Machine
end

section
/-! Writes of engines and commands change no team but the bytes of a saved scratchpad (R42): what a team is in does not depend on them. -/

open Sys2Proof Sys2Proof.Machine

namespace Sys2Proof.Machine

/-! ## Updates of no team -/

/-- An update of no team. -/
def Upd.sparesTeams : Upd → Bool
  | .team _ _ | .addTeam _ _ _ | .dropTeam _ => false
  | _ => true

/-- Updates of no team. -/
def SpareTeams (us : List Upd) : Prop := ∀ u ∈ us, u.sparesTeams = true

theorem apply_sparesTeams {u : Upd} (s : State) (h : u.sparesTeams = true) : (u.apply s).teams = s.teams := by
  cases u with
  | team | addTeam | dropTeam => cases h
  | _ => rfl

theorem SpareTeams.teams {us : List Upd} (h : SpareTeams us) (s : State) : (s.applyAll us).teams = s.teams :=
  updates_rel (fun a b => b.teams = a.teams) (fun _ => rfl) (fun _ _ _ h g => g.trans h) us s fun u hu a => apply_sparesTeams a (h u hu)

theorem SpareTeams.nil : SpareTeams [] := List.forall_mem_nil _
theorem SpareTeams.cons {u : Upd} {us : List Upd} (hu : u.sparesTeams = true) (h : SpareTeams us) : SpareTeams (u :: us) :=
  List.forall_mem_cons.mpr ⟨hu, h⟩
theorem SpareTeams.one {u : Upd} (hu : u.sparesTeams = true) : SpareTeams [u] := .cons hu .nil
theorem SpareTeams.append {us vs : List Upd} (h : SpareTeams us) (g : SpareTeams vs) : SpareTeams (us ++ vs) :=
  List.forall_mem_append.mpr ⟨h, g⟩
theorem SpareTeams.ite {c : Prop} [Decidable c] {us vs : List Upd} (h : SpareTeams us) (g : SpareTeams vs) :
    SpareTeams (if c then us else vs) := forall_mem_ite h g
theorem SpareTeams.map {α : Type} {f : α → Upd} (l : List α) (h : ∀ x, (f x).sparesTeams = true) : SpareTeams (l.map f) := fun u hu => by
  obtain ⟨x, _, rfl⟩ := List.mem_map.mp hu
  exact h x
theorem SpareTeams.flatMap {α : Type} {f : α → List Upd} (l : List α) (h : ∀ x, SpareTeams (f x)) : SpareTeams (l.flatMap f) := fun u hu => by
  obtain ⟨x, _, hu⟩ := List.mem_flatMap.mp hu
  exact h x u hu

/-! ## Registers -/

theorem selectRatio_spares (s : State) (c : Nat) (r : BitVec 2) : SpareTeams (selectRatio s c r) := .ite .nil (.cons rfl (.one rfl))

theorem applyCeil_spares (s : State) (c : Nat) (auto : Bool) (ceil : BitVec 2) : SpareTeams (applyCeil s c auto ceil) :=
  .ite (selectRatio_spares _ _ _) (.ite (selectRatio_spares _ _ _) (.ite (selectRatio_spares _ _ _) .nil))

theorem mailboxWrite_spares (s : State) (i off : Nat) (v : Word) : SpareTeams (mailboxWrite s i off v) := by
  unfold mailboxWrite
  split
  · exact .ite .nil (.append (.one rfl) (.ite (.one rfl) .nil))
  · exact .one rfl
  · exact .one rfl
  · exact .one rfl
  · exact .nil

theorem hostWrite_spares (s : State) (m h : Nat) (v : Word) : SpareTeams (hostWrite s m h v) := by
  refine .append (.one rfl) (.ite ?_ .nil)
  unfold stepHosted
  split
  · exact .nil
  · exact .map _ fun _ => rfl

theorem debugWrite_spares (s : State) (m off : Nat) (v : Word) : SpareTeams (debugWrite s m off v) := by
  unfold debugWrite
  split
  · exact .one rfl
  · exact .one rfl
  · exact hostWrite_spares _ _ _ _
  · exact hostWrite_spares _ _ _ _
  · exact .ite (.one rfl) .nil

theorem dieWrite_spares (s : State) (d off : Nat) (v : Word) : SpareTeams (dieWrite s d off v) :=
  .ite (.one rfl) <| .ite (.ite (.cons rfl (applyCeil_spares _ _ _ _)) .nil) <| .ite (mailboxWrite_spares _ _ _ _) <|
    .ite (.ite (.append (.one rfl) (.ite .nil (.one rfl))) .nil) .nil

theorem sysWriteBytes_spares (s : State) (pa : Nat) (bs : List Byte) : SpareTeams (sysWriteBytes s pa bs) :=
  .flatMap _ fun _ => .ite (debugWrite_spares _ _ _ _) (.ite (dieWrite_spares _ _ _ _) .nil)

/-! ## Writes -/

theorem cleanLine_spares (s : State) (line : Nat) (secs : List Nat) : SpareTeams (cleanLine s line secs) := by
  unfold cleanLine
  split
  · exact .nil
  · exact .append (.map _ fun _ => rfl) (.ite (.one rfl) (.one rfl))

theorem sideWrite_spares (s : State) (a : Agent) (pa : Nat) (bs : List Byte) : SpareTeams (sideWrite s a pa bs) := by
  unfold sideWrite
  split
  · exact .ite .nil (sysWriteBytes_spares s pa bs)
  · exact .append (cleanLine_spares s _ _) (.one rfl)

theorem copiesAfterWrite_spares (s : State) (a : Agent) (cp pa : Nat) (bs : List Byte) : SpareTeams (copiesAfterWrite s a cp pa bs) := by
  unfold copiesAfterWrite
  refine .append (.append ?_ (.one rfl)) (.map _ fun _ => rfl)
  split
  · exact .nil
  · exact .one rfl

theorem orderAfterWrite_spares (s : State) (a : Agent) (pa : Nat) : SpareTeams (orderAfterWrite s a pa) := .ite (.one rfl) .nil

theorem writeBack_spares (l : L2Line) : SpareTeams l.writeBack := fun u hu => by
  obtain ⟨x, _, hx⟩ := List.mem_filterMap.mp hu
  split at hx
  · exact Option.some.inj hx ▸ rfl
  · cases hx

theorem makeRoom_spares {s : State} {die line : Nat} {us : List Upd} (h : makeRoom s die line = some us) : SpareTeams us := by
  rcases makeRoom_eq h with rfl | ⟨v, _, rfl⟩
  · exact .nil
  · exact .append (writeBack_spares v) (.one rfl)

theorem room_spares {s : State} {p : Page} {ctx : Nat} {us : List Upd}
    (h : (makeRoom s p.home (p.pa / 128)).map (fun us => us ++ [newLine s p ctx]) = some us) : SpareTeams us := by
  obtain ⟨room, hroom, rfl⟩ := Option.map_eq_some_iff.mp h
  exact .append (makeRoom_spares hroom) (.one rfl)

theorem allocate_spares {s : State} {p : Page} {ctx : Nat} {us : List Upd} (h : allocate s p ctx = .ok (some us)) : SpareTeams us := by
  simp only [allocate] at h
  split at h
  · exact Option.some.inj (Except.ok.inj h) ▸ .nil
  · split at h
    · exact room_spares (Except.ok.inj h)
    · split at h
      · split at h
        · cases h
        · exact room_spares (Except.ok.inj h)
      · split at h
        · cases h
        · split at h
          · cases h
          · split at h
            · exact room_spares (Except.ok.inj h)
            · split at h
              · split at h
                · exact Option.some.inj (Except.ok.inj h) ▸ .append (.cons rfl (.cons rfl (.map _ fun _ => rfl))) (.one rfl)
                · cases h
              · cases h

theorem writePlace_spares {s : State} {a : Agent} {pl : Place} {bs : List Byte} {cp : Nat} {us : List Upd}
    (h : writePlace s a pl bs cp = .ok us) : SpareTeams us := by
  cases pl with
  | scr core off => exact Except.ok.inj h ▸ .cons rfl (.ite (.one rfl) .nil)
  | tib off => exact Except.ok.inj h ▸ .nil
  | page p =>
    simp only [writePlace] at h
    have hafter (cp : Nat) := (copiesAfterWrite_spares s a cp p.pa bs)
    have horder := orderAfterWrite_spares s a p.pa
    split at h
    · exact Except.ok.inj h ▸ .append (.append (.append (.one rfl) (sideWrite_spares s a _ _)) (hafter _)) horder
    · split at h
      · cases h
      · exact Except.ok.inj h ▸ .append (.append (.cons rfl (.one rfl)) (hafter _)) horder
      · next halloc =>
        exact Except.ok.inj h ▸ .append (.append (.append (.append (.one rfl) (allocate_spares halloc)) (.one rfl)) (hafter _)) horder

end Sys2Proof.Machine
end

section
/-! What is left of a retired team's commands is done with the team retired still: O47. -/

open Sys2Proof Sys2Proof.Machine

namespace Sys2Proof.Machine

theorem countRead_spares (s : State) (a : Agent) (p : Page) : SpareTeams (countRead s a p) := .ite .nil (.one rfl)

theorem usedPlaces_spares (s : State) (a : Agent) (pls : List Place) : SpareTeams (usedPlaces s a pls) :=
  .append (.append (.append (.ite (.one rfl) .nil) (.ite (.one rfl) .nil)) (.flatMap _ fun _ => cleanLine_spares s _ _))
    (.ite .nil (.cons rfl (.flatMap _ fun _ => countRead_spares s a _)))

theorem readRows_spares (t : TId) (k ci : Nat) : ∀ (n row : Nat) (s : State), SpareTeams (readRows t k ci row n s).2
  | 0, _, _ => .nil
  | n + 1, row, s => by
    refine .append ?_ (readRows_spares t k ci n _ _)
    unfold readRow
    split
    · exact .one rfl
    · exact .nil

/-! ## Where teams stand -/

/-- Every team stands where it stood. -/
def SameRes (a b : State) : Prop := ∀ k, (b.team? k).map Team.res = (a.team? k).map Team.res

theorem SameRes.refl (a : State) : SameRes a a := fun _ => rfl
theorem SameRes.trans {a b c : State} (h : SameRes a b) (g : SameRes b c) : SameRes a c := fun k => (g k).trans (h k)
theorem SameRes.of_teams {a b : State} (h : b.teams = a.teams) : SameRes a b := fun k => by rw [State.team?, State.team?, h]

theorem SameRes.left {k : Nat} {a b : State} (h : SameRes a b) (hl : Left k a) : Left k b := by
  intro y hy
  have hk := h k
  rw [hy, Option.map_some] at hk
  obtain ⟨x, hx, hr⟩ := Option.map_eq_some_iff.mp hk.symm
  exact hr ▸ hl x hx

/-- A team changes, but not where it stands. -/
theorem SameRes.team (s : State) (k : Nat) {f : Team → Team} (hf : ∀ x, (f x).res = x.res) : SameRes s ((Upd.team k f).apply s) := fun j => by
  rw [team?_apply_team, Option.map_map]
  congr 1
  funext x
  simp only [Function.comp, mapTeam]
  split
  · exact hf x
  · rfl

/-- An effect that leaves every team where it stands. -/
def KeepsRes (e : Eff) : Prop := ∀ s, SameRes s (e.run s)

theorem FadeEff.keepsRes {e : Eff} (h : FadeEff e) : KeepsRes e := fun s => .of_teams (h s).teams
theorem KeepsRes.nothing : KeepsRes .nothing := .refl
theorem KeepsRes.seq {e f : Eff} (he : KeepsRes e) (hf : KeepsRes f) : KeepsRes (.seq e f) := fun s => (he s).trans (hf _)
theorem KeepsRes.read {f : State → Eff} (h : ∀ s, KeepsRes (f s)) : KeepsRes (.read f) := fun s => h s s
theorem KeepsRes.act {f : State → List Upd} (h : ∀ s, SpareTeams (f s)) : KeepsRes (.act f) := fun s => .of_teams ((h s).teams s)
theorem KeepsRes.upds {us : List Upd} (h : SpareTeams us) : KeepsRes (.upds us) := fun s => .of_teams (h.teams s)
theorem KeepsRes.ite {c : Prop} [Decidable c] {e f : Eff} (he : KeepsRes e) (hf : KeepsRes f) : KeepsRes (if c then e else f) := by
  split
  · exact he
  · exact hf
theorem KeepsRes.each {α : Type} {f : α → Eff} {l : List α} (h : ∀ x, KeepsRes (f x)) : KeepsRes (.each f l) := fun s =>
  each_rel SameRes .refl (fun _ _ _ => .trans) f l s fun x _ a => h x a

/-! ## Commands under way -/

theorem writeAt_keeps (a : Agent) (x : Place × List Byte) : KeepsRes (writeAt a x) := .act fun s => by
  split
  · next h => exact writePlace_spares h
  · exact .nil

theorem movePieces_keeps (a : Agent) : ∀ (ps : List BoxPiece) (before : List Nat) (i : Nat), KeepsRes (movePieces a ps before i)
  | [], _, _ => .nothing
  | _ :: ps, _, i => .seq (.read fun _ => .ite .nothing (writeAt_keeps a _)) (movePieces_keeps a ps _ (i + 1))

theorem move_keeps (j : CopyJob) (a : Agent) (r : Nat) : KeepsRes (j.move a r) := .read fun s =>
  .seq (.upds (usedPlaces_spares s a _)) (.seq (movePieces_keeps a _ _ _) (.upds (.one rfl)))

/-- A counter's add leaves teams where they stand, also one whose saved scratchpad takes it (R42). -/
theorem addCounter_keeps {s : State} {a : Agent} {pl : Place} {inc : Nat} {us : List Upd} (h : addCounter s a pl inc = .ok us) :
    KeepsRes (.upds us) := by
  unfold addCounter at h
  split at h
  · exact Except.ok.inj h ▸ fun b => .team b _ fun _ => rfl
  · exact .upds (writePlace_spares h)

theorem copyTurn_keeps (op : Nat) : KeepsRes (copyTurn op) := .read fun s => by
  split
  · exact .nothing
  · split
    · refine .ite .nothing (.ite ?_ ?_)
      · split
        · exact .upds (.one rfl)
        · exact .seq (move_keeps _ _ _) (.upds (.cons rfl (.one rfl)))
      · split
        · exact .upds (.one rfl)
        · next h => exact .seq (addCounter_keeps h) (completeOp_fades op).keepsRes
    · exact .nothing

theorem moveAccld_keeps (t : TId) (j : AccJob) : KeepsRes (moveAccld t j) := by
  refine .seq spoilRows_fades.keepsRes (.seq (.act fun s => ?_) spoilRows_fades.keepsRes)
  refine .append (.append (.append (.cons rfl (.one rfl)) fun u hu => ?_) (usedPlaces_spares s _ _)) (.one rfl)
  obtain ⟨i, _, rfl⟩ := List.mem_mapIdx.mp hu
  rfl

theorem moveAccst_keeps (op : Nat) (t : TId) (j : AccJob) : KeepsRes (moveAccst op t j) :=
  .seq spoilRows_fades.keepsRes <| .read fun _ => .seq (.upds (readRows_spares _ _ _ _ _ _)) <| .read fun _ =>
    .seq (.each fun x => writeAt_keeps _ x) (.upds (.cons rfl (.one rfl)))

theorem moveAcc_keeps (o : Op) : KeepsRes (moveAcc o) := by
  unfold moveAcc
  split
  · exact moveAccld_keeps _ _
  · exact moveAccst_keeps _ _ _
  · exact .nothing

theorem statusTurn_keeps (o : Op) (pl : Place) (v : Nat) {later : Eff} (hl : KeepsRes later) : KeepsRes (statusTurn o pl v later) :=
  .read fun s => by
    refine .ite hl ?_
    split
    · exact .seq (.upds (.one rfl)) hl
    · next h =>
      exact .seq (.upds (writePlace_spares h)) (.seq (FadeEff.act fun s => fadeUpd_acquire s o.t).keepsRes (completeOp_fades o.id).keepsRes)

theorem finishWork_keeps (k : Nat) : KeepsRes (finishWork k) := .read fun s => .each fun o => by
  split
  · exact .each fun _ => copyTurn_keeps _
  · exact statusTurn_keeps _ _ _ .nothing
  · exact .read fun _ => .ite .nothing (.seq (moveAcc_keeps o) (completeOp_fades o.id).keepsRes)

/-! ## The end of a launch -/

theorem pageFor_spares {s : State} {c : Ctx} {issuer : Nat} {user vetted : Bool} {k : AccessKind} {va n : Nat} {r : Except Nat Page}
    {us : List Upd} (h : pageFor s c issuer user vetted k va n = (r, us)) : SpareTeams us := by
  have hleaf : SpareTeams (leafFor s c issuer va).2 := by
    unfold leafFor
    split
    · exact .nil
    · split
      · exact .nil
      · exact .one rfl
  have hjudge (x : Nat × Nat) (us : List Upd) : (pageBut.judge (fun _ => false) s user vetted k va n x us).2 = us := by
    simp only [pageBut.judge]
    split
    · rfl
    · split
      · rfl
      · split <;> rfl
  simp only [pageFor, pageBut, keptLeaf, List.find?_nil, Option.map_none] at h
  split at h
  · next heq =>
    rw [heq] at hleaf
    exact (Prod.mk.inj h).2 ▸ hleaf
  · next heq =>
    rw [heq] at hleaf
    have hus : _ = us := (hjudge _ _).symm.trans (congrArg Prod.snd h)
    exact hus ▸ hleaf

theorem writeDone_spares {s : State} {l : Launch} {v : Nat} {us : List Upd} (h : writeDone s l v = .ok us) : SpareTeams us := by
  simp only [writeDone] at h
  split at h
  · exact Except.ok.inj h ▸ .nil
  · split at h
    · exact Except.ok.inj h ▸ .one rfl
    · split at h
      · exact Except.ok.inj h ▸ .one rfl
      · split at h
        · exact Except.ok.inj h ▸ .one rfl
        · split at h
          · exact Except.ok.inj h ▸ .one rfl
          · next hpage =>
            split at h
            · exact Except.ok.inj h ▸ .one rfl
            · cases hw : ctxWrite s l.ctx _ _ (leBytes 8 v) with
              | error w => rw [hw] at h; cases h
              | ok vs =>
                rw [hw] at h
                exact Except.ok.inj h ▸ .append (pageFor_spares hpage) (writePlace_spares hw)

theorem closeLaunch_keeps (l : Launch) (v : Nat) : KeepsRes (closeLaunch l v) := .read fun s => by
  split
  · exact .upds (.cons rfl (.one rfl))
  · next h => exact .seq (.upds (writeDone_spares h)) (.seq (.upds (.ite .nil (.one rfl))) (.upds (.one rfl)))

/-! ## The release -/

/-- A retired team leaves, or waits for its commands as a retired team, its release owed. -/
theorem leaveLaunch_shows {k : Nat} {x : Team} {b : State} (h : Left k b) :
    let s' := (leaveLaunch k x (.upds [.event (.teamRelease k)])).run b
    ∀ y, s'.team? k = some y → y.res = .retired ∧ Instr.teamRelease k ∈ s'.events := by
  have howed : ∀ y, ((Upd.event (.teamRelease k)).apply b).team? k = some y →
      y.res = .retired ∧ Instr.teamRelease k ∈ ((Upd.event (.teamRelease k)).apply b).events := fun y hy =>
    ⟨h y hy, List.mem_append_right _ List.mem_cons_self⟩
  have hgone : ((Upd.dropTeam k).apply b).team? k = none := (dropTeam_gone k b).1
  have hdropped : ∀ y, ((Upd.dropTeam k).apply b).team? k = some y →
      y.res = .retired ∧ Instr.teamRelease k ∈ ((Upd.dropTeam k).apply b).events := fun y hy => by
    rw [hgone] at hy
    cases hy
  simp only [leaveLaunch, run_read]
  split
  · exact howed
  · split
    · exact hdropped
    · next l _ =>
      split
      · exact hdropped
      · split
        · exact howed
        · intro y hy
          have hnone := closeLaunch_keeps l (doneValue 1 0 0) ((Upd.dropTeam k).apply b) k
          rw [hgone, Option.map_none, Option.map_eq_none_iff] at hnone
          have hy' : ((closeLaunch l (doneValue 1 0 0)).run ((Upd.dropTeam k).apply b)).team? k = some y := hy
          rw [hnone] at hy'
          cases hy'

end Sys2Proof.Machine
end

section
/-! The end of launches: O47. -/

open Sys2Proof Sys2Proof.Machine

namespace Sys2Proof.Machine

theorem launch?_apply_launch (s : State) (key : Nat) {f : Launch → Launch} (hf : ∀ l, (f l).key = l.key) :
    ((Upd.launch key f).apply s).launch? key = (s.launch? key).map f := by
  have hp : ((fun l : Launch => l.key == key) ∘ fun l => if l.key = key then f l else l) = fun l => l.key == key := by
    funext l
    simp only [Function.comp]
    split
    · rw [hf]
    · rfl
  have hfind : ((Upd.launch key f).apply s).launch? key = (s.launch? key).map fun l => if l.key = key then f l else l := by
    have hlaunches : ((Upd.launch key f).apply s).part.launches = s.part.launches.map fun l => if l.key = key then f l else l := rfl
    rw [State.launch?, State.launch?, hlaunches, List.find?_map, hp]
  rw [hfind]
  cases hl : s.launch? key with
  | none => rfl
  | some l =>
    have hkey : l.key = key := by simpa using List.find?_some hl
    rw [Option.map_some, Option.map_some, if_pos hkey]

theorem mem_reports_report (s : State) (r : Report) : r ∈ ((Upd.report r).apply s).part.reports := by
  have hreports : ((Upd.report r).apply s).part.reports = if s.part.reports.contains r then s.part.reports else s.part.reports ++ [r] := rfl
  rw [hreports]
  split
  · next h => exact List.contains_iff_mem.mp h
  · exact List.mem_append_right _ List.mem_cons_self

/-- R38, R273: a live launch without progress for the period is told as stalled, once. -/
theorem launchWatchdog_shows {l : Launch} {s : State} (hl : s.launch? l.key = some l) (hfin : l.fin = none) :
    ∃ s', exec (.launchWatchdog l.key) s = .next s' ∧ Instr.launchWatchdog l.key ∈ s'.events ∧
      (l.progress + Config.watchdog ≤ s.time → l.stalled = false →
        (s'.launch? l.key).map Launch.stalled = some true ∧ Report.stalled l.key ∈ s'.part.reports) ∧
      (s.time < l.progress + Config.watchdog → s'.part = s.part) := by
  have hexec : exec (.launchWatchdog l.key) s = execLaunchWatchdog l.key s := rfl
  rw [hexec]
  simp only [execLaunchWatchdog, Machine.run, run_read, hl, hfin, run_upds, applyAll_append]
  refine ⟨_, rfl, List.mem_append_right _ List.mem_cons_self, fun hdue hstalled => ?_, fun hearly => ?_⟩
  · rw [if_pos ⟨hdue, hstalled⟩]
    refine ⟨?_, mem_reports_report _ _⟩
    have hmark := launch?_apply_launch s l.key (f := fun l => { l with stalled := true }) fun _ => rfl
    rw [hl] at hmark
    exact congrArg (Option.map Launch.stalled) hmark
  · rw [if_neg fun h => Nat.not_lt_of_le h.1 hearly]
    rfl

/-- R44: while deliveries hold the claim of a team that has not retired, its release is owed. -/
theorem release_held {x : Team} {s : State} (hx : s.team? x.key = some x) (hsup : x.sup = none)
    (hdead : ∀ y ∈ s.threads, y.id.team = x.key → y.live = false) (hheld : releaseHeld s x.key = true) (hres : x.res ≠ .retired) :
    ∃ s', exec (.teamRelease x.key) s = .next s' ∧ s'.team? x.key = some x ∧ Instr.teamRelease x.key ∈ s'.events := by
  have hrun := release_run hx hsup hdead
  simp only [hres, hheld, if_true, if_false] at hrun
  exact ⟨_, hrun, hx, List.mem_append_right _ List.mem_cons_self⟩

/-- R44: a team that no delivery holds retires at its release, and frees its place at once. -/
theorem release_retires {x : Team} {s : State} (hx : s.team? x.key = some x) (hsup : x.sup = none)
    (hdead : ∀ y ∈ s.threads, y.id.team = x.key → y.live = false) (hheld : releaseHeld s x.key = false) :
    ∃ s', exec (.teamRelease x.key) s = .next s' ∧
      ∀ y, s'.team? x.key = some y → y.res = .retired ∧ y.placed = false ∧ Instr.teamRelease x.key ∈ s'.events := by
  have hrun := release_run hx hsup hdead
  simp only [run_seq, hheld, Bool.false_eq_true, if_false] at hrun
  have hplaced (y : Team) (hy : y.res = .retired) : y.placed = false := by
    simp only [Team.placed, Team.here, hy, Bool.and_false]
  have hshows (b : State) (hb : Left x.key b) : ∀ y, ((leaveLaunch x.key x (.upds [.event (.teamRelease x.key)])).run b).team? x.key = some y →
      y.res = .retired ∧ y.placed = false ∧
        Instr.teamRelease x.key ∈ ((leaveLaunch x.key x (.upds [.event (.teamRelease x.key)])).run b).events := fun y hy => by
    obtain ⟨hres, howed⟩ := leaveLaunch_shows hb y hy
    exact ⟨hres, hplaced y hres, howed⟩
  split at hrun
  · next hres =>
    have hleft : Left x.key s := fun y hy => by
      obtain rfl : x = y := Option.some.inj (hx.symm.trans hy)
      exact hres
    exact ⟨_, hrun, hshows _ ((finishWork_keeps x.key s).left hleft)⟩
  · exact ⟨_, hrun, hshows _ (retireTeam_left x.key _)⟩

/-- Settles O47: before its claim is free a retiring team only lets operations and sectors go (`Fades`), so that its launch, its page of
DONE and the homes are as they were when it leaves; what is left of its commands keeps it retired (`KeepsRes`). -/
theorem launchEnds : Obligations.LaunchEnds := by
  refine ⟨?_, ?_, ?_, ?_, ?_⟩
  · exact fun x s hx hsup hdead hheld hworks hcolls hmore => release_drops hx hsup hdead hheld hworks hcolls hmore
  · exact fun x l c p s hx hsup hdead hheld hworks _ hl hnext hpushes hlast hzero hlow height hhost hctx hpage hplain hdet hcolls hset =>
      release_closes hx hsup hdead hheld hworks hl hnext hpushes hlast hzero hlow height hhost hctx hpage hplain hdet hcolls hset
  · exact fun x s hx hsup hdead hheld hres => release_held hx hsup hdead hheld hres
  · exact fun x s hx hsup hdead hheld => release_retires hx hsup hdead hheld
  · exact fun l s hl hfin => launchWatchdog_shows hl hfin

end Sys2Proof.Machine
end

section
/-! The encoding: O1, O2, O3. -/

open Sys2Proof Sys2Proof.Machine

namespace Sys2Proof.Laws.Encoding

/-- What each instruction's own lemma says, of every instruction. -/
theorem statement (i : Instr) : Statement i :=
  Instr.rec (motive := Statement)
    iadd isub imul imulhS imulhN imad iminS iminN imaxS imaxN iabs isel iadd2 isub2 imin2S imin2N imax2S imax2N maxd2 and or xor
    not shl shr sar rot bfxS bfxN bfi popc clz brev mov movgToG movgFromG iaddi andi ori xori cmpi movi moviX lea fadd fsub fmul
    ffma fmin fmax fdot2 fkey fclass fcvt frcp frsq fsqrt fexp2 flog2 fsin fcos cmpf hadd2F16 hadd2Bf16 hmul2F16 hmul2Bf16
    hfma2F16 hfma2Bf16 hmin2F16 hmin2Bf16 hmax2F16 hmax2Bf16 shfl shflx shflu shfld voteAny voteAll voteBallot redgAdd redgMin
    redgMax scangAdd scangMax matchLanes elect bra brx call ret ifp repeatN enrol join strike nop exit yield sleep sleepu
    sleepuCounter ld ldOffset st stOffset lda ldaScope stl stlScope ldmc pref prefOffset atom atomExt red redExt atomk atomkExt
    fence discard flushl invl ptest bari bara barw bar waitge waitw grow shrink kset mma mmaq opfence mwait mprogMat mprogCopy
    obres obrel obld accz accld accst accrd achain asend await arel copy copyg sealLayout cgrp cgrpEnd cgath crsc cata cbar
    launch qpush qpop qfree gets sets trap syscall eret halt idle tlbinv ctxsv ctxld migrate unmig wpset trace rejoinTimeout
    sleepWake sleepuWake barrierWave waitgeRead growGrant growDeadlockFail mmaRoundIssue matrixStep asendLand copyComplete
    collectiveForm collectiveComplete qpushPublish queueWaitWake loadReturn accessAck mshrGrant wcDrainTimeout rdcLeaseEnd
    ldmcMergeEnd ldmcHoldEnd ldmcDeliveryDone shutterClose groupReturn activeSetSwap pendingPromote teamDispatch teamRelease
    swapOut teamWake hostCxlWrite ctxnew ctxend load recoveryLoad mtcload maphost exportMem hostLaunch attest ctxset celloff
    cellon drain undrain laneoff serviceReserved reservedRequest mbIdent synread scrub rowrepair seqload mbReset mbReserved
    linkWidthRaise linkWidthDone ratioSelect ratioChangeDone preempt launchWatchdog uevictConversion pageMigrate faultResolved
    teamFaultService syscallReturn uquotaService hostStop hostStep linkWidthShed hostDoorbell hostCxlRead tbiSyn tbiCmp tbiNop
    tbiReservedOpcode quiesce linkReplay energyLowRead energyHighRead sysregWrite powerLoss coldPowerOn i

/-- Settles O1: by the words that the encoder writes for each instruction. -/
theorem decodeOfEncode : Obligations.DecodeOfEncode := fun i w ws hwf h => statement i hwf w ws h

/-! ## From a word to its instruction and back -/

/-- Two bit strings side by side are the bits of a word where each of them is its part of the bits. -/
theorem cat_eq_field_iff {m n : Nat} (x : BitVec m) (y : BitVec n) (w : Word) (lo : Nat) :
    cat x y = field w lo (m + n) ↔ x = field w (lo + n) m ∧ y = field w lo n := by
  have hsplit : field w lo (m + n) = cat (field w (lo + n) m) (field w lo n) := by
    ext i hi
    simp only [field, cat, BitVec.getElem_extractLsb', BitVec.getElem_append]
    split
    · congr 1
    · congr 1
      omega
  rw [hsplit]
  refine ⟨fun h => ?_, fun ⟨hx, hy⟩ => by rw [hx, hy]⟩
  have hhi := congrArg (BitVec.extractLsb' n m) h
  have hlo := congrArg (BitVec.extractLsb' 0 n) h
  rw [cat_hi _ _ _ _ le_rfl, cat_hi _ _ _ _ le_rfl, Nat.sub_self, BitVec.extractLsb'_eq_self, BitVec.extractLsb'_eq_self] at hhi
  rw [cat_lo _ _ _ _ (by omega), cat_lo _ _ _ _ (by omega), BitVec.extractLsb'_eq_self, BitVec.extractLsb'_eq_self] at hlo
  exact ⟨hhi, hlo⟩

theorem asWord_eq_iff {n : Nat} (x : BitVec n) (w : Word) (h : n = 32) : asWord x = w ↔ x = field w 0 n := by
  subst h
  simp [asWord, field]

/-- What a decoder reads of a word and the word after it is an instruction that encodes to them. -/
def Encodes (w x : Word) (r : Except DecodeError Instr) : Prop :=
  ∀ i, r = .ok i → encode i = if hasExtension w then [w, x] else [w]

/-- An alternative of a decoder, and those after it. -/
theorem Encodes.ite {w x : Word} {c : Prop} [Decidable c] {a b : Except DecodeError Instr} (ha : c → Encodes w x a)
    (hb : Encodes w x b) : Encodes w x (if c then a else b) := by
  split
  · exact ha ‹_›
  · exact hb

theorem oneWord_iff {n : Nat} (v : BitVec n) (w x : Word) (b : Bool) (h : n = 32) :
    ([asWord v] = if b then [w, x] else [w]) ↔ b = false ∧ v = field w 0 n := by
  cases b <;> simp [asWord_eq_iff v w h]

theorem twoWords_iff {n : Nat} (v : BitVec n) (y w x : Word) (b : Bool) (h : n = 32) :
    ([asWord v, y] = if b then [w, x] else [w]) ↔ b = true ∧ v = field w 0 n ∧ y = x := by
  cases b <;> simp [asWord_eq_iff v w h]

/-! Of each major, by its alternatives: the fixed bits of each are what its decoder has tested, and the rest are the operands. -/

/-- The integer, logic, move and literal instructions. -/
theorem encodes_arithmetic (w x : Word) :
    (field w 26 6 = 0x01#6 → Encodes w x (decode01 w)) ∧
    (field w 26 6 = 0x02#6 → Encodes w x (decode02 w)) ∧
    (field w 26 6 = 0x03#6 → Encodes w x (decode03 w)) ∧
    (field w 26 6 = 0x04#6 → Encodes w x (decode04 w)) ∧
    (field w 26 6 = 0x05#6 → Encodes w x (decode05 w)) ∧
    (field w 26 6 = 0x06#6 → Encodes w x (decode06 w)) ∧
    (field w 26 6 = 0x07#6 → Encodes w x (decode07 w)) ∧
    (field w 26 6 = 0x08#6 → Encodes w x (decode08 w x)) ∧
    (field w 26 6 = 0x09#6 → Encodes w x (decode09 w)) := by
  refine ⟨?_, ?_, ?_, ?_, ?_, ?_, ?_, ?_, ?_⟩ <;> intro hmajor
  all_goals repeat' refine Encodes.ite (fun hf => ?_) ?_
  all_goals rintro i ⟨⟩
  all_goals simp only [encode, oneWord_iff, twoWords_iff, cat_eq_field_iff]
  all_goals simp [hasExtension, *]

/-- The floating-point and the cross-lane instructions. -/
theorem encodes_float (w x : Word) :
    (field w 26 6 = 0x0A#6 → Encodes w x (decode0A w)) ∧
    (field w 26 6 = 0x0B#6 → Encodes w x (decode0B w)) ∧
    (field w 26 6 = 0x0C#6 → Encodes w x (decode0C w)) ∧
    (field w 26 6 = 0x0D#6 → Encodes w x (decode0D w)) ∧
    (field w 26 6 = 0x0E#6 → Encodes w x (decode0E w)) ∧
    (field w 26 6 = 0x0F#6 → Encodes w x (decode0F w)) := by
  refine ⟨?_, ?_, ?_, ?_, ?_, ?_⟩ <;> intro hmajor
  all_goals repeat' refine Encodes.ite (fun hf => ?_) ?_
  all_goals rintro i ⟨⟩
  all_goals simp only [encode, oneWord_iff, cat_eq_field_iff]
  all_goals simp [hasExtension, *]

/-- Branches, IFP and REPEAT, rejoin masks, waits for a time. -/
theorem encodes_control (w x : Word) :
    (field w 26 6 = 0x10#6 → Encodes w x (decode10 w)) ∧
    (field w 26 6 = 0x11#6 → Encodes w x (decode11 w)) ∧
    (field w 26 6 = 0x12#6 → Encodes w x (decode12 w)) ∧
    (field w 26 6 = 0x13#6 → Encodes w x (decode13 w)) ∧
    (field w 26 6 = 0x14#6 → Encodes w x (decode14 w)) ∧
    (field w 26 6 = 0x15#6 → Encodes w x (decode15 w)) ∧
    (field w 26 6 = 0x16#6 → Encodes w x (decode16 w)) ∧
    (field w 26 6 = 0x17#6 → Encodes w x (decode17 w)) := by
  refine ⟨?_, ?_, ?_, ?_, ?_, ?_, ?_, ?_⟩ <;> intro hmajor
  all_goals repeat' refine Encodes.ite (fun hf => ?_) ?_
  all_goals rintro i ⟨⟩
  all_goals simp only [encode, oneWord_iff, cat_eq_field_iff]
  all_goals simp [hasExtension, *]

/-- The accesses, in formats M and E. -/
theorem encodes_access (w x : Word) :
    (field w 26 6 = 0x18#6 → Encodes w x (decode18 w x)) ∧
    (field w 26 6 = 0x19#6 → Encodes w x (decode19 w x)) ∧
    (field w 26 6 = 0x1A#6 → Encodes w x (decode1A w x)) ∧
    (field w 26 6 = 0x1B#6 → Encodes w x (decode1B w x)) ∧
    (field w 26 6 = 0x1C#6 → Encodes w x (decode1C w x)) ∧
    (field w 26 6 = 0x1D#6 → Encodes w x (decode1D w x)) ∧
    (field w 26 6 = 0x1E#6 → Encodes w x (decode1E w x)) ∧
    (field w 26 6 = 0x1F#6 → Encodes w x (decode1F w x)) ∧
    (field w 26 6 = 0x20#6 → Encodes w x (decode20 w x)) ∧
    (field w 26 6 = 0x23#6 → Encodes w x (decode23 w)) := by
  refine ⟨?_, ?_, ?_, ?_, ?_, ?_, ?_, ?_, ?_, ?_⟩ <;> intro hmajor
  all_goals repeat' refine Encodes.ite (fun hf => ?_) ?_
  all_goals rintro i ⟨⟩
  all_goals simp only [encode, oneWord_iff, twoWords_iff, asWord_eq_iff, cat_eq_field_iff]
  all_goals simp [hasExtension, *]

/-- The instructions of format C that command memory, barriers, counters, allocations, the matrix unit and the system. -/
theorem encodes_command (w x : Word) :
    (field w 26 6 = 0x21#6 → Encodes w x (decode21 w)) ∧
    (field w 26 6 = 0x22#6 → Encodes w x (decode22 w)) ∧
    (field w 26 6 = 0x24#6 → Encodes w x (decode24 w)) ∧
    (field w 26 6 = 0x25#6 → Encodes w x (decode25 w)) ∧
    (field w 26 6 = 0x26#6 → Encodes w x (decode26 w)) ∧
    (field w 26 6 = 0x29#6 → Encodes w x (decode29 w)) ∧
    (field w 26 6 = 0x31#6 → Encodes w x (decode31 w)) ∧
    (field w 26 6 = 0x32#6 → Encodes w x (decode32 w)) ∧
    (field w 26 6 = 0x33#6 → Encodes w x (decode33 w)) ∧
    (field w 26 6 = 0x34#6 → Encodes w x (decode34 w)) := by
  refine ⟨?_, ?_, ?_, ?_, ?_, ?_, ?_, ?_, ?_, ?_⟩ <;> intro hmajor
  all_goals repeat' refine Encodes.ite (fun hf => ?_) ?_
  all_goals rintro i ⟨⟩
  all_goals simp only [encode, oneWord_iff, cat_eq_field_iff]
  all_goals simp [hasExtension, *]

/-- The commands of the engines, in format E. -/
theorem encodes_engine (w x : Word) :
    (field w 26 6 = 0x27#6 → Encodes w x (decode27 w x)) ∧
    (field w 26 6 = 0x28#6 → Encodes w x (decode28 w x)) ∧
    (field w 26 6 = 0x2A#6 → Encodes w x (decode2A w x)) ∧
    (field w 26 6 = 0x2B#6 → Encodes w x (decode2B w x)) ∧
    (field w 26 6 = 0x2C#6 → Encodes w x (decode2C w)) ∧
    (field w 26 6 = 0x2D#6 → Encodes w x (decode2D w x)) ∧
    (field w 26 6 = 0x2E#6 → Encodes w x (decode2E w)) ∧
    (field w 26 6 = 0x2F#6 → Encodes w x (decode2F w)) ∧
    (field w 26 6 = 0x30#6 → Encodes w x (decode30 w x)) := by
  refine ⟨?_, ?_, ?_, ?_, ?_, ?_, ?_, ?_, ?_⟩ <;> intro hmajor
  all_goals repeat' refine Encodes.ite (fun hf => ?_) ?_
  all_goals rintro i ⟨⟩
  all_goals simp only [encode, oneWord_iff, twoWords_iff, asWord_eq_iff, cat_eq_field_iff]
  all_goals simp [hasExtension, *]

theorem major_eq {w : Word} {m : Nat} (h : (field w 26 6).toNat = m) : field w 26 6 = BitVec.ofNat 6 m := by
  rw [← h, BitVec.ofNat_toNat, BitVec.setWidth_eq]

theorem encodes_decodeFixed (w x : Word) : Encodes w x (decodeFixed w x) := by
  obtain ⟨h01, h02, h03, h04, h05, h06, h07, h08, h09⟩ := encodes_arithmetic w x
  obtain ⟨h0A, h0B, h0C, h0D, h0E, h0F⟩ := encodes_float w x
  obtain ⟨h10, h11, h12, h13, h14, h15, h16, h17⟩ := encodes_control w x
  obtain ⟨h18, h19, h1A, h1B, h1C, h1D, h1E, h1F, h20, h23⟩ := encodes_access w x
  obtain ⟨h21, h22, h24, h25, h26, h29, h31, h32, h33, h34⟩ := encodes_command w x
  obtain ⟨h27, h28, h2A, h2B, h2C, h2D, h2E, h2F, h30⟩ := encodes_engine w x
  unfold decodeFixed
  generalize hm : (field w 26 6).toNat = m
  split
  exacts [h01 (major_eq hm), h02 (major_eq hm), h03 (major_eq hm), h04 (major_eq hm), h05 (major_eq hm), h06 (major_eq hm),
    h07 (major_eq hm), h08 (major_eq hm), h09 (major_eq hm), h0A (major_eq hm), h0B (major_eq hm), h0C (major_eq hm),
    h0D (major_eq hm), h0E (major_eq hm), h0F (major_eq hm), h10 (major_eq hm), h11 (major_eq hm), h12 (major_eq hm),
    h13 (major_eq hm), h14 (major_eq hm), h15 (major_eq hm), h16 (major_eq hm), h17 (major_eq hm), h18 (major_eq hm),
    h19 (major_eq hm), h1A (major_eq hm), h1B (major_eq hm), h1C (major_eq hm), h1D (major_eq hm), h1E (major_eq hm),
    h1F (major_eq hm), h20 (major_eq hm), h21 (major_eq hm), h22 (major_eq hm), h23 (major_eq hm), h24 (major_eq hm),
    h25 (major_eq hm), h26 (major_eq hm), h27 (major_eq hm), h28 (major_eq hm), h29 (major_eq hm), h2A (major_eq hm),
    h2B (major_eq hm), h2C (major_eq hm), h2D (major_eq hm), h2E (major_eq hm), h2F (major_eq hm), h30 (major_eq hm),
    h31 (major_eq hm), h32 (major_eq hm), h33 (major_eq hm), h34 (major_eq hm), nofun]

/-- Settles O2: each major's decoder reads every bit of a word, as an operand or as the fixed bits of its encoding. -/
theorem encodeOfDecode : Obligations.EncodeOfDecode := by
  intro w x i h
  unfold decodeWord at h
  cases hd : decodeFixed w x with
  | error e => rw [hd] at h; cases h
  | ok j =>
    simp only [hd] at h
    split at h
    next hwf =>
      cases h
      exact ⟨hwf, encodes_decodeFixed w x _ hd⟩
    next => cases h

/-- Settles O3: each of the words is decoded. -/
theorem wordsDecode : Obligations.WordsDecode := by
  unfold Obligations.WordsDecode
  decide

end Sys2Proof.Laws.Encoding
end

section
/-! Register-only instructions: O11, O13. -/

open Sys2Proof Sys2Proof.Machine

namespace Sys2Proof.Machine

/-- The issue of an instruction by one thread shows each thread as its own effect leaves it. -/
theorem th_issue {s : State} {t : TId} {i : Instr} {eats : List VReg} {ps : List PReg} (hs : Solo s t) (h : Clear s t i eats ps)
    (hi : ∀ op, i ≠ .trace op) (body : TId → Eff) (u : TId) : ((issue i eats ps body).run s).th u = ((body t).run s).th u :=
  th_of_threads (issue_solo_threads hs h hi body).1 u

/-- Settles O11: the instruction is one write of its value (`exec_intEffect`), and its thread moves on. -/
theorem integerResults : Obligations.IntegerResults := by
  intro i e h s t hs hc
  have hi : ∀ op, i ≠ .trace op := by rintro op rfl; cases h
  have hth := th_issue hs hc hi (aluBody e.d e.srcs e.val i.len) t
  obtain ⟨hreg, hmoves, _⟩ := aluBody_self e.d e.srcs e.val i.len hs.thread
  exact ⟨_, exec_intEffect h s, (congrArg (Thread.reg · e.d) hth).trans hreg, hmoves.of_th hth⟩

/-! ## Conditions -/

/-- R70: the functions of CMPI, by the numbers that the words stand for. -/
theorem cmpi_iff (c : Nat) (a b : Word) : cmpi c a b = true ↔ cmpiCond c a b := by
  unfold cmpi cmpiCond
  split <;> simp [BitVec.slt, BitVec.sle, BitVec.ult, BitVec.ule, BitVec.toNat_eq]

theorem ratOf_fin_signedAt (s : Bool) (m : Nat) {e q : Int} (h : q ≤ e) : ratOf (.fin s m e) = (signedAt s m e q : ℚ) * 2 ^ q := by
  have hpow : (2 : ℚ) ^ e = 2 ^ (e - q).toNat * 2 ^ q := by
    rw [← zpow_natCast, ← zpow_add₀ (by norm_num)]
    congr 1
    omega
  unfold ratOf signedAt
  cases s <;> simp [hpow, mul_assoc]

/-- The order of two finite values is the order of their multiples of the smaller power of two. -/
theorem lessVal_fin_iff (s t : Bool) (m n : Nat) (e f : Int) : lessVal (.fin s m e) (.fin t n f) ↔
    signedAt s m e (min e f) < signedAt t n f (min e f) := by
  show ratOf (.fin s m e) < ratOf (.fin t n f) ↔ _
  rw [ratOf_fin_signedAt s m (min_le_left e f), ratOf_fin_signedAt t n (min_le_right e f),
    mul_lt_mul_iff_left₀ (by positivity), Int.cast_lt]

/-- R71: what the exact comparison of two values that are no NaN answers. -/
def Compares (x y : FVal) : Prop :=
  (x.cmp y = -1 ∧ lessVal x y ∧ ¬ lessVal y x) ∨ (x.cmp y = 0 ∧ ¬ lessVal x y ∧ ¬ lessVal y x) ∨
    (x.cmp y = 1 ∧ ¬ lessVal x y ∧ lessVal y x)

theorem cmp_fin (s t : Bool) (m n : Nat) (e f : Int) :
    let a := signedAt s m e (min e f)
    let b := signedAt t n f (min e f)
    (FVal.fin s m e).cmp (.fin t n f) = if a < b then -1 else if b < a then 1 else 0 := by
  have hm : m * 2 ^ (e - min e f).toNat = 0 ↔ m = 0 := by simp
  have hn : n * 2 ^ (f - min e f).toNat = 0 ↔ n = 0 := by simp
  simp only [FVal.cmp, signedAt]
  obtain ⟨p, hp⟩ : ∃ p, m * 2 ^ (e - min e f).toNat = p := ⟨_, rfl⟩
  obtain ⟨r, hr⟩ : ∃ r, n * 2 ^ (f - min e f).toNat = r := ⟨_, rfl⟩
  simp only [hp, hr] at hm hn ⊢
  by_cases h1 : m = 0
  · by_cases h2 : n = 0
    · simp [hm.mpr h1, hn.mpr h2, h1, h2]
    · cases t <;> simp [hm.mpr h1, h1, h2] <;> omega
  · by_cases h2 : n = 0
    · cases s <;> simp [hn.mpr h2, h1, h2] <;> omega
    · cases s <;> cases t <;> simp [h1, h2] <;> omega

theorem compares_fin (s t : Bool) (m n : Nat) (e f : Int) : Compares (.fin s m e) (.fin t n f) := by
  unfold Compares
  rw [lessVal_fin_iff, lessVal_fin_iff, min_comm f e, cmp_fin]
  split_ifs <;> simp <;> omega

theorem cmp_compares {x y : FVal} (hx : x.isNan = false) (hy : y.isNan = false) : Compares x y := by
  match x, y with
  | .inf s, .inf t => cases s <;> cases t <;> simp [Compares, FVal.cmp, lessVal]
  | .inf s, .fin t n f => cases s <;> cases t <;> by_cases n = 0 <;> simp [Compares, FVal.cmp, lessVal, *]
  | .fin s m e, .inf t => cases s <;> cases t <;> by_cases m = 0 <;> simp [Compares, FVal.cmp, lessVal, *]
  | .fin s m e, .fin t n f => exact compares_fin s t m n e f

/-- R71: the functions of CMPF, by the number order. -/
theorem cmpf_iff (c : Nat) (a b : Word) : cmpf c a b = true ↔ floatCond c a b := by
  unfold cmpf floatCond
  generalize unpack32 a = x
  generalize unpack32 b = y
  by_cases hx : x.isNan = true
  · simp only [hx, Bool.true_or, true_or]
    split <;> simp
  · by_cases hy : y.isNan = true
    · simp only [hy, Bool.or_true, or_true]
      split <;> simp
    · rcases cmp_compares (Bool.eq_false_of_not_eq_true hx) (Bool.eq_false_of_not_eq_true hy) with ⟨hk, hlt, hgt⟩ | ⟨hk, hlt, hgt⟩ | ⟨hk, hlt, hgt⟩ <;>
        simp only [hx, hy, hk, hlt, hgt] <;> split <;> simp

/-! ## CMPI and CMPF -/

theorem pred_of_p {x y : Thread} (h : x.p = y.p) (q : PReg) : x.pred q = y.pred q := by simp only [Thread.pred, h]

/-- A thread whose predicate is written moves on. -/
theorem predWrite_th {s : State} {t : TId} (p : PReg) (y : Pred) (len : Nat) (h : (s.thread? t).isSome = true) :
    let a := (Eff.done t len).run (s.applyAll [putPred t p y])
    MovesOn s a t len ∧ ∀ q, (a.th t).pred q = ((s.th t).setPred p y).pred q := by
  have he : ((s.applyAll [putPred t p y]).thread? t).isSome = true := (isSome_thread?_apply_thread s t t _).trans h
  have hth : (s.applyAll [putPred t p y]).th t = { (s.th t).setPred p y with id := t } := th_apply_thread_self _ h
  have hdone := done_th_self len he
  rw [hth] at hdone
  refine ⟨MovesOn.of_stands ?_ (done_movesOn len he), pred_of_p ((congrArg Thread.p hdone).trans (step_p _ _))⟩
  rw [hth]
  unfold Thread.setPred
  split <;> exact ⟨rfl, rfl, rfl, rfl, rfl⟩

/-- What a comparison writes: its value, with the poison of its operands (R148). -/
def compared (x : Thread) (a b : VReg) (f : Word → Word → Bool) : Pred :=
  ⟨f (x.val a) (x.val b), (x.result [a, b] 0#32).poison, (x.result [a, b] 0#32).idx⟩

/-- A comparison writes its predicate, and no other. -/
theorem compare_shows {s : State} {t : TId} {i : Instr} (p : PReg) (a b : VReg) (f : Word → Word → Bool) (hi : ∀ op, i ≠ .trace op)
    (hs : Solo s t) (hc : Clear s t i [] []) :
    let s' := (Machine.compare i p a b f).run s
    (p ≠ 0#3 → (s'.th t).pred p = compared (s.th t) a b f) ∧
      (∀ q, q ≠ p ∨ q = 0#3 → (s'.th t).pred q = (s.th t).pred q) ∧ MovesOn s s' t i.len := by
  intro s'
  have hth : s'.th t = ((Eff.done t i.len).run (s.applyAll [putPred t p (compared (s.th t) a b f)])).th t := th_issue hs hc hi _ t
  obtain ⟨hmoves, hpred⟩ := predWrite_th p (compared (s.th t) a b f) i.len hs.thread
  rw [← hth] at hpred
  refine ⟨fun h => ?_, fun q hq => ?_, hmoves.of_th hth⟩
  · rw [hpred, pred_setPred_self _ _ h]
  · rw [hpred]
    rcases hq with hq | rfl
    · exact pred_setPred_ne _ _ hq
    · rw [pred_zero, pred_zero]

theorem exec_compares {i : Instr} {p : PReg} {f : Thread → Prop} (h : compares i = some (p, f)) {s : State} {t : TId} (hs : Solo s t)
    (hc : Clear s t i [] []) :
    ∃ s', exec i s = .next s' ∧ (p ≠ 0#3 → (((s'.th t).pred p).val = true ↔ f (s.th t))) ∧
      (∀ q, q ≠ p ∨ q = 0#3 → (s'.th t).pred q = (s.th t).pred q) ∧ MovesOn s s' t 1 := by
  cases i with
  | cmpi p a b c =>
    cases h
    obtain ⟨hval, hothers, hmoves⟩ := compare_shows p a b (cmpi c.toNat) (fun _ h => by cases h) hs hc
    exact ⟨_, rfl, fun h => by rw [hval h]; exact cmpi_iff _ _ _, hothers, hmoves⟩
  | cmpf p a b c =>
    cases h
    obtain ⟨hval, hothers, hmoves⟩ := compare_shows p a b (cmpf c.toNat) (fun _ h => by cases h) hs hc
    exact ⟨_, rfl, fun h => by rw [hval h]; exact cmpf_iff _ _ _, hothers, hmoves⟩
  | _ => cases h

/-! ## Reserved words -/

theorem decodeWord_ok_iff {w x : Word} {i : Instr} : decodeWord w x = .ok i ↔ decodeFixed w x = .ok i ∧ i.wf = true := by
  unfold decodeWord
  cases decodeFixed w x with
  | error e => simp
  | ok j =>
    by_cases hj : j.wf = true
    · simp only [hj, if_true]
      exact ⟨fun h => ⟨h, Except.ok.inj h ▸ hj⟩, And.left⟩
    · simp only [hj]
      exact ⟨nofun, fun ⟨h, hi⟩ => absurd (Except.ok.inj h ▸ hi) hj⟩

/-- R70, R71: a word of CMPI or CMPF with a bit of d[6:3] set, or with a function that has no condition. -/
def ReservedCompare (w : Word) : Prop :=
  (field w 26 6 = 0x07#6 ∧ (field w 22 4 ≠ 0#4 ∨ 10 ≤ (field w 0 5).toNat)) ∨
    (field w 26 6 = 0x0D#6 ∧ (field w 22 4 ≠ 0#4 ∨ 14 ≤ (field w 0 5).toNat))

theorem ReservedCompare.not_decodes {w : Word} (h : ReservedCompare w) (x : Word) (i : Instr) : decodeWord w x ≠ .ok i := by
  rw [Ne, decodeWord_ok_iff]
  rintro ⟨hd, hwf⟩
  rcases h with ⟨hm, h⟩ | ⟨hm, h⟩
  all_goals
    simp only [decodeFixed, hm, BitVec.toNat_ofNat, decode07, decode0D] at hd
    split at hd
    · next h0 =>
      cases hd
      simp only [Instr.wf, decide_eq_true_eq] at hwf
      exact h.elim (· h0) (by omega)
    · cases hd

/-- It has no extension word, whichever it is. -/
theorem ReservedCompare.noExtension {w : Word} (h : ReservedCompare w) : hasExtension w = false := by
  rcases h with ⟨hm, _⟩ | ⟨hm, _⟩ <;> simp [hasExtension, hm]

theorem checkItems_reserved {w : Word} (h : ReservedCompare w) (ws : List Word) (cls k : Nat) (user : Bool) :
    checkItems user false cls 0 (itemsOf 3 false k (w :: ws)) = some (cIllegal, k) := by
  have hd : (decodeWord w 0#32).toOption = none := by
    cases hd : decodeWord w 0#32 with
    | error e => rfl
    | ok i => exact absurd hd (h.not_decodes _ i)
  have hnone : ∀ maj, Item.instr ⟨k, w, some w, maj, none⟩ = none := by simp [Item.instr, h.noExtension, hd]
  simp [itemsOf, genWord, h.noExtension, checkItems, hnone]

/-- Settles O13: a comparison writes its predicate by R70's and R71's conditions, and no reserved word decodes. -/
theorem predicateResults : Obligations.PredicateResults :=
  ⟨fun _ _ _ h _ _ hs hc => exec_compares h hs hc,
    fun w x ws cls k user (h : ReservedCompare w) => ⟨h.not_decodes x, checkItems_reserved h ws cls k user⟩⟩

end Sys2Proof.Machine
end

section
/-! Branches, IFP and REPEAT: O16, O17. -/

open Sys2Proof Sys2Proof.Machine

namespace Sys2Proof.Machine

/-! ## Jumps -/

/-- The thread after `Eff.jump`. -/
theorem jump_th_self {s : State} {t : TId} (pc : BitVec 64) (h : (s.thread? t).isSome = true) :
    ((Eff.jump t pc).run s).th t = ((s.th t).goTo pc).issued s.stamp (s.cycleOf t) := by
  simp only [Eff.jump, run_act]
  rw [applyAll_append, th_of_threads (yieldPlace_threads _ _ _ _), applyAll_append, th_applyAll_spares _ t (progress_spares s t.team),
    applyAll_cons, th_applyAll_spares _ t (by rfl)]
  exact th_apply_thread_keep h th_id

theorem jump_jumpsTo {s : State} {t : TId} (pc : BitVec 64) (h : (s.thread? t).isSome = true) : JumpsTo ((Eff.jump t pc).run s) t pc := by
  unfold JumpsTo
  rw [jump_th_self pc h]
  exact ⟨rfl, rfl, rfl, rfl, rfl, rfl⟩

theorem JumpsTo.of_th {a b : State} {t : TId} {pc : BitVec 64} (h : b.th t = a.th t) (hj : JumpsTo a t pc) : JumpsTo b t pc := by
  unfold JumpsTo
  rw [h]
  exact hj

/-! ## Branches -/

theorem takes_iff (x : Thread) (p : PReg) (neg : BitVec 1) : x.takes p neg = true ↔ taken x p neg := by
  unfold Thread.takes taken
  split
  next h =>
    subst h
    rw [pred_zero]
    revert neg
    decide
  next => simp

/-- R334: the target of a branch is four bytes for each word of its offset from the header. -/
theorem branchTarget_eq (pc : BitVec 64) (off : BitVec 22) : branchTarget pc off = pc + BitVec.ofInt 64 (4 * off.toInt) := by
  have hmul : off.signExtend 64 <<< 2 = BitVec.ofInt 64 4 * BitVec.ofInt 64 off.toInt := by
    rw [BitVec.shiftLeft_eq_mul_twoPow, BitVec.mul_comm]
    rfl
  rw [branchTarget, hmul, ← BitVec.ofInt_mul]

/-- R337: the word after a clause that has a header. -/
theorem after_explicit {x : Thread} {c : Clause} (h : x.clause = some c) (hc : c.implicit = false) :
    x.after = x.pc + BitVec.ofNat 64 (4 * (c.hdr.toNat % 16 + 1)) := by
  simp only [Thread.after, h, nextClause, hc, Clause.count, Bool.false_eq_true, if_false]

/-- A conditional branch: taken, its transfer is done; not taken, its thread moves on, its registers as they were. -/
theorem branch_shows {s : State} {t : TId} {i : Instr} {p : PReg} {neg : BitVec 1} (go : State → TId → Eff) (hs : Solo s t)
    (hc : Clear s t i [] [p]) (hi : ∀ op, i ≠ .trace op) :
    let s' := (issue i [] [p] fun t => .read fun s => if (s.th t).takes p neg then go s t else .done t 1).run s
    (taken (s.th t) p neg → s'.th t = ((go s t).run s).th t) ∧
      (¬ taken (s.th t) p neg → MovesOn s s' t 1 ∧ ∀ r, (s'.th t).reg r = (s.th t).reg r) := by
  intro s'
  have hth : s'.th t = _ := th_issue hs hc hi _ t
  rw [← takes_iff, run_read] at *
  split at hth
  next h => exact ⟨fun _ => hth, fun hn => absurd h hn⟩
  next h =>
    refine ⟨fun ht => absurd ht h, fun _ => ⟨(done_movesOn 1 hs.thread).of_th hth, fun r => ?_⟩⟩
    rw [hth, done_th_self 1 hs.thread]
    simp only [Thread.reg, step_v]

theorem exec_bra {s : State} {t : TId} {p : PReg} {neg : BitVec 1} {off : BitVec 22} (hs : Solo s t) (hc : Clear s t (.bra p neg off) [] [p]) :
    ∃ s', exec (.bra p neg off) s = .next s' ∧
      (taken (s.th t) p neg → JumpsTo s' t ((s.th t).pc + BitVec.ofInt 64 (4 * off.toInt))) ∧
      (¬ taken (s.th t) p neg → MovesOn s s' t 1) := by
  obtain ⟨htaken, hnot⟩ := branch_shows (neg := neg) (fun s t => .jump t (branchTarget (s.th t).pc off)) hs hc fun _ h => by cases h
  exact ⟨_, rfl, fun h => .of_th (htaken h) (branchTarget_eq _ off ▸ jump_jumpsTo _ hs.thread), fun h => (hnot h).1⟩

/-- R337: a taken CALL links, and jumps. -/
theorem link_jump {s : State} {t : TId} (link pc : BitVec 64) (h : (s.thread? t).isSome = true) :
    let s' := (Eff.seq (.act fun s => putRegs s t 2#7 [lo32 link, hi32 link]) (.jump t pc)).run s
    JumpsTo s' t pc ∧ (s'.th t).reg 2#7 = ⟨lo32 link, false, 0#3⟩ ∧ (s'.th t).reg 3#7 = ⟨hi32 link, false, 0#3⟩ := by
  have he := (putRegs_isSome s s t 2#7 [lo32 link, hi32 link]).trans h
  have hreg : ∀ r, (((Eff.jump t pc).run (s.applyAll (putRegs s t 2#7 [lo32 link, hi32 link]))).th t).reg r =
      ((s.th t).setRegs 2#7 [lo32 link, hi32 link]).reg r := by
    intro r
    rw [jump_th_self pc he, putRegs, putRegsOf_th_self _ _ _ h]
    rfl
  have hget := reg_setRegs_get [lo32 link, hi32 link] (s.th t) 2#7
  exact ⟨jump_jumpsTo pc he, (hreg _).trans (hget 0 (Nat.zero_lt_two) (Nat.le_of_ble_eq_true rfl)),
    (hreg _).trans (hget 1 Nat.one_lt_two (Nat.le_of_ble_eq_true rfl))⟩

theorem hi32_append_lo32 (v : BitVec 64) : hi32 v ++ lo32 v = v := by
  ext i hi
  rw [BitVec.getElem_append]
  split
  · next h => simp [lo32, ← BitVec.getLsbD_eq_getElem, h]
  · next h => simp [hi32, ← BitVec.getLsbD_eq_getElem, show 32 + (i - 32) = i by omega, show i - 32 < 32 by omega]

theorem val64_of_halves {x : Thread} {r : VReg} {v : BitVec 64} (hlo : x.val r = lo32 v) (hhi : x.val (r + 1#7) = hi32 v) : x.val64 r = v := by
  rw [Thread.val64, hlo, hhi, hi32_append_lo32]

theorem exec_call {s : State} {t : TId} {p : PReg} {neg : BitVec 1} {off : BitVec 22} {c : Clause} (hs : Solo s t)
    (hc : Clear s t (.call p neg off) [] [p]) (hcl : (s.th t).clause = some c) (him : c.implicit = false) :
    ∃ s', exec (.call p neg off) s = .next s' ∧
      (taken (s.th t) p neg → JumpsTo s' t ((s.th t).pc + BitVec.ofInt 64 (4 * off.toInt)) ∧
        (s'.th t).val64 2#7 = (s.th t).pc + BitVec.ofNat 64 (4 * (c.hdr.toNat % 16 + 1)) ∧
        ((s'.th t).reg 2#7).poison = false ∧ ((s'.th t).reg 3#7).poison = false) ∧
      (¬ taken (s.th t) p neg → MovesOn s s' t 1 ∧ (s'.th t).val64 2#7 = (s.th t).val64 2#7) := by
  obtain ⟨htaken, hnot⟩ := branch_shows (neg := neg) (fun a t => .seq (.act fun b => putRegs b t 2#7 [lo32 (a.th t).after, hi32 (a.th t).after])
    (.jump t (branchTarget (a.th t).pc off))) hs hc fun _ h => by cases h
  refine ⟨_, rfl, fun h => ?_, fun h => ⟨(hnot h).1, ?_⟩⟩
  · obtain ⟨hjump, hlo, hhi⟩ := link_jump (s.th t).after (branchTarget (s.th t).pc off) hs.thread
    have hth := htaken h
    refine ⟨.of_th hth (branchTarget_eq _ off ▸ hjump), ?_, ?_, ?_⟩
    · rw [← after_explicit hcl him, hth]
      exact val64_of_halves (congrArg Reg.val hlo) (congrArg Reg.val hhi)
    · exact congrArg Reg.poison ((congrArg (Thread.reg · _) hth).trans hlo)
    · exact congrArg Reg.poison ((congrArg (Thread.reg · _) hth).trans hhi)
  · simp only [Thread.val64, Thread.val, (hnot h).2]

/-- R336: a transfer to a sound address jumps there. -/
theorem transferTo_run {s : State} {t : TId} {a : VReg} (hp : (s.th t).poisoned [a, a + 1#7] = none) (hlt : ((s.th t).val64 a).toNat < 2 ^ 56)
    (hal : ((s.th t).val64 a).toNat % 4 = 0) : (transferTo a t).run s = (Eff.jump t ((s.th t).val64 a)).run s := by
  have hp' : (s.th t).poisoned (pairOf a) = none := hp
  have hnon : ((s.th t).val64 a).toNat / 2 ^ 56 = 0 := Nat.div_eq_of_lt hlt
  simp only [transferTo, run_read, hp', hnon, hal, ne_eq, not_true_eq_false, if_false]

theorem exec_brx {s : State} {t : TId} {p : PReg} {neg : BitVec 1} {a : VReg} (hs : Solo s t) (hc : Clear s t (.brx neg p a) [] [p]) :
    ∃ s', exec (.brx neg p a) s = .next s' ∧
      (taken (s.th t) p neg → (s.th t).poisoned [a, a + 1#7] = none → ((s.th t).val64 a).toNat < 2 ^ 56 →
        ((s.th t).val64 a).toNat % 4 = 0 → JumpsTo s' t ((s.th t).val64 a)) ∧
      (¬ taken (s.th t) p neg → MovesOn s s' t 1) := by
  obtain ⟨htaken, hnot⟩ := branch_shows (neg := neg) (fun _ t => transferTo a t) hs hc fun _ h => by cases h
  refine ⟨_, rfl, fun h hp hlt hal => .of_th (htaken h) ?_, fun h => (hnot h).1⟩
  rw [transferTo_run hp hlt hal]
  exact jump_jumpsTo _ hs.thread

theorem exec_ret {s : State} {t : TId} {a : VReg} (hs : Solo s t) (hc : Clear s t (.ret a) [] [])
    (hp : (s.th t).poisoned [a, a + 1#7] = none) (hlt : ((s.th t).val64 a).toNat < 2 ^ 56) (hal : ((s.th t).val64 a).toNat % 4 = 0) :
    ∃ s', exec (.ret a) s = .next s' ∧ JumpsTo s' t ((s.th t).val64 a) := by
  refine ⟨_, rfl, .of_th (th_issue hs hc (fun _ h => by cases h) (transferTo a) t) ?_⟩
  rw [transferTo_run hp hlt hal]
  exact jump_jumpsTo _ hs.thread

/-- Settles O16, branch by branch. -/
theorem branchResults : Obligations.BranchResults :=
  ⟨fun _ _ _ _ _ hs hc => exec_bra hs hc, fun _ _ _ _ _ _ hs hc hcl him => exec_call hs hc hcl him,
    fun _ _ _ _ _ hs hc => exec_brx hs hc, fun _ _ _ hs hc hp hlt hal => exec_ret hs hc hp hlt hal⟩

/-! ## IFP and REPEAT -/

/-- A thread that has moved on, and of which fields are then set. -/
theorem done_set_th {s : State} {t : TId} (len : Nat) {f : Thread → Thread} (h : (s.thread? t).isSome = true) (hf : ∀ x, (f x).id = x.id) :
    ((Eff.seq (.done t len) (.upds [.thread t f])).run s).th t = f (((s.th t).step len).issued s.stamp (s.cycleOf t)) := by
  have hdone : ((Eff.done t len).run s).th t = ((s.th t).step len).issued s.stamp (s.cycleOf t) :=
    (done_th_self len h).trans (withId_self (y := ((s.th t).step len).issued s.stamp (s.cycleOf t)) ((step_id _ _).trans th_id))
  have he : (((Eff.done t len).run s).thread? t).isSome = true := by
    unfold State.thread?
    rw [done_threads]
    exact (isSome_thread?_apply_thread s t t _).trans h
  rw [← hdone]
  exact th_apply_thread_keep he ((hf _).trans th_id)

/-- R64: IFP samples its guard and covers its count of instructions. -/
theorem exec_ifp {s : State} {t : TId} {f : BitVec 1} {p : PReg} {c : BitVec 4} (hs : Solo s t) (hc : Clear s t (.ifp f p c) [] [p]) :
    ∃ s', exec (.ifp f p c) s = .next s' ∧ (s'.th t).ifpN = c.toNat ∧
      ((s'.th t).ifpG = true ↔ ((s.th t).pred p).val ≠ (f == 1#1)) ∧ (s'.th t).pc = ((s.th t).step 1).pc ∧
      (s'.th t).widx = ((s.th t).step 1).widx ∧ (s'.th t).run = .running := by
  have hbare : Clear s t (.ifp f p c) [] [] := ⟨hc.names, hc.watch, hc.regs, rfl⟩
  refine ⟨_, rfl, ?_⟩
  rw [th_issue hs hbare (fun _ h => by cases h), run_read]
  simp only [hc.preds]
  rw [done_set_th 1 hs.thread]
  · exact ⟨rfl, by simp, rfl, rfl, rfl⟩
  · exact fun _ => rfl

/-- R67: REPEAT runs its target next, with its step mask and stride. -/
theorem exec_repeatN {s : State} {t : TId} {sm : BitVec 3} {sc : BitVec 2} {c : BitVec 4} {cl : Clause} (hs : Solo s t)
    (hc : Clear s t (.repeatN sm sc c) [] []) (hcl : (s.th t).clause = some cl)
    (hb : repeatBeyond s t sm (2 ^ sc.toNat) (c.toNat + 1) = none)
    (hm : matchHere s t (wordAddr (s.th t).pc cl.implicit ((s.th t).widx + 1)).toNat (cl.word ((s.th t).widx + 1)) = none) :
    ∃ s', exec (.repeatN sm sc c) s = .next s' ∧ (s'.th t).rep = some ⟨sm, 2 ^ sc.toNat, 0, c.toNat + 1⟩ ∧
      (s'.th t).pc = ((s.th t).step 1).pc ∧ (s'.th t).widx = ((s.th t).step 1).widx ∧ (s'.th t).ifpN = (s.th t).ifpN ∧
      (s'.th t).run = .running := by
  refine ⟨_, rfl, ?_⟩
  rw [th_issue hs hc (fun _ h => by cases h), run_read]
  simp only [strideOf, hb, hcl, Option.any_some, watchInstr, run_read, hm]
  rw [done_set_th 1 hs.thread]
  · exact ⟨rfl, rfl, rfl, rfl, rfl⟩
  · exact fun _ => rfl

/-- Settles O17: each moves its thread on, and sets its guard or its executions. -/
theorem guardAndRepeat : Obligations.GuardAndRepeat :=
  ⟨fun _ _ _ _ _ hs hc => exec_ifp hs hc, fun _ _ _ _ _ _ hs hc hcl hb hm => exec_repeatN hs hc hcl hb hm⟩

end Sys2Proof.Machine
end

section
/-! Entering a clause: O5. A fetch changes translations and lines of homes alone; a clause that passes its checks is entered at its
first word; a failing check or fetch traps there. -/

open Sys2Proof Sys2Proof.Machine

namespace Sys2Proof.Machine

/-! ## What a fetch changes -/

/-- Between two states at most cached translations and lines of homes differ. -/
def SameButCaches (a b : State) : Prop := ∃ tlb l2, b = { a with part := { a.part with tlb := tlb, l2 := l2 } }

/-- An update of cached translations or lines of homes alone. -/
def CacheUpd (u : Upd) : Prop := ∀ s, SameButCaches s (u.apply s)

theorem SameButCaches.refl (a : State) : SameButCaches a a := ⟨_, _, rfl⟩

theorem SameButCaches.trans {a b c : State} (h : SameButCaches a b) (g : SameButCaches b c) : SameButCaches a c := by
  obtain ⟨_, _, rfl⟩ := h
  obtain ⟨_, _, rfl⟩ := g
  exact ⟨_, _, rfl⟩

theorem SameButCaches.applyAll : ∀ {us : List Upd} (a : State), (∀ u ∈ us, CacheUpd u) → SameButCaches a (a.applyAll us)
  | [], a, _ => .refl a
  | u :: us, a, h => by
    rw [applyAll_cons]
    exact (h u List.mem_cons_self a).trans (SameButCaches.applyAll _ fun v hv => h v (List.mem_cons_of_mem _ hv))

theorem SameButCaches.threads {a b : State} (h : SameButCaches a b) : b.threads = a.threads := by obtain ⟨_, _, rfl⟩ := h; rfl
theorem SameButCaches.groups {a b : State} (h : SameButCaches a b) : b.groups = a.groups := by obtain ⟨_, _, rfl⟩ := h; rfl
theorem SameButCaches.ctxOf {a b : State} (h : SameButCaches a b) (k : Nat) : b.ctxOf k = a.ctxOf k := by obtain ⟨_, _, rfl⟩ := h; rfl
theorem SameButCaches.th {a b : State} (h : SameButCaches a b) (t : TId) : b.th t = a.th t := th_of_threads h.threads t
theorem SameButCaches.gr {a b : State} (h : SameButCaches a b) (g : GId) : b.gr g = a.gr g := gr_of_groups h.groups g
theorem SameButCaches.thread? {a b : State} (h : SameButCaches a b) (t : TId) : b.thread? t = a.thread? t := by
  unfold State.thread?; rw [h.threads]

theorem cacheUpd_touchLines (s : State) (lines : List Nat) : CacheUpd (touchLines s lines) := fun _ => ⟨_, _, rfl⟩

/-- An update of cached translations alone. -/
def TlbUpd (u : Upd) : Prop := ∀ s, ∃ tlb, u.apply s = { s with part := { s.part with tlb := tlb } }

theorem TlbUpd.cacheUpd {u : Upd} (h : TlbUpd u) : CacheUpd u := fun s => by
  obtain ⟨tlb, h⟩ := h s
  exact ⟨tlb, s.part.l2, h⟩

theorem tlbUpd_leafFor (s : State) (c : Ctx) (issuer va : Nat) : ∀ u ∈ (leafFor s c issuer va).2, TlbUpd u := by
  unfold leafFor
  split
  · exact List.forall_mem_nil _
  · split
    · exact List.forall_mem_nil _
    · exact List.forall_mem_singleton.mpr fun _ => ⟨_, rfl⟩

theorem judge_updates (bar : Page → Bool) (s : State) (user vetted : Bool) (k : AccessKind) (va n : Nat) (x : Nat × Nat) (us : List Upd) :
    (pageBut.judge bar s user vetted k va n x us).2 = us := by
  simp only [pageBut.judge]
  split
  · rfl
  · split
    · rfl
    · split <;> rfl

theorem tlbUpd_pageBut (bar : Page → Bool) (stay : List TlbEntry) (s : State) (c : Ctx) (issuer : Nat) (user vetted : Bool)
    (k : AccessKind) (va n : Nat) : ∀ u ∈ (pageBut bar stay s c issuer user vetted k va n).2, TlbUpd u := by
  have hleaf := tlbUpd_leafFor s c issuer va
  unfold pageBut
  split
  · rw [judge_updates]; exact List.forall_mem_nil _
  · split
    next h => rw [h] at hleaf; exact hleaf
    next h => rw [judge_updates]; rw [h] at hleaf; exact hleaf

/-- A translation caches translations alone. -/
theorem tlbUpd_translate (s : State) (a : Agent) (k : AccessKind) (va : BitVec 64) (n : Nat) :
    ∀ u ∈ (translate s a k va n).2, TlbUpd u := by
  simp only [translate, translateBut]
  split
  · exact List.forall_mem_nil _
  · split
    · cases k <;> exact List.forall_mem_nil _
    · split
      · exact List.forall_mem_nil _
      next c _ =>
        have hpage := tlbUpd_pageBut (fun p => false || ((s.tm a.team).det && k.writes && p.far)) a.stay s c a.issuer a.user a.vetted k
          va.toNat n
        split
        next h => rw [h] at hpage; exact hpage
        next h => rw [h] at hpage; exact hpage

theorem cacheUpd_fetchWord (s : State) (a : Agent) (va : BitVec 64) : ∀ u ∈ (fetchWord s a va).2, CacheUpd u := by
  have ht : ∀ u ∈ (translate s a .fetch va 4).2, CacheUpd u := fun u hu => (tlbUpd_translate s a .fetch va 4 u hu).cacheUpd
  unfold fetchWord
  split
  next h => rw [h] at ht; exact List.forall_mem_append.mpr ⟨ht, List.forall_mem_singleton.mpr (cacheUpd_touchLines s _)⟩
  next h => rw [h] at ht; exact ht
  next h => rw [h] at ht; exact ht

theorem cacheUpd_fetchWords (s : State) (a : Agent) : ∀ (n : Nat) (va : BitVec 64), ∀ u ∈ (fetchWords s a va n).2, CacheUpd u
  | 0, _ => List.forall_mem_nil _
  | n + 1, va => by
    have hw := cacheUpd_fetchWord s a va
    unfold fetchWords
    split
    next h => rw [h] at hw; exact hw
    next h => rw [h] at hw; exact List.forall_mem_append.mpr ⟨hw, cacheUpd_fetchWords s a n (va + 4#64)⟩

theorem fetchWords_length (s : State) (a : Agent) : ∀ {n : Nat} {va : BitVec 64} {ws : List Word} {us : List Upd},
    fetchWords s a va n = (.ok ws, us) → ws.length = n
  | 0, _, _, _, h => by cases h; rfl
  | n + 1, va, ws, us, h => by
    unfold fetchWords at h
    split at h
    · cases h
    next w vs _ =>
      cases hrest : fetchWords s a (va + 4#64) n with
      | mk r xs =>
        rw [hrest] at h
        cases r with
        | error e => cases h
        | ok l =>
          cases h
          exact congrArg (· + 1) (fetchWords_length s a hrest)

/-! ## What entering a clause meets -/

section
variable {s : State} {t : TId} {pc : BitVec 64} {h : Word} {ws : List Word} {us vs : List Upd} (hpc : pc.toNat % 4 = 0)
  (hg : (s.tm t.team).gen ≠ 1)
include hpc

theorem fetchClause_noHeader {r : Nat} (hw : fetchWord s (agentOf s t) pc = (.error r, us)) : fetchClause s t pc = (.fault r pc, us) := by
  unfold fetchClause
  rw [if_neg (not_not.mpr hpc), hw]

include hg

theorem fetchClause_badHeader (hw : fetchWord s (agentOf s t) pc = (.ok h, us)) (hb : headerBad h = true) :
    fetchClause s t pc = (.bad cIclause 0#64, us) := by
  unfold fetchClause
  rw [if_neg (not_not.mpr hpc), hw]
  exact (if_neg hg).trans (if_pos hb)

variable (hw : fetchWord s (agentOf s t) pc = (.ok h, us)) (hb : headerBad h = false)
include hw hb

theorem fetchClause_noWord {r : Nat} {va : BitVec 64}
    (hws : fetchWords s (agentOf s t) (pc + 4#64) (field h 0 4).toNat = (.error (r, va), vs)) :
    fetchClause s t pc = (.fault r va, us ++ vs) := by
  unfold fetchClause
  rw [if_neg (not_not.mpr hpc), hw]
  refine (if_neg hg).trans ((if_neg (by rw [hb]; exact Bool.false_ne_true)).trans ?_)
  rw [hws]

variable (hws : fetchWords s (agentOf s t) (pc + 4#64) (field h 0 4).toNat = (.ok ws, vs))
include hws

theorem fetchClause_badWord {cause w : Nat}
    (hc : checkItems (agentOf s t).user false (field h 8 3).toNat 0 (itemsOf (s.tm t.team).gen false 1 ws) = some (cause, w)) :
    fetchClause s t pc = (.bad cause (BitVec.ofNat 64 w), us ++ vs) := by
  unfold fetchClause
  rw [if_neg (not_not.mpr hpc), hw]
  refine (if_neg hg).trans ((if_neg (by rw [hb]; exact Bool.false_ne_true)).trans ?_)
  rw [hws]
  dsimp only
  rw [hc]

theorem fetchClause_ok
    (hc : checkItems (agentOf s t).user false (field h 8 3).toNat 0 (itemsOf (s.tm t.team).gen false 1 ws) = none) :
    fetchClause s t pc = (.ok ⟨h, mapWords (s.tm t.team).gen false ws, false⟩, us ++ vs) := by
  unfold fetchClause
  rw [if_neg (not_not.mpr hpc), hw]
  refine (if_neg hg).trans ((if_neg (by rw [hb]; exact Bool.false_ne_true)).trans ?_)
  rw [hws]
  dsimp only
  rw [hc]

end

theorem cause_of_checks {a b c : Prop} [Decidable a] [Decidable b] [Decidable c] {n cause w : Nat} {r : Option (Nat × Nat)}
    (h : (if a then some (cIllegal, n) else if b then some (cPriv, n) else if c then some (cIclause, n) else r) = some (cause, w)) :
    (cause = 1 ∨ cause = 2 ∨ cause = 3) ∨ r = some (cause, w) := by
  split at h
  · cases h; exact .inl (.inl rfl)
  · split at h
    · cases h; exact .inl (.inr (.inr rfl))
    · split at h
      · cases h; exact .inl (.inr (.inl rfl))
      · exact .inr h

/-- A failing check of a clause's words is ILLEGAL, ICLAUSE or PRIV. -/
theorem checkItems_cause (user gen1 : Bool) (c : Nat) : ∀ {items : List Item} {cov cause w : Nat},
    checkItems user gen1 c cov items = some (cause, w) → cause = 1 ∨ cause = 2 ∨ cause = 3
  | [], _, _, _, h => by cases h
  | it :: rest, cov, cause, w, h => by
    rw [checkItems.eq_def] at h
    dsimp only at h
    cases hi : it.instr with
    | none => rw [hi] at h; cases h; exact .inl rfl
    | some i =>
      rw [hi] at h
      exact (cause_of_checks h).elim id (checkItems_cause user gen1 c)

theorem count_pos_of_headerGood {h : Word} (hh : headerBad h = false) : 0 < (field h 0 4).toNat := by
  simp only [headerBad, Bool.or_eq_false_iff, beq_eq_false_iff_ne] at hh
  obtain ⟨_, hne⟩ := hh
  exact Nat.pos_of_ne_zero fun h0 => hne (BitVec.eq_of_toNat_eq h0)

/-- R49: the count of an explicit clause is a field of its header. -/
theorem count_eq (h : Word) (ws : List Word) : (Clause.mk h ws false).count = (field h 0 4).toNat := by
  simp [Clause.count, field]

/-- The word after a header is an instruction word. -/
theorem isInstr_first {h : Word} {gen : Nat} {ws : List Word} (hne : ws ≠ []) :
    (Clause.mk h (mapWords gen false ws) false).isInstr 1 = true := by
  cases ws with
  | nil => exact absurd rfl hne
  | cons w ws => simp [Clause.isInstr, mapWords, itemsOf]

/-! ## Entering it -/

/-- A thread at a header that no re-entry or void IFP concerns stands at the first word of the clause that it enters. -/
theorem enter_first {x : Thread} {c : Clause} (hw : x.widx = 1) (hr : x.resumeG = none) (hv : x.ifpVoid = none) (hc : 0 < c.count) :
    x.enter c = { x with clause := some c, kept := false, resumeG := none, ifpVoid := none } := by
  have hg : x.guardAt c = none := by simp [Thread.guardAt, Thread.voidedHere, hr, hv]
  have hn : ¬ c.count < x.widx := by omega
  simp [Thread.enter, hg, hv, hn]

theorem spoilRows_threads (s : State) : (spoilRows.run s).threads = s.threads := by
  have hrows : ∀ ws, (freeCRows s ws).all Upd.spares = true := by
    intro ws
    rw [List.all_eq_true]
    intro u hu
    obtain ⟨p, _, hp⟩ := List.mem_flatMap.mp hu
    simp only [List.mem_cons, List.not_mem_nil, or_false] at hp
    rcases hp with rfl | rfl <;> rfl
  simp only [spoilRows, run_act]
  split
  · exact (applyAll_spares _ _ (by rw [List.all_append, hrows]; rfl)).1
  · rfl

theorem closeOperandWindows_threads (t : TId) (f : Window → Bool) (s : State) : ((closeOperandWindows t f).run s).threads = s.threads :=
  spoilRows_threads s

/-- A thread that observes its counters changes in what it has still to observe alone. -/
theorem observe_th {s : State} {t : TId} (mask : BitVec 8) (he : (s.thread? t).isSome = true) :
    (((observe t mask).run s).thread? t).isSome = true ∧ ∃ m, ((observe t mask).run s).th t = { s.th t with cmpl := m } := by
  simp only [observe, run_act]
  split
  · exact ⟨he, _, rfl⟩
  · have hacq : (acquire s t).all Upd.spares = true := by
      unfold acquire
      dsimp only
      split <;> rfl
    have hth := (applyAll_spares _ s hacq).1
    have he' : ((s.applyAll (acquire s t)).thread? t).isSome = true := by unfold State.thread?; rw [hth]; exact he
    rw [applyAll_append, applyAll_cons, applyAll_nil]
    refine ⟨(isSome_thread?_apply_thread _ t t _).trans he', (s.th t).cmpl &&& ~~~mask, ?_⟩
    rw [th_apply_thread_keep he' (by exact th_id), th_of_threads hth]

/-- A thread enters a clause that passes its checks (R48, R178). -/
def enters (c : Clause) (t : TId) : Eff :=
  .seq (observe t c.wait) <| .seq (closeOperandWindows t fun w => c.wait.getLsbD w.wc.toNat) (.upds [.thread t fun y => y.enter c])

theorem enters_th {s : State} {t : TId} (c : Clause) (he : (s.thread? t).isSome = true) (hw : (s.th t).widx = 1)
    (hr : (s.th t).resumeG = none) (hv : (s.th t).ifpVoid = none) (hc : 0 < c.count) :
    ∃ m, ((enters c t).run s).th t =
      { s.th t with cmpl := m, clause := some c, kept := false, resumeG := none, ifpVoid := none } := by
  obtain ⟨he', m, hm⟩ := observe_th c.wait he
  refine ⟨m, ?_⟩
  simp only [enters, run_seq, run_upds, applyAll_cons, applyAll_nil]
  have hthreads := closeOperandWindows_threads t (fun w => c.wait.getLsbD w.wc.toNat) ((observe t c.wait).run s)
  have hth := (th_of_threads hthreads t).trans hm
  have hself : Thread.enter c { s.th t with cmpl := m } =
      { s.th t with cmpl := m, clause := some c, kept := false, resumeG := none, ifpVoid := none } := enter_first hw hr hv hc
  rw [th_apply_thread_keep (by unfold State.thread?; rw [hthreads]; exact he') (by rw [hth, hself]; exact th_id), hth, hself]

/-! ## The turn of a thread at a header -/

/-- The state in which a thread at a header is alone in its turn. -/
def alone (s : State) (t : TId) : State := { s with cur := ⟨t.gid, [t]⟩ }

/-- The front of a thread at a header enters the clause there. -/
theorem AtHeader.front_eq {s s1 : State} {t : TId} {rest : List Turn} (h : AtHeader s s1 t rest) :
    front [t] s1 = frontEnter t (alone s1 t) := by
  have hw : ¬ ([t].any fun u => ((alone s1 t).th u).watch.isSome) = true := by
    rw [List.any_cons, List.any_nil, show ((alone s1 t).th t).watch = none from h.watch]
    exact Bool.false_ne_true
  have hc : ((alone s1 t).th t).clause.isNone = true := Option.isNone_iff_eq_none.mpr h.clause
  exact (if_neg hw).trans (if_pos hc)

theorem AtHeader.exists {s s1 : State} {t : TId} {rest : List Turn} (h : AtHeader s s1 t rest) : (s1.thread? t).isSome = true :=
  (issuable_head h.turn.group).1

/-- The instruction at the header's clause executes. -/
theorem AtHeader.step_exec {s s1 b : State} {t : TId} {rest : List Turn} {i : Instr} (h : AtHeader s s1 t rest)
    (hf : frontEnter t (alone s1 t) = .exec i b) : step s = ended s1 [t] (exec i b) := by
  rw [step_turnOf h.turn, show partsOf s1 [t].length [t] = [[t]] from partsOf_alike (by simp), stepParts_one h.turn.group, h.front_eq, hf]

/-- What is done at a header, where the turn ends, shows in the thread. -/
theorem AtHeader.step_done {s s1 b : State} {t : TId} {rest : List Turn} (h : AtHeader s s1 t rest)
    (hf : frontEnter t (alone s1 t) = .done b) (hcur : b.cur = ⟨t.gid, [t]⟩) (hh : (b.gr t.gid).hosted = none) :
    ∃ s', step s = .next s' ∧ s'.th t = b.th t := by
  obtain ⟨p, hp⟩ := countIssue_part s1 b [t] b
  have hstep : step s = ended s1 [t] (.next b) := by
    rw [step_turnOf h.turn, show partsOf s1 [t].length [t] = [[t]] from partsOf_alike (by simp), stepParts_one h.turn.group, h.front_eq, hf]
  rw [ended_unhosted (by rw [hcur]; exact hh), hp] at hstep
  exact ⟨_, hstep, rfl⟩

/-- A trap that goes to a vector changes no group. -/
theorem takeTrap_groups {s : State} {t : TId} {code : Nat} {vec : BitVec 64} (val : BitVec 64) (reason : Nat) (hinh : (s.th t).inh = false)
    (hvec : vec ≠ 0#64) (hto : VectorOf s t code vec) (hin : ∀ c, (s.th t).clause = some c → (s.th t).widx ≤ c.count) :
    ((takeTrap t code val reason (s.th t).widx).run s).groups = s.groups := by
  rw [takeTrap_run val reason hinh hvec hto hin, applyAll_cons,
    (applyAll_spares _ _ (by rw [List.all_cons, progress_spares]; rfl)).2.1]
  exact (closeWindows_onlyRegs s t).groups

theorem vectoredFor_iff (s : State) (t : TId) (cause : Nat) (vec : BitVec 64) : VectoredFor s t cause vec ↔
    VectorOf s t cause vec ∧ vec ≠ 0#64 ∧ (s.th t).inh = false ∧ ∀ c, (s.th t).clause = some c → (s.th t).widx ≤ c.count := by
  unfold VectoredFor VectorOf
  by_cases hc : cause = 1
  · rw [if_pos hc, if_pos (show cause = cIllegal from hc)]
  · rw [if_neg hc, if_neg (show cause ≠ cIllegal from hc)]
    exact ⟨fun h => ⟨h.ctx, h.some, h.level, h.inside⟩, fun ⟨h1, h2, h3, h4⟩ => ⟨h1, h2, h3, h4⟩⟩

theorem Vectored.vectoredFor {s : State} {t : TId} {cause : Nat} {vec : BitVec 64} (h : Vectored s t vec) (hc : cause ≠ 1) :
    VectoredFor s t cause vec := by
  unfold VectoredFor
  rw [if_neg hc]
  exact h

/-- A trap at a header, after what the fetch has changed, is the trap of R237 with WIDX 1. -/
theorem AtHeader.step_trap {s s1 b : State} {t : TId} {rest : List Turn} {cause reason : Nat} {val vec : BitVec 64}
    (h : AtHeader s s1 t rest) (hh : Unhosted s1 t) (hb : SameButCaches (alone s1 t) b) (hv : VectoredFor s1 t cause vec)
    (hf : frontEnter t (alone s1 t) = .done ((perThread fun u => takeTrap u cause val reason 1).run b)) :
    ∃ s', step s = .next s' ∧ Trapped s1 s' t vec cause val reason := by
  obtain ⟨hto, hvec, hinh, hin⟩ := (vectoredFor_iff s1 t cause vec).mp hv
  have hcur : b.cur = ⟨t.gid, [t]⟩ := by obtain ⟨_, _, rfl⟩ := hb; rfl
  have hth : b.th t = s1.th t := hb.th t
  have hto' : VectorOf b t cause vec := by unfold VectorOf; rw [hb.gr, hb.ctxOf]; exact hto
  have hrun : (perThread fun u => takeTrap u cause val reason 1).run b = (takeTrap t cause val reason (b.th t).widx).run b := by
    rw [run_perThread, hcur, hth, show (s1.th t).widx = 1 from h.first]
    rfl
  have hinh' : (b.th t).inh = false := by rw [hth]; exact hinh
  have hin' : ∀ c, (b.th t).clause = some c → (b.th t).widx ≤ c.count := by rw [hth]; exact hin
  have htrap := takeTrap_trapped val reason (by rw [hb.thread?]; exact h.exists) hinh' hvec hto' hin'
  have hgroups := takeTrap_groups val reason hinh' hvec hto' hin'
  rw [hrun] at hf
  obtain ⟨s', hs', hself⟩ := h.step_done hf (by rw [run_cur]; exact hcur) (by rw [gr_of_groups hgroups, hb.gr]; exact hh)
  obtain ⟨stand, tpc, tval, tcause⟩ := Trapped.of_th hself htrap
  rw [hth] at tpc tcause
  exact ⟨s', hs', stand, tpc, tval, tcause⟩

/-- What the front at a header leaves, by what entering the clause meets. -/
theorem frontEnter_bad {t : TId} {s : State} {cause : Nat} {val : BitVec 64} {us : List Upd}
    (h : fetchClause s t (s.th t).pc = (.bad cause val, us)) :
    frontEnter t s = .done ((perThread fun u => takeTrap u cause val 0 1).run (s.applyAll us)) := by
  simp only [frontEnter, h]

theorem frontEnter_fault {t : TId} {s : State} {r : Nat} {va : BitVec 64} {us : List Upd}
    (h : fetchClause s t (s.th t).pc = (.fault r va, us)) :
    frontEnter t s = .done ((perThread fun u => offer u va r (takeTrap u cPfault va r 1)).run (s.applyAll us)) := by
  simp only [frontEnter, h]

/-- What the front leaves once the threads have entered a clause. -/
def frontEntered (c : Clause) (t : TId) (s : State) : Front :=
  if (s.th t).clause.isNone then .done s
  else if !c.isInstr (s.th t).widx then .done ((perThread fun u =>
    if c.implicit then .upds [.thread u fun y => y.goTo (wordAddr y.pc true y.widx)]
    else takeTrap u cIclause (BitVec.ofNat 64 (s.th t).widx) 0 1).run s)
  else frontAt t s

theorem frontEnter_ok {t : TId} {s : State} {c : Clause} {us : List Upd} (h : fetchClause s t (s.th t).pc = (.ok c, us)) :
    frontEnter t s = frontEntered c t ((perThread (enters c)).run (s.applyAll us)) := by
  unfold frontEnter
  dsimp only
  rw [h]
  rfl

/-- A check that fails at a header raises its cause. -/
theorem AtHeader.step_bad {s s1 : State} {t : TId} {rest : List Turn} {cause : Nat} {val vec : BitVec 64} {us : List Upd}
    (h : AtHeader s s1 t rest) (hh : Unhosted s1 t) (hv : VectoredFor s1 t cause vec) (hus : ∀ u ∈ us, CacheUpd u)
    (hf : fetchClause (alone s1 t) t (s1.th t).pc = (.bad cause val, us)) :
    ∃ s', step s = .next s' ∧ Trapped s1 s' t vec cause val 0 :=
  h.step_trap hh (.applyAll _ hus) hv (frontEnter_bad hf)

/-- A fetch that faults is offered to the kernel when it is NOMAP or PERM and none was denied; PFAULT otherwise. -/
theorem AtHeader.step_fault {s s1 : State} {t : TId} {rest : List Turn} {r : Nat} {va vec : BitVec 64} {us : List Upd}
    (h : AtHeader s s1 t rest) (hh : Unhosted s1 t) (hv : Vectored s1 t vec) (hus : ∀ u ∈ us, CacheUpd u)
    (hf : fetchClause (alone s1 t) t (s1.th t).pc = (.fault r va, us)) :
    ∃ s', step s = .next s' ∧
      ((r = 4 ∨ r = 5) → (s1.th t).denied = false → (s'.th t).run = .offered va (BitVec.ofNat 4 r) ∧ (s'.th t).pc = (s1.th t).pc) ∧
      ((r ≠ 4 ∧ r ≠ 5) ∨ (s1.th t).denied = true → Trapped s1 s' t vec 5 va r) := by
  have hb : SameButCaches (alone s1 t) ((alone s1 t).applyAll us) := .applyAll _ hus
  have hfront := frontEnter_fault (s := alone s1 t) hf
  generalize (alone s1 t).applyAll us = b at *
  have hcur : b.cur = ⟨t.gid, [t]⟩ := by obtain ⟨_, _, rfl⟩ := hb; rfl
  have hth : b.th t = s1.th t := hb.th t
  rw [run_perThread, hcur, run_each_cons, run_each_nil, offer, run_read, hth] at hfront
  by_cases hoff : (r = rNomap ∨ r = rPerm) ∧ (s1.th t).denied = false
  · rw [if_pos hoff, run_upds, applyAll_cons] at hfront
    obtain ⟨s', hs', hself⟩ := h.step_done hfront (by rw [applyAll_cur]; exact hcur)
      (by rw [gr_applyAll_spares _ _ (by rfl)]; exact (congrArg Group.hosted (hb.gr t.gid)).trans hh)
    have hnew := th_apply_thread_keep (f := fun x => { x with run := .offered va (BitVec.ofNat 4 r) })
      (show (b.thread? t).isSome = true by rw [hb.thread?]; exact h.exists) (by exact th_id)
    rw [th_applyAll_spares _ t (by rfl), hnew, hth] at hself
    refine ⟨s', hs', fun _ _ => by rw [hself]; exact ⟨rfl, rfl⟩, fun hno => ?_⟩
    rcases hno with ⟨h4, h5⟩ | hd
    · exact absurd hoff.1 (by rintro (h | h) <;> contradiction)
    · rw [hoff.2] at hd; cases hd
  · rw [if_neg hoff] at hfront
    obtain ⟨s', hs', htrap⟩ := h.step_trap hh hb (hv.vectoredFor (cause := cPfault) (by decide))
      (hfront.trans (by rw [run_perThread, hcur]; rfl))
    exact ⟨s', hs', fun hr hd => absurd ⟨hr, hd⟩ hoff, fun _ => htrap⟩

/-- A clause that passes its checks is entered, and its first instruction executes. -/
theorem AtHeader.step_enters {s s1 : State} {t : TId} {rest : List Turn} {c : Clause} {i : Instr} {us : List Upd}
    (h : AtHeader s s1 t rest) (hus : ∀ u ∈ us, CacheUpd u) (hf : fetchClause (alone s1 t) t (s1.th t).pc = (.ok c, us))
    (hcount : 0 < c.count) (hfirst : c.isInstr 1 = true) (hd : decodeWord (c.word 1) (c.word 2) = .ok i) :
    ∃ s', step s = ended s1 [t] (exec i s') ∧ (s'.th t).clause = some c ∧ (s'.th t).pc = (s1.th t).pc ∧ (s'.th t).widx = 1 ∧
      s'.cur = ⟨t.gid, [t]⟩ := by
  have hb : SameButCaches (alone s1 t) ((alone s1 t).applyAll us) := .applyAll _ hus
  have hcur : ((alone s1 t).applyAll us).cur = ⟨t.gid, [t]⟩ := applyAll_cur _ _
  have hth : ((alone s1 t).applyAll us).th t = s1.th t := hb.th t
  obtain ⟨hresume, hifpN, hifpVoid⟩ := h.guard
  obtain ⟨m, hm⟩ := enters_th (s := (alone s1 t).applyAll us) c (by rw [hb.thread?]; exact h.exists) (by rw [hth]; exact h.first)
    (by rw [hth]; exact hresume) (by rw [hth]; exact hifpVoid) hcount
  rw [hth] at hm
  have hcur' : ((enters c t).run ((alone s1 t).applyAll us)).cur = ⟨t.gid, [t]⟩ := by rw [run_cur, hcur]
  have hfront := frontEnter_ok (s := alone s1 t) hf
  rw [run_perThread, hcur, run_each_cons, run_each_nil] at hfront
  generalize (enters c t).run ((alone s1 t).applyAll us) = b at *
  have hrep : (s1.th t).rep = none := h.rep
  have hw : (s1.th t).widx = 1 := h.first
  have hwidx : (b.th t).widx = 1 := by rw [hm]; exact hw
  have hclause : (b.th t).clause = some c := by rw [hm]
  have hexec : frontEnter t (alone s1 t) = .exec i b := by
    rw [hfront, frontEntered, hclause, hwidx, hfirst]
    refine frontAt_exec (c := c) hclause ?_ (.inl ⟨by rw [hm]; exact hrep, by rw [hwidx]; exact hd⟩)
    simp [Thread.voided, hm, hifpN]
  exact ⟨b, h.step_exec hexec, hclause, by rw [hm], hwidx, hcur'⟩

theorem cacheUpd_of_fetchWord {s : State} {a : Agent} {va : BitVec 64} {r : Except Nat Word} {us : List Upd}
    (h : fetchWord s a va = (r, us)) : ∀ u ∈ us, CacheUpd u := by
  have := cacheUpd_fetchWord s a va
  rwa [h] at this

theorem cacheUpd_of_fetchWords {s : State} {a : Agent} {va : BitVec 64} {n : Nat} {r : Except (Nat × BitVec 64) (List Word)} {us : List Upd}
    (h : fetchWords s a va n = (r, us)) : ∀ u ∈ us, CacheUpd u := by
  have := cacheUpd_fetchWords s a n va
  rwa [h] at this

/-- Settles O5: by what fetching and checking the clause meets. -/
theorem stepEntersClause : Obligations.StepEntersClause := by
  refine ⟨?_, ?_, ?_, ?_, ?_⟩
  · intro s s1 t rest h ws us vs i hat s2 c hpc hw hgood hws hcheck hd
    have hcount := count_pos_of_headerGood hgood
    have hne : ws ≠ [] := fun h0 => by
      have hlen := fetchWords_length _ _ hws
      rw [h0, List.length_nil] at hlen
      omega
    exact hat.step_enters (List.forall_mem_append.mpr ⟨cacheUpd_of_fetchWord hw, cacheUpd_of_fetchWords hws⟩)
      (fetchClause_ok (s := s2) hpc hat.gen hw hgood hws hcheck) (by rw [count_eq]; exact hcount) (isInstr_first hne) hd
  · intro s s1 t rest h us vec hat hh s2 hpc hw hbad hv
    exact hat.step_bad hh (hv.vectoredFor (by decide)) (cacheUpd_of_fetchWord hw) (fetchClause_badHeader (s := s2) hpc hat.gen hw hbad)
  · intro s s1 t rest h ws us vs cause w vec hat hh s2 hpc hw hgood hws hcheck hv
    exact ⟨checkItems_cause _ _ _ hcheck,
      hat.step_bad hh hv (List.forall_mem_append.mpr ⟨cacheUpd_of_fetchWord hw, cacheUpd_of_fetchWords hws⟩)
        (fetchClause_badWord (s := s2) hpc hat.gen hw hgood hws hcheck)⟩
  · intro s s1 t rest r va vec hat hh s2 hpc hfault hv
    rcases hfault with ⟨hr, rfl⟩ | ⟨h, us, hw, hgood, hr⟩
    · have hw : fetchWord s2 (agentOf s2 t) (s1.th t).pc = (.error r, _) := Prod.ext hr rfl
      exact hat.step_fault hh hv (cacheUpd_of_fetchWord hw) (fetchClause_noHeader (s := s2) hpc hw)
    · have hws : fetchWords s2 (agentOf s2 t) ((s1.th t).pc + 4#64) (field h 0 4).toNat = (.error (r, va), _) := Prod.ext hr rfl
      exact hat.step_fault hh hv (List.forall_mem_append.mpr ⟨cacheUpd_of_fetchWord hw, cacheUpd_of_fetchWords hws⟩)
        (fetchClause_noWord (s := s2) hpc hat.gen hw hgood hws)
  · intro s s1 t rest vec hat hh hpc hv
    exact hat.step_bad hh (hv.vectoredFor (by decide)) (List.forall_mem_nil _) (if_pos hpc)

end Sys2Proof.Machine
end

section
/-! The home gives up sectors, and a combining buffer drains (R139, R140): the bytes that the homes hold are those that stood, with the
buffer's written over them; what a drain leaves of threads and groups. -/

open Sys2Proof Sys2Proof.Machine

namespace Sys2Proof.Machine

theorem Settled.homes {s : State} (h : Settled s) : Homes s := ⟨h.safe.mem, h.lines, h.sectors, h.sixteen, h.clean⟩

/-! ## Sectors that the home gives up -/

/-- The home has dropped the sectors of a line whose numbers are listed. -/
structure GivesUp (line : Nat) (secs : List Nat) (a b : State) : Prop where
  lines : (b.part.l2.map L2Line.line).Sublist (a.part.l2.map L2Line.line)
  kept : ∀ l ∈ b.part.l2, ∃ m ∈ a.part.l2, l.line = m.line ∧ l.secs.Sublist m.secs ∧
    (l.line = line → ∀ x ∈ l.secs, secs.contains x.i = false)
  gone : ∀ k, k / 128 = line → secs.contains (k / 16 % 8) = true → sectorOf b k = none
  still : ∀ k, ¬ (k / 128 = line ∧ secs.contains (k / 16 % 8) = true) → sectorOf b k = sectorOf a k

/-- A line's sectors of the listed numbers. -/
def L2Line.listed (l : L2Line) (secs : List Nat) : L2Line := { l with secs := l.secs.filter fun x => secs.contains x.i }

theorem cleanLine_some {s : State} {line : Nat} {l : L2Line} (secs : List Nat) (h : s.l2Line? line = some l) : cleanLine s line secs =
    (l.listed secs).writeBack ++
      (if l.secs.all (fun x => secs.contains x.i) then [dropLine line]
       else [updLine line fun l => { l with secs := l.secs.filter fun x => !secs.contains x.i }]) := by
  have hline : l.line = line := (mem_of_l2Line? h).2
  have hback : ∀ xs : List Sector,
      ((xs.filter fun x => secs.contains x.i && x.dirty).map fun x => Upd.store (line * 128 + x.i * 16) x.data) =
        (xs.filter fun x => secs.contains x.i).filterMap fun x =>
          if x.dirty then some (Upd.store (line * 128 + x.i * 16) x.data) else none := by
    intro xs
    induction xs with
    | nil => rfl
    | cons x xs ih =>
      cases hc : secs.contains x.i <;> cases hd : x.dirty <;>
        simp only [List.filter_cons, hc, hd, Bool.and_false, Bool.and_true, Bool.false_eq_true, if_true, if_false, List.map_cons,
          List.filterMap_cons, ih]
  simp only [cleanLine, h, L2Line.writeBack, L2Line.listed, hback, hline]

theorem givesUp_drop {a b : State} {line : Nat} {l : L2Line} {secs : List Nat} (h : a.l2Line? line = some l)
    (hall : l.secs.all (fun x => secs.contains x.i) = true) (hl2 : b.part.l2 = a.part.l2.filter fun l => l.line != line) :
    GivesUp line secs a b := by
  have hfind (n : Nat) : b.l2Line? n = if n = line then none else a.l2Line? n := by
    simp only [State.l2Line?, hl2, List.find?_filter]
    split
    · next hn => simp [hn]
    · next hn =>
      congr 1
      funext l
      by_cases hl : l.line = n <;> simp [hl, hn]
  refine ⟨by rw [hl2]; exact List.filter_sublist.map _, ?_, fun k hk _ => by rw [sectorOf, hfind, if_pos hk]; rfl, fun k hk => ?_⟩
  · intro m hm
    obtain ⟨hm, hne⟩ := List.mem_filter.mp (hl2 ▸ hm)
    exact ⟨m, hm, rfl, List.Sublist.refl _, fun he => absurd he (by simpa using hne)⟩
  · by_cases hline : k / 128 = line
    · rw [sectorOf, sectorOf, hfind, if_pos hline, hline, h]
      refine (List.find?_eq_none.mpr fun x hx hi => hk ⟨hline, ?_⟩).symm
      rw [← show x.i = k / 16 % 8 by simpa using hi]
      exact List.all_eq_true.mp hall x hx
    · rw [sectorOf, sectorOf, hfind, if_neg hline]

theorem givesUp_update {a b : State} {line : Nat} {secs : List Nat}
    (hl2 : b.part.l2 = a.part.l2.map fun l => if l.line = line then { l with secs := l.secs.filter fun x => !secs.contains x.i } else l) :
    GivesUp line secs a b := by
  have hnum : L2Line.line ∘ (fun l => if l.line = line then { l with secs := l.secs.filter fun x => !secs.contains x.i } else l) =
      L2Line.line := by
    funext l
    simp only [Function.comp]
    split <;> rfl
  have hfind (n : Nat) : b.l2Line? n =
      (a.l2Line? n).map fun l => if l.line = line then { l with secs := l.secs.filter fun x => !secs.contains x.i } else l := by
    rw [State.l2Line?, State.l2Line?, hl2, List.find?_map]
    congr 2
    funext l
    exact congrArg (· == n) (congrFun hnum l)
  refine ⟨by rw [hl2, List.map_map, hnum], ?_, fun k hk hc => ?_, fun k hk => ?_⟩
  · rw [hl2, List.forall_mem_map]
    intro m hm
    refine ⟨m, hm, congrFun hnum m, ?_, fun he => ?_⟩
    · split
      · exact List.filter_sublist
      · exact List.Sublist.refl _
    · rw [if_pos ((congrFun hnum m).symm.trans he)]
      exact fun x hx => by simpa using (List.mem_filter.mp hx).2
  · rw [sectorOf, hfind, hk]
    cases hl : a.l2Line? line with
    | none => rfl
    | some l =>
      rw [Option.map_some, Option.bind_some, if_pos (mem_of_l2Line? hl).2]
      refine List.find?_eq_none.mpr fun x hx hi => ?_
      have hnc := (List.mem_filter.mp hx).2
      rw [show x.i = k / 16 % 8 by simpa using hi, hc] at hnc
      cases hnc
  · rw [sectorOf, sectorOf, hfind]
    cases hl : a.l2Line? (k / 128) with
    | none => rfl
    | some l =>
      rw [Option.map_some, Option.bind_some, Option.bind_some]
      split
      next hline =>
        have hc : secs.contains (k / 16 % 8) = false :=
          Bool.eq_false_iff.mpr fun hc => hk ⟨(mem_of_l2Line? hl).2.symm.trans hline, hc⟩
        rw [L2Line.sec?, List.find?_filter, L2Line.sec?]
        congr 1
        funext x
        by_cases hi : x.i = k / 16 % 8
        · have hne : k / 16 % 8 ∉ secs := by simpa using hc
          simp [hi, hne]
        · simp [hi]
      next => rfl

/-- The home writes back and gives up sectors of a line: it holds the same bytes, and the sectors no more. -/
theorem SameHomes.cleanLine {s : State} (h : Homes s) (line : Nat) (secs : List Nat) :
    SameHomes s (s.applyAll (Machine.cleanLine s line secs)) ∧ GivesUp line secs s (s.applyAll (Machine.cleanLine s line secs)) := by
  cases hl : s.l2Line? line with
  | none =>
    have hnone : Machine.cleanLine s line secs = [] := by simp only [Machine.cleanLine, hl]
    rw [hnone]
    refine ⟨.of_eq h rfl rfl, List.Sublist.refl _, fun l hm => ⟨l, hm, rfl, List.Sublist.refl _, fun he => ?_⟩, fun k hk _ => ?_,
      fun _ _ => rfl⟩
    · exact absurd he (by simpa using List.find?_eq_none.mp hl l hm)
    · rw [applyAll_nil, sectorOf, hk, hl]; rfl
  | some l =>
    obtain ⟨hmem, hnum⟩ := mem_of_l2Line? hl
    have hsub : ∀ x ∈ (l.listed secs).secs, x ∈ l.secs := fun x hx => (List.mem_filter.mp hx).1
    have hback := byte_writeBack (l.listed secs).secs (s := s) line h.wf ((h.sectors l hmem).sublist (List.filter_sublist.map _))
      fun x hx => (h.sixteen l hmem x (hsub x hx)).2
    have hwf := applyAll_mem_wf (l.listed secs).writeBack s h.wf
    have hpart := applyAll_writeBack_part (l.listed secs) s
    have hwb : (l.listed secs).writeBack = (l.listed secs).secs.filterMap fun x =>
        if x.dirty then some (Upd.store (line * 128 + x.i * 16) x.data) else none := by
      simp only [L2Line.writeBack, L2Line.listed, hnum]
    rw [← hwb] at hback
    rw [cleanLine_some secs hl, applyAll_append]
    dsimp only at hback
    generalize s.applyAll (l.listed secs).writeBack = b at hback hwf hpart ⊢
    have hgives : ∃ c, (if l.secs.all (fun x => secs.contains x.i) then [dropLine line]
        else [updLine line fun l => { l with secs := l.secs.filter fun x => !secs.contains x.i }]) = [c] ∧
        (c.apply b).mem = b.mem ∧ GivesUp line secs s (c.apply b) := by
      by_cases hall : l.secs.all (fun x => secs.contains x.i) = true
      · exact ⟨_, if_pos hall, rfl, givesUp_drop hl hall (by rw [← hpart]; rfl)⟩
      · exact ⟨_, if_neg hall, rfl, givesUp_update (by rw [← hpart]; rfl)⟩
    obtain ⟨c, hc, hcm, hg⟩ := hgives
    rw [hc, applyAll_cons, applyAll_nil]
    generalize c.apply b = s' at hcm hg ⊢
    have hbyte (k : Nat) : s'.byte k = b.byte k := by rw [State.byte, State.byte, hcm]
    -- a byte outside the sectors given up stands as it stood
    have hout {k : Nat} (hk : ¬ (k / 128 = line ∧ secs.contains (k / 16 % 8) = true)) : s'.byte k = s.byte k := by
      rw [hbyte]
      refine (hback k).2 fun x hx _ hin => hk ?_
      have hi := (h.sixteen l hmem x (hsub x hx)).1
      have hsec : k / 16 % 8 = x.i := by omega
      exact ⟨by omega, by rw [hsec]; exact (List.mem_filter.mp hx).2⟩
    refine ⟨.of_bytes ⟨by rw [hcm]; exact hwf, h.lines.sublist hg.lines, ?_, ?_, ?_⟩ fun k => ?_, hg⟩
    · intro m hm
      obtain ⟨m0, hm0, _, hs, _⟩ := hg.kept m hm
      exact (h.sectors m0 hm0).sublist (hs.map _)
    · intro m hm x hx
      obtain ⟨m0, hm0, _, hs, _⟩ := hg.kept m hm
      exact h.sixteen m0 hm0 x (hs.subset hx)
    · intro m hm x hx hd
      obtain ⟨m0, hm0, hline, hs, hno⟩ := hg.kept m hm
      have hi := (h.sixteen m0 hm0 x (hs.subset hx)).1
      rw [h.clean m0 hm0 x (hs.subset hx) hd, ← hline]
      refine (bytes_congr 16 _ fun i hi16 => hout fun hin => ?_).symm
      have hsec : (m.line * 128 + x.i * 16 + i) / 16 % 8 = x.i := by omega
      have hmline : m.line = line := by omega
      rw [hsec, hno hmline x hx] at hin
      exact Bool.false_ne_true hin.2
    · by_cases hk : k / 128 = line ∧ secs.contains (k / 16 % 8) = true
      · rw [homeByte_of_frame (hg.gone k hk.1 hk.2), hbyte]
        have hsec : sectorOf s k = l.sec? (k / 16 % 8) := by rw [sectorOf, hk.1, hl]; rfl
        cases hx : l.sec? (k / 16 % 8) with
        | none =>
          rw [homeByte_of_frame (hsec.trans hx)]
          refine (hback k).2 fun x hxm _ hin => List.find?_eq_none.mp hx x (hsub x hxm) ?_
          have := (h.sixteen l hmem x (hsub x hxm)).1
          simp only [beq_iff_eq]
          omega
        | some x =>
          obtain ⟨hxm, hi⟩ := mem_of_sec? hx
          have hlist : x ∈ (l.listed secs).secs := List.mem_filter.mpr ⟨hxm, by rw [hi]; exact hk.2⟩
          have hoff : k - (line * 128 + x.i * 16) = k % 16 := by omega
          rw [homeByte_of_sector (hsec.trans hx), ← hoff]
          cases hd : x.dirty with
          | true => exact (hback k).1 x hlist hd (by omega) (by omega)
          | false =>
            rw [h.clean l hmem x hxm hd, hnum, getD_bytes s 16 _ _ (by omega), Nat.add_sub_cancel' (by omega)]
            refine (hback k).2 fun y hy hyd hin => ?_
            have heq : y = x := List.inj_on_of_nodup_map (h.sectors l hmem) (hsub y hy) hxm (by omega)
            rw [heq, hd] at hyd
            cases hyd
      · exact homeByte_congr (hg.still k hk) fun _ => hout hk

/-- Noting a write leaves what the home gives up. -/
theorem cleanLine_beforeWrite (s : State) (line n : Nat) (secs : List Nat) :
    cleanLine ((beforeWrite n).apply s) line secs = cleanLine s line secs := by
  simp only [cleanLine, beforeWrite_l2Line?]
  cases s.l2Line? line with
  | none => rfl
  | some l =>
    simp only [Option.map_some]
    split <;> rfl

/-! ## Bytes of a line, written at the memory side -/

/-- The sectors of a line that bytes touch. -/
def touched (line : Nat) (bytes : List (Nat × Byte)) : List Nat :=
  (List.range 8).filter fun i => bytes.any fun c => c.1 / 16 == line * 8 + i

theorem touched_of_mem {line : Nat} {bytes : List (Nat × Byte)} {a : Nat} (h : bytes.any (fun c => c.1 == a) = true) (ha : a / 128 = line) :
    (touched line bytes).contains (a / 16 % 8) = true := by
  obtain ⟨c, hc, he⟩ := List.any_eq_true.mp h
  rw [List.contains_iff_mem]
  refine List.mem_filter.mpr ⟨List.mem_range.mpr (Nat.mod_lt _ (by decide)), List.any_eq_true.mpr ⟨c, hc, ?_⟩⟩
  simp only [beq_iff_eq] at he ⊢
  omega

/-- Writes of bytes that a memory-side write of a line's bytes has. -/
def Written (s s' : State) (bytes : List (Nat × Byte)) : Prop :=
  ∀ a, homeByte s' a = if bytes.any (fun c => c.1 == a) then Memory.get (Memory.setAll s.mem bytes) a else homeByte s a

/-- The bytes of a line, written where its home has given up their sectors. -/
theorem stores_written {s b : State} {line : Nat} {bytes : List (Nat × Byte)} (hs : Memory.wf s.mem = true) (h : SameHomes s b)
    (hg : ∀ k, k / 128 = line → (touched line bytes).contains (k / 16 % 8) = true → sectorOf b k = none)
    (hl : ∀ l ∈ b.part.l2, l.line = line → ∀ x ∈ l.secs, (touched line bytes).contains x.i = false)
    (hbytes : ∀ c ∈ bytes, c.1 / 128 = line) :
    Homes ((Upd.stores bytes).apply b) ∧ Written s ((Upd.stores bytes).apply b) bytes := by
  have hsec (k : Nat) : sectorOf ((Upd.stores bytes).apply b) k = sectorOf b k := rfl
  have hmem (k : Nat) : ((Upd.stores bytes).apply b).byte k = Memory.get (Memory.setAll b.mem bytes) k := rfl
  have hline {k : Nat} (hk : bytes.any (fun c => c.1 == k) = true) : k / 128 = line := by
    obtain ⟨c, hc, he⟩ := List.any_eq_true.mp hk
    rw [← show c.1 = k by simpa using he]
    exact hbytes c hc
  have hout {k : Nat} (hk : ¬ bytes.any (fun c => c.1 == k) = true) : ((Upd.stores bytes).apply b).byte k = b.byte k :=
    Memory.get_setAll_of_notMem bytes b.mem k fun c hc he => hk (List.any_eq_true.mpr ⟨c, hc, by simpa using he⟩)
  refine ⟨⟨Memory.wf_setAll bytes h.homes.wf, h.homes.lines, h.homes.sectors, h.homes.sixteen, fun l hm x hx hd => ?_⟩, fun k => ?_⟩
  · rw [h.homes.clean l hm x hx hd]
    refine (bytes_congr 16 _ fun i hi => hout fun hin => ?_).symm
    have hx8 := (h.homes.sixteen l hm x hx).1
    have hk := hline hin
    have ht := touched_of_mem hin hk
    rw [show (l.line * 128 + x.i * 16 + i) / 16 % 8 = x.i by omega, hl l hm (by omega) x hx] at ht
    cases ht
  · split
    next hin =>
      obtain ⟨c, hc, he⟩ := List.any_eq_true.mp hin
      rw [homeByte_of_frame ((hsec k).trans (hg k (hline hin) (touched_of_mem hin (hline hin)))), hmem]
      exact Memory.get_setAll_congr bytes k h.homes.wf hs (.inr ⟨c, hc, by simpa using he⟩)
    next hin => rw [homeByte_congr (hsec k) fun _ => hout hin, h.byte]

/-- What a drain does to the homes. -/
theorem drain_written {s : State} (h : Homes s) {line : Nat} {bytes : List (Nat × Byte)} (hbytes : ∀ c ∈ bytes, c.1 / 128 = line) :
    let s' := s.applyAll ([beforeWrite line] ++ cleanLine s line (touched line bytes) ++ [.stores bytes])
    Homes s' ∧ Written s s' bytes := by
  have hnote := SameHomes.beforeWrite h line
  obtain ⟨hclean, hg⟩ := SameHomes.cleanLine hnote.homes line (touched line bytes)
  rw [cleanLine_beforeWrite] at hclean hg
  rw [applyAll_append, applyAll_append, applyAll_cons, applyAll_nil]
  refine stores_written h.wf (Rewrites.after hnote hclean) hg.gone (fun l hl he => ?_) hbytes
  obtain ⟨_, _, _, _, hno⟩ := hg.kept l hl
  exact hno he

/-! ## What follows the bytes of a drain -/

/-- An update that leaves bytes and lines. -/
def LinesKept (u : Upd) : Prop := ∀ s, (u.apply s).mem = s.mem ∧ (u.apply s).part.l2 = s.part.l2

theorem linesKept_applyAll {us : List Upd} (s : State) (h : ∀ u ∈ us, LinesKept u) :
    (s.applyAll us).mem = s.mem ∧ (s.applyAll us).part.l2 = s.part.l2 :=
  updates_rel (fun a b => b.mem = a.mem ∧ b.part.l2 = a.part.l2) (fun _ => ⟨rfl, rfl⟩)
    (fun _ _ _ h g => ⟨g.1.trans h.1, g.2.trans h.2⟩) us s fun u hu a => h u hu a

theorem linesKept_thread (t : TId) (f : Thread → Thread) : LinesKept (.thread t f) := fun _ => ⟨rfl, rfl⟩

theorem CopyUpd.linesKept {u : Upd} (h : CopyUpd u) : LinesKept u := fun s => (h s).2

/-- What is noted of a buffer's stores once they stand: its copies and their matches. -/
def afterDrain (s : State) (t : TId) (b : WcBuffer) : List Upd :=
  (if (agentOf s t).copies then ((agentOf s t).core.map fun c => updateL1 c b.bytes).toList else []) ++
    ((touched b.line b.bytes).flatMap fun i => copiesAfterWrite s { agentOf s t with copies := false } 0 ((b.line * 8 + i) * 16) [])

theorem drainBuffer_some {s : State} {t : TId} {b : WcBuffer} (h : (s.th t).wcBuf = some b) :
    drainBuffer s t = [beforeWrite b.line] ++ cleanLine s b.line (touched b.line b.bytes) ++ [.stores b.bytes] ++
      (.thread t (fun x => { x with wcBuf := none }) :: (afterDrain s t b ++ drainMatches t b.accs s)) := by
  simp only [drainBuffer, h, afterDrain, touched, List.append_assoc, List.cons_append, List.nil_append]

theorem afterDrain_copies (s : State) (t : TId) (b : WcBuffer) : ∀ u ∈ afterDrain s t b, CopyUpd u := by
  refine List.forall_mem_append.mpr ⟨fun u hu => ?_, fun u hu => ?_⟩
  · split at hu
    · obtain ⟨c, _, rfl⟩ := Option.map_eq_some_iff.mp (Option.mem_toList.mp hu)
      exact fun _ => ⟨rfl, rfl, rfl⟩
    · cases hu
  · obtain ⟨i, _, hu⟩ := List.mem_flatMap.mp hu
    exact copyUpd_copiesAfterWrite _ _ _ _ _ u hu

/-! ## The matches of a drain -/

/-- From `a` to `b` at most what thread `t` has still to take as a WATCH, and shutters of groups, differ, of threads, groups and teams. -/
structure Watches (t : TId) (a b : State) : Prop where
  self : ∃ w, b.th t = { a.th t with watch := w }
  others : ∀ u, u ≠ t → b.th u = a.th u
  some : ∀ u, (b.thread? u).isSome = (a.thread? u).isSome
  group : ∀ g, ∃ sh, b.gr g = { a.gr g with shutter := sh }
  groupSome : ∀ g, (b.group? g).isSome = (a.group? g).isSome
  teams : b.teams = a.teams
  next : b.nextId = a.nextId

theorem Watches.of_eq {t : TId} {a b : State} (h1 : b.threads = a.threads) (h2 : b.groups = a.groups) (h3 : b.teams = a.teams)
    (h4 : b.nextId = a.nextId) : Watches t a b where
  self := ⟨(a.th t).watch, by rw [th_of_threads h1]⟩
  others := fun u _ => th_of_threads h1 u
  some := fun u => by unfold State.thread?; rw [h1]
  group := fun g => ⟨(a.gr g).shutter, by rw [gr_of_groups h2]⟩
  groupSome := fun g => by unfold State.group?; rw [h2]
  teams := h3
  next := h4

theorem Watches.trans {t : TId} {a b c : State} (h : Watches t a b) (g : Watches t b c) : Watches t a c where
  self := by
    obtain ⟨v, hv⟩ := h.self
    obtain ⟨w, hw⟩ := g.self
    exact ⟨w, by rw [hw, hv]⟩
  others := fun u hu => (g.others u hu).trans (h.others u hu)
  some := fun u => (g.some u).trans (h.some u)
  group := fun k => by
    obtain ⟨v, hv⟩ := h.group k
    obtain ⟨w, hw⟩ := g.group k
    exact ⟨w, by rw [hw, hv]⟩
  groupSome := fun k => (g.groupSome k).trans (h.groupSome k)
  teams := g.teams.trans h.teams
  next := g.next.trans h.next

theorem Watches.hosted {t : TId} {a b : State} (h : Watches t a b) (g : GId) : (b.gr g).hosted = (a.gr g).hosted := by
  obtain ⟨w, hw⟩ := h.group g
  rw [hw]

def WatchUpd (t : TId) (u : Upd) : Prop := ∀ a, Watches t a (u.apply a)

theorem Watches.applyAll {t : TId} {us : List Upd} (a : State) (h : ∀ u ∈ us, WatchUpd t u) : Watches t a (a.applyAll us) :=
  updates_rel (Watches t) (fun _ => .of_eq rfl rfl rfl rfl) (fun _ _ _ => .trans) us a fun u hu a => h u hu a

theorem watchUpd_part (t : TId) (f : Part → Part) : WatchUpd t (.part f) := fun _ => .of_eq rfl rfl rfl rfl
theorem watchUpd_event (t : TId) (i : Instr) : WatchUpd t (.event i) := fun _ => .of_eq rfl rfl rfl rfl
theorem watchUpd_store (t : TId) (k : Nat) (bs : List Byte) : WatchUpd t (.store k bs) := fun _ => .of_eq rfl rfl rfl rfl

theorem watchUpd_watch (t : TId) (f : Option (BitVec 64 × Nat) → Option (BitVec 64 × Nat)) :
    WatchUpd t (.thread t fun x => { x with watch := f x.watch }) := fun a =>
  { self := by
      by_cases he : (a.thread? t).isSome = true
      · exact ⟨_, th_apply_thread_keep he (by exact th_id)⟩
      · have hn : a.thread? t = none := Option.not_isSome_iff_eq_none.mp he
        refine ⟨(a.th t).watch, ?_⟩
        unfold State.th
        rw [thread?_apply_thread, hn]
        rfl
    others := fun u hu => th_apply_thread_ne a _ hu
    some := fun u => isSome_thread?_apply_thread a t u _
    group := fun g => ⟨_, rfl⟩
    groupSome := fun _ => rfl
    teams := rfl
    next := rfl }

theorem watchUpd_shutter (t : TId) (g : GId) (v : Option Bool) : WatchUpd t (.group g fun x => { x with shutter := v }) := fun a =>
  { self := ⟨_, rfl⟩
    others := fun _ _ => rfl
    some := fun _ => rfl
    group := fun k => by
      unfold State.gr
      rw [group?_apply_group]
      cases hx : a.group? k with
      | none => exact ⟨_, rfl⟩
      | some x =>
        by_cases hk : x.id = g
        · exact ⟨v, by rw [Option.map_some, Option.getD_some, mapGroup, if_pos hk]; rfl⟩
        · exact ⟨x.shutter, by rw [Option.map_some, Option.getD_some, mapGroup, if_neg hk]; rfl⟩
    groupSome := fun k => isSome_group?_apply_group a g k _
    teams := rfl
    next := rfl }

theorem watchUpd_matchFired (s : State) (t : TId) (m : Match) : ∀ u ∈ (matchFired s t m).2, WatchUpd t u := by
  cases m with
  | trip core act =>
    have once : ∀ u ∈ [tripOnce core], WatchUpd t u := List.forall_mem_singleton.mpr (watchUpd_part t _)
    simp only [matchFired]
    split
    · exact once
    · split
      · exact once
      · split
        · exact once
        · exact List.forall_mem_cons.mpr ⟨watchUpd_part t _,
            List.forall_mem_cons.mpr ⟨watchUpd_shutter t _ _, List.forall_mem_singleton.mpr (watchUpd_event t _)⟩⟩
  | watch m h traps stops =>
    simp only [matchFired]
    refine List.forall_mem_append.mpr ⟨fun u hu => ?_, ?_⟩
    · obtain ⟨i, _, hu⟩ := List.mem_flatMap.mp hu
      simp only [watchOnce] at hu
      split at hu
      · exact List.mem_singleton.mp hu ▸ watchUpd_store t _ _
      · cases hu
    · split
      · exact List.forall_mem_nil _
      · exact List.forall_mem_singleton.mpr (watchUpd_part t _)

/-- The match of one store that a drain performs. -/
def drainMatch (t : TId) (va : BitVec 64) (n v : Nat) (s : State) : List Upd :=
  match findMatch s t 1 va.toNat n v with
  | none => []
  | some m =>
    let r := matchFired s t m
    r.2 ++ (match r.1 with
      | .raise c => [.thread t fun x => { x with watch := x.watch.or (some (va, c)) }]
      | _ => [])

theorem drainMatches_cons (t : TId) (va : BitVec 64) (n v : Nat) (xs : List (BitVec 64 × Nat × Nat)) (s : State) :
    drainMatches t ((va, n, v) :: xs) s = drainMatch t va n v s ++ drainMatches t xs (s.applyAll (drainMatch t va n v s)) := rfl

theorem watchUpd_drainMatch (t : TId) (va : BitVec 64) (n v : Nat) (s : State) : ∀ u ∈ drainMatch t va n v s, WatchUpd t u := by
  unfold drainMatch
  split
  · exact List.forall_mem_nil _
  · refine List.forall_mem_append.mpr ⟨watchUpd_matchFired s t _, ?_⟩
    split
    next c _ => exact List.forall_mem_singleton.mpr (watchUpd_watch t fun w => w.or (some (va, c)))
    · exact List.forall_mem_nil _

theorem watchUpd_drainMatches (t : TId) : ∀ (xs : List (BitVec 64 × Nat × Nat)) (s : State), ∀ u ∈ drainMatches t xs s, WatchUpd t u
  | [], _ => List.forall_mem_nil _
  | (va, n, v) :: xs, s => by
    rw [drainMatches_cons]
    exact List.forall_mem_append.mpr ⟨watchUpd_drainMatch t va n v s, watchUpd_drainMatches t xs _⟩

/-- A match of a thread that no microscope core hosts is its trip register's. -/
theorem findMatch_unhosted {s : State} {t : TId} (h : Unhosted s t) {kind addr n v : Nat} {m : Match}
    (hm : findMatch s t kind addr n v = some m) : ∃ core act, m = .trip core act := by
  simp only [findMatch, show (s.gr t.gid).hosted = none from h, Option.ite_none_left_eq_some, Option.ite_none_right_eq_some] at hm
  exact ⟨_, _, (Option.some.inj hm.2.2).symm⟩

theorem linesKept_drainMatch {s : State} {t : TId} (h : Unhosted s t) (va : BitVec 64) (n v : Nat) :
    ∀ u ∈ drainMatch t va n v s, LinesKept u := by
  unfold drainMatch
  split
  · exact List.forall_mem_nil _
  next m hm =>
    obtain ⟨core, act, rfl⟩ := findMatch_unhosted h hm
    refine List.forall_mem_append.mpr ⟨?_, ?_⟩
    · have once : ∀ u ∈ [tripOnce core], LinesKept u := List.forall_mem_singleton.mpr fun _ => ⟨rfl, rfl⟩
      simp only [matchFired]
      split
      · exact once
      · split
        · exact once
        · split
          · exact once
          · exact List.forall_mem_cons.mpr ⟨fun _ => ⟨rfl, rfl⟩,
              List.forall_mem_cons.mpr ⟨fun _ => ⟨rfl, rfl⟩, List.forall_mem_singleton.mpr fun _ => ⟨rfl, rfl⟩⟩⟩
    · split
      · exact List.forall_mem_singleton.mpr fun _ => ⟨rfl, rfl⟩
      · exact List.forall_mem_nil _

theorem linesKept_drainMatches {t : TId} : ∀ (xs : List (BitVec 64 × Nat × Nat)) {s : State}, Unhosted s t →
    ∀ u ∈ drainMatches t xs s, LinesKept u
  | [], _, _ => List.forall_mem_nil _
  | (va, n, v) :: xs, s, h => by
    rw [drainMatches_cons]
    refine List.forall_mem_append.mpr ⟨linesKept_drainMatch h va n v, linesKept_drainMatches xs ?_⟩
    exact ((Watches.applyAll s (watchUpd_drainMatch t va n v s)).hosted t.gid).trans h

/-! ## A drain -/

theorem homeUpd_stores (cs : List (Nat × Byte)) : HomeUpd (.stores cs) := fun _ => rfl

theorem homeUpd_cleanLine (s : State) (line : Nat) (secs : List Nat) : ∀ u ∈ cleanLine s line secs, HomeUpd u := by
  cases hl : s.l2Line? line with
  | none => simp only [cleanLine, hl]; exact List.forall_mem_nil _
  | some l =>
    rw [cleanLine_some secs hl]
    refine List.forall_mem_append.mpr ⟨homeUpd_writeBack _, ?_⟩
    split
    · exact List.forall_mem_singleton.mpr (homeUpd_dropLine line)
    · exact List.forall_mem_singleton.mpr fun _ => rfl

theorem SameButHomes.watches {a b : State} (h : SameButHomes a b) (t : TId) : Watches t a b := by
  rw [SameButHomes] at h
  exact .of_eq (by rw [h]) (by rw [h]) (by rw [h]) (by rw [h])

/-- A drain empties the thread's buffer; of threads, groups and teams at most its matches show besides. -/
theorem drainBuffer_watches {s : State} {t : TId} {b : WcBuffer} (h : (s.th t).wcBuf = some b) :
    Watches t ((Upd.thread t fun x => { x with wcBuf := none }).apply s) (s.applyAll (drainBuffer s t)) := by
  rw [drainBuffer_some h, applyAll_append, applyAll_cons, applyAll_append]
  have hhomes : SameButHomes s (s.applyAll ([beforeWrite b.line] ++ cleanLine s b.line (touched b.line b.bytes) ++ [.stores b.bytes])) :=
    .applyAll s <| List.forall_mem_append.mpr ⟨List.forall_mem_append.mpr
      ⟨List.forall_mem_singleton.mpr (homeUpd_beforeWrite _), homeUpd_cleanLine s _ _⟩, List.forall_mem_singleton.mpr (homeUpd_stores _)⟩
  generalize s.applyAll ([beforeWrite b.line] ++ cleanLine s b.line (touched b.line b.bytes) ++ [.stores b.bytes]) = c at hhomes ⊢
  rw [SameButHomes] at hhomes
  have hthread : Watches t ((Upd.thread t fun x => { x with wcBuf := none }).apply s) ((Upd.thread t fun x => { x with wcBuf := none }).apply c) :=
    .of_eq (by rw [hhomes]; rfl) (by rw [hhomes]; rfl) (by rw [hhomes]; rfl) (by rw [hhomes]; rfl)
  refine hthread.trans ?_
  refine Watches.trans ?_ (.applyAll _ (watchUpd_drainMatches t b.accs s))
  exact (SameButHomes.applyAll _ fun u hu a => (afterDrain_copies s t b u hu a).1).watches t

/-- A drain of a thread that no microscope core hosts: bytes and lines are those that its buffer's write leaves. -/
theorem drainBuffer_lines {s : State} {t : TId} {b : WcBuffer} (h : (s.th t).wcBuf = some b) (hh : Unhosted s t) :
    let c := s.applyAll ([beforeWrite b.line] ++ cleanLine s b.line (touched b.line b.bytes) ++ [.stores b.bytes])
    (s.applyAll (drainBuffer s t)).mem = c.mem ∧ (s.applyAll (drainBuffer s t)).part.l2 = c.part.l2 := by
  intro c
  rw [drainBuffer_some h, applyAll_append]
  refine linesKept_applyAll _ (List.forall_mem_cons.mpr ⟨linesKept_thread _ _, List.forall_mem_append.mpr ⟨?_, linesKept_drainMatches _ hh⟩⟩)
  exact fun u hu => (afterDrain_copies s t b u hu).linesKept

theorem drainBuffer_written {s : State} {t : TId} {b : WcBuffer} (h : (s.th t).wcBuf = some b) (hh : Unhosted s t) (hs : Homes s)
    (hbytes : ∀ c ∈ b.bytes, c.1 / 128 = b.line) :
    Homes (s.applyAll (drainBuffer s t)) ∧ Written s (s.applyAll (drainBuffer s t)) b.bytes := by
  obtain ⟨hm, hl⟩ := drainBuffer_lines h hh
  obtain ⟨hhomes, hw⟩ := drain_written hs hbytes
  have hsame := SameHomes.of_eq hhomes hm hl
  exact ⟨hsame.homes, fun a => (hsame.byte a).trans (hw a)⟩

/-- Where the home holds no copy of its line, a drain writes the buffer's bytes and no others. -/
theorem drainBuffer_mem {s : State} {t : TId} {b : WcBuffer} (h : (s.th t).wcBuf = some b) (hh : Unhosted s t)
    (hno : s.l2Line? b.line = none) : (s.applyAll (drainBuffer s t)).mem = Memory.setAll s.mem b.bytes := by
  rw [(drainBuffer_lines h hh).1, show cleanLine s b.line (touched b.line b.bytes) = [] by simp only [cleanLine, hno]]
  rfl

end Sys2Proof.Machine
end

section
/-! Accesses complete: O29. Loads return, accesses are acknowledged, entries are granted, buffers drain and leases end. -/

open Sys2Proof Sys2Proof.Machine

namespace Sys2Proof.Machine

/-! ## An operation completes -/

/-- What follows the register write and the counter of an operation that completes. -/
def leaves (s : State) (o : Op) : List Upd :=
  [.dropOp o.id] ++ progress s o.t.team ++
    (if o.line.isSome && s.threads.any (fun x => x.run.rejected && (s.gr x.id.gid).core == o.core) then [.event (.mshrGrant o.core)] else [])

theorem completeOp_run {s : State} {o : Op} (h : s.op? o.id = some o) :
    (completeOp o.id).run s = ((s.applyAll (o.write s)).applyAll (o.settle s)).applyAll (leaves s o) := by
  simp only [completeOp, run_act, h, leaves, applyAll_append, List.append_assoc]

theorem leaves_spares (s : State) (o : Op) : (leaves s o).all Upd.spares = true := by
  unfold leaves
  rw [List.all_append, List.all_append, progress_spares]
  split <;> rfl

theorem leaves_sparesBytes (s : State) (o : Op) : (leaves s o).all Upd.sparesBytes = true := by
  unfold leaves
  rw [List.all_append, List.all_append, progress_sparesBytes]
  split <;> rfl

/-- The operation is gone. -/
theorem leaves_op? (s a : State) (o : Op) : (a.applyAll (leaves s o)).op? o.id = none := by
  have hops : (a.applyAll (leaves s o)).part.ops = a.part.ops.filter fun p => p.id != o.id := by
    unfold leaves progress
    rw [applyAll_append, applyAll_append]
    split <;> split <;> rfl
  rw [State.op?, hops]
  refine List.find?_eq_none.mpr fun p hp he => ?_
  have hne := (List.mem_filter.mp hp).2
  simp only [bne_iff_ne, beq_iff_eq] at hne he
  exact hne he

theorem settle_frame (s a : State) (o : Op) : (a.applyAll (o.settle s)).threads = a.threads ∧ (a.applyAll (o.settle s)).mem = a.mem := by
  unfold Op.settle
  split
  · split
    · exact ⟨rfl, rfl⟩
    · exact ⟨rfl, rfl⟩
  · exact ⟨rfl, rfl⟩

/-- A completion shows in threads and bytes what its register write does. -/
theorem completeOp_frame {s : State} {o : Op} (h : s.op? o.id = some o) :
    ((completeOp o.id).run s).op? o.id = none ∧ ((completeOp o.id).run s).threads = (s.applyAll (o.write s)).threads ∧
      ((completeOp o.id).run s).mem = (s.applyAll (o.write s)).mem := by
  rw [completeOp_run h]
  obtain ⟨hth, hm⟩ := settle_frame s (s.applyAll (o.write s)) o
  exact ⟨leaves_op? _ _ _, (applyAll_spares _ _ (leaves_spares s o)).1.trans hth,
    (applyAll_sparesBytes _ _ (leaves_sparesBytes s o)).trans hm⟩

theorem opWrite_others (s : State) (o : Op) {u : TId} (hu : u ≠ o.t) : (s.applyAll (o.write s)).th u = s.th u :=
  (OnlyRegs.opWrite s s o).others u hu

/-- A delivery of poison. -/
theorem reg_poisoned (r : VReg) (idx : BitVec 3) (x : Thread) (n j : Nat) (hj : j < n) :
    ((List.range n).foldl (fun x i => x.setReg (r + BitVec.ofNat 7 i) ⟨0#32, true, idx⟩) x).reg (r + BitVec.ofNat 7 j) =
      ⟨0#32, true, idx⟩ := by
  induction n with
  | zero => exact absurd hj (Nat.not_lt_zero j)
  | succ n ih =>
    rw [List.range_succ, List.foldl_append, List.foldl_cons, List.foldl_nil]
    by_cases he : r + BitVec.ofNat 7 j = r + BitVec.ofNat 7 n
    · rw [he, reg_setReg_self]
    · have hne : j ≠ n := fun h => he (by rw [h])
      rw [reg_setReg_ne _ _ he, ih (by omega)]

theorem write_of_poisoned {s : State} {o : Op} {d : Delivery} {vs : List Word} {k : BitVec 3} (hd : o.dlv = some d) (hv : d.vals = some vs)
    (hj : o.job = .poisoned k) : o.write s = putPoison s o.t d.reg vs.length k o.id := by
  simp only [Op.write, hd, hv, hj]

theorem write_of_values {s : State} {o : Op} {d : Delivery} {vs : List Word} (hd : o.dlv = some d) (hv : d.vals = some vs)
    (hj : ∀ k, o.job ≠ .poisoned k) : o.write s = putRegsOf s o.t d.reg vs o.id := by
  simp only [Op.write, hd, hv]

theorem putPoison_th_self {s s' : State} {t : TId} (r : VReg) (n : Nat) (idx : BitVec 3) (op : Nat) (h : (s.thread? t).isSome = true) :
    (s.applyAll (putPoison s' t r n idx op)).th t =
      { (List.range n).foldl (fun x i => x.setReg (r + BitVec.ofNat 7 i) ⟨0#32, true, idx⟩) (s.th t) with id := t } := by
  unfold putPoison
  rw [applyAll_cons, th_applyAll_spares _ t (by rw [List.all_append, historyV_spares, touchB_spares]; rfl)]
  exact th_apply_thread_self _ h

theorem putRegsOf_mem {s : State} {t : TId} (r : VReg) (ws : List Word) (op : Nat) (h : Unhosted s t) :
    (s.applyAll (putRegsOf s t r ws op)).mem = s.mem := by
  unfold putRegsOf
  rw [historyV_unhosted h, List.nil_append, applyAll_cons, applyAll_sparesBytes _ _ (touchB_sparesBytes _ _ _ _ _)]
  rfl

/-- A load whose fault was not resolved delivers zero and poison. -/
theorem loadReturn_poisoned {s : State} {o : Op} {d : Delivery} {vs : List Word} {k : BitVec 3} (ho : s.op? o.id = some o)
    (hd : o.dlv = some d) (hv : d.vals = some vs) (hj : o.job = .poisoned k) (he : (s.thread? o.t).isSome = true) {j : Nat}
    (hl : j < vs.length) : (((completeOp o.id).run s).th o.t).reg (d.reg + BitVec.ofNat 7 j) = ⟨0#32, true, k⟩ := by
  rw [th_of_threads (completeOp_frame ho).2.1, write_of_poisoned hd hv hj, putPoison_th_self d.reg vs.length k o.id he]
  exact reg_poisoned d.reg k (s.th o.t) vs.length j hl

/-- A load delivers its values. -/
theorem loadReturn_values {s : State} {o : Op} {d : Delivery} {vs : List Word} (ho : s.op? o.id = some o) (hd : o.dlv = some d)
    (hv : d.vals = some vs) (hj : ∀ k, o.job ≠ .poisoned k) (he : (s.thread? o.t).isSome = true) (h128 : vs.length ≤ 128) {k : Nat}
    (hl : k < vs.length) : (((completeOp o.id).run s).th o.t).reg (d.reg + BitVec.ofNat 7 k) = ⟨vs.getD k 0#32, false, 0#3⟩ := by
  rw [th_of_threads (completeOp_frame ho).2.1, write_of_values hd hv hj, putRegsOf_th_self d.reg vs o.id he]
  refine (reg_setRegs_get vs (s.th o.t) d.reg k hl h128).trans ?_
  rw [List.getD_eq_getElem?_getD, List.getElem?_eq_getElem hl, Option.getD_some]

/-! ## An access is acknowledged -/

/-- The counter of an operation falls when no other operation of its issue is left and its issue has counted. -/
theorem settle_counter {s a : State} {o : Op} {n : BitVec 3} (hn : o.wc = some n) (hg : (a.group? o.t.gid).isSome = true) :
    ((s.counting = some o.tok ∨ ∃ p ∈ s.part.ops, p.tok = o.tok ∧ p.id ≠ o.id) →
      ((a.applyAll (o.settle s)).gr o.t.gid).counter n = (a.gr o.t.gid).counter n) ∧
    (s.counting ≠ some o.tok → (∀ p ∈ s.part.ops, p.tok = o.tok → p.id = o.id) →
      ((a.applyAll (o.settle s)).gr o.t.gid).counter n = (a.gr o.t.gid).counter n - 1#6) := by
  have hany : s.part.ops.any (fun p => p.tok == o.tok && p.id != o.id) = true ↔ ∃ p ∈ s.part.ops, p.tok = o.tok ∧ p.id ≠ o.id := by
    simp [List.any_eq_true]
  simp only [Op.settle, hn, hany]
  refine ⟨fun h => by rw [if_pos h, applyAll_nil], fun hc hall => ?_⟩
  rw [if_neg (not_or.mpr ⟨hc, fun ⟨p, hp, htok, hid⟩ => hid (hall p hp htok)⟩), applyAll_cons, applyAll_nil, decCounter,
    gr_apply_group_self _ hg]
  simp [Group.counter]

theorem write_of_none {s : State} {o : Op} (hd : o.dlv = none) : o.write s = [] := by simp only [Op.write, hd]

/-- An acknowledgement that nothing holds back completes its operation. -/
theorem accessAck_completes {s : State} {o : Op} (ho : s.op? o.id = some o)
    (hcomb : ∀ line, o.job = .combined line → ∀ b, (s.th o.t).wcBuf = some b → b.line ≠ line) (hstat : ∀ pl v, o.job ≠ .status pl v)
    (hacc : o.isAcc = false) : exec (.accessAck o.id) s = .next ((completeOp o.id).run s) := by
  have hexec : exec (.accessAck o.id) s = execAccessAck o.id s := rfl
  rw [hexec, execAccessAck, run_next, run_read, ho]
  unfold Op.isAcc at hacc
  dsimp only
  split
  next line hj =>
    have hno : ((s.th o.t).wcBuf.any fun b => b.line == line) = false := by
      cases hb : (s.th o.t).wcBuf with
      | none => rfl
      | some b => simpa using hcomb line hj b hb
    rw [hno]
    rfl
  next pl v hj => exact absurd hj (hstat pl v)
  next hj => rw [hj] at hacc; cases hacc
  next hj => rw [hj] at hacc; cases hacc
  next => rfl

/-! ## Miss-status entries -/

/-- The search for the access that was rejected first. -/
def earlier (b : Option (TId × Nat)) (x : Thread) : Option (TId × Nat) :=
  match x.run, b with
  | .waiting (.mshr _ n), some (_, m) => if n < m then some (x.id, n) else b
  | .waiting (.mshr _ n), none => some (x.id, n)
  | _, _ => b

theorem earlier_none {y : Thread} {n : Nat} (h : y.run = .waiting (.mshr false n)) : earlier none y = some (y.id, n) := by
  simp only [earlier, h]

theorem earlier_some {y : Thread} {n : Nat} (h : y.run = .waiting (.mshr false n)) (p : TId × Nat) :
    earlier (some p) y = if n < p.2 then some (y.id, n) else some p := by
  simp only [earlier, h]

theorem oldestRejected_eq (s : State) (core : Nat) : oldestRejected s core =
    ((s.threads.filter fun x => x.run.rejected && (s.gr x.id.gid).core == core).foldl earlier none).map Prod.fst := rfl

/-- The access that was rejected before all others is found. -/
theorem foldl_earlier {t : TId} {k : Nat} : ∀ (l : List Thread) (b : Option (TId × Nat)),
    (∀ y ∈ l, ∃ n, y.run = .waiting (.mshr false n) ∧ (y.id = t → n = k) ∧ (y.id ≠ t → k < n)) →
    (∀ p, b = some p → p = (t, k) ∨ k < p.2) → (b = some (t, k) ∨ ∃ y ∈ l, y.id = t) → l.foldl earlier b = some (t, k)
  | [], b, _, _, h => by
    rcases h with h | ⟨y, hy, _⟩
    · exact h
    · cases hy
  | y :: l, b, hl, hb, h => by
    obtain ⟨n, hrun, hsame, hother⟩ := hl y List.mem_cons_self
    have hy : (y.id, n) = (t, k) ∨ k < n := by
      by_cases he : y.id = t
      · exact .inl (by rw [he, hsame he])
      · exact .inr (hother he)
    rw [List.foldl_cons]
    refine foldl_earlier l _ (fun z hz => hl z (List.mem_cons_of_mem _ hz)) ?_ ?_
    · intro p hp
      cases b with
      | none =>
        rw [earlier_none hrun] at hp
        exact Option.some.inj hp ▸ hy
      | some q =>
        rw [earlier_some hrun] at hp
        split at hp
        · exact Option.some.inj hp ▸ hy
        · exact hb p hp
    · rcases h with rfl | ⟨z, hz, hzt⟩
      · rw [earlier_some hrun]
        split
        next hlt =>
          rcases hy with he | hlt'
          · rw [Prod.mk.injEq] at he
            exact absurd he.2 (by dsimp only at hlt; omega)
          · exact absurd hlt' (by dsimp only at hlt; omega)
        next => exact .inl rfl
      · rcases List.mem_cons.mp hz with rfl | hz
        · have hself : (z.id, n) = (t, k) := by rw [hzt, hsame hzt]
          cases b with
          | none => exact .inl (by rw [earlier_none hrun, hself])
          | some q =>
            rw [earlier_some hrun]
            split
            next => exact .inl (by rw [hself])
            next hge =>
              rcases hb q rfl with rfl | hlt
              · exact .inl rfl
              · exact absurd (hsame hzt) (by omega)
        · exact .inr ⟨z, hz, hzt⟩

theorem rejected_iff {r : Run} : r.rejected = true ↔ ∃ n, r = .waiting (.mshr false n) := by
  unfold Run.rejected
  split
  next g n =>
    cases g with
    | false => exact iff_of_true rfl ⟨n, rfl⟩
    | true => exact iff_of_false nofun (by rintro ⟨m, h⟩; cases h)
  next hno => exact iff_of_false nofun fun ⟨n, h⟩ => hno _ _ h

/-- The access of a core that was rejected before all others is the one found. -/
theorem oldestRejected_of_least {s : State} {core k : Nat} {x : Thread} (hs : NamesDistinct s) (hx : x ∈ s.threads)
    (hrun : x.run = .waiting (.mshr false k)) (hcore : (s.gr x.id.gid).core = core)
    (hleast : ∀ y ∈ s.threads, ∀ n, y.run = .waiting (.mshr false n) → (s.gr y.id.gid).core = core → y.id ≠ x.id → k < n) :
    oldestRejected s core = some x.id := by
  rw [oldestRejected_eq, foldl_earlier (t := x.id) (k := k)]
  · rfl
  · intro y hy
    obtain ⟨hym, hyr⟩ := List.mem_filter.mp hy
    rw [Bool.and_eq_true, beq_iff_eq, rejected_iff] at hyr
    obtain ⟨⟨n, hn⟩, hyc⟩ := hyr
    refine ⟨n, hn, fun he => ?_, hleast y hym n hn hyc⟩
    have hyx : y = x := by rw [← th_of_mem hs hym, ← th_of_mem hs hx, he]
    rw [hyx, hrun] at hn
    cases hn
    rfl
  · exact fun p hp => by cases hp
  · refine .inr ⟨x, List.mem_filter.mpr ⟨hx, ?_⟩, rfl⟩
    rw [Bool.and_eq_true, beq_iff_eq, rejected_iff]
    exact ⟨⟨k, hrun⟩, hcore⟩

/-- R150: an access takes the entry that it has been granted. -/
def Thread.granted (y : Thread) : Thread := { y with run := match y.run with
  | .waiting (.mshr _ k) => .waiting (.mshr true k)
  | r => r }

theorem run_grantEntries_succ (core n : Nat) (s : State) : (grantEntries core (n + 1)).run s =
    (grantEntries core n).run (match oldestRejected s core with
      | some t => (Upd.thread t Thread.granted).apply s
      | none => s) := by
  simp only [grantEntries, run_seq, run_act]
  cases oldestRejected s core <;> rfl

/-- A granted access stays granted while others are granted theirs. -/
theorem grantEntries_keeps {t : TId} {k core : Nat} : ∀ (n : Nat) {s : State}, (s.thread? t).isSome = true →
    (s.th t).run = .waiting (.mshr true k) → (((grantEntries core n).run s).th t).run = .waiting (.mshr true k)
  | 0, _, _, h => h
  | n + 1, s, he, h => by
    rw [run_grantEntries_succ]
    cases oldestRejected s core with
    | none => exact grantEntries_keeps n he h
    | some u =>
      refine grantEntries_keeps n ((isSome_thread?_apply_thread s u t _).trans he) ?_
      by_cases hu : t = u
      · subst hu
        rw [th_apply_thread_keep he (by exact th_id), Thread.granted, h]
      · rw [th_apply_thread_ne s _ hu]
        exact h

/-- Entries are granted to the access that was rejected first. -/
theorem grantEntries_first {s : State} {core k n : Nat} {t : TId} (he : (s.thread? t).isSome = true) (hrun : (s.th t).run = .waiting (.mshr false k))
    (ho : oldestRejected s core = some t) : (((grantEntries core (n + 1)).run s).th t).run = .waiting (.mshr true k) := by
  rw [run_grantEntries_succ, ho]
  refine grantEntries_keeps n ((isSome_thread?_apply_thread s t t _).trans he) ?_
  rw [th_apply_thread_keep he (by exact th_id), Thread.granted, hrun]

/-! ## Leases -/

theorem copyOf_dropCopy_self (cs : List Copy) (owner sector : Nat) : copyOf (dropCopy cs owner sector) owner sector = none := by
  refine List.find?_eq_none.mpr fun c hc he => ?_
  have hne := (List.mem_filter.mp hc).2
  rw [he] at hne
  cases hne

theorem copyOf_dropCopy_ne (cs : List Copy) {owner sector o n : Nat} (h : (o, n) ≠ (owner, sector)) :
    copyOf (dropCopy cs owner sector) o n = copyOf cs o n := by
  unfold copyOf dropCopy
  rw [List.find?_filter]
  congr 1
  funext c
  by_cases hc : (c.owner == o && c.sector == n) = true
  · have hne : (c.owner == owner && c.sector == sector) = false := by
      simp only [Bool.and_eq_true, beq_iff_eq] at hc
      simp only [Bool.and_eq_false_iff, beq_eq_false_iff_ne]
      by_contra hboth
      obtain ⟨ho, hn⟩ := not_or.mp hboth
      exact h (by rw [← hc.1, ← hc.2, not_not.mp ho, not_not.mp hn])
    simp [hc, hne]
  · simp [hc]

/-! ## Buffers -/

theorem execWcDrainTimeout_eq {s : State} {t : TId} {b : WcBuffer} (h : (s.th t).wcBuf = some b) :
    exec (.wcDrainTimeout t) s =
      .next (s.applyAll (if b.since + 100 ≤ s.time then drainBuffer s t else [.event (.wcDrainTimeout t)])) := by
  have hexec : exec (.wcDrainTimeout t) s = execWcDrainTimeout t s := rfl
  rw [hexec, execWcDrainTimeout, run_next, run_act, h]

theorem drainBuffer_empties {s : State} {t : TId} {b : WcBuffer} (h : (s.th t).wcBuf = some b) (he : (s.thread? t).isSome = true) :
    ((s.applyAll (drainBuffer s t)).th t).wcBuf = none := by
  obtain ⟨w, hw⟩ := (drainBuffer_watches h).self
  rw [hw, th_apply_thread_keep he (by exact th_id)]

/-- Settles O29: an operation that completes, the search for the access rejected first, and a drain. -/
theorem accessesComplete : Obligations.AccessesComplete := by
  refine ⟨?_, ?_, ?_, ?_, ?_, ?_, ?_⟩
  · intro o d vs k s ho hd hv hj he _
    obtain ⟨hgone, hthreads, _⟩ := completeOp_frame ho
    exact ⟨_, rfl, hgone, fun j hl => loadReturn_poisoned ho hd hv hj he hl,
      fun u hu => (th_of_threads hthreads u).trans (opWrite_others s o hu)⟩
  · intro o d vs s ho hd hv hj he h128
    obtain ⟨hgone, hthreads, hmem⟩ := completeOp_frame ho
    refine ⟨_, rfl, hgone, fun k hl => loadReturn_values ho hd hv hj he h128 hl,
      fun u hu => (th_of_threads hthreads u).trans (opWrite_others s o hu), fun hh => ?_⟩
    rw [hmem, write_of_values hd hv hj]
    exact putRegsOf_mem d.reg vs o.id hh
  · intro o n s ho hd hn hg hcomb hstat hacc
    obtain ⟨hgone, hthreads, hmem⟩ := completeOp_frame ho
    rw [write_of_none hd, applyAll_nil] at hthreads hmem
    have hgr : ((completeOp o.id).run s).gr o.t.gid = (s.applyAll (o.settle s)).gr o.t.gid := by
      rw [completeOp_run ho, write_of_none hd, applyAll_nil, gr_applyAll_spares _ _ (leaves_spares s o)]
    have hcounter := settle_counter (s := s) (a := s) hn hg
    rw [← hgr] at hcounter
    exact ⟨_, accessAck_completes ho hcomb hstat hacc, hgone, hthreads, hmem, hcounter⟩
  · intro o line b s ho hj hb hline
    have hexec : exec (.accessAck o.id) s = execAccessAck o.id s := rfl
    have hany : ((s.th o.t).wcBuf.any fun b => b.line == line) = true := by rw [hb]; simpa using hline
    rw [hexec, execAccessAck, run_next, run_read, ho]
    dsimp only
    rw [hj]
    dsimp only
    rw [hany]
    exact ⟨_, rfl, rfl, List.mem_append_right _ (List.mem_singleton.mpr rfl)⟩
  · intro c k x s hs hx hrun hcore hleast
    have he : (s.thread? x.id).isSome = true := by
      rw [State.thread?, List.find?_isSome]
      exact ⟨x, hx, beq_self_eq_true _⟩
    have hth := th_of_mem hs.names hx
    refine ⟨_, rfl, fun hfree => ?_, fun hfull => ?_⟩
    · obtain ⟨n, hn⟩ := Nat.exists_eq_succ_of_ne_zero (Nat.pos_iff_ne_zero.mp hfree)
      rw [run_read, hn]
      exact grantEntries_first he (by rw [hth]; exact hrun) (oldestRejected_of_least hs.names hx hrun hcore hleast)
    · rw [run_read, hfull]
      rfl
  · intro b s t hb he
    refine ⟨_, execWcDrainTimeout_eq hb, fun hdue => ?_, fun hnot => ?_⟩
    · rw [if_pos hdue]
      exact ⟨drainBuffer_empties hb he, fun hh hno => drainBuffer_mem hb hh hno,
        fun hh hs hbytes => (drainBuffer_written hb hh hs.homes hbytes).2⟩
    · rw [if_neg (by omega)]
      exact ⟨rfl, rfl, List.mem_append_right _ (List.mem_singleton.mpr rfl)⟩
  · intro die sector s
    exact ⟨_, rfl, copyOf_dropCopy_self _ _ _, fun d n h => copyOf_dropCopy_ne _ h⟩

end Sys2Proof.Machine
end

section
/-! What accesses share: an issue that counts (R55), the miss-status entry (R150), what ends an access at its issue, and what a read
changes. -/

open Sys2Proof Sys2Proof.Machine

namespace Sys2Proof.Machine

/-! ## An issue that counts -/

/-- The state in which the body of a counted issue runs. -/
def counted (s : State) : State := s.applyAll [.named 1, .counting (some s.nextId)]

/-- The body of a counted issue has issued: its thread has moved on, an operation is outstanding, its event owed; the counter is still to
rise. -/
structure Issued (s b : State) (t : TId) (wc : BitVec 3) (dlv : Option Delivery) (ev : Nat → Instr) (len : Nat) : Prop where
  moves : MovesOn s b t len
  regs : ∀ r, (b.th t).reg r = (s.th t).reg r
  counter : (b.gr t.gid).counter wc = (s.gr t.gid).counter wc
  group : (b.group? t.gid).isSome = true
  op : ∃ o ∈ b.part.ops, o.id = s.nextId + 1 ∧ o.tok = s.nextId ∧ o.t = t ∧ o.wc = some wc ∧ o.dlv = dlv
  event : ev (s.nextId + 1) ∈ b.events

theorem counter_inc {s : State} {g : GId} (n : BitVec 3) (h : (s.group? g).isSome = true) :
    (((incCounter g n).apply s).gr g).counter n = (s.gr g).counter n + 1#6 := by
  rw [incCounter, gr_apply_group_self _ h]
  simp [Group.counter]

section
variable {s : State} {t : TId} {i : Instr} {wc : BitVec 3} {eats : List VReg} (hs : Solo s t) (hc : Clear s t i eats [])
  (hi : ∀ op, i ≠ .trace op) (hfull : (s.gr t.gid).counter wc ≠ 63#6) (body : Nat → TId → Eff)
include hs hc hi hfull

/-- What a counted issue shows when its body has issued. -/
theorem issueCounted_counts {b : State} {dlv : Option Delivery} {ev : Nat → Instr} {len : Nat}
    (hb : (body s.nextId t).run (counted s) = b) (h : Issued s b t wc dlv ev len) :
    ∃ s', (issueCounted i wc eats body).run s = s' ∧ MovesOn s s' t len ∧ Counts s s' t wc dlv ev ∧ (∀ r, (s'.th t).reg r = (s.th t).reg r) ∧
      s'.threads = b.threads ∧ s'.part.l2 = b.part.l2 ∧ (Unhosted s t → s'.mem = b.mem) := by
  have hs1 : Solo (counted s) t := ⟨hs.cur, hs.thread, hs.group⟩
  have hc1 : Clear (counted s) t i eats [] := ⟨hc.names, hc.watch, hc.regs, hc.preds⟩
  obtain ⟨mem, micros, hrun, hmem⟩ := issue_solo_shown hs1 hc1 hi (body s.nextId)
  rw [hb] at hrun hmem
  have hcur : b.cur = s.cur := by rw [← hb, run_cur]; rfl
  obtain ⟨o, ho, hid, htok, hrest⟩ := h.op
  let c : State := { b with mem := mem, part := { b.part with micros := micros } }
  have htoken : c.tokenFree s.nextId = false := by
    rw [State.tokenFree, Bool.not_eq_false', List.any_eq_true]
    exact ⟨o, ho, by simpa using htok⟩
  have hcounted : (issueCounted i wc eats body).run s = (incCounter t.gid wc).apply { c with counting := none } := by
    simp only [issueCounted, run_read, hs.cur, if_neg hfull, run_seq, run_upds, run_act]
    change (issue i eats [] (body s.nextId)).run (counted s) = c at hrun
    rw [show s.applyAll [.named 1, .counting (some s.nextId)] = counted s from rfl, hrun, htoken,
      show c.cur.gid = t.gid from congrArg Cur.gid (hcur.trans hs.cur)]
    rfl
  refine ⟨_, hcounted, h.moves, ⟨?_, ⟨o, ho, hid, htok, hrest⟩, h.event⟩, h.regs, rfl, rfl, hmem⟩
  rw [counter_inc wc (s := { c with counting := none }) h.group]
  exact congrArg (· + 1#6) h.counter

end

/-! ## The miss-status entry -/

theorem entryCore_agentOf (s : State) (t : TId) : entryCore (agentOf s t) = 0xFFFF ∨ entryCore (agentOf s t) = (s.gr t.gid).core := by
  unfold agentOf
  dsimp only
  split
  · exact .inl rfl
  · split
    · exact .inl rfl
    · exact .inr rfl

/-- An access that has been granted an entry, or finds one free that no rejected access waits for, goes on. -/
theorem run_withEntry {s : State} {t : TId} (h : (s.th t).run.granted = true ∨
    (0 < entriesFree s (s.gr t.gid).core ∧ rejectedWaits s (s.gr t.gid).core = false)) (tok : Nat) (line : Option Nat) (go : Eff) :
    (withEntry tok t line go).run s = go.run s := by
  simp only [withEntry, run_read]
  cases line with
  | none => rfl
  | some l =>
    rcases entryCore_agentOf s t with hcore | hcore
    · exact congrArg (fun e : Eff => e.run s) (if_pos (.inl hcore))
    · have hfind : findsEntry s tok t (entryCore (agentOf s t)) l = true := by
        rw [findsEntry, hcore]
        rcases h with hg | ⟨hfree, hwait⟩
        · rw [hg]; rfl
        · rw [hwait, decide_eq_true hfree]
          simp
      exact congrArg (fun e : Eff => e.run s) (if_pos (.inr hfind))

/-! ## What stays the same -/

/-- Two states show the same threads, groups and teams, and the next name is the same. -/
structure Quiet (a b : State) : Prop where
  threads : b.threads = a.threads
  groups : b.groups = a.groups
  teams : b.teams = a.teams
  next : b.nextId = a.nextId

theorem Quiet.refl (a : State) : Quiet a a := ⟨rfl, rfl, rfl, rfl⟩
theorem Quiet.trans {a b c : State} (h : Quiet a b) (g : Quiet b c) : Quiet a c :=
  ⟨g.threads.trans h.threads, g.groups.trans h.groups, g.teams.trans h.teams, g.next.trans h.next⟩

def QuietUpd (u : Upd) : Prop := ∀ s, Quiet s (u.apply s)

theorem Quiet.applyAll {us : List Upd} (s : State) (h : ∀ u ∈ us, QuietUpd u) : Quiet s (s.applyAll us) :=
  updates_rel Quiet .refl (fun _ _ _ => .trans) us s fun u hu a => h u hu a

theorem quietUpd_part (f : Part → Part) : QuietUpd (.part f) := fun _ => ⟨rfl, rfl, rfl, rfl⟩
theorem quietUpd_drawn (n : Nat) : QuietUpd (.drawn n) := fun _ => ⟨rfl, rfl, rfl, rfl⟩

theorem SameButHomes.quiet {a b : State} (h : SameButHomes a b) : Quiet a b := by
  rw [SameButHomes] at h
  exact ⟨by rw [h], by rw [h], by rw [h], by rw [h]⟩

theorem HomeUpd.quiet {u : Upd} (h : HomeUpd u) : QuietUpd u := fun s => (h s).quiet
theorem CopyUpd.quiet {u : Upd} (h : CopyUpd u) : QuietUpd u := fun s => (h s).1.quiet

theorem copyUpd_acquire (s : State) (t : TId) : ∀ u ∈ acquire s t, CopyUpd u := by
  simp only [acquire]
  split
  · exact List.forall_mem_singleton.mpr fun _ => ⟨rfl, rfl, rfl⟩
  · exact List.forall_mem_nil _

theorem copyUpd_acquireAt (s : State) (t : TId) (scope : BitVec 3) : ∀ u ∈ acquireAt s t scope, CopyUpd u := by
  simp only [acquireAt]
  split
  · exact List.forall_mem_nil _
  · split
    · exact copyUpd_acquire s t
    · split
      · exact List.forall_mem_singleton.mpr fun _ => ⟨rfl, rfl, rfl⟩
      · exact List.forall_mem_nil _

theorem run_drainFor_none {s : State} {t : TId} (pl : Place) (h : (s.th t).wcBuf = none) : (drainFor t pl).run s = s := by
  unfold drainFor
  split
  · rw [run_act, drainBuffer_none h, applyAll_nil]
  · cases pl <;> simp only [drainOwn, run_act, h, applyAll_nil]

@[simp] theorem step_wcBuf (x : Thread) (n : Nat) : (x.step n).wcBuf = x.wcBuf := by
  simp only [Thread.step, Thread.step.move, Thread.goTo]
  repeat' split
  all_goals rfl

/-! ## The end of an access at its issue -/

/-- What ends an access: no older copy serves after it (R173), the thread moves on, and the operation is outstanding. -/
def endAccess (t : TId) (pl : Place) (len tok : Nat) (wc : BitVec 3) (dlv : Option Delivery) (line : Option Nat) (core : Nat) (job : Job)
    (ev : Nat → Instr) : Eff :=
  .seq (freshAfter t pl) <| .seq (.done t len) <| addOp tok t wc dlv line core job fun id => some (ev id)

theorem freshAfter_copies (t : TId) (pl : Place) (s : State) : ∃ us, (freshAfter t pl).run s = s.applyAll us ∧ ∀ u ∈ us, CopyUpd u := by
  unfold freshAfter
  split
  · exact ⟨_, rfl, copyUpd_acquire s t⟩
  · exact ⟨[], rfl, List.forall_mem_nil _⟩

theorem calm_freshAfter (t : TId) (pl : Place) (s : State) :
    SameButHomes s ((freshAfter t pl).run s) ∧ ((freshAfter t pl).run s).mem = s.mem ∧ ((freshAfter t pl).run s).part.l2 = s.part.l2 := by
  obtain ⟨us, hus, hcopy⟩ := freshAfter_copies t pl s
  rw [hus]
  exact ⟨.applyAll s fun u hu b => (hcopy u hu b).1, linesKept_applyAll s fun u hu => (hcopy u hu).linesKept⟩

theorem done_part (s : State) (t : TId) (len : Nat) : CalmPart s.part ((Eff.done t len).run s).part := (calm_done s t len).part

theorem calmPart_l2 {p q : Part} (h : CalmPart p q) : q.l2 = p.l2 := by rw [h]

theorem run_done_nextId (s : State) (t : TId) (len : Nat) : ((Eff.done t len).run s).nextId = s.nextId := by
  have hprog : ∀ a : State, (a.applyAll (progress s t.team)).nextId = a.nextId := by
    intro a
    unfold progress
    split <;> rfl
  have hyield : ∀ (a : State) (y : Bool), (a.applyAll (yieldPlace s t y)).nextId = a.nextId := by
    intro a y
    unfold yieldPlace swapActive
    split
    · split <;> rfl
    · rfl
  simp only [Eff.done, run_act]
  rw [applyAll_append, hyield, applyAll_append, hprog]
  rfl

/-- An access that ends has issued, as its thread and group stood; memory, lines and all but operations, copies and the thread stay. -/
theorem endAccess_issued {s c : State} {t : TId} {wc : BitVec 3} (pl : Place) (len : Nat) (dlv : Option Delivery) (line : Option Nat)
    (core : Nat) (job : Job) (ev : Nat → Instr) (he : (c.thread? t).isSome = true) (hg : (c.group? t.gid).isSome = true)
    (hstands : Stands (s.th t) (c.th t)) (hregs : ∀ r, (c.th t).reg r = (s.th t).reg r)
    (hcounter : (c.gr t.gid).counter wc = (s.gr t.gid).counter wc) (hnext : c.nextId = s.nextId + 1) :
    let b := (endAccess t pl len s.nextId wc dlv line core job ev).run c
    Issued s b t wc dlv ev len ∧ b.mem = c.mem ∧ b.part.l2 = c.part.l2 ∧ (b.th t).wcBuf = (c.th t).wcBuf := by
  obtain ⟨hsame, hmem, hl2⟩ := calm_freshAfter t pl c
  have hquiet := hsame.quiet
  simp only [endAccess, run_seq, run_addOp]
  generalize (freshAfter t pl).run c = a at hsame hmem hl2 hquiet ⊢
  have hath : a.th t = c.th t := th_of_threads hquiet.threads t
  have hae : (a.thread? t).isSome = true := by unfold State.thread?; rw [hquiet.threads]; exact he
  have hself := done_th_self len hae
  have hmoves := done_movesOn len hae
  have hgroups := done_sameGroups a t len
  have hdn := run_done_nextId a t len
  have hdm := done_mem a t len
  have hdl := calmPart_l2 (done_part a t len)
  generalize (Eff.done t len).run a = d at *
  have hid : d.nextId = s.nextId + 1 := by rw [hdn, hquiet.next, hnext]
  have hcnt : (d.gr t.gid).counter wc = (c.gr t.gid).counter wc := by
    rw [hgroups.field t.gid (fun g => Group.counter g wc) fun _ => rfl, gr_of_groups hquiet.groups]
  have hgr : (d.group? t.gid).isSome = true := by
    rw [hgroups.isSome]
    unfold State.group?
    rw [hquiet.groups]
    exact hg
  have hdth : (d.th t).wcBuf = (c.th t).wcBuf ∧ ∀ r, (d.th t).reg r = (c.th t).reg r := by
    rw [hself]
    refine ⟨?_, fun r => ?_⟩
    · simp only [hath]
      exact step_wcBuf _ _
    · simp only [Thread.reg, step_v, hath]
  refine ⟨⟨?_, fun r => (hdth.2 r).trans (hregs r), hcnt.trans hcounter, hgr, ⟨_, List.mem_append_right _ (List.mem_singleton.mpr rfl), hid, rfl, rfl, rfl, rfl⟩, ?_⟩,
    hdm.trans hmem, hdl.trans hl2, hdth.1⟩
  · exact MovesOn.of_stands (by rw [hath]; exact hstands) (MovesOn.of_th (b := d.applyAll _) rfl hmoves)
  · rw [hid]
    exact List.mem_append_right _ (List.mem_singleton.mpr rfl)

end Sys2Proof.Machine
end

section
/-! Reads and translations: what a read at a place yields (R135 to R140, R152), that it leaves the bytes that the homes hold, and what a
translation depends on and caches. -/

open Sys2Proof Sys2Proof.Machine

namespace Sys2Proof.Machine

/-! ## The value -/

theorem leNat_replicate_zero : ∀ n, leNat (List.replicate n 0#8) = 0
  | 0 => rfl
  | n + 1 => by rw [List.replicate_succ, leNat, leNat_replicate_zero n]; rfl

/-- The bytes at home of an address and those after it. -/
theorem homeBytes_eq_map (s : State) : ∀ (n a : Nat), homeBytes s a n = (List.range n).map fun i => homeByte s (a + i)
  | 0, _ => rfl
  | n + 1, a => by
    rw [homeBytes, homeBytes_eq_map s n (a + 1), List.range_succ_eq_map, List.map_cons, List.map_map]
    refine congrArg _ (List.map_congr_left fun i _ => ?_)
    simp only [Function.comp]
    congr 1
    omega

/-- Bytes cut from a list, as a number: those beyond its end count as zero. -/
theorem leNat_take_drop (l : List Byte) : ∀ (n o : Nat), leNat ((l.drop o).take n) = leNat ((List.range n).map fun i => l.getD (o + i) 0#8)
  | 0, o => by rw [List.take_zero]; rfl
  | n + 1, o => by
    rw [List.range_succ_eq_map, List.map_cons, List.map_map, leNat]
    have ih := leNat_take_drop l n (o + 1)
    have hmap : (List.range n).map ((fun i => l.getD (o + i) 0#8) ∘ Nat.succ) = (List.range n).map fun i => l.getD (o + 1 + i) 0#8 := by
      refine List.map_congr_left fun i _ => ?_
      simp only [Function.comp]
      congr 1
      omega
    rw [hmap, ← ih]
    by_cases ho : o < l.length
    · rw [List.drop_eq_getElem_cons ho, List.take_succ_cons, leNat]
      simp only [Nat.add_zero, List.getD_eq_getElem?_getD, List.getElem?_eq_getElem ho, Option.getD_some]
    · rw [Nat.add_zero, List.drop_eq_nil_of_le (by omega), List.drop_eq_nil_of_le (by omega), List.take_nil, List.take_nil, List.getD_eq_getElem?_getD,
        List.getElem?_eq_none (by omega)]
      rfl

/-- The number that the home holds within a sector that it has. -/
theorem leNat_sector {s : State} {x : Sector} {pa n : Nat} (h : sectorOf s pa = some x) (hin : pa % 16 + n ≤ 16) :
    leNat ((x.data.drop (pa % 16)).take n) = leNat (homeBytes s pa n) := by
  rw [leNat_take_drop, homeBytes_eq_map]
  refine congrArg leNat (List.map_congr_left fun i hi => ?_)
  have hi := List.mem_range.mp hi
  have hsec : sectorOf s (pa + i) = some x := by
    rw [← h, sectorOf, sectorOf, show (pa + i) / 16 = pa / 16 by omega, show (pa + i) / 128 = pa / 128 by omega]
  rw [homeByte_of_sector hsec, show (pa + i) % 16 = pa % 16 + i by omega]

/-- The frame's bytes within a sector that the home has not. -/
theorem bytes_frame {s : State} {pa n : Nat} (h : sectorOf s pa = none) (hin : pa % 16 + n ≤ 16) : s.bytes pa n = homeBytes s pa n := by
  rw [homeBytes_eq_map]
  refine List.ext_getElem (by simp) fun i hi hi' => ?_
  have hn : i < n := by simpa using hi'
  have hsec : sectorOf s (pa + i) = none := by
    rw [← h, sectorOf, sectorOf, show (pa + i) / 16 = pa / 16 by omega, show (pa + i) / 128 = pa / 128 by omega]
  have hget := getD_bytes s n pa i hn
  rw [List.getD_eq_getElem?_getD, List.getElem?_eq_getElem hi, Option.getD_some] at hget
  rw [hget, List.getElem_map, List.getElem_range, homeByte_of_frame hsec]

/-- R135, R152: a read at the home point. -/
theorem homeRead_value (s : State) (p : Page) (ctx : Nat) {n : Nat} (hin : p.pa % 16 + n ≤ 16) :
    leNat (homeRead s p ctx n).1 =
      if s.l2Line? (p.pa / 128) = none ∧ (p.kind = 1 ∨ p.kind = 2) then 0 else leNat (homeBytes s p.pa n) := by
  unfold homeRead
  cases hl : s.l2Line? (p.pa / 128) with
  | some l =>
    have hsome : ¬ (some l = none ∧ (p.kind = 1 ∨ p.kind = 2)) := fun h => nomatch h.1
    rw [if_neg hsome]
    dsimp only
    have hsec : sectorOf s p.pa = l.sec? (p.pa / 16 % 8) := by rw [sectorOf, hl]; rfl
    cases hx : l.sec? (p.pa / 16 % 8) with
    | some x => exact leNat_sector (hsec.trans hx) hin
    | none => exact congrArg leNat (bytes_frame (hsec.trans hx) hin)
  | none =>
    dsimp only
    by_cases hk : p.kind = 1 ∨ p.kind = 2
    · rw [if_pos hk, if_pos ⟨rfl, hk⟩]
      exact leNat_replicate_zero n
    · rw [if_neg hk, if_neg fun h => hk h.2]
      exact congrArg leNat (bytes_frame (by rw [sectorOf, hl]; rfl) hin)

theorem servedRead_value {s : State} {a : Agent} {p : Page} (h : replicaFor s a (p.pa / 128) = none) (n : Nat) :
    (servedRead s a p n).1 = (homeRead s p a.ctx n).1 := by
  simp only [servedRead, h]

/-- R139: a read at the memory side. -/
theorem sideRead_value {s : State} (a : Agent) {pa : Nat} (h : physRange pa ≠ .sys) (n : Nat) : sideRead s a pa n = (homeBytes s pa n, cleanSector s pa) := by
  unfold sideRead
  split
  next hs => exact absurd hs h
  next => rfl

theorem pointOf_cases (p : Page) (cp : Nat) : pointOf p cp = 0 ∨ pointOf p cp = 1 ∨ pointOf p cp = 3 := by
  unfold pointOf
  split
  · split
    · exact .inr (.inr rfl)
    · exact .inr (.inl rfl)
  · split
    · exact .inr (.inl rfl)
    · exact .inl rfl

theorem readPlace_three {s : State} {a : Agent} {p : Page} {n cp : Nat} (h : pointOf p cp = 3) :
    readPlace s a (.page p) n cp = ((sideRead s a p.pa n).1, (sideRead s a p.pa n).2 ++ [dropCopies a (p.pa / 16)]) := by
  simp only [readPlace, h]

theorem readPlace_one {s : State} {a : Agent} {p : Page} {n cp : Nat} (h : pointOf p cp = 1) :
    readPlace s a (.page p) n cp = ((servedRead s a p n).1, (servedRead s a p n).2 ++ [dropCopies a (p.pa / 16)]) := by
  simp only [readPlace, h]

/-- Where copies may serve a read: the home does, its line to be filled in copies; or a copy. -/
theorem readPlace_zero {s : State} {a : Agent} {p : Page} {n cp : Nat} (h : pointOf p cp = 0) :
    ∃ us, (∀ u ∈ us, CopyUpd u) ∧ (readPlace s a (.page p) n cp = homeRead s p a.ctx n ∨
      readPlace s a (.page p) n cp = ((servedRead s a p n).1, (servedRead s a p n).2 ++ us) ∨
      ∃ c : Copy, (c ∈ s.part.l1 ∨ c ∈ s.part.rdc) ∧ c.sector = p.pa / 16 ∧
        readPlace s a (.page p) n cp = ((c.data.drop (p.pa % 16)).take n, us)) := by
  have hfound : ∀ {cs : List Copy} {owner sector : Nat} {c : Copy}, copyOf cs owner sector = some c → c ∈ cs ∧ c.sector = sector := by
    intro cs owner sector c hc
    have hp := List.find?_some hc
    simp only [Bool.and_eq_true, beq_iff_eq] at hp
    exact ⟨List.mem_of_find?_eq_some hc, hp.2⟩
  have hfill : ∀ core data first, CopyUpd (fillL1 core (p.pa / 16) data first) := fun _ _ _ _ => ⟨rfl, rfl, rfl⟩
  simp only [readPlace, h]
  cases a.core with
  | none => exact ⟨[], List.forall_mem_nil _, .inl rfl⟩
  | some core =>
    dsimp only
    split
    · exact ⟨[], List.forall_mem_nil _, .inr (.inl (by rw [List.append_nil]))⟩
    · split
      next c hc => exact ⟨[], List.forall_mem_nil _, .inr (.inr ⟨c, .inl (hfound hc).1, (hfound hc).2, rfl⟩)⟩
      next =>
        split
        next c hc =>
          refine ⟨[fillL1 core (p.pa / 16) c.data (cp == 2)], List.forall_mem_singleton.mpr (hfill _ _ _), .inr (.inr ⟨c, ?_⟩)⟩
          have hrdc := hfound (Option.ite_none_right_eq_some.mp hc).2
          exact ⟨.inr hrdc.1, hrdc.2, rfl⟩
        next =>
          refine ⟨_, ?_, .inr (.inl rfl)⟩
          split
          · refine List.forall_mem_cons.mpr ⟨hfill _ _ _, ?_⟩
            split
            · exact List.forall_mem_singleton.mpr fun _ => ⟨rfl, rfl, rfl⟩
            · exact List.forall_mem_nil _
          · exact List.forall_mem_nil _

/-- A read beyond copies and replicas at the home point. -/
theorem readPlace_home {s : State} {a : Agent} {p : Page} {n cp : Nat} (hrep : replicaFor s a (p.pa / 128) = none) (hp : pointOf p cp ≠ 3)
    (hcopies : pointOf p cp = 1 ∨ ((∀ c ∈ s.part.l1, c.sector ≠ p.pa / 16) ∧ ∀ c ∈ s.part.rdc, c.sector ≠ p.pa / 16)) :
    (readPlace s a (.page p) n cp).1 = (homeRead s p a.ctx n).1 := by
  have hserved := servedRead_value hrep n
  rcases pointOf_cases p cp with h0 | h1 | h3
  · obtain ⟨us, _, hr | hr | ⟨c, hc, hsec, _⟩⟩ := readPlace_zero (s := s) (a := a) (n := n) h0
    · rw [hr]
    · rw [hr]; exact hserved
    · rcases hcopies with h1 | ⟨hl1, hrdc⟩
      · rw [h0] at h1; cases h1
      · exact (hc.elim (hl1 c) (hrdc c) hsec).elim
  · rw [readPlace_one h1]
    exact hserved
  · exact absurd h3 hp

theorem readPlace_side {s : State} {a : Agent} {p : Page} {n cp : Nat} (hp : pointOf p cp = 3) (hsys : physRange p.pa ≠ .sys) :
    (readPlace s a (.page p) n cp).1 = homeBytes s p.pa n := by
  rw [readPlace_three hp, sideRead_value a hsys]

/-- What an access reads at a place within one sector. -/
theorem reads_readPlace (s : State) (t : TId) (pl : Place) (n cp : Nat) (hin : ∀ p, pl = .page p → p.pa % 16 + n ≤ 16) :
    Reads s t pl n cp (leNat (readPlace s (agentOf s t) pl n cp).1) := by
  cases pl with
  | scr core off => rfl
  | tib off =>
    have hteam : (agentOf s t).team = t.team := by
      unfold agentOf
      dsimp only
      split
      · rfl
      · split <;> rfl
    exact congrArg (fun k => leNat (((tibBytes s k).drop off).take n)) hteam
  | page p =>
    have hvalue := homeRead_value s p (agentOf s t).ctx (hin p rfl)
    refine ⟨fun hsys hun hor => ?_, fun hsys hun hp hno hk => ?_⟩
    · by_cases hp : pointOf p cp = 3
      · rw [readPlace_side hp hsys]
      · obtain ⟨hrep, hcopies⟩ := hun.resolve_left hp
        rw [readPlace_home hrep hp hcopies, hvalue, if_neg]
        rintro ⟨hno, hk⟩
        rcases hor with h3 | hsome | ⟨h1, h2⟩
        · exact hp h3
        · rw [hno] at hsome; cases hsome
        · exact hk.elim h1 h2
    · obtain ⟨hrep, hcopies⟩ := hun.resolve_left hp
      rw [readPlace_home hrep hp hcopies, hvalue, if_pos ⟨hno, hk⟩]

/-! ## What a read changes -/

/-- A read keeps what the homes hold, of threads, groups and teams everything. -/
structure ReadKeeps (s : State) (us : List Upd) : Prop where
  quiet : ∀ u ∈ us, QuietUpd u
  homes : Homes s → SameHomes s (s.applyAll us)

theorem ReadKeeps.nil (s : State) : ReadKeeps s [] := ⟨List.forall_mem_nil _, fun h => .of_eq h rfl rfl⟩

/-- Copies and records follow. -/
theorem ReadKeeps.append {s : State} {us vs : List Upd} (h : ReadKeeps s us) (hv : ∀ v ∈ vs, QuietUpd v ∧ LinesKept v) : ReadKeeps s (us ++ vs) :=
  ⟨List.forall_mem_append.mpr ⟨h.quiet, fun v hm => (hv v hm).1⟩, fun hs => by
    rw [applyAll_append]
    obtain ⟨hm, hl⟩ := linesKept_applyAll (s.applyAll us) fun v hm => (hv v hm).2
    exact (h.homes hs).before (.of_eq (h.homes hs).homes hm hl)⟩

theorem ReadKeeps.of_linesKept (s : State) {us : List Upd} (hu : ∀ u ∈ us, QuietUpd u ∧ LinesKept u) : ReadKeeps s us :=
  (ReadKeeps.nil s).append hu

theorem readKeeps_cleanSector (s : State) (pa : Nat) : ReadKeeps s (cleanSector s pa) :=
  ⟨fun u hu => (homeUpd_cleanLine s _ _ u hu).quiet, fun h => (SameHomes.cleanLine h _ _).1⟩

theorem readKeeps_sideRead (s : State) (a : Agent) (pa n : Nat) : ReadKeeps s (sideRead s a pa n).2 := by
  unfold sideRead
  split
  · split
    · exact .of_linesKept s (List.forall_mem_singleton.mpr ⟨quietUpd_drawn 2, fun _ => ⟨rfl, rfl⟩⟩)
    · split
      · split
        · refine .of_linesKept s ?_
          unfold energyRead
          split
          · split
            · exact List.forall_mem_singleton.mpr ⟨quietUpd_part _, fun _ => ⟨rfl, rfl⟩⟩
            · exact List.forall_mem_nil _
          · exact List.forall_mem_singleton.mpr ⟨quietUpd_part _, fun _ => ⟨rfl, rfl⟩⟩
        · exact .nil s
      · exact .nil s
  · exact readKeeps_cleanSector s pa

/-- The home takes in a clean sector that it had not. -/
theorem SameHomes.fill {a b : State} (h : Homes a) {n i : Nat} (hi : i < 8) {g : L2Line → L2Line} (hm : b.mem = a.mem)
    (hl2 : b.part.l2 = a.part.l2.map fun l => if l.line = n then g l else l)
    (hg : ∀ l ∈ a.part.l2, l.line = n → l.sec? i = none ∧ (g l).line = n ∧ (g l).secs = ⟨i, a.bytes (n * 128 + i * 16) 16, false⟩ :: l.secs) :
    SameHomes a b := by
  have hbyte (k : Nat) : b.byte k = a.byte k := by rw [State.byte, State.byte, hm]
  have hnum : ∀ l ∈ a.part.l2, (if l.line = n then g l else l).line = l.line := by
    intro l hl
    split
    next he => exact (hg l hl he).2.1.trans he.symm
    next => rfl
  refine .of_bytes ⟨by rw [hm]; exact h.wf, ?_, ?_, ?_, ?_⟩ fun k => ?_
  · rw [hl2, List.map_map]
    exact (List.map_congr_left hnum : a.part.l2.map (L2Line.line ∘ _) = a.part.l2.map L2Line.line) ▸ h.lines
  · rw [hl2, List.forall_mem_map]
    intro l hl
    split
    next he =>
      obtain ⟨hno, _, hs⟩ := hg l hl he
      rw [hs, List.map_cons, List.nodup_cons]
      refine ⟨fun hmem => ?_, h.sectors l hl⟩
      obtain ⟨x, hx, hxi⟩ := List.mem_map.mp hmem
      exact List.find?_eq_none.mp hno x hx (by simpa using hxi)
    next => exact h.sectors l hl
  · rw [hl2, List.forall_mem_map]
    intro l hl
    split
    next he =>
      rw [(hg l hl he).2.2]
      exact List.forall_mem_cons.mpr ⟨⟨hi, bytes_length _ _ _⟩, h.sixteen l hl⟩
    next => exact h.sixteen l hl
  · rw [hl2, List.forall_mem_map]
    intro l hl
    have hkept : ∀ x ∈ l.secs, x.dirty = false → x.data = b.bytes (l.line * 128 + x.i * 16) 16 := fun x hx hd => by
      rw [h.clean l hl x hx hd, bytes_congr 16 _ fun i _ => hbyte _]
    split
    next he =>
      obtain ⟨_, hn, hs⟩ := hg l hl he
      rw [hs, hn]
      refine List.forall_mem_cons.mpr ⟨fun _ => (bytes_congr 16 _ fun i _ => hbyte _).symm, fun x hx hd => ?_⟩
      rw [← he]
      exact hkept x hx hd
    next => exact hkept
  · have hfind : b.l2Line? (k / 128) = (a.l2Line? (k / 128)).map fun l => if l.line = n then g l else l := by
      rw [State.l2Line?, State.l2Line?, hl2, List.find?_map]
      congr 1
      refine List.find?_congr fun l hl => ?_
      simp only [Function.comp, hnum l hl]
    cases hl : a.l2Line? (k / 128) with
    | none => exact homeByte_congr (by rw [sectorOf, sectorOf, hfind, hl]; rfl) fun _ => hbyte k
    | some l =>
      obtain ⟨hmem, hline⟩ := mem_of_l2Line? hl
      by_cases he : l.line = n
      · obtain ⟨hno, _, hs⟩ := hg l hmem he
        have hsec : sectorOf b k = (g l).sec? (k / 16 % 8) := by rw [sectorOf, hfind, hl, Option.map_some, if_pos he]; rfl
        have hsec0 : sectorOf a k = l.sec? (k / 16 % 8) := by rw [sectorOf, hl]; rfl
        by_cases hki : i = k / 16 % 8
        · have hx : (g l).sec? (k / 16 % 8) = some ⟨i, a.bytes (n * 128 + i * 16) 16, false⟩ := by
            rw [L2Line.sec?, hs, List.find?_cons_of_pos (by simpa using hki)]
          rw [homeByte_of_sector (hsec.trans hx), homeByte_of_frame (by rw [hsec0, ← hki]; exact hno),
            getD_bytes a 16 _ _ (Nat.mod_lt _ (by decide))]
          congr 1
          omega
        · have hx : (g l).sec? (k / 16 % 8) = l.sec? (k / 16 % 8) := by
            rw [L2Line.sec?, hs, List.find?_cons_of_neg (by simpa using hki), L2Line.sec?]
          exact homeByte_congr (by rw [hsec, hx, hsec0]) fun _ => hbyte k
      · exact homeByte_congr (by rw [sectorOf, sectorOf, hfind, hl, Option.map_some, if_neg he]) fun _ => hbyte k

/-- A line of no unbacked page that an access brings in: room, and the line. -/
theorem allocate_room {s : State} {p : Page} {ctx : Nat} {us : List Upd} (hk : p.kind = 0 ∨ p.kind = 3) (hno : s.l2Line? (p.pa / 128) = none)
    (h : allocate s p ctx = .ok (some us)) : ∃ room, makeRoom s p.home (p.pa / 128) = some room ∧ us = room ++ [newLine s p ctx] := by
  have hroom : ∀ {o : Option (List Upd)}, o.map (fun us => us ++ [newLine s p ctx]) = some us →
      ∃ room, o = some room ∧ us = room ++ [newLine s p ctx] := fun h => by
    obtain ⟨room, hr, he⟩ := Option.map_eq_some_iff.mp h
    exact ⟨room, hr, he.symm⟩
  have hno' : ¬ (s.l2Line? (p.pa / 128)).isSome = true := by rw [hno]; exact Bool.false_ne_true
  simp only [allocate, if_neg hno'] at h
  rcases hk with hk | hk
  · rw [if_pos hk] at h
    exact hroom (Except.ok.inj h)
  · rw [if_neg (by omega), if_pos hk] at h
    exact hroom (Option.ite_none_left_eq_some.mp (Except.ok.inj h)).2

/-- A line that comes in holds the clean sector that is read. -/
theorem SameHomes.filledLine {s : State} (h : Homes s) {p : Page} {ctx : Nat} {room : List Upd} (hno : s.l2Line? (p.pa / 128) = none)
    (hroom : makeRoom s p.home (p.pa / 128) = some room) :
    SameHomes s (s.applyAll (room ++ [Machine.newLine s p ctx] ++ [updLine (p.pa / 128) fun l =>
      { l with secs := [⟨p.pa / 16 % 8, s.bytes (p.pa / 16 * 16) 16, false⟩] }])) := by
  have halloc := (SameHomes.of_eq h rfl rfl : SameHomes s s).allocated s ctx (makeRoom_eq hroom) hno
  have hl2 : (s.applyAll (room ++ [Machine.newLine s p ctx])).part.l2 =
      ⟨p.pa / 128, p.home, [], p.kind, p.va / 128 * 128, ctx, s.stamp, false⟩ :: (s.applyAll room).part.l2 := by
    rw [applyAll_append]
    exact newLine_l2 s _ p ctx
  rw [applyAll_append]
  generalize s.applyAll (room ++ [Machine.newLine s p ctx]) = b at halloc hl2 ⊢
  have hnew : ∀ l ∈ b.part.l2, l.line = p.pa / 128 → l.secs = [] := by
    intro l hl he
    have hhead : (⟨p.pa / 128, p.home, [], p.kind, p.va / 128 * 128, ctx, s.stamp, false⟩ : L2Line) ∈ b.part.l2 := by
      rw [hl2]; exact List.mem_cons_self
    rw [List.inj_on_of_nodup_map halloc.homes.lines hl hhead he]
  have hsec : sectorOf b p.pa = none := by
    rw [sectorOf, State.l2Line?, hl2, List.find?_cons_of_pos (by simp)]
    rfl
  refine halloc.before (.fill halloc.homes (n := p.pa / 128) (Nat.mod_lt (p.pa / 16) (by decide)) rfl rfl fun l hl he => ?_)
  rw [L2Line.sec?, hnew l hl he, show p.pa / 128 * 128 + p.pa / 16 % 8 * 16 = p.pa / 16 * 16 by omega,
    halloc.frame (by rw [sectorOf, hno]; rfl) hsec]
  exact ⟨rfl, he, rfl⟩

theorem readKeeps_homeRead (s : State) {p : Page} (hkind : p.kind ≤ 3) (ctx n : Nat) : ReadKeeps s (homeRead s p ctx n).2 := by
  have hstamp : ∀ line, ReadKeeps s [updLine line fun l => { l with stamp := s.stamp }] := fun line =>
    ⟨List.forall_mem_singleton.mpr (quietUpd_part _), fun h =>
      .of_map h rfl (g := fun l => if l.line = line then { l with stamp := s.stamp } else l) rfl fun l => by split <;> exact ⟨rfl, rfl⟩⟩
  have hbase : p.pa / 128 * 128 + p.pa / 16 % 8 * 16 = p.pa / 16 * 16 := by omega
  unfold homeRead
  cases hl : s.l2Line? (p.pa / 128) with
  | some l =>
    obtain ⟨hmem, hline⟩ := mem_of_l2Line? hl
    dsimp only
    cases hx : l.sec? (p.pa / 16 % 8) with
    | some x => exact hstamp l.line
    | none =>
      dsimp only
      split
      · exact hstamp l.line
      · refine ⟨List.forall_mem_singleton.mpr (quietUpd_part _), fun h => ?_⟩
        refine .fill h (n := p.pa / 128) (Nat.mod_lt (p.pa / 16) (by decide)) rfl (by rw [hline]; rfl) fun m hm he => ?_
        have hml : m = l := List.inj_on_of_nodup_map h.lines hm hmem (he.trans hline.symm)
        exact ⟨hml ▸ hx, he, by rw [hbase]⟩
  | none =>
    dsimp only
    split
    · exact .nil s
    next hk =>
      split
      next us hus =>
        obtain ⟨room, hroom, rfl⟩ := allocate_room (by omega) hl hus
        refine ⟨List.forall_mem_append.mpr ⟨List.forall_mem_append.mpr ⟨fun u hu => ?_,
          List.forall_mem_singleton.mpr (homeUpd_newLine s p ctx).quiet⟩, List.forall_mem_singleton.mpr (quietUpd_part _)⟩,
          fun h => .filledLine h hl hroom⟩
        rcases makeRoom_eq hroom with rfl | ⟨v, _, rfl⟩
        · cases hu
        · exact (List.forall_mem_append.mpr ⟨homeUpd_writeBack v, List.forall_mem_singleton.mpr (homeUpd_dropLine _)⟩ u hu).quiet
      next => exact .nil s

theorem copyUpd_useRedirect (a : Agent) (line : Nat) : CopyUpd (useRedirect a line) := fun _ => ⟨rfl, rfl, rfl⟩

theorem copyUpd_countRead (s : State) (a : Agent) (p : Page) : ∀ u ∈ countRead s a p, CopyUpd u := by
  simp only [countRead]
  split
  · exact List.forall_mem_nil _
  · refine List.forall_mem_singleton.mpr fun b => ?_
    cases p.w <;> exact ⟨rfl, rfl, rfl⟩

theorem CopyUpd.kept {u : Upd} (h : CopyUpd u) : QuietUpd u ∧ LinesKept u := ⟨h.quiet, h.linesKept⟩

theorem readKeeps_servedRead (s : State) (a : Agent) {p : Page} (hkind : p.kind ≤ 3) (n : Nat) : ReadKeeps s (servedRead s a p n).2 := by
  unfold servedRead
  split
  · exact .of_linesKept s (List.forall_mem_singleton.mpr (copyUpd_useRedirect _ _).kept)
  · exact (readKeeps_homeRead s hkind a.ctx n).append
      (List.forall_mem_cons.mpr ⟨(copyUpd_useRedirect _ _).kept, fun u hu => (copyUpd_countRead s a p u hu).kept⟩)

/-- A read at a place changes no thread, group or team, and no byte at home. -/
theorem readKeeps_readPlace (s : State) (a : Agent) (pl : Place) (n cp : Nat) (hkinds : ∀ p, pl = .page p → p.kind ≤ 3) : ReadKeeps s (readPlace s a pl n cp).2 := by
  have hdrop : ∀ sec, ∀ u ∈ [dropCopies a sec], QuietUpd u ∧ LinesKept u := fun _ =>
    List.forall_mem_singleton.mpr ⟨quietUpd_part _, fun _ => ⟨rfl, rfl⟩⟩
  cases pl with
  | scr core off => exact .nil s
  | tib off => exact .nil s
  | page p =>
    have hkind := hkinds p rfl
    rcases pointOf_cases p cp with h0 | h1 | h3
    · obtain ⟨us, hus, hr | hr | ⟨c, _, _, hr⟩⟩ := readPlace_zero (s := s) (a := a) (n := n) h0
      · rw [hr]; exact readKeeps_homeRead s hkind a.ctx n
      · rw [hr]; exact (readKeeps_servedRead s a hkind n).append fun u hu => (hus u hu).kept
      · rw [hr]; exact .of_linesKept s fun u hu => (hus u hu).kept
    · rw [readPlace_one h1]
      exact (readKeeps_servedRead s a hkind n).append (hdrop _)
    · rw [readPlace_three h3]
      exact (readKeeps_sideRead s a p.pa n).append (hdrop _)

/-! ## Places -/

/-- The page of an access is that of a leaf. -/
theorem pageBut_pageAt {bar : Page → Bool} {stay : List TlbEntry} {s : State} {c : Ctx} {issuer : Nat} {user vetted : Bool} {k : AccessKind}
    {va n : Nat} {p : Page} {us : List Upd} (h : pageBut bar stay s c issuer user vetted k va n = (.ok p, us)) :
    ∃ l pte, p = pageAt l pte va := by
  have hjudge {x : Nat × Nat} {us us' : List Upd} (hj : pageBut.judge bar s user vetted k va n x us = (.ok p, us')) :
      ∃ l pte, p = pageAt l pte va := by
    obtain ⟨l, pte⟩ := x
    simp only [pageBut.judge] at hj
    split at hj
    · cases hj
    · split at hj
      · cases hj
      · split at hj
        · cases hj
        · exact ⟨l, pte, (Except.ok.inj (Prod.mk.inj hj).1).symm⟩
  simp only [pageBut] at h
  split at h
  · exact hjudge h
  · split at h
    · cases h
    · exact hjudge h

theorem localPlace_ne_page (s : State) (a : Agent) (k : AccessKind) (va n : Nat) (p : Page) : localPlace s a k va n ≠ .ok (.page p) := by
  intro h
  simp only [localPlace] at h
  split at h
  · cases h
  · split at h
    · split at h <;> cases h
    · split at h
      · split at h
        · cases h
        · split at h <;> cases h
      · split at h
        · split at h <;> cases h
        · cases h

theorem translate_pageAt {s : State} {a : Agent} {k : AccessKind} {va : BitVec 64} {n : Nat} {p : Page}
    (h : (translate s a k va n).1 = .ok (.page p)) : ∃ l pte, p = pageAt l pte va.toNat := by
  simp only [translate, translateBut] at h
  split at h
  · cases h
  · split at h
    · cases k with
      | fetch | flush => cases h
      | discard =>
        dsimp only at h
        split at h <;> cases h
      | load | store | atomic => exact absurd h (localPlace_ne_page s a _ _ _ p)
    · split at h
      · cases h
      · split at h
        · cases h
        next hp =>
          obtain rfl := Place.page.inj (Except.ok.inj h)
          exact pageBut_pageAt hp

theorem pageAt_kind (l pte va : Nat) : (pageAt l pte va).kind ≤ 3 := by
  simp only [pageAt]
  split
  · split <;> decide
  · split <;> decide

/-- The frame of a page is a multiple of 16 bytes: within a sector a page's byte stands where its address says. -/
theorem pageAt_mod (l pte va : Nat) : (pageAt l pte va).pa % 16 = va % 16 := by
  simp only [pageAt, pteFrame, pageSize]
  split
  · omega
  · split <;> omega

/-- A number of bytes that an access has. -/
def AccessSize (n : Nat) : Prop := n = 1 ∨ n = 2 ∨ n = 4 ∨ n = 8

/-- An aligned access lies within one sector. -/
theorem within_sector {n va pa : Nat} (hn : AccessSize n) (hva : va % n = 0) (hpa : pa % 16 = va % 16) : pa % 16 + n ≤ 16 := by
  rcases hn with rfl | rfl | rfl | rfl <;> omega

/-! ## What a translation depends on -/

section
variable {s b : State}

theorem present_congr (hpos : b.part.pos = s.part.pos) : present b = present s := by
  unfold present State.position
  rw [hpos]

theorem uncorrectable_congr (hbad : b.part.bad = s.part.bad) : b.uncorrectable = s.uncorrectable := by
  unfold State.uncorrectable
  rw [hbad]

theorem homeBytes_congr (hl2 : b.part.l2 = s.part.l2) (hmem : b.mem = s.mem) : homeBytes b = homeBytes s := by
  funext a n
  rw [homeBytes_eq_map, homeBytes_eq_map]
  unfold homeByte State.l2Line? State.byte
  rw [hl2, hmem]

/-- A walk depends on the tables' bytes at home, on the stacks present and on the errors reported. -/
theorem walk_congr (hpos : b.part.pos = s.part.pos) (hbad : b.part.bad = s.part.bad) (hl2 : b.part.l2 = s.part.l2) (hmem : b.mem = s.mem)
    (va : Nat) : walk b va = walk s va := by
  have hstep : walk.step b va = walk.step s va := by
    unfold walk.step
    rw [present_congr hpos, uncorrectable_congr hbad, homeBytes_congr hl2 hmem]
  funext level
  induction level with
  | zero => funext base; rw [walk, walk, hstep]
  | succ level ih => funext base; rw [walk, walk, hstep, ih]

variable (hpart : b.part = s.part) (hmem : b.mem = s.mem)
include hpart hmem

theorem pageBut_congr (bar : Page → Bool) (stay : List TlbEntry) : pageBut bar stay b = pageBut bar stay s := by
  have hjudge : pageBut.judge bar b = pageBut.judge bar s := by
    unfold pageBut.judge readsError
    rw [present_congr (congrArg Part.pos hpart), uncorrectable_congr (congrArg Part.bad hpart)]
  have hleaf : leafFor b = leafFor s := by
    unfold leafFor cachedPte
    funext c issuer va
    rw [hpart, walk_congr (congrArg Part.pos hpart) (congrArg Part.bad hpart) (congrArg Part.l2 hpart) hmem]
  unfold pageBut
  rw [hjudge, hleaf]

/-- A translation depends on the part, on memory and on the teams alone. -/
theorem translate_congr (hteams : b.teams = s.teams) (a : Agent) (k : AccessKind) (va : BitVec 64) (n : Nat) :
    translate b a k va n = translate s a k va n := by
  have htm : b.tm = s.tm := funext (tm_of_teams hteams)
  have hlocal : localPlace b = localPlace s := by
    unfold localPlace inClaim
    rw [htm, hpart, hteams]
  have hctx : b.ctxOf = s.ctxOf := by
    unfold State.ctxOf State.ctx?
    rw [htm, hpart]
  unfold translate translateBut
  rw [hlocal, hctx, htm]
  simp only [pageBut_congr hpart hmem]

end

/-! ## The translation of an access -/

/-- The state after an access's translation: a name is drawn for its issue, translations are cached. -/
def translated (s : State) (tlb : List TlbEntry) : State := { counted s with part := { s.part with tlb := tlb } }

/-- The access goes on in a state that shows what it showed, but for cached translations. -/
theorem translate_counted {s : State} {a : Agent} {k : AccessKind} {va : BitVec 64} {n : Nat} {pl : Place}
    (h : (translate s a k va n).1 = .ok pl) :
    ∃ us tlb, translate (counted s) a k va n = (.ok pl, us) ∧ (counted s).applyAll us = translated s tlb := by
  have htlb : ∀ (us : List Upd) (tlb : List TlbEntry), (∀ u ∈ us, TlbUpd u) → ∃ tlb', (translated s tlb).applyAll us = translated s tlb' := by
    intro us
    induction us with
    | nil => exact fun tlb _ => ⟨tlb, rfl⟩
    | cons u us ih =>
      intro tlb hu
      obtain ⟨tlb', h'⟩ := hu u List.mem_cons_self (translated s tlb)
      rw [applyAll_cons, h']
      exact ih tlb' fun v hv => hu v (List.mem_cons_of_mem _ hv)
  obtain ⟨tlb, heq⟩ := htlb _ s.part.tlb (tlbUpd_translate (counted s) a k va n)
  rw [← translate_congr (s := s) (b := counted s) rfl rfl rfl] at h
  exact ⟨_, tlb, Prod.ext h rfl, heq⟩

theorem reads_translated {s : State} {t : TId} {tlb : List TlbEntry} {pl : Place} {n cp v : Nat} (h : Reads (translated s tlb) t pl n cp v) :
    Reads s t pl n cp v := by
  cases pl with
  | scr core off => exact Eq.trans h (congrArg leNat (bytes_congr n _ fun _ _ => rfl))
  | tib off => exact h
  | page p =>
    obtain ⟨h1, h2⟩ := h
    refine ⟨fun hsys hun hor => ?_, h2⟩
    rw [h1 hsys hun hor, homeBytes_eq_map, homeBytes_eq_map]
    rfl

theorem homes_translated {s : State} (h : Homes s) (tlb : List TlbEntry) : SameHomes s (translated s tlb) := .of_eq h rfl rfl

end Sys2Proof.Machine
end

section
/-! Loads: O26. A load reads at the place of its address, and issues. -/

open Sys2Proof Sys2Proof.Machine

namespace Sys2Proof.Machine

section
variable {s : State} {t : TId} {n : Nat} {va : BitVec 64} {pl : Place}

/-- What a load does at its issue: it reads, LDA acquires, and the access ends. -/
theorem run_loadAt (i : Instr) (d : VReg) {wc : BitVec 3} (cp la : Nat) (acq : Option (BitVec 3)) (h : Reaches s t .load wc va n pl)
    (hbuf : (s.th t).wcBuf = none) (tok : Nat) : ∃ tlb,
      let c := translated s tlb
      let r := readPlace c (agentOf s t) pl n cp
      (loadAt i d wc n cp la acq va tok t).run (counted s) =
        (endAccess t pl i.len tok wc (delivers d (loadWords n r.1) la) (entryLine c (agentOf s t) pl cp) (entryCore (agentOf s t))
          (.load va i.major) .loadReturn).run ((c.applyAll r.2).applyAll ((acq.map (acquireAt (c.applyAll r.2) t)).getD [])) := by
  obtain ⟨us, tlb, hus, hc⟩ := translate_counted h.place
  have horder : orderBars (translated s tlb) (agentOf s t) pl = false := h.order
  have hentry : ((translated s tlb).th t).run.granted = true ∨ (0 < entriesFree (translated s tlb) ((translated s tlb).gr t.gid).core ∧
      rejectedWaits (translated s tlb) ((translated s tlb).gr t.gid).core = false) := h.entry
  have halign : ¬ va.toNat % n ≠ 0 := not_not.mpr h.aligned
  refine ⟨tlb, ?_⟩
  rw [loadAt, if_neg halign, run_read, show agentOf (counted s) t = agentOf s t from rfl]
  dsimp only
  rw [hus]
  dsimp only
  rw [run_seq, run_upds, hc, run_read, horder, if_neg Bool.false_ne_true, run_withEntry hentry, run_seq, run_drainFor_none (s := translated s tlb) pl hbuf]
  rfl

/-- A load issues: what it reads is outstanding for its destination, and the homes hold what they held. -/
theorem loadAt_issued (i : Instr) (d : VReg) {wc : BitVec 3} (cp la : Nat) (acq : Option (BitVec 3)) (hs : Solo s t)
    (h : Reaches s t .load wc va n pl) (hn : AccessSize n) (hbuf : (s.th t).wcBuf = none) : ∃ v,
      let b := (loadAt i d wc n cp la acq va s.nextId t).run (counted s)
      Reads s t pl n cp v ∧ Issued s b t wc (some ⟨d, (regWords n v).length, some (regWords n v), la⟩) .loadReturn i.len ∧
        (Homes s → ∀ a, homeByte b a = homeByte s a) := by
  obtain ⟨tlb, hrun⟩ := run_loadAt i d cp la acq h hbuf s.nextId
  dsimp only at hrun ⊢
  rw [hrun]
  have hpage : ∀ p, pl = .page p → p.kind ≤ 3 ∧ p.pa % 16 + n ≤ 16 := by
    rintro p rfl
    obtain ⟨l, pte, rfl⟩ := translate_pageAt h.place
    exact ⟨pageAt_kind _ _ _, within_sector hn h.aligned (pageAt_mod _ _ _)⟩
  have hkeeps := readKeeps_readPlace (translated s tlb) (agentOf s t) pl n cp fun p hp => (hpage p hp).1
  have hread : Reads s t pl n cp (leNat (readPlace (translated s tlb) (agentOf s t) pl n cp).1) := reads_translated (reads_readPlace (translated s tlb) t pl n cp fun p hp => (hpage p hp).2)
  generalize readPlace (translated s tlb) (agentOf s t) pl n cp = r at hkeeps hread ⊢
  have hquiet := Quiet.applyAll (translated s tlb) hkeeps.quiet
  have hhomes := hkeeps.homes
  generalize (translated s tlb).applyAll r.2 = c at hquiet hhomes ⊢
  have hacq : ∀ u ∈ (acq.map (acquireAt c t)).getD [], CopyUpd u := by
    cases acq with
    | none => exact List.forall_mem_nil _
    | some scope => exact copyUpd_acquireAt c t scope
  have hquiet' := hquiet.trans (Quiet.applyAll c fun u hu => (hacq u hu).quiet)
  have hlines := linesKept_applyAll c fun u hu => (hacq u hu).linesKept
  generalize c.applyAll ((acq.map (acquireAt c t)).getD []) = e at hquiet' hlines ⊢
  have hth : e.th t = s.th t := th_of_threads hquiet'.threads t
  obtain ⟨hissued, hmem, hl2, _⟩ := endAccess_issued (s := s) (c := e) (t := t) (wc := wc) pl i.len (delivers d (loadWords n r.1) la)
    (entryLine (translated s tlb) (agentOf s t) pl cp) (entryCore (agentOf s t)) (.load va i.major) .loadReturn
    (by unfold State.thread?; rw [hquiet'.threads]; exact hs.thread) (by unfold State.group?; rw [hquiet'.groups]; exact hs.group)
    (by rw [hth]; exact Stands.refl _) (fun r => by rw [hth]) (by rw [gr_of_groups hquiet'.groups]; rfl) hquiet'.next
  refine ⟨leNat r.1, hread, hissued, fun hh a => ?_⟩
  have hc := hhomes (homes_translated hh tlb).homes
  have he : SameHomes c e := .of_eq hc.homes hlines.1 hlines.2
  rw [(SameHomes.of_eq he.homes hmem hl2).byte, he.byte, hc.byte, (homes_translated hh tlb).byte]

/-- The issue of a load at an address that its registers give. -/
theorem load_shows {i : Instr} {d a : VReg} {wc : BitVec 3} {cp la : Nat} {acq : Option (BitVec 3)} (addr : Thread → BitVec 64) (hs : Solo s t)
    (hc : Clear s t i (pairOf a) []) (hi : ∀ op, i ≠ .trace op) (hva : addr (s.th t) = va) (h : Reaches s t .load wc va n pl)
    (hn : AccessSize n) (hbuf : (s.th t).wcBuf = none)
    (he : exec i s = Machine.run (issueCounted i wc (pairOf a) fun tok t => .read fun s => loadAt i d wc n cp la acq (addr (s.th t)) tok t) s) :
    ∃ s' v, exec i s = .next s' ∧ MovesOn s s' t i.len ∧ Reads s t pl n cp v ∧
      Counts s s' t wc (some ⟨d, (regWords n v).length, some (regWords n v), la⟩) .loadReturn ∧
      (∀ r, (s'.th t).reg r = (s.th t).reg r) ∧ (Unhosted s t → Settled s → ∀ a, homeByte s' a = homeByte s a) := by
  obtain ⟨v, hreads, hissued, hbytes⟩ := loadAt_issued i d cp la acq hs h hn hbuf
  obtain ⟨s', hrun, hmoves, hcounts, hregs, _, hl2, hmem⟩ := issueCounted_counts hs hc hi h.counter (fun tok t => .read fun s =>
    loadAt i d wc n cp la acq (addr (s.th t)) tok t)
    (b := (loadAt i d wc n cp la acq va s.nextId t).run (counted s)) (by rw [← hva]; rfl) hissued
  refine ⟨s', v, by rw [he, run_next, hrun], hmoves, hreads, hcounts, hregs, fun hh hset k => ?_⟩
  rw [← hbytes hset.homes k]
  simp only [homeByte, State.l2Line?, State.byte, hl2, hmem hh]

end

theorem sizeOf_access (sz : BitVec 2) : AccessSize (Machine.sizeOf sz) := by
  unfold AccessSize
  revert sz
  decide

theorem wide_access (sz : BitVec 1) : AccessSize (if sz = 1#1 then 8 else 4) := by
  unfold AccessSize
  revert sz
  decide

/-- Settles O26: a load reads in a state that shows what the state before its issue showed, and issues. -/
theorem loadResults : Obligations.LoadResults := by
  intro i f pl s t hf hs hc va hreach hbuf
  cases i <;> cases hf
  case ld d a wc sz cp la =>
    exact load_shows (fun x => x.val64 a + (0#32).signExtend 64) hs hc nofun rfl hreach (sizeOf_access sz) hbuf rfl
  case ldOffset d a wc sz cp la off =>
    exact load_shows (fun x => x.val64 a + off.signExtend 64) hs hc nofun rfl hreach (sizeOf_access sz) hbuf rfl
  case lda d a wc sz cp la =>
    exact load_shows (fun x => x.val64 a) hs hc nofun (BitVec.add_zero _).symm hreach (wide_access sz) hbuf rfl
  case ldaScope d a wc sz cp la scope =>
    exact load_shows (fun x => x.val64 a) hs hc nofun (BitVec.add_zero _).symm hreach (wide_access sz) hbuf rfl

end Sys2Proof.Machine
end

section
/-! Writes within a sector, on pages of every kind and at every point (R138, R139, R153), and what a match depends on. -/

open Sys2Proof Sys2Proof.Machine

namespace Sys2Proof.Machine

/-! ## A write at the memory side -/

/-- A write to the frame of a sector that no home holds. -/
theorem Rewrites.storeFrame {s : State} (h : Homes s) (pa : Nat) (bs : List Byte) (hno : sectorOf s pa = none) (hin : pa % 16 + bs.length ≤ 16) :
    Rewrites s ((Upd.store pa bs).apply s) pa bs := by
  have hbyte := byte_store (s := s) h.wf pa bs
  have hl2 : ((Upd.store pa bs).apply s).part.l2 = s.part.l2 := rfl
  have hwf := apply_mem_wf s (.store pa bs) h.wf
  generalize (Upd.store pa bs).apply s = s' at hbyte hl2 hwf
  have hsec (k : Nat) : sectorOf s' k = sectorOf s k := by rw [sectorOf, sectorOf, State.l2Line?, State.l2Line?, hl2]
  refine ⟨⟨hwf, hl2 ▸ h.lines, hl2 ▸ h.sectors, hl2 ▸ h.sixteen, ?_⟩, fun k => ?_⟩
  · rw [hl2]
    intro l hl x hx hd
    have hi := (h.sixteen l hl x hx).1
    rw [h.clean l hl x hx hd, bytes_congr 16 _ fun i hi => ?_]
    rw [hbyte, if_neg fun hk => ?_]
    have hline : pa / 128 = l.line := by omega
    have hidx : pa / 16 % 8 = x.i := by omega
    rw [sectorOf, hline, l2Line?_of_mem h hl, hidx] at hno
    exact List.find?_eq_none.mp hno x hx (beq_self_eq_true _)
  · split
    next hk =>
      have hnone : sectorOf s k = none := by
        rw [← hno, sectorOf, sectorOf, show k / 16 = pa / 16 by omega, show k / 128 = pa / 128 by omega]
      rw [homeByte_of_frame ((hsec k).trans hnone), hbyte, if_pos hk]
    next hk => exact homeByte_congr (hsec k) fun _ => by rw [hbyte, if_neg hk]

/-- Copies and orders are noted after the bytes. -/
theorem Rewrites.of_lines {s b c : State} {a : Nat} {bs : List Byte} (h : Rewrites s b a bs) (hm : c.mem = b.mem) (hl : c.part.l2 = b.part.l2) :
    Rewrites s c a bs := h.before (.of_eq h.homes hm hl)

/-- What a write leaves to note once the bytes stand. -/
def notes (s : State) (a : Agent) (cp pa : Nat) (bs : List Byte) : List Upd := copiesAfterWrite s a cp pa bs ++ orderAfterWrite s a pa

theorem copyUpd_notes (s : State) (a : Agent) (cp pa : Nat) (bs : List Byte) : ∀ u ∈ notes s a cp pa bs, CopyUpd u :=
  List.forall_mem_append.mpr ⟨copyUpd_copiesAfterWrite s a cp pa bs, copyUpd_orderAfterWrite s a pa⟩

/-- What a write that is performed does: it changes the homes alone, and writes its bytes over what they hold. -/
structure Writes (s : State) (pa : Nat) (bs : List Byte) (us : List Upd) : Prop where
  same : SameButHomes s (s.applyAll us)
  rewrites : Homes s → Rewrites s (s.applyAll us) pa bs

/-- R139: a write at the memory side. -/
theorem writePlace_side {s : State} {a : Agent} {p : Page} {cp : Nat} {bs : List Byte} (hp : pointOf p cp = 3) (hsys : physRange p.pa ≠ .sys)
    (hin : p.pa % 16 + bs.length ≤ 16) : ∃ us, writePlace s a (.page p) bs cp = .ok us ∧ Writes s p.pa bs us := by
  have hside : sideWrite s a p.pa bs = cleanSector s p.pa ++ [.store p.pa bs] := by
    unfold sideWrite
    split
    next hs => exact absurd hs hsys
    next => rfl
  have hok : writePlace s a (.page p) bs cp =
      .ok (beforeWrite (p.pa / 128) :: (cleanSector s p.pa ++ [.store p.pa bs] ++ notes s a cp p.pa bs)) := by
    simp only [writePlace, hp, hside, notes, List.append_assoc, List.cons_append, List.nil_append]
  refine ⟨_, hok, ?_, fun h => ?_⟩
  · refine .applyAll s (List.forall_mem_cons.mpr ⟨homeUpd_beforeWrite _, List.forall_mem_append.mpr ⟨List.forall_mem_append.mpr
      ⟨homeUpd_cleanLine s _ _, List.forall_mem_singleton.mpr (homeUpd_store _ _)⟩, fun u hu b => (copyUpd_notes s a cp p.pa bs u hu b).1⟩⟩)
  · have hnote := SameHomes.beforeWrite h (p.pa / 128)
    obtain ⟨hclean, hg⟩ := SameHomes.cleanLine hnote.homes (p.pa / 128) [p.pa / 16 % 8]
    rw [cleanLine_beforeWrite] at hclean hg
    have hno := hg.gone p.pa rfl (by simp)
    rw [applyAll_cons, applyAll_append, applyAll_append]
    obtain ⟨hm, hl⟩ := linesKept_applyAll ((((beforeWrite (p.pa / 128)).apply s).applyAll (cleanSector s p.pa)).applyAll [.store p.pa bs])
      fun u hu => (copyUpd_notes s a cp p.pa bs u hu).linesKept
    exact ((Rewrites.after hnote hclean).after (.storeFrame hclean.homes p.pa bs hno hin)).of_lines hm hl

/-! ## A write at the home point -/

/-- What bringing a line in for a write comes to. -/
inductive Allocated (s : State) (p : Page) (ctx : Nat) : Option (List Upd) → Prop where
  | held (h : (s.l2Line? (p.pa / 128)).isSome = true) : Allocated s p ctx (some [])
  | frame (h : s.l2Line? (p.pa / 128) = none) : Allocated s p ctx none
  | comes {room : List Upd} (h : s.l2Line? (p.pa / 128) = none) (hroom : makeRoom s p.home (p.pa / 128) = some room) :
      Allocated s p ctx (some (room ++ [newLine s p ctx]))

/-- R153, R154: a write need not wait: its line is there, or of a page that is not unbacked, or an unbacked one that finds room and quota. -/
def Admits (s : State) (p : Page) (ctx : Nat) : Prop :=
  (s.l2Line? (p.pa / 128)).isSome = true ∨ p.kind = 0 ∨ p.kind = 3 ∨
    ((heldIn s p.home (p.pa / 128)).length < 12 ∧ ∃ c, s.ctx? ctx = some c ∧ unbackedCount s ctx < c.quota)

theorem allocated_room {s : State} {p : Page} {ctx : Nat} (hno : s.l2Line? (p.pa / 128) = none) :
    Allocated s p ctx ((makeRoom s p.home (p.pa / 128)).map fun us => us ++ [newLine s p ctx]) := by
  cases hr : makeRoom s p.home (p.pa / 128) with
  | none => exact .frame hno
  | some room => exact .comes hno hr

theorem allocate_admits {s : State} {p : Page} {ctx : Nat} (h : Admits s p ctx) : ∃ o, allocate s p ctx = .ok o ∧ Allocated s p ctx o := by
  by_cases hline : (s.l2Line? (p.pa / 128)).isSome = true
  · exact ⟨_, by simp only [allocate, if_pos hline], .held hline⟩
  · have hno : s.l2Line? (p.pa / 128) = none := by simpa using hline
    have hroom := allocated_room (ctx := ctx) hno
    simp only [allocate, if_neg hline]
    by_cases h0 : p.kind = 0
    · exact ⟨_, if_pos h0, hroom⟩
    · rw [if_neg h0]
      by_cases h3 : p.kind = 3
      · rw [if_pos h3]
        refine ⟨_, rfl, ?_⟩
        split
        · exact .frame hno
        · exact hroom
      · rw [if_neg h3]
        rcases h with h | h | h | ⟨hheld, c, hc, hquota⟩
        · exact absurd h hline
        · exact absurd h h0
        · exact absurd h h3
        · rw [hc]
          dsimp only
          rw [if_neg (Nat.not_le.mpr hquota), if_pos hheld]
          exact ⟨_, rfl, hroom⟩

/-- A write at the home point. -/
theorem writePlace_point {s : State} {a : Agent} {p : Page} {cp : Nat} {bs : List Byte} (hp : pointOf p cp ≠ 3) (h : Admits s p a.ctx)
    (hin : p.pa % 16 + bs.length ≤ 16) : ∃ us, writePlace s a (.page p) bs cp = .ok us ∧ Writes s p.pa bs us := by
  obtain ⟨o, ho, halloc⟩ := allocate_admits h
  have htaken : ∃ us, TakenIn s p a.ctx bs us ∧ writePlace s a (.page p) bs cp =
      .ok (beforeWrite (p.pa / 128) :: (us ++ notes s a (if cp = 3 then 1 else cp) p.pa bs)) := by
    cases halloc with
    | held hline =>
      refine ⟨_, .held hline, ?_⟩
      simp only [writePlace, ho]
      simp [notes]
    | frame hno =>
      refine ⟨_, .frame hno, ?_⟩
      simp only [writePlace, ho]
      simp [notes]
    | comes hno hroom =>
      refine ⟨_, .comes hno hroom, ?_⟩
      simp only [writePlace, ho]
      simp [notes]
  obtain ⟨us, hus, hok⟩ := htaken
  refine ⟨_, hok, ?_, fun hs => ?_⟩
  · exact .applyAll s (List.forall_mem_cons.mpr ⟨homeUpd_beforeWrite _, List.forall_mem_append.mpr ⟨hus.homeUpd, fun u hu b =>
      (copyUpd_notes s a _ p.pa bs u hu b).1⟩⟩)
  · have hrw := hus.rewrites hs a hin
    rw [applyAll_cons, applyAll_append] at hrw ⊢
    obtain ⟨hm, hl⟩ := linesKept_applyAll (((beforeWrite (p.pa / 128)).apply s).applyAll us) fun u hu =>
      (copyUpd_copiesAndOrder s a p.pa bs u hu).linesKept
    obtain ⟨hm', hl'⟩ := linesKept_applyAll (((beforeWrite (p.pa / 128)).apply s).applyAll us) fun u hu =>
      (copyUpd_notes s a (if cp = 3 then 1 else cp) p.pa bs u hu).linesKept
    exact hrw.of_lines (hm'.trans hm.symm) (hl'.trans hl.symm)

/-- A write within a sector of a page of memory that need not wait. -/
theorem writePlace_writes {s : State} {a : Agent} {p : Page} {cp : Nat} {bs : List Byte} (hsys : physRange p.pa ≠ .sys)
    (h : pointOf p cp ≠ 3 → Admits s p a.ctx) (hin : p.pa % 16 + bs.length ≤ 16) :
    ∃ us, writePlace s a (.page p) bs cp = .ok us ∧ Writes s p.pa bs us := by
  by_cases hp : pointOf p cp = 3
  · exact writePlace_side hp hsys hin
  · exact writePlace_point hp (h hp) hin

/-- The bytes that a write leaves, read back. -/
theorem Rewrites.read {s s' : State} {pa : Nat} {bs : List Byte} (h : Rewrites s s' pa bs) : homeBytes s' pa bs.length = bs :=
  homeBytes_eq fun k hk => by rw [h.bytes, if_pos hk]

theorem Rewrites.stored {s s' : State} {p : Page} {bs : List Byte} (h : Rewrites s s' p.pa bs) : Stored s s' (.page p) bs :=
  ⟨h.read, fun k hk => by rw [h.bytes, if_neg (by omega)]⟩

/-! ## What a match depends on -/

/-- Two states in which a thread that no microscope core hosts meets the same matches. -/
structure SameMatches (a b : State) : Prop where
  teams : b.teams = a.teams
  groups : SameGroups a b
  trips : b.part.trips = a.part.trips
  ctxs : b.part.ctxs = a.part.ctxs
  supAsid : b.part.supAsid = a.part.supAsid

theorem SameMatches.trans {a b c : State} (h : SameMatches a b) (g : SameMatches b c) : SameMatches a c :=
  ⟨g.teams.trans h.teams, h.groups.trans g.groups, g.trips.trans h.trips, g.ctxs.trans h.ctxs, g.supAsid.trans h.supAsid⟩

theorem SameButHomes.sameMatches {a b : State} (h : SameButHomes a b) : SameMatches a b := by
  rw [SameButHomes] at h
  exact ⟨by rw [h], .of_groups (by rw [h]), by rw [h], by rw [h], by rw [h]⟩

theorem Calm.sameMatches {a b : State} (h : Calm a b) : SameMatches a b := by
  have hp := h.part
  rw [CalmPart] at hp
  exact ⟨h.teams, h.groups, by rw [hp], by rw [hp], by rw [hp]⟩

theorem SameMatches.findMatch {a b : State} (h : SameMatches a b) {t : TId} (hh : Unhosted a t) (kind addr n v : Nat) :
    Machine.findMatch b t kind addr n v = Machine.findMatch a t kind addr n v := by
  have h1 : (a.gr t.gid).hosted = none := hh
  have h2 : (b.gr t.gid).hosted = none := (h.groups.hosted t.gid).trans h1
  have htm : ∀ k, b.tm k = a.tm k := tm_of_teams h.teams
  have hsup : b.isSup t.team = a.isSup t.team := by unfold State.isSup; rw [htm]
  have hctx : b.ctxOf t.team = a.ctxOf t.team := by unfold State.ctxOf State.ctx?; rw [htm, h.ctxs, h.supAsid]
  have hcore : (b.gr t.gid).core = (a.gr t.gid).core := h.groups.field t.gid Group.core fun _ => rfl
  have htrip : ∀ c, b.trip c = a.trip c := fun c => by unfold State.trip; rw [h.trips]
  simp only [Machine.findMatch, h1, h2, hsup, hctx, hcore, htrip]

theorem endAccess_sameMatches (t : TId) (pl : Place) (len tok : Nat) (wc : BitVec 3) (dlv : Option Delivery) (line : Option Nat) (core : Nat)
    (job : Job) (ev : Nat → Instr) (c : State) : SameMatches c ((endAccess t pl len tok wc dlv line core job ev).run c) := by
  simp only [endAccess, run_seq, run_addOp]
  have h := (calm_freshAfter t pl c).1.sameMatches.trans (calm_done _ t len).sameMatches
  generalize (Eff.done t len).run _ = d at h ⊢
  exact h.trans ⟨rfl, SameGroups.refl d, rfl, rfl, rfl⟩

theorem run_watchAccess_none {s : State} {t : TId} {kind addr n v : Nat} (h : findMatch s t kind addr n v = none) :
    (watchAccess t kind addr n v).run s = s := by
  simp only [watchAccess, run_read, h, run_nothing]

end Sys2Proof.Machine
end

section
/-! The run of a store: it writes at the place of its address, or enters its thread's combining buffer, and issues (R138 to R140, R166). -/

open Sys2Proof Sys2Proof.Machine

namespace Sys2Proof.Machine

/-! ## States in which an access may end -/

/-- A state in which an access that `s` issued may end: its thread stands as it stood, with a name drawn. -/
structure Ready (s c : State) (t : TId) (wc : BitVec 3) : Prop where
  thread : (c.thread? t).isSome = true
  group : (c.group? t.gid).isSome = true
  stands : Stands (s.th t) (c.th t)
  regs : ∀ r, (c.th t).reg r = (s.th t).reg r
  counter : (c.gr t.gid).counter wc = (s.gr t.gid).counter wc
  next : c.nextId = s.nextId + 1

theorem ready_translated {s : State} {t : TId} (hs : Solo s t) (tlb : List TlbEntry) (wc : BitVec 3) : Ready s (translated s tlb) t wc :=
  ⟨hs.thread, hs.group, Stands.refl _, fun _ => rfl, rfl, rfl⟩

section
variable {s c : State} {t : TId} {wc : BitVec 3} (h : Ready s c t wc)
include h

theorem Ready.quiet {d : State} (q : Quiet c d) : Ready s d t wc where
  thread := by unfold State.thread?; rw [q.threads]; exact h.thread
  group := by unfold State.group?; rw [q.groups]; exact h.group
  stands := by rw [th_of_threads q.threads]; exact h.stands
  regs := by rw [th_of_threads q.threads]; exact h.regs
  counter := by rw [gr_of_groups q.groups]; exact h.counter
  next := q.next.trans h.next

/-- The thread's buffer changes. -/
theorem Ready.buffer (x : Option WcBuffer) : let d := (Upd.thread t fun y => { y with wcBuf := x }).apply c
    Ready s d t wc ∧ (d.th t).wcBuf = x := by
  intro d
  have hth : d.th t = { c.th t with wcBuf := x } := th_apply_thread_keep h.thread (by exact th_id)
  refine ⟨⟨?_, h.group, ?_, fun r => ?_, h.counter, h.next⟩, by rw [hth]⟩
  · exact (isSome_thread?_apply_thread c t t _).trans h.thread
  · rw [hth]; exact ⟨h.stands.pc, h.stands.widx, h.stands.clause, h.stands.rep, h.stands.ifpN⟩
  · rw [hth]; exact h.regs r

theorem Ready.watches {u : TId} {d : State} (w : Watches u c d) : Ready s d t wc ∧ (d.th t).wcBuf = (c.th t).wcBuf := by
  have hth : ∃ w, d.th t = { c.th t with watch := w } := by
    by_cases hu : t = u
    · rw [hu]; exact w.self
    · exact ⟨(c.th t).watch, by rw [w.others t hu]⟩
  obtain ⟨x, hth⟩ := hth
  obtain ⟨y, hgr⟩ := w.group t.gid
  refine ⟨⟨(w.some t).trans h.thread, (w.groupSome t.gid).trans h.group, ?_, fun r => ?_, ?_, w.next.trans h.next⟩, by rw [hth]⟩
  · rw [hth]; exact ⟨h.stands.pc, h.stands.widx, h.stands.clause, h.stands.rep, h.stands.ifpN⟩
  · rw [hth]; exact h.regs r
  · rw [hgr]; exact h.counter

/-- The thread's own buffer has drained. -/
theorem Ready.drained {b : WcBuffer} (hb : (c.th t).wcBuf = some b) :
    Ready s (c.applyAll (drainBuffer c t)) t wc ∧ ((c.applyAll (drainBuffer c t)).th t).wcBuf = none := by
  obtain ⟨hr, hnone⟩ := h.buffer none
  obtain ⟨hd, hbuf⟩ := hr.watches (drainBuffer_watches hb)
  exact ⟨hd, hbuf.trans hnone⟩

/-- Another thread's buffer has drained. -/
theorem Ready.drainedOther (hb : (c.th t).wcBuf = none) (u : TId) : Ready s (c.applyAll (drainBuffer c u)) t wc := by
  cases hu : (c.th u).wcBuf with
  | none => rw [drainBuffer_none hu]; exact h
  | some b =>
    have hne : t ≠ u := by rintro rfl; rw [hb] at hu; cases hu
    refine (Ready.watches ?_ (drainBuffer_watches hu)).1
    have hth : ((Upd.thread u fun x => { x with wcBuf := none }).apply c).th t = c.th t := th_apply_thread_ne c _ hne
    exact ⟨(isSome_thread?_apply_thread c u t _).trans h.thread, h.group, by rw [hth]; exact h.stands, by rw [hth]; exact h.regs,
      h.counter, h.next⟩

theorem Ready.ends (pl : Place) (len : Nat) (line : Option Nat) (core : Nat) (job : Job) :
    let b := (endAccess t pl len s.nextId wc none line core job .accessAck).run c
    Issued s b t wc none .accessAck len ∧ b.mem = c.mem ∧ b.part.l2 = c.part.l2 ∧ (b.th t).wcBuf = (c.th t).wcBuf :=
  endAccess_issued pl len none line core job .accessAck h.thread h.group h.stands h.regs h.counter h.next

end

/-! ## The run of a store -/

/-- The data of a store, as a number. -/
def storeNum (x : Thread) (d : VReg) (n : Nat) : Nat := if n = 8 then (x.val64 d).toNat else (x.val d).toNat

theorem storeBytes_eq (x : Thread) (d : VReg) (n : Nat) : storeBytes x d n = leBytes n (storeNum x d n) := by
  unfold storeBytes storeNum
  split
  next h => rw [h]
  next => rfl

section
variable {s : State} {t : TId} {va : BitVec 64} {pl : Place} {bs : List Byte} {wc : BitVec 3}

/-- What comes before a store on a page: a release and a strongly ordered page wait for the thread's earlier stores (R166, R173). -/
def beforeStore (rel : Bool) (t : TId) (pl : Place) : Eff := if rel then .act fun s => drainBuffer s t else drainFor t pl

theorem run_beforeStore_none (rel : Bool) (pl : Place) (h : (s.th t).wcBuf = none) : (beforeStore rel t pl).run s = s := by
  cases rel with
  | false => exact run_drainFor_none pl h
  | true => exact (run_act _ s).trans (by rw [drainBuffer_none h, applyAll_nil])

/-- What a store does at its issue: it writes and meets its match, or is combined. -/
theorem run_storeAt (i : Instr) (cp : Nat) (rel : Bool) (h : Reaches s t .store wc va bs.length pl) (tok : Nat) : ∃ tlb,
    let e := (beforeStore rel t pl).run (translated s tlb)
    let ends := fun job => endAccess t pl i.len tok wc none (entryLine e (agentOf s t) pl 1) (entryCore (agentOf s t)) job .accessAck
    (pl.combines = false → (storeAt i bs wc cp rel va tok t).run (counted s) =
      (storeAt.storeNow bs cp t (agentOf s t) pl (ends (.access va i.major)) va).run e) ∧
    (∀ p, pl = .page p → pl.combines = true → (storeAt i bs wc cp rel va tok t).run (counted s) =
      (Eff.seq (combine e t p.pa bs va) (.seq (.act fun s' => orderAfterWrite s' (agentOf s t) p.pa) (ends (.combined (p.pa / 128))))).run e) := by
  obtain ⟨us, tlb, hus, hc⟩ := translate_counted h.place
  have horder : orderBars (translated s tlb) (agentOf s t) pl = false := h.order
  have hentry : ((translated s tlb).th t).run.granted = true ∨ (0 < entriesFree (translated s tlb) ((translated s tlb).gr t.gid).core ∧
      rejectedWaits (translated s tlb) ((translated s tlb).gr t.gid).core = false) := h.entry
  have halign : ¬ va.toNat % bs.length ≠ 0 := not_not.mpr h.aligned
  refine ⟨tlb, ?_⟩
  rw [storeAt, if_neg halign, run_read, show agentOf (counted s) t = agentOf s t from rfl]
  dsimp only
  rw [hus]
  dsimp only
  rw [run_seq, run_upds, hc, run_read, horder, if_neg Bool.false_ne_true, run_withEntry hentry, run_seq, run_read]
  refine ⟨fun hcomb => ?_, ?_⟩
  · cases pl with
    | page p => simp only [hcomb, Bool.false_eq_true, if_false]; rfl
    | scr core off => rfl
    | tib off => rfl
  · rintro p rfl hcomb
    simp only [hcomb, if_true]
    rfl

/-- A store that is performed now, in a state whose matches are those of `s`: it writes, meets no match, and ends. -/
theorem storeNow_issued {e : State} {cp : Nat} {us : List Upd} (hr : Ready s e t wc) (hok : writePlace e (agentOf s t) pl bs cp = .ok us)
    (hq : Quiet e (e.applyAll us)) (hsame : SameMatches s (e.applyAll us)) (hh : Unhosted s t)
    (hno : findMatch s t 1 va.toNat bs.length (leNat bs) = none) (len : Nat) (line : Option Nat) (core : Nat) (job : Job) :
    let b := (storeAt.storeNow bs cp t (agentOf s t) pl (endAccess t pl len s.nextId wc none line core job .accessAck) va).run e
    Issued s b t wc none .accessAck len ∧ b.mem = (e.applyAll us).mem ∧ b.part.l2 = (e.applyAll us).part.l2 ∧
      (b.th t).wcBuf = (e.th t).wcBuf := by
  have hends := (hr.quiet hq).ends pl len line core job
  have hmatch := (hsame.trans (endAccess_sameMatches t pl len s.nextId wc none line core job .accessAck _)).findMatch hh 1 va.toNat bs.length (leNat bs)
  simp only [storeAt.storeNow, run_read, hok, run_seq, run_upds]
  generalize (endAccess t pl len s.nextId wc none line core job .accessAck).run (e.applyAll us) = b at hends hmatch ⊢
  rw [run_watchAccess_none (hmatch.trans hno), ← th_of_threads hq.threads]
  exact hends

end

end Sys2Proof.Machine
end

section
/-! What stores leave: the bytes at their place, or an opened buffer (R138 to R140). -/

open Sys2Proof Sys2Proof.Machine

namespace Sys2Proof.Machine

/-! ## A write that need not wait -/

theorem agentOf_ctx (s : State) (t : TId) : (agentOf s t).ctx = ctxNum s t.team := by
  unfold agentOf
  dsimp only
  split
  · rfl
  · split <;> rfl

theorem heldIn_translated (s : State) (tlb : List TlbEntry) (die line : Nat) : heldIn (translated s tlb) die line = heldIn s die line := by
  have hheld : lineHeld (translated s tlb) = lineHeld s := by
    funext l
    unfold lineHeld
    rw [show (translated s tlb).ctx? l.ctx = s.ctx? l.ctx from rfl,
      funext fun va => walk_congr (s := s) (b := translated s tlb) rfl rfl rfl rfl va]
  unfold heldIn
  rw [hheld]
  rfl

theorem admits_translated {s : State} {p : Page} {ctx : Nat} (h : Admits s p ctx) (tlb : List TlbEntry) : Admits (translated s tlb) p ctx := by
  unfold Admits
  rw [heldIn_translated]
  exact h

/-- The bytes of the scratchpad that a write leaves. -/
theorem stored_scr {s d : State} (h : Memory.wf s.mem = true) {core off : Nat} {bs : List Byte}
    (hm : d.mem = ((Upd.store (scrKey core off) bs).apply s).mem) : Stored s d (.scr core off) bs := by
  have hbyte (k : Nat) : d.byte k = if scrKey core off ≤ k ∧ k < scrKey core off + bs.length then bs.getD (k - scrKey core off) 0#8 else s.byte k := by
    rw [← byte_store h, State.byte, hm]; rfl
  refine ⟨List.ext_getElem (bytes_length _ _ _) fun i hi hi' => ?_, fun k hk => by rw [hbyte, if_neg (by omega)]⟩
  have hget := getD_bytes d bs.length (scrKey core off) i hi'
  rw [List.getD_eq_getElem?_getD, List.getElem?_eq_getElem hi, Option.getD_some] at hget
  rw [hget, hbyte, if_pos ⟨Nat.le_add_right _ _, by omega⟩, Nat.add_sub_cancel_left, List.getD_eq_getElem?_getD,
    List.getElem?_eq_getElem hi', Option.getD_some]

/-- What a write does to the state in which it is performed: it changes bytes at its place alone. -/
structure Performs (s c : State) (pl : Place) (bs : List Byte) (us : List Upd) : Prop where
  quiet : Quiet c (c.applyAll us)
  sameMatches : SameMatches c (c.applyAll us)
  stored : ∀ d : State, d.mem = (c.applyAll us).mem → d.part.l2 = (c.applyAll us).part.l2 → Stored s d pl bs

theorem performs_scr {s : State} (hset : Settled s) (tlb : List TlbEntry) (core off : Nat) (bs : List Byte) :
    Performs s (translated s tlb) (.scr core off) bs (.store (scrKey core off) bs :: noteLandings (translated s tlb) (scrKey core off) bs.length) := by
  let c := (Upd.store (scrKey core off) bs).apply (translated s tlb)
  have hnote : ∀ b : State, b = c.applyAll (noteLandings (translated s tlb) (scrKey core off) bs.length) →
      ∃ ops, b = { c with part := { c.part with ops := ops } } := by
    rintro _ rfl
    unfold noteLandings
    split
    · exact ⟨_, rfl⟩
    · exact ⟨c.part.ops, rfl⟩
  obtain ⟨ops, hb⟩ := hnote _ rfl
  have happly : (translated s tlb).applyAll (.store (scrKey core off) bs :: noteLandings (translated s tlb) (scrKey core off) bs.length) =
    { c with part := { c.part with ops := ops } } := (applyAll_cons _ _ _).trans hb
  refine ⟨?_, ?_, fun d hm _ => stored_scr hset.safe.mem ?_⟩
  · rw [happly]; exact ⟨rfl, rfl, rfl, rfl⟩
  · rw [happly]; exact ⟨rfl, SameGroups.refl _, rfl, rfl, rfl⟩
  · rw [hm, happly]; rfl

theorem performs_page {s : State} (hset : Settled s) (tlb : List TlbEntry) {p : Page} {bs : List Byte} {us : List Upd}
    (h : Writes (translated s tlb) p.pa bs us) : Performs s (translated s tlb) (.page p) bs us := by
  have hhomes := homes_translated hset.homes tlb
  have hrw := Rewrites.after hhomes (h.rewrites hhomes.homes)
  exact ⟨h.same.quiet, h.same.sameMatches, fun d hm hl => (hrw.of_lines hm hl).stored⟩

/-- A write at a place to which it need not wait. -/
theorem writePlace_performs {s : State} {t : TId} {pl : Place} {cp : Nat} {bs : List Byte} (hset : Settled s) (hw : Writable s t pl cp)
    (hin : ∀ p, pl = .page p → p.pa % 16 + bs.length ≤ 16) (tlb : List TlbEntry) :
    ∃ us, writePlace (translated s tlb) (agentOf s t) pl bs cp = .ok us ∧ Performs s (translated s tlb) pl bs us := by
  cases pl with
  | scr core off => exact ⟨_, rfl, performs_scr hset tlb core off bs⟩
  | tib off => exact hw.elim
  | page p =>
    obtain ⟨hsys, hadmits⟩ := hw
    obtain ⟨us, hok, hwrites⟩ := writePlace_writes (s := translated s tlb) (a := agentOf s t) hsys
      (fun hp => by rw [agentOf_ctx]; exact admits_translated (hadmits hp) tlb) (hin p rfl)
    exact ⟨us, hok, performs_page hset tlb hwrites⟩

/-! ## A store that is combined -/

/-- A buffer opens: where eight are open, one drains before. -/
theorem run_openBuffer (c : State) (t : TId) (pa : Nat) (bs : List Byte) (line : Nat) (acc : BitVec 64 × Nat × Nat) : ∃ us ev,
    (combine.openBuffer t pa bs line acc).run c =
      (((Upd.thread t fun x => { x with wcBuf := some ⟨line, cells pa bs, c.time, [acc]⟩ }).apply (c.applyAll us)).applyAll ev) ∧
    (us = [] ∨ ∃ u, us = drainBuffer c u) ∧ (∀ u ∈ ev, u = .event (.wcDrainTimeout t)) ∧
    ((c.threads.filter fun y => y.wcBuf.isSome && (agentOf c y.id).issuer == (agentOf c t).issuer).length < 8 → us = []) := by
  simp only [combine.openBuffer, run_act]
  rw [applyAll_append, applyAll_cons]
  refine ⟨_, _, rfl, ?_, ?_, fun h => if_pos h⟩
  · split
    · exact .inl rfl
    · split
      next y _ => exact .inr ⟨y.id, rfl⟩
      next => exact .inl rfl
  · split
    · exact List.forall_mem_nil _
    · exact List.forall_mem_singleton.mpr rfl

section
variable {s : State} {t : TId} {va : BitVec 64} {bs : List Byte} {wc : BitVec 3}

/-- A store that enters a buffer that it opens. -/
theorem combined_issued {c : State} (hr : Ready s c t wc) (hbuf : (c.th t).wcBuf = none) (pl : Place) (pa len : Nat) (line : Option Nat) (core : Nat)
    (job : Job) (a : Agent) :
    let b := (Eff.seq (combine c t pa bs va) (.seq (.act fun s' => orderAfterWrite s' a pa)
      (endAccess t pl len s.nextId wc none line core job .accessAck))).run c
    Issued s b t wc none .accessAck len ∧ (b.th t).wcBuf = some ⟨pa / 128, cells pa bs, c.time, [(va, bs.length, leNat bs)]⟩ ∧
      ((c.threads.filter fun y => y.wcBuf.isSome && (agentOf c y.id).issuer == (agentOf c t).issuer).length < 8 → b.mem = c.mem) := by
  have hopen : combine c t pa bs va = combine.openBuffer t pa bs (pa / 128) (va, bs.length, leNat bs) := by simp only [combine, hbuf]
  obtain ⟨us, ev, hrun, hus, hev, hfew⟩ := run_openBuffer c t pa bs (pa / 128) (va, bs.length, leNat bs)
  simp only [run_seq, hopen, hrun, run_act]
  have hdrain : Ready s (c.applyAll us) t wc := by
    rcases hus with rfl | ⟨u, rfl⟩
    · exact hr
    · exact hr.drainedOther hbuf u
  obtain ⟨hready, hwc⟩ := hdrain.buffer (some ⟨pa / 128, cells pa bs, c.time, [(va, bs.length, leNat bs)]⟩)
  have hmem : (c.threads.filter fun y => y.wcBuf.isSome && (agentOf c y.id).issuer == (agentOf c t).issuer).length < 8 →
      ((Upd.thread t fun x => { x with wcBuf := some ⟨pa / 128, cells pa bs, c.time, [(va, bs.length, leNat bs)]⟩ }).apply (c.applyAll us)).mem =
        c.mem := fun h => by rw [hfew h]; rfl
  generalize (Upd.thread t fun x => { x with wcBuf := some ⟨pa / 128, cells pa bs, c.time, [(va, bs.length, leNat bs)]⟩ }).apply (c.applyAll us) = d at *
  have hkept : ∀ u ∈ ev, QuietUpd u ∧ LinesKept u := fun u hu => by
    rw [hev u hu]
    exact ⟨fun _ => ⟨rfl, rfl, rfl, rfl⟩, fun _ => ⟨rfl, rfl⟩⟩
  have hq := Quiet.applyAll d fun u hu => (hkept u hu).1
  have hl := linesKept_applyAll d fun u hu => (hkept u hu).2
  generalize d.applyAll ev = e at *
  have hq' := hq.trans (.applyAll e fun u hu => (copyUpd_orderAfterWrite e a pa u hu).quiet)
  have hl' := linesKept_applyAll e fun u hu => (copyUpd_orderAfterWrite e a pa u hu).linesKept
  generalize e.applyAll (orderAfterWrite e a pa) = f at *
  obtain ⟨hissued, hm, _, hw⟩ := (hready.quiet hq').ends pl len line core job
  exact ⟨hissued, by rw [hw, th_of_threads hq'.threads, hwc], fun h => by rw [hm, hl'.1, hl.1, hmem h]⟩

end

end Sys2Proof.Machine
end

section
/-! O27: stores of a thread without a buffer, and releases of one whose buffer holds earlier stores. -/

open Sys2Proof Sys2Proof.Machine

namespace Sys2Proof.Machine

/-- How each form of a store is executed. -/
theorem storeForm_exec {i : Instr} {f : StoreForm} (hf : storeForm i = some f) (s : State) : exec i s =
    Machine.run (issueCounted i f.wc (pairOf f.a ++ loadRegs f.d f.n) fun tok t => .read fun s =>
      storeAt i (storeBytes (s.th t) f.d f.n) f.wc f.cp f.rel ((s.th t).val64 f.a + f.off.signExtend 64) tok t) s := by
  cases i <;> cases hf
  case st | stOffset => rfl
  case stl | stlScope =>
    have hoff : ∀ x : BitVec 64, x + (0#32).signExtend 64 = x := BitVec.add_zero
    simp only [hoff]
    rfl

theorem storeForm_size {i : Instr} {f : StoreForm} (hf : storeForm i = some f) : AccessSize f.n := by
  cases i <;> cases hf
  case st | stOffset => exact sizeOf_access _
  case stl | stlScope => exact wide_access _

theorem storeForm_ne_trace {i : Instr} {f : StoreForm} (hf : storeForm i = some f) : ∀ op, i ≠ .trace op := by
  rintro op rfl
  cases hf

theorem sameMatches_translated (s : State) (tlb : List TlbEntry) : SameMatches s (translated s tlb) :=
  ⟨rfl, SameGroups.refl _, rfl, rfl, rfl⟩

/-- A drained store that meets no match does nothing more. -/
theorem drainMatches_none {s : State} {t : TId} : ∀ {xs : List (BitVec 64 × Nat × Nat)},
    (∀ x ∈ xs, findMatch s t 1 x.1.toNat x.2.1 x.2.2 = none) → drainMatches t xs s = []
  | [], _ => rfl
  | (va, n, v) :: xs, h => by
    have hfirst : drainMatch t va n v s = [] := by
      unfold drainMatch
      rw [h (va, n, v) List.mem_cons_self]
    rw [drainMatches_cons, hfirst]
    exact drainMatches_none fun x hx => h x (List.mem_cons_of_mem _ hx)

/-- A drain whose stores meet no match leaves the matches that other accesses meet. -/
theorem drainBuffer_sameMatches {s : State} {t : TId} {b : WcBuffer} (h : (s.th t).wcBuf = some b)
    (hno : ∀ x ∈ b.accs, findMatch s t 1 x.1.toNat x.2.1 x.2.2 = none) : SameMatches s (s.applyAll (drainBuffer s t)) := by
  rw [drainBuffer_some h, drainMatches_none hno, List.append_nil, applyAll_append, applyAll_cons]
  have hhomes : SameButHomes s (s.applyAll ([beforeWrite b.line] ++ cleanLine s b.line (touched b.line b.bytes) ++ [.stores b.bytes])) :=
    .applyAll s <| List.forall_mem_append.mpr ⟨List.forall_mem_append.mpr
      ⟨List.forall_mem_singleton.mpr (homeUpd_beforeWrite _), homeUpd_cleanLine s _ _⟩, List.forall_mem_singleton.mpr (homeUpd_stores _)⟩
  generalize s.applyAll ([beforeWrite b.line] ++ cleanLine s b.line (touched b.line b.bytes) ++ [.stores b.bytes]) = c at hhomes ⊢
  have hthread : SameMatches c ((Upd.thread t fun x => { x with wcBuf := none }).apply c) := ⟨rfl, SameGroups.refl _, rfl, rfl, rfl⟩
  exact (hhomes.sameMatches.trans hthread).trans (SameButHomes.applyAll _ fun u hu a => (afterDrain_copies s t b u hu a).1).sameMatches

section
variable {i : Instr} {f : StoreForm} {pl : Place} {s : State} {t : TId} (hf : storeForm i = some f) (hs : Solo s t)
  (hc : Clear s t i (pairOf f.a ++ loadRegs f.d f.n) [])
include hf hs hc

/-- A store whose body issues. -/
theorem store_issues (hfull : (s.gr t.gid).counter f.wc ≠ 63#6) {b : State}
    (hb : (storeAt i (leBytes f.n (storeNum (s.th t) f.d f.n)) f.wc f.cp f.rel ((s.th t).val64 f.a + f.off.signExtend 64) s.nextId t).run
      (counted s) = b) (h : Issued s b t f.wc none .accessAck i.len) :
    ∃ s', exec i s = .next s' ∧ MovesOn s s' t i.len ∧ Counts s s' t f.wc none .accessAck ∧ (∀ r, (s'.th t).reg r = (s.th t).reg r) ∧
      s'.threads = b.threads ∧ s'.part.l2 = b.part.l2 ∧ (Unhosted s t → s'.mem = b.mem) := by
  obtain ⟨s', hrun, hrest⟩ := issueCounted_counts hs hc (storeForm_ne_trace hf) hfull (fun tok t => .read fun s =>
    storeAt i (storeBytes (s.th t) f.d f.n) f.wc f.cp f.rel ((s.th t).val64 f.a + f.off.signExtend 64) tok t) (b := b)
    (by rw [← hb, ← storeBytes_eq]; rfl) h
  exact ⟨s', by rw [storeForm_exec hf, run_next, hrun], hrest⟩

variable (hh : Unhosted s t)
  (hreach : Reaches s t .store f.wc ((s.th t).val64 f.a + f.off.signExtend 64) f.n pl)
  (hset : Settled s)
  (hno : findMatch s t 1 ((s.th t).val64 f.a + f.off.signExtend 64).toNat f.n (storeNum (s.th t) f.d f.n % 256 ^ f.n) = none)
include hh hreach hset hno

/-- A store of a thread without a buffer. -/
theorem store_unbuffered (hbuf : (s.th t).wcBuf = none) (hw : Writable s t pl f.cp) :
    ∃ s', exec i s = .next s' ∧ MovesOn s s' t i.len ∧ Counts s s' t f.wc none .accessAck ∧ (∀ r, (s'.th t).reg r = (s.th t).reg r) ∧
      (pl.combines = false → Stored s s' pl (leBytes f.n (storeNum (s.th t) f.d f.n))) ∧
      (∀ p, pl = .page p → p.mt = 1 →
        (s.threads.filter fun y => y.wcBuf.isSome && (agentOf s y.id).issuer == (agentOf s t).issuer).length < 8 →
        s'.mem = s.mem ∧ (s'.th t).wcBuf = some ⟨p.pa / 128, cells p.pa (leBytes f.n (storeNum (s.th t) f.d f.n)), s.time,
          [((s.th t).val64 f.a + f.off.signExtend 64, f.n, leNat (leBytes f.n (storeNum (s.th t) f.d f.n)))]⟩) := by
  have hissues := fun {b} => store_issues (b := b) hf hs hc hreach.counter
  generalize hva : (s.th t).val64 f.a + f.off.signExtend 64 = va at *
  have hlen : (leBytes f.n (storeNum (s.th t) f.d f.n)).length = f.n := leBytes_length _ _
  rw [← leNat_leBytes] at hno
  generalize leBytes f.n (storeNum (s.th t) f.d f.n) = bs at *
  rw [← hlen] at hreach hno ⊢
  obtain ⟨tlb, hnow, hcomb⟩ := run_storeAt i f.cp f.rel hreach s.nextId
  rw [run_beforeStore_none (s := translated s tlb) f.rel pl hbuf] at hnow hcomb
  have hready := ready_translated hs tlb f.wc
  cases hkind : pl.combines with
  | false =>
    have hin : ∀ p, pl = .page p → p.pa % 16 + bs.length ≤ 16 := by
      rintro p rfl
      obtain ⟨l, pte, rfl⟩ := translate_pageAt hreach.place
      exact within_sector (hlen ▸ storeForm_size hf) hreach.aligned (pageAt_mod _ _ _)
    obtain ⟨us, hok, hperforms⟩ := writePlace_performs hset hw hin tlb
    obtain ⟨hissued, hm, hl, _⟩ := storeNow_issued hready hok hperforms.quiet ((sameMatches_translated s tlb).trans hperforms.sameMatches) hh hno
      i.len (entryLine (translated s tlb) (agentOf s t) pl 1) (entryCore (agentOf s t)) (.access va i.major)
    obtain ⟨s', hexec, hmoves, hcounts, hregs, _, hl', hm'⟩ := hissues (hnow hkind) hissued
    refine ⟨s', hexec, hmoves, hcounts, hregs, fun _ => hperforms.stored s' ((hm' hh).trans hm) (hl'.trans hl), ?_⟩
    rintro p rfl hmt
    simp [Place.combines, hmt] at hkind
  | true =>
    cases pl with
    | scr core off => cases hkind
    | tib off => cases hkind
    | page p =>
      obtain ⟨hissued, hwc, hm⟩ := combined_issued (va := va) (bs := bs) hready hbuf (.page p) p.pa i.len
        (entryLine (translated s tlb) (agentOf s t) (.page p) 1) (entryCore (agentOf s t)) (.combined (p.pa / 128)) (agentOf s t)
      obtain ⟨s', hexec, hmoves, hcounts, hregs, hth, _, hm'⟩ := hissues (hcomb p rfl hkind) hissued
      refine ⟨s', hexec, hmoves, hcounts, hregs, nofun, ?_⟩
      intro q hq _ hfew
      cases hq
      exact ⟨(hm' hh).trans (hm hfew), by rw [th_of_threads hth, hwc]; rfl⟩

/-- A release of a thread whose buffer holds earlier stores (R166). -/
theorem store_buffered {b : WcBuffer} {p : Page} (hrel : f.rel = true) (hpl : pl = .page p) (hbuf : (s.th t).wcBuf = some b)
    (hline : ∀ c ∈ b.bytes, c.1 / 128 = b.line) (hmt : p.mt = 0) (hkind : p.kind = 0) (hsys : physRange p.pa ≠ .sys)
    (haccs : ∀ x ∈ b.accs, findMatch s t 1 x.1.toNat x.2.1 x.2.2 = none) :
    ∃ s', exec i s = .next s' ∧ MovesOn s s' t i.len ∧ (s'.th t).wcBuf = none ∧
      homeBytes s' p.pa f.n = leBytes f.n (storeNum (s.th t) f.d f.n) ∧
      ∀ a, a < p.pa ∨ p.pa + f.n ≤ a →
        homeByte s' a = if b.bytes.any (fun c => c.1 == a) then Memory.get (Memory.setAll s.mem b.bytes) a else homeByte s a := by
  subst hpl
  have hissues := fun {b} => store_issues (b := b) hf hs hc hreach.counter
  generalize hva : (s.th t).val64 f.a + f.off.signExtend 64 = va at *
  have hlen : (leBytes f.n (storeNum (s.th t) f.d f.n)).length = f.n := leBytes_length _ _
  rw [← leNat_leBytes] at hno
  generalize leBytes f.n (storeNum (s.th t) f.d f.n) = bs at *
  rw [← hlen] at hreach hno ⊢
  obtain ⟨tlb, hnow, _⟩ := run_storeAt i f.cp f.rel hreach s.nextId
  have hnow := hnow (by simp [Place.combines, hmt])
  have hdrain : (beforeStore f.rel t (.page p)).run (translated s tlb) = (translated s tlb).applyAll (drainBuffer (translated s tlb) t) := by
    rw [hrel]; rfl
  rw [hdrain] at hnow
  have htrans := sameMatches_translated s tlb
  have hsame := htrans.trans (drainBuffer_sameMatches (s := translated s tlb) hbuf fun x hx => (htrans.findMatch hh _ _ _ _).trans (haccs x hx))
  obtain ⟨hready, hnone⟩ := (ready_translated hs tlb f.wc).drained hbuf
  have hsettled := homes_translated hset.homes tlb
  obtain ⟨hhomes, hwritten⟩ := drainBuffer_written (s := translated s tlb) hbuf hh hsettled.homes hline
  generalize (translated s tlb).applyAll (drainBuffer (translated s tlb) t) = e at *
  obtain ⟨l, pte, hpage⟩ := translate_pageAt hreach.place
  have hin : p.pa % 16 + bs.length ≤ 16 := within_sector (hlen ▸ storeForm_size hf) hreach.aligned (by rw [hpage]; exact pageAt_mod _ _ _)
  obtain ⟨us, hok, hwrites⟩ := writePlace_writes (s := e) (a := agentOf s t) (cp := f.cp) hsys (fun _ => .inr (.inl hkind)) hin
  obtain ⟨hissued, hm, hl, hwc⟩ := storeNow_issued hready hok hwrites.same.quiet (hsame.trans hwrites.same.sameMatches) hh hno
    i.len (entryLine e (agentOf s t) (.page p) 1) (entryCore (agentOf s t)) (.access va i.major)
  obtain ⟨s', hexec, hmoves, _, _, hth, hl', hm'⟩ := hissues hnow hissued
  have hrw := (hwrites.rewrites hhomes).of_lines ((hm' hh).trans hm) (hl'.trans hl)
  refine ⟨s', hexec, hmoves, by rw [th_of_threads hth, hwc, hnone], hrw.read, fun a ha => ?_⟩
  rw [hrw.bytes, if_neg (by omega), hwritten a, hsettled.byte]
  rfl

end

/-- Settles O27: a store writes in a state that holds what the state before its issue held, a release after its thread's buffer has
drained; one that is combined opens a buffer. -/
theorem storeResults : Obligations.StoreResults := by
  refine ⟨fun i f pl s t hf hs hc hh hreach hbuf hset hw hno => ?_, fun i f b p s t hf hrel hs hc hh hreach hbuf hline hset hmt hkind hsys _ hno haccs => ?_⟩
  · exact store_unbuffered hf hs hc hh hreach hset hno hbuf hw
  · exact store_buffered hf hs hc hh hreach hset hno hrel rfl hbuf hline hmt hkind hsys haccs

end Sys2Proof.Machine
end

section
/-! SUPPORT. The request ring (R281): what the completion of an entry writes and leaves, and the requests that are served. -/

open Sys2Proof Sys2Proof.Machine

namespace Sys2Proof.Machine

/-! ## Bytes that have been stored -/

theorem bytes_eq_of_byte {s : State} : ∀ {bs : List Byte} {a : Nat}, (∀ k, a ≤ k ∧ k < a + bs.length → s.byte k = bs.getD (k - a) 0#8) →
    s.bytes a bs.length = bs
  | bs, a, h => by
    refine List.ext_getElem (bytes_length s _ _) fun i hi _ => ?_
    rw [bytes_length] at hi
    have hget := getD_bytes s bs.length a i hi
    rw [h (a + i) ⟨Nat.le_add_right a i, by omega⟩, Nat.add_sub_cancel_left] at hget
    simpa [List.getD_eq_getElem?_getD, hi] using hget

theorem bytes_store_self {s : State} (hw : Memory.wf s.mem = true) (a : Nat) (bs : List Byte) :
    ((Upd.store a bs).apply s).bytes a bs.length = bs :=
  bytes_eq_of_byte fun k hk => by rw [byte_store hw, if_pos hk]

theorem num_store_self {s : State} (hw : Memory.wf s.mem = true) (a n v : Nat) :
    ((Upd.store a (leBytes n v)).apply s).num a n = v % 256 ^ n := by
  have hbytes := bytes_store_self hw a (leBytes n v)
  rw [leBytes_length] at hbytes
  rw [State.num, hbytes, leNat_leBytes]

theorem num_congr {a b : State} {k n : Nat} (h : ∀ i < n, b.byte (k + i) = a.byte (k + i)) : b.num k n = a.num k n := by
  rw [State.num, State.num, bytes_congr n k h]

/-! ## Requests -/

/-- The ring stands where it stood. -/
def SameRing (s b : State) : Prop := b.part.ringbase = s.part.ringbase ∧ b.part.ringlen = s.part.ringlen

theorem SameRing.refl (s : State) : SameRing s s := ⟨rfl, rfl⟩
theorem SameRing.trans {a b c : State} (h : SameRing a b) (g : SameRing b c) : SameRing a c := ⟨g.1.trans h.1, g.2.trans h.2⟩

theorem SameRing.entryAt {s b : State} (h : SameRing s b) (e : Nat) : Machine.entryAt b e = Machine.entryAt s e := by
  rw [Machine.entryAt, Machine.entryAt, h.1]

/-- A request that is next is served. -/
theorem serve_run {i : Instr} {s : State} (h : nextRequest s = some i) (go : Eff) : serve i go s = .next (go.run s) := by
  simp [serve, Eff.when, h]

theorem withCtx_run {e : Nat} {s : State} {c : Ctx} (h : s.ctx? (entryCtx s e) = some c) (go : Ctx → Eff) :
    (withCtx e go).run s = (go c).run s := by
  simp only [withCtx, run_read, h]

theorem withCtx_none {e : Nat} {s : State} (h : s.ctx? (entryCtx s e) = none) (go : Ctx → Eff) :
    (withCtx e go).run s = (complete e 0x100 []).run s := by
  simp only [withCtx, run_read, h]

theorem answer_run (e : Nat) (f : State → Nat × List (Nat × Nat) × List Upd) (s : State) :
    (answer e f).run s = (complete e (f s).1 (f s).2.1).run (s.applyAll (f s).2.2) := rfl

theorem nextRequest_events (s : State) (evs : List Instr) : nextRequest { s with events := evs } = nextRequest s := by
  have hnum (a n : Nat) : hostNum { s with events := evs } a n = hostNum s a n := num_congr fun _ _ => rfl
  have hring : ringOn { s with events := evs } = ringOn s := by simp only [ringOn]
  have hop (e : Nat) : entryOp { s with events := evs } e = entryOp s e := hnum _ _
  have harg (e i : Nat) : entryArg { s with events := evs } e i = entryArg s e i := hnum _ _
  have hreq (e : Nat) : requestAt { s with events := evs } e = requestAt s e := by simp only [requestAt, hop, harg]
  simp only [nextRequest, hring, hreq]

/-- A request without a context that is next is answered. -/
theorem serve_answer {i : Instr} {s : State} (h : nextRequest s = some i) (e : Nat) (f : State → Nat × List (Nat × Nat) × List Upd) :
    serve i (answer e f) s = .next ((complete e (f s).1 (f s).2.1).run (s.applyAll (f s).2.2)) := by
  rw [serve_run h, answer_run]

/-- A request that reads the state first. -/
theorem serve_read {i : Instr} {s : State} (h : nextRequest s = some i) (f : State → Eff) : serve i (.read f) s = .next ((f s).run s) := by
  rw [serve_run h, run_read]

/-- A ring that is served lies in host memory. -/
theorem ringbase_le {i : Instr} {s : State} (h : nextRequest s = some i) : s.part.ringbase.toNat ≤ 2 ^ 46 := by
  have hon : ringOn s = true := by
    simp only [nextRequest] at h
    split at h
    · next hc => exact (Bool.and_eq_true _ _ ▸ hc).1
    · cases h
  simp only [ringOn, hostRange, Bool.and_eq_true, decide_eq_true_eq] at hon
  obtain ⟨⟨-, hrange⟩, -⟩ := hon
  omega

/-- The part owes the service of the entry that is next, and nothing else of it changes. -/
theorem oweRequest_owes (s : State) : ∃ evs, oweRequest.run s = { s with events := s.events ++ evs } ∧
    ∀ i, nextRequest { s with events := s.events ++ evs } = some i → i ∈ s.events ++ evs := by
  simp only [nextRequest_events]
  simp only [oweRequest, run_act]
  cases h : nextRequest s with
  | none => exact ⟨[], by simp, nofun⟩
  | some i =>
    dsimp only
    split
    · next hi =>
      refine ⟨[], by simp, fun j hj => ?_⟩
      obtain rfl := Option.some.inj hj
      simpa using hi
    · refine ⟨[i], rfl, fun j hj => ?_⟩
      obtain rfl := Option.some.inj hj
      simp

/-! ## The completion of an entry -/

/-- The stores of results and status into an entry. -/
def entryStores (s : State) (e st : Nat) (results : List (Nat × Nat)) : List Upd :=
  (results.map fun r => hostStore (entryAt s e + 8 + 8 * r.1) (leBytes 8 r.2)) ++ [hostStore (entryAt s e + 4) (leBytes 4 st)]

/-- What the completion of an entry does: its results and status stand in it, DONEIDX has passed it, events may be owed. -/
structure Completed (s s' : State) (e st : Nat) (results : List (Nat × Nat)) : Prop where
  mem : s'.mem = (s.applyAll (entryStores s e st results)).mem
  part : s'.part = { s.part with doneidx := BitVec.ofNat 32 ((e + 1) % s.part.ringlen.toNat) }
  teams : s'.teams = s.teams
  events : ∀ i ∈ s.events, i ∈ s'.events

theorem entryStores_mem (s : State) (e st : Nat) (results : List (Nat × Nat)) :
    s.applyAll (entryStores s e st results) = { s with mem := (s.applyAll (entryStores s e st results)).mem } :=
  updates_rel (fun a b => b = { a with mem := b.mem }) (fun _ => rfl) (fun a b c h g => by rw [g, h]) _ s fun u hu a => by
    rcases List.mem_append.mp hu with hu | hu
    · obtain ⟨r, _, rfl⟩ := List.mem_map.mp hu
      rfl
    · exact List.mem_singleton.mp hu ▸ rfl

theorem complete_completed (e st : Nat) (results : List (Nat × Nat)) (s : State) :
    Completed s ((complete e st results).run s) e st results := by
  have hstores := entryStores_mem s e st results
  simp only [complete, run_seq, run_act, applyAll_cons, applyAll_nil]
  rw [← entryStores]
  generalize hb : s.applyAll (entryStores s e st results) = b at hstores ⊢
  obtain ⟨evs, hrun, -⟩ := oweRequest_owes ((Upd.part fun p => { p with doneidx := BitVec.ofNat 32 ((e + 1) % b.part.ringlen.toNat) }).apply b)
  rw [hrun]
  have hmem : b.mem = (s.applyAll (entryStores s e st results)).mem := by rw [hb]
  have hpart : b.part = s.part := by rw [hstores]
  have hteams : b.teams = s.teams := by rw [hstores]
  have hevents : b.events = s.events := by rw [hstores]
  exact ⟨hmem, by rw [← hpart]; rfl, hteams, fun i hi => List.mem_append_left _ (hevents ▸ hi)⟩

section
variable {s b s' : State} {e st : Nat}

theorem Completed.answered {results : List (Nat × Nat)} (h : Completed b s' e st results) (hw : Memory.wf b.mem = true) (hr : SameRing s b)
    (hst : st < 2 ^ 32) : Answered s s' e st := by
  have hplace : hostBase + (entryAt b e + 4) = hostBase + (entryAt s e + 4) := by rw [hr.entryAt]
  refine ⟨?_, by rw [h.part, hr.2]⟩
  have hmem := h.mem
  rw [entryStores, applyAll_append] at hmem
  rw [hostNum, ← hplace]
  calc s'.num (hostBase + (entryAt b e + 4)) 4 = _ := num_congr fun i _ => congrArg (fun m => Memory.get m _) hmem
    _ = st % 256 ^ 4 := num_store_self (applyAll_mem_wf _ b hw) _ 4 st
    _ = st := Nat.mod_eq_of_lt hst

theorem Completed.given {k v : Nat} (h : Completed b s' e st [(k, v)]) (hw : Memory.wf b.mem = true) (hr : SameRing s b)
    (hv : v < 2 ^ 64) : Given s s' e k v := by
  have hplace : hostBase + (entryAt b e + 8 + 8 * k) = hostBase + (entryAt s e + 8 + 8 * k) := by rw [hr.entryAt]
  have hkept : ∀ i < 8, s'.byte (hostBase + (entryAt b e + 8 + 8 * k) + i) =
      ((hostStore (entryAt b e + 8 + 8 * k) (leBytes 8 v)).apply b).byte (hostBase + (entryAt b e + 8 + 8 * k) + i) := fun i hi => by
    rw [State.byte, h.mem]
    exact byte_apply_store _ _ _ _ (by rw [leBytes_length]; omega)
  rw [Given, hostNum, ← hplace]
  calc s'.num (hostBase + (entryAt b e + 8 + 8 * k)) 8 = _ := num_congr hkept
    _ = v % 256 ^ 8 := num_store_self hw _ 8 v
    _ = v := Nat.mod_eq_of_lt hv

/-- Without results, the status alone is written. -/
theorem Completed.byte (h : Completed b s' e st []) {a : Nat} (ha : a < hostBase + entryAt b e + 4 ∨ hostBase + entryAt b e + 8 ≤ a) :
    s'.byte a = b.byte a := by
  rw [State.byte, h.mem]
  exact byte_apply_store b _ _ a (by rw [leBytes_length]; omega)

/-- A byte outside host memory is left. -/
theorem Completed.low (h : Completed b s' e st []) {a : Nat} (ha : a < 0x400000000000) : s'.byte a = b.byte a :=
  h.byte (.inl (by rw [hostBase]; omega))

theorem Completed.field {results : List (Nat × Nat)} (h : Completed b s' e st results) {α : Type} (f : Part → α)
    (hf : ∀ p x, f { p with doneidx := x } = f p) : f s'.part = f b.part := by rw [h.part, hf]

theorem Completed.ctxs {results : List (Nat × Nat)} (h : Completed b s' e st results) : s'.part.ctxs = b.part.ctxs :=
  h.field Part.ctxs fun _ _ => rfl

theorem Completed.ctx? {results : List (Nat × Nat)} (h : Completed b s' e st results) (n : Nat) : s'.ctx? n = b.ctx? n := by
  rw [State.ctx?, State.ctx?, h.ctxs]

/-- An entry that is completed at once. -/
theorem complete_answers (hs : Safe s) (hst : st < 2 ^ 32) : Answered s ((complete e st []).run s) e st :=
  (complete_completed e st [] s).answered hs.mem (.refl s) hst

end

/-! ## HOST_DOORBELL -/

/-- The bytes that the host writes, as keys. -/
def hostCells (ws : List (Nat × Byte)) : List (Nat × Byte) := ws.filterMap fun w => if w.1 < 2 ^ 46 then some (hostBase + w.1, w.2) else none

/-- Of writes to different keys each is read back. -/
theorem Memory.get_setAll_of_mem : ∀ {ws : List (Nat × Byte)} {m : List Host.Cell}, Memory.wf m = true → (ws.map Prod.fst).Nodup →
    ∀ {w}, w ∈ ws → Memory.get (Memory.setAll m ws) w.1 = w.2
  | x :: ws, m, hm, hn, w, hw => by
    rw [List.map_cons, List.nodup_cons] at hn
    obtain ⟨hx, hn⟩ := hn
    rw [Memory.setAll]
    rcases List.mem_cons.mp hw with rfl | hw
    · rw [Memory.get_setAll_of_notMem ws _ _ fun y hy heq => hx (List.mem_map.mpr ⟨y, hy, heq⟩)]
      exact Memory.get_set_self _ _ hm
    · exact Memory.get_setAll_of_mem (Memory.wf_set _ _ hm) hn hw

theorem hostCells_keys : ∀ (ws : List (Nat × Byte)),
    (hostCells ws).map Prod.fst = ((ws.map Prod.fst).filter fun a => decide (a < 2 ^ 46)).map (hostBase + ·)
  | [] => rfl
  | w :: ws => by
    have ih := hostCells_keys ws
    rw [hostCells] at ih ⊢
    rw [List.filterMap_cons, List.map_cons, List.filter_cons]
    by_cases h : w.1 < 2 ^ 46
    · simp only [if_pos h, decide_eq_true h, List.map_cons, ih]
      rfl
    · simp only [if_neg h, decide_eq_false h, ih]
      rfl

/-- The state after the host's writes of its memory, the ring and the doorbell. -/
def rung (base : BitVec 64) (len v : Word) (ws : List (Nat × Byte)) (s : State) : State :=
  { s with
    mem := Memory.setAll s.mem (hostCells ws)
    part := { s.part with
      ringbase := base
      ringlen := len
      doorbell := v
      doneidx := if s.part.ringbase = base ∧ s.part.ringlen = len then s.part.doneidx else 0#32
      reports := if s.part.reports.contains .doorbell then s.part.reports else s.part.reports ++ [.doorbell] } }

theorem exec_hostDoorbell (base : BitVec 64) (len v : Word) (ws : List (Nat × Byte)) (s : State) :
    exec (.hostDoorbell base len v ws) s = .next (oweRequest.run (rung base len v ws s)) := by
  have hlo (x : Word) : lo32 (x.setWidth 64) = x := by simp [lo32]
  have hexec : exec (.hostDoorbell base len v ws) s = execHostDoorbell base len v ws s := rfl
  rw [hexec]
  simp only [execHostDoorbell, Machine.run, run_seq, run_act, applyAll_cons, applyAll_nil, bar0Write, hlo, Upd.report, Upd.apply]
  rfl

/-- R281: a doorbell. -/
theorem hostDoorbell_shows (base : BitVec 64) (len v : Word) (ws : List (Nat × Byte)) {s : State} (hs : Safe s)
    (hn : (ws.map Prod.fst).Nodup) :
    ∃ s', exec (.hostDoorbell base len v ws) s = .next s' ∧ s'.part.ringbase = base ∧ s'.part.ringlen = len ∧ s'.part.doorbell = v ∧
      (s.part.ringbase = base → s.part.ringlen = len → s'.part.doneidx = s.part.doneidx) ∧
      (∀ w ∈ ws, w.1 < 2 ^ 46 → s'.byte (0x400000000000 + w.1) = w.2) ∧
      (∀ i, nextRequest s' = some i → i ∈ s'.events) ∧ Report.doorbell ∈ s'.part.reports := by
  have hkeys : ((hostCells ws).map Prod.fst).Nodup := by
    rw [hostCells_keys]
    exact (hn.filter _).map fun _ _ h => Nat.add_left_cancel h
  obtain ⟨evs, hrun, howes⟩ := oweRequest_owes (rung base len v ws s)
  refine ⟨_, exec_hostDoorbell base len v ws s, ?_⟩
  rw [hrun]
  have hdone : (rung base len v ws s).part.doneidx =
      if s.part.ringbase = base ∧ s.part.ringlen = len then s.part.doneidx else 0#32 := rfl
  refine ⟨rfl, rfl, rfl, fun h1 h2 => hdone.trans (if_pos ⟨h1, h2⟩), fun w hw hlow => ?_, howes, mem_reports_report s .doorbell⟩
  have hcell : (hostBase + w.1, w.2) ∈ hostCells ws := List.mem_filterMap.mpr ⟨w, hw, if_pos hlow⟩
  exact Memory.get_setAll_of_mem (m := s.mem) hs.mem hkeys hcell

end Sys2Proof.Machine
end

section
/-! Requests that need no context (R282, R296, R298, R303): CTXNEW, ATTEST, the loader image of recovery, and service of cells and
positions. -/

open Sys2Proof Sys2Proof.Machine

namespace Sys2Proof.Machine

section
variable {s : State} {e : Nat}

/-! ## Requests that are answered at once -/

theorem serviceReserved_shows (hs : Safe s) (hn : nextRequest s = some (.serviceReserved e)) :
    ∃ s', exec (.serviceReserved e) s = .next s' ∧ Answered s s' e 0x100 :=
  ⟨_, serve_run hn _, complete_answers hs (by decide)⟩

theorem reservedRequest_shows (hs : Safe s) (hn : nextRequest s = some (.reservedRequest e)) :
    ∃ s', exec (.reservedRequest e) s = .next s' ∧ Answered s s' e 0xFFFFFFFF :=
  ⟨_, serve_run hn _, complete_answers hs (by decide)⟩

/-- An entry that is completed after updates that leave the ring. -/
theorem complete_after {us : List Upd} {st : Nat} (hs : Safe s) (hr : SameRing s (s.applyAll us)) (hst : st < 2 ^ 32) :
    Answered s ((complete e st []).run (s.applyAll us)) e st :=
  (complete_completed e st [] _).answered (applyAll_mem_wf us s hs.mem) hr hst

/-! ## CTXNEW -/

/-- R282: a context is made where a number and a frame are free. -/
theorem ctxNew_made {n f : Nat} (hgen : 1 ≤ entryArg s e 0 ∧ entryArg s e 0 ≤ 3) {mask : BitVec 192}
    (hmask : mask = BitVec.ofNat 192 (entryArg s e 3 + 2 ^ 64 * entryArg s e 4 + 2 ^ 128 * entryArg s e 5))
    (hcells : mask ≠ 0#192 ∧ mask &&& ~~~s.part.cellPresent = 0#192) (hctx : freeCtx s = some n) (hframe : freeFrame s = some f) :
    ctxNew e s = (0, [(0, n)], giveFrame s n f ++ [.part fun p =>
      { p with ctxs := p.ctxs ++ [newCtx n (entryArg s e 0) (entryArg s e 1 % 2 == 1) (entryArg s e 2) mask (f * 65536)] }]) := by
  simp only [ctxNew, ← hmask, hctx, hframe]
  rw [if_neg]
  rintro (h | h | h | h)
  · omega
  · omega
  · exact hcells.1 h
  · exact h hcells.2

theorem ctxNew_full (hgen : 1 ≤ entryArg s e 0 ∧ entryArg s e 0 ≤ 3) {mask : BitVec 192}
    (hmask : mask = BitVec.ofNat 192 (entryArg s e 3 + 2 ^ 64 * entryArg s e 4 + 2 ^ 128 * entryArg s e 5))
    (hcells : mask ≠ 0#192 ∧ mask &&& ~~~s.part.cellPresent = 0#192) (hfull : freeCtx s = none ∨ freeFrame s = none) :
    ctxNew e s = (0x101, [], []) := by
  simp only [ctxNew, ← hmask]
  rw [if_neg]
  · rcases hfull with h | h
    · rw [h]
    · rw [h]
      cases freeCtx s <;> rfl
  · rintro (h | h | h | h)
    · omega
    · omega
    · exact hcells.1 h
    · exact h hcells.2

/-- A free context number names no context. -/
theorem freeCtx_new {n : Nat} (h : freeCtx s = some n) : n < 8300 ∧ ∀ c ∈ s.part.ctxs, c.num ≠ n := by
  simp only [freeCtx] at h
  split at h
  · cases h
  · refine ⟨List.mem_range.mp (List.mem_of_find?_eq_some h), fun c hc heq => ?_⟩
    have hfree := List.find?_some h
    simp only [Bool.and_eq_true, Bool.not_eq_true', List.any_eq_false, Bool.or_eq_true, beq_iff_eq, not_or] at hfree
    exact (hfree.2 c hc).1 heq

theorem ctxnew_shows (hs : Safe s) (hn : nextRequest s = some (.ctxnew e)) :
    let gen := entryArg s e 0
    let mask := BitVec.ofNat 192 (entryArg s e 3 + 2 ^ 64 * entryArg s e 4 + 2 ^ 128 * entryArg s e 5)
    ∃ s', exec (.ctxnew e) s = .next s' ∧
      ((gen = 0 ∨ 3 < gen ∨ mask = 0#192 ∨ mask &&& ~~~s.part.cellPresent ≠ 0#192) → Answered s s' e 0x100 ∧ s'.part.ctxs = s.part.ctxs) ∧
      (1 ≤ gen → gen ≤ 3 → mask ≠ 0#192 → mask &&& ~~~s.part.cellPresent = 0#192 →
        (freeCtx s = none ∨ freeFrame s = none → Answered s s' e 0x101 ∧ s'.part.ctxs = s.part.ctxs) ∧
        (∀ n f, freeCtx s = some n → freeFrame s = some f → Answered s s' e 0 ∧ Given s s' e 0 n ∧
          s'.ctx? n = some (newCtx n gen (entryArg s e 1 % 2 == 1) (entryArg s e 2) mask (f * 65536)) ∧
          (n, f) ∈ s'.part.frames)) := by
  intro gen mask
  have hrun : exec (.ctxnew e) s = .next ((complete e (ctxNew e s).1 (ctxNew e s).2.1).run (s.applyAll (ctxNew e s).2.2)) :=
    serve_answer hn e (ctxNew e)
  refine ⟨_, hrun, fun hbad => ?_, fun h1 h3 hm hp => ⟨fun hfull => ?_, fun n f hctx hframe => ?_⟩⟩
  · have hrefused : ctxNew e s = (0x100, [], []) := by
      simp only [ctxNew]
      rw [if_pos hbad]
    simp only [hrefused, applyAll_nil]
    exact ⟨complete_answers hs (by decide), (complete_completed e 0x100 [] s).ctxs⟩
  · simp only [ctxNew_full ⟨h1, h3⟩ rfl ⟨hm, hp⟩ hfull, applyAll_nil]
    exact ⟨complete_answers hs (by decide), (complete_completed e 0x101 [] s).ctxs⟩
  · rw [ctxNew_made ⟨h1, h3⟩ rfl ⟨hm, hp⟩ hctx hframe]
    dsimp only
    have hmem := applyAll_mem_wf (giveFrame s n f ++ [.part fun p =>
      { p with ctxs := p.ctxs ++ [newCtx n gen (entryArg s e 1 % 2 == 1) (entryArg s e 2) mask (f * 65536)] }]) s hs.mem
    have hpart : ∀ b, s.applyAll (giveFrame s n f ++ [.part fun p =>
        { p with ctxs := p.ctxs ++ [newCtx n gen (entryArg s e 1 % 2 == 1) (entryArg s e 2) mask (f * 65536)] }]) = b →
        SameRing s b ∧ b.part.ctxs = s.part.ctxs ++ [newCtx n gen (entryArg s e 1 % 2 == 1) (entryArg s e 2) mask (f * 65536)] ∧
          (n, f) ∈ b.part.frames := by
      rintro b rfl
      exact ⟨⟨rfl, rfl⟩, rfl, List.mem_cons_self⟩
    generalize s.applyAll (giveFrame s n f ++ _) = b at hmem hpart ⊢
    obtain ⟨hring, hctxs, hframes⟩ := hpart b rfl
    obtain ⟨hlt, hnew⟩ := freeCtx_new hctx
    have hdone := complete_completed e 0 [(0, n)] b
    refine ⟨hdone.answered hmem hring (by decide), hdone.given hmem hring (by omega), ?_, by rwa [hdone.field Part.frames fun _ _ => rfl]⟩
    rw [hdone.ctx?, State.ctx?, hctxs, List.find?_append, List.find?_eq_none.mpr fun c hc => by simpa using hnew c hc]
    simp [newCtx]

/-! ## ATTEST -/

theorem attestBytes_length (s : State) (nonce : List Byte) : (attestBytes s nonce).length = nonce.length + 80 := by
  simp only [attestBytes, List.length_append, leBytes_length]

/-- The first bytes of a store. -/
theorem bytes_store_prefix {b : State} (hw : Memory.wf b.mem = true) (a : Nat) (xs ys : List Byte) :
    ((Upd.store a (xs ++ ys)).apply b).bytes a xs.length = xs :=
  bytes_eq_of_byte fun k hk => by
    rw [byte_store hw, if_pos (by rw [List.length_append]; omega), List.getD_append _ _ _ _ (by omega)]

theorem attest_shows (hs : Safe s) (hn : nextRequest s = some (.attest e)) : ∃ s', exec (.attest e) s = .next s' ∧
    (2 ^ 46 < entryArg s e 0 + 32 ∨ 2 ^ 46 < entryArg s e 1 + 228 → Answered s s' e 0x100) ∧
    (entryArg s e 0 + 32 ≤ 2 ^ 46 → entryArg s e 1 + 228 ≤ 2 ^ 46 → Answered s s' e 0 ∧
      (entryArg s e 1 + 228 ≤ entryAt s e ∨ entryAt s e + 64 ≤ entryArg s e 1 →
        hostBytes s' (entryArg s e 1) 112 = attestBytes s (hostBytes s (entryArg s e 0) 32))) := by
  have hrun : exec (.attest e) s = .next ((complete e (attestRecord e s).1 (attestRecord e s).2.1).run
    (s.applyAll (attestRecord e s).2.2)) := serve_answer hn e (attestRecord e)
  refine ⟨_, hrun, fun hbad => ?_, fun h0 h1 => ?_⟩
  · have hrefused : attestRecord e s = (0x100, [], []) := by
      rw [attestRecord, if_pos]
      simp only [hostRange, Bool.or_eq_true, Bool.not_eq_true', decide_eq_false_iff_not]
      omega
    simp only [hrefused, applyAll_nil]
    exact complete_answers hs (by decide)
  · obtain ⟨tail, hrecord⟩ : ∃ tail, attestRecord e s =
        (0, [], [hostStore (entryArg s e 1) (attestBytes s (hostBytes s (entryArg s e 0) 32) ++ tail)]) := by
      rw [attestRecord, if_neg]
      · exact ⟨_, by rw [← List.append_assoc]⟩
      · simp only [hostRange, Bool.or_eq_true, Bool.not_eq_true', decide_eq_false_iff_not]
        omega
    rw [hrecord]
    dsimp only
    have hlen : (attestBytes s (hostBytes s (entryArg s e 0) 32)).length = 112 := by
      rw [attestBytes_length, hostBytes, bytes_length]
    have hstored := bytes_store_prefix hs.mem (hostBase + entryArg s e 1) (attestBytes s (hostBytes s (entryArg s e 0) 32)) tail
    rw [hlen] at hstored
    have hring : SameRing s ((hostStore (entryArg s e 1) (attestBytes s (hostBytes s (entryArg s e 0) 32) ++ tail)).apply s) := .refl s
    refine ⟨complete_after hs hring (by decide), fun hout => ?_⟩
    have hdone := complete_completed e 0 [] (s.applyAll [hostStore (entryArg s e 1) (attestBytes s (hostBytes s (entryArg s e 0) 32) ++ tail)])
    have hat : entryAt (s.applyAll [hostStore (entryArg s e 1) (attestBytes s (hostBytes s (entryArg s e 0) 32) ++ tail)]) e = entryAt s e :=
      hring.entryAt e
    refine (bytes_congr 112 _ fun i hi => hdone.byte ?_).trans hstored
    rw [hat]
    omega

/-! ## Recovery -/

/-- Images that are verified and run change no byte and not the ring's progress, and leave the part up, or in recovery. -/
theorem bootAll_ends : ∀ (ks : List Nat) (b : State), ((bootAll ks).run b).mem = b.mem ∧
    ((bootAll ks).run b).part.doneidx = b.part.doneidx ∧
    (((bootAll ks).run b).part.bootst = 3#8 ∨ ((bootAll ks).run b).part.bootst = 0x80#8)
  | [], _ => ⟨rfl, rfl, .inl rfl⟩
  | k :: ks, b => by
    rw [bootAll, run_read]
    split
    · exact ⟨rfl, rfl, .inr rfl⟩
    · next img _ =>
      rw [run_seq]
      obtain ⟨hm, hd, hb⟩ := bootAll_ends ks ((Eff.upds (if 2 ≤ k then runSequencer (k - 2) img
        else [measure img, setBootst (BitVec.ofNat 8 (k + 1))])).run b)
      refine ⟨hm.trans ?_, hd.trans ?_, hb⟩
      · split <;> rfl
      · split <;> rfl

theorem Answered.of_same {b s' : State} {st : Nat} (h : Answered s b e st) (hm : s'.mem = b.mem) (hd : s'.part.doneidx = b.part.doneidx) :
    Answered s s' e st :=
  ⟨(num_congr fun i _ => by rw [State.byte, State.byte, hm]).trans h.1, hd.trans h.2⟩

theorem recover_shows {img : List Byte} (hs : Safe s) (hring : s.part.ringbase.toNat + 64 * e < 2 ^ 58) :
    Answered s ((recover e img).run s) e 0 ∧ ((recover e img).run s).bytes (flashKey (bootPlace 0 1)) img.length = img ∧
      (((recover e img).run s).part.bootst = 3#8 ∨ ((recover e img).run s).part.bootst = 0x80#8) := by
  simp only [recover, run_seq, run_upds, run_read]
  generalize hb : s.applyAll [.store (flashKey (bootPlace 0 0)) img, .store (flashKey (bootPlace 0 1)) img] = b
  have hwf : Memory.wf b.mem = true := hb ▸ applyAll_mem_wf _ s hs.mem
  have hsame : SameRing s b := by rw [← hb]; exact .refl s
  have hflash : b.bytes (flashKey (bootPlace 0 1)) img.length = img := by
    rw [← hb]
    exact bytes_store_self (apply_mem_wf s _ hs.mem) _ img
  have hdone := complete_completed e 0 [] b
  have hanswer := hdone.answered hwf hsame (by decide)
  generalize (complete e 0 []).run b = c at hdone hanswer
  have hmem : (c.applyAll [measure img, setBootst 1#8]).mem = c.mem := rfl
  have hindex : (c.applyAll [measure img, setBootst 1#8]).part.doneidx = c.part.doneidx := rfl
  generalize c.applyAll [measure img, setBootst 1#8] = d at hmem hindex
  obtain ⟨hm, hd, hboot⟩ := bootAll_ends (1 :: sequencers d) d
  refine ⟨hanswer.of_same (hm.trans hmem) (hd.trans hindex), ?_, hboot⟩
  refine (bytes_congr _ _ fun i _ => ?_).trans hflash
  rw [State.byte, hm.trans hmem]
  refine hdone.byte (.inr ?_)
  rw [hsame.entryAt, entryAt, hostBase, flashKey]
  omega

/-- The entry that is served next is the one that DONEIDX names. -/
theorem nextRequest_index {i : Instr} (h : nextRequest s = some i) : requestAt s s.part.doneidx.toNat = i := by
  simp only [nextRequest] at h
  split at h
  · exact Option.some.inj h
  · cases h

theorem recoveryLoad_index (h : nextRequest s = some (.recoveryLoad e)) : e < 2 ^ 32 := by
  have hreq := nextRequest_index h
  simp only [requestAt] at hreq
  have hidx : s.part.doneidx.toNat = e := by
    split at hreq
    · split at hreq
      · exact Instr.recoveryLoad.inj hreq
      · simp only [reduceCtorEq] at hreq
    · repeat' split at hreq
      all_goals simp only [reduceCtorEq] at hreq
  exact hidx ▸ s.part.doneidx.isLt

theorem recoveryLoad_shows (hs : Safe s) (hn : nextRequest s = some (.recoveryLoad e)) :
    let n := entryArg s e 1
    let img := hostBytes s (entryArg s e 0) n
    ∃ s', exec (.recoveryLoad e) s = .next s' ∧
      (n < 178 ∨ 2 ^ 24 < n ∨ 2 ^ 46 < entryArg s e 0 + n → Answered s s' e 0x100) ∧
      (178 ≤ n → n ≤ 2 ^ 24 → entryArg s e 0 + n ≤ 2 ^ 46 →
        (imageOk img = false → Answered s s' e 0x102 ∧ s'.part.bootst = s.part.bootst) ∧
        (imageOk img = true → Answered s s' e 0 ∧ s'.bytes (flashKey (bootPlace 0 1)) n = img ∧
          (s'.part.bootst = 3#8 ∨ s'.part.bootst = 0x80#8))) := by
  intro n img
  have hrange : (!hostRange (entryArg s e 0) n) = true ↔ 2 ^ 46 < entryArg s e 0 + n := by
    simp only [hostRange, Bool.not_eq_true', decide_eq_false_iff_not]
    omega
  have hrun : exec (.recoveryLoad e) s = .next ((if n < 178 ∨ 2 ^ 24 < n ∨ !hostRange (entryArg s e 0) n then complete e 0x100 []
    else if imageOk img then recover e img else complete e 0x102 []).run s) := serve_read hn _
  refine ⟨_, hrun, fun hbad => ?_, fun h1 h2 h3 => ?_⟩
  · rw [if_pos (by rw [hrange]; exact hbad)]
    exact complete_answers hs (by decide)
  · rw [if_neg (by rw [hrange]; omega)]
    refine ⟨fun hno => ?_, fun hok => ?_⟩
    · simp only [hno, Bool.false_eq_true, if_false]
      exact ⟨complete_answers hs (by decide), (complete_completed e 0x102 [] s).field Part.bootst fun _ _ => rfl⟩
    · rw [if_pos hok]
      have hlow := ringbase_le hn
      have hidx := recoveryLoad_index hn
      obtain ⟨ha, hb, hc⟩ := recover_shows (s := s) (e := e) (img := img) hs (by omega)
      have hlen : img.length = n := bytes_length s n _
      exact ⟨ha, hlen ▸ hb, hc⟩

end

end Sys2Proof.Machine
end

section
/-! What requests stand on: the ring, the contexts, the launches by name, the cells in use and the retired lanes. The work that a request
does on teams, commands and memory (R240, R282, R303) leaves all of it. -/

open Sys2Proof Sys2Proof.Machine

namespace Sys2Proof.Machine

/-- The ring, the contexts, the cells out of use, the launches with their contexts, and the retired lanes. -/
def State.ground (s : State) : BitVec 64 × Word × List Ctx × BitVec 192 × List (Nat × Nat) × Vector (Vector (List Nat) 6) 4 :=
  (s.part.ringbase, s.part.ringlen, s.part.ctxs, s.part.cellOff, s.part.launches.map fun l => (l.key, l.ctx),
    s.part.dies.map fun d => d.links.map Link.lanesOff)

theorem ground_ctxs {a b : State} (h : b.ground = a.ground) : b.part.ctxs = a.part.ctxs := congrArg (fun g => g.2.2.1) h
theorem ground_cellOff {a b : State} (h : b.ground = a.ground) : b.part.cellOff = a.part.cellOff := congrArg (fun g => g.2.2.2.1) h
theorem ground_launches {a b : State} (h : b.ground = a.ground) :
    (b.part.launches.map fun l => (l.key, l.ctx)) = a.part.launches.map fun l => (l.key, l.ctx) := congrArg (fun g => g.2.2.2.2.1) h
theorem ground_ring {a b : State} (h : b.ground = a.ground) : SameRing a b := ⟨congrArg (fun g => g.1) h, congrArg (fun g => g.2.1) h⟩
theorem ground_ctx? {a b : State} (h : b.ground = a.ground) (n : Nat) : b.ctx? n = a.ctx? n := by
  rw [State.ctx?, State.ctx?, ground_ctxs h]

/-! ## Updates -/

/-- Updates that leave the ground. -/
def Grounded (us : List Upd) : Prop := ∀ u ∈ us, ∀ s, (u.apply s).ground = s.ground

theorem Grounded.ground {us : List Upd} (h : Grounded us) (s : State) : (s.applyAll us).ground = s.ground :=
  updates_rel (fun a b => b.ground = a.ground) (fun _ => rfl) (fun _ _ _ h g => g.trans h) us s fun u hu a => h u hu a

theorem Grounded.nil : Grounded [] := List.forall_mem_nil _
theorem Grounded.cons {u : Upd} {us : List Upd} (hu : ∀ s, (u.apply s).ground = s.ground) (h : Grounded us) : Grounded (u :: us) :=
  List.forall_mem_cons.mpr ⟨hu, h⟩
theorem Grounded.one {u : Upd} (hu : ∀ s, (u.apply s).ground = s.ground) : Grounded [u] := .cons hu .nil
theorem Grounded.append {us vs : List Upd} (h : Grounded us) (g : Grounded vs) : Grounded (us ++ vs) := List.forall_mem_append.mpr ⟨h, g⟩
theorem Grounded.ite {c : Prop} [Decidable c] {us vs : List Upd} (h : Grounded us) (g : Grounded vs) : Grounded (if c then us else vs) :=
  forall_mem_ite h g
theorem Grounded.map {α : Type} {f : α → Upd} (l : List α) (h : ∀ x s, ((f x).apply s).ground = s.ground) :
    Grounded (l.map f) := fun u hu => by
  obtain ⟨x, _, rfl⟩ := List.mem_map.mp hu
  exact h x
theorem Grounded.mapIdx {α : Type} {f : Nat → α → Upd} (l : List α) (h : ∀ i x s, ((f i x).apply s).ground = s.ground) :
    Grounded (l.mapIdx f) := fun u hu => by
  obtain ⟨i, _, rfl⟩ := List.mem_mapIdx.mp hu
  exact h i _
theorem Grounded.flatMap {α : Type} {f : α → List Upd} (l : List α) (h : ∀ x, Grounded (f x)) : Grounded (l.flatMap f) := fun u hu => by
  obtain ⟨x, _, hu⟩ := List.mem_flatMap.mp hu
  exact h x u hu

/-- A change of one element that leaves what `g` says of it. -/
theorem map_updAt {α β : Type} {n : Nat} (v : Vector α n) (i : Nat) {f : α → α} {g : α → β} (h : ∀ x, g (f x) = g x) :
    (updAt v i f).map g = v.map g := by
  unfold updAt
  split
  · refine Vector.ext fun j hj => ?_
    rw [Vector.getElem_map, Vector.getElem_map, Vector.getElem_set]
    split
    · next hij =>
      subst hij
      exact h _
    · rfl
  · rfl

theorem die_ground (d : Nat) {f : Die → Die} (h : ∀ x, (f x).links.map Link.lanesOff = x.links.map Link.lanesOff) (s : State) :
    ((Upd.die d f).apply s).ground = s.ground := by
  have hdies : ((Upd.die d f).apply s).part.dies = updAt s.part.dies d f := rfl
  have hlanes := map_updAt (g := fun d => d.links.map Link.lanesOff) s.part.dies d h
  rw [← hdies] at hlanes
  exact congrArg (fun x => (s.part.ringbase, s.part.ringlen, s.part.ctxs, s.part.cellOff, s.part.launches.map fun l => (l.key, l.ctx), x)) hlanes

theorem link_ground (d : BitVec 2) (l : BitVec 3) {f : Link → Link} (h : ∀ k, (f k).lanesOff = k.lanesOff) (s : State) :
    ((Upd.link d l f).apply s).ground = s.ground := die_ground _ (fun _ => map_updAt _ _ h) s

theorem launch_ground (key : Nat) {f : Launch → Launch} (h : ∀ l, (f l).key = l.key ∧ (f l).ctx = l.ctx) (s : State) :
    ((Upd.launch key f).apply s).ground = s.ground := by
  have hlaunches : ((Upd.launch key f).apply s).part.launches.map (fun l => (l.key, l.ctx)) = s.part.launches.map fun l => (l.key, l.ctx) := by
    refine (List.map_map ..).trans (List.map_congr_left fun l _ => ?_)
    simp only [Function.comp]
    split
    · exact Prod.ext (h l).1 (h l).2
    · rfl
  exact congrArg (fun x => (s.part.ringbase, s.part.ringlen, s.part.ctxs, s.part.cellOff, x, s.part.dies.map fun d => d.links.map Link.lanesOff))
    hlaunches

theorem store_ground (a : Nat) (bs : List Byte) (s : State) : ((Upd.store a bs).apply s).ground = s.ground := rfl
theorem stores_ground (cs : List (Nat × Byte)) (s : State) : ((Upd.stores cs).apply s).ground = s.ground := rfl

/-! ## Effects -/

/-- An effect that leaves the ground. -/
def GroundEff (e : Eff) : Prop := ∀ s, (e.run s).ground = s.ground

theorem GroundEff.seq {e f : Eff} (he : GroundEff e) (hf : GroundEff f) : GroundEff (.seq e f) := fun s => (hf _).trans (he s)
theorem GroundEff.nothing : GroundEff .nothing := fun _ => rfl
theorem GroundEff.act {f : State → List Upd} (h : ∀ s, Grounded (f s)) : GroundEff (.act f) := fun s => (h s).ground s
theorem GroundEff.upds {us : List Upd} (h : Grounded us) : GroundEff (.upds us) := fun s => h.ground s
theorem GroundEff.read {f : State → Eff} (h : ∀ s, GroundEff (f s)) : GroundEff (.read f) := fun s => h s s
theorem GroundEff.each {α : Type} {f : α → Eff} {l : List α} (h : ∀ x, GroundEff (f x)) : GroundEff (.each f l) := fun s =>
  each_rel (fun a b => b.ground = a.ground) (fun _ => rfl) (fun _ _ _ h g => g.trans h) f l s fun x _ a => h x a
theorem GroundEff.ite {c : Prop} [Decidable c] {e f : Eff} (he : GroundEff e) (hf : GroundEff f) : GroundEff (if c then e else f) := by
  split
  · exact he
  · exact hf

/-! ## Registers -/

theorem selectRatio_ground (s : State) (c : Nat) (r : BitVec 2) : Grounded (selectRatio s c r) :=
  .ite .nil (.cons (fun _ => rfl) (.one fun _ => rfl))

theorem applyCeil_ground (s : State) (c : Nat) (auto : Bool) (ceil : BitVec 2) : Grounded (applyCeil s c auto ceil) :=
  .ite (selectRatio_ground _ _ _) (.ite (selectRatio_ground _ _ _) (.ite (selectRatio_ground _ _ _) .nil))

theorem mailboxWrite_ground (s : State) (i off : Nat) (v : Word) : Grounded (mailboxWrite s i off v) := by
  unfold mailboxWrite
  split
  · exact .ite .nil (.append (.one fun _ => rfl) (.ite (.one fun _ => rfl) .nil))
  · exact .one fun _ => rfl
  · exact .one fun _ => rfl
  · exact .one fun _ => rfl
  · exact .nil

theorem hostWrite_ground (s : State) (m h : Nat) (v : Word) : Grounded (hostWrite s m h v) := by
  refine .append (.one fun _ => rfl) (.ite ?_ .nil)
  unfold stepHosted
  split
  · exact .nil
  · exact .map _ fun _ _ => rfl

theorem debugWrite_ground (s : State) (m off : Nat) (v : Word) : Grounded (debugWrite s m off v) := by
  unfold debugWrite
  split
  · exact .one fun _ => rfl
  · exact .one fun _ => rfl
  · exact hostWrite_ground _ _ _ _
  · exact hostWrite_ground _ _ _ _
  · exact .ite (.one fun _ => rfl) .nil

theorem dieWrite_ground (s : State) (d off : Nat) (v : Word) : Grounded (dieWrite s d off v) :=
  .ite (.one (die_ground _ fun _ => rfl)) <| .ite (.ite (.cons (fun _ => rfl) (applyCeil_ground _ _ _ _)) .nil) <|
    .ite (mailboxWrite_ground _ _ _ _) <|
    .ite (.ite (.append (.one (die_ground _ fun _ => map_updAt _ _ fun _ => rfl)) (.ite .nil (.one fun _ => rfl))) .nil) .nil

theorem sysWriteBytes_ground (s : State) (pa : Nat) (bs : List Byte) : Grounded (sysWriteBytes s pa bs) :=
  .flatMap _ fun _ => .ite (debugWrite_ground _ _ _ _) (.ite (dieWrite_ground _ _ _ _) .nil)

/-! ## Writes -/

theorem beforeWrite_ground (line : Nat) (s : State) : ((beforeWrite line).apply s).ground = s.ground := rfl

theorem cleanLine_ground (s : State) (line : Nat) (secs : List Nat) : Grounded (cleanLine s line secs) := by
  unfold cleanLine
  split
  · exact .nil
  · exact .append (.map _ fun _ _ => rfl) (.ite (.one fun _ => rfl) (.one fun _ => rfl))

theorem sideWrite_ground (s : State) (a : Agent) (pa : Nat) (bs : List Byte) : Grounded (sideWrite s a pa bs) := by
  unfold sideWrite
  split
  · exact .ite .nil (sysWriteBytes_ground s pa bs)
  · exact .append (cleanLine_ground s _ _) (.one fun _ => rfl)

theorem copiesAfterWrite_ground (s : State) (a : Agent) (cp pa : Nat) (bs : List Byte) : Grounded (copiesAfterWrite s a cp pa bs) := by
  unfold copiesAfterWrite
  refine .append (.append ?_ (.one fun _ => rfl)) (.map _ fun _ _ => rfl)
  split
  · exact .nil
  · exact .one fun _ => rfl

theorem orderAfterWrite_ground (s : State) (a : Agent) (pa : Nat) : Grounded (orderAfterWrite s a pa) := .ite (.one fun _ => rfl) .nil

theorem writeBack_ground (l : L2Line) : Grounded l.writeBack := fun u hu => by
  obtain ⟨x, _, hx⟩ := List.mem_filterMap.mp hu
  split at hx
  · exact Option.some.inj hx ▸ fun _ => rfl
  · cases hx

theorem makeRoom_ground {s : State} {die line : Nat} {us : List Upd} (h : makeRoom s die line = some us) : Grounded us := by
  rcases makeRoom_eq h with rfl | ⟨v, _, rfl⟩
  · exact .nil
  · exact .append (writeBack_ground v) (.one fun _ => rfl)

theorem room_ground {s : State} {p : Page} {ctx : Nat} {us : List Upd}
    (h : (makeRoom s p.home (p.pa / 128)).map (fun us => us ++ [newLine s p ctx]) = some us) : Grounded us := by
  obtain ⟨room, hroom, rfl⟩ := Option.map_eq_some_iff.mp h
  exact .append (makeRoom_ground hroom) (.one fun _ => rfl)

theorem allocate_ground {s : State} {p : Page} {ctx : Nat} {us : List Upd} (h : allocate s p ctx = .ok (some us)) : Grounded us := by
  simp only [allocate] at h
  split at h
  · exact Option.some.inj (Except.ok.inj h) ▸ .nil
  · split at h
    · exact room_ground (Except.ok.inj h)
    · split at h
      · split at h
        · cases h
        · exact room_ground (Except.ok.inj h)
      · split at h
        · cases h
        · split at h
          · cases h
          · split at h
            · exact room_ground (Except.ok.inj h)
            · split at h
              · split at h
                · exact Option.some.inj (Except.ok.inj h) ▸
                    .append (.cons (fun _ => rfl) (.cons (fun _ => rfl) (.map _ fun _ _ => rfl))) (.one fun _ => rfl)
                · cases h
              · cases h

theorem noteLandings_ground (s : State) (key n : Nat) : Grounded (noteLandings s key n) := .ite (.one fun _ => rfl) .nil

theorem writePlace_ground {s : State} {a : Agent} {pl : Place} {bs : List Byte} {cp : Nat} {us : List Upd}
    (h : writePlace s a pl bs cp = .ok us) : Grounded us := by
  cases pl with
  | scr core off => exact Except.ok.inj h ▸ .cons (fun _ => rfl) (noteLandings_ground _ _ _)
  | tib off => exact Except.ok.inj h ▸ .nil
  | page p =>
    simp only [writePlace] at h
    have hbefore := Grounded.one (beforeWrite_ground (p.pa / 128))
    have hafter (cp : Nat) := copiesAfterWrite_ground s a cp p.pa bs
    have horder := orderAfterWrite_ground s a p.pa
    split at h
    · exact Except.ok.inj h ▸ .append (.append (.append hbefore (sideWrite_ground s a _ _)) (hafter _)) horder
    · split at h
      · cases h
      · exact Except.ok.inj h ▸ .append (.append (.cons (beforeWrite_ground _) (.one fun _ => rfl)) (hafter _)) horder
      · next halloc =>
        exact Except.ok.inj h ▸ .append (.append (.append (.append hbefore (allocate_ground halloc)) (.one fun _ => rfl)) (hafter _)) horder

theorem leafFor_ground (s : State) (c : Ctx) (issuer va : Nat) : Grounded (leafFor s c issuer va).2 := by
  unfold leafFor
  split
  · exact .nil
  · split
    · exact .nil
    · exact .one fun _ => rfl

/-- A translation only caches the leaf that it finds. -/
theorem pageFor_updates {s : State} {c : Ctx} {issuer : Nat} {user vetted : Bool} {k : AccessKind} {va n : Nat} {r : Except Nat Page}
    {us : List Upd} (h : pageFor s c issuer user vetted k va n = (r, us)) : us = (leafFor s c issuer va).2 := by
  have hjudge (x : Nat × Nat) (us : List Upd) : (pageBut.judge (fun _ => false) s user vetted k va n x us).2 = us := by
    simp only [pageBut.judge]
    split
    · rfl
    · split
      · rfl
      · split <;> rfl
  simp only [pageFor, pageBut, keptLeaf, List.find?_nil, Option.map_none] at h
  split at h
  · next heq =>
    rw [heq]
    exact (Prod.mk.inj h).2.symm
  · next heq =>
    rw [heq]
    exact (congrArg Prod.snd h).symm.trans (hjudge _ _)

theorem pageFor_ground {s : State} {c : Ctx} {issuer : Nat} {user vetted : Bool} {k : AccessKind} {va n : Nat} {r : Except Nat Page}
    {us : List Upd} (h : pageFor s c issuer user vetted k va n = (r, us)) : Grounded us :=
  pageFor_updates h ▸ leafFor_ground s c issuer va

end Sys2Proof.Machine
end

section
/-! Work on teams and commands leaves the ground: it completes operations, ends rounds of chains, drains buffers, moves rows, saves and
retires teams, ends groups and launches. -/

open Sys2Proof Sys2Proof.Machine

namespace Sys2Proof.Machine

/-! ## Operations -/

theorem progress_ground (s : State) (k : Nat) : Grounded (progress s k) := by
  simp only [progress]
  split
  · exact .one (launch_ground _ fun _ => ⟨rfl, rfl⟩)
  · exact .nil

theorem settle_ground (s : State) (o : Op) : Grounded (o.settle s) := by
  simp only [Op.settle]
  split
  · exact .ite .nil (.one fun _ => rfl)
  · exact .nil

theorem historyV_ground (s : State) (t : TId) : ∀ (ws : List Word) (r : VReg), Grounded (historyV s t r ws)
  | [], _ => .nil
  | w :: ws, r => by
    rw [historyV]
    split
    · exact .nil
    · exact .cons (store_ground _ _) (historyV_ground s t ws _)

theorem touchB_ground (s : State) (t : TId) (r : VReg) (n b : Nat) : Grounded (touchB s t r n b) := by
  simp only [touchB]
  exact .ite (.one fun _ => rfl) .nil

theorem write_ground (s : State) (o : Op) : Grounded (o.write s) := by
  have written (f : Thread → Thread) (r : VReg) (ws : List Word) (n : Nat) :
      Grounded (Upd.thread o.t f :: (historyV s o.t r ws ++ touchB s o.t r n o.id)) :=
    .cons (fun _ => rfl) (.append (historyV_ground s _ _ _) (touchB_ground s _ _ _ _))
  simp only [Op.write]
  split
  · split
    · split
      · exact written _ _ _ _
      · exact written _ _ _ _
    · exact .nil
  · exact .nil

theorem completeOp_ground (id : Nat) : GroundEff (completeOp id) := .act fun s => by
  split
  · exact .nil
  · exact .append (.append (.append (.append (write_ground s _) (settle_ground s _)) (.one fun _ => rfl)) (progress_ground s _))
      (.ite (.one fun _ => rfl) .nil)

theorem acquire_ground (s : State) (t : TId) : Grounded (acquire s t) := by
  simp only [acquire]
  split
  · exact .one fun _ => rfl
  · exact .nil

/-! ## Rows and chains -/

theorem freeCRows_ground (s : State) (ws : List Window) : Grounded (freeCRows s ws) :=
  .flatMap _ fun _ => .cons (stores_ground _) (.one fun _ => rfl)

theorem spoilRows_ground : GroundEff spoilRows := .act fun s => .ite (.append (freeCRows_ground s _) (.one fun _ => rfl)) .nil

theorem addRank_ground (ctx num rank : Nat) : GroundEff (addRank ctx num rank) := .seq spoilRows_ground <| .read fun s => by
  split
  · exact .nothing
  · exact .seq (.upds (.one fun _ => rfl)) <| .seq (.each fun r => .act fun s => .one (store_ground _ _)) <|
      .seq spoilRows_ground (.upds (.one fun _ => rfl))

theorem addLanded_ground (ctx num : Nat) : GroundEff (addLanded ctx num) := .each fun i => .read fun s => by
  split
  · exact .nothing
  · exact .ite (addRank_ground _ _ _) .nothing

theorem endWait_ground (o : Op) : GroundEff (endWait o) := .seq (.act fun s => acquire_ground s o.t) (completeOp_ground o.id)

theorem endRound_ground (ctx num : Nat) : GroundEff (endRound ctx num) := .read fun s => by
  refine .seq (.each fun o => .ite (endWait_ground o) .nothing) ?_
  split
  · exact .nothing
  · exact .ite (.seq (endWait_ground _) (.seq (.upds (.one fun _ => rfl)) (.each fun o => endWait_ground o)))
      (.seq (endWait_ground _) (.upds (.one fun _ => rfl)))

theorem advanceChain_ground (ctx num : Nat) : GroundEff (advanceChain ctx num) := .seq (addLanded_ground ctx num) <| .read fun s => by
  split
  · exact .nothing
  · exact .ite (endRound_ground _ _) .nothing

theorem landSend_ground (op ctx num rank : Nat) (rows : List (List Word)) : GroundEff (landSend op ctx num rank rows) := .read fun s => by
  split
  · exact completeOp_ground op
  · exact .seq (.upds (.mapIdx _ fun _ _ _ => rfl)) <| .seq (.upds (.one fun _ => rfl)) <|
      .seq (completeOp_ground op) (advanceChain_ground ctx num)

theorem landSends_ground (k : Nat) : GroundEff (landSends k) := .read fun s => .each fun o => by
  split
  · refine .read fun s => ?_
    split
    · exact .ite (landSend_ground _ _ _ _ _) .nothing
    · exact .nothing
  · exact .nothing

theorem endChains_ground (k : Nat) : GroundEff (endChains k) := .read fun _ => .each fun _ => .read fun _ =>
  .seq (.each fun _ => .ite (completeOp_ground _) .nothing) (.upds (.one fun _ => rfl))

/-! ## Combining buffers -/

theorem watchOnce_ground (s : State) (m i : Nat) : Grounded (watchOnce s m i) := by
  simp only [watchOnce]
  exact .ite (.one fun _ => rfl) .nil

theorem matchFired_ground (s : State) (t : TId) (m : Match) : Grounded (matchFired s t m).2 := by
  cases m with
  | trip core act =>
    have once : Grounded [tripOnce core] := .one fun _ => rfl
    simp only [matchFired]
    split
    · exact once
    · split
      · exact once
      · split
        · exact once
        · exact .cons (fun _ => rfl) (.cons (fun _ => rfl) (.one fun _ => rfl))
  | watch m h traps stops =>
    simp only [matchFired]
    refine .append (.flatMap _ fun i => watchOnce_ground s m i) ?_
    split
    · exact .nil
    · exact .one fun _ => rfl

theorem drainMatches_ground (t : TId) : ∀ (xs : List (BitVec 64 × Nat × Nat)) (s : State), Grounded (drainMatches t xs s)
  | [], _ => .nil
  | (va, n, v) :: xs, s => by
    rw [drainMatches]
    refine .append ?_ (drainMatches_ground t xs _)
    split
    · exact .nil
    · refine .append (matchFired_ground s t _) ?_
      split
      · exact .one fun _ => rfl
      · exact .nil

theorem drainBuffer_ground (s : State) (t : TId) : Grounded (drainBuffer s t) := by
  simp only [drainBuffer]
  split
  · exact .nil
  · refine .append (.append (.append (.append (.append (.one (beforeWrite_ground _)) (cleanLine_ground s _ _))
      (.cons (fun _ => rfl) (.one fun _ => rfl))) (.ite ?_ .nil)) (.flatMap _ fun _ => copiesAfterWrite_ground s _ _ _ _))
      (drainMatches_ground t _ _)
    intro u hu
    obtain ⟨c, _, rfl⟩ := Option.map_eq_some_iff.mp (Option.mem_toList.mp hu)
    exact fun _ => rfl

/-! ## Commands under way -/

theorem countRead_ground (s : State) (a : Agent) (p : Page) : Grounded (countRead s a p) := by
  unfold countRead
  refine .ite .nil (.one fun b => ?_)
  cases p.w <;> rfl

theorem usedPlaces_ground (s : State) (a : Agent) (pls : List Place) : Grounded (usedPlaces s a pls) :=
  .append (.append (.append (.ite (.one fun _ => rfl) .nil) (.ite (.one fun _ => rfl) .nil)) (.flatMap _ fun _ => cleanLine_ground s _ _))
    (.ite .nil (.cons (fun _ => rfl) (.flatMap _ fun _ => countRead_ground s a _)))

theorem readRows_ground (t : TId) (k ci : Nat) : ∀ (n row : Nat) (s : State), Grounded (readRows t k ci row n s).2
  | 0, _, _ => .nil
  | n + 1, row, s => by
    refine .append ?_ (readRows_ground t k ci n _ _)
    unfold readRow
    split
    · exact .one fun _ => rfl
    · exact .nil

theorem writeAt_ground (a : Agent) (x : Place × List Byte) : GroundEff (writeAt a x) := .act fun s => by
  split
  · next h => exact writePlace_ground h
  · exact .nil

theorem movePieces_ground (a : Agent) : ∀ (ps : List BoxPiece) (before : List Nat) (i : Nat), GroundEff (movePieces a ps before i)
  | [], _, _ => .nothing
  | _ :: ps, _, i => .seq (.read fun _ => .ite .nothing (writeAt_ground a _)) (movePieces_ground a ps _ (i + 1))

theorem move_ground (j : CopyJob) (a : Agent) (r : Nat) : GroundEff (j.move a r) := .read fun s =>
  .seq (.upds (usedPlaces_ground s a _)) (.seq (movePieces_ground a _ _ _) (.upds (.one fun _ => rfl)))

theorem addCounter_ground {s : State} {a : Agent} {pl : Place} {inc : Nat} {us : List Upd} (h : addCounter s a pl inc = .ok us) :
    Grounded us := by
  unfold addCounter at h
  split at h
  · exact Except.ok.inj h ▸ .one fun _ => rfl
  · exact writePlace_ground h

theorem copyTurn_ground (op : Nat) : GroundEff (copyTurn op) := .read fun s => by
  split
  · exact .nothing
  · split
    · refine .ite .nothing (.ite ?_ ?_)
      · split
        · exact .upds (.one fun _ => rfl)
        · exact .seq (move_ground _ _ _) (.upds (.cons (fun _ => rfl) (.one fun _ => rfl)))
      · split
        · exact .upds (.one fun _ => rfl)
        · next h => exact .seq (.upds (addCounter_ground h)) (completeOp_ground op)
    · exact .nothing

theorem moveAccld_ground (t : TId) (j : AccJob) : GroundEff (moveAccld t j) :=
  .seq spoilRows_ground (.seq (.act fun s => .append (.append (.append (.cons (fun _ => rfl) (.one fun _ => rfl)) (.mapIdx _ fun _ _ _ => rfl))
    (usedPlaces_ground s _ _)) (.one fun _ => rfl)) spoilRows_ground)

theorem moveAccst_ground (op : Nat) (t : TId) (j : AccJob) : GroundEff (moveAccst op t j) :=
  .seq spoilRows_ground <| .read fun _ => .seq (.upds (readRows_ground _ _ _ _ _ _)) <| .read fun _ =>
    .seq (.each fun x => writeAt_ground _ x) (.upds (.cons (fun _ => rfl) (.one fun _ => rfl)))

theorem moveAcc_ground (o : Op) : GroundEff (moveAcc o) := by
  unfold moveAcc
  split
  · exact moveAccld_ground _ _
  · exact moveAccst_ground _ _ _
  · exact .nothing

theorem statusTurn_ground (o : Op) (pl : Place) (v : Nat) {later : Eff} (hl : GroundEff later) : GroundEff (statusTurn o pl v later) :=
  .read fun s => by
    refine .ite hl ?_
    split
    · exact .seq (.upds (.one fun _ => rfl)) hl
    · next h => exact .seq (.upds (writePlace_ground h)) (endWait_ground o)

theorem finishWork_ground (k : Nat) : GroundEff (finishWork k) := .read fun s => .each fun o => by
  split
  · exact .each fun _ => copyTurn_ground _
  · exact statusTurn_ground _ _ _ .nothing
  · exact .read fun _ => .ite .nothing (.seq (moveAcc_ground o) (completeOp_ground o.id))

theorem deliverLines_ground (s : State) (dest : Nat) (dests : List Nat) (lines : List (Nat × List Byte)) (was : List Byte) (hits : List Nat) :
    Grounded (deliverLines s dest dests lines was hits) :=
  .append (.cons (fun _ => rfl) (.one fun _ => rfl)) (.flatMap _ fun _ => noteLandings_ground s _ _)

theorem completeForSave_ground (k : Nat) : GroundEff (completeForSave k) := .read fun s => .each fun o => by
  have own : GroundEff (if o.t.team = k then completeOp o.id else .nothing) := .ite (completeOp_ground _) .nothing
  split
  · exact own
  · exact own
  · exact own
  · exact own
  · exact own
  · exact own
  · exact .ite (.seq (.act fun s => deliverLines_ground s _ _ _ _ _) (completeOp_ground _)) .nothing
  · exact .nothing

/-! ## Groups -/

theorem endMember_ground (v : Nat) (o : CollOp) : GroundEff (endMember v o) := .read fun s => by
  have finish : GroundEff (.seq (.act fun s => acquire s o.t) (completeOp o.opId)) :=
    .seq (.act fun s => acquire_ground s o.t) (completeOp_ground _)
  have later (pl : Place) : GroundEff (.upds [.op o.opId fun p => { p with job := .status pl v }, .event (.accessAck o.opId)]) :=
    .upds (.cons (fun _ => rfl) (.one fun _ => rfl))
  dsimp only
  split
  · exact finish
  · refine .ite (later _) ?_
    split
    · exact .seq (.upds (.one fun _ => rfl)) (later _)
    · next h => exact .seq (.upds (writePlace_ground h)) finish

theorem failGroup_ground (ctx num : Nat) : GroundEff (failGroup ctx num) := .read fun s => by
  split
  · exact .nothing
  · exact .seq (.upds (.one fun _ => rfl)) (.each fun o => endMember_ground 2 o)

theorem retireMember_ground (k : Nat) : GroundEff (retireMember k) := .read fun _ => .each fun _ =>
  .seq (failGroup_ground _ _) (.act fun _ => .ite (.one fun _ => rfl) (.one fun _ => rfl))

theorem endCutOff_ground : GroundEff endCutOff := .read fun _ => .each fun _ =>
  .seq (failGroup_ground _ _) (.upds (.cons (fun _ => rfl) (.one fun _ => rfl)))

/-! ## Teams -/

theorem holdWaits_ground (k : Nat) : GroundEff (holdWaits k) := .read fun s => .each fun o => by
  split
  · refine .ite (.act fun s => .append (settle_ground s o) (.cons (fun _ => rfl) ?_)) .nothing
    split
    · exact .one fun _ => rfl
    · exact .one fun _ => rfl
  · exact .nothing

theorem closeWindows_ground (t : TId) : GroundEff (closeWindows t) := .act fun s =>
  .append (.flatMap _ fun o => .ite (write_ground s o) .nil) (.one fun _ => rfl)

theorem swapActive_ground (s : State) (g : GId) : Grounded (swapActive s g) := by
  unfold swapActive
  split
  · exact .nil
  · exact .cons (fun _ => rfl) (.one fun _ => rfl)

theorem leave_ground (t : TId) (len : Nat) : GroundEff (.leave t len) := .act fun s =>
  .append (.append (.cons (fun _ => rfl) (.one fun _ => rfl)) (.ite (.one fun _ => rfl) .nil)) (.ite (swapActive_ground s _) .nil)

theorem leaveWaves_ground (k : Nat) : GroundEff (leaveWaves k) := .read fun _ =>
  .seq (.each fun x => .ite (.seq (.act fun s => acquire_ground s x.id) (leave_ground x.id 1)) .nothing) (.upds (.one fun _ => rfl))

theorem unhostForSave_ground (s : State) (g : Group) : Grounded (unhostForSave s g) := by
  unfold unhostForSave
  split
  · exact .nil
  · exact .cons (fun _ => rfl) (.one fun _ => rfl)

theorem saveTeam_ground (k : Nat) (res : Residence) : GroundEff (saveTeam k res) :=
  .seq spoilRows_ground <| .seq (holdWaits_ground k) <|
  .seq (.read fun _ => .each fun x => .seq (.act fun s => drainBuffer_ground s x.id) (closeWindows_ground x.id)) <|
  .seq (leaveWaves_ground k) <| .seq (landSends_ground k) <| .seq (completeForSave_ground k) <| .act fun s =>
    .append (.append (.flatMap _ fun g => .append (unhostForSave_ground s g) (.one fun _ => rfl)) (.map _ fun _ _ => rfl))
      (.cons (fun _ => rfl) (.one fun _ => rfl))

theorem retireTeam_ground (k : Nat) : GroundEff (retireTeam k) :=
  .seq (.read fun _ => .each fun x => .act fun s => drainBuffer_ground s x.id) <|
  .seq spoilRows_ground <| .seq (landSends_ground k) <| .seq (endChains_ground k) <| .seq (retireMember_ground k) <| .act fun s => by
    refine .append (.flatMap _ fun g => ?_) (.cons (fun _ => rfl) (.cons (fun _ => rfl) (.one fun _ => rfl)))
    split
    · exact .one fun _ => rfl
    · exact .nil

theorem removeTeam_ground (k : Nat) : GroundEff (removeTeam k) := .seq (retireTeam_ground k) (.upds (.cons (fun _ => rfl) (.one fun _ => rfl)))

/-! ## Launches -/

theorem writeDone_ground {s : State} {l : Launch} {v : Nat} {us : List Upd} (h : writeDone s l v = .ok us) : Grounded us := by
  have lost (r : Report) : Grounded [.report r] := .one fun _ => rfl
  simp only [writeDone] at h
  split at h
  · exact Except.ok.inj h ▸ .nil
  · split at h
    · exact Except.ok.inj h ▸ lost _
    · split at h
      · exact Except.ok.inj h ▸ lost _
      · split at h
        · exact Except.ok.inj h ▸ lost _
        · split at h
          · exact Except.ok.inj h ▸ lost _
          · next hpage =>
            split at h
            · exact Except.ok.inj h ▸ lost _
            · cases hw : ctxWrite s l.ctx _ _ (leBytes 8 v) with
              | error w => rw [hw] at h; cases h
              | ok vs =>
                rw [hw] at h
                exact Except.ok.inj h ▸ .append (pageFor_ground hpage) (writePlace_ground hw)

/-! ## Lanes -/

theorem startWidth_ground (s : State) (d : BitVec 2) (l : BitVec 3) (w : BitVec 2) : Grounded (startWidth s d l w) :=
  .ite .nil (.cons (link_ground _ _ fun _ => rfl) (.one fun _ => rfl))

/-- The lane is retired first; what follows of it, a lower width or the end of the link, leaves the lanes. -/
theorem retireLane_ground (d : BitVec 2) (l : BitVec 3) (lane : Nat) (s : State) :
    ((retireLane d l lane).run s).ground = ((Upd.link d l fun k =>
      { k with lanesOff := if k.lanesOff.contains lane then k.lanesOff else lane :: k.lanesOff }).apply s).ground := by
  refine GroundEff.read (f := fun s => if (s.link d l).down then .nothing
    else if (s.link d l).spent then .seq (.upds [.link d l fun k => { k with down := true, target := none }]) endCutOff
    else .upds (if (s.link d l).widest.toNat < (s.link d l).width.toNat then startWidth s d l (s.link d l).widest else [])) (fun s => ?_) _
  exact .ite .nothing (.ite (.seq (.upds (.one (link_ground _ _ fun _ => rfl))) endCutOff_ground) (.upds (.ite (startWidth_ground _ _ _ _) .nil)))

end Sys2Proof.Machine
end

section
/-! Requests on cells and positions (R303): CELLOFF, CELLON, DRAIN, UNDRAIN. -/

open Sys2Proof Sys2Proof.Machine

namespace Sys2Proof.Machine

section
variable {s : State} {e : Nat}

/-! ## Cells -/

/-- The bit of a cell in a mask. -/
theorem cellBit {cell : Nat} (h : cell < 192) : (BitVec.ofNat 192 (2 ^ cell)).getLsbD cell = true := by
  rw [BitVec.getLsbD_ofNat, Nat.testBit_two_pow_self, decide_eq_true h, Bool.and_self]

theorem cellon_shows (hs : Safe s) (hn : nextRequest s = some (.cellon e)) : ∃ s', exec (.cellon e) s = .next s' ∧
    (192 ≤ entryArg s e 1 ∨ s.part.cellPresent.getLsbD (entryArg s e 1) = false → Answered s s' e 0x100) ∧
    (s.part.cellPresent.getLsbD (entryArg s e 1) = true → Answered s s' e 0 ∧ s'.part.cellOff.getLsbD (entryArg s e 1) = false) := by
  have hrun : exec (.cellon e) s = .next ((if 192 ≤ entryArg s e 1 ∨ !cellHas s.part.cellPresent (entryArg s e 1) then complete e 0x100 []
      else .seq (.upds [.part fun p => { p with cellOff := p.cellOff &&& ~~~BitVec.ofNat 192 (2 ^ entryArg s e 1) }]) (complete e 0 [])).run
    s) := serve_read hn _
  refine ⟨_, hrun, fun hbad => ?_, fun hcell => ?_⟩
  · rw [if_pos (by simpa [cellHas] using hbad)]
    exact complete_answers hs (by decide)
  · have hlt : entryArg s e 1 < 192 := BitVec.lt_of_getLsbD hcell
    rw [if_neg (by simp [cellHas, hcell, hlt]), run_seq, run_upds]
    refine ⟨complete_after hs (.refl s) (by decide), ?_⟩
    rw [(complete_completed e 0 [] _).field Part.cellOff fun _ _ => rfl]
    show (s.part.cellOff &&& ~~~BitVec.ofNat 192 (2 ^ entryArg s e 1)).getLsbD (entryArg s e 1) = false
    rw [BitVec.getLsbD_and, BitVec.getLsbD_not, cellBit hlt, Bool.not_true, Bool.and_false, Bool.and_false]

/-- R303: a cell that is taken out of use: the state from which its teams are saved. -/
def cellTaken (s : State) (cell : Nat) : State := { s with part := { s.part with cellOff := s.part.cellOff ||| BitVec.ofNat 192 (2 ^ cell) } }

theorem cellTaken_off (s : State) {cell : Nat} (h : cell < 192) : (cellTaken s cell).part.cellOff.getLsbD cell = true := by
  show (s.part.cellOff ||| BitVec.ofNat 192 (2 ^ cell)).getLsbD cell = true
  rw [BitVec.getLsbD_or, cellBit h, Bool.or_true]

theorem pageBut_cellTaken (bar : Page → Bool) (stay : List TlbEntry) (s : State) (cell : Nat) :
    pageBut bar stay (cellTaken s cell) = pageBut bar stay s := by
  have hwalk (va : Nat) : walk (cellTaken s cell) va = walk s va := walk_congr (s := s) (b := cellTaken s cell) rfl rfl rfl rfl va
  have hleaf : leafFor (cellTaken s cell) = leafFor s := by
    unfold leafFor
    funext c issuer va
    rw [hwalk]
    rfl
  have hjudge : pageBut.judge bar (cellTaken s cell) = pageBut.judge bar s := rfl
  unfold pageBut
  rw [hjudge, hleaf]

theorem sysWord_cellTaken (s : State) (cell pa : Nat) : sysWord (cellTaken s cell) pa = sysWord s pa := by
  have hhost : hostWord (cellTaken s cell) = hostWord s := by
    have hstops : (cellTaken s cell).stopsGroup = s.stopsGroup := rfl
    have hresume : Thread.atResume (cellTaken s cell) = Thread.atResume s := rfl
    have hthreads : (cellTaken s cell).threadsOf = s.threadsOf := rfl
    unfold hostWord State.groupAtResume
    rw [hstops, hresume, hthreads]
  have hdebug : debugWord (cellTaken s cell) = debugWord s := by
    have hmicro : (cellTaken s cell).micro = s.micro := rfl
    have hnum (a n : Nat) : (cellTaken s cell).num a n = s.num a n := num_congr fun _ _ => rfl
    funext m off
    simp only [debugWord, hhost, hmicro, hnum]
  have hdie : dieWord (cellTaken s cell) = dieWord s := by
    have hd : (cellTaken s cell).die = s.die := rfl
    have hc : (cellTaken s cell).cluster = s.cluster := rfl
    have he : (cellTaken s cell).energyOf = s.energyOf := rfl
    have hp : (cellTaken s cell).position = s.position := rfl
    have hm : mbstatWord (cellTaken s cell) = mbstatWord s := rfl
    unfold dieWord
    rw [hd, hc, he, hp, hm]
  have hpackage : (cellTaken s cell).packageEnergy = s.packageEnergy := rfl
  unfold sysWord
  rw [hdebug, hdie, hpackage]

theorem placeByte_cellTaken (s : State) (cell : Nat) (a : Agent) : placeByte (cellTaken s cell) a = placeByte s a := by
  funext pl
  cases pl with
  | scr core off => rfl
  | tib off => rfl
  | page p =>
    have hhome : homeByte (cellTaken s cell) = homeByte s := rfl
    have hfree : (cellTaken s cell).freeWord = s.freeWord := rfl
    simp only [placeByte, sysByte, sysWord_cellTaken, hhome, hfree]

theorem fetchWord_cellTaken (s : State) (cell : Nat) (a : Agent) (va : BitVec 64) : fetchWord (cellTaken s cell) a va = fetchWord s a va := by
  have htranslate : translate (cellTaken s cell) a .fetch va 4 = translate s a .fetch va 4 := by
    have hctx : (cellTaken s cell).ctxOf = s.ctxOf := rfl
    have htm : (cellTaken s cell).tm = s.tm := rfl
    unfold translate translateBut
    simp only [hctx, htm, pageBut_cellTaken]
  have htouch : touchLines (cellTaken s cell) = touchLines s := rfl
  unfold fetchWord
  rw [htranslate, placeByte_cellTaken, htouch]

theorem fetchWords_cellTaken (s : State) (cell : Nat) (a : Agent) : ∀ (n : Nat) (va : BitVec 64),
    fetchWords (cellTaken s cell) a va n = fetchWords s a va n
  | 0, _ => rfl
  | n + 1, va => by simp only [fetchWords, fetchWord_cellTaken, fetchWords_cellTaken s cell a n]

/-- Whether a team is at its resume points does not depend on the cells in use. -/
theorem teamQuiet_cellTaken (s : State) (cell k : Nat) : teamQuiet (cellTaken s cell) k = teamQuiet s k := by
  have hfetch : fetchClause (cellTaken s cell) = fetchClause s := by
    have hagent : agentOf (cellTaken s cell) = agentOf s := rfl
    have htm : (cellTaken s cell).tm = s.tm := rfl
    unfold fetchClause
    simp only [hagent, htm, fetchWord_cellTaken, fetchWords_cellTaken]
  have hunlocked : unlocked (cellTaken s cell) = unlocked s := by
    have hback : heldBack (cellTaken s cell) = heldBack s := rfl
    have hwait : issueWait (cellTaken s cell) = issueWait s := rfl
    have hrows : rowsBusy (cellTaken s cell) = rowsBusy s := rfl
    have hlocks : interlocked (cellTaken s cell) = interlocked s := rfl
    have hgroup : (cellTaken s cell).gr = s.gr := rfl
    unfold unlocked
    rw [hfetch, hback, hwait, hrows, hlocks, hgroup]
  have hstands : Thread.stands (cellTaken s cell) = Thread.stands s := by
    have hresume : Thread.atResume (cellTaken s cell) = Thread.atResume s := rfl
    unfold Thread.stands
    rw [hunlocked, hresume]
  unfold teamQuiet
  rw [hstands]
  rfl

/-- What is done with the teams of a cell leaves the ground (R303). -/
theorem clearCell_cellOff (cell : Nat) (b : State) : ((clearCell e cell).run b).part.cellOff = b.part.cellOff := by
  have hteams : GroundEff (.read fun s => .each (fun x => if x.res != .resident || !(s.teamThreads x.key).any Thread.live then .nothing
      else if teamQuiet s x.key then .seq (saveTeam x.key .swapped) (.upds [.event (.teamWake x.key)])
      else .upds [.team x.key fun y => { y with stopping := true }]) (teamsOnCell s cell)) := .read fun s => .each fun x =>
    .ite .nothing (.ite (.seq (saveTeam_ground _ _) (.upds (.one fun _ => rfl))) (.upds (.one fun _ => rfl)))
  have hcells := ground_cellOff (hteams b)
  simp only [clearCell, run_read, run_seq] at hcells ⊢
  rw [← hcells]
  split
  · exact (complete_completed e 0 [] _).field Part.cellOff fun _ _ => rfl
  · rfl

/-- A team of a cell that is not at its resume points is stopped; nothing else of it is done, if it runs. -/
def stopTeam (s : State) (x : Team) : Eff :=
  if x.res != .resident || !(s.teamThreads x.key).any Thread.live then .nothing else .upds [.team x.key fun y => { y with stopping := true }]

/-- While no team of the cell is at its resume points, each that runs is stopped, and the request goes on. -/
theorem clearCell_waits {b : State} {cell : Nat} (hquiet : ∀ y ∈ teamsOnCell b cell, teamQuiet b y.key = false) :
    (clearCell e cell).run b =
      (Eff.read fun c => if (teamsOnCell c cell).isEmpty then complete e 0 [] else .upds [.event (.celloff e)]).run
        ((Eff.each (stopTeam b) (teamsOnCell b cell)).run b) := by
  have heach : ∀ (l : List Team) (c : State), (∀ y ∈ l, teamQuiet b y.key = false) →
      (Eff.each (fun x => if x.res != .resident || !(b.teamThreads x.key).any Thread.live then .nothing
        else if teamQuiet b x.key then .seq (saveTeam x.key .swapped) (.upds [.event (.teamWake x.key)])
        else .upds [.team x.key fun y => { y with stopping := true }]) l).run c = (Eff.each (stopTeam b) l).run c := by
    intro l
    induction l with
    | nil => exact fun _ _ => rfl
    | cons x l ih =>
      intro c h
      rw [run_each_cons, run_each_cons, ih _ fun y hy => h y (List.mem_cons_of_mem x hy), h x List.mem_cons_self]
      rfl
  rw [← heach _ b hquiet]
  rfl

/-- A list of teams but for the mark that they are to stop. -/
def Team.unmarked (x : Team) : Team := { x with stopping := false }

/-- From `a` to `b` teams are marked to stop, and a mark stays. -/
structure Stops (a b : State) : Prop where
  part : b.part = a.part
  mem : b.mem = a.mem
  teams : b.teams.map Team.unmarked = a.teams.map Team.unmarked
  kept : ∀ k, (a.tm k).stopping = true → (b.tm k).stopping = true

theorem Stops.refl (a : State) : Stops a a := ⟨rfl, rfl, rfl, fun _ h => h⟩
theorem Stops.trans {a b c : State} (h : Stops a b) (g : Stops b c) : Stops a c :=
  ⟨g.part.trans h.part, g.mem.trans h.mem, g.teams.trans h.teams, fun k hk => g.kept k (h.kept k hk)⟩

theorem stops_stopTeam (b : State) (x : Team) (a : State) : Stops a ((stopTeam b x).run a) := by
  unfold stopTeam
  split
  · exact .refl a
  · refine ⟨rfl, rfl, ?_, fun k hk => ?_⟩
    · refine (List.map_map ..).trans (List.map_congr_left fun y _ => ?_)
      simp only [Function.comp, mapTeam]
      split <;> rfl
    · rw [run_upds, applyAll_cons, applyAll_nil]
      by_cases hkx : k = x.key
      · subst hkx
        cases hx : a.team? x.key with
        | none => simp [State.tm, hx, Team.fresh] at hk
        | some y => rw [tm_apply_team_self _ (by rw [hx]; rfl)]
      · rwa [tm_apply_team_ne a _ hkx]

theorem stops_each (b : State) (l : List Team) (a : State) : Stops a ((Eff.each (stopTeam b) l).run a) :=
  each_rel Stops .refl (fun _ _ _ => .trans) _ l a fun x _ c => stops_stopTeam b x c

theorem team?_isSome (a : State) (k : Nat) : (a.team? k).isSome = true ↔ k ∈ a.teams.map Team.key := by
  rw [State.team?, List.find?_isSome, List.mem_map]
  simp

/-- A team that runs on the cell is stopped. -/
theorem each_stopTeam_marks {b : State} {x : Team} (hres : x.res = .resident) (hlive : (b.teamThreads x.key).any Thread.live = true)
    (l : List Team) (a : State) (hx : x ∈ l) (ha : (a.team? x.key).isSome = true) :
    (((Eff.each (stopTeam b) l).run a).tm x.key).stopping = true := by
  induction l generalizing a with
  | nil => exact absurd hx List.not_mem_nil
  | cons y l ih =>
    rw [run_each_cons]
    rcases List.mem_cons.mp hx with heq | hx
    · refine (stops_each b l _).kept _ ?_
      rw [← heq, stopTeam, if_neg (by simp [hres, hlive]), run_upds, applyAll_cons, applyAll_nil, tm_apply_team_self _ ha]
    · refine ih _ hx ?_
      rw [team?_isSome] at ha ⊢
      have hteams := congrArg (List.map Team.key) (stops_stopTeam b y a).teams
      rw [List.map_map, List.map_map] at hteams
      exact hteams ▸ ha

theorem teamsOnCell_unmarked {a b : State} (h : b.teams.map Team.unmarked = a.teams.map Team.unmarked) (cell : Nat) :
    (teamsOnCell b cell).isEmpty = (teamsOnCell a cell).isEmpty := by
  have hmap (c : State) : (teamsOnCell c cell).map Team.unmarked = (c.teams.map Team.unmarked).filter fun x =>
      x.placed && x.cores.any fun c => c / 4 == cell := by
    rw [List.filter_map]
    exact congrArg (List.map Team.unmarked) (List.filter_congr fun x _ => by simp only [Function.comp, Team.unmarked, Team.placed, Team.here])
  rw [← List.isEmpty_map (f := Team.unmarked), hmap, h, ← hmap, List.isEmpty_map]

/-- CELLOFF of a cell that is present and not the last one of a context. -/
theorem clearCell_shows {cell : Nat} (hs : Safe s) (hcell : cell < 192) : ∃ s', (clearCell e cell).run (cellTaken s cell) = s' ∧
    s'.part.cellOff.getLsbD cell = true ∧
    (teamsOnCell s cell = [] → Answered s s' e 0) ∧
    (∀ x ∈ teamsOnCell s cell, (∀ y ∈ teamsOnCell s cell, teamQuiet s y.key = false) →
      (x.res = .resident → (∃ y ∈ s.threads, y.id.team = x.key ∧ y.live = true) → (s'.tm x.key).stopping = true) ∧
        Instr.celloff e ∈ s'.events) := by
  refine ⟨_, rfl, ?_⟩
  have hoff := cellTaken_off s hcell
  have hcells : teamsOnCell (cellTaken s cell) cell = teamsOnCell s cell := rfl
  have hsafe : Memory.wf (cellTaken s cell).mem = true := hs.mem
  have hring : SameRing s (cellTaken s cell) := ⟨rfl, rfl⟩
  have hquiets (hq : ∀ y ∈ teamsOnCell s cell, teamQuiet s y.key = false) :
      ∀ y ∈ teamsOnCell (cellTaken s cell) cell, teamQuiet (cellTaken s cell) y.key = false := fun y hy => by
    rw [teamQuiet_cellTaken]
    exact hq y hy
  have hthreads : (cellTaken s cell).threads = s.threads := rfl
  generalize cellTaken s cell = b at hoff hcells hsafe hring hquiets hthreads
  have hstops := stops_each b (teamsOnCell b cell) b
  have hempty := teamsOnCell_unmarked hstops.teams cell
  refine ⟨by rw [clearCell_cellOff, hoff], fun hnone => ?_, fun x hx hquiet => ?_⟩
  · rw [clearCell_waits fun y hy => (by rw [hcells, hnone] at hy; exact absurd hy List.not_mem_nil), run_read, hempty, hcells, hnone]
    exact (complete_completed e 0 [] _).answered (run_mem_wf _ _ hsafe) hring (by decide)
  · have hfull : (teamsOnCell b cell).isEmpty = false := by
      rw [hcells]
      cases hl : teamsOnCell s cell with
      | nil => exact absurd hx (hl ▸ List.not_mem_nil)
      | cons => rfl
    rw [clearCell_waits (hquiets hquiet), run_read, hempty, hfull]
    refine ⟨fun hres hlive => ?_, List.mem_append_right _ List.mem_cons_self⟩
    obtain ⟨y, hy, hteam, hl⟩ := hlive
    have hkey : x.key ∈ b.teams.map Team.key := by
      rw [← hcells] at hx
      exact List.mem_map_of_mem (List.mem_filter.mp hx).1
    refine each_stopTeam_marks hres ?_ _ b (hcells ▸ hx) ((team?_isSome b x.key).mpr hkey)
    rw [State.teamThreads, hthreads]
    exact List.any_eq_true.mpr ⟨y, List.mem_filter.mpr ⟨hy, by simpa using hteam⟩, hl⟩

theorem celloff_shows (hs : Safe s) (hn : nextRequest s = some (.celloff e)) : ∃ s', exec (.celloff e) s = .next s' ∧
    let cell := entryArg s e 1
    (192 ≤ cell ∨ s.part.cellPresent.getLsbD cell = false → Answered s s' e 0x100) ∧
    (s.part.cellPresent.getLsbD cell = true → s.part.cellOff.getLsbD cell = false → lastCell s cell = true →
      Answered s s' e 0x101 ∧ s'.part.cellOff = s.part.cellOff) ∧
    (s.part.cellPresent.getLsbD cell = true → lastCell s cell = false → s'.part.cellOff.getLsbD cell = true ∧
      (teamsOnCell s cell = [] → Answered s s' e 0) ∧
      (∀ x ∈ teamsOnCell s cell, (∀ y ∈ teamsOnCell s cell, teamQuiet s y.key = false) →
        (x.res = .resident → (∃ y ∈ s.threads, y.id.team = x.key ∧ y.live = true) → (s'.tm x.key).stopping = true) ∧
          Instr.celloff e ∈ s'.events)) := by
  have hrun : exec (.celloff e) s = .next ((if 192 ≤ entryArg s e 1 ∨ !cellHas s.part.cellPresent (entryArg s e 1) then complete e 0x100 []
      else if !cellHas s.part.cellOff (entryArg s e 1) && lastCell s (entryArg s e 1) then complete e 0x101 []
      else .seq (.upds [.part fun p => { p with cellOff := p.cellOff ||| BitVec.ofNat 192 (2 ^ entryArg s e 1) }])
        (clearCell e (entryArg s e 1))).run s) := serve_read hn _
  generalize hcell : entryArg s e 1 = cell at hrun ⊢
  refine ⟨_, hrun, fun hbad => ?_, fun hpresent hon hlast => ?_, fun hpresent hlast => ?_⟩
  · rw [if_pos (by simpa [cellHas] using hbad)]
    exact complete_answers hs (by decide)
  · have hlt : cell < 192 := BitVec.lt_of_getLsbD hpresent
    rw [if_neg (by simp [cellHas, hpresent, hlt]), if_pos (by simp [cellHas, hon, hlast])]
    exact ⟨complete_answers hs (by decide), (complete_completed e 0x101 [] s).field Part.cellOff fun _ _ => rfl⟩
  · have hlt : cell < 192 := BitVec.lt_of_getLsbD hpresent
    rw [if_neg (by simp [cellHas, hpresent, hlt]), if_neg (by simp [hlast]), run_seq, run_upds]
    obtain ⟨s', hrun', hshows⟩ := clearCell_shows (e := e) hs hlt
    exact hrun' ▸ hshows

/-! ## Positions -/

/-- What stands on a position depends on the contexts, their tables and the frames. -/
theorem framesOn_congr {s b : State} (hctxs : b.part.ctxs = s.part.ctxs) (hframes : b.part.frames = s.part.frames) (hl2 : b.part.l2 = s.part.l2)
    (hmem : b.mem = s.mem) : framesOn b = framesOn s := by
  have htable : tableEntries b = tableEntries s := by
    unfold tableEntries
    rw [homeBytes_congr hl2 hmem]
  have hfrom : entriesFrom b = entriesFrom s := by
    funext level
    induction level with
    | zero => funext base va; rw [entriesFrom, entriesFrom, htable]
    | succ level ih => funext base va; rw [entriesFrom, entriesFrom, htable, ih]
  have hbacked : backedLeaves b = backedLeaves s := by
    unfold backedLeaves Ctx.entries
    rw [hctxs, hfrom]
  unfold framesOn
  rw [hbacked, hframes]

/-- A position after a change of it. -/
theorem position_apply_pos (b : State) {i : Nat} (hi : i < 8) (f : Position → Position) :
    ((Upd.pos i f).apply b).position i = f (b.position i) := by
  have hpos : ((Upd.pos i f).apply b).part.pos = updAt b.part.pos i f := rfl
  rw [State.position, hpos, getD_updAt_self _ _ _ hi]
  rfl

theorem Completed.position {b s' : State} {st : Nat} {results : List (Nat × Nat)} (h : Completed b s' e st results) (i : Nat) :
    s'.position i = b.position i := by
  rw [State.position, State.position, h.field Part.pos fun _ _ => rfl]

/-- DRAIN of a position on which nothing stands. -/
theorem drainPosition_empty {i : Nat} (hempty : framesOn s i = []) :
    (drainPosition e i).run s = (complete e 0 []).run ((Upd.pos i fun p => { p with quiesce := true }).apply
      ((Upd.pos i fun p => { p with draining := true }).apply s)) := by
  have hframes : framesOn ((Upd.pos i fun p => { p with draining := true }).apply s) i = [] := by
    rw [framesOn_congr (s := s) (b := (Upd.pos i fun p => { p with draining := true }).apply s) rfl rfl rfl rfl, hempty]
  simp only [drainPosition, run_seq, run_upds, run_read, applyAll_cons, applyAll_nil]
  rw [hframes]
  rfl

theorem drain_shows (hs : Safe s) (hn : nextRequest s = some (.drain e)) : ∃ s', exec (.drain e) s = .next s' ∧
    (8 ≤ entryArg s e 1 → Answered s s' e 0x100) ∧
    (entryArg s e 1 < 8 → framesOn s (entryArg s e 1) = [] → Answered s s' e 0 ∧ (s'.position (entryArg s e 1)).draining = true ∧
      (s'.position (entryArg s e 1)).quiesce = true) := by
  have hrun : exec (.drain e) s = .next ((if 8 ≤ entryArg s e 1 then complete e 0x100 [] else drainPosition e (entryArg s e 1)).run s) :=
    serve_read hn _
  generalize entryArg s e 1 = i at hrun ⊢
  refine ⟨_, hrun, fun hbad => ?_, fun hi hempty => ?_⟩
  · rw [if_pos hbad]
    exact complete_answers hs (by decide)
  · rw [if_neg (Nat.not_le_of_lt hi), drainPosition_empty hempty]
    have hdone := complete_completed e 0 [] ((Upd.pos i fun p => { p with quiesce := true }).apply
      ((Upd.pos i fun p => { p with draining := true }).apply s))
    refine ⟨hdone.answered hs.mem ⟨rfl, rfl⟩ (by decide), ?_⟩
    rw [hdone.position, position_apply_pos _ hi, position_apply_pos _ hi]
    exact ⟨rfl, rfl⟩

theorem undrain_shows (hs : Safe s) (hn : nextRequest s = some (.undrain e)) : ∃ s', exec (.undrain e) s = .next s' ∧
    (8 ≤ entryArg s e 1 → Answered s s' e 0x100) ∧
    (entryArg s e 1 < 8 → Answered s s' e 0 ∧ (s'.position (entryArg s e 1)).draining = false ∧
      (s'.position (entryArg s e 1)).quiesce = false) := by
  have hrun : exec (.undrain e) s = .next ((if 8 ≤ entryArg s e 1 then complete e 0x100 []
      else .seq (.upds [.pos (entryArg s e 1) fun p => { p with draining := false, quiesce := false }]) (complete e 0 [])).run s) :=
    serve_read hn _
  generalize entryArg s e 1 = i at hrun ⊢
  refine ⟨_, hrun, fun hbad => ?_, fun hi => ?_⟩
  · rw [if_pos hbad]
    exact complete_answers hs (by decide)
  · rw [if_neg (Nat.not_le_of_lt hi), run_seq, run_upds, applyAll_cons, applyAll_nil]
    have hdone := complete_completed e 0 [] ((Upd.pos i fun p => { p with draining := false, quiesce := false }).apply s)
    refine ⟨hdone.answered hs.mem ⟨rfl, rfl⟩ (by decide), ?_⟩
    rw [hdone.position, position_apply_pos _ hi]
    exact ⟨rfl, rfl⟩

/-! ## Lanes -/

theorem getD_map_toList {α β : Type} {n : Nat} (v : Vector α n) (g : α → β) (i : Nat) (d : α) :
    (v.map g).toList.getD i (g d) = g (v.toList.getD i d) := by
  rw [Vector.toList_map, List.getD_eq_getElem?_getD, List.getD_eq_getElem?_getD, List.getElem?_map, Option.getD_map]

/-- Where the ground stays, each link keeps the lanes that are retired. -/
theorem ground_lanesOff {a b : State} (h : b.ground = a.ground) (d l : Nat) :
    ((b.die d).link l).lanesOff = ((a.die d).link l).lanesOff := by
  have hlanes (c : State) : ((c.die d).link l).lanesOff =
      (c.ground.2.2.2.2.2.toList.getD d (Die.reset.links.map Link.lanesOff)).toList.getD l Link.reset.lanesOff := by
    have hdie := getD_map_toList c.part.dies (fun x : Die => x.links.map Link.lanesOff) d Die.reset
    exact (getD_map_toList (c.die d).links Link.lanesOff l Link.reset).symm.trans
      (congrArg (fun v : Vector (List Nat) 6 => v.toList.getD l Link.reset.lanesOff) hdie.symm)
  rw [hlanes, hlanes, h]

/-- A link after a change of it. -/
theorem link_apply_link (s : State) {d l : Nat} (hd : d < 4) (hl : l < 6) (f : Link → Link) :
    (((Upd.link (BitVec.ofNat 2 d) (BitVec.ofNat 3 l) f).apply s).die d).link l = f ((s.die d).link l) := by
  have hdn : (BitVec.ofNat 2 d).toNat = d := by rw [BitVec.toNat_ofNat, Nat.mod_eq_of_lt hd]
  have hln : (BitVec.ofNat 3 l).toNat = l := by rw [BitVec.toNat_ofNat, Nat.mod_eq_of_lt (by omega)]
  have hdies : ((Upd.link (BitVec.ofNat 2 d) (BitVec.ofNat 3 l) f).apply s).part.dies =
      updAt s.part.dies d fun x => { x with links := updAt x.links l f } := by
    simp only [Upd.link, hdn, hln]
    rfl
  rw [State.die, hdies, getD_updAt_self _ _ _ hd]
  exact getD_updAt_self _ _ _ hl

/-- The lane that is retired is among those that are off. -/
theorem mem_lanesOff (k : Link) (lane : Nat) : lane ∈ if k.lanesOff.contains lane then k.lanesOff else lane :: k.lanesOff := by
  split
  · next h => exact List.contains_iff_mem.mp h
  · exact List.mem_cons_self

theorem laneoff_shows (hs : Safe s) (hn : nextRequest s = some (.laneoff e)) : ∃ s', exec (.laneoff e) s = .next s' ∧
    let v := entryArg s e 1
    (16 ≤ v % 256 ∨ 6 ≤ v / 2 ^ 8 % 256 ∨ 4 ≤ v / 2 ^ 16 → Answered s s' e 0x100) ∧
    (v % 256 < 16 → v / 2 ^ 8 % 256 < 6 → v / 2 ^ 16 < 4 → Answered s s' e 0 ∧
      v % 256 ∈ ((s'.die (v / 2 ^ 16)).link (v / 2 ^ 8 % 256)).lanesOff) := by
  have hrun : exec (.laneoff e) s = .next ((if 16 ≤ entryArg s e 1 % 256 ∨ 6 ≤ entryArg s e 1 / 2 ^ 8 % 256 ∨ 4 ≤ entryArg s e 1 / 2 ^ 16
      then complete e 0x100 []
      else .seq (retireLane (BitVec.ofNat 2 (entryArg s e 1 / 2 ^ 16)) (BitVec.ofNat 3 (entryArg s e 1 / 2 ^ 8 % 256)) (entryArg s e 1 % 256))
        (complete e 0 [])).run s) := serve_read hn _
  generalize entryArg s e 1 = v at hrun ⊢
  refine ⟨_, hrun, fun hbad => ?_, fun hlane hlink hdie => ?_⟩
  · rw [if_pos hbad]
    exact complete_answers hs (by decide)
  · rw [if_neg (by omega), run_seq]
    have hground := retireLane_ground (BitVec.ofNat 2 (v / 2 ^ 16)) (BitVec.ofNat 3 (v / 2 ^ 8 % 256)) (v % 256) s
    have hwf := run_mem_wf (retireLane (BitVec.ofNat 2 (v / 2 ^ 16)) (BitVec.ofNat 3 (v / 2 ^ 8 % 256)) (v % 256)) s hs.mem
    generalize (retireLane (BitVec.ofNat 2 (v / 2 ^ 16)) (BitVec.ofNat 3 (v / 2 ^ 8 % 256)) (v % 256)).run s = b at hground hwf ⊢
    have hdone := complete_completed e 0 [] b
    refine ⟨hdone.answered hwf (.trans (b := (Upd.link _ _ _).apply s) ⟨rfl, rfl⟩ (ground_ring hground)) (by decide), ?_⟩
    have hdie' : ((complete e 0 []).run b).die (v / 2 ^ 16) = b.die (v / 2 ^ 16) := by
      rw [State.die, State.die, hdone.field Part.dies fun _ _ => rfl]
    rw [hdie', ground_lanesOff hground, link_apply_link s hdie hlink]
    exact mem_lanesOff _ _

end

end Sys2Proof.Machine
end

section
/-! The resident kernel's memory and modules leave the ground: frames and tables (R142, R143), the loader's pages (R110), the translation
store (R301, R302). -/

open Sys2Proof Sys2Proof.Machine

namespace Sys2Proof.Machine

/-! ## Tables -/

theorem giveRun_ground (s : State) (ctx f n : Nat) : Grounded (giveRun s ctx f n) :=
  .cons (fun _ => rfl) (.cons (fun _ => rfl) (.one (stores_ground _)))

theorem homeWrite_ground (s : State) (pa : Nat) (bs : List Byte) : Grounded (homeWrite s pa bs) := .flatMap _ fun x => by
  refine .cons (beforeWrite_ground _) (.append ?_ (.one fun _ => rfl))
  split
  · exact .one fun _ => rfl
  · exact .one (store_ground _ _)

/-- Of two lists of updates the second is made in the state after the first. -/
theorem grounded_map {o : Option (List Upd)} {us ws : List Upd} (hus : Grounded us) (ho : ∀ vs, o = some vs → Grounded vs)
    (h : (o.map fun vs => us ++ vs) = some ws) : Grounded ws := by
  obtain ⟨vs, hvs, rfl⟩ := Option.map_eq_some_iff.mp h
  exact .append hus (ho vs hvs)

theorem mapPage_ground (ctx va pte : Nat) : ∀ (level base : Nat) (s : State) (us : List Upd), mapPage ctx va pte level base s = some us →
    Grounded us
  | 0, base, s, us, h => by
    rw [mapPage] at h
    exact Option.some.inj h ▸ homeWrite_ground s _ _
  | level + 1, base, s, us, h => by
    rw [mapPage] at h
    dsimp only at h
    split at h
    · split at h
      · cases h
      · exact mapPage_ground ctx va pte level _ s us h
    · split at h
      · cases h
      · next f _ => exact grounded_map (.append (giveRun_ground s ctx f 1) (homeWrite_ground s _ _)) (mapPage_ground ctx va pte level _ _) h

theorem mapPages_ground (c : Ctx) (va : Nat) (pte : Nat → Nat) : ∀ (is : List Nat) (s : State) (us : List Upd),
    mapPages c va pte is s = some us → Grounded us
  | [], s, us, h => by
    rw [mapPages] at h
    exact Option.some.inj h ▸ .nil
  | i :: is, s, us, h => by
    rw [mapPages] at h
    split at h
    · cases h
    · next hpage => exact grounded_map (mapPage_ground _ _ _ _ _ _ _ hpage) (mapPages_ground c va pte is _) h

/-! ## Modules -/

theorem mapAsk_ground {c : Ctx} {p : PageAsk} {s : State} {us : List Upd} (h : mapAsk c p s = some us) : Grounded us := by
  simp only [mapAsk] at h
  split at h
  · cases h
  · next vs pte hgiven =>
    refine grounded_map ?_ (mapPage_ground _ _ _ _ _ _) h
    split at hgiven
    · obtain ⟨rfl, -⟩ := Prod.mk.inj (Option.some.inj hgiven)
      exact .one fun _ => rfl
    · obtain ⟨f, _, hf⟩ := Option.map_eq_some_iff.mp hgiven
      obtain ⟨rfl, -⟩ := Prod.mk.inj hf
      exact .append (giveRun_ground s _ f 1) (.one (store_ground _ _))

theorem mapAsks_ground (c : Ctx) : ∀ (ps : List PageAsk) (s : State) (us : List Upd), mapAsks c ps s = some us → Grounded us
  | [], s, us, h => by
    rw [mapAsks] at h
    exact Option.some.inj h ▸ .nil
  | p :: ps, s, us, h => by
    rw [mapAsks] at h
    split at h
    · cases h
    · next hask => exact grounded_map (mapAsk_ground hask) (mapAsks_ground c ps _) h

/-- What the load of a module may answer: a code up to 9 and nothing done, or 0, pages mapped and the module in its context. -/
def LoadResult (c : Ctx) (r : Nat × List Upd) : Prop :=
  (∃ n, 1 ≤ n ∧ n ≤ 9 ∧ r = (n, [])) ∨ ∃ us f, Grounded us ∧ r = (0, us ++ [.ctx c.num f])

theorem LoadResult.code {c : Ctx} (n : Nat) (h : 1 ≤ n ∧ n ≤ 9) : LoadResult c (n, []) := .inl ⟨n, h.1, h.2, rfl⟩
theorem LoadResult.ite {c : Ctx} {q : Prop} [Decidable q] {x y : Nat × List Upd} (hx : LoadResult c x) (hy : LoadResult c y) :
    LoadResult c (if q then x else y) := by
  split
  · exact hx
  · exact hy

theorem loadModule_result (s : State) (c : Ctx) (bs : List Byte) : LoadResult c (loadModule s c bs) := by
  unfold loadModule
  refine .ite (.code 1 (by decide)) <| .ite (.code 2 (by decide)) <| .ite (.code 3 (by decide)) <| .ite (.code 4 (by decide)) <|
    .ite (.code 5 (by decide)) <| .ite (.code 6 (by decide)) <| .ite (.code 7 (by decide)) <| .ite (.code 8 (by decide)) ?_
  split
  · exact .code 9 (by decide)
  · split
    · exact .code 9 (by decide)
    · next hus => exact .inr ⟨_, _, mapAsks_ground c _ s _ hus, rfl⟩

theorem loadModule_code (s : State) (c : Ctx) (bs : List Byte) : (loadModule s c bs).1 ≤ 9 := by
  rcases loadModule_result s c bs with ⟨n, -, hn, h⟩ | ⟨us, f, -, h⟩
  · rw [h]
    exact hn
  · rw [h]
    exact Nat.zero_le 9

/-- The load of a module leaves the ring. -/
theorem loadModule_ring (s b : State) (c : Ctx) (bs : List Byte) : SameRing b (b.applyAll (loadModule s c bs).2) := by
  rcases loadModule_result s c bs with ⟨n, -, -, h⟩ | ⟨us, f, hus, h⟩
  · rw [h]
    exact .refl b
  · rw [h, applyAll_append]
    exact .trans (ground_ring (hus.ground b)) ⟨rfl, rfl⟩

/-! ## The store -/

theorem copyForward_ground (b : Nat) : ∀ (es : List StoreEntry) (s : State) (us : List Upd), copyForward b es s = some us → Grounded us
  | [], s, us, h => by
    rw [copyForward] at h
    exact Option.some.inj h ▸ .nil
  | e :: es, s, us, h => by
    rw [copyForward] at h
    split at h
    · cases h
    · exact grounded_map (.cons (fun _ => rfl) (.one (store_ground _ _))) (copyForward_ground b es _) h

theorem eraseBlock_ground (s : State) (b : Nat) : Grounded (eraseBlock s b) := .cons (fun _ => rfl) (.one (stores_ground _))

theorem makeSpace_ground (n : Nat) : ∀ (k : Nat) (s : State), Grounded (makeSpace n k s)
  | 0, _ => .nil
  | k + 1, s => by
    rw [makeSpace]
    refine .ite .nil ?_
    dsimp only
    split
    · exact .nil
    · next hus => exact .append (.append (copyForward_ground _ _ _ _ hus) (eraseBlock_ground _ _)) (makeSpace_ground n k _)

theorem storeModule_ground (s : State) (key : BitVec 256) (module : List Byte) : Grounded (storeModule s key module) := by
  refine .append (makeSpace_ground _ _ _) ?_
  split
  · exact .nil
  · exact .cons (fun _ => rfl) (.one (store_ground _ _))

theorem useEntry_ground (s : State) (e : StoreEntry) : Grounded (useEntry s e) := .cons (fun _ => rfl) (.one (store_ground _ _))

/-- What a MTCLOAD may answer (R299): a status up to 5, a loader's code up to 9, and updates that leave the ring. -/
def MtcResult (s : State) (r : Nat × Nat × List Upd) : Prop := r.1 ≤ 5 ∧ r.2.1 ≤ 9 ∧ SameRing s (s.applyAll r.2.2)

/-- The translator gives a status. -/
theorem MtcResult.refused {s : State} {drop : List Upd} (n : Nat) (hdrop : Grounded drop) : MtcResult s (translateStatus n, 0, drop) := by
  refine ⟨?_, Nat.zero_le 9, ground_ring (hdrop.ground s)⟩
  dsimp only [translateStatus]
  split <;> omega

/-- A module is there, and is loaded. -/
theorem MtcResult.loaded {s : State} {us : List Upd} (key : BitVec 256) (c : Ctx) (m : List Byte) (hus : Grounded us) :
    MtcResult s (if (loadModule (s.applyAll us) c m).1 = 0
      then (0, 0, us ++ markUser key c.num :: (loadModule (s.applyAll us) c m).2)
      else (4, (loadModule (s.applyAll us) c m).1, us)) := by
  have hring := ground_ring (hus.ground s)
  split
  · refine ⟨Nat.zero_le 5, Nat.zero_le 9, ?_⟩
    rw [applyAll_append, applyAll_cons]
    exact .trans hring (.trans (b := (markUser key c.num).apply _) ⟨rfl, rfl⟩ (loadModule_ring _ _ _ _))
  · exact ⟨Nat.le_succ 4, loadModule_code _ _ _, hring⟩

theorem mtcLoad_result (s : State) (c : Ctx) (mtc : List Byte) : MtcResult s (mtcLoad s c mtc) := by
  unfold mtcLoad
  split
  · exact ⟨by decide, by decide, .refl s⟩
  · dsimp only
    generalize translationKey mtc (shapeOf s c (Config.mtcDet mtc)) = key
    split
    · refine .refused _ ?_
      split
      · exact .one fun _ => rfl
      · exact .nil
    · next m us hgot =>
      refine .loaded key c m (.append ?_ ?_)
      · split
        · exact .one fun _ => rfl
        · exact .nil
      · split at hgot
        · obtain ⟨-, rfl⟩ := Prod.mk.inj (Except.ok.inj hgot)
          exact useEntry_ground s _
        · cases ht : Config.translate mtc (shapeOf s c (Config.mtcDet mtc)) with
          | error n => rw [ht] at hgot; cases hgot
          | ok x =>
            rw [ht] at hgot
            obtain ⟨-, rfl⟩ := Prod.mk.inj (Except.ok.inj hgot)
            exact storeModule_ground _ _ _

end Sys2Proof.Machine
end

section
/-! Requests on a context (R282 to R286, R299): CTXEND, CTXSET, LOAD, MTCLOAD, MAPHOST, EXPORT, LAUNCH. -/

open Sys2Proof Sys2Proof.Machine

namespace Sys2Proof.Machine

section
variable {s : State} {e : Nat} {c : Ctx}

/-! ## The context of a request -/

/-- A request on a context that does not exist is refused. -/
theorem missingCtx_shows {i : Instr} {go : Ctx → Eff} (hexec : exec i s = serve i (withCtx e go) s) (hs : Safe s)
    (hn : nextRequest s = some i) (hc : s.ctx? (entryCtx s e) = none) : ∃ s', exec i s = .next s' ∧ Answered s s' e 0x100 := by
  rw [hexec, serve_run hn, withCtx_none hc]
  exact ⟨_, rfl, complete_answers hs (by decide)⟩

theorem missingCtx_requests {i : Instr} (hs : Safe s)
    (hi : i ∈ [.ctxend e, .ctxset e, .load e, .mtcload e, .maphost e, .exportMem e, .hostLaunch e]) (hn : nextRequest s = some i)
    (hc : s.ctx? (entryCtx s e) = none) : ∃ s', exec i s = .next s' ∧ Answered s s' e 0x100 := by
  simp only [List.mem_cons, List.not_mem_nil, or_false] at hi
  rcases hi with rfl | rfl | rfl | rfl | rfl | rfl | rfl
  · exact missingCtx_shows rfl hs hn hc
  · exact missingCtx_shows rfl hs hn hc
  · exact missingCtx_shows rfl hs hn hc
  · exact missingCtx_shows rfl hs hn hc
  · exact missingCtx_shows rfl hs hn hc
  · exact missingCtx_shows rfl hs hn hc
  · exact missingCtx_shows rfl hs hn hc

/-- A request on a context that answers with a status, results and updates. -/
theorem ctxAnswer_run {i : Instr} {f : Ctx → State → Nat × List (Nat × Nat) × List Upd}
    (hexec : exec i s = serve i (withCtx e fun c => answer e (f c)) s) (hn : nextRequest s = some i) (hc : s.ctx? (entryCtx s e) = some c) :
    exec i s = .next ((complete e (f c s).1 (f c s).2.1).run (s.applyAll (f c s).2.2)) := by
  rw [hexec, serve_run hn, withCtx_run hc, answer_run]

theorem ctx_num {n : Nat} (hc : s.ctx? n = some c) : c.num = n := by simpa using List.find?_some hc

/-- A change of the contexts that keeps their numbers. -/
theorem find?_num_map {f : Ctx → Ctx} (hf : ∀ d, (f d).num = d.num) (l : List Ctx) (n : Nat) :
    (l.map f).find? (fun d => d.num == n) = (l.find? fun d => d.num == n).map f := by
  rw [List.find?_map]
  congr 2
  funext d
  simp only [Function.comp, hf]

/-- A context after a change of it. -/
theorem ctx?_apply_ctx {b : State} (hc : b.ctx? c.num = some c) {f : Ctx → Ctx} (hf : ∀ d, (f d).num = d.num) :
    ((Upd.ctx c.num f).apply b).ctx? c.num = some (f c) := by
  have hctxs : ((Upd.ctx c.num f).apply b).part.ctxs = b.part.ctxs.map fun d => if d.num = c.num then f d else d := rfl
  have hnum (d : Ctx) : (if d.num = c.num then f d else d).num = d.num := by
    split
    · exact hf d
    · rfl
  rw [State.ctx?, hctxs, find?_num_map hnum, ← State.ctx?, hc, Option.map_some, if_pos rfl]

/-- A request that is refused changes no context. -/
theorem refused_shows (hs : Safe s) : Answered s ((complete e 0x100 []).run s) e 0x100 ∧
    ((complete e 0x100 []).run s).part.ctxs = s.part.ctxs :=
  ⟨complete_answers hs (by decide), (complete_completed e 0x100 [] s).ctxs⟩

/-! ## CTXSET -/

/-- The context of a CTXSET that is accepted. -/
theorem ctxset_accepted (hs : Safe s) (hc : s.ctx? c.num = some c) {f : Ctx → Ctx} (hset : ctxSet c e s = (0, [], [.ctx c.num f]))
    (hf : ∀ d, (f d).num = d.num) :
    let s' := (complete e (ctxSet c e s).1 (ctxSet c e s).2.1).run (s.applyAll (ctxSet c e s).2.2)
    Answered s s' e 0 ∧ s'.ctx? c.num = some (f c) := by
  rw [hset]
  refine ⟨complete_after (st := 0) hs ⟨rfl, rfl⟩ (by decide), ?_⟩
  rw [(complete_completed e 0 [] _).ctx?]
  exact ctx?_apply_ctx hc hf

/-- R284: what a CTXSET that is refused answers. -/
theorem ctxSet_refuses {v sel : Nat} (hv : entryArg s e 1 = v) (hsel : entryArg s e 0 = sel)
    (h : sel = 0 ∨ 4 < sel ∨ ((sel = 1 ∨ sel = 2) ∧ (2 ^ 56 ≤ v ∨ v % 4 ≠ 0)) ∨ (sel = 3 ∧ (v < 0x100 ∨ 0xFFFFFFFF < v))) :
    ctxSet c e s = (0x100, [], []) := by
  have hvector (hbad : 2 ^ 56 ≤ v ∨ v % 4 ≠ 0) : vectorOk v = false := by
    simp only [vectorOk, Bool.and_eq_false_iff, decide_eq_false_iff_not, beq_eq_false_iff_ne]
    omega
  simp only [ctxSet, hv, hsel]
  split
  · rw [hvector (by omega)]
    rfl
  · rw [hvector (by omega)]
    rfl
  · rw [if_neg (by omega)]
  · omega
  · rfl

theorem ctxset_shows (hs : Safe s) (hc : s.ctx? (entryCtx s e) = some c) (hn : nextRequest s = some (.ctxset e)) :
    ∃ s', exec (.ctxset e) s = .next s' ∧
      let v := entryArg s e 1
      let sel := entryArg s e 0
      ((sel = 1 ∨ sel = 2) → v < 2 ^ 56 → v % 4 = 0 → Answered s s' e 0 ∧
        (s'.ctx? c.num).map (fun d => if sel = 1 then d.trapvec else d.emuvec) = some (BitVec.ofNat 64 v)) ∧
      (sel = 3 → 0x100 ≤ v → v ≤ 0xFFFFFFFF → Answered s s' e 0 ∧ (s'.ctx? c.num).map Ctx.waitThr = some v) ∧
      (sel = 4 → Answered s s' e 0 ∧ (s'.ctx? c.num).map Ctx.quota = some v) ∧
      ((sel = 0 ∨ 4 < sel ∨ ((sel = 1 ∨ sel = 2) ∧ (2 ^ 56 ≤ v ∨ v % 4 ≠ 0)) ∨ (sel = 3 ∧ (v < 0x100 ∨ 0xFFFFFFFF < v))) →
        Answered s s' e 0x100 ∧ s'.part.ctxs = s.part.ctxs) := by
  have hrun := ctxAnswer_run (f := fun c => ctxSet c e) rfl hn hc
  have hc' : s.ctx? c.num = some c := by rw [ctx_num hc, hc]
  generalize hv : entryArg s e 1 = v at *
  generalize hsel : entryArg s e 0 = sel at *
  refine ⟨_, hrun, fun hvec hlow hmul => ?_, fun hthr hlow hhigh => ?_, fun hquota => ?_, fun hbad => ?_⟩
  · have hok : vectorOk v = true := by
      rw [vectorOk, decide_eq_true hlow, hmul]
      rfl
    rcases hvec with rfl | rfl
    · have hset : ctxSet c e s = (0, [], [.ctx c.num fun c => { c with trapvec := BitVec.ofNat 64 v }]) := by
        simp only [ctxSet, hv, hsel, hok, if_true]
      obtain ⟨hanswer, hctx⟩ := ctxset_accepted hs hc' hset fun _ => rfl
      exact ⟨hanswer, by rw [hctx]; rfl⟩
    · have hset : ctxSet c e s = (0, [], [.ctx c.num fun c => { c with emuvec := BitVec.ofNat 64 v }]) := by
        simp only [ctxSet, hv, hsel, hok, if_true]
      obtain ⟨hanswer, hctx⟩ := ctxset_accepted hs hc' hset fun _ => rfl
      exact ⟨hanswer, by rw [hctx]; rfl⟩
  · have hset : ctxSet c e s = (0, [], [.ctx c.num fun c => { c with waitThr := v }]) := by
      simp only [ctxSet, hv, hsel, hthr]
      rw [if_pos ⟨hlow, hhigh⟩]
    obtain ⟨hanswer, hctx⟩ := ctxset_accepted hs hc' hset fun _ => rfl
    exact ⟨hanswer, by rw [hctx]; rfl⟩
  · have hset : ctxSet c e s = (0, [], [.ctx c.num fun c => { c with quota := v }]) := by
      simp only [ctxSet, hv, hsel, hquota]
    obtain ⟨hanswer, hctx⟩ := ctxset_accepted hs hc' hset fun _ => rfl
    exact ⟨hanswer, by rw [hctx]; rfl⟩
  · rw [ctxSet_refuses hv hsel hbad]
    exact refused_shows hs

/-! ## LOAD, MTCLOAD -/

theorem loadRequest_shows (hs : Safe s) (hc : s.ctx? (entryCtx s e) = some c) (hn : nextRequest s = some (.load e))
    (hrange : entryArg s e 0 + entryArg s e 1 ≤ 2 ^ 46) : ∃ s', exec (.load e) s = .next s' ∧
      let r := loadModule s c (hostBytes s (entryArg s e 0) (entryArg s e 1))
      Answered s s' e r.1 ∧ s'.part.ctxs = (s.applyAll r.2).part.ctxs ∧ ∀ a < 0x400000000000, s'.byte a = (s.applyAll r.2).byte a := by
  have hrun := ctxAnswer_run (f := fun c s => if !hostRange (entryArg s e 0) (entryArg s e 1) then (0x100, [], [])
    else ((loadModule s c (hostBytes s (entryArg s e 0) (entryArg s e 1))).1, [],
      (loadModule s c (hostBytes s (entryArg s e 0) (entryArg s e 1))).2)) rfl hn hc
  rw [if_neg (by simpa [hostRange] using hrange)] at hrun
  refine ⟨_, hrun, ?_⟩
  have hcode := loadModule_code s c (hostBytes s (entryArg s e 0) (entryArg s e 1))
  have hring := loadModule_ring s s c (hostBytes s (entryArg s e 0) (entryArg s e 1))
  generalize loadModule s c (hostBytes s (entryArg s e 0) (entryArg s e 1)) = r at hcode hring ⊢
  have hdone := complete_completed e r.1 [] (s.applyAll r.2)
  exact ⟨complete_after hs hring (by omega), hdone.ctxs, fun a ha => hdone.low ha⟩

theorem mtcload_shows (hs : Safe s) (hc : s.ctx? (entryCtx s e) = some c) (hn : nextRequest s = some (.mtcload e))
    (hrange : entryArg s e 0 + entryArg s e 1 ≤ 2 ^ 46) : ∃ s', exec (.mtcload e) s = .next s' ∧
      let r := mtcLoad s c (hostBytes s (entryArg s e 0) (entryArg s e 1))
      Answered s s' e r.1 ∧ (r.1 = 4 → Given s s' e 1 r.2.1) ∧ s'.part.ctxs = (s.applyAll r.2.2).part.ctxs ∧
        s'.part.store = (s.applyAll r.2.2).part.store := by
  have hrun := ctxAnswer_run (f := fun c s => if !hostRange (entryArg s e 0) (entryArg s e 1) then (0x100, [], [])
    else ((mtcLoad s c (hostBytes s (entryArg s e 0) (entryArg s e 1))).1,
      if (mtcLoad s c (hostBytes s (entryArg s e 0) (entryArg s e 1))).1 = 4
        then [(1, (mtcLoad s c (hostBytes s (entryArg s e 0) (entryArg s e 1))).2.1)] else [],
      (mtcLoad s c (hostBytes s (entryArg s e 0) (entryArg s e 1))).2.2)) rfl hn hc
  rw [if_neg (by simpa [hostRange] using hrange)] at hrun
  refine ⟨_, hrun, ?_⟩
  obtain ⟨hstatus, hcode, hring⟩ := mtcLoad_result s c (hostBytes s (entryArg s e 0) (entryArg s e 1))
  generalize mtcLoad s c (hostBytes s (entryArg s e 0) (entryArg s e 1)) = r at hstatus hcode hring ⊢
  have hdone := complete_completed e r.1 (if r.1 = 4 then [(1, r.2.1)] else []) (s.applyAll r.2.2)
  have hwf := applyAll_mem_wf r.2.2 s hs.mem
  refine ⟨hdone.answered hwf hring (by omega), fun h4 => ?_, hdone.ctxs, hdone.field Part.store fun _ _ => rfl⟩
  rw [if_pos h4] at hdone ⊢
  exact hdone.given hwf hring (by omega)

/-! ## MAPHOST -/

theorem mapHost_refused (h : mapRefused c e s = true) : mapHost c e s = (0x100, [], []) := by
  simp only [mapHost, h, if_true]

/-- What a MAPHOST that is not refused does: it maps the pages, and the context takes the range. -/
theorem mapHost_maps (h : mapRefused c e s = false) {us : List Upd}
    (hus : mapPages c (entryArg s e 2) (fun i => leafPte (entryArg s e 3 / 4) ((hostBase + entryArg s e 0) / 65536 + i) false false (homeOfCtx c)
      (entryArg s e 3 % 4)) (List.range (entryArg s e 1 / 65536)) s = some us) :
    mapHost c e s = (0, [], us ++ [.ctx c.num fun c =>
      { c with ranges := if entryArg s e 1 = 0 then c.ranges else (entryArg s e 2, entryArg s e 1) :: c.ranges }]) := by
  simp only [mapHost, h, hus, Bool.false_eq_true, if_false]

/-- What the completion of a MAPHOST leaves. -/
theorem mapped_completes (hs : Safe s) (hc : s.ctx? c.num = some c) {us : List Upd} (hus : Grounded us) (va n : Nat) :
    let s' := (complete e 0 []).run (s.applyAll (us ++ [.ctx c.num fun c => { c with ranges := if n = 0 then c.ranges else (va, n) :: c.ranges }]))
    Answered s s' e 0 ∧ (s'.ctx? c.num).map Ctx.ranges = some (if n = 0 then c.ranges else (va, n) :: c.ranges) ∧
      ∀ a < 0x400000000000, s'.byte a = (s.applyAll us).byte a := by
  have hground := hus.ground s
  have hwf := applyAll_mem_wf us s hs.mem
  rw [applyAll_append, applyAll_cons, applyAll_nil]
  generalize s.applyAll us = b at hground hwf ⊢
  have hcb : b.ctx? c.num = some c := by rw [ground_ctx? hground, hc]
  have hctx := ctx?_apply_ctx hcb (f := fun c => { c with ranges := if n = 0 then c.ranges else (va, n) :: c.ranges }) fun _ => rfl
  have hring : SameRing s ((Upd.ctx c.num fun c => { c with ranges := if n = 0 then c.ranges else (va, n) :: c.ranges }).apply b) :=
    .trans (ground_ring hground) ⟨rfl, rfl⟩
  have hmem : ((Upd.ctx c.num fun c => { c with ranges := if n = 0 then c.ranges else (va, n) :: c.ranges }).apply b).mem = b.mem := rfl
  generalize (Upd.ctx c.num fun c => { c with ranges := if n = 0 then c.ranges else (va, n) :: c.ranges }).apply b = d at hctx hring hmem ⊢
  have hdone := complete_completed e 0 [] d
  refine ⟨hdone.answered (hmem ▸ hwf) hring (by decide), ?_, fun a ha => ?_⟩
  · rw [hdone.ctx?, hctx]
    rfl
  · rw [hdone.low ha, State.byte, State.byte, hmem]

theorem maphost_shows (hs : Safe s) (hc : s.ctx? (entryCtx s e) = some c) (hn : nextRequest s = some (.maphost e)) :
    ∃ s', exec (.maphost e) s = .next s' ∧
      let va := entryArg s e 2
      let n := entryArg s e 1
      let pte : Nat → Nat := fun i => leafPte (entryArg s e 3 / 4) ((hostBase + entryArg s e 0) / 65536 + i) false false (homeOfCtx c)
        (entryArg s e 3 % 4)
      (mapRefused c e s = true → Answered s s' e 0x100 ∧ s'.part.ctxs = s.part.ctxs) ∧
      (mapRefused c e s = false → ∀ us, mapPages c va pte (List.range (n / 65536)) s = some us → Answered s s' e 0 ∧
        (s'.ctx? c.num).map Ctx.ranges = some (if n = 0 then c.ranges else (va, n) :: c.ranges) ∧
        ∀ a < 0x400000000000, s'.byte a = (s.applyAll us).byte a) := by
  refine ⟨_, ctxAnswer_run (f := fun c => mapHost c e) rfl hn hc, fun href => ?_, fun hok us hus => ?_⟩
  · rw [mapHost_refused href]
    exact refused_shows hs
  · rw [mapHost_maps hok hus]
    exact mapped_completes hs (by rw [ctx_num hc, hc]) (mapPages_ground _ _ _ _ s us hus) _ _

/-! ## EXPORT -/

/-- A context after a range is given to a decoder, which shows nothing else from then on (R286). -/
def exportTo (num dec : Nat) (va : BitVec 64) (n : Nat) (d : Ctx) : Ctx :=
  { d with exports := if d.num = num then (dec, va, n) :: d.exports.filter (fun x => x.1 != dec) else d.exports.filter fun x => x.1 != dec }

theorem exportTo_exports {num dec n : Nat} {va : BitVec 64} {d : Ctx} (h : d.num ≠ num) :
    ∀ x ∈ (exportTo num dec va n d).exports, x.1 ≠ dec := by
  intro x hx
  simp only [exportTo, if_neg h] at hx
  simpa using (List.mem_filter.mp hx).2

/-- What EXPORT leaves of the contexts. -/
theorem export_completes (hs : Safe s) (hc : s.ctx? c.num = some c) (dec : Nat) (va : BitVec 64) (n : Nat) :
    let s' := (complete e 0 []).run (s.applyAll [.part fun p => { p with ctxs := p.ctxs.map (exportTo c.num dec va n) }])
    Answered s s' e 0 ∧ (dec, va, n) ∈ ((s'.ctx? c.num).map Ctx.exports).getD [] ∧
      ∀ d ∈ s'.part.ctxs, d.num ≠ c.num → ∀ x ∈ d.exports, x.1 ≠ dec := by
  intro s'
  have hctxs : s'.part.ctxs = s.part.ctxs.map (exportTo c.num dec va n) := (complete_completed e 0 [] _).ctxs
  refine ⟨complete_after hs ⟨rfl, rfl⟩ (by decide), ?_, fun d hd hnum => ?_⟩
  · rw [State.ctx?, hctxs, find?_num_map (f := exportTo c.num dec va n) (fun _ => rfl), ← State.ctx?, hc]
    simp [exportTo]
  · rw [hctxs] at hd
    obtain ⟨d, _, rfl⟩ := List.mem_map.mp hd
    exact exportTo_exports hnum

theorem exportMem_shows (hs : Safe s) (hc : s.ctx? (entryCtx s e) = some c) (hn : nextRequest s = some (.exportMem e)) :
    ∃ s', exec (.exportMem e) s = .next s' ∧
      let va := entryArg s e 0
      let n := entryArg s e 1
      let dec := entryArg s e 2
      let bad := va % 2 ^ 28 ≠ 0 ∨ n % 2 ^ 28 ≠ 0 ∨ n = 0 ∨ 0xFF000000000000 < va + n ∨ 7 < dec ∨
        ∃ x ∈ c.leavesIn s va n, x.barsExport = true
      (bad → Answered s s' e 0x100 ∧ s'.part.ctxs = s.part.ctxs) ∧
      (¬ bad → Answered s s' e 0 ∧ (dec, BitVec.ofNat 64 va, n) ∈ ((s'.ctx? c.num).map Ctx.exports).getD [] ∧
        ∀ d ∈ s'.part.ctxs, d.num ≠ c.num → ∀ x ∈ d.exports, x.1 ≠ dec) := by
  refine ⟨_, ctxAnswer_run (f := fun c => exportRange c e) rfl hn hc, ?_⟩
  have hc' : s.ctx? c.num = some c := by rw [ctx_num hc, hc]
  intro va n dec bad
  have hbad : bad ↔ (va % 2 ^ 28 ≠ 0 ∨ n % 2 ^ 28 ≠ 0 ∨ n = 0 ∨ vaEnd < va + n ∨ 7 < dec ∨
      (c.leavesIn s va n).any PtEntry.barsExport = true) := by
    rw [List.any_eq_true]
    rfl
  refine ⟨fun h => ?_, fun h => ?_⟩
  · have hrange : exportRange c e s = (0x100, [], []) := by
      simp only [exportRange]
      exact if_pos (hbad.mp h)
    rw [hrange]
    exact refused_shows hs
  · have hrange : exportRange c e s =
        (0, [], [.part fun p => { p with ctxs := p.ctxs.map (exportTo c.num dec (BitVec.ofNat 64 va) n) }]) := by
      simp only [exportRange]
      exact if_neg fun hno => h (hbad.mpr hno)
    rw [hrange]
    exact export_completes hs hc' dec _ n

/-! ## LAUNCH -/

theorem startStatus_le (k : Option Kernel) (r : StartArgs) : startStatus s c k r ≤ 5 := by
  unfold startStatus
  split
  · decide
  · split
    · decide
    · split
      · decide
      · split
        · decide
        · split <;> decide

/-- A start without a kernel fails. -/
theorem startStatus_none (r : StartArgs) : startStatus s c none r ≠ 0 := by
  unfold startStatus
  split
  · exact Nat.one_ne_zero
  · exact Nat.succ_ne_zero 1

/-- The launch that a start makes (R384). -/
def startedLaunch (s : State) (c : Ctx) (k : Kernel) (r : StartArgs) : Launch :=
  ⟨s.nextId, c.num, c.nextLaunch, k, if r.teams = 0 then k.defTeams else r.teams, 0, r.args, r.done, r.host, r.part, 0, s.time, false, [],
    r.queue, none⟩

theorem startLaunch_fails {k : Option Kernel} {r : StartArgs} (h : startStatus s c k r ≠ 0) :
    startLaunch s c k r = (startStatus s c k r, 0, []) := by
  unfold startLaunch
  split
  · next heq => exact absurd heq h
  · rfl

theorem startLaunch_starts {k : Kernel} {r : StartArgs} (h : startStatus s c (some k) r = 0) :
    startLaunch s c (some k) r = (0, c.nextLaunch, [.part fun p => { p with launches := p.launches ++ [startedLaunch s c k r] },
      .ctx c.num fun c => { c with nextLaunch := c.nextLaunch + 1 }, .named 1, .event (.teamDispatch s.nextId),
      .event (.launchWatchdog s.nextId)]) := by
  simp only [startLaunch, h]
  rfl

/-- What the completion of a launch request leaves, where its start has succeeded. -/
theorem started_completes (hs : Safe s) (k : Kernel) (r : StartArgs) :
    let us : List Upd := [.part fun p => { p with launches := p.launches ++ [startedLaunch s c k r] },
      .ctx c.num fun c => { c with nextLaunch := c.nextLaunch + 1 }, .named 1, .event (.teamDispatch s.nextId),
      .event (.launchWatchdog s.nextId)]
    let s' := (complete e 0 [(0, c.nextLaunch)]).run (s.applyAll us)
    Answered s s' e 0 ∧ (c.nextLaunch < 2 ^ 64 → Given s s' e 0 c.nextLaunch) ∧ Starts s s' c k r := by
  intro us
  have hring : SameRing s (s.applyAll us) := ⟨rfl, rfl⟩
  have hwf : Memory.wf (s.applyAll us).mem = true := hs.mem
  have hlaunches : (s.applyAll us).part.launches = s.part.launches ++ [startedLaunch s c k r] := rfl
  have hevent : Instr.teamDispatch s.nextId ∈ (s.applyAll us).events := List.mem_append_left _ (List.mem_append_right _ List.mem_cons_self)
  generalize s.applyAll us = b at hring hwf hlaunches hevent
  have hdone := complete_completed e 0 [(0, c.nextLaunch)] b
  have hleft := hdone.field Part.launches fun _ _ => rfl
  rw [hlaunches] at hleft
  exact ⟨hdone.answered hwf hring (by decide), hdone.given hwf hring,
    startedLaunch s c k r, hleft, rfl, rfl, rfl, rfl, rfl, rfl, rfl, rfl, rfl, hdone.events _ hevent⟩

/-- A launch request of an entry, with what its start does. -/
theorem startLaunch_hostStarts (hs : Safe s) (k : Option Kernel) (r : StartArgs) :
    HostStarts s ((complete e (startLaunch s c k r).1 (if (startLaunch s c k r).1 = 0 then [(0, (startLaunch s c k r).2.1)] else [])).run
      (s.applyAll (startLaunch s c k r).2.2)) e c k r := by
  by_cases hst : startStatus s c k r = 0
  · cases k with
    | none => exact absurd hst (startStatus_none r)
    | some k =>
      obtain ⟨hanswer, hgiven, hstarts⟩ := started_completes (e := e) (c := c) hs k r
      rw [startLaunch_starts hst]
      simp only [if_true]
      rw [HostStarts, hst]
      exact ⟨hanswer, fun h => absurd rfl h, fun _ => ⟨hgiven, k, rfl, hstarts⟩⟩
  · rw [startLaunch_fails hst]
    dsimp only
    rw [if_neg hst, applyAll_nil]
    refine ⟨complete_answers hs (Nat.lt_of_le_of_lt (startStatus_le k r) (by decide)), fun _ => ?_, fun h => absurd h hst⟩
    exact (complete_completed e _ [] s).field Part.launches fun _ _ => rfl

/-- R283: a LAUNCH starts the kernel that the name is given to. -/
theorem hostLaunchWith_eq (hmul : entryArg s e 4 % 8 = 0) :
    hostLaunchWith c e s =
      let r := startLaunch s c ((launchName s (entryArg s e 0)).bind fun name => (c.kernels.filter fun k => k.name == name).getLast?)
        ⟨entryArg s e 1, BitVec.ofNat 64 (entryArg s e 2), BitVec.ofNat 64 (entryArg s e 3), entryArg s e 4, c.part, none⟩
      (r.1, if r.1 = 0 then [(0, r.2.1)] else [], r.2.2) := by
  have hok : ¬ (entryArg s e 4 % 8 ≠ 0) := fun h => h hmul
  unfold hostLaunchWith
  dsimp only
  rw [if_neg hok]
  cases launchName s (entryArg s e 0) with
  | none => simp only [Option.bind_none]
  | some name => simp only [Option.bind_some]

theorem hostLaunch_shows (hs : Safe s) (hc : s.ctx? (entryCtx s e) = some c) (hn : nextRequest s = some (.hostLaunch e))
    (hmul : entryArg s e 4 % 8 = 0) : ∃ s', exec (.hostLaunch e) s = .next s' ∧
      HostStarts s s' e c ((launchName s (entryArg s e 0)).bind fun name => (c.kernels.filter fun k => k.name == name).getLast?)
        ⟨entryArg s e 1, BitVec.ofNat 64 (entryArg s e 2), BitVec.ofNat 64 (entryArg s e 3), entryArg s e 4, c.part, none⟩ := by
  have hrun := ctxAnswer_run (f := fun c => hostLaunchWith c e) rfl hn hc
  rw [hostLaunchWith_eq hmul] at hrun
  dsimp only at hrun
  generalize (launchName s (entryArg s e 0)).bind _ = k at hrun ⊢
  exact ⟨_, hrun, startLaunch_hostStarts hs k _⟩

/-! ## CTXEND -/

/-- From `a` to `b` the ring stays, and launches only leave. -/
def LaunchesLeave (a b : State) : Prop :=
  SameRing a b ∧ ∀ x ∈ b.part.launches.map fun l => (l.key, l.ctx), x ∈ a.part.launches.map fun l => (l.key, l.ctx)

theorem LaunchesLeave.refl (a : State) : LaunchesLeave a a := ⟨.refl a, fun _ h => h⟩
theorem LaunchesLeave.trans {a b c : State} (h : LaunchesLeave a b) (g : LaunchesLeave b c) : LaunchesLeave a c :=
  ⟨h.1.trans g.1, fun x hx => h.2 x (g.2 x hx)⟩
theorem LaunchesLeave.of_ground {a b : State} (h : b.ground = a.ground) : LaunchesLeave a b := ⟨ground_ring h, ground_launches h ▸ fun _ h => h⟩

/-- No launch of a key is left. -/
def Gone (key : Nat) (b : State) : Prop := ∀ x ∈ b.part.launches.map fun l => (l.key, l.ctx), x.1 ≠ key

theorem closeLaunch_leaves (l : Launch) (v : Nat) (a : State) : LaunchesLeave a ((closeLaunch l v).run a) := by
  simp only [closeLaunch, run_read]
  split
  · refine .of_ground (GroundEff.upds ?_ a)
    exact .cons (fun _ => rfl) (.one (launch_ground _ fun _ => ⟨rfl, rfl⟩))
  · next us hus =>
    rw [run_seq, run_seq, run_upds, run_upds, run_upds]
    have hstored := Grounded.ground (us := if l.host = 0 ∨ 2 ^ 46 < l.host + 8 then [] else [.store (hostBase + l.host) (leBytes 8 v)])
      (.ite .nil (.one (store_ground _ _))) (a.applyAll us)
    refine .trans (.of_ground (hstored.trans ((writeDone_ground hus).ground a))) ⟨⟨rfl, rfl⟩, fun x hx => ?_⟩
    obtain ⟨m, hm, rfl⟩ := List.mem_map.mp hx
    exact List.mem_map_of_mem (List.mem_filter.mp hm).1

/-- A launch whose completion no word tells is closed at once. -/
theorem closeLaunch_gone {l : Launch} (hdone : l.done = 0#64) (v : Nat) (a : State) : Gone l.key ((closeLaunch l v).run a) := by
  have hword : writeDone a l v = .ok [] := by
    unfold writeDone
    exact if_pos hdone
  simp only [closeLaunch, run_read, hword, run_seq, run_upds]
  intro x hx
  obtain ⟨m, hm, rfl⟩ := List.mem_map.mp hx
  simpa using (List.mem_filter.mp hm).2

/-- What the end of a launch does with its teams leaves the ground. -/
theorem endTeams_ground (ts : List Team) :
    GroundEff (.each (fun x => .seq (completeForSave x.key) (.seq (finishWork x.key) (removeTeam x.key))) ts) :=
  .each fun x => .seq (completeForSave_ground x.key) (.seq (finishWork_ground x.key) (removeTeam_ground x.key))

theorem endLaunch_leaves (l : Launch) (v : Nat) (a : State) : LaunchesLeave a ((endLaunch l v).run a) := by
  rw [endLaunch, run_read, run_seq]
  exact .trans (.of_ground (endTeams_ground _ a)) (closeLaunch_leaves l v _)

theorem endLaunch_gone {l : Launch} (hdone : l.done = 0#64) (v : Nat) (a : State) : Gone l.key ((endLaunch l v).run a) := by
  rw [endLaunch, run_read, run_seq]
  exact closeLaunch_gone hdone v _

theorem endLaunches_leave (v : Nat) (ls : List Launch) (a : State) : LaunchesLeave a ((Eff.each (fun l => endLaunch l v) ls).run a) :=
  each_rel LaunchesLeave .refl (fun _ _ _ => .trans) _ ls a fun l _ b => endLaunch_leaves l v b

theorem endLaunches_gone (v : Nat) {ls : List Launch} (hdone : ∀ l ∈ ls, l.done = 0#64) (a : State) :
    ∀ l ∈ ls, Gone l.key ((Eff.each (fun l => endLaunch l v) ls).run a) := by
  induction ls generalizing a with
  | nil => exact fun l hl => absurd hl List.not_mem_nil
  | cons m ls ih =>
    intro l hl
    rw [run_each_cons]
    rcases List.mem_cons.mp hl with rfl | hl
    · exact fun x hx => endLaunch_gone (hdone _ List.mem_cons_self) v a x ((endLaunches_leave v ls _).2 x hx)
    · exact ih (fun l hl => hdone l (List.mem_cons_of_mem _ hl)) _ l hl

/-- The launches that a CTXEND ends. -/
def ctxLaunches (s : State) (c : Ctx) : List Launch := s.part.launches.filter fun l => l.ctx == c.num

/-- Once the launches of a context are ended without a word to write, none of it is left. -/
theorem ctxLaunches_ended (hdone : ∀ l ∈ s.part.launches, l.ctx = c.num → l.done = 0#64) (v : Nat) :
    ∀ l ∈ ((Eff.each (fun l => endLaunch l v) (ctxLaunches s c)).run s).part.launches, l.ctx ≠ c.num := by
  intro l hl hctx
  have hpair := List.mem_map_of_mem (f := fun l : Launch => (l.key, l.ctx)) hl
  obtain ⟨m, hm, heq⟩ := List.mem_map.mp ((endLaunches_leave v (ctxLaunches s c) s).2 _ hpair)
  obtain ⟨hkey, hmctx⟩ := Prod.mk.inj heq
  refine endLaunches_gone v (ls := ctxLaunches s c) (fun l hl => ?_) s m (List.mem_filter.mpr ⟨hm, ?_⟩) _ hpair hkey.symm
  · obtain ⟨hl, hlctx⟩ := List.mem_filter.mp hl
    exact hdone l hl (by simpa using hlctx)
  · simp [hmctx, hctx]

/-- A context without launches is destroyed, and the request completes. -/
theorem destroyCtx_completes {b : State} (hwf : Memory.wf b.mem = true) (hring : SameRing s b) (hnone : ∀ l ∈ b.part.launches, l.ctx ≠ c.num) :
    let s' := (complete e 0 []).run ((destroyCtx c).apply b)
    Answered s s' e 0 ∧ s'.ctx? c.num = none ∧ ∀ l ∈ s'.part.launches, l.ctx ≠ c.num := by
  have hctxs : ((destroyCtx c).apply b).part.ctxs = b.part.ctxs.filter fun d => d.num != c.num := rfl
  have hlaunches : ((destroyCtx c).apply b).part.launches = b.part.launches := rfl
  have hring' : SameRing s ((destroyCtx c).apply b) := hring.trans ⟨rfl, rfl⟩
  have hwf' : Memory.wf ((destroyCtx c).apply b).mem = true := hwf
  generalize (destroyCtx c).apply b = d at hctxs hlaunches hring' hwf'
  have hdone := complete_completed e 0 [] d
  have hleft := hdone.field Part.launches fun _ _ => rfl
  refine ⟨hdone.answered hwf' hring' (by decide), ?_, ?_⟩
  · rw [hdone.ctx?, State.ctx?, hctxs]
    exact List.find?_eq_none.mpr fun d hd => by simpa using (List.mem_filter.mp hd).2
  · rw [hleft, hlaunches]
    exact hnone

theorem ctxend_shows (hs : Safe s) (hc : s.ctx? (entryCtx s e) = some c) (hn : nextRequest s = some (.ctxend e)) :
    ∃ s', exec (.ctxend e) s = .next s' ∧
      ((∀ l ∈ s.part.launches, l.ctx = c.num → l.done = 0#64) → Answered s s' e 0 ∧ s'.ctx? c.num = none ∧
        ∀ l ∈ s'.part.launches, l.ctx ≠ c.num) ∧
      ((s'.ctx? c.num = none ∧ (∀ l ∈ s'.part.launches, l.ctx ≠ c.num) ∧ Answered s s' e 0) ∨ Instr.ctxend e ∈ s'.events) := by
  have hexec : exec (.ctxend e) s = execCtxend e s := rfl
  rw [hexec, execCtxend, serve_run hn, withCtx_run hc, run_read, run_seq, run_read, ← ctxLaunches]
  refine ⟨_, rfl, ?_⟩
  have hended := fun hdone => ctxLaunches_ended (s := s) (c := c) hdone (doneValue 3 0 0)
  have hring := (endLaunches_leave (doneValue 3 0 0) (ctxLaunches s c) s).1
  have hwf := run_mem_wf (Eff.each (fun l => endLaunch l (doneValue 3 0 0)) (ctxLaunches s c)) s hs.mem
  generalize (Eff.each (fun l => endLaunch l (doneValue 3 0 0)) (ctxLaunches s c)).run s = b at hended hring hwf ⊢
  split
  · next hany =>
    obtain ⟨l, hl, hctx⟩ := List.any_eq_true.mp hany
    exact ⟨fun hdone => absurd (by simpa using hctx) (hended hdone l hl), .inr (List.mem_append_right _ List.mem_cons_self)⟩
  · next hany =>
    have hnone : ∀ l ∈ b.part.launches, l.ctx ≠ c.num := fun l hl hctx => hany (List.any_eq_true.mpr ⟨l, hl, by simp [hctx]⟩)
    rw [run_seq, run_upds, applyAll_cons, applyAll_nil]
    obtain ⟨hanswer, hgone, hleft⟩ := destroyCtx_completes (e := e) hwf hring hnone
    exact ⟨fun _ => ⟨hanswer, hgone, hleft⟩, .inl ⟨hgone, hleft, hanswer⟩⟩

end

end Sys2Proof.Machine
end

section
/-! The host's accesses of exported memory (R286), and O57. -/

open Sys2Proof Sys2Proof.Machine

namespace Sys2Proof.Machine

section
variable {dec : BitVec 3} {off : Nat} {s : State}

/-! ## Reads -/

/-- What HOST_CXL_READ does where a decoder exports the line. -/
def cxlReads (s : State) (c : Ctx) (va : Nat) : List Upd := match pageFor s c hostIssuer true false .load va 128 with
  | (.error _, us) => us ++ [.report (.exportFault c.num), .part fun q => { q with hostRead := some ([], true) }]
  | (.ok p, us) =>
    us ++ (homeRead (s.applyAll us) p c.num 16).2 ++
      [.part fun q => { q with hostHeld := p.pa / 128 :: q.hostHeld.filter (· != p.pa / 128),
                               hostRead := some (homeBytes s (p.pa / 128 * 128) 128, false) }]

theorem hostCxlRead_unexported (h : exportedAt s dec.toNat (off / 128 * 128) = none) : exec (.hostCxlRead dec off) s = .next s := by
  have hexec : exec (.hostCxlRead dec off) s = execHostCxlRead dec off s := rfl
  rw [hexec, execHostCxlRead]
  simp only [Machine.run, run_act, h, applyAll_nil]

theorem hostCxlRead_exported {c : Ctx} {va : Nat} (h : exportedAt s dec.toNat (off / 128 * 128) = some (c, va)) :
    exec (.hostCxlRead dec off) s = .next (s.applyAll (cxlReads s c va)) := by
  have hexec : exec (.hostCxlRead dec off) s = execHostCxlRead dec off s := rfl
  rw [hexec, execHostCxlRead]
  simp only [Machine.run, run_act, h]
  rfl

theorem cxlReads_ok {c : Ctx} {va : Nat} {p : Page} {us : List Upd} (h : pageFor s c hostIssuer true false .load va 128 = (.ok p, us)) :
    p.pa / 128 ∈ (s.applyAll (cxlReads s c va)).part.hostHeld ∧
      (s.applyAll (cxlReads s c va)).part.hostRead = some (homeBytes s (p.pa / 128 * 128) 128, false) := by
  simp only [cxlReads, h]
  rw [applyAll_append, applyAll_cons, applyAll_nil]
  exact ⟨List.mem_cons_self, rfl⟩

theorem cxlReads_error {c : Ctx} {va r : Nat} {us : List Upd} (h : pageFor s c hostIssuer true false .load va 128 = (.error r, us)) :
    Report.exportFault c.num ∈ (s.applyAll (cxlReads s c va)).part.reports ∧
      (s.applyAll (cxlReads s c va)).part.hostRead = some ([], true) := by
  simp only [cxlReads, h]
  rw [applyAll_append, applyAll_cons, applyAll_cons, applyAll_nil]
  exact ⟨mem_reports_report (s.applyAll us) _, rfl⟩

theorem hostCxlRead_shows (dec : BitVec 3) (off : Nat) (s : State) :
    ∃ s', exec (.hostCxlRead dec off) s = .next s' ∧ (exportedAt s dec.toNat (off / 128 * 128) = none → s' = s) ∧
      ∀ c va, exportedAt s dec.toNat (off / 128 * 128) = some (c, va) →
        (∀ p us, pageFor s c hostIssuer true false .load va 128 = (.ok p, us) → p.pa / 128 ∈ s'.part.hostHeld ∧
          s'.part.hostRead = some (homeBytes s (p.pa / 128 * 128) 128, false)) ∧
        (∀ r us, pageFor s c hostIssuer true false .load va 128 = (.error r, us) → Report.exportFault c.num ∈ s'.part.reports ∧
          s'.part.hostRead = some ([], true)) := by
  cases hx : exportedAt s dec.toNat (off / 128 * 128) with
  | none => exact ⟨s, hostCxlRead_unexported hx, fun _ => rfl, nofun⟩
  | some x =>
    refine ⟨_, hostCxlRead_exported hx, nofun, fun c va hsome => ?_⟩
    obtain rfl := Option.some.inj hsome
    exact ⟨fun p us h => cxlReads_ok h, fun r us h => cxlReads_error h⟩

/-! ## Writes -/

/-- What HOST_CXL_WRITE does where a decoder exports the bytes. -/
def cxlWrites (dec : BitVec 3) (off : Nat) (v : BitVec 64) (s : State) (c : Ctx) (va : Nat) : List Upd :=
  match pageFor s c hostIssuer true false .store va 8 with
  | (.error _, us) => us ++ [.report (.exportFault c.num)]
  | (.ok p, us) => match ctxWrite (s.applyAll us) c.num p.home p (leBytes 8 v.toNat) with
    | .error w => us ++ [Upd.report w.2, .event (.hostCxlWrite dec off v)]
    | .ok vs => us ++ vs

theorem hostCxlWrite_unexported {v : BitVec 64} (h : exportedAt s dec.toNat (off / 8 * 8) = none) : exec (.hostCxlWrite dec off v) s = .next s := by
  have hexec : exec (.hostCxlWrite dec off v) s = execHostCxlWrite dec off v s := rfl
  rw [hexec, execHostCxlWrite]
  simp only [Machine.run, run_act, h, applyAll_nil]

theorem hostCxlWrite_exported {v : BitVec 64} {c : Ctx} {va : Nat} (h : exportedAt s dec.toNat (off / 8 * 8) = some (c, va)) :
    exec (.hostCxlWrite dec off v) s = .next (s.applyAll (cxlWrites dec off v s c va)) := by
  have hexec : exec (.hostCxlWrite dec off v) s = execHostCxlWrite dec off v s := rfl
  rw [hexec, execHostCxlWrite]
  simp only [Machine.run, run_act, h]
  rfl

/-- A translation writes no memory. -/
theorem pageFor_mem {c : Ctx} {issuer : Nat} {user vetted : Bool} {k : AccessKind} {va n : Nat} {r : Except Nat Page} {us : List Upd}
    (h : pageFor s c issuer user vetted k va n = (r, us)) : (s.applyAll us).mem = s.mem := by
  rw [pageFor_updates h]
  unfold leafFor
  split
  · rfl
  · split <;> rfl

/-- The bytes that are written are read back at the home point. -/
theorem cxlWrites_written {v : BitVec 64} {c : Ctx} {va : Nat} {p : Page} (hset : Settled s)
    (h : pageFor s c hostIssuer true false .store va 8 = (.ok p, [])) (hplain : Plain (.page p)) (hva : va % 8 = 0) :
    homeBytes (s.applyAll (cxlWrites dec off v s c va)) p.pa 8 = leBytes 8 v.toNat := by
  obtain ⟨hmt, hkind, -⟩ := hplain
  have hoff := pageBut_offset h
  have hin : p.pa % 16 + (leBytes 8 v.toNat).length ≤ 16 := by
    rw [leBytes_length]
    omega
  obtain ⟨us, hus, hrewrites, -⟩ := writePlace_page (.of_settled hset) (ctxAgent c.num p.home) hmt hkind hin
  have hwrite : cxlWrites dec off v s c va = us := by
    simp only [cxlWrites, h, applyAll_nil, ctxWrite_eq, hus, List.nil_append]
  have hread := hrewrites.read
  rw [leBytes_length] at hread
  rw [hwrite]
  exact hread

theorem cxlWrites_waits {v : BitVec 64} {c : Ctx} {va : Nat} {p : Page} {us : List Upd} {w : Wait × Report}
    (h : pageFor s c hostIssuer true false .store va 8 = (.ok p, us))
    (hw : ctxWrite (s.applyAll us) c.num p.home p (leBytes 8 v.toNat) = .error w) :
    Instr.hostCxlWrite dec off v ∈ (s.applyAll (cxlWrites dec off v s c va)).events := by
  simp only [cxlWrites, h, hw]
  rw [applyAll_append, applyAll_cons, applyAll_cons, applyAll_nil]
  exact List.mem_append_right _ List.mem_cons_self

theorem cxlWrites_error {v : BitVec 64} {c : Ctx} {va r : Nat} {us : List Upd}
    (h : pageFor s c hostIssuer true false .store va 8 = (.error r, us)) :
    Report.exportFault c.num ∈ (s.applyAll (cxlWrites dec off v s c va)).part.reports ∧
      (s.applyAll (cxlWrites dec off v s c va)).mem = s.mem := by
  simp only [cxlWrites, h]
  rw [applyAll_append, applyAll_cons, applyAll_nil]
  exact ⟨mem_reports_report (s.applyAll us) _, pageFor_mem h⟩

theorem hostCxlWrite_shows (dec : BitVec 3) (off : Nat) (v : BitVec 64) (s : State) :
    ∃ s', exec (.hostCxlWrite dec off v) s = .next s' ∧ (exportedAt s dec.toNat (off / 8 * 8) = none → s' = s) ∧
      ∀ c va, exportedAt s dec.toNat (off / 8 * 8) = some (c, va) →
        (∀ p, Settled s → pageFor s c hostIssuer true false .store va 8 = (.ok p, []) → Plain (.page p) → va % 8 = 0 →
          homeBytes s' p.pa 8 = leBytes 8 v.toNat) ∧
        (∀ p us w, pageFor s c hostIssuer true false .store va 8 = (.ok p, us) →
          ctxWrite (s.applyAll us) c.num p.home p (leBytes 8 v.toNat) = .error w → Instr.hostCxlWrite dec off v ∈ s'.events) ∧
        (∀ r us, pageFor s c hostIssuer true false .store va 8 = (.error r, us) → Report.exportFault c.num ∈ s'.part.reports ∧
          s'.mem = s.mem) := by
  cases hx : exportedAt s dec.toNat (off / 8 * 8) with
  | none => exact ⟨s, hostCxlWrite_unexported hx, fun _ => rfl, nofun⟩
  | some x =>
    refine ⟨_, hostCxlWrite_exported hx, nofun, fun c va hsome => ?_⟩
    obtain rfl := Option.some.inj hsome
    exact ⟨fun p hset h hplain hva => cxlWrites_written hset h hplain hva, fun p us w h hw => cxlWrites_waits h hw,
      fun r us h => cxlWrites_error h⟩

end

/-! ## The obligation -/

/-- Settles O57: each clause is the lemma of its request; requests on contexts and on the part share the completion of their entry, and what
they do besides leaves the ring. -/
theorem hostRequestResults : Obligations.HostRequestResults := by
  refine ⟨fun base len v ws s hs hn => hostDoorbell_shows base len v ws hs hn, fun e s hs => ?_,
    fun e i s hs hi hn hc => missingCtx_requests hs hi hn hc, fun e c s hs hc => ?_,
    fun dec off v s => ⟨hostCxlRead_shows dec off s, hostCxlWrite_shows dec off v s⟩⟩
  · exact ⟨ctxnew_shows hs, attest_shows hs, recoveryLoad_shows hs, celloff_shows hs, cellon_shows hs, drain_shows hs, undrain_shows hs,
      laneoff_shows hs, serviceReserved_shows hs, reservedRequest_shows hs⟩
  · exact ⟨ctxend_shows hs hc, ctxset_shows hs hc, loadRequest_shows hs hc, mtcload_shows hs hc, maphost_shows hs hc, exportMem_shows hs hc,
      hostLaunch_shows hs hc⟩

end Sys2Proof.Machine
end
